-- ==== Sys2Proof/Word.lean ====
section
/-! DEFINITION. Word.lean: the word types of the HL9 (R1, R43, R59). Bit helpers that a repair may mend stand in Machine/Bits.lean. -/
namespace Sys2Proof

/-- One byte of memory or of a tile. -/
abbrev Byte := BitVec 8

/-- One lane word (R43). -/
abbrev Word := BitVec 32

/-- One uniform register, mask or address (R43, R80). -/
abbrev DWord := BitVec 64

end Sys2Proof
end

