-- ==== Sys2Proof/Syntax.lean ====
section
/-! DEFINITION. Syntax.lean: the operand forms and the ONE instruction type of the HL9. Every row of
spec/opcode_table.json is a constructor of `Instr`: the instruction words of chapters 07 to 14 and 21 (R121 to R132),
and, after them, the part's other whole steps, which chapter 95 lists beside the words (a landing load, a page walk, a
gang reserved, a host write ...). A word's operands are its encoding's fields; a step's operands name what it acts on. -/
namespace Sys2Proof

/-- Lane registers v0-v63 (R43). -/
abbrev VReg := BitVec 6
/-- Uniform registers s0-s63 (R43). -/
abbrev SReg := BitVec 6
/-- Lane predicates p0-p7 (R43). -/
abbrev PReg := BitVec 3
/-- Uniform predicates q0-q7 (R43). -/
abbrev QReg := BitVec 3
/-- Completion registers c0-c7 (R43, R54). -/
abbrev CReg := BitVec 3
/-- Pins k0-k7 (R43). -/
abbrev KReg := BitVec 3
/-- Tensor slots t0-t15 (R43). -/
abbrev TReg := BitVec 4
/-- Codebooks cb0-cb7 (R43). -/
abbrev CbReg := BitVec 3

/-- The B7 operand: a lane register or a uniform register (Table 7-14, R45). -/
inductive LaneSrc where
  | v (r : VReg)
  | s (r : SReg)
  deriving DecidableEq, Repr

/-- The hold field H (R52). It never changes a result. -/
inductive Hold where | none | a | b | d
  deriving DecidableEq, Repr

/-- The guard field G (R120): the sense N and the predicate Q. -/
structure Guard where
  neg : Bool
  q : QReg
  deriving DecidableEq, Repr

/-- Access sizes SZ 0-3 (Table 7-14). -/
inductive Size where | b8 | b16 | b32 | b64
  deriving DecidableEq, Repr

/-- Scope codes 0-6 (Table 1-3); code 7 is reserved. -/
inductive Scope where | core | quad | die | package | pod | system | tenant
  deriving DecidableEq, Repr

/-- The hint field HT (Table 5-4). -/
inductive Hint where | normal | evictFirst | evictLast | noAllocate
  deriving DecidableEq, Repr

/-- Atomic operations, codes 0-14 (Table 7-20). -/
inductive AtomOp where
  | add | sub | min | max | minu | maxu | and | or | xor | xchg | add64 | xchg64 | fadd | min64 | max64
  deriving DecidableEq, Repr

/-- Compare conditions (Table 7-21, compare column). -/
inductive Cond where | eq | ne | lt | le | gt | ge | ltu | geu
  deriving DecidableEq, Repr

/-- Wait conditions (Table 7-21, wait column). -/
inductive WaitCond where | eq | ne | geu | ltu | ge | lt | anyset | allclr
  deriving DecidableEq, Repr

/-- Floating-point compare conditions (R178). -/
inductive FCond where | eq | ne | lt | le | gt | ge | un | or
  deriving DecidableEq, Repr

/-- How a compare combines with p[PS]: CMB 0-2 (R166). -/
inductive Cmb where | replace | and | or
  deriving DecidableEq, Repr

/-- Rounding modes (Table 4-3). -/
inductive RoundMode where | rne | rtz | rdn | rup | rna
  deriving DecidableEq, Repr

/-- A rounding field: a mode, or DYN, which uses FPMODE.RM (Table 4-3). -/
inductive Rnd where
  | mode (m : RoundMode)
  | dyn
  deriving DecidableEq, Repr

/-- Conversion codes 0-17 (Table 7-22). -/
inductive CvtCode where
  | f32S32 | f32U32 | s32F32 | u32F32 | f32Bf16lo | f32Bf16hi | bf16x2F32 | f16x2F32 | f32F16lo | f32F16hi
  | e4m3x4F32 | e5m2x4F32 | f32E4m3 | f32E5m2 | f32S8 | f32U8 | f32S16 | s8F32
  deriving DecidableEq, Repr

/-- REDU operations (R149). -/
inductive ReduOp where | add | min | max | minu | maxu | and | or | xor
  deriving DecidableEq, Repr

/-- REDQ transport formats QF 0-2 (R196). -/
inductive QFmt where | bf16 | e4m3 | e5m2
  deriving DecidableEq, Repr

/-- LDREP types TY 0-2 (R197). -/
inductive RepTy where | s32 | s64 | f32
  deriving DecidableEq, Repr

/-- PREF kinds 0-4 (R198, Table 5-4). -/
inductive PrefKind where | l2 | l1 | keep | demote | release
  deriving DecidableEq, Repr

/-- FN of MMA and MMAI (R201). -/
inductive MatFn where | acc | overwrite | neg
  deriving DecidableEq, Repr

/-- The decode causes of R134. -/
inductive DecodeCause where | illegal | reserved | privileged | formatBase | pair
  deriving DecidableEq, Repr

/-- The cause codes of Table 23-7 (R329) that the HL9 can raise. -/
inductive Cause where
  | illegal | reserved | privileged | shape | formatBlock | role | pair | brk | specialReg | emDiverged
  | fpInvalid | fpDivZero | fpOverflow | fpUnderflow | fpInexact | residue | intDivZero
  | pageFault | protection | misaligned | staleGen | tileHandle | tileBounds | tensorRecord | replicated | tileLevel
  | mouldHandle | rowPool | mouldFull | stampLimit | givenReg
  | pressBroken | pressUnbound | ticket | barrierCount | reconverge | queueBad | linkLoss
  | residueLocated | watermark | regError | memError | tileError | injected | retryExhausted
  | preempt | partition | clamped | keySlot | service
  | trap (n : BitVec 4)
  deriving DecidableEq, Repr

/-- A firmware image (R374). The spec does not lay its header out, so that the event gives what it holds: whether it is well
formed, the version, the public key, the signature and what it covers, the bytes of the whole image, and the code images with
their entries and the place they are loaded at (log entry 104). -/
structure FirmwareImage where
  headerGood : Bool
  version : Nat
  publicKey : List Byte
  signature : List Byte
  rest : List Byte
  bytes : List Byte
  serviceEntry : DWord
  contextEntry : DWord
  base : Nat
  code : List Byte
  deriving DecidableEq, Repr

/-- An access that a memory controller returns with an old generation (R325): the fetch of a ply's next instruction, its next
access, or a block of a copy. -/
inductive StaleAccess where
  | fetch (ply : Nat)
  | data (ply : Nat)
  | copy (seq block : Nat)
  deriving DecidableEq, Repr

/-- A request on a bus: a read of `len` bytes or a write of the given bytes (R361, R366, R370); or, of another package, a RED, an
atomic with its operand, over 64 bits where it is wide, or a CAS of a word or a pair (R366). -/
inductive BusRequest where
  | read (len : Nat)
  | write (data : List Byte)
  | red (op : AtomOp) (value : DWord)
  | atom (op : AtomOp) (wide : Bool) (value : DWord)
  | cas (wide : Bool) (expected new : DWord)
  deriving DecidableEq, Repr

/-- A BAR of the host port (R360): BAR2 or BAR0 of a virtual function, or BAR0 of the physical function. -/
inductive HostBar where
  | bar2 (vf : Nat)
  | bar0 (vf : Nat)
  | physical
  deriving DecidableEq, Repr

/-- The queue for which a drive's DMA is made (R368, R370): that of a lease, or the admin queues of a drive. -/
inductive DmaQueue where
  | lease (k : Nat)
  | admin (drive : Nat)
  deriving DecidableEq, Repr

/-- A request of a drive, and whether it has Relaxed Ordering (R362). -/
structure DmaRequest where
  request : BusRequest
  relaxed : Bool
  deriving DecidableEq, Repr

/-- An Aktum port that comes up, and the packages that it reaches (R365). -/
structure AktumPort where
  port : Nat
  reaches : List Nat
  deriving DecidableEq, Repr

/-- A push port of the host port: a virtual function's submission queue, or mailbox ring 48 + j (R360). -/
inductive PushPort where
  | function (f : Nat)
  | ring (j : Nat)
  deriving DecidableEq, Repr

/-- A message of the pod barrier network (R238, R239): an arrival of another package with its count, or a completed phase. -/
inductive PodBarrier where
  | arrival (count : Nat)
  | complete
  deriving DecidableEq, Repr

/-- A bit error that arises of itself in a protected array (Table 25-1). `bad` says that it is uncorrectable. -/
inductive ArrayError where
  | rowStore (core row lane : Nat) (bad : Bool)
  /-- at an offset of a core's uniform store; `reader` reads the word at once -/
  | uniformStore (core offset : Nat) (reader : Option Nat) (bad : Bool)
  | tileStore (core granule : Nat) (byte : Nat) (bad : Bool)
  | l1Line (core line : Nat)
  | instructionCache (core line : Nat)
  | tlb (core : Nat)
  | l2 (pa : Nat) (bad : Bool)
  | hbm (pa : Nat) (bad : Bool)
  deriving DecidableEq, Repr

/-- The instructions and steps of the HL9: one constructor per row of spec/opcode_table.json, in the table's order.
Each constructor's comment gives the row's rule and what the step does. -/
inductive Instr where
  /-- IADD (R163). Adds the B7 operand to v[A] in every active lane, wrapping to 32 bits. -/
  | iadd (d a : VReg) (b : LaneSrc) (h : Hold)
  /-- ISUB (R163). Subtracts the B7 operand from v[A] in every active lane, wrapping to 32 bits. -/
  | isub (d a : VReg) (b : LaneSrc) (h : Hold)
  /-- IMUL (R163). Writes the low 32 bits of the product of v[A] and B in every active lane. -/
  | imul (d a : VReg) (b : LaneSrc) (h : Hold)
  /-- IMULHI (R163). Writes the high 32 bits of the signed product in every active lane. -/
  | imulhi (d a : VReg) (b : LaneSrc) (h : Hold)
  /-- IMULHU (R163). Writes the high 32 bits of the unsigned product in every active lane. -/
  | imulhu (d a : VReg) (b : LaneSrc) (h : Hold)
  /-- IMIN (R163). Writes the signed minimum of v[A] and B in every active lane. -/
  | imin (d a : VReg) (b : LaneSrc) (h : Hold)
  /-- IMAX (R163). Writes the signed maximum of v[A] and B in every active lane. -/
  | imax (d a : VReg) (b : LaneSrc) (h : Hold)
  /-- IMINU (R163). Writes the unsigned minimum of v[A] and B in every active lane. -/
  | iminu (d a : VReg) (b : LaneSrc) (h : Hold)
  /-- IMAXU (R163). Writes the unsigned maximum of v[A] and B in every active lane. -/
  | imaxu (d a : VReg) (b : LaneSrc) (h : Hold)
  /-- IADDSAT (R163). Writes the signed sum clamped to the INT32 range in every active lane. -/
  | iaddsat (d a : VReg) (b : LaneSrc) (h : Hold)
  /-- ISUBSAT (R163). Writes the signed difference clamped to the INT32 range in every active lane. -/
  | isubsat (d a : VReg) (b : LaneSrc) (h : Hold)
  /-- IADDUSAT (R163). Writes the unsigned sum clamped to 2^32-1 in every active lane. -/
  | iaddusat (d a : VReg) (b : LaneSrc) (h : Hold)
  /-- ISUBUSAT (R163). Writes the unsigned difference clamped at 0 in every active lane. -/
  | isubusat (d a : VReg) (b : LaneSrc) (h : Hold)
  /-- IABSD (R163). Writes the absolute signed difference as an unsigned value in every active lane. -/
  | iabsd (d a : VReg) (b : LaneSrc) (h : Hold)
  /-- AND (R164). Writes the bitwise AND of v[A] and B in every active lane. -/
  | andB (d a : VReg) (b : LaneSrc) (h : Hold)
  /-- OR (R164). Writes the bitwise OR of v[A] and B in every active lane. -/
  | orB (d a : VReg) (b : LaneSrc) (h : Hold)
  /-- XOR (R164). Writes the bitwise XOR of v[A] and B in every active lane. -/
  | xorB (d a : VReg) (b : LaneSrc) (h : Hold)
  /-- ANDN (R164). Writes v[A] AND NOT B in every active lane. -/
  | andn (d a : VReg) (b : LaneSrc) (h : Hold)
  /-- ORN (R164). Writes v[A] OR NOT B in every active lane. -/
  | orn (d a : VReg) (b : LaneSrc) (h : Hold)
  /-- XNOR (R164). Writes NOT (v[A] XOR B) in every active lane. -/
  | xnor (d a : VReg) (b : LaneSrc) (h : Hold)
  /-- SHL (R164). Shifts v[A] left by b[4:0] in every active lane. -/
  | shl (d a : VReg) (b : LaneSrc) (h : Hold)
  /-- SHR (R164). Shifts v[A] right logically by b[4:0] in every active lane. -/
  | shr (d a : VReg) (b : LaneSrc) (h : Hold)
  /-- SAR (R164). Shifts v[A] right arithmetically by b[4:0] in every active lane. -/
  | sar (d a : VReg) (b : LaneSrc) (h : Hold)
  /-- ROTL (R164). Rotates v[A] left by b[4:0] in every active lane. -/
  | rotl (d a : VReg) (b : LaneSrc) (h : Hold)
  /-- ROTR (R164). Rotates v[A] right by b[4:0] in every active lane. -/
  | rotr (d a : VReg) (b : LaneSrc) (h : Hold)
  /-- POPC (R164). Writes the number of 1 bits of v[A] in every active lane. -/
  | popc (d a : VReg) (h : Hold)
  /-- CLZ (R164). Writes the leading-zero count of v[A] in every active lane. -/
  | clz (d a : VReg) (h : Hold)
  /-- BREV (R164). Writes v[A] with its bit order reversed in every active lane. -/
  | brev (d a : VReg) (h : Hold)
  /-- BFX (R164). Extracts an unsigned bit field of v[A] placed by b in every active lane. -/
  | bfx (d a : VReg) (b : LaneSrc) (h : Hold)
  /-- BFXS (R164). Extracts a sign-extended bit field of v[A] placed by b in every active lane. -/
  | bfxs (d a : VReg) (b : LaneSrc) (h : Hold)
  /-- IADDI (R165). Adds the signed 13-bit immediate to v[A] in every active lane. -/
  | iaddi (d a : VReg) (i : BitVec 13)
  /-- IMULI (R165). Multiplies v[A] by the signed immediate, keeping 32 bits, in every active lane. -/
  | imuli (d a : VReg) (i : BitVec 13)
  /-- ANDI (R165). ANDs v[A] with the sign-extended immediate in every active lane. -/
  | andi (d a : VReg) (i : BitVec 13)
  /-- ORI (R165). ORs v[A] with the sign-extended immediate in every active lane. -/
  | ori (d a : VReg) (i : BitVec 13)
  /-- XORI (R165). XORs v[A] with the sign-extended immediate in every active lane. -/
  | xori (d a : VReg) (i : BitVec 13)
  /-- SHLI (R165). Shifts v[A] left by an immediate count in every active lane. -/
  | shli (d a : VReg) (n : BitVec 5)
  /-- SHRI (R165). Shifts v[A] right logically by an immediate count in every active lane. -/
  | shri (d a : VReg) (n : BitVec 5)
  /-- SARI (R165). Shifts v[A] right arithmetically by an immediate count in every active lane. -/
  | sari (d a : VReg) (n : BitVec 5)
  /-- MOVI (R165). Writes the sign-extended immediate to v[D] in every active lane. -/
  | movi (d : VReg) (i : BitVec 13)
  /-- ICMP (R166). Compares v[A] with B as 32-bit integers and writes or combines the result into p[PD]. -/
  | icmp (pd : PReg) (m : Cmb) (a : VReg) (b : LaneSrc) (c : Cond) (ps : PReg)
  /-- FCMP (R178). Compares v[A] with B as FP32 and writes or combines the result into p[PD]. -/
  | fcmp (pd : PReg) (m : Cmb) (a : VReg) (b : LaneSrc) (c : FCond) (ps : PReg)
  /-- SEL (R167). Selects v[A] or v[B] per lane by predicate p[C]. -/
  | sel (d a b : VReg) (c : PReg)
  /-- BFI (R167). Inserts the low bits of v[A] into v[B] under the control word v[C]. -/
  | bfi (d a b c : VReg)
  /-- FADD (R173). Adds two FP32 values with rounding in every active lane. -/
  | fadd (d a : VReg) (b : LaneSrc) (h : Hold)
  /-- FSUB (R173). Subtracts two FP32 values with rounding in every active lane. -/
  | fsub (d a : VReg) (b : LaneSrc) (h : Hold)
  /-- FMUL (R173). Multiplies two FP32 values with rounding in every active lane. -/
  | fmul (d a : VReg) (b : LaneSrc) (h : Hold)
  /-- FMIN (R173). Writes minimumNumber of two FP32 values in every active lane. -/
  | fmin (d a : VReg) (b : LaneSrc) (h : Hold)
  /-- FMAX (R173). Writes maximumNumber of two FP32 values in every active lane. -/
  | fmax (d a : VReg) (b : LaneSrc) (h : Hold)
  /-- FCOPYSIGN (R173). Writes the magnitude of v[A] with the sign of B as a bit operation. -/
  | fcopysign (d a : VReg) (b : LaneSrc) (h : Hold)
  /-- FMINM (R173). Writes IEEE minimum of two FP32 values in every active lane. -/
  | fminm (d a : VReg) (b : LaneSrc) (h : Hold)
  /-- FMAXM (R173). Writes IEEE maximum of two FP32 values in every active lane. -/
  | fmaxm (d a : VReg) (b : LaneSrc) (h : Hold)
  /-- FRCP (R174). Writes the correctly rounded reciprocal of v[A]. -/
  | frcp (d a : VReg) (h : Hold)
  /-- FSQRT (R174). Writes the correctly rounded square root of v[A]. -/
  | fsqrt (d a : VReg) (h : Hold)
  /-- FRSQ (R174). Writes the correctly rounded reciprocal square root of v[A]. -/
  | frsq (d a : VReg) (h : Hold)
  /-- FEXP2 (R174). Writes the correctly rounded 2 to the power v[A]. -/
  | fexp2 (d a : VReg) (h : Hold)
  /-- FLOG2 (R174). Writes the correctly rounded base-2 logarithm of v[A]. -/
  | flog2 (d a : VReg) (h : Hold)
  /-- FFLOOR (R175). Rounds v[A] to an integral value toward minus infinity. -/
  | ffloor (d a : VReg) (h : Hold)
  /-- FCEIL (R175). Rounds v[A] to an integral value toward plus infinity. -/
  | fceil (d a : VReg) (h : Hold)
  /-- FTRUNC (R175). Rounds v[A] to an integral value toward zero. -/
  | ftrunc (d a : VReg) (h : Hold)
  /-- FRINT (R175). Rounds v[A] to an integral value in FPMODE.RM, raising inexact when it changes. -/
  | frint (d a : VReg) (h : Hold)
  /-- FCLASS (R175). Writes a one-hot class mask of v[A]. -/
  | fclass (d a : VReg) (h : Hold)
  /-- FSCALE (R175). Writes v[A] times 2 to the signed integer B, rounded. -/
  | fscale (d a : VReg) (b : LaneSrc) (h : Hold)
  /-- FFMA (R176). Writes a*b+c with one rounding in every active lane. -/
  | ffma (d a b c : VReg)
  /-- FFMS (R176). Writes a*b-c with one rounding in every active lane. -/
  | ffms (d a b c : VReg)
  /-- BADD2 (R177). Adds two packed BF16 pairs elementwise. -/
  | badd2 (d a : VReg) (b : LaneSrc) (h : Hold)
  /-- BMUL2 (R177). Multiplies two packed BF16 pairs elementwise. -/
  | bmul2 (d a : VReg) (b : LaneSrc) (h : Hold)
  /-- BMIN2 (R177). Writes elementwise minimumNumber of packed BF16 pairs. -/
  | bmin2 (d a : VReg) (b : LaneSrc) (h : Hold)
  /-- BMAX2 (R177). Writes elementwise maximumNumber of packed BF16 pairs. -/
  | bmax2 (d a : VReg) (b : LaneSrc) (h : Hold)
  /-- BFMA2 (R177). Packed BF16 fused multiply-add with one rounding per element. -/
  | bfma2 (d a b c : VReg)
  /-- BFMS2 (R177). Packed BF16 fused multiply-subtract with one rounding per element. -/
  | bfms2 (d a b c : VReg)
  /-- CVT (R179). Converts between integer and floating-point formats per its conversion code, rounding mode and saturate bit. -/
  | cvt (d a : VReg) (k : BitVec 2) (sat : Bool) (r : Rnd) (c : CvtCode)
  /-- MOV (R168). Copies v[A] to v[D] in every active lane. -/
  | mov (d a : VReg) (h : Hold)
  /-- PTOV (R168). Writes 1 or 0 to v[D] from predicate p[A] per lane. -/
  | ptov (d : VReg) (a : PReg) (h : Hold)
  /-- VTOP (R168). Sets predicate p[D] where v[A] is nonzero per lane. -/
  | vtop (d : PReg) (a : VReg) (h : Hold)
  /-- PAND (R168). Writes p[A] AND p[B] to p[D] in active lanes. -/
  | pand (d a b : PReg)
  /-- POR (R168). Writes p[A] OR p[B] to p[D] in active lanes. -/
  | por (d a b : PReg)
  /-- PXOR (R168). Writes p[A] XOR p[B] to p[D] in active lanes. -/
  | pxor (d a b : PReg)
  /-- PANDN (R168). Writes p[A] AND NOT p[B] to p[D] in active lanes. -/
  | pandn (d a b : PReg)
  /-- SHFL (R169). Copies v[A] from an indexed source lane into each active lane. -/
  | shfl (d a : VReg) (b : LaneSrc) (h : Hold)
  /-- SHFLX (R169). Copies v[A] from the lane L XOR b into each active lane. -/
  | shflx (d a : VReg) (b : LaneSrc) (h : Hold)
  /-- SHFLUP (R169). Copies v[A] from lane L-b into each active lane, or keeps its own. -/
  | shflup (d a : VReg) (b : LaneSrc) (h : Hold)
  /-- SHFLDN (R169). Copies v[A] from lane L+b into each active lane, or keeps its own. -/
  | shfldn (d a : VReg) (b : LaneSrc) (h : Hold)
  /-- ISCAN (R170). Writes the inclusive prefix sum of v[A] over the active lanes. -/
  | iscan (d a : VReg) (h : Hold)
  /-- LSR (R171). Writes the lane, core lane, octet or side index in every active lane. -/
  | lsr (d : VReg) (c : BitVec 2)
  /-- LD (R190). Loads 8, 16, 32 or 64 bits per active lane from memory into v[D]. -/
  | ld (d a : VReg) (sb : SReg) (z : Size) (c : BitVec 2) (h : Hint) (x : Bool)
  /-- ST (R190). Stores 8, 16, 32 or 64 bits per active lane from v[D] to memory. -/
  | st (d a : VReg) (sb : SReg) (z : Size) (c : BitVec 2) (h : Hint)
  /-- LDA (R191). Loads per lane as an acquire at its scope. -/
  | lda (d a : VReg) (sb : SReg) (wide : Bool) (e : Scope)
  /-- STR (R191). Stores per lane as a release at its scope. -/
  | str (d a : VReg) (sb : SReg) (wide : Bool) (e : Scope)
  /-- ATOM (R192). Performs a relaxed read-modify-write atomic per lane and returns the old value. -/
  | atom (d a : VReg) (sb : SReg) (op : AtomOp) (e : Scope)
  /-- ATOMAR (R192). Performs an acquire-release atomic per lane and returns the old value. -/
  | atomar (d a : VReg) (sb : SReg) (op : AtomOp) (e : Scope)
  /-- CAS (R195). Compares and swaps 32 or 64 bits per lane, returning the old value. -/
  | cas (d a : VReg) (sb : SReg) (e : Scope) (wide : Bool) (ord : Bool)
  /-- RED (R194). Contributes v[D] to a memory location under OP without returning a value. -/
  | red (d a : VReg) (sb : SReg) (op : AtomOp) (e : Scope)
  /-- REDQ (R196). Sends a quantised FP32 contribution as a RED FADD and keeps the rounding residual locally. -/
  | redq (d a : VReg) (sb : SReg) (q : QFmt) (e : Scope)
  /-- LDREP (R197). Reads a word in every replica of a replicated page and returns the sum. -/
  | ldrep (d a : VReg) (sb : SReg) (t : RepTy)
  /-- PREF (R198). Applies a cache hint of KIND to the line of each active lane's address. -/
  | pref (k : PrefKind) (a : VReg) (sb : SReg)
  /-- TLD (R199). Loads per lane from a tile by handle and offset. -/
  | tld (d a : VReg) (h : BitVec 8) (z : Size) (x : Bool)
  /-- TST (R199). Stores per lane into a tile by handle and offset. -/
  | tst (d a : VReg) (h : BitVec 8) (z : Size)
  /-- MMA (R208). Issues floating-point matrix multiply-accumulate octet operations to the matrix engine. -/
  | mma (d a : VReg) (f : SReg) (shp : BitVec 5) (n : MatFn)
  /-- MMAI (R209). Issues integer matrix multiply-accumulate octet operations in a residue basis. -/
  | mmai (d a : VReg) (f : SReg) (shp : BitVec 5) (n : MatFn)
  /-- MSTATE (R218). Reads a frozen matrix engine frame word of each covered octet into v[D]. -/
  | mstate (d : VReg) (w : BitVec 8)
  /-- MFILL (R219). Writes v[A] into a frozen matrix engine frame word of each covered octet. -/
  | mfill (a : VReg) (w : BitVec 8)
  /-- RNSF (R183). Forms the narrow residues of an INT32 value. -/
  | rnsf (d a : VReg) (h : Hold)
  /-- RNSFW (R183). Forms the wide residues of an INT64 value. -/
  | rnsfw (d a : VReg) (h : Hold)
  /-- RNSADD (R183). Adds two narrow residue values channel by channel. -/
  | rnsadd (d a : VReg) (b : LaneSrc) (h : Hold)
  /-- RNSMUL (R183). Multiplies two narrow residue values channel by channel. -/
  | rnsmul (d a : VReg) (b : LaneSrc) (h : Hold)
  /-- RNSADDW (R183). Adds two wide residue values channel by channel. -/
  | rnsaddw (d a b : VReg) (h : Hold)
  /-- RNSMULW (R183). Multiplies two wide residue values channel by channel. -/
  | rnsmulw (d a b : VReg) (h : Hold)
  /-- RNSNEG (R183). Negates a narrow residue value channel by channel. -/
  | rnsneg (d a : VReg) (h : Hold)
  /-- RNSNEGW (R183). Negates a wide residue value channel by channel. -/
  | rnsnegw (d a : VReg) (h : Hold)
  /-- RNSR (R184). Decodes a narrow residue value to INT32, locating or flagging a wrong channel. -/
  | rnsr (d a : VReg) (h : Hold)
  /-- RNSRW (R184). Decodes a wide residue value to INT64, locating or flagging a wrong channel. -/
  | rnsrw (d a : VReg) (h : Hold)
  /-- RNSCHK (R184). Decodes and re-forms a narrow residue value, correcting a located channel. -/
  | rnschk (d a : VReg) (h : Hold)
  /-- RNSCHKW (R184). Decodes and re-forms a wide residue value, correcting a located channel. -/
  | rnschkw (d a : VReg) (h : Hold)
  /-- UADD (R137). Adds two uniform registers. -/
  | uadd (d a b : SReg) (g : Guard)
  /-- USUB (R137). Subtracts two uniform registers. -/
  | usub (d a b : SReg) (g : Guard)
  /-- UMUL (R137). Writes the low 64 bits of a uniform product. -/
  | umul (d a b : SReg) (g : Guard)
  /-- UMULHI (R137). Writes the high 64 bits of a signed uniform product. -/
  | umulhi (d a b : SReg) (g : Guard)
  /-- UMULHU (R137). Writes the high 64 bits of an unsigned uniform product. -/
  | umulhu (d a b : SReg) (g : Guard)
  /-- UMIN (R137). Writes the signed minimum of two uniform registers. -/
  | umin (d a b : SReg) (g : Guard)
  /-- UMAX (R137). Writes the signed maximum of two uniform registers. -/
  | umax (d a b : SReg) (g : Guard)
  /-- UMINU (R137). Writes the unsigned minimum of two uniform registers. -/
  | uminu (d a b : SReg) (g : Guard)
  /-- UAND (R137). Writes the AND of two uniform registers. -/
  | uand (d a b : SReg) (g : Guard)
  /-- UOR (R137). Writes the OR of two uniform registers. -/
  | uor (d a b : SReg) (g : Guard)
  /-- UXOR (R137). Writes the XOR of two uniform registers. -/
  | uxor (d a b : SReg) (g : Guard)
  /-- UANDN (R137). Writes s[A] AND NOT s[B]. -/
  | uandn (d a b : SReg) (g : Guard)
  /-- USHL (R137). Shifts s[A] left by b[5:0]. -/
  | ushl (d a b : SReg) (g : Guard)
  /-- USHR (R137). Shifts s[A] right logically by b[5:0]. -/
  | ushr (d a b : SReg) (g : Guard)
  /-- USAR (R137). Shifts s[A] right arithmetically by b[5:0]. -/
  | usar (d a b : SReg) (g : Guard)
  /-- UMAXU (R137). Writes the unsigned maximum of two uniform registers. -/
  | umaxu (d a b : SReg) (g : Guard)
  /-- UPOPC (R137). Writes the number of 1 bits of s[A]. -/
  | upopc (d a : SReg) (g : Guard)
  /-- UCLZ (R137). Writes the leading-zero count of s[A]. -/
  | uclz (d a : SReg) (g : Guard)
  /-- UCTZ (R137). Writes the trailing-zero count of s[A]. -/
  | uctz (d a : SReg) (g : Guard)
  /-- UBFX (R137). Extracts a bit field of s[A] placed by s[B]. -/
  | ubfx (d a b : SReg) (g : Guard)
  /-- UDIVU (R138). Writes the unsigned quotient, raising 0x16 on a zero divisor. -/
  | udivu (d a b : SReg) (g : Guard)
  /-- UREMU (R138). Writes the unsigned remainder, raising 0x16 on a zero divisor. -/
  | uremu (d a b : SReg) (g : Guard)
  /-- UADDI (R139). Adds a sign-extended 15-bit immediate to s[D]. -/
  | uaddi (d : SReg) (i : BitVec 15) (g : Guard)
  /-- UANDI (R139). ANDs s[D] with a sign-extended immediate. -/
  | uandi (d : SReg) (i : BitVec 15) (g : Guard)
  /-- UORI (R139). ORs s[D] with a sign-extended immediate. -/
  | uori (d : SReg) (i : BitVec 15) (g : Guard)
  /-- UXORI (R139). XORs s[D] with a sign-extended immediate. -/
  | uxori (d : SReg) (i : BitVec 15) (g : Guard)
  /-- USHLI (R139). Shifts s[D] left by an immediate count. -/
  | ushli (d : SReg) (n : BitVec 6) (g : Guard)
  /-- USHRI (R139). Shifts s[D] right logically by an immediate count. -/
  | ushri (d : SReg) (n : BitVec 6) (g : Guard)
  /-- USARI (R139). Shifts s[D] right arithmetically by an immediate count. -/
  | usari (d : SReg) (n : BitVec 6) (g : Guard)
  /-- UMOVI (R139). Writes a sign-extended immediate to s[D]. -/
  | umovi (d : SReg) (i : BitVec 15) (g : Guard)
  /-- UMULI (R139). Multiplies s[D] by a sign-extended immediate. -/
  | umuli (d : SReg) (i : BitVec 15) (g : Guard)
  /-- ULIT (R140). Writes the following 32-bit literal zero-extended to s[D]. -/
  | ulit (d : SReg) (lit : BitVec 32) (g : Guard)
  /-- ULIT_S (R140). Writes the following 32-bit literal sign-extended to s[D]. -/
  | ulitS (d : SReg) (lit : BitVec 32) (g : Guard)
  /-- ULIT_HI (R140). Writes the following 32-bit literal to s[D][63:32], keeping the low half. -/
  | ulitHi (d : SReg) (lit : BitVec 32) (g : Guard)
  /-- UCMP (R141). Compares two uniform registers and writes q[QD]. -/
  | ucmp (c : Cond) (q : QReg) (a b : SReg) (g : Guard)
  /-- UCMPI (R141). Compares s[A] with a 9-bit immediate and writes q[QD]. -/
  | ucmpi (c : Cond) (q : QReg) (a : SReg) (i : BitVec 9) (g : Guard)
  /-- QAND (R142). Writes q[A] AND q[B] to q[D]. -/
  | qand (d a b : QReg) (g : Guard)
  /-- QOR (R142). Writes q[A] OR q[B] to q[D]. -/
  | qor (d a b : QReg) (g : Guard)
  /-- QXOR (R142). Writes q[A] XOR q[B] to q[D]. -/
  | qxor (d a b : QReg) (g : Guard)
  /-- QANDN (R142). Writes q[A] AND NOT q[B] to q[D]. -/
  | qandn (d a b : QReg) (g : Guard)
  /-- BRA (R143). Branches the whole ply PC-relative. -/
  | bra (o : BitVec 21) (g : Guard)
  /-- CALL (R143). Writes the return address to s63 and branches PC-relative. -/
  | call (o : BitVec 21) (g : Guard)
  /-- BRX (R144). Branches to the address in s[A]. -/
  | brx (a : SReg) (g : Guard)
  /-- CALLX (R144). Writes the return address to s63 and branches to s[A]. -/
  | callx (a : SReg) (g : Guard)
  /-- RET (R144). Returns to the address in s[A], popping the return predictor. -/
  | ret (a : SReg) (g : Guard)
  /-- BRV (R27). Splits the lanes by a predicate, pushing the untaken path on the knuckle stack. -/
  | brv (o : BitVec 21) (n : Bool) (p : PReg)
  /-- KPIN (R27). Opens a reconvergence pin recording EM, join PC and stack depth. -/
  | kpin (k : KReg) (o : BitVec 18) (g : Guard)
  /-- KMEET (R27). Arrives at a pin, popping the next pending path or rejoining the recorded lanes. -/
  | kmeet (k : KReg) (g : Guard)
  /-- EMRD (R148). Writes EM to s[D]. -/
  | emrd (d : SReg) (g : Guard)
  /-- EMWR (R148). Writes EM from v[A] of the lowest active lane. -/
  | emwr (a : VReg) (g : Guard)
  /-- EMANDP (R148). ANDs EM with predicate p[A]. -/
  | emandp (a : PReg) (g : Guard)
  /-- VOTE (R148). Writes EM AND p[A] to s[D]. -/
  | vote (d : SReg) (a : PReg) (g : Guard)
  /-- V2S (R148). Copies v[A] of the lowest active lane to s[D]. -/
  | v2s (d : SReg) (a : VReg) (g : Guard)
  /-- V2S64 (R148). Copies the pair v[A], v[A+1] of the lowest active lane to s[D]. -/
  | v2s64 (d : SReg) (a : VReg) (g : Guard)
  /-- S2V (R148). Broadcasts s[A][31:0] to v[D] of the active lanes. -/
  | s2v (d : VReg) (a : SReg) (g : Guard)
  /-- EMPOP (R148). Writes the number of active lanes to s[D]. -/
  | empop (d : SReg) (g : Guard)
  /-- REDU (R149). Reduces v[A] over the active lanes under the operation in FN into s[D]. -/
  | redu (d : SReg) (a : VReg) (f : ReduOp) (g : Guard)
  /-- ULD (R150). Loads 8 to 64 bits into s[D] from s[SB] plus a displacement. -/
  | uld (d sb : SReg) (i : BitVec 7) (z : Size) (g : Guard)
  /-- UST (R150). Stores 8 to 64 bits of s[D] at s[SB] plus a displacement. -/
  | ust (d sb : SReg) (i : BitVec 7) (z : Size) (g : Guard)
  /-- ULDA (R151). Acquire load of 32 or 64 bits into s[D] at its scope. -/
  | ulda (d sb : SReg) (e : Scope) (wide : Bool) (g : Guard)
  /-- USTR (R151). Release store of 32 or 64 bits of s[D] at its scope. -/
  | ustr (d sb : SReg) (e : Scope) (wide : Bool) (g : Guard)
  /-- UATOM (R152). Uniform relaxed atomic that returns the old value to s[D]. -/
  | uatom (d sb : SReg) (e : Scope) (wide : Bool) (op : AtomOp) (g : Guard)
  /-- UCAS (R153). Uniform compare-and-swap returning the old value to s[D]. -/
  | ucas (d sb : SReg) (e : Scope) (wide : Bool) (ord : Bool) (g : Guard)
  /-- FENCE (R155). Full fence at a scope, holding issue until it completes. -/
  | fence (e : Scope) (g : Guard)
  /-- FENCE_ACQ (R155). Acquire fence at a scope. -/
  | fenceAcq (e : Scope) (g : Guard)
  /-- FENCE_REL (R155). Release fence at a scope. -/
  | fenceRel (e : Scope) (g : Guard)
  /-- WAITC (R156). Arms a condition monitor at the home slice and parks until the condition holds. -/
  | waitc (d sb : SReg) (e : Scope) (wide : Bool) (c : WaitCond) (g : Guard)
  /-- WAITN (R158). Holds the ply until its outstanding counts fall to the given limits. -/
  | waitn (l st : BitVec 6) (c : BitVec 5) (m : BitVec 4) (g : Guard)
  /-- SRD (R160). Reads a special register into s[D]. -/
  | srd (d : SReg) (n : BitVec 12) (g : Guard)
  /-- SWR (R160). Writes s[D] to a special register under its access code. -/
  | swr (d : SReg) (n : BitVec 12) (g : Guard)
  /-- EM_WRITE (R12). SWR to %em replaces EM, raising 0x0A while divergence is open. -/
  | emWrite (v : BitVec 64)
  /-- CADD (R54). SWR to CADD0-CADD7 adds the value atomically to the matching completion register. -/
  | cadd (c : CReg) (v : BitVec 64)
  /-- RNSSTAT_WRITE (R57). A write of ones to RNSSTAT resets LOC to 0xF and clears MCNT and UNC. -/
  | rnsstatWrite (v : BitVec 64)
  /-- REGISTER_WRITE (R160). A write to any register without behaviour of its own replaces its writable fields. -/
  | registerWrite (n : BitVec 12) (v : BitVec 64)
  /-- TALLOC (R221). Allocates a tile with a given handle, shape and level. -/
  | talloc (a : SReg) (g : Guard)
  /-- TALLOCT (R221). Allocates a tile at the lowest free handle and returns the handle. -/
  | talloct (d a : SReg) (g : Guard)
  /-- TFREE (R222). Frees a tile once its hasp is THREAD. -/
  | tfree (a : SReg) (g : Guard)
  /-- CPYIN (R226). Copies a tensor region from memory into a tile. -/
  | cpyin (h : BitVec 8) (t : TReg) (cb : SReg) (cr : CReg) (y : Bool)
  /-- CPYOUT (R226). Copies a tile out to a tensor region in memory. -/
  | cpyout (h : BitVec 8) (t : TReg) (cb : SReg) (cr : CReg) (y : Bool)
  /-- CPYTT (R226). Copies one tile into another at a byte offset. -/
  | cpytt (h : BitVec 8) (cb : SReg) (cr : CReg) (y : Bool)
  /-- CPYFILL (R226). Fills every aligned word of a tile with a 32-bit value. -/
  | cpyfill (h : BitVec 8) (cb : SReg) (cr : CReg) (y : Bool)
  /-- TBIND (R223). Loads and checks a tensor record into a tensor slot. -/
  | tbind (d : TReg) (a : SReg) (g : Guard)
  /-- CBLD (R224). Loads a 32-byte codebook image into a codebook register. -/
  | cbld (d : CbReg) (a : SReg) (g : Guard)
  /-- BSHR (R225). Declares a B-share of four member plies for matrix operations. -/
  | bshr (d : BitVec 4) (a b : SReg) (g : Guard)
  /-- FRZ (R248). Freezes the ply's register state into a mould and returns its handle. -/
  | frz (d : SReg) (g : Guard)
  /-- RSTR (R249). Restores a mould's state into the issuing ply. -/
  | rstr (a : SReg) (g : Guard)
  /-- CAST (R251). Starts a sibling from a mould in a Free slot of the caster's team. -/
  | cast (d a b : SReg) (g : Guard)
  /-- DROP (R253). Marks a mould dropped and frees it when no stamped item remains. -/
  | drop (a : SReg) (g : Guard)
  /-- MINFO (R254). Returns information about a mould handle. -/
  | minfo (d a : SReg) (g : Guard)
  /-- STAMP (R252). Exports a mould and stamps work items into Free slots or the stamp queue. -/
  | stamp (d a b : SReg) (g : Guard)
  /-- PBIND (R230). Binds and resets a press from a 64-byte descriptor. -/
  | pbind (n : BitVec 3) (a : SReg) (g : Guard)
  /-- PTKT (R30). Draws a ticket of a ready press stage, setting ROLE, TICKET, SLOT and PHASE, or parks. -/
  | ptkt (n : BitVec 3) (g : Guard)
  /-- PDONE (R31). Flips the stage's phase bit at the held slot and releases the ticket. -/
  | pdone (n : BitVec 3) (g : Guard)
  /-- PWAIT (R31). Waits until the previous stage's phase bit at SLOT allows the ticket to proceed. -/
  | pwait (n : BitVec 3) (g : Guard)
  /-- PQUIT (R33). Hands the held ticket back to its stage. -/
  | pquit (n : BitVec 3) (g : Guard)
  /-- GIVE (R232). Makes vN to v63 Given and returns their rows to the pool. -/
  | give (d : VReg) (g : Guard)
  /-- CLAIM (R232). Maps zero-filled rows to every Given register from vN to v63, parking until rows are free. -/
  | claim (d : VReg) (g : Guard)
  /-- QPOP (R234). Pops the oldest queue entry into s[D..D+3], parking on an empty queue. -/
  | qpop (d a : SReg) (g : Guard)
  /-- QPOPT (R234). Tries to pop an entry without parking, watching the queue when empty. -/
  | qpopt (d a : SReg) (g : Guard)
  /-- QPOPL (R235). Pops at most one entry per selected active lane into v[D..D+7]. -/
  | qpopl (d : VReg) (a : SReg) (b : PReg) (g : Guard)
  /-- QPUSH (R236). Pushes s[D..D+3] as one queue entry. -/
  | qpush (d a : SReg) (g : Guard)
  /-- QPUSHL (R236). Pushes v[D..D+7] of each selected active lane as one entry per lane. -/
  | qpushl (d : VReg) (a : SReg) (b : PReg) (g : Guard)
  /-- QCNT (R237). Writes a snapshot of the queue's entry count. -/
  | qcnt (d a : SReg) (g : Guard)
  /-- BARA (R239). Arrives at a named barrier and continues. -/
  | bara (id : BitVec 4) (e : Scope) (a d : SReg) (g : Guard)
  /-- BARAW (R239). Arrives at a named barrier and waits for its phase to complete. -/
  | baraw (id : BitVec 4) (e : Scope) (a d : SReg) (g : Guard)
  /-- BARW (R239). Waits for a given phase of a named barrier to complete without arriving. -/
  | barw (id : BitVec 4) (e : Scope) (d : SReg) (g : Guard)
  /-- LWAIT (R241). Takes one from a latch entry's COUNT or parks the ply. -/
  | lwait (a : SReg) (g : Guard)
  /-- LWAIT_ARM (R241). Takes one from COUNT or arms the ply on the latch entry without parking. -/
  | lwaitArm (a : SReg) (g : Guard)
  /-- LWAKE (R241). Readies the oldest latch waiter or adds one to COUNT. -/
  | lwake (a : SReg) (g : Guard)
  /-- LWAKE_INT (R241). Readies the oldest waiter, else interrupts the oldest armed ply, else adds to COUNT. -/
  | lwakeInt (a : SReg) (g : Guard)
  /-- NOP (R243). Does nothing. -/
  | nop (g : Guard)
  /-- EXIT (R244). Ends the ply after its loads and tile operations drain, freeing its slot. -/
  | exit (g : Guard)
  /-- YLD (R243). Yields the ply until a completion register reaches zero. -/
  | yld (c : CReg) (g : Guard)
  /-- TRAP (R243). Raises after cause 0x70+n. -/
  | trap (n : BitVec 4) (g : Guard)
  /-- SYSC (R245). Raises service-call cause 0x65 carrying EM. -/
  | sysc (g : Guard)
  /-- IRET (R36). Returns from a user interrupt, restoring EM and resuming at %uiepc. -/
  | iret (g : Guard)
  /-- BRK (R243). Raises cause 0x08 to stop for the debugger. -/
  | brk (g : Guard)
  /-- WMK (R261). Checks WMSIG against SIG16, resetting both halves or raising 0x51. -/
  | wmk (sig : BitVec 16) (g : Guard)
  /-- IREG (R256). Opens a retry region at the next instruction. -/
  | ireg (g : Guard)
  /-- IREG_CLOSE (R256). Closes the open retry region. -/
  | iregClose (g : Guard)
  /-- XRDV (R290). Reads a lane register of the Halted slot into the context ply. -/
  | xrdv (d a : VReg) (g : Guard)
  /-- XWRV (R290). Writes a lane register of the Halted slot from the context ply. -/
  | xwrv (d a : VReg) (g : Guard)
  /-- XRDS (R290). Reads a uniform register of the Halted slot. -/
  | xrds (d a : SReg) (g : Guard)
  /-- XWRS (R290). Writes a uniform register of the Halted slot. -/
  | xwrs (d a : SReg) (g : Guard)
  /-- XRDSP (R290). Reads a special register of the Halted slot. -/
  | xrdsp (d : SReg) (n : BitVec 12) (g : Guard)
  /-- XWRSP (R290). Writes a special register of the Halted slot. -/
  | xwrsp (d : SReg) (n : BitVec 12) (g : Guard)
  /-- XRPK (R290). Reads a packed state word of the Halted slot. -/
  | xrpk (d a : SReg) (g : Guard)
  /-- XWPK (R290). Writes a packed state word of the Halted slot, word 70 acting on its row map. -/
  | xwpk (d a : SReg) (g : Guard)
  /-- IDLE (R291). Parks until a PEVT bit is set, then returns and clears the events. -/
  | idle (d : SReg) (g : Guard)
  /-- RFE_RESUME (R292). Resumes the Halted slot at HPC with HEM, replaying unfinished lanes first. -/
  | rfeResume (a : SReg) (g : Guard)
  /-- RFE_DELIVER (R292). Delivers the slot's HCAUSE to its user handler. -/
  | rfeDeliver (a : SReg) (g : Guard)
  /-- RFE_KILL (R292). Kills the Halted slot under R42. -/
  | rfeKill (a : SReg) (g : Guard)
  /-- RFE_RESUME_NO_REPLAY (R292). Treats the partly performed instruction as complete and resumes after it. -/
  | rfeResumeNoReplay (a : SReg) (g : Guard)
  /-- RFE_RETURN (R292). Returns from the own privileged handler to PPC, PEM and PMODE. -/
  | rfeReturn (a : SReg) (g : Guard)
  /-- PSRD (R288). Reads a privileged or hypervisor special register. -/
  | psrd (d : SReg) (n : BitVec 12) (g : Guard)
  /-- PSWR (R288). Writes a privileged or hypervisor special register. -/
  | pswr (d : SReg) (n : BitVec 12) (g : Guard)
  /-- TLBI_PAGE (R293). Removes every TLB entry of a space that maps an address. -/
  | tlbiPage (d a : SReg) (g : Guard)
  /-- TLBI_RANGE (R293). Removes every TLB entry of a space that overlaps a range. -/
  | tlbiRange (d a b : SReg) (g : Guard)
  /-- TLBI_AS (R293). Removes every TLB entry of a space. -/
  | tlbiAs (d : SReg) (g : Guard)
  /-- TLBI_ALL (R293). Removes every TLB entry of every space. -/
  | tlbiAll (g : Guard)
  /-- GENB (R294). Advances the generation number of an address space. -/
  | genb (d a : SReg) (g : Guard)
  /-- SCRB_START (R296). Starts a scrub job over a physical range and returns its handle. -/
  | scrbStart (d a b : SReg) (g : Guard)
  /-- SCRB_QUERY (R296). Returns a scrub job's progress and state. -/
  | scrbQuery (d a : SReg) (g : Guard)
  /-- SCRB_ABORT (R296). Stops a scrub job after the frames in progress. -/
  | scrbAbort (a : SReg) (g : Guard)
  /-- KZRO (R298). Zeroises a key slot in every controller and the I/O die. -/
  | kzro (a : SReg) (g : Guard)
  /-- MBOX_SEND (R299). Sends a 32-byte message to a mailbox ring. -/
  | mboxSend (d a : SReg) (g : Guard)
  /-- MBOX_RECV (R299). Receives a message from a mailbox ring, parking when empty. -/
  | mboxRecv (d a : SReg) (g : Guard)
  /-- MBOX_PEEK (R299). Copies the oldest mailbox message without removing it. -/
  | mboxPeek (d a : SReg) (g : Guard)
  /-- BIND (R297). Binds Free frames of a range to a tenant and key slot. -/
  | bind (d a b : SReg) (g : Guard)
  /-- UNBIND (R297). Releases a tenant's Bound frames of a range into quarantine. -/
  | unbind (d a b : SReg) (g : Guard)
  /-- LOAD_LANDING (R50). Returned load data writes its destination row and clears the pending bit. -/
  | loadLanding (seq : Nat)
  /-- STORE_ACK (R154). An acknowledgement from the point of performing lowers the ply's store count. -/
  | storeAck (seq : Nat)
  /-- MONITOR_WAKE (R108). A write performed at home satisfies an armed monitor and readies its ply. -/
  | monitorWake (ply : Nat)
  /-- COPY_BLOCK_LAND (R227). A copy block lands and subtracts its bytes from the completion register. -/
  | copyBlockLand (seq block : Nat)
  /-- COPY_STOP (R228). A copy stops on a protection, stale or uncorrectable error, releasing its counts. -/
  | copyStop (seq : Nat) (c : Cause)
  /-- DEFERRED_CAUSE (R211). A cause from a stopped copy or failed matrix operation is taken at the ply's next issue boundary. -/
  | deferredCause (ply : Nat)
  /-- MMA_COMPLETE (R216). A matrix octet operation writes its accumulator and clears its locks. -/
  | mmaComplete (seq octet : Nat)
  /-- ENGINE_THAW (R342). The frozen matrix engine thaws and checks frames once no frame holds a pre-empted operation. -/
  | engineThaw (core : Nat)
  /-- PAGE_WALK (R319, R321). A walker reads the space record and page-table entries of one of the pages ahead of a copy's next
  block, and installs what it finds for the tensor walk engine. -/
  | pageWalk (core seq ahead : Nat)
  /-- FAULT_ENTRY_TAKEN (R322). A held miss takes a freed merge entry and emits its fault record. -/
  | faultEntryTaken (die : Nat)
  /-- FAULT_REPLY (R324). A reply closes a merge entry and replays or fails every waiter. -/
  | faultReply (die : Nat)
  /-- STALE_ACCESS_RETURN (R325). A controller returns an access with an old generation for rewalk, raising 0x23 on the third return. -/
  | staleAccessReturn (a : StaleAccess)
  /-- QUEUE_ENTRY_ARRIVAL (R309). A pushed entry reaches a queue engine and is stored, handed to a parked ply or dropped. -/
  | queueEntryArrival (ply desc : Nat)
  /-- QUEUE_NACK (R35). A negative acknowledgement of a dropped entry starts the sender's back-off. -/
  | queueNack (ply desc : Nat)
  /-- QUEUE_BACKOFF (R35). Expiry of the %qbackoff wait resends the sender's replay window in order. -/
  | queueBackoff (ply desc : Nat)
  /-- QUEUE_ACK (R236). An acknowledgement frees room in the sender's replay window. -/
  | queueAck (ply desc : Nat)
  /-- USER_INTERRUPT_DELIVERY (R36). A pending user interrupt is delivered at an issue boundary to %uivec. -/
  | userInterruptDelivery (ply : Nat)
  /-- REGION_RETRY (R258). A consumed error in an open region waits for counts to drain and restarts at REGION. -/
  | regionRetry (ply : Nat)
  /-- WAITN_COMPLETE (R158). A waiting WAITN completes when all counts fall within their limits. -/
  | waitnComplete (ply : Nat)
  /-- GENB_COMPLETE (R112). GENB completes once no access carrying the old generation remains. -/
  | genbComplete (ply : Nat)
  /-- ROW_WAIT_RETRY (R48). A ply parked on rows retries its instruction when rows return to the pool. -/
  | rowWaitRetry (ply : Nat)
  /-- ROW_STARVATION (R48). After 65,536 starved cycles the longest row-parked ply takes cause 0x31. -/
  | rowStarvation (core : Nat)
  /-- STAMP_QUEUE_PLACE (R311). When a run slot becomes Free the oldest stamp-queue item takes it. -/
  | stampQueuePlace (run : Nat)
  /-- EXPORT_COMPLETE (R252). A mould export that waited for rows completes and its items may start. -/
  | exportComplete (core entry : Nat)
  /-- RUN_ACCEPT (R303). The distributor accepts a submission entry and checks the run descriptor. -/
  | runAccept (tenant : Nat)
  /-- RUN_AGING (R304). Each 1,048,576 waited cycles raise a waiting run's effective priority. -/
  | runAging (run : Nat)
  /-- GANG_RESERVE (R305). The distributor reserves the next team of a gang on the lowest fitting core. -/
  | gangReserve
  /-- TEAM_RETIRE (R312). A team whose slots are Free and writes performed becomes retired. -/
  | teamRetire (run team : Nat)
  /-- RUN_END (R22). A run whose plies have left and writes are performed releases its resources and writes its completion record. -/
  | runEnd (run : Nat)
  /-- DIE_LINK_LOSS (R313). A failed die-to-die link ends every run spanning it with cause 0x47. -/
  | dieLinkLoss (dieA dieB : Nat)
  /-- PRE_PREEMPT (R338). A PRE write with GO and RESTORE 0 halts tenant TEN on every core holding its plies. -/
  | prePreempt (tenant : Nat)
  /-- PRE_RESTORE (R342). A PRE write with GO and RESTORE 1 freezes the engine and signals the context ply to restore. -/
  | preRestore (tenant : Nat)
  /-- TCFG_WRITE (R334). A write of a tenant's cache configuration checks overlap and may start a set sweep. -/
  | tcfgWrite (tenant : Nat) (v : BitVec 64)
  /-- SWEEP_END (R335). When every lost set is swept the tenant's SWEEP bit clears. -/
  | sweepEnd (tenant : Nat)
  /-- KWAY_WRITE (R332). A write of a keyway row applies to requests entering the crossbar afterwards. -/
  | kwayWrite (port : Nat) (v : BitVec 64)
  /-- SUBQ_WRITE (R310). A write of SUBQt drains the old submission queue and drops its state. -/
  | subqWrite (tenant : Nat) (v : BitVec 64)
  /-- MBTAB_WRITE (R310). A write of MBTAB drops the state of all 64 mailbox rings. -/
  | mbtabWrite (v : BitVec 64)
  /-- CSPLIT_WRITE (R336). A write of CSPLIT requests a new tile-store split for core CSEL. -/
  | csplitWrite (v : BitVec 64)
  /-- CARVE_OUT_APPLY (R94). A pending split takes effect once no team is resident, invalidating L1. -/
  | carveOutApply (core : Nat)
  /-- KEYCTL_LOAD (R376). A LOAD write fills a zeroised key slot with a fresh key pair. -/
  | keyctlLoad (slot : Nat)
  /-- KEYCTL_LOAD_DONE (R376). LOAD reads 0 once every controller holds the new key. -/
  | keyctlLoadDone
  /-- INJCTL_ARM (R352). A write of INJCTL with ARM arms the one-shot injector on INJADDR. -/
  | injctlArm (v : BitVec 64)
  /-- PATROL_SCRUB (R354). The patrol scrub reads a line, correcting or poisoning words, at its pass rate. -/
  | patrolScrub (pa : Nat)
  /-- SCRUB_JOB_PROGRESS (R296). A scrub engine zeroes and cleans a frame of a job, making it Free. -/
  | scrubJobProgress (job : Nat)
  /-- SCRUB_DEFERRAL (R355). Scrub work is deferred or resumed as demand traffic crosses 85 percent. -/
  | scrubDeferral (stack : Nat) (on : Bool)
  /-- COLD_RESET (R372). Power-on or the reset pin resets everything except the retired-frame list. -/
  | coldReset
  /-- FUNCTION_RESET (R378). A PCIe FLR performs service-core writes, then resets compute dies, I/O die and service cores. -/
  | functionReset
  /-- RESTART_FR (R372). A RESTART write with FR starts a function reset. -/
  | restartFr
  /-- RESTART_CP (R374). A RESTART write with CP restarts a stopped context ply or service core. -/
  | restartCp (core : Nat)
  /-- FIRMWARE_VERIFY (R374). The boot ROM verifies the firmware image, extends MEAS and loads the images. -/
  | firmwareVerify (img : FirmwareImage)
  /-- ATTREQ_WRITE (R375). A write of ATTREQ makes the I/O die write a signed attestation report. -/
  | attreqWrite (pa : Nat)
  /-- THERMAL_THROTTLE (R377). Above 105 C a compute die's cores skip issue cycles until below 100 C. -/
  | thermalThrottle (monitor : Nat) (v : Int)
  /-- THERMAL_TRIP (R377). At 125 C on any die the package takes a cold reset. -/
  | thermalTrip (monitor : Nat) (v : Int)
  /-- PUSH_PORT_WRITE (R361). A 32-byte host write to a push port is one queue push. -/
  | pushPortWrite (port : PushPort) (data : List (BitVec 8))
  /-- BAR2_ACCESS (R361). A host BAR2 access is translated by the I/O die TLB and performed or faulted. -/
  | bar2Access (bar : HostBar) (off : Nat) (r : BusRequest) (relaxed : Bool)
  /-- ORDERING_POINT_FORWARD (R362). A held inbound request goes on once earlier posted writes of its function are acknowledged. -/
  | orderingPointForward (n : Nat)
  /-- LATCH_WAKE (R363). A host write of WAKE performs LWAKE on a key of the function's tenant. -/
  | latchWake (vf : Nat) (k : BitVec 64)
  /-- LATCH_KEY (R364). A host write of KEY takes from COUNT or enters the host as a latch waiter. -/
  | latchKey (vf n : Nat) (k : BitVec 64)
  /-- LATCH_STATUS (R364). A host write of 0 to STATUS frees or withdraws its latch waiter. -/
  | latchStatus (vf n : Nat)
  /-- SQ_TAIL_DOORBELL (R370). A lease doorbell write checks each new submission entry and forwards the passing tail. -/
  | sqTailDoorbell (lease : Nat) (tail : BitVec 32)
  /-- CQ_HEAD_DOORBELL (R370). A lease doorbell write at offset 4 is forwarded as the CQ head doorbell. -/
  | cqHeadDoorbell (lease : Nat) (head : BitVec 32)
  /-- NVME_DMA (R370). A drive DMA request is translated in the lease's space and performed or failed. -/
  | nvmeDma (queue : DmaQueue) (va : Nat) (r : DmaRequest)
  /-- NVME_COMPLETION_INTERRUPT (R370). A leased queue's completion interrupt performs LWAKE on QKEY. -/
  | nvmeCompletionInterrupt (lease : Nat)
  /-- AKTUM_REQUEST (R366). A request from another package is performed at this package's home slice. -/
  | aktumRequest (port : Nat) (tenant : Nat) (pa : Nat) (r : BusRequest)
  /-- AKTUM_FLIT (R365). A received Aktum flit is checked by CRC and resent by link-level retry on failure. -/
  | aktumFlit (port : Nat) (crcOk : Bool)
  /-- AKTUM_RETRAIN (R365). A port that loses lanes retrains on 4 lanes at half rate. -/
  | aktumRetrain (port : Nat)
  /-- ILLEGAL_INSTRUCTION (R134). A fetched word that encodes no instruction, or breaks a field rule, raises a decode cause 0x00, 0x01, 0x02, 0x04 or 0x06 as a before cause. -/
  | illegalInstruction (c : DecodeCause)
  /-- STORAGE_ERROR (R345). A bit error arises of itself in a protected storage array, to be corrected, poisoned or consumed when the word is next read or scrubbed. -/
  | storageError (e : ArrayError)
  /-- AKTUM_PORT_DOWN (R365). An Aktum port loses its link entirely, clearing its AKSTAT up bit, and a package left with no route makes accesses to it raise 0x47. -/
  | aktumPortDown (port : Nat)
  /-- AKTUM_PORT_UP (R373). An Aktum port comes up, setting its AKSTAT bit and, for the first port, READY.AKTUM. -/
  | aktumPortUp (port : AktumPort)
  /-- HBM_STACK_TRAINED (R373). A stack finishes training and its controllers start running, setting READY.MEM for that stack. -/
  | hbmStackTrained (stack : Nat)
  /-- HOST_PORT_TRAINED (R360). The PCIe host port finishes link training, setting READY.HOST. -/
  | hostPortTrained
  /-- NVME_LINK_UP (R373). A root port's link to its NVMe drive comes up, which READY.NVME needs. -/
  | nvmeLinkUp (port : Nat)
  /-- POD_BARRIER_MESSAGE (R239). A pod-scope barrier arrival or phase completion from other packages reaches this package's end of the pod barrier network. -/
  | podBarrierMessage (run : Nat) (id : BitVec 4) (m : PodBarrier)
  deriving DecidableEq, Repr

end Sys2Proof
end

