-- ==== Sys2Proof/WellFormed.lean ====
section
/-! DEFINITION. WellFormed.lean: the instructions that a word of the spec can stand for: what the field rules of chapters
07 to 14 and 21 ask of the operands beyond their types (R120, R122, R123, R125, R129, R131, R162). -/
namespace Sys2Proof

/-- A guard other than 0b1111 (R120). -/
def Guard.ok (g : Guard) : Bool := !(g.neg && g.q == 7)
/-- The first of a pair (R45). -/
def evenReg (r : BitVec 6) : Bool := r.toNat % 2 == 0
/-- A group of `k` registers from `r` stays within v0-v63. -/
def fits63 (r : VReg) (k : Nat) : Bool := r.toNat + k ≤ 64
/-- A form with one source holds A or its result, never B (R162). -/
def Hold.unaryOk (h : Hold) : Bool := h != .b
/-- A 64-bit operation works on a pair (Table 7-14). -/
def AtomOp.pair (op : AtomOp) : Bool := op == .add64 || op == .xchg64 || op == .min64 || op == .max64

/-- CVT's saturate bit, index and source group (R131). -/
def CvtCode.operandsOk (a : VReg) (k : BitVec 2) (sat : Bool) (c : CvtCode) : Bool :=
  match c with
  | .s32F32 | .u32F32 => k == 0
  | .bf16x2F32 | .f16x2F32 => k == 0 && fits63 a 2
  | .e4m3x4F32 | .e5m2x4F32 => k == 0 && fits63 a 4
  | .f32E4m3 | .f32E5m2 | .f32S8 | .f32U8 => !sat
  | .f32S16 => !sat && k.toNat ≤ 1
  | .f32S32 | .f32U32 | .f32Bf16lo | .f32Bf16hi | .f32F16lo | .f32F16hi | .s8F32 => !sat && k == 0

/-- The instruction is a word of the tables whose operands obey its field rules. The steps that are no words have no
field rules and are not well-formed words. -/
def Instr.wellFormed : Instr → Bool
  | .iadd _ _ _ _ => true
  | .isub _ _ _ _ => true
  | .imul _ _ _ _ => true
  | .imulhi _ _ _ _ => true
  | .imulhu _ _ _ _ => true
  | .imin _ _ _ _ => true
  | .imax _ _ _ _ => true
  | .iminu _ _ _ _ => true
  | .imaxu _ _ _ _ => true
  | .iaddsat _ _ _ _ => true
  | .isubsat _ _ _ _ => true
  | .iaddusat _ _ _ _ => true
  | .isubusat _ _ _ _ => true
  | .iabsd _ _ _ _ => true
  | .andB _ _ _ _ => true
  | .orB _ _ _ _ => true
  | .xorB _ _ _ _ => true
  | .andn _ _ _ _ => true
  | .orn _ _ _ _ => true
  | .xnor _ _ _ _ => true
  | .shl _ _ _ _ => true
  | .shr _ _ _ _ => true
  | .sar _ _ _ _ => true
  | .rotl _ _ _ _ => true
  | .rotr _ _ _ _ => true
  | .popc _ _ h => h.unaryOk
  | .clz _ _ h => h.unaryOk
  | .brev _ _ h => h.unaryOk
  | .bfx _ _ _ _ => true
  | .bfxs _ _ _ _ => true
  | .iaddi _ _ _ => true
  | .imuli _ _ _ => true
  | .andi _ _ _ => true
  | .ori _ _ _ => true
  | .xori _ _ _ => true
  | .shli _ _ _ => true
  | .shri _ _ _ => true
  | .sari _ _ _ => true
  | .movi _ _ => true
  | .icmp _ m _ _ _ ps => (m != .replace || ps == 0)
  | .fcmp _ m _ _ _ ps => (m != .replace || ps == 0)
  | .sel _ _ _ _ => true
  | .bfi _ _ _ _ => true
  | .fadd _ _ _ _ => true
  | .fsub _ _ _ _ => true
  | .fmul _ _ _ _ => true
  | .fmin _ _ _ _ => true
  | .fmax _ _ _ _ => true
  | .fcopysign _ _ _ _ => true
  | .fminm _ _ _ _ => true
  | .fmaxm _ _ _ _ => true
  | .frcp _ _ h => h.unaryOk
  | .fsqrt _ _ h => h.unaryOk
  | .frsq _ _ h => h.unaryOk
  | .fexp2 _ _ h => h.unaryOk
  | .flog2 _ _ h => h.unaryOk
  | .ffloor _ _ h => h.unaryOk
  | .fceil _ _ h => h.unaryOk
  | .ftrunc _ _ h => h.unaryOk
  | .frint _ _ h => h.unaryOk
  | .fclass _ _ h => h.unaryOk
  | .fscale _ _ _ _ => true
  | .ffma _ _ _ _ => true
  | .ffms _ _ _ _ => true
  | .badd2 _ _ _ _ => true
  | .bmul2 _ _ _ _ => true
  | .bmin2 _ _ _ _ => true
  | .bmax2 _ _ _ _ => true
  | .bfma2 _ _ _ _ => true
  | .bfms2 _ _ _ _ => true
  | .cvt _ a k sat _ c => CvtCode.operandsOk a k sat c
  | .mov _ _ h => h.unaryOk
  | .ptov _ _ h => (h == .none || h == .d)
  | .vtop _ _ h => (h == .none || h == .a)
  | .pand _ _ _ => true
  | .por _ _ _ => true
  | .pxor _ _ _ => true
  | .pandn _ _ _ => true
  | .shfl _ _ _ _ => true
  | .shflx _ _ _ _ => true
  | .shflup _ _ _ _ => true
  | .shfldn _ _ _ _ => true
  | .iscan _ _ h => h.unaryOk
  | .lsr _ _ => true
  | .ld d _ _ z _ _ x => (z != .b64 || evenReg d) && (!x || z == .b8 || z == .b16)
  | .st d _ _ z _ _ => (z != .b64 || evenReg d)
  | .lda d _ _ wide _ => (!wide || evenReg d)
  | .str d _ _ wide _ => (!wide || evenReg d)
  | .atom d _ _ op _ => (!op.pair || evenReg d)
  | .atomar d _ _ op _ => (!op.pair || evenReg d)
  | .cas d _ _ _ wide _ => (if wide then d.toNat % 4 == 0 else evenReg d)
  | .red d _ _ op _ => op != .xchg && op != .xchg64 && (!op.pair || evenReg d)
  | .redq _ _ _ _ _ => true
  | .ldrep d _ _ t => (t != .s64 || evenReg d)
  | .pref _ _ _ => true
  | .tld d _ _ z x => (z != .b64 || evenReg d) && (!x || z == .b8 || z == .b16)
  | .tst d _ _ z => (z != .b64 || evenReg d)
  | .mma _ _ f _ _ => f.toNat % 4 == 0
  | .mmai _ _ f _ _ => f.toNat % 4 == 0
  | .mstate _ _ => true
  | .mfill _ _ => true
  | .rnsf d _ h => h.unaryOk && evenReg d
  | .rnsfw d a h => h.unaryOk && evenReg a && fits63 d 3
  | .rnsadd d a b _ => evenReg d && evenReg a && (match b with | .v r => evenReg r | .s _ => true)
  | .rnsmul d a b _ => evenReg d && evenReg a && (match b with | .v r => evenReg r | .s _ => true)
  | .rnsaddw d a b _ => fits63 d 3 && fits63 a 3 && fits63 b 3
  | .rnsmulw d a b _ => fits63 d 3 && fits63 a 3 && fits63 b 3
  | .rnsneg d a h => h.unaryOk && evenReg d && evenReg a
  | .rnsnegw d a h => h.unaryOk && fits63 d 3 && fits63 a 3
  | .rnsr _ a h => h.unaryOk && evenReg a
  | .rnsrw d a h => h.unaryOk && evenReg d && fits63 a 3
  | .rnschk d a h => h.unaryOk && evenReg d && evenReg a
  | .rnschkw d a h => h.unaryOk && fits63 d 3 && fits63 a 3
  | .uadd _ _ _ g => g.ok
  | .usub _ _ _ g => g.ok
  | .umul _ _ _ g => g.ok
  | .umulhi _ _ _ g => g.ok
  | .umulhu _ _ _ g => g.ok
  | .umin _ _ _ g => g.ok
  | .umax _ _ _ g => g.ok
  | .uminu _ _ _ g => g.ok
  | .uand _ _ _ g => g.ok
  | .uor _ _ _ g => g.ok
  | .uxor _ _ _ g => g.ok
  | .uandn _ _ _ g => g.ok
  | .ushl _ _ _ g => g.ok
  | .ushr _ _ _ g => g.ok
  | .usar _ _ _ g => g.ok
  | .umaxu _ _ _ g => g.ok
  | .upopc _ _ g => g.ok
  | .uclz _ _ g => g.ok
  | .uctz _ _ g => g.ok
  | .ubfx _ _ _ g => g.ok
  | .udivu _ _ _ g => g.ok
  | .uremu _ _ _ g => g.ok
  | .uaddi _ _ g => g.ok
  | .uandi _ _ g => g.ok
  | .uori _ _ g => g.ok
  | .uxori _ _ g => g.ok
  | .ushli _ _ g => g.ok
  | .ushri _ _ g => g.ok
  | .usari _ _ g => g.ok
  | .umovi _ _ g => g.ok
  | .umuli _ _ g => g.ok
  | .ulit _ _ g => g.ok
  | .ulitS _ _ g => g.ok
  | .ulitHi _ _ g => g.ok
  | .ucmp _ _ _ _ g => g.ok
  | .ucmpi _ _ _ _ g => g.ok
  | .qand _ _ _ g => g.ok
  | .qor _ _ _ g => g.ok
  | .qxor _ _ _ g => g.ok
  | .qandn _ _ _ g => g.ok
  | .bra _ g => g.ok
  | .call _ g => g.ok
  | .brx _ g => g.ok
  | .callx _ g => g.ok
  | .ret _ g => g.ok
  | .brv _ _ _ => true
  | .kpin _ _ g => g.ok
  | .kmeet _ g => g.ok
  | .emrd _ g => g.ok
  | .emwr _ g => g.ok
  | .emandp _ g => g.ok
  | .vote _ _ g => g.ok
  | .v2s _ _ g => g.ok
  | .v2s64 _ a g => g.ok && evenReg a
  | .s2v _ _ g => g.ok
  | .empop _ g => g.ok
  | .redu _ _ _ g => g.ok
  | .uld _ _ _ _ g => g.ok
  | .ust _ _ _ _ g => g.ok
  | .ulda _ _ _ _ g => g.ok
  | .ustr _ _ _ _ g => g.ok
  | .uatom _ _ _ wide op g => g.ok && !op.pair && !(wide && op == .fadd)
  | .ucas d _ _ _ _ g => g.ok && evenReg d
  | .fence _ g => g.ok
  | .fenceAcq _ g => g.ok
  | .fenceRel _ g => g.ok
  | .waitc _ _ _ _ _ g => g.ok
  | .waitn _ _ _ _ g => g.ok
  | .srd _ _ g => g.ok
  | .swr _ _ g => g.ok
  | .emWrite _ => false
  | .cadd _ _ => false
  | .rnsstatWrite _ => false
  | .registerWrite _ _ => false
  | .talloc _ g => g.ok
  | .talloct _ _ g => g.ok
  | .tfree _ g => g.ok
  | .cpyin _ _ _ _ _ => true
  | .cpyout _ _ _ _ _ => true
  | .cpytt _ _ _ _ => true
  | .cpyfill _ _ _ _ => true
  | .tbind _ _ g => g.ok
  | .cbld _ _ g => g.ok
  | .bshr _ _ _ g => g.ok
  | .frz _ g => g.ok
  | .rstr _ g => g.ok
  | .cast _ _ _ g => g.ok
  | .drop _ g => g.ok
  | .minfo _ _ g => g.ok
  | .stamp _ _ _ g => g.ok
  | .pbind _ _ g => g.ok
  | .ptkt _ g => g.ok
  | .pdone _ g => g.ok
  | .pwait _ g => g.ok
  | .pquit _ g => g.ok
  | .give _ g => g.ok
  | .claim _ g => g.ok
  | .qpop d _ g => g.ok && d.toNat ≤ 60
  | .qpopt d _ g => g.ok && d.toNat ≤ 60
  | .qpopl d _ _ g => g.ok && fits63 d 8
  | .qpush d _ g => g.ok && d.toNat ≤ 60
  | .qpushl d _ _ g => g.ok && fits63 d 8
  | .qcnt _ _ g => g.ok
  | .bara _ e _ _ g => g.ok && (e != .system && e != .tenant)
  | .baraw _ e _ _ g => g.ok && (e != .system && e != .tenant)
  | .barw _ e _ g => g.ok && (e != .system && e != .tenant)
  | .lwait _ g => g.ok
  | .lwaitArm _ g => g.ok
  | .lwake _ g => g.ok
  | .lwakeInt _ g => g.ok
  | .nop g => g.ok
  | .exit g => g.ok
  | .yld _ g => g.ok
  | .trap _ g => g.ok
  | .sysc g => g.ok
  | .iret g => g.ok
  | .brk g => g.ok
  | .wmk _ g => g.ok
  | .ireg g => g.ok
  | .iregClose g => g.ok
  | .xrdv _ _ g => g.ok
  | .xwrv _ _ g => g.ok
  | .xrds _ _ g => g.ok
  | .xwrs _ _ g => g.ok
  | .xrdsp _ _ g => g.ok
  | .xwrsp _ _ g => g.ok
  | .xrpk _ _ g => g.ok
  | .xwpk _ _ g => g.ok
  | .idle _ g => g.ok
  | .rfeResume _ g => g.ok
  | .rfeDeliver _ g => g.ok
  | .rfeKill _ g => g.ok
  | .rfeResumeNoReplay _ g => g.ok
  | .rfeReturn _ g => g.ok
  | .psrd _ _ g => g.ok
  | .pswr _ _ g => g.ok
  | .tlbiPage _ _ g => g.ok
  | .tlbiRange _ _ _ g => g.ok
  | .tlbiAs _ g => g.ok
  | .tlbiAll g => g.ok
  | .genb _ _ g => g.ok
  | .scrbStart _ _ _ g => g.ok
  | .scrbQuery _ _ g => g.ok
  | .scrbAbort _ g => g.ok
  | .kzro _ g => g.ok
  | .mboxSend d _ g => g.ok && d.toNat ≤ 60
  | .mboxRecv d _ g => g.ok && d.toNat ≤ 60
  | .mboxPeek d _ g => g.ok && d.toNat ≤ 60
  | .bind _ _ _ g => g.ok
  | .unbind _ _ _ g => g.ok
  | .loadLanding _ => false
  | .storeAck _ => false
  | .monitorWake _ => false
  | .copyBlockLand _ _ => false
  | .copyStop _ _ => false
  | .deferredCause _ => false
  | .mmaComplete _ _ => false
  | .engineThaw _ => false
  | .pageWalk _ _ _ => false
  | .faultEntryTaken _ => false
  | .faultReply _ => false
  | .staleAccessReturn _ => false
  | .queueEntryArrival _ _ => false
  | .queueNack _ _ => false
  | .queueBackoff _ _ => false
  | .queueAck _ _ => false
  | .userInterruptDelivery _ => false
  | .regionRetry _ => false
  | .waitnComplete _ => false
  | .genbComplete _ => false
  | .rowWaitRetry _ => false
  | .rowStarvation _ => false
  | .stampQueuePlace _ => false
  | .exportComplete _ _ => false
  | .runAccept _ => false
  | .runAging _ => false
  | .gangReserve => false
  | .teamRetire _ _ => false
  | .runEnd _ => false
  | .dieLinkLoss _ _ => false
  | .prePreempt _ => false
  | .preRestore _ => false
  | .tcfgWrite _ _ => false
  | .sweepEnd _ => false
  | .kwayWrite _ _ => false
  | .subqWrite _ _ => false
  | .mbtabWrite _ => false
  | .csplitWrite _ => false
  | .carveOutApply _ => false
  | .keyctlLoad _ => false
  | .keyctlLoadDone => false
  | .injctlArm _ => false
  | .patrolScrub _ => false
  | .scrubJobProgress _ => false
  | .scrubDeferral _ _ => false
  | .coldReset => false
  | .functionReset => false
  | .restartFr => false
  | .restartCp _ => false
  | .firmwareVerify _ => false
  | .attreqWrite _ => false
  | .thermalThrottle _ _ => false
  | .thermalTrip _ _ => false
  | .pushPortWrite _ _ => false
  | .bar2Access _ _ _ _ => false
  | .orderingPointForward _ => false
  | .latchWake _ _ => false
  | .latchKey _ _ _ => false
  | .latchStatus _ _ => false
  | .sqTailDoorbell _ _ => false
  | .cqHeadDoorbell _ _ => false
  | .nvmeDma _ _ _ => false
  | .nvmeCompletionInterrupt _ => false
  | .aktumRequest _ _ _ _ => false
  | .aktumFlit _ _ => false
  | .aktumRetrain _ => false
  | .illegalInstruction _ => false
  | .storageError _ => false
  | .aktumPortDown _ => false
  | .aktumPortUp _ => false
  | .hbmStackTrained _ => false
  | .hostPortTrained => false
  | .nvmeLinkUp _ => false
  | .podBarrierMessage _ _ _ => false

end Sys2Proof
end

