-- ==== Sys2Proof/Decode.lean ====
section
/-! DEFINITION. Decode.lean: the decoder of the HL9's instruction words, total on any word, rejecting by the decode
causes in the order of R134, and after it the encoder, written from the same formats (Tables 7-1 to 7-18). -/
namespace Sys2Proof

/-! ## The codes of the fields -/

/-- The k-bit field of a word whose lowest bit is bit `lo` (R1). -/
def fld (w : BitVec 32) (lo k : Nat) : BitVec k := w.extractLsb' lo k

/-- One bit of a flag field. -/
def Bool.bit (b : Bool) : BitVec 1 := if b then 1 else 0

/-- B7: 0-63 name v0-v63 and 64-127 name s0-s63 (Table 7-14). -/
def LaneSrc.bits : LaneSrc → BitVec 7
  | .v r => 0#1 ++ r
  | .s r => 1#1 ++ r

def LaneSrc.ofBits (b : BitVec 7) : LaneSrc :=
  if b.extractLsb' 6 1 = 0 then .v (b.extractLsb' 0 6) else .s (b.extractLsb' 0 6)

def Hold.bits : Hold → BitVec 2 | .none => 0 | .a => 1 | .b => 2 | .d => 3
def Hold.ofBits (b : BitVec 2) : Hold := match b.toNat with | 0 => .none | 1 => .a | 2 => .b | _ => .d

/-- G: bit 3 is N, bits 2:0 are Q (R120). -/
def Guard.bits (g : Guard) : BitVec 4 := Bool.bit g.neg ++ g.q
def Guard.ofBits (b : BitVec 4) : Guard := ⟨b.extractLsb' 3 1 = 1, b.extractLsb' 0 3⟩

def Size.bits : Size → BitVec 2 | .b8 => 0 | .b16 => 1 | .b32 => 2 | .b64 => 3
def Size.ofBits (b : BitVec 2) : Size := match b.toNat with | 0 => .b8 | 1 => .b16 | 2 => .b32 | _ => .b64

/-- The scope codes of Table 1-3. -/
def Scope.bits : Scope → BitVec 3
  | .core => 0 | .quad => 1 | .die => 2 | .package => 3 | .pod => 4 | .system => 5 | .tenant => 6
/-- Code 7 is reserved and raises 0x00 (R8). -/
def Scope.ofBits (b : BitVec 3) : Option Scope :=
  match b.toNat with
  | 0 => some .core | 1 => some .quad | 2 => some .die | 3 => some .package | 4 => some .pod | 5 => some .system
  | 6 => some .tenant | _ => none

def Hint.bits : Hint → BitVec 2 | .normal => 0 | .evictFirst => 1 | .evictLast => 2 | .noAllocate => 3
def Hint.ofBits (b : BitVec 2) : Hint :=
  match b.toNat with | 0 => .normal | 1 => .evictFirst | 2 => .evictLast | _ => .noAllocate

/-- The operation codes of Table 7-20. -/
def AtomOp.bits : AtomOp → BitVec 4
  | .add => 0 | .sub => 1 | .min => 2 | .max => 3 | .minu => 4 | .maxu => 5 | .and => 6 | .or => 7 | .xor => 8
  | .xchg => 9 | .add64 => 10 | .xchg64 => 11 | .fadd => 12 | .min64 => 13 | .max64 => 14
def AtomOp.ofBits (b : BitVec 4) : Option AtomOp :=
  match b.toNat with
  | 0 => some .add | 1 => some .sub | 2 => some .min | 3 => some .max | 4 => some .minu | 5 => some .maxu
  | 6 => some .and | 7 => some .or | 8 => some .xor | 9 => some .xchg | 10 => some .add64 | 11 => some .xchg64
  | 12 => some .fadd | 13 => some .min64 | 14 => some .max64 | _ => none

def Cond.bits : Cond → BitVec 3
  | .eq => 0 | .ne => 1 | .lt => 2 | .le => 3 | .gt => 4 | .ge => 5 | .ltu => 6 | .geu => 7
def Cond.ofBits (b : BitVec 3) : Cond :=
  match b.toNat with
  | 0 => .eq | 1 => .ne | 2 => .lt | 3 => .le | 4 => .gt | 5 => .ge | 6 => .ltu | _ => .geu

def FCond.bits : FCond → BitVec 3
  | .eq => 0 | .ne => 1 | .lt => 2 | .le => 3 | .gt => 4 | .ge => 5 | .un => 6 | .or => 7
def FCond.ofBits (b : BitVec 3) : FCond :=
  match b.toNat with
  | 0 => .eq | 1 => .ne | 2 => .lt | 3 => .le | 4 => .gt | 5 => .ge | 6 => .un | _ => .or

def WaitCond.bits : WaitCond → BitVec 3
  | .eq => 0 | .ne => 1 | .geu => 2 | .ltu => 3 | .ge => 4 | .lt => 5 | .anyset => 6 | .allclr => 7
def WaitCond.ofBits (b : BitVec 3) : WaitCond :=
  match b.toNat with
  | 0 => .eq | 1 => .ne | 2 => .geu | 3 => .ltu | 4 => .ge | 5 => .lt | 6 => .anyset | _ => .allclr

def Cmb.bits : Cmb → BitVec 3 | .replace => 0 | .and => 1 | .or => 2
def Cmb.ofBits (b : BitVec 3) : Option Cmb :=
  match b.toNat with | 0 => some .replace | 1 => some .and | 2 => some .or | _ => none

/-- The rounding codes of Table 4-3; 7 is DYN. -/
def Rnd.bits : Rnd → BitVec 3
  | .mode .rne => 0 | .mode .rtz => 1 | .mode .rdn => 2 | .mode .rup => 3 | .mode .rna => 4 | .dyn => 7
/-- Codes 5 and 6 raise 0x01 (R64). -/
def Rnd.ofBits (b : BitVec 3) : Option Rnd :=
  match b.toNat with
  | 0 => some (.mode .rne) | 1 => some (.mode .rtz) | 2 => some (.mode .rdn) | 3 => some (.mode .rup)
  | 4 => some (.mode .rna) | 7 => some .dyn | _ => none

/-- The conversion codes of Table 7-22. -/
def CvtCode.bits : CvtCode → BitVec 6
  | .f32S32 => 0 | .f32U32 => 1 | .s32F32 => 2 | .u32F32 => 3 | .f32Bf16lo => 4 | .f32Bf16hi => 5 | .bf16x2F32 => 6
  | .f16x2F32 => 7 | .f32F16lo => 8 | .f32F16hi => 9 | .e4m3x4F32 => 10 | .e5m2x4F32 => 11 | .f32E4m3 => 12
  | .f32E5m2 => 13 | .f32S8 => 14 | .f32U8 => 15 | .f32S16 => 16 | .s8F32 => 17
def CvtCode.ofBits (b : BitVec 6) : Option CvtCode :=
  match b.toNat with
  | 0 => some .f32S32 | 1 => some .f32U32 | 2 => some .s32F32 | 3 => some .u32F32 | 4 => some .f32Bf16lo
  | 5 => some .f32Bf16hi | 6 => some .bf16x2F32 | 7 => some .f16x2F32 | 8 => some .f32F16lo | 9 => some .f32F16hi
  | 10 => some .e4m3x4F32 | 11 => some .e5m2x4F32 | 12 => some .f32E4m3 | 13 => some .f32E5m2 | 14 => some .f32S8
  | 15 => some .f32U8 | 16 => some .f32S16 | 17 => some .s8F32 | _ => none

def ReduOp.bits : ReduOp → BitVec 3
  | .add => 0 | .min => 1 | .max => 2 | .minu => 3 | .maxu => 4 | .and => 5 | .or => 6 | .xor => 7
def ReduOp.ofBits (b : BitVec 3) : ReduOp :=
  match b.toNat with
  | 0 => .add | 1 => .min | 2 => .max | 3 => .minu | 4 => .maxu | 5 => .and | 6 => .or | _ => .xor

def QFmt.bits : QFmt → BitVec 2 | .bf16 => 0 | .e4m3 => 1 | .e5m2 => 2
def QFmt.ofBits (b : BitVec 2) : Option QFmt :=
  match b.toNat with | 0 => some .bf16 | 1 => some .e4m3 | 2 => some .e5m2 | _ => none

def RepTy.bits : RepTy → BitVec 2 | .s32 => 0 | .s64 => 1 | .f32 => 2
def RepTy.ofBits (b : BitVec 2) : Option RepTy :=
  match b.toNat with | 0 => some .s32 | 1 => some .s64 | 2 => some .f32 | _ => none

def PrefKind.bits : PrefKind → BitVec 6 | .l2 => 0 | .l1 => 1 | .keep => 2 | .demote => 3 | .release => 4
def PrefKind.ofBits (b : BitVec 6) : Option PrefKind :=
  match b.toNat with
  | 0 => some .l2 | 1 => some .l1 | 2 => some .keep | 3 => some .demote | 4 => some .release | _ => none

def MatFn.bits : MatFn → BitVec 2 | .acc => 0 | .overwrite => 1 | .neg => 2
def MatFn.ofBits (b : BitVec 2) : Option MatFn :=
  match b.toNat with | 0 => some .acc | 1 => some .overwrite | 2 => some .neg | _ => none

/-! ## The checks on the operands of a decoded instruction (R134 orders 4 to 6) -/

/-- The codes that a row does not take though the field's type has them: R122 (RED), R129 and R152 (UATOM), R9. -/
def Instr.illegalCode : Instr → Bool
  | .red _ _ _ op _ => op == .xchg || op == .xchg64
  | .uatom _ _ _ wide op _ => op == .add64 || op == .xchg64 || op == .min64 || op == .max64 || (wide && op == .fadd)
  | _ => false

/-- The guard of a guarded word (R120). -/
def Instr.guard? : Instr → Option Guard
  | .uadd _ _ _ g => some g
  | .usub _ _ _ g => some g
  | .umul _ _ _ g => some g
  | .umulhi _ _ _ g => some g
  | .umulhu _ _ _ g => some g
  | .umin _ _ _ g => some g
  | .umax _ _ _ g => some g
  | .uminu _ _ _ g => some g
  | .uand _ _ _ g => some g
  | .uor _ _ _ g => some g
  | .uxor _ _ _ g => some g
  | .uandn _ _ _ g => some g
  | .ushl _ _ _ g => some g
  | .ushr _ _ _ g => some g
  | .usar _ _ _ g => some g
  | .umaxu _ _ _ g => some g
  | .upopc _ _ g => some g
  | .uclz _ _ g => some g
  | .uctz _ _ g => some g
  | .ubfx _ _ _ g => some g
  | .udivu _ _ _ g => some g
  | .uremu _ _ _ g => some g
  | .uaddi _ _ g => some g
  | .uandi _ _ g => some g
  | .uori _ _ g => some g
  | .uxori _ _ g => some g
  | .ushli _ _ g => some g
  | .ushri _ _ g => some g
  | .usari _ _ g => some g
  | .umovi _ _ g => some g
  | .umuli _ _ g => some g
  | .ulit _ _ g => some g
  | .ulitS _ _ g => some g
  | .ulitHi _ _ g => some g
  | .ucmp _ _ _ _ g => some g
  | .ucmpi _ _ _ _ g => some g
  | .qand _ _ _ g => some g
  | .qor _ _ _ g => some g
  | .qxor _ _ _ g => some g
  | .qandn _ _ _ g => some g
  | .bra _ g => some g
  | .call _ g => some g
  | .brx _ g => some g
  | .callx _ g => some g
  | .ret _ g => some g
  | .kpin _ _ g => some g
  | .kmeet _ g => some g
  | .emrd _ g => some g
  | .emwr _ g => some g
  | .emandp _ g => some g
  | .vote _ _ g => some g
  | .v2s _ _ g => some g
  | .v2s64 _ _ g => some g
  | .s2v _ _ g => some g
  | .empop _ g => some g
  | .redu _ _ _ g => some g
  | .uld _ _ _ _ g => some g
  | .ust _ _ _ _ g => some g
  | .ulda _ _ _ _ g => some g
  | .ustr _ _ _ _ g => some g
  | .uatom _ _ _ _ _ g => some g
  | .ucas _ _ _ _ _ g => some g
  | .fence _ g => some g
  | .fenceAcq _ g => some g
  | .fenceRel _ g => some g
  | .waitc _ _ _ _ _ g => some g
  | .waitn _ _ _ _ g => some g
  | .srd _ _ g => some g
  | .swr _ _ g => some g
  | .talloc _ g => some g
  | .talloct _ _ g => some g
  | .tfree _ g => some g
  | .tbind _ _ g => some g
  | .cbld _ _ g => some g
  | .bshr _ _ _ g => some g
  | .frz _ g => some g
  | .rstr _ g => some g
  | .cast _ _ _ g => some g
  | .drop _ g => some g
  | .minfo _ _ g => some g
  | .stamp _ _ _ g => some g
  | .pbind _ _ g => some g
  | .ptkt _ g => some g
  | .pdone _ g => some g
  | .pwait _ g => some g
  | .pquit _ g => some g
  | .give _ g => some g
  | .claim _ g => some g
  | .qpop _ _ g => some g
  | .qpopt _ _ g => some g
  | .qpopl _ _ _ g => some g
  | .qpush _ _ g => some g
  | .qpushl _ _ _ g => some g
  | .qcnt _ _ g => some g
  | .bara _ _ _ _ g => some g
  | .baraw _ _ _ _ g => some g
  | .barw _ _ _ g => some g
  | .lwait _ g => some g
  | .lwaitArm _ g => some g
  | .lwake _ g => some g
  | .lwakeInt _ g => some g
  | .nop g => some g
  | .exit g => some g
  | .yld _ g => some g
  | .trap _ g => some g
  | .sysc g => some g
  | .iret g => some g
  | .brk g => some g
  | .wmk _ g => some g
  | .ireg g => some g
  | .iregClose g => some g
  | .xrdv _ _ g => some g
  | .xwrv _ _ g => some g
  | .xrds _ _ g => some g
  | .xwrs _ _ g => some g
  | .xrdsp _ _ g => some g
  | .xwrsp _ _ g => some g
  | .xrpk _ _ g => some g
  | .xwpk _ _ g => some g
  | .idle _ g => some g
  | .rfeResume _ g => some g
  | .rfeDeliver _ g => some g
  | .rfeKill _ g => some g
  | .rfeResumeNoReplay _ g => some g
  | .rfeReturn _ g => some g
  | .psrd _ _ g => some g
  | .pswr _ _ g => some g
  | .tlbiPage _ _ g => some g
  | .tlbiRange _ _ _ g => some g
  | .tlbiAs _ g => some g
  | .tlbiAll g => some g
  | .genb _ _ g => some g
  | .scrbStart _ _ _ g => some g
  | .scrbQuery _ _ g => some g
  | .scrbAbort _ g => some g
  | .kzro _ g => some g
  | .mboxSend _ _ g => some g
  | .mboxRecv _ _ g => some g
  | .mboxPeek _ _ g => some g
  | .bind _ _ _ g => some g
  | .unbind _ _ _ g => some g
  | _ => none

/-- A hold that names no value of the form (R162). -/
def Hold.badUnary (h : Hold) : Bool := h == .b

/-- A narrow or wide group of `k` registers from `r` that would pass v63. -/
def passes63 (r : VReg) (k : Nat) : Bool := r.toNat + k > 64

/-- What raises 0x01 in a word whose codes are all assigned (R120, R122, R123, R131, R162, R166, R182, R234-R236, R289). -/
def Instr.reservedUse (i : Instr) : Bool :=
  (match i.guard? with | some g => g.bits == 0xF | none => false) ||
  match i with
  | .popc _ _ h | .clz _ _ h | .brev _ _ h | .frcp _ _ h | .fsqrt _ _ h | .frsq _ _ h | .fexp2 _ _ h | .flog2 _ _ h
  | .ffloor _ _ h | .fceil _ _ h | .ftrunc _ _ h | .frint _ _ h | .fclass _ _ h | .mov _ _ h | .iscan _ _ h
  | .rnsf _ _ h | .rnsneg _ _ h | .rnsr _ _ h | .rnschk _ _ h => h.badUnary
  | .ptov _ _ h => h == .a || h == .b
  | .vtop _ _ h => h == .b || h == .d
  | .icmp _ m _ _ _ ps | .fcmp _ m _ _ _ ps => m == .replace && ps != 0
  | .cvt _ a k sat _ c =>
    (sat && !(c == .s32F32 || c == .u32F32 || c == .bf16x2F32 || c == .f16x2F32 || c == .e4m3x4F32 || c == .e5m2x4F32)) ||
    (match c with
     | .f32E4m3 | .f32E5m2 | .f32S8 | .f32U8 => false
     | .f32S16 => k.toNat > 1
     | _ => k != 0) ||
    (match c with
     | .bf16x2F32 | .f16x2F32 => passes63 a 2
     | .e4m3x4F32 | .e5m2x4F32 => passes63 a 4
     | _ => false)
  | .ld _ _ _ z _ _ x | .tld _ _ _ z x => x && (z == .b32 || z == .b64)
  | .rnsfw d _ h => h.badUnary || passes63 d 3
  | .rnsaddw d a b _ | .rnsmulw d a b _ => passes63 d 3 || passes63 a 3 || passes63 b 3
  | .rnsnegw d a h | .rnschkw d a h => h.badUnary || passes63 d 3 || passes63 a 3
  | .rnsrw _ a h => h.badUnary || passes63 a 3
  | .qpop d _ _ | .qpopt d _ _ | .qpush d _ _ | .mboxSend d _ _ | .mboxRecv d _ _ | .mboxPeek d _ _ => d.toNat + 3 > 63
  | .qpopl d _ _ _ | .qpushl d _ _ _ => passes63 d 8
  | _ => false

/-- A register that must be even is odd. -/
def oddReg (r : BitVec 6) : Bool := r.toNat % 2 == 1

/-- A register pair or group misaligned (0x06): R45, R122, R125, R148, R182, R183, R184. -/
def Instr.badPair : Instr → Bool
  | .ld d _ _ z _ _ _ | .st d _ _ z _ _ | .tld d _ _ z _ | .tst d _ _ z => z == .b64 && oddReg d
  | .lda d _ _ wide _ | .str d _ _ wide _ => wide && oddReg d
  | .atom d _ _ op _ | .atomar d _ _ op _ | .red d _ _ op _ =>
    (op == .add64 || op == .xchg64 || op == .min64 || op == .max64) && oddReg d
  | .cas d _ _ _ wide _ => if wide then d.toNat % 4 != 0 else oddReg d
  | .ldrep d _ _ t => t == .s64 && oddReg d
  | .ucas d _ _ _ _ _ => oddReg d
  | .v2s64 _ a _ | .rnsfw _ a _ | .rnsr _ a _ => oddReg a
  | .rnsf d _ _ | .rnsrw d _ _ => oddReg d
  | .rnsneg d a _ | .rnschk d a _ => oddReg d || oddReg a
  | .rnsadd d a b _ | .rnsmul d a b _ => oddReg d || oddReg a || (match b with | .v r => oddReg r | .s _ => false)
  | _ => false

/-- A format block that does not start at a multiple of 4 (0x04, Table 7-14). -/
def Instr.badBase : Instr → Bool
  | .mma _ _ f _ _ | .mmai _ _ f _ _ => f.toNat % 4 != 0
  | _ => false

/-- The first decode cause that the operands of an assigned word raise, in the order of R134. -/
def Instr.operandCause (i : Instr) : Option DecodeCause :=
  if i.illegalCode then some .illegal
  else if i.reservedUse then some .reserved
  else if i.badPair then some .pair
  else if i.badBase then some .formatBase
  else none

/-! ## The fields of a word (R121, R124) -/

abbrev Parsed := Except DecodeCause Instr

/-- Goes on when the test holds, and raises the cause otherwise. -/
def need (ok : Bool) (c : DecodeCause) (k : Parsed) : Parsed := if ok then k else .error c

/-- Goes on with a field's meaning, and raises 0x00 when its code is unassigned. -/
def code {α : Type} (o : Option α) (k : α → Parsed) : Parsed :=
  match o with | some a => k a | none => .error .illegal

/-- A reserved field is zero. -/
def zero (w : BitVec 32) (lo k : Nat) : Bool := fld w lo k == 0

def fD (w : BitVec 32) : BitVec 6 := fld w 19 6
def fA (w : BitVec 32) : BitVec 6 := fld w 13 6
def fB (w : BitVec 32) : BitVec 6 := fld w 7 6
def fB7 (w : BitVec 32) : LaneSrc := LaneSrc.ofBits (fld w 6 7)
def fH (w : BitVec 32) : Hold := Hold.ofBits (fld w 1 2)
def fG (w : BitVec 32) : Guard := Guard.ofBits (fld w 0 4)
def fSz (w : BitVec 32) (lo : Nat) : Size := Size.ofBits (fld w lo 2)
def fSc (w : BitVec 32) (lo : Nat) : Option Scope := Scope.ofBits (fld w lo 3)
/-- SZ of formats LMO and UMO: 2 is 32-bit, 3 is 64-bit, 0 and 1 raise 0x00. -/
def fWide (w : BitVec 32) (lo : Nat) : Option Bool :=
  match (fld w lo 2).toNat with | 2 => some false | 3 => some true | _ => none
def fFlag (w : BitVec 32) (lo : Nat) : Bool := fld w lo 1 == 1

/-! ## Lane words -/

/-- Format LA with two sources. -/
def la3 (w : BitVec 32) (mk : VReg → VReg → LaneSrc → Hold → Instr) : Parsed :=
  need (zero w 0 1) .reserved (.ok (mk (fD w) (fA w) (fB7 w) (fH w)))
/-- Format LA with lane registers only (the W residue forms, R182). -/
def la3w (w : BitVec 32) (mk : VReg → VReg → VReg → Hold → Instr) : Parsed :=
  need (zero w 0 1 && zero w 12 1) .reserved (.ok (mk (fD w) (fA w) (fld w 6 6) (fH w)))
/-- Format LA with one source. -/
def la2 (w : BitVec 32) (mk : VReg → VReg → Hold → Instr) : Parsed :=
  need (zero w 0 1 && zero w 6 7) .reserved (.ok (mk (fD w) (fA w) (fH w)))
/-- The predicate logic forms of major 0x18 (R168). -/
def laPred (w : BitVec 32) (mk : PReg → PReg → PReg → Instr) : Parsed :=
  need (zero w 0 3 && zero w 9 4 && zero w 16 3 && zero w 22 3) .reserved (.ok (mk (fld w 19 3) (fld w 13 3) (fld w 6 3)))
def li (w : BitVec 32) (mk : VReg → VReg → BitVec 13 → Instr) : Parsed := .ok (mk (fD w) (fA w) (fld w 0 13))
def liShift (w : BitVec 32) (mk : VReg → VReg → BitVec 5 → Instr) : Parsed :=
  need (zero w 5 8) .reserved (.ok (mk (fD w) (fA w) (fld w 0 5)))
def lt (w : BitVec 32) (mk : VReg → VReg → VReg → VReg → Instr) : Parsed :=
  .ok (mk (fD w) (fA w) (fB w) (fld w 1 6))
def lmo (w : BitVec 32) (mk : VReg → VReg → SReg → Bool → Scope → Instr) : Parsed :=
  code (fWide w 5) fun wide => code (fSc w 2) fun e =>
    need (zero w 0 2) .reserved (.ok (mk (fD w) (fA w) (fB w) wide e))
def lma (w : BitVec 32) (mk : VReg → VReg → SReg → AtomOp → Scope → Instr) : Parsed :=
  code (AtomOp.ofBits (fld w 3 4)) fun op => code (fSc w 0) fun e => .ok (mk (fD w) (fA w) (fB w) op e)
def lx (w : BitVec 32) (mk : VReg → VReg → SReg → BitVec 5 → MatFn → Instr) : Parsed :=
  code (MatFn.ofBits (fld w 0 2)) fun n => .ok (mk (fD w) (fA w) (fB w) (fld w 2 5) n)

/-- The lane majors (Table 7-17). -/
def parseLane (maj fn : Nat) (w : BitVec 32) : Parsed :=
  match maj with
  | 0x01 => match fn with
    | 0 => la3 w .iadd | 1 => la3 w .isub | 2 => la3 w .imul | 3 => la3 w .imulhi | 4 => la3 w .imulhu | 5 => la3 w .imin
    | 6 => la3 w .imax | 7 => la3 w .iminu | _ => .error .illegal
  | 0x02 => match fn with
    | 0 => la3 w .imaxu | 1 => la3 w .iaddsat | 2 => la3 w .isubsat | 3 => la3 w .iaddusat | 4 => la3 w .isubusat
    | 5 => la3 w .iabsd | _ => .error .illegal
  | 0x03 => match fn with
    | 0 => la3 w .andB | 1 => la3 w .orB | 2 => la3 w .xorB | 3 => la3 w .andn | 4 => la3 w .orn | 5 => la3 w .xnor
    | 6 => la3 w .shl | 7 => la3 w .shr | _ => .error .illegal
  | 0x04 => match fn with
    | 0 => la3 w .sar | 1 => la3 w .rotl | 2 => la3 w .rotr | 3 => la2 w .popc | 4 => la2 w .clz | 5 => la2 w .brev
    | 6 => la3 w .bfx | 7 => la3 w .bfxs | _ => .error .illegal
  | 0x05 => li w .iaddi
  | 0x06 => li w .imuli
  | 0x07 => li w .andi
  | 0x08 => li w .ori
  | 0x09 => li w .xori
  | 0x0A => liShift w .shli
  | 0x0B => liShift w .shri
  | 0x0C => liShift w .sari
  | 0x0D => need (zero w 13 6) .reserved (.ok (.movi (fD w) (fld w 0 13)))
  | 0x0E => code (Cmb.ofBits (fld w 19 3)) fun m =>
      .ok (.icmp (fld w 22 3) m (fA w) (fB7 w) (Cond.ofBits (fld w 3 3)) (fld w 0 3))
  | 0x0F => code (Cmb.ofBits (fld w 19 3)) fun m =>
      .ok (.fcmp (fld w 22 3) m (fA w) (fB7 w) (FCond.ofBits (fld w 3 3)) (fld w 0 3))
  | 0x10 => if fFlag w 0 then lt w .bfi else need (zero w 4 3) .reserved (.ok (.sel (fD w) (fA w) (fB w) (fld w 1 3)))
  | 0x11 => match fn with
    | 0 => la3 w .fadd | 1 => la3 w .fsub | 2 => la3 w .fmul | 3 => la3 w .fmin | 4 => la3 w .fmax
    | 5 => la3 w .fcopysign | 6 => la3 w .fminm | 7 => la3 w .fmaxm | _ => .error .illegal
  | 0x12 => match fn with
    | 0 => la2 w .frcp | 1 => la2 w .fsqrt | 2 => la2 w .frsq | 3 => la2 w .fexp2 | 4 => la2 w .flog2 | 5 => la2 w .ffloor
    | 6 => la2 w .fceil | 7 => la2 w .ftrunc | _ => .error .illegal
  | 0x13 => match fn with
    | 0 => la2 w .frint | 1 => la2 w .fclass | 2 => la3 w .fscale | _ => .error .illegal
  | 0x14 => if fFlag w 0 then lt w .ffms else lt w .ffma
  | 0x15 => match fn with
    | 0 => la3 w .badd2 | 1 => la3 w .bmul2 | 2 => la3 w .bmin2 | 3 => la3 w .bmax2 | _ => .error .illegal
  | 0x16 => if fFlag w 0 then lt w .bfms2 else lt w .bfma2
  | 0x17 => code (CvtCode.ofBits (fld w 0 6)) fun c => need (zero w 12 1) .reserved
      (match Rnd.ofBits (fld w 6 3) with
       | some r => .ok (.cvt (fD w) (fA w) (fld w 10 2) (fFlag w 9) r c)
       | none => .error .reserved)
  | 0x18 => match fn with
    | 0 => la2 w .mov
    | 1 => need (zero w 0 1 && zero w 6 7 && zero w 16 3) .reserved (.ok (.ptov (fD w) (fld w 13 3) (fH w)))
    | 2 => need (zero w 0 1 && zero w 6 7 && zero w 22 3) .reserved (.ok (.vtop (fld w 19 3) (fA w) (fH w)))
    | 3 => laPred w .pand | 4 => laPred w .por | 5 => laPred w .pxor | 6 => laPred w .pandn | _ => .error .illegal
  | 0x19 => match fn with
    | 0 => la3 w .shfl | 1 => la3 w .shflx | 2 => la3 w .shflup | 3 => la3 w .shfldn | 4 => la2 w .iscan
    | _ => .error .illegal
  | 0x1A => need (zero w 2 11 && zero w 13 6) .reserved (.ok (.lsr (fD w) (fld w 0 2)))
  | 0x1B => .ok (.ld (fD w) (fA w) (fB w) (fSz w 5) (fld w 3 2) (Hint.ofBits (fld w 1 2)) (fFlag w 0))
  | 0x1C => need (zero w 0 1) .reserved (.ok (.st (fD w) (fA w) (fB w) (fSz w 5) (fld w 3 2) (Hint.ofBits (fld w 1 2))))
  | 0x1D => lmo w .lda
  | 0x1E => lmo w .str
  | 0x1F => lma w .atom
  | 0x20 => lma w .atomar
  | 0x21 => code (fSc w 4) fun e => need (zero w 0 2) .reserved (.ok (.cas (fD w) (fA w) (fB w) e (fFlag w 3) (fFlag w 2)))
  | 0x22 => lma w .red
  | 0x23 => code (QFmt.ofBits (fld w 5 2)) fun q => code (fSc w 2) fun e =>
      need (zero w 0 2) .reserved (.ok (.redq (fD w) (fA w) (fB w) q e))
  | 0x24 => code (RepTy.ofBits (fld w 5 2)) fun t => need (zero w 0 5) .reserved (.ok (.ldrep (fD w) (fA w) (fB w) t))
  | 0x25 => code (PrefKind.ofBits (fD w)) fun k => need (zero w 0 7) .reserved (.ok (.pref k (fA w) (fB w)))
  | 0x26 => need (zero w 0 2) .reserved (.ok (.tld (fD w) (fA w) (fld w 5 8) (fSz w 3) (fFlag w 2)))
  | 0x27 => need (zero w 0 3) .reserved (.ok (.tst (fD w) (fA w) (fld w 5 8) (fSz w 3)))
  | 0x28 => lx w .mma
  | 0x29 => lx w .mmai
  | 0x2A => need (zero w 8 5 && zero w 13 6) .reserved (.ok (.mstate (fD w) (fld w 0 8)))
  | 0x2B => need (zero w 8 5 && zero w 19 6) .reserved (.ok (.mfill (fA w) (fld w 0 8)))
  | 0x2C => match fn with
    | 0 => la2 w .rnsf | 1 => la2 w .rnsfw | 2 => la3 w .rnsadd | 3 => la3 w .rnsmul | 4 => la3w w .rnsaddw
    | 5 => la3w w .rnsmulw | 6 => la2 w .rnsneg | 7 => la2 w .rnsnegw | _ => .error .illegal
  | 0x2D => match fn with
    | 0 => la2 w .rnsr | 1 => la2 w .rnsrw | 2 => la2 w .rnschk | 3 => la2 w .rnschkw | _ => .error .illegal
  | _ => .error .illegal

/-! ## Uniform words -/

def ua3 (w : BitVec 32) (mk : SReg → SReg → SReg → Guard → Instr) : Parsed := .ok (mk (fD w) (fA w) (fB w) (fG w))
def ua2 (w : BitVec 32) (mk : SReg → SReg → Guard → Instr) : Parsed :=
  need (zero w 7 6) .reserved (.ok (mk (fD w) (fA w) (fG w)))
/-- Only A is used. -/
def uaA (w : BitVec 32) (mk : SReg → Guard → Instr) : Parsed :=
  need (zero w 7 6 && zero w 19 6) .reserved (.ok (mk (fA w) (fG w)))
/-- Only D is used. -/
def uaD (w : BitVec 32) (mk : BitVec 6 → Guard → Instr) : Parsed :=
  need (zero w 7 12) .reserved (.ok (mk (fD w) (fG w)))
/-- No field is used. -/
def ua0 (w : BitVec 32) (mk : Guard → Instr) : Parsed := need (zero w 7 18) .reserved (.ok (mk (fG w)))
def ui (w : BitVec 32) (mk : SReg → BitVec 15 → Guard → Instr) : Parsed := .ok (mk (fD w) (fld w 4 15) (fG w))
def uiShift (w : BitVec 32) (mk : SReg → BitVec 6 → Guard → Instr) : Parsed :=
  need (zero w 10 9) .reserved (.ok (mk (fD w) (fld w 4 6) (fG w)))
def ulitForm (w lit : BitVec 32) (mk : SReg → BitVec 32 → Guard → Instr) : Parsed :=
  need (zero w 7 12) .reserved (.ok (mk (fD w) lit (fG w)))
def qlog (w : BitVec 32) (mk : QReg → QReg → QReg → Guard → Instr) : Parsed :=
  need (zero w 10 3 && zero w 16 3 && zero w 22 3) .reserved (.ok (mk (fld w 19 3) (fld w 13 3) (fld w 7 3) (fG w)))
def redu (w : BitVec 32) (f : ReduOp) : Parsed :=
  need (zero w 7 6) .reserved (.ok (.redu (fD w) (fA w) f (fG w)))
def umo (w : BitVec 32) (mk : SReg → SReg → Scope → Bool → Guard → Instr) : Parsed :=
  code (fWide w 8) fun wide => code (fSc w 10) fun e =>
    need (zero w 4 4) .reserved (.ok (mk (fD w) (fA w) e wide (fG w)))
def fence (w : BitVec 32) (mk : Scope → Guard → Instr) : Parsed :=
  code (fSc w 13) fun e => need (zero w 7 6 && zero w 16 3 && zero w 19 6) .reserved (.ok (mk e (fG w)))
def specialReg (w : BitVec 32) (mk : SReg → BitVec 12 → Guard → Instr) : Parsed :=
  .ok (mk (fD w) (fld w 7 12) (fG w))
/-- A form whose D is a field of k bits and whose A is a register. -/
def uaK (w : BitVec 32) (k : Nat) (mk : BitVec k → SReg → Guard → Instr) : Parsed :=
  need (zero w 7 6 && zero w (19 + k) (6 - k)) .reserved (.ok (mk (fld w 19 k) (fA w) (fG w)))
/-- A form whose D is a 3-bit field and that uses no other. -/
def uaK3 (w : BitVec 32) (mk : BitVec 3 → Guard → Instr) : Parsed :=
  need (zero w 7 12 && zero w 22 3) .reserved (.ok (mk (fld w 19 3) (fG w)))
def queueLane (w : BitVec 32) (mk : VReg → SReg → PReg → Guard → Instr) : Parsed :=
  need (zero w 10 3) .reserved (.ok (mk (fD w) (fA w) (fld w 7 3) (fG w)))
def copy (w : BitVec 32) (mk : BitVec 8 → TReg → SReg → CReg → Bool → Instr) : Parsed :=
  need (zero w 0 1) .reserved (.ok (mk (fld w 17 8) (fld w 13 4) (fB w) (fld w 2 3) (fFlag w 1)))
def copyTile (w : BitVec 32) (mk : BitVec 8 → SReg → CReg → Bool → Instr) : Parsed :=
  need (zero w 0 1 && zero w 13 4) .reserved (.ok (mk (fld w 17 8) (fB w) (fld w 2 3) (fFlag w 1)))
/-- UBAR: scopes 0 to 4 only (R9). -/
def barrier (w : BitVec 32) (k : Scope → Parsed) : Parsed :=
  code (fSc w 18) fun e => if e == .system || e == .tenant then .error .illegal else k e
/-- LWAIT and LWAKE: B is 0 or 1. -/
def latch (w : BitVec 32) (mk0 mk1 : SReg → Guard → Instr) : Parsed :=
  need (zero w 8 5 && zero w 19 6) .reserved (.ok ((if fFlag w 7 then mk1 else mk0) (fA w) (fG w)))

/-- The uniform majors (Table 7-18). `lit` is the word that follows, which only ULIT reads. -/
noncomputable def parseUniform (maj fn : Nat) (w lit : BitVec 32) : Parsed :=
  match maj with
  | 0x00 => match fn with
    | 0 => ua3 w .uadd | 1 => ua3 w .usub | 2 => ua3 w .umul | 3 => ua3 w .umulhi | 4 => ua3 w .umulhu | 5 => ua3 w .umin
    | 6 => ua3 w .umax | 7 => ua3 w .uminu | _ => .error .illegal
  | 0x01 => match fn with
    | 0 => ua3 w .uand | 1 => ua3 w .uor | 2 => ua3 w .uxor | 3 => ua3 w .uandn | 4 => ua3 w .ushl | 5 => ua3 w .ushr
    | 6 => ua3 w .usar | 7 => ua3 w .umaxu | _ => .error .illegal
  | 0x02 => match fn with
    | 0 => ua2 w .upopc | 1 => ua2 w .uclz | 2 => ua2 w .uctz | 3 => ua3 w .ubfx | 4 => ua3 w .udivu | 5 => ua3 w .uremu
    | _ => .error .illegal
  | 0x03 => ui w .uaddi
  | 0x04 => ui w .uandi
  | 0x05 => ui w .uori
  | 0x06 => ui w .uxori
  | 0x07 => uiShift w .ushli
  | 0x08 => uiShift w .ushri
  | 0x09 => uiShift w .usari
  | 0x0A => ui w .umovi
  | 0x0B => ui w .umuli
  | 0x0C => match fn with
    | 0 => ulitForm w lit .ulit | 1 => ulitForm w lit .ulitS | 2 => ulitForm w lit .ulitHi | _ => .error .illegal
  | 0x0D => match fn with
    | 0 => .ok (.ucmp (Cond.ofBits (fld w 22 3)) (fld w 19 3) (fA w) (fB w) (fG w)) | _ => .error .illegal
  | 0x0E => .ok (.ucmpi (Cond.ofBits (fld w 22 3)) (fld w 19 3) (fA w) (fld w 4 9) (fG w))
  | 0x0F => match fn with
    | 0 => qlog w .qand | 1 => qlog w .qor | 2 => qlog w .qxor | 3 => qlog w .qandn | _ => .error .illegal
  | 0x10 => .ok (.bra (fld w 4 21) (fG w))
  | 0x11 => .ok (.call (fld w 4 21) (fG w))
  | 0x12 => match fn with
    | 0 => uaA w .brx | 1 => uaA w .callx | 2 => uaA w .ret | _ => .error .illegal
  | 0x13 => .ok (.brv (fld w 4 21) (fFlag w 3) (fld w 0 3))
  | 0x14 => .ok (.kpin (fld w 22 3) (fld w 4 18) (fG w))
  | 0x15 => match fn with | 0 => uaK3 w .kmeet | _ => .error .illegal
  | 0x16 => match fn with
    | 0 => uaD w .emrd
    | 1 => uaA w .emwr
    | 2 => need (zero w 7 6 && zero w 16 3 && zero w 19 6) .reserved (.ok (.emandp (fld w 13 3) (fG w)))
    | 3 => need (zero w 7 6 && zero w 16 3) .reserved (.ok (.vote (fD w) (fld w 13 3) (fG w)))
    | 4 => ua2 w .v2s | 5 => ua2 w .v2s64 | 6 => ua2 w .s2v | 7 => uaD w .empop | _ => .error .illegal
  | 0x17 => redu w (ReduOp.ofBits (fld w 4 3))
  | 0x18 => .ok (.uld (fD w) (fA w) (fld w 6 7) (fSz w 4) (fG w))
  | 0x19 => .ok (.ust (fD w) (fA w) (fld w 6 7) (fSz w 4) (fG w))
  | 0x1A => umo w .ulda
  | 0x1B => umo w .ustr
  | 0x1C => code (fWide w 8) fun wide => code (fSc w 10) fun e => code (AtomOp.ofBits (fld w 4 4)) fun op =>
      .ok (.uatom (fD w) (fA w) e wide op (fG w))
  | 0x1D => code (fWide w 8) fun wide => code (fSc w 10) fun e =>
      need (zero w 5 3) .reserved (.ok (.ucas (fD w) (fA w) e wide (fFlag w 4) (fG w)))
  | 0x1E => match fn with
    | 0 => fence w .fence | 1 => fence w .fenceAcq | 2 => fence w .fenceRel | _ => .error .illegal
  | 0x1F => code (fWide w 8) fun wide => code (fSc w 10) fun e =>
      need (zero w 7 1) .reserved (.ok (.waitc (fD w) (fA w) e wide (WaitCond.ofBits (fld w 4 3)) (fG w)))
  | 0x20 => .ok (.waitn (fD w) (fA w) (fld w 8 5) (fld w 4 4) (fG w))
  | 0x21 => match fn with | 0 => specialReg w .srd | _ => .error .illegal
  | 0x22 => match fn with | 0 => specialReg w .swr | _ => .error .illegal
  | 0x23 => match fn with | 0 => uaA w .talloc | 1 => ua2 w .talloct | _ => .error .illegal
  | 0x24 => match fn with | 0 => uaA w .tfree | _ => .error .illegal
  | 0x25 => match (fld w 5 2).toNat with
    | 0 => copy w .cpyin | 1 => copy w .cpyout | 2 => copyTile w .cpytt | _ => copyTile w .cpyfill
  | 0x26 => match fn with | 0 => uaK w 4 .tbind | _ => .error .illegal
  | 0x27 => match fn with | 0 => uaK w 3 .cbld | _ => .error .illegal
  | 0x28 => match fn with
    | 0 => need (zero w 23 2) .reserved (.ok (.bshr (fld w 19 4) (fA w) (fB w) (fG w))) | _ => .error .illegal
  | 0x29 => match fn with
    | 0 => uaD w .frz | 1 => uaA w .rstr | 2 => ua3 w .cast | 3 => uaA w .drop | 4 => ua2 w .minfo | 5 => ua3 w .stamp
    | _ => .error .illegal
  | 0x2A => match fn with
    | 0 => uaK w 3 .pbind | 1 => uaK3 w .ptkt | 2 => uaK3 w .pdone | 3 => uaK3 w .pwait | 4 => uaK3 w .pquit
    | 5 => uaD w .give | 6 => uaD w .claim | _ => .error .illegal
  | 0x2B => match fn with
    | 0 => ua2 w .qpop | 1 => ua2 w .qpopt | 2 => queueLane w .qpopl | 3 => ua2 w .qpush | 4 => queueLane w .qpushl
    | 5 => ua2 w .qcnt | _ => .error .illegal
  | 0x2C => match (fld w 16 2).toNat with
    | 0 => barrier w fun e => .ok (.bara (fld w 21 4) e (fld w 10 6) (fld w 4 6) (fG w))
    | 1 => barrier w fun e => .ok (.baraw (fld w 21 4) e (fld w 10 6) (fld w 4 6) (fG w))
    | 2 => barrier w fun e => need (zero w 10 6) .reserved (.ok (.barw (fld w 21 4) e (fld w 4 6) (fG w)))
    | _ => .error .illegal
  | 0x2D => match fn with
    | 0 => latch w .lwait .lwaitArm | 1 => latch w .lwake .lwakeInt | _ => .error .illegal
  | 0x2E => match fn with
    | 0 => ua0 w .nop | 1 => ua0 w .exit | 2 => uaK3 w .yld
    | 3 => need (zero w 11 14) .reserved (.ok (.trap (fld w 7 4) (fG w)))
    | 4 => ua0 w .sysc | 5 => ua0 w .iret | 6 => ua0 w .brk | _ => .error .illegal
  | 0x2F => need (zero w 20 5) .reserved (.ok (.wmk (fld w 4 16) (fG w)))
  | 0x30 => match fn with
    | 0 => need (zero w 7 12 && zero w 20 5) .reserved (.ok (if fFlag w 19 then .iregClose (fG w) else .ireg (fG w)))
    | _ => .error .illegal
  | 0x31 => match fn with
    | 0 => ua2 w .xrdv | 1 => ua2 w .xwrv | 2 => ua2 w .xrds | 3 => ua2 w .xwrs | 4 => specialReg w .xrdsp
    | 5 => specialReg w .xwrsp | 6 => ua2 w .xrpk | 7 => ua2 w .xwpk | _ => .error .illegal
  | 0x36 => match fn with | 0 => uaD w .idle | _ => .error .illegal
  | 0x37 => match fn with | 0 => uaA w .rfeResume | _ => .error .illegal
  | 0x38 => match fn with | 0 => specialReg w .psrd | _ => .error .illegal
  | 0x39 => match fn with | 0 => specialReg w .pswr | _ => .error .illegal
  | 0x3A => match fn with
    | 0 => ua2 w .tlbiPage | 1 => ua3 w .tlbiRange | 2 => uaD w .tlbiAs | 3 => ua0 w .tlbiAll | _ => .error .illegal
  | 0x3B => match fn with | 0 => ua2 w .genb | _ => .error .illegal
  | 0x3C => match fn with
    | 0 => ua3 w .scrbStart | 1 => ua2 w .scrbQuery | 2 => uaA w .scrbAbort | _ => .error .illegal
  | 0x3D => match fn with | 0 => uaA w .kzro | _ => .error .illegal
  | 0x3E => match fn with
    | 0 => ua2 w .mboxSend | 1 => ua2 w .mboxRecv | 2 => ua2 w .mboxPeek | _ => .error .illegal
  | 0x3F => match fn with | 0 => ua3 w .bind | 1 => ua3 w .unbind | _ => .error .illegal
  | _ => .error .illegal

/-! ## The decoder -/

/-- What the decode causes depend on besides the word: the mode, and the kind of agent (R134, R128). -/
structure DecodeCtx where
  privileged : Bool
  serviceCore : Bool
  /-- The ply is wider than 8 lanes (R128 excludes its lane instructions on a service core). -/
  wide : Bool
  deriving DecidableEq, Repr

/-- The privileged majors of Table 7-18, 0x31 and 0x36-0x3F. -/
def privilegedMajor (maj : Nat) : Bool := maj == 0x31 || (0x36 ≤ maj && maj ≤ 0x3F)

/-- A major of either map that is assigned. -/
def assignedMajor (uniform : Bool) (maj : Nat) : Bool :=
  if uniform then !(0x32 ≤ maj && maj ≤ 0x35) else 0x01 ≤ maj && maj ≤ 0x2D

/-- What a service core excludes (R128). -/
def excluded (ctx : DecodeCtx) (uniform : Bool) (maj : Nat) : Bool :=
  ctx.serviceCore &&
    (if uniform then 0x23 ≤ maj && maj ≤ 0x28 else (0x26 ≤ maj && maj ≤ 0x2B) || ctx.wide)

/-- The instruction that a word and the word after it encode, or the first decode cause of R134. -/
noncomputable def decodeWord (ctx : DecodeCtx) (w lit : BitVec 32) : Parsed :=
  let uniform := fFlag w 31
  let maj := (fld w 25 6).toNat
  if w == 0xFFFFFFFF then .error .reserved
  else if !assignedMajor uniform maj then .error .illegal
  else if uniform && privilegedMajor maj && !ctx.privileged then .error .privileged
  else if excluded ctx uniform maj then .error .illegal
  else
    match (if uniform then parseUniform maj (fld w 4 3).toNat w lit else parseLane maj (fld w 3 3).toNat w) with
    | .error c => .error c
    | .ok i => match i.operandCause with | some c => .error c | none => .ok i

/-- A ULIT takes two words (R118). -/
def isUlit (w : BitVec 32) : Bool := fld w 25 7 == 0x4C

/-- The host's question: the instruction that the decoder reads from the bits `w` of a row of `nbits` bits, in
privileged mode on a compute core, where every word of the table may run. -/
noncomputable def decodeTableWord (nbits w : Nat) : Option Instr :=
  let bits := w % 2 ^ nbits
  (decodeWord ⟨true, false, false⟩ (BitVec.ofNat 32 bits) (BitVec.ofNat 32 (bits / 2 ^ 32))).toOption

/-! ## The encoder: the formats of R121 and R124 -/

def laWord (maj d a : BitVec 6) (b : BitVec 7) (fn : BitVec 3) (h : Hold) : BitVec 32 :=
  0#1 ++ maj ++ d ++ a ++ b ++ fn ++ h.bits ++ 0#1
def liWord (maj d a : BitVec 6) (i : BitVec 13) : BitVec 32 := 0#1 ++ maj ++ d ++ a ++ i
def ltWord (maj d a b c : BitVec 6) (fn1 : BitVec 1) : BitVec 32 := 0#1 ++ maj ++ d ++ a ++ b ++ c ++ fn1
def lcWord (maj : BitVec 6) (pd : BitVec 3) (m : Cmb) (a : BitVec 6) (b : LaneSrc) (c ps : BitVec 3) : BitVec 32 :=
  0#1 ++ maj ++ pd ++ m.bits ++ a ++ b.bits ++ c ++ ps
def lmWord (maj d a sb : BitVec 6) (z : Size) (c : BitVec 2) (h : Hint) (x : Bool) : BitVec 32 :=
  0#1 ++ maj ++ d ++ a ++ sb ++ z.bits ++ c ++ h.bits ++ Bool.bit x
def lmoWord (maj d a sb : BitVec 6) (wide : Bool) (e : Scope) : BitVec 32 :=
  0#1 ++ maj ++ d ++ a ++ sb ++ 1#1 ++ Bool.bit wide ++ e.bits ++ 0#2
def lmaWord (maj d a sb : BitVec 6) (op : AtomOp) (e : Scope) : BitVec 32 :=
  0#1 ++ maj ++ d ++ a ++ sb ++ op.bits ++ e.bits
def lcasWord (maj d a sb : BitVec 6) (e : Scope) (wide ord : Bool) : BitVec 32 :=
  0#1 ++ maj ++ d ++ a ++ sb ++ e.bits ++ Bool.bit wide ++ Bool.bit ord ++ 0#2
/-- Formats LQ, LR and LP: bits 6:5 and 4:0 after SB. -/
def lqWord (maj d a sb : BitVec 6) (f : BitVec 2) (r : BitVec 5) : BitVec 32 := 0#1 ++ maj ++ d ++ a ++ sb ++ f ++ r
def ltlWord (maj d a : BitVec 6) (h : BitVec 8) (z : Size) (x : Bool) : BitVec 32 :=
  0#1 ++ maj ++ d ++ a ++ h ++ z.bits ++ Bool.bit x ++ 0#2
def lxWord (maj d a f : BitVec 6) (shp : BitVec 5) (n : MatFn) : BitVec 32 :=
  0#1 ++ maj ++ d ++ a ++ f ++ shp ++ n.bits
def uWord (maj d a b : BitVec 6) (fn : BitVec 3) (g : Guard) : BitVec 32 :=
  1#1 ++ maj ++ d ++ a ++ b ++ fn ++ g.bits
def uiWord (maj d : BitVec 6) (i : BitVec 15) (g : Guard) : BitVec 32 := 1#1 ++ maj ++ d ++ i ++ g.bits
def ucmpiWord (maj : BitVec 6) (c : Cond) (q : BitVec 3) (a : BitVec 6) (i : BitVec 9) (g : Guard) : BitVec 32 :=
  1#1 ++ maj ++ c.bits ++ q ++ a ++ i ++ g.bits
def ubWord (maj : BitVec 6) (o : BitVec 21) (low : BitVec 4) : BitVec 32 := 1#1 ++ maj ++ o ++ low
def umWord (maj d sb : BitVec 6) (i : BitVec 7) (z : Size) (g : Guard) : BitVec 32 :=
  1#1 ++ maj ++ d ++ sb ++ i ++ z.bits ++ g.bits
def umoWord (maj d sb : BitVec 6) (e : Scope) (wide : Bool) (op : BitVec 4) (g : Guard) : BitVec 32 :=
  1#1 ++ maj ++ d ++ sb ++ e.bits ++ 1#1 ++ Bool.bit wide ++ op ++ g.bits
def uwWord (maj l st : BitVec 6) (c : BitVec 5) (m : BitVec 4) (g : Guard) : BitVec 32 :=
  1#1 ++ maj ++ l ++ st ++ c ++ m ++ g.bits
def srWord (maj d : BitVec 6) (n : BitVec 12) (fn : BitVec 3) (g : Guard) : BitVec 32 :=
  1#1 ++ maj ++ d ++ n ++ fn ++ g.bits
def ucpyWord (maj : BitVec 6) (h : BitVec 8) (t : BitVec 4) (cb : BitVec 6) (fn : BitVec 2) (cr : BitVec 3) (y : Bool) :
    BitVec 32 := 1#1 ++ maj ++ h ++ t ++ cb ++ fn ++ cr ++ Bool.bit y ++ 0#1
def ubarWord (maj : BitVec 6) (id : BitVec 4) (e : Scope) (kind : BitVec 2) (a d : BitVec 6) (g : Guard) : BitVec 32 :=
  1#1 ++ maj ++ id ++ e.bits ++ kind ++ a ++ d ++ g.bits
def uwmkWord (maj : BitVec 6) (sig : BitVec 16) (g : Guard) : BitVec 32 := 1#1 ++ maj ++ 0#5 ++ sig ++ g.bits

/-- The words of an instruction; the steps that are no words have none. The five actions of RFE are one word (R292). -/
def encode (i : Instr) : List (BitVec 32) :=
  match i with
  | .iadd d a b h => [laWord 0x01 d a b.bits 0 h]
  | .isub d a b h => [laWord 0x01 d a b.bits 1 h]
  | .imul d a b h => [laWord 0x01 d a b.bits 2 h]
  | .imulhi d a b h => [laWord 0x01 d a b.bits 3 h]
  | .imulhu d a b h => [laWord 0x01 d a b.bits 4 h]
  | .imin d a b h => [laWord 0x01 d a b.bits 5 h]
  | .imax d a b h => [laWord 0x01 d a b.bits 6 h]
  | .iminu d a b h => [laWord 0x01 d a b.bits 7 h]
  | .imaxu d a b h => [laWord 0x02 d a b.bits 0 h]
  | .iaddsat d a b h => [laWord 0x02 d a b.bits 1 h]
  | .isubsat d a b h => [laWord 0x02 d a b.bits 2 h]
  | .iaddusat d a b h => [laWord 0x02 d a b.bits 3 h]
  | .isubusat d a b h => [laWord 0x02 d a b.bits 4 h]
  | .iabsd d a b h => [laWord 0x02 d a b.bits 5 h]
  | .andB d a b h => [laWord 0x03 d a b.bits 0 h]
  | .orB d a b h => [laWord 0x03 d a b.bits 1 h]
  | .xorB d a b h => [laWord 0x03 d a b.bits 2 h]
  | .andn d a b h => [laWord 0x03 d a b.bits 3 h]
  | .orn d a b h => [laWord 0x03 d a b.bits 4 h]
  | .xnor d a b h => [laWord 0x03 d a b.bits 5 h]
  | .shl d a b h => [laWord 0x03 d a b.bits 6 h]
  | .shr d a b h => [laWord 0x03 d a b.bits 7 h]
  | .sar d a b h => [laWord 0x04 d a b.bits 0 h]
  | .rotl d a b h => [laWord 0x04 d a b.bits 1 h]
  | .rotr d a b h => [laWord 0x04 d a b.bits 2 h]
  | .popc d a h => [laWord 0x04 d a 0 3 h]
  | .clz d a h => [laWord 0x04 d a 0 4 h]
  | .brev d a h => [laWord 0x04 d a 0 5 h]
  | .bfx d a b h => [laWord 0x04 d a b.bits 6 h]
  | .bfxs d a b h => [laWord 0x04 d a b.bits 7 h]
  | .iaddi d a i => [liWord 0x05 d a i]
  | .imuli d a i => [liWord 0x06 d a i]
  | .andi d a i => [liWord 0x07 d a i]
  | .ori d a i => [liWord 0x08 d a i]
  | .xori d a i => [liWord 0x09 d a i]
  | .shli d a n => [liWord 0x0A d a (0#8 ++ n)]
  | .shri d a n => [liWord 0x0B d a (0#8 ++ n)]
  | .sari d a n => [liWord 0x0C d a (0#8 ++ n)]
  | .movi d i => [liWord 0x0D d 0 i]
  | .icmp pd m a b c ps => [lcWord 0x0E pd m a b c.bits ps]
  | .fcmp pd m a b c ps => [lcWord 0x0F pd m a b c.bits ps]
  | .sel d a b c => [ltWord 0x10 d a b (0#3 ++ c) 0]
  | .bfi d a b c => [ltWord 0x10 d a b c 1]
  | .fadd d a b h => [laWord 0x11 d a b.bits 0 h]
  | .fsub d a b h => [laWord 0x11 d a b.bits 1 h]
  | .fmul d a b h => [laWord 0x11 d a b.bits 2 h]
  | .fmin d a b h => [laWord 0x11 d a b.bits 3 h]
  | .fmax d a b h => [laWord 0x11 d a b.bits 4 h]
  | .fcopysign d a b h => [laWord 0x11 d a b.bits 5 h]
  | .fminm d a b h => [laWord 0x11 d a b.bits 6 h]
  | .fmaxm d a b h => [laWord 0x11 d a b.bits 7 h]
  | .frcp d a h => [laWord 0x12 d a 0 0 h]
  | .fsqrt d a h => [laWord 0x12 d a 0 1 h]
  | .frsq d a h => [laWord 0x12 d a 0 2 h]
  | .fexp2 d a h => [laWord 0x12 d a 0 3 h]
  | .flog2 d a h => [laWord 0x12 d a 0 4 h]
  | .ffloor d a h => [laWord 0x12 d a 0 5 h]
  | .fceil d a h => [laWord 0x12 d a 0 6 h]
  | .ftrunc d a h => [laWord 0x12 d a 0 7 h]
  | .frint d a h => [laWord 0x13 d a 0 0 h]
  | .fclass d a h => [laWord 0x13 d a 0 1 h]
  | .fscale d a b h => [laWord 0x13 d a b.bits 2 h]
  | .ffma d a b c => [ltWord 0x14 d a b c 0]
  | .ffms d a b c => [ltWord 0x14 d a b c 1]
  | .badd2 d a b h => [laWord 0x15 d a b.bits 0 h]
  | .bmul2 d a b h => [laWord 0x15 d a b.bits 1 h]
  | .bmin2 d a b h => [laWord 0x15 d a b.bits 2 h]
  | .bmax2 d a b h => [laWord 0x15 d a b.bits 3 h]
  | .bfma2 d a b c => [ltWord 0x16 d a b c 0]
  | .bfms2 d a b c => [ltWord 0x16 d a b c 1]
  | .cvt d a k sat r c => [liWord 0x17 d a (0#1 ++ k ++ Bool.bit sat ++ r.bits ++ c.bits)]
  | .mov d a h => [laWord 0x18 d a 0 0 h]
  | .ptov d a h => [laWord 0x18 d (0#3 ++ a) 0 1 h]
  | .vtop d a h => [laWord 0x18 (0#3 ++ d) a 0 2 h]
  | .pand d a b => [laWord 0x18 (0#3 ++ d) (0#3 ++ a) (0#4 ++ b) 3 .none]
  | .por d a b => [laWord 0x18 (0#3 ++ d) (0#3 ++ a) (0#4 ++ b) 4 .none]
  | .pxor d a b => [laWord 0x18 (0#3 ++ d) (0#3 ++ a) (0#4 ++ b) 5 .none]
  | .pandn d a b => [laWord 0x18 (0#3 ++ d) (0#3 ++ a) (0#4 ++ b) 6 .none]
  | .shfl d a b h => [laWord 0x19 d a b.bits 0 h]
  | .shflx d a b h => [laWord 0x19 d a b.bits 1 h]
  | .shflup d a b h => [laWord 0x19 d a b.bits 2 h]
  | .shfldn d a b h => [laWord 0x19 d a b.bits 3 h]
  | .iscan d a h => [laWord 0x19 d a 0 4 h]
  | .lsr d c => [liWord 0x1A d 0 (0#11 ++ c)]
  | .ld d a sb z c h x => [lmWord 0x1B d a sb z c h x]
  | .st d a sb z c h => [lmWord 0x1C d a sb z c h false]
  | .lda d a sb wide e => [lmoWord 0x1D d a sb wide e]
  | .str d a sb wide e => [lmoWord 0x1E d a sb wide e]
  | .atom d a sb op e => [lmaWord 0x1F d a sb op e]
  | .atomar d a sb op e => [lmaWord 0x20 d a sb op e]
  | .cas d a sb e wide ord => [lcasWord 0x21 d a sb e wide ord]
  | .red d a sb op e => [lmaWord 0x22 d a sb op e]
  | .redq d a sb q e => [lqWord 0x23 d a sb q.bits (e.bits ++ 0#2)]
  | .ldrep d a sb t => [lqWord 0x24 d a sb t.bits 0]
  | .pref k a sb => [lqWord 0x25 k.bits a sb 0 0]
  | .tld d a h z x => [ltlWord 0x26 d a h z x]
  | .tst d a h z => [ltlWord 0x27 d a h z false]
  | .mma d a f shp n => [lxWord 0x28 d a f shp n]
  | .mmai d a f shp n => [lxWord 0x29 d a f shp n]
  | .mstate d w => [liWord 0x2A d 0 (0#5 ++ w)]
  | .mfill a w => [liWord 0x2B 0 a (0#5 ++ w)]
  | .rnsf d a h => [laWord 0x2C d a 0 0 h]
  | .rnsfw d a h => [laWord 0x2C d a 0 1 h]
  | .rnsadd d a b h => [laWord 0x2C d a b.bits 2 h]
  | .rnsmul d a b h => [laWord 0x2C d a b.bits 3 h]
  | .rnsaddw d a b h => [laWord 0x2C d a (0#1 ++ b) 4 h]
  | .rnsmulw d a b h => [laWord 0x2C d a (0#1 ++ b) 5 h]
  | .rnsneg d a h => [laWord 0x2C d a 0 6 h]
  | .rnsnegw d a h => [laWord 0x2C d a 0 7 h]
  | .rnsr d a h => [laWord 0x2D d a 0 0 h]
  | .rnsrw d a h => [laWord 0x2D d a 0 1 h]
  | .rnschk d a h => [laWord 0x2D d a 0 2 h]
  | .rnschkw d a h => [laWord 0x2D d a 0 3 h]
  | .uadd d a b g => [uWord 0x00 d a b 0 g]
  | .usub d a b g => [uWord 0x00 d a b 1 g]
  | .umul d a b g => [uWord 0x00 d a b 2 g]
  | .umulhi d a b g => [uWord 0x00 d a b 3 g]
  | .umulhu d a b g => [uWord 0x00 d a b 4 g]
  | .umin d a b g => [uWord 0x00 d a b 5 g]
  | .umax d a b g => [uWord 0x00 d a b 6 g]
  | .uminu d a b g => [uWord 0x00 d a b 7 g]
  | .uand d a b g => [uWord 0x01 d a b 0 g]
  | .uor d a b g => [uWord 0x01 d a b 1 g]
  | .uxor d a b g => [uWord 0x01 d a b 2 g]
  | .uandn d a b g => [uWord 0x01 d a b 3 g]
  | .ushl d a b g => [uWord 0x01 d a b 4 g]
  | .ushr d a b g => [uWord 0x01 d a b 5 g]
  | .usar d a b g => [uWord 0x01 d a b 6 g]
  | .umaxu d a b g => [uWord 0x01 d a b 7 g]
  | .upopc d a g => [uWord 0x02 d a 0 0 g]
  | .uclz d a g => [uWord 0x02 d a 0 1 g]
  | .uctz d a g => [uWord 0x02 d a 0 2 g]
  | .ubfx d a b g => [uWord 0x02 d a b 3 g]
  | .udivu d a b g => [uWord 0x02 d a b 4 g]
  | .uremu d a b g => [uWord 0x02 d a b 5 g]
  | .uaddi d i g => [uiWord 0x03 d i g]
  | .uandi d i g => [uiWord 0x04 d i g]
  | .uori d i g => [uiWord 0x05 d i g]
  | .uxori d i g => [uiWord 0x06 d i g]
  | .ushli d n g => [uiWord 0x07 d (0#9 ++ n) g]
  | .ushri d n g => [uiWord 0x08 d (0#9 ++ n) g]
  | .usari d n g => [uiWord 0x09 d (0#9 ++ n) g]
  | .umovi d i g => [uiWord 0x0A d i g]
  | .umuli d i g => [uiWord 0x0B d i g]
  | .ulit d lit g => [uWord 0x0C d 0 0 0 g, lit]
  | .ulitS d lit g => [uWord 0x0C d 0 0 1 g, lit]
  | .ulitHi d lit g => [uWord 0x0C d 0 0 2 g, lit]
  | .ucmp c q a b g => [uWord 0x0D (c.bits ++ q) a b 0 g]
  | .ucmpi c q a i g => [ucmpiWord 0x0E c q a i g]
  | .qand d a b g => [uWord 0x0F (0#3 ++ d) (0#3 ++ a) (0#3 ++ b) 0 g]
  | .qor d a b g => [uWord 0x0F (0#3 ++ d) (0#3 ++ a) (0#3 ++ b) 1 g]
  | .qxor d a b g => [uWord 0x0F (0#3 ++ d) (0#3 ++ a) (0#3 ++ b) 2 g]
  | .qandn d a b g => [uWord 0x0F (0#3 ++ d) (0#3 ++ a) (0#3 ++ b) 3 g]
  | .bra o g => [ubWord 0x10 o g.bits]
  | .call o g => [ubWord 0x11 o g.bits]
  | .brx a g => [uWord 0x12 0 a 0 0 g]
  | .callx a g => [uWord 0x12 0 a 0 1 g]
  | .ret a g => [uWord 0x12 0 a 0 2 g]
  | .brv o n p => [ubWord 0x13 o (Bool.bit n ++ p)]
  | .kpin k o g => [ubWord 0x14 (k ++ o) g.bits]
  | .kmeet k g => [uWord 0x15 (0#3 ++ k) 0 0 0 g]
  | .emrd d g => [uWord 0x16 d 0 0 0 g]
  | .emwr a g => [uWord 0x16 0 a 0 1 g]
  | .emandp a g => [uWord 0x16 0 (0#3 ++ a) 0 2 g]
  | .vote d a g => [uWord 0x16 d (0#3 ++ a) 0 3 g]
  | .v2s d a g => [uWord 0x16 d a 0 4 g]
  | .v2s64 d a g => [uWord 0x16 d a 0 5 g]
  | .s2v d a g => [uWord 0x16 d a 0 6 g]
  | .empop d g => [uWord 0x16 d 0 0 7 g]
  | .redu d a f g => [uWord 0x17 d a 0 f.bits g]
  | .uld d sb i z g => [umWord 0x18 d sb i z g]
  | .ust d sb i z g => [umWord 0x19 d sb i z g]
  | .ulda d sb e wide g => [umoWord 0x1A d sb e wide 0 g]
  | .ustr d sb e wide g => [umoWord 0x1B d sb e wide 0 g]
  | .uatom d sb e wide op g => [umoWord 0x1C d sb e wide op.bits g]
  | .ucas d sb e wide ord g => [umoWord 0x1D d sb e wide (0#3 ++ Bool.bit ord) g]
  | .fence e g => [uWord 0x1E 0 (0#3 ++ e.bits) 0 0 g]
  | .fenceAcq e g => [uWord 0x1E 0 (0#3 ++ e.bits) 0 1 g]
  | .fenceRel e g => [uWord 0x1E 0 (0#3 ++ e.bits) 0 2 g]
  | .waitc d sb e wide c g => [umoWord 0x1F d sb e wide (0#1 ++ c.bits) g]
  | .waitn l st c m g => [uwWord 0x20 l st c m g]
  | .srd d n g => [srWord 0x21 d n 0 g]
  | .swr d n g => [srWord 0x22 d n 0 g]
  | .emWrite _ => []
  | .cadd _ _ => []
  | .rnsstatWrite _ => []
  | .registerWrite _ _ => []
  | .talloc a g => [uWord 0x23 0 a 0 0 g]
  | .talloct d a g => [uWord 0x23 d a 0 1 g]
  | .tfree a g => [uWord 0x24 0 a 0 0 g]
  | .cpyin h t cb cr y => [ucpyWord 0x25 h t cb 0 cr y]
  | .cpyout h t cb cr y => [ucpyWord 0x25 h t cb 1 cr y]
  | .cpytt h cb cr y => [ucpyWord 0x25 h 0 cb 2 cr y]
  | .cpyfill h cb cr y => [ucpyWord 0x25 h 0 cb 3 cr y]
  | .tbind d a g => [uWord 0x26 (0#2 ++ d) a 0 0 g]
  | .cbld d a g => [uWord 0x27 (0#3 ++ d) a 0 0 g]
  | .bshr d a b g => [uWord 0x28 (0#2 ++ d) a b 0 g]
  | .frz d g => [uWord 0x29 d 0 0 0 g]
  | .rstr a g => [uWord 0x29 0 a 0 1 g]
  | .cast d a b g => [uWord 0x29 d a b 2 g]
  | .drop a g => [uWord 0x29 0 a 0 3 g]
  | .minfo d a g => [uWord 0x29 d a 0 4 g]
  | .stamp d a b g => [uWord 0x29 d a b 5 g]
  | .pbind n a g => [uWord 0x2A (0#3 ++ n) a 0 0 g]
  | .ptkt n g => [uWord 0x2A (0#3 ++ n) 0 0 1 g]
  | .pdone n g => [uWord 0x2A (0#3 ++ n) 0 0 2 g]
  | .pwait n g => [uWord 0x2A (0#3 ++ n) 0 0 3 g]
  | .pquit n g => [uWord 0x2A (0#3 ++ n) 0 0 4 g]
  | .give d g => [uWord 0x2A d 0 0 5 g]
  | .claim d g => [uWord 0x2A d 0 0 6 g]
  | .qpop d a g => [uWord 0x2B d a 0 0 g]
  | .qpopt d a g => [uWord 0x2B d a 0 1 g]
  | .qpopl d a b g => [uWord 0x2B d a (0#3 ++ b) 2 g]
  | .qpush d a g => [uWord 0x2B d a 0 3 g]
  | .qpushl d a b g => [uWord 0x2B d a (0#3 ++ b) 4 g]
  | .qcnt d a g => [uWord 0x2B d a 0 5 g]
  | .bara id e a d g => [ubarWord 0x2C id e 0 a d g]
  | .baraw id e a d g => [ubarWord 0x2C id e 1 a d g]
  | .barw id e d g => [ubarWord 0x2C id e 2 0 d g]
  | .lwait a g => [uWord 0x2D 0 a 0 0 g]
  | .lwaitArm a g => [uWord 0x2D 0 a 1 0 g]
  | .lwake a g => [uWord 0x2D 0 a 0 1 g]
  | .lwakeInt a g => [uWord 0x2D 0 a 1 1 g]
  | .nop g => [uWord 0x2E 0 0 0 0 g]
  | .exit g => [uWord 0x2E 0 0 0 1 g]
  | .yld c g => [uWord 0x2E (0#3 ++ c) 0 0 2 g]
  | .trap n g => [uWord 0x2E 0 0 (0#2 ++ n) 3 g]
  | .sysc g => [uWord 0x2E 0 0 0 4 g]
  | .iret g => [uWord 0x2E 0 0 0 5 g]
  | .brk g => [uWord 0x2E 0 0 0 6 g]
  | .wmk sig g => [uwmkWord 0x2F sig g]
  | .ireg g => [uWord 0x30 0 0 0 0 g]
  | .iregClose g => [uWord 0x30 1 0 0 0 g]
  | .xrdv d a g => [uWord 0x31 d a 0 0 g]
  | .xwrv d a g => [uWord 0x31 d a 0 1 g]
  | .xrds d a g => [uWord 0x31 d a 0 2 g]
  | .xwrs d a g => [uWord 0x31 d a 0 3 g]
  | .xrdsp d n g => [srWord 0x31 d n 4 g]
  | .xwrsp d n g => [srWord 0x31 d n 5 g]
  | .xrpk d a g => [uWord 0x31 d a 0 6 g]
  | .xwpk d a g => [uWord 0x31 d a 0 7 g]
  | .idle d g => [uWord 0x36 d 0 0 0 g]
  | .rfeResume a g => [uWord 0x37 0 a 0 0 g]
  | .rfeDeliver a g => [uWord 0x37 0 a 0 0 g]
  | .rfeKill a g => [uWord 0x37 0 a 0 0 g]
  | .rfeResumeNoReplay a g => [uWord 0x37 0 a 0 0 g]
  | .rfeReturn a g => [uWord 0x37 0 a 0 0 g]
  | .psrd d n g => [srWord 0x38 d n 0 g]
  | .pswr d n g => [srWord 0x39 d n 0 g]
  | .tlbiPage d a g => [uWord 0x3A d a 0 0 g]
  | .tlbiRange d a b g => [uWord 0x3A d a b 1 g]
  | .tlbiAs d g => [uWord 0x3A d 0 0 2 g]
  | .tlbiAll g => [uWord 0x3A 0 0 0 3 g]
  | .genb d a g => [uWord 0x3B d a 0 0 g]
  | .scrbStart d a b g => [uWord 0x3C d a b 0 g]
  | .scrbQuery d a g => [uWord 0x3C d a 0 1 g]
  | .scrbAbort a g => [uWord 0x3C 0 a 0 2 g]
  | .kzro a g => [uWord 0x3D 0 a 0 0 g]
  | .mboxSend d a g => [uWord 0x3E d a 0 0 g]
  | .mboxRecv d a g => [uWord 0x3E d a 0 1 g]
  | .mboxPeek d a g => [uWord 0x3E d a 0 2 g]
  | .bind d a b g => [uWord 0x3F d a b 0 g]
  | .unbind d a b g => [uWord 0x3F d a b 1 g]
  | .loadLanding _ => []
  | .storeAck _ => []
  | .monitorWake _ => []
  | .copyBlockLand _ _ => []
  | .copyStop _ _ => []
  | .deferredCause _ => []
  | .mmaComplete _ _ => []
  | .engineThaw _ => []
  | .pageWalk _ _ _ => []
  | .faultEntryTaken _ => []
  | .faultReply _ => []
  | .staleAccessReturn _ => []
  | .queueEntryArrival _ _ => []
  | .queueNack _ _ => []
  | .queueBackoff _ _ => []
  | .queueAck _ _ => []
  | .userInterruptDelivery _ => []
  | .regionRetry _ => []
  | .waitnComplete _ => []
  | .genbComplete _ => []
  | .rowWaitRetry _ => []
  | .rowStarvation _ => []
  | .stampQueuePlace _ => []
  | .exportComplete _ _ => []
  | .runAccept _ => []
  | .runAging _ => []
  | .gangReserve => []
  | .teamRetire _ _ => []
  | .runEnd _ => []
  | .dieLinkLoss _ _ => []
  | .prePreempt _ => []
  | .preRestore _ => []
  | .tcfgWrite _ _ => []
  | .sweepEnd _ => []
  | .kwayWrite _ _ => []
  | .subqWrite _ _ => []
  | .mbtabWrite _ => []
  | .csplitWrite _ => []
  | .carveOutApply _ => []
  | .keyctlLoad _ => []
  | .keyctlLoadDone => []
  | .injctlArm _ => []
  | .patrolScrub _ => []
  | .scrubJobProgress _ => []
  | .scrubDeferral _ _ => []
  | .coldReset => []
  | .functionReset => []
  | .restartFr => []
  | .restartCp _ => []
  | .firmwareVerify _ => []
  | .attreqWrite _ => []
  | .thermalThrottle _ _ => []
  | .thermalTrip _ _ => []
  | .pushPortWrite _ _ => []
  | .bar2Access _ _ _ _ => []
  | .orderingPointForward _ => []
  | .latchWake _ _ => []
  | .latchKey _ _ _ => []
  | .latchStatus _ _ => []
  | .sqTailDoorbell _ _ => []
  | .cqHeadDoorbell _ _ => []
  | .nvmeDma _ _ _ => []
  | .nvmeCompletionInterrupt _ => []
  | .aktumRequest _ _ _ _ => []
  | .aktumFlit _ _ => []
  | .aktumRetrain _ => []
  | .illegalInstruction _ => []
  | .storageError _ => []
  | .aktumPortDown _ => []
  | .aktumPortUp _ => []
  | .hbmStackTrained _ => []
  | .hostPortTrained => []
  | .nvmeLinkUp _ => []
  | .podBarrierMessage _ _ _ => []

/-- The instruction that the decoder gives for the words of `i`: the five RFE rows share one word, whose action stands
in s[A] (R292). -/
def Instr.asDecoded : Instr → Instr
  | .rfeDeliver a g | .rfeKill a g | .rfeResumeNoReplay a g | .rfeReturn a g => .rfeResume a g
  | i => i

/-- The decoder on the words of an instruction. -/
noncomputable def decodeWords (ctx : DecodeCtx) (ws : List (BitVec 32)) : Parsed := decodeWord ctx (ws.getD 0 0) (ws.getD 1 0)

end Sys2Proof
end

