-- ==== Sys2Proof/Machine/Bits.lean ====
section
/-! DEFINITION. Machine/Bits.lean: the bit, lane-mask and byte helpers that the meanings use (R1, R4). -/
namespace Sys2Proof.Machine

/-- The k-bit field of a 64-bit value whose lowest bit is bit `lo`, as a number (R1). -/
def field (x : DWord) (lo k : Nat) : Nat := x.toNat / 2 ^ lo % 2 ^ k
/-- The same field as bits. -/
def fieldBits (x : DWord) (lo k : Nat) : BitVec k := x.extractLsb' lo k
/-- One bit. -/
def bitAt {n : Nat} (x : BitVec n) (i : Nat) : Bool := x.getLsbD i
/-- A value with bit `i` set as `b` says. -/
def setBitTo {n : Nat} (x : BitVec n) (i : Nat) (b : Bool) : BitVec n :=
  if b then x ||| (1#n <<< i) else x &&& ~~~(1#n <<< i)
/-- The number of 1 bits. -/
def popCount {n : Nat} (x : BitVec n) : Nat := (List.range n).foldl (fun c i => if x.getLsbD i then c + 1 else c) 0
/-- The number of zeros above the highest 1 bit; `n` for 0. -/
def leadingZeros {n : Nat} (x : BitVec n) : Nat := ((List.range n).find? fun i => x.getLsbD (n - 1 - i)).getD n
/-- The number of zeros below the lowest 1 bit; `n` for 0. -/
def trailingZeros {n : Nat} (x : BitVec n) : Nat := ((List.range n).find? fun i => x.getLsbD i).getD n

/-- A mask of the lowest w bits: all lanes of a ply w wide (R12). -/
def allLanes (w : Nat) : DWord := BitVec.ofNat 64 (2 ^ w - 1)
/-- The lanes of a mask in ascending order. -/
def lanesOf (m : DWord) : List Nat := (List.range 64).filter fun i => m.getLsbD i
/-- The mask of the lanes in a list. -/
def maskOf (ls : List Nat) : DWord := ls.foldl (fun m l => setBitTo m l true) 0
/-- The lowest lane of a mask. -/
def lowestLane (m : DWord) : Option Nat := (List.range 64).find? fun i => m.getLsbD i

/-- Bits above the width of a value read 0. -/
def maskTo {n : Nat} (x : BitVec n) (k : Nat) : BitVec n := x &&& BitVec.ofNat n (2 ^ k - 1)

/-- The k bytes of a number, the lowest first (R1). -/
def bytesLE (x : Nat) : Nat → List Byte
  | 0 => []
  | k + 1 => BitVec.ofNat 8 x :: bytesLE (x / 256) k
/-- The number whose bytes, lowest first, are the list (R1). -/
def ofBytesLE : List Byte → Nat
  | [] => 0
  | b :: bs => b.toNat + 256 * ofBytesLE bs

def leBytes (bs : List Byte) (lo n : Nat) : Nat := ofBytesLE ((bs.drop lo).take n)

/-- Sign extension of the lowest k bits of a number, as an integer. -/
def signedOf (k x : Nat) : Int := if x % 2 ^ k < 2 ^ (k - 1) then Int.ofNat (x % 2 ^ k) else Int.ofNat (x % 2 ^ k) - Int.ofNat (2 ^ k)

/-- Rounds a number up to a quotient: the least q with q * d at least n. -/
def ceilDiv (n d : Nat) : Nat := (n + d - 1) / d

end Sys2Proof.Machine
end

