-- ==== Sys2Proof/Machine/Float.lean ====
section
/-! DEFINITION. Machine/Float.lean: the floating-point formats and the exact arithmetic with one rounding of chapter 04
(R60 to R72), as functions of bit patterns that return a pattern and the conditions raised. -/
namespace Sys2Proof.Machine

/-- A floating-point format (Table 4-1): exponent bits, fraction bits, bias; E4M3 spends its top exponent on values. -/
structure Fmt where
  ebits : Nat
  fbits : Nat
  bias : Nat
  ieee : Bool
  deriving DecidableEq, Repr

def fp32 : Fmt := ⟨8, 23, 127, true⟩
def fp16 : Fmt := ⟨5, 10, 15, true⟩
def bf16 : Fmt := ⟨8, 7, 127, true⟩
def e5m2 : Fmt := ⟨5, 2, 15, true⟩
def e4m3 : Fmt := ⟨4, 3, 7, false⟩

/-- The conditions of an operation as bits of FPFLAGS (Table 3-4). -/
abbrev Conds := BitVec 5
def cInvalid : Conds := 1
def cDivZero : Conds := 2
def cOverflow : Conds := 4
def cUnderflow : Conds := 8
def cInexact : Conds := 16

/-- A pattern's meaning (R61): a finite value m * 2^e, an infinity, or a NaN whose payload is its fraction aligned to the
23 bits of FP32, quiet bit included. -/
inductive FVal where
  | fin (neg : Bool) (m : Nat) (e : Int)
  | inf (neg : Bool)
  | nan (neg : Bool) (sig : Bool) (payload : Nat)
  deriving DecidableEq, Repr

def Fmt.signBit (f : Fmt) : Nat := 2 ^ (f.ebits + f.fbits)
def Fmt.emax (f : Fmt) : Nat := 2 ^ f.ebits - 1
def signIn (f : Fmt) (neg : Bool) : Nat := if neg then f.signBit else 0

/-- Decodes a pattern (R61, Table 4-2). -/
def Fmt.decode (f : Fmt) (b : Nat) : FVal :=
  let neg := b / f.signBit % 2 = 1
  let e := b / 2 ^ f.fbits % 2 ^ f.ebits
  let m := b % 2 ^ f.fbits
  if e = 0 then .fin neg m (1 - f.bias - f.fbits)
  else if f.ieee && e == f.emax then
    if m = 0 then .inf neg else .nan neg (m < 2 ^ (f.fbits - 1)) (m * 2 ^ (23 - f.fbits))
  else if !f.ieee && e == f.emax && m == 2 ^ f.fbits - 1 then .nan neg false (2 ^ 22)
  else .fin neg (m + 2 ^ f.fbits) (Int.ofNat e - f.bias - f.fbits)

def FVal.isNan : FVal → Bool | .nan _ _ _ => true | _ => false
def FVal.isSig : FVal → Bool | .nan _ s _ => s | _ => false
def FVal.isZero : FVal → Bool | .fin _ m _ => m == 0 | _ => false
def FVal.isInf : FVal → Bool | .inf _ => true | _ => false
def FVal.neg : FVal → Bool | .fin n _ _ => n | .inf n => n | .nan n _ _ => n
def FVal.negate : FVal → FVal | .fin n m e => .fin (!n) m e | .inf n => .inf (!n) | .nan n s p => .nan n s p
/-- A subnormal operand counts as a zero of its sign under FTZ (R69). -/
def Fmt.flush (f : Fmt) (ftz : Bool) (v : FVal) : FVal :=
  match v with
  | .fin n m e => if ftz && m < 2 ^ f.fbits then .fin n 0 e else v
  | v => v

/-- The NaN of a format with the sign and payload of a NaN, quieted (R66). -/
def Fmt.nan (f : Fmt) (neg : Bool) (payload : Nat) : Nat :=
  if f.ieee then
    let frac := payload / 2 ^ (23 - f.fbits)
    let q := 2 ^ (f.fbits - 1)
    signIn f neg + f.emax * 2 ^ f.fbits + (if frac / q % 2 = 1 then frac else frac + q)
  else signIn f neg + 0x7F
/-- The canonical NaN of a format (Table 4-1). -/
def Fmt.canonical (f : Fmt) : Nat := f.nan false (2 ^ 22)
def Fmt.zero (f : Fmt) (neg : Bool) : Nat := signIn f neg
/-- The infinity of a format; for E4M3 the NaN of its sign (R65). -/
def Fmt.inf (f : Fmt) (neg : Bool) : Nat := if f.ieee then signIn f neg + f.emax * 2 ^ f.fbits else signIn f neg + 0x7F
/-- The largest finite value (Table 4-1). -/
def Fmt.max (f : Fmt) (neg : Bool) : Nat :=
  if f.ieee then signIn f neg + f.emax * 2 ^ f.fbits - 1 else signIn f neg + 0x7E

/-- The number of bits of a number: 0 for 0. -/
def bitLen (n : Nat) : Nat := if n = 0 then 0 else Nat.log2 n + 1

/-- An exact nonzero real between m * 2^e and (m + 1) * 2^e: exactly the former when not `more`. -/
structure Exact where
  neg : Bool
  m : Nat
  e : Int
  more : Bool
  deriving DecidableEq, Repr

/-- 2^i for an integer that is not negative. -/
def pow2 (i : Int) : Nat := 2 ^ i.toNat

/-- Rounds an exact magnitude to a multiple of 2^q: the multiple, and whether it differs (Table 4-3). -/
def Exact.roundAt (x : Exact) (rm : RoundMode) (q : Int) : Nat × Bool :=
  if q ≤ x.e then (x.m * pow2 (x.e - q), x.more)
  else
    let d := pow2 (q - x.e)
    let n := x.m / d
    let r := x.m % d
    let half := d / 2
    let ix := r != 0 || x.more
    let up := match rm with
      | .rne => r > half || (r == half && (x.more || n % 2 == 1))
      | .rna => r ≥ half
      | .rtz => false
      | .rdn => x.neg && ix
      | .rup => !x.neg && ix
    (if up then n + 1 else n, ix)

/-- Whether an overflow in a mode gives the infinity (Table 4-4). -/
def overflowInf (rm : RoundMode) (neg : Bool) : Bool :=
  match rm with | .rne | .rna => true | .rtz => false | .rdn => neg | .rup => !neg

/-- round_fmt(x, F, rm, sat) of R65; `ftz` delivers a tiny result as a zero of its sign (R69). -/
def roundFmt (f : Fmt) (rm : RoundMode) (sat ftz : Bool) (x : Exact) : Nat × Conds :=
  let top : Int := x.e + Int.ofNat (bitLen x.m) - 1
  let (n, ix) := x.roundAt rm (top - f.fbits)
  let carry := n == 2 ^ (f.fbits + 1)
  let ex : Int := if carry then top + 1 else top
  let emin : Int := 1 - Int.ofNat f.bias
  let emaxF : Int := if f.ieee then Int.ofNat f.emax - 1 - Int.ofNat f.bias else Int.ofNat f.emax - Int.ofNat f.bias
  if ex < emin then
    if ftz then (f.zero x.neg, cUnderflow ||| cInexact)
    else
      let (n', ix') := x.roundAt rm (emin - f.fbits)
      (signIn f x.neg + n', if ix' then cUnderflow ||| cInexact else 0)
  else if ex > emaxF || (!f.ieee && ex == emaxF && !carry && n == 2 ^ (f.fbits + 1) - 1) then
    ((if overflowInf rm x.neg && !sat then f.inf x.neg else f.max x.neg), cOverflow ||| cInexact)
  else
    let frac := if carry then 0 else n - 2 ^ f.fbits
    (signIn f x.neg + (ex + Int.ofNat f.bias).toNat * 2 ^ f.fbits + frac, if ix then cInexact else 0)

/-- A finite value delivered in a format: zeros exactly, others through round_fmt. -/
def deliver (f : Fmt) (rm : RoundMode) (sat ftz : Bool) (neg : Bool) (m : Nat) (e : Int) : Nat × Conds :=
  if m = 0 then (f.zero neg, 0) else roundFmt f rm sat ftz ⟨neg, m, e, false⟩

/-- The signed integer of a finite value over a common exponent. -/
def scaled (neg : Bool) (m : Nat) (e lo : Int) : Int :=
  let n := Int.ofNat (m * pow2 (e - lo))
  if neg then -n else n

/-- The exact sum of two finite values: its sign, magnitude and exponent. A zero sum has the sign of R67. -/
def exactAdd (rm : RoundMode) (na : Bool) (ma : Nat) (ea : Int) (nb : Bool) (mb : Nat) (eb : Int) : Bool × Nat × Int :=
  let lo := min ea eb
  let t := scaled na ma ea lo + scaled nb mb eb lo
  if t = 0 then ((if na == nb then na else rm == .rdn), 0, lo) else (t < 0, t.natAbs, lo)

/-- The result of operands that hold a NaN: the first of them, quieted; a signalling one raises invalid (R68). -/
def nanOf (f : Fmt) (vs : List FVal) : Option (Nat × Conds) :=
  (vs.find? FVal.isNan).map fun v =>
    (match v with | .nan n _ p => f.nan n p | _ => f.canonical, if vs.any FVal.isSig then cInvalid else 0)

/-- What an operation rounds with: the mode, and FTZ. -/
structure FEnv where
  rm : RoundMode
  ftz : Bool
  deriving DecidableEq, Repr

def invalidIn (f : Fmt) : Nat × Conds := (f.canonical, cInvalid)

/-- a + b of decoded values without NaNs. -/
def addVal (f : Fmt) (v : FEnv) (a b : FVal) : Nat × Conds :=
  match a, b with
  | .inf na, .inf nb => if na == nb then (f.inf na, 0) else invalidIn f
  | .inf na, _ => (f.inf na, 0)
  | _, .inf nb => (f.inf nb, 0)
  | .fin na ma ea, .fin nb mb eb =>
    let (n, m, e) := exactAdd v.rm na ma ea nb mb eb
    deliver f v.rm false v.ftz n m e
  | _, _ => (f.canonical, 0)

def fAdd (f : Fmt) (v : FEnv) (a b : Nat) : Nat × Conds :=
  let x := f.flush v.ftz (f.decode a)
  let y := f.flush v.ftz (f.decode b)
  (nanOf f [x, y]).getD (addVal f v x y)
def fSub (f : Fmt) (v : FEnv) (a b : Nat) : Nat × Conds :=
  let x := f.flush v.ftz (f.decode a)
  let y := f.flush v.ftz (f.decode b)
  (nanOf f [x, y]).getD (addVal f v x y.negate)
/-- The exact product of values without NaNs; none for 0 * infinity. -/
def mulVal (a b : FVal) : Option FVal :=
  match a, b with
  | .fin na ma ea, .fin nb mb eb => some (.fin (na != nb) (ma * mb) (ea + eb))
  | x, y => if x.isZero || y.isZero then none else some (.inf (x.neg != y.neg))
def fMul (f : Fmt) (v : FEnv) (a b : Nat) : Nat × Conds :=
  let x := f.flush v.ftz (f.decode a)
  let y := f.flush v.ftz (f.decode b)
  (nanOf f [x, y]).getD
    (match mulVal x y with
     | none => invalidIn f
     | some (.fin n m e) => deliver f v.rm false v.ftz n m e
     | some p => (f.inf p.neg, 0))
/-- a * b + c, or a * b - c, with one rounding (R176). -/
def fFma (f : Fmt) (v : FEnv) (negC : Bool) (a b c : Nat) : Nat × Conds :=
  let x := f.flush v.ftz (f.decode a)
  let y := f.flush v.ftz (f.decode b)
  let z := f.flush v.ftz (f.decode c)
  if x.isNan || y.isNan then (nanOf f [x, y, z]).getD (invalidIn f)
  else match mulVal x y with
    | none => ((nanOf f [z]).getD (invalidIn f)).1 |> fun r => (r, cInvalid)
    | some p => (nanOf f [z]).getD (addVal f v p (if negC then z.negate else z))

/-- a below b among values that are not NaNs, with -0 below +0 when `zeros` (R67). -/
def ltVal (zeros : Bool) (a b : FVal) : Bool :=
  match a, b with
  | .inf na, y => na && !(y.isInf && y.neg)
  | x, .inf nb => !nb && !(x.isInf && !x.neg)
  | .fin na ma ea, .fin nb mb eb =>
    let lo := min ea eb
    let p := scaled na ma ea lo
    let q := scaled nb mb eb lo
    p < q || (zeros && p == 0 && q == 0 && na && !nb)
  | _, _ => false
/-- A delivered operand: its pattern, flushed. -/
def Fmt.keep (f : Fmt) (v : FEnv) (b : Nat) : Nat :=
  match f.flush v.ftz (f.decode b) with | .fin n 0 _ => f.zero n | _ => b
/-- minimumNumber and maximumNumber (`number`), minimum and maximum (R67, R68, R173). -/
def fMinMax (f : Fmt) (v : FEnv) (max number : Bool) (a b : Nat) : Nat × Conds :=
  let x := f.flush v.ftz (f.decode a)
  let y := f.flush v.ftz (f.decode b)
  let c := if x.isSig || y.isSig then cInvalid else 0
  if number && x.isNan && !y.isNan then (f.keep v b, c)
  else if number && y.isNan && !x.isNan then (f.keep v a, c)
  else (nanOf f [x, y]).getD ((if (ltVal true y x) != max then f.keep v b else f.keep v a), 0)

/-! ## The correctly rounded functions (R174) -/

/-- The integer square root, bit by bit from bit n - 1 down. -/
def isqrtFrom (x : Nat) : Nat → Nat → Nat
  | 0, r => r
  | n + 1, r => let t := r + 2 ^ n; isqrtFrom x n (if t * t ≤ x then t else r)
def isqrt (x : Nat) : Nat := isqrtFrom x (bitLen x / 2 + 1) 0

/-- 1 / (m * 2^e). -/
def recip (neg : Bool) (m : Nat) (e : Int) : Exact :=
  let k := bitLen m + 64
  ⟨neg, 2 ^ k / m, -(Int.ofNat k) - e, 2 ^ k % m != 0⟩
/-- The square root of m * 2^e. -/
def sqrtOf (m : Nat) (e : Int) : Exact :=
  let (m1, e1) := if e % 2 = 0 then (m, e) else (2 * m, e - 1)
  let x := m1 * 2 ^ 128
  let r := isqrt x
  ⟨false, r, (e1 - 128) / 2, r * r != x⟩
/-- The reciprocal square root of m * 2^e. -/
def rsqrtOf (m : Nat) (e : Int) : Exact :=
  let (m1, e1) := if e % 2 = 0 then (m, e) else (2 * m, e - 1)
  let k := 2 * bitLen m1 + 128
  let x := 2 ^ k / m1
  let r := isqrt x
  ⟨false, r, (-(Int.ofNat k) - e1) / 2, r * r * m1 != 2 ^ k⟩

/-- The fraction bits that the two transcendental functions are computed with. Log entry 11. -/
def fix : Nat := 256
/-- ln 2 over 2^fix: the sum of 1 / (k 2^k). -/
def ln2From : Nat → Nat → Nat → Nat
  | 0, _, acc => acc
  | n + 1, k, acc => ln2From n (k + 1) (acc + 2 ^ fix / (k * 2 ^ k))
def ln2 : Nat := ln2From 260 1 0
/-- exp t for t over 2^fix below 1: the sum of t^k / k!. -/
def expFrom (t : Nat) : Nat → Nat → Nat → Nat → Nat
  | 0, _, _, acc => acc
  | n + 1, k, term, acc => expFrom t n (k + 1) (term * t / 2 ^ fix / k) (acc + term)
/-- 2^a for a = m * 2^e that is not an integer. -/
def exp2Of (neg : Bool) (m : Nat) (e : Int) : Exact :=
  let whole := m / pow2 (-e)
  let part := m % pow2 (-e) * 2 ^ fix / pow2 (-e)
  let (n, fr) : Int × Nat := if neg then (-(Int.ofNat whole) - 1, 2 ^ fix - part) else (Int.ofNat whole, part)
  ⟨false, expFrom (fr * ln2 / 2 ^ fix) 80 1 (2 ^ fix) 0, n - Int.ofNat fix, true⟩
/-- The sum of z^(2k+1) / (2k+1), for z over 2^fix. -/
def atanhFrom (z2 : Nat) : Nat → Nat → Nat → Nat → Nat
  | 0, _, _, acc => acc
  | n + 1, k, term, acc => atanhFrom z2 n (k + 2) (term * z2 / 2 ^ fix) (acc + term / k)
/-- log2 of m * 2^e, where m is no power of two. -/
def log2Of (m : Nat) (e : Int) : Exact :=
  let len := bitLen m - 1
  let z := (m - 2 ^ len) * 2 ^ fix / (m + 2 ^ len)
  let t : Int := (e + Int.ofNat len) * Int.ofNat (2 ^ fix) + Int.ofNat (2 * atanhFrom (z * z / 2 ^ fix) 90 1 z 0 * 2 ^ fix / ln2)
  if t < 0 then ⟨true, t.natAbs - 1, -(Int.ofNat fix), true⟩ else ⟨false, t.natAbs, -(Int.ofNat fix), true⟩

/-- The unary functions of major 0x12. -/
inductive Unary where | rcp | sqrt | rsq | exp2 | log2
  deriving DecidableEq, Repr

def fUnary (u : Unary) (v : FEnv) (a : Nat) : Nat × Conds :=
  let f := fp32
  let x := f.flush v.ftz (f.decode a)
  let r := roundFmt f v.rm false v.ftz
  match x with
  | .nan _ _ _ => (nanOf f [x]).getD (invalidIn f)
  | .inf n =>
    (match u with
     | .rcp => (f.zero n, 0)
     | .sqrt => if n then invalidIn f else (f.inf false, 0)
     | .rsq => if n then invalidIn f else (f.zero false, 0)
     | .exp2 => if n then (f.zero false, 0) else (f.inf false, 0)
     | .log2 => if n then invalidIn f else (f.inf false, 0))
  | .fin n 0 _ =>
    (match u with
     | .rcp | .rsq => (f.inf n, cDivZero)
     | .sqrt => (f.zero n, 0)
     | .exp2 => (0x3F800000, 0)
     | .log2 => (f.inf true, cDivZero))
  | .fin n m e =>
    (match u with
     | .rcp => r (recip n m e)
     | .sqrt => if n then invalidIn f else r (sqrtOf m e)
     | .rsq => if n then invalidIn f else r (rsqrtOf m e)
     | .exp2 =>
       if e ≥ 8 then r ⟨false, 1, if n then -1000 else 1000, false⟩
       else if m % pow2 (-e) = 0 then
         let k := Int.ofNat (m * pow2 e / pow2 (-e))
         r ⟨false, 1, if n then -(min k 1000) else min k 1000, false⟩
       else if m / pow2 (-e) ≥ 1000 then r ⟨false, 1, if n then -1000 else 1000, false⟩
       else r (exp2Of n m e)
     | .log2 =>
       if n then invalidIn f
       else
         let len := bitLen m - 1
         if m = 2 ^ len then
           let k := e + Int.ofNat len
           deliver f v.rm false v.ftz (k < 0) k.natAbs 0
         else r (log2Of m e))

/-! ## Integral values, classes and scaling (R175) -/

/-- Rounds to an integral value; FRINT raises inexact when it changes. -/
def fIntegral (rm : RoundMode) (ftz signalInexact : Bool) (a : Nat) : Nat × Conds :=
  let f := fp32
  match f.flush ftz (f.decode a) with
  | .fin n m e =>
    if m = 0 then (f.zero n, 0)
    else
      let (k, ix) := (⟨n, m, e, false⟩ : Exact).roundAt rm 0
      let (k, ix) := if e ≥ 0 then (m * pow2 e, false) else (k, ix)
      (if k = 0 then f.zero n else (roundFmt f .rne false false ⟨n, k, 0, false⟩).1, if ix && signalInexact then cInexact else 0)
  | .inf n => (f.inf n, 0)
  | x => (nanOf f [x]).getD (invalidIn f)

/-- The one-hot class mask, from the stored bits. -/
def fClass (a : Nat) : Nat :=
  match fp32.decode a with
  | .inf n => if n then 1 else 128
  | .nan _ s _ => if s then 256 else 512
  | .fin n m _ => if m = 0 then (if n then 8 else 16) else if m < 2 ^ 23 then (if n then 4 else 32) else (if n then 2 else 64)

def fScale (v : FEnv) (a : Nat) (n : Int) : Nat × Conds :=
  let f := fp32
  match f.flush v.ftz (f.decode a) with
  | .fin s m e => deliver f v.rm false v.ftz s m (e + max (-600) (min 600 n))
  | .inf s => (f.inf s, 0)
  | x => (nanOf f [x]).getD (invalidIn f)

/-- FCMP's condition, and invalid (R178). -/
def fCompare (ftz : Bool) (c : FCond) (a b : Nat) : Bool × Conds :=
  let x := fp32.flush ftz (fp32.decode a)
  let y := fp32.flush ftz (fp32.decode b)
  let un := x.isNan || y.isNan
  let sig := x.isSig || y.isSig
  let lt := !un && ltVal false x y
  let gt := !un && ltVal false y x
  let loud := if un then cInvalid else 0
  let quiet := if sig then cInvalid else 0
  match c with
  | .eq => (!un && !lt && !gt, quiet)
  | .ne => (un || lt || gt, quiet)
  | .lt => (lt, loud)
  | .le => (!un && !gt, loud)
  | .gt => (gt, loud)
  | .ge => (!un && !lt, loud)
  | .un => (un, quiet)
  | .or => (!un, quiet)

/-! ## Conversions (R66, R69, R179 to R181) -/

/-- Converts between floating-point formats. -/
def fConvert (src dst : Fmt) (rm : RoundMode) (sat flushIn flushOut : Bool) (a : Nat) : Nat × Conds :=
  match src.flush flushIn (src.decode a) with
  | .fin n m e => deliver dst rm sat flushOut n m e
  | .inf n =>
    if dst.ieee then (dst.inf n, 0) else ((if sat then dst.max n else dst.inf n), cInvalid)
  | .nan n s p => (dst.nan n p, if s then cInvalid else 0)

/-- The bounds and the special results of a conversion to an integer (Table 10-7): the range, then what lies above it,
below it and a NaN gives. -/
structure IntDst where
  lo : Int
  hi : Int
  above : Int
  below : Int
  nan : Int
  deriving DecidableEq, Repr

def dstS32 (sat : Bool) : IntDst :=
  if sat then ⟨-2147483648, 2147483647, 2147483647, -2147483648, 0⟩
  else ⟨-2147483648, 2147483647, -2147483648, -2147483648, -2147483648⟩
def dstU32 (sat : Bool) : IntDst :=
  if sat then ⟨0, 4294967295, 4294967295, 0, 0⟩ else ⟨0, 4294967295, 4294967295, 4294967295, 4294967295⟩
def dstS8 : IntDst := ⟨-128, 127, 127, -128, 0⟩

def fToInt (d : IntDst) (rm : RoundMode) (ftz : Bool) (a : Nat) : Int × Conds :=
  match fp32.flush ftz (fp32.decode a) with
  | .nan _ _ _ => (d.nan, cInvalid)
  | .inf n => (if n then d.below else d.above, cInvalid)
  | .fin n m e =>
    let (k, ix) := if e ≥ 0 then (m * pow2 e, false) else (⟨n, m, e, false⟩ : Exact).roundAt rm 0
    let i : Int := if n then -(Int.ofNat k) else Int.ofNat k
    if i > d.hi then (d.above, cInvalid) else if i < d.lo then (d.below, cInvalid)
    else (i, if ix then cInexact else 0)

def intToF32 (rm : RoundMode) (i : Int) : Nat × Conds := deliver fp32 rm false false (i < 0) i.natAbs 0

/-! ## FADD at memory, and the matrix engine (R71, R72, R193) -/

/-- RNE32(old + val) with the NaN rule of R193. -/
def memFadd (old val : Word) : Word := BitVec.ofNat 32 (fAdd fp32 ⟨.rne, false⟩ old.toNat val.toNat).1

/-- One chunk of 16 products: its sum rounded to FP32 (R71, R72). Each product is given by its factors. -/
def chunk (neg : Bool) (ps : List (List FVal)) : Nat :=
  let prods := ps.map fun fs => fs.foldl (fun (p : Option FVal) x =>
    match p with | some y => if x.isNan || y.isNan then none else mulVal y x | none => none) (some (.fin neg 1 0))
  if prods.any (· == none) then fp32.canonical
  else
    let vs := prods.filterMap id
    let plus := vs.any fun v => v.isInf && !v.neg
    let minus := vs.any fun v => v.isInf && v.neg
    if plus && minus then fp32.canonical
    else if plus then fp32.inf false
    else if minus then fp32.inf true
    else
      let lo := vs.foldl (fun (l : Int) v => match v with | .fin _ _ e => min l e | _ => l) 0
      let t := vs.foldl (fun (a : Int) v => match v with | .fin n m e => a + scaled n m e lo | _ => a) 0
      if t = 0 then fp32.zero (vs.all fun v => v.isZero && v.neg)
      else (deliver fp32 .rne false false (t < 0) t.natAbs lo).1
/-- The accumulator addition: a NaN gives the canonical NaN (R72). -/
def accAdd (acc e : Nat) : Nat :=
  if (fp32.decode acc).isNan || (fp32.decode e).isNan then fp32.canonical else (fAdd fp32 ⟨.rne, false⟩ acc e).1

end Sys2Proof.Machine
end

