-- ==== Sys2Proof/Config.lean ====
section
/-! DEFINITION. Config.lean: what one implementation fixes, and the FREE VALUES: values that the spec leaves open though
the machine goes on. A free value is an opaque constant: nothing can evaluate it, so a claim holds for every value of it. -/
namespace Sys2Proof.Config

/-- Words 1 to NW-1 of a matrix frame that holds operations: their layout belongs to the part (R218). The arguments are
the issue number of the frame's first operation, the lane of the octet and the word. Log entry 12. -/
opaque frameWord : Nat → Nat → Nat → Word

/-- The number of frame words beyond the two that every filled frame has (R218: NW is at most 256). Log entry 12. -/
opaque frameExtra : Nat → Nat

/-- A byte read from memory that this package does not hold: the host window, or another package's memory (R357).
The arguments are the physical address and the free-value counter. Log entry 13. -/
opaque outsideByte : Nat → Nat → Byte

/-- A byte of another member's replica of a package page, and how many members of its group have lower and higher package numbers
(R92, R366). The arguments are the physical address, the member and the free-value counter. Log entry 130. -/
opaque memberByte : Nat → Nat → Nat → Byte
opaque membersBelow : Nat → Nat → Nat
opaque membersAbove : Nat → Nat → Nat

/-- A byte of a Bound frame read under another key than it was written with (R298). Log entry 14. -/
opaque cipherByte : Nat → Nat → Byte

/-- A byte of memory that an unretired team wrote before its run lost a link (R313: unspecified). Log entry 19. -/
opaque lostByte : Nat → Nat → Byte

/-- The device's public key and the signature of a report: byte n of either (R375). The first argument tells the measured
firmware and the report by its free-value counter. Log entry 20. -/
opaque publicKeyByte : BitVec 512 → Nat → Byte
opaque signatureByte : Nat → Nat → Byte

/-- The signature's length, at most 1,462 bytes (R375). -/
opaque signatureLength : Nat → Nat

/-- Where Quire's admin commands have put a submission queue of a drive, as a virtual address of the space of its lease, and how
many entries it has (R368 to R370). Log entry 25. -/
opaque sqBase : BitVec 2 → BitVec 16 → DWord
opaque sqEntries : BitVec 2 → BitVec 16 → Nat

/-- A byte that a host read of BAR0 gives where the spec states no value (R360): its offset, and the free-value counter. Log entry
117. -/
opaque barByte : Nat → Nat → Byte

/-- The fuses of the boot ROM (R374): the four hashes of public keys, which of them are revoked, and the rollback counter; and
whether a Falcon-1024 signature verifies a digest under a public key. Log entry 104. -/
opaque keyHash : Nat → BitVec 512
opaque keyRevoked : Nat → Bool
opaque rollback : Nat
opaque falconVerifies : List Byte → BitVec 512 → List Byte → Bool

/-- The part's address hash (R88): the channel, of the 64 of its die, that holds a 128-byte line, and the set of its slice. Log entry 21. -/
opaque channelOf : Nat → Nat
opaque setOf : Nat → Nat

/-- The literal word of a ULIT whose guard fails and whose literal cannot be read, as it feeds WMSIG (R120, R260). Log entry 120. -/
opaque skippedLiteral : Nat → Word

end Sys2Proof.Config
end

