-- ==== Sys2Proof/Machine/Assoc.lean ====
section
/-! DEFINITION. Machine/Assoc.lean: sparse maps as lists of (key, value) pairs in one canonical form: the keys strictly
rising. They hold everything that the machine numbers (plies, cores, rows, frames, bytes of memory). -/
namespace Sys2Proof.Machine

/-- A sparse map: the pairs it lists, keys strictly rising. -/
abbrev Map (α : Type) := List (Nat × α)

/-- The canonical form of a sparse map: every key is at least `lo`, and the keys strictly rise. -/
def Map.sortedFrom {α : Type} : Nat → Map α → Bool
  | _, [] => true
  | lo, (k, _) :: m => lo ≤ k && Map.sortedFrom (k + 1) m

/-- The value listed at a key. -/
def Map.find {α : Type} : Map α → Nat → Option α
  | [], _ => none
  | (j, a) :: m, k => if k = j then some a else Map.find m k

/-- The map with `a` at key `k`. -/
def Map.put {α : Type} : Map α → Nat → α → Map α
  | [], k, a => [(k, a)]
  | (j, b) :: m, k, a => if k < j then (k, a) :: (j, b) :: m else if k = j then (k, a) :: m else (j, b) :: Map.put m k a

/-- The map with key `k` unlisted. -/
def Map.drop {α : Type} : Map α → Nat → Map α
  | [], _ => []
  | (j, b) :: m, k => if k = j then Map.drop m k else (j, b) :: Map.drop m k

/-- The map with the value at `k` replaced, put or unlisted. -/
def Map.set {α : Type} (m : Map α) (k : Nat) (a : Option α) : Map α :=
  match a with | some a => m.put k a | none => m.drop k

/-- The value at a key of a map whose unlisted keys hold `d`. -/
def Map.getD {α : Type} (m : Map α) (k : Nat) (d : α) : α := (m.find k).getD d

/-- Writes a value, keeping the default unlisted. -/
def Map.setD {α : Type} [DecidableEq α] (m : Map α) (k : Nat) (a d : α) : Map α :=
  if a = d then m.drop k else m.put k a

def Map.mem {α : Type} (m : Map α) (k : Nat) : Bool := (m.find k).isSome
def Map.keys {α : Type} (m : Map α) : List Nat := m.map (·.1)
def Map.vals {α : Type} (m : Map α) : List α := m.map (·.2)
/-- Applies `f` to every listed value. -/
def Map.mapVals {α : Type} (m : Map α) (f : Nat → α → α) : Map α := m.map fun (k, a) => (k, f k a)
/-- The same value at several keys. -/
def Map.putAll {α : Type} (m : Map α) (ks : List Nat) (a : α) : Map α := ks.foldl (fun m k => m.put k a) m
/-- Unlists several keys. -/
def Map.dropAll {α : Type} (m : Map α) (ks : List Nat) : Map α := ks.foldl Map.drop m
/-- Keeps the listed pairs that meet a test. -/
def Map.sift {α : Type} (m : Map α) (f : Nat → α → Bool) : Map α := m.filter fun (k, a) => f k a

/-- The lowest number below `n` that the list does not hold, counting from `k`. -/
def lowestFreeFrom (used : List Nat) : Nat → Nat → Option Nat
  | 0, _ => none
  | n + 1, k => if used.contains k then lowestFreeFrom used n (k + 1) else some k

/-- The lowest number of 0 to n-1 that the list does not hold. -/
def lowestFree (used : List Nat) (n : Nat) : Option Nat := lowestFreeFrom used n 0

/-- A set of numbers as a strictly rising list. -/
abbrev NSet := List Nat
def NSet.add : NSet → Nat → NSet
  | [], k => [k]
  | j :: m, k => if k < j then k :: j :: m else if k = j then j :: m else j :: NSet.add m k
def NSet.del (m : NSet) (k : Nat) : NSet := m.filter (· != k)

end Sys2Proof.Machine
end

