-- ==== Sys2Proof/Machine/State.lean ====
section
/-! DEFINITION. Machine/State.lean: everything the spec gives the machine, as plain data, with the state after reset, and
the reasons a step can stop. INVENTORY.md lists each field with the rule that names it and its reset value. -/
namespace Sys2Proof.Machine

/-- A program counter: a 57-bit virtual byte address (R115). -/
abbrev Pc := BitVec 57

/-! ## A ply -/

/-- Slot states (Table 2-1). A Free slot has no record. -/
inductive SlotState where | ready | parked | yielded | halted
  deriving DecidableEq, Repr

/-- An entry of a row map (R46). A mapped register lists its w/8 rows. -/
inductive RowEntry where
  | zero
  | mapped (rows : List Nat)
  | given
  deriving DecidableEq, Repr

/-- A pin (R27): valid, outer mark (R36), recorded mask, join PC, arrived mask, depth. -/
structure Pin where
  valid : Bool
  outer : Bool
  rm : DWord
  jp : Pc
  am : DWord
  sd : BitVec 5
  deriving DecidableEq, Repr

def Pin.empty : Pin := ⟨false, false, 0, 0, 0, 0⟩

/-- An entry of the knuckle stack (R27). -/
structure Knuckle where
  mask : DWord
  pc : Pc
  deriving DecidableEq, Repr

/-- A tensor record as TBIND keeps it (Table 5-3). -/
structure TensorRec where
  base : DWord
  fmt : BitVec 4
  rank : BitVec 3
  oob : Bool
  dimm1 : Vector (BitVec 16) 5
  stride : Vector DWord 4
  deriving DecidableEq, Repr

/-- The part of a ply's state that a mould captures (Table 14-4). -/
structure Arch where
  pc : Pc
  em : DWord
  knuckles : List Knuckle
  pins : Vector Pin 8
  s : Vector DWord 64
  p : Vector DWord 8
  q : BitVec 8
  c : Vector DWord 8
  rows : Vector RowEntry 64
  t : Vector (Option TensorRec) 16
  cb : Vector (Option (Vector (BitVec 16) 16)) 8
  fpmode : BitVec 9
  fpflags : BitVec 5
  rnsctl : BitVec 2
  /-- RNSSTAT: LOC 4, MCNT 8, UNC 1 (Table 3-4). -/
  rnsLoc : BitVec 4
  rnsMcnt : BitVec 8
  rnsUnc : Bool
  resbase : DWord
  qbackoff : BitVec 16
  uivec : DWord
  uictl : BitVec 24
  wmsig : BitVec 16
  wmmask : BitVec 16
  wix : DWord
  sibix : DWord
  role : BitVec 2
  ticket : BitVec 32
  slotIx : BitVec 4
  phase : Bool
  deriving DecidableEq, Repr

/-- The state at ply start (R20, R44, Table 3-3): `w` lanes active at `pc`. -/
def Arch.start (pc : Pc) (em : DWord) : Arch :=
  { pc := pc, em := em, knuckles := [], pins := Vector.replicate 8 Pin.empty, s := Vector.replicate 64 0
    p := Vector.replicate 8 0, q := 0, c := Vector.replicate 8 0, rows := Vector.replicate 64 .zero
    t := Vector.replicate 16 none, cb := Vector.replicate 8 none, fpmode := 0, fpflags := 0, rnsctl := 0
    rnsLoc := 0xF, rnsMcnt := 0, rnsUnc := false, resbase := 0, qbackoff := 64, uivec := 0, uictl := 0
    wmsig := 0xFFFF, wmmask := 0xFFFF, wix := 0, sibix := 0, role := 0, ticket := 0, slotIx := 0, phase := false }

/-- A held ticket: the team and the number of its press, the stage, the ticket, and the binding it was drawn under (R30,
R250). -/
structure Held where
  team : Nat
  press : Nat
  stage : Nat
  ticket : Nat
  binding : Nat
  deriving DecidableEq, Repr

/-- What WAITC compares (R156). -/
structure Monitor where
  pa : Nat
  wide : Bool
  cond : WaitCond
  comparand : DWord
  scope : Scope
  /-- a write performed at home has met the condition (R108) -/
  hit : Bool
  deriving DecidableEq, Repr

/-- How a queue engine keeps a queue (R310). -/
inductive QueueKind where
  | user
  | submission (tenant : BitVec 4)
  | ring (k : Nat)
  deriving DecidableEq, Repr

/-- What a ply waits for. A parked or yielded ply consumes no issue; `counts`, `genb`, `push` and `retry` hold a Ready ply. -/
inductive Wait where
  | none
  /-- rows of the pool, since a cycle (R48) -/
  | rows (since : Nat)
  /-- a page that is not present (R187, R322) -/
  | page
  /-- an entry of the queue whose descriptor lies at a place, into s[D..D+3] (R34); MBOX.RECV sets q0 as well (R289) -/
  | queue (desc : Nat) (d : SReg) (mbox : Bool)
  | latch (key : Nat)
  /-- a phase of a barrier, and where BARW writes PH (R239) -/
  | barrier (id : BitVec 4) (e : Scope) (phase : BitVec 32) (d : Option SReg)
  | ptkt (n : BitVec 3)
  | pwait (n : BitVec 3)
  | monitor (m : Monitor)
  /-- a yield on a completion register (R243, R227); `whole` says that YLD itself waits and runs again after an interrupt -/
  | copy (c : CReg) (whole : Bool)
  /-- WAITN's limits; none is any (R158) -/
  | counts (l s c m : Option Nat)
  | genb (d : SReg) (space : Nat)
  /-- IDLE: a PEVT bit (R291) -/
  | event (d : SReg)
  /-- the entries of a QPUSHL that wait for room in its window (R236, R281) -/
  | push (die desc : Nat) (kind : QueueKind) (left : List (List DWord))
  /-- a region retry waits for the counts to drain (R258) -/
  | retry (c : Cause)
  deriving DecidableEq, Repr

/-- One lane's memory access: the lane, its address, and its data words as read at first issue (R187). -/
structure LaneReq where
  lane : Nat
  ea : DWord
  /-- the residual address of REDQ (R93), else 0 -/
  ea2 : DWord
  data : List Word
  /-- a data word was poisoned, as only a store in privileged mode allows (R290) -/
  poison : Bool
  deriving DecidableEq, Repr

/-- The lanes of a partly performed instruction that are left (R187): their mask, and their accesses with the register
values read at first issue (none when the instruction was not begun, as at a fetch). `flight` is the operation that keeps
the rows pending, and `words` the instruction's words when they are fed (R260). -/
structure Unfinished where
  mask : DWord
  reqs : List LaneReq
  flight : Option Nat
  words : List (BitVec 32)
  /-- the address that a fail reply reports when no lane is kept -/
  va : DWord
  deriving DecidableEq, Repr

/-- The H registers of a slot (Table 21-2). -/
structure Halt where
  cause : BitVec 7
  after : Bool
  pc : Pc
  em : DWord
  umask : DWord
  addr : DWord
  deriving DecidableEq, Repr

def Halt.empty : Halt := ⟨0, false, 0, 0, 0, 0⟩

/-- The privileged registers of a context ply or a service core (Table 21-2). -/
structure Priv where
  pevt : BitVec 5
  hslot : BitVec 6
  pvec : DWord
  ppc : DWord
  pem : DWord
  pcause : BitVec 7
  pinh : Bool
  pmode : BitVec 2
  paspace : BitVec 13
  hvec : DWord
  stopped : Bool
  deriving DecidableEq, Repr

def Priv.reset : Priv := ⟨0, 0, 0, 0, 0, 0, false, 0, 0x1000, 0, false⟩

/-- What a ply takes from its run (R302, R337): a context ply or a service core has no tenant (R287). -/
structure Ident where
  run : Nat
  team : Nat
  teamid : BitVec 32
  runid : BitVec 32
  rtag : BitVec 8
  tenant : Option (BitVec 4)
  aspace : BitVec 12
  udel : Bool
  prio : BitVec 2
  cap : Bool
  ctrap : Bool
  rnsmap : BitVec 10
  deriving DecidableEq, Repr

/-- A cause to be taken at the next issue boundary: the cause, the PC and the address it reports (R211, R228). -/
structure Deferred where
  cause : Cause
  pc : Pc
  addr : DWord
  /-- the lanes left of a lane instruction (R325) -/
  mask : DWord
  /-- it may be retried: a matrix operation's, not a copy's (R257, R258) -/
  retried : Bool
  deriving DecidableEq, Repr

/-- BARAW's arrived mark, with the barrier's id, scope code and phase (R240), and whether a user interrupt was in progress as it was
made (log entry 64). A mark that is not valid keeps the other fields as PLYX gave them (R290). -/
structure BarMark where
  valid : Bool
  id : BitVec 4
  scope : BitVec 3
  phase : BitVec 32
  inUi : Bool
  deriving DecidableEq, Repr
def BarMark.none : BarMark := ⟨false, 0, 0, 0, false⟩

/-- A live ply. -/
structure Ply where
  /-- which filling of the slot this is: operations in flight name their ply by it -/
  uid : Nat
  width : Nat
  state : SlotState
  wait : Wait
  /-- the words of the instruction that waits (R260 feeds them when it completes) -/
  words : List (BitVec 32)
  /-- 0 user, 1 privileged, 2 hypervisor (Table 21-1) -/
  mode : BitVec 2
  a : Arch
  held : Option Held
  region : Pc
  retry : BitVec 2
  regEm : DWord
  regSig : BitVec 16
  regMask : BitVec 16
  hintdrop : BitVec 32
  scopestat : Bool
  uicause : BitVec 7
  uisrc : BitVec 2
  uicix : BitVec 3
  uiepc : DWord
  uiem : DWord
  inUi : Bool
  /-- the knuckle depth at the delivery of the user interrupt in progress (R36) -/
  uiDepth : Nat
  pendLwake : Bool
  pendQueue : Bool
  pendTrap : Bool
  pendCopy : BitVec 8
  ident : Ident
  /-- the watched queue: the physical and the virtual address of its descriptor (R234) -/
  watched : Option (Nat × DWord)
  armed : Option DWord
  /-- BARAW's arrived mark (R240) -/
  barMark : BarMark
  halt : Halt
  unfinished : Option Unfinished
  deferred : List Deferred
  /-- the whole EM, while the instruction at HPC runs over the lanes that HUMASK named (R292) -/
  fullEm : Option DWord
  /-- how often its next access, and the fetch of its next instruction, have been returned with an old generation (R325) -/
  stale : Nat
  staleFetch : Nat
  passLane : Nat
  passUniform : Nat
  /-- the next instruction cannot issue until something happens (the model's own mark) -/
  stalled : Bool
  /-- the handle of the mould that a stamped item was made from (R26, R252) -/
  item : Option DWord
  /-- the mould-table entry that a FRZ keeps while it is parked on rows (R248) -/
  kept : Option Nat
  /-- knuckle entries above the depth, as XWPK has left them (Table 21-5) -/
  above : Map Knuckle
  priv : Priv
  deriving DecidableEq, Repr

/-! ## A core -/

/-- A row of the row store (R46): 8 lane words, the reference count, the poison marks of its words, the bit errors that
nothing has read yet (`soft` ones can be corrected, `hard` ones cannot; R55), and
whether it leaves the pool when its count reaches 0 (R350). Pending and lock bits are the entries of the operations in
flight that name the row. -/
structure Row where
  words : Vector Word 8
  count : Nat
  poison : BitVec 8
  soft : BitVec 8
  hard : BitVec 8
  retiring : Bool
  deriving DecidableEq, Repr

/-- A mould-table entry that is held (R246, R252). -/
structure Mould where
  gen : BitVec 16
  rtag : BitVec 8
  run : Nat
  maker : Nat
  slot : Nat
  width : Nat
  dropped : Bool
  exported : Bool
  /-- rows that an export still waits for (R252) -/
  complete : Bool
  image : Arch
  held : Option Held
  deriving DecidableEq, Repr

/-- Where the poison of an 8-byte word came from: HBM, or data that carried it there; an L2 slice; or an injector
(R345, R352, R353). -/
inductive Mark where | memory | l2 | oneShot | seeded
  deriving DecidableEq, Repr

/-- A line held in L1: its nonzero bytes and its poisoned 8-byte words, by physical address (R87), and whether its parity has
failed (R345). -/
structure L1Line where
  cells : List Host.Cell
  poison : Map Mark
  bad : Bool
  deriving DecidableEq, Repr

/-- A line of the instruction cache: the place of the line, the space and the generation it was filled under, and its
nonzero bytes (R119), and whether its parity has failed (R345). -/
structure CodeLine where
  line : Nat
  space : Nat
  gen : BitVec 16
  cells : List Host.Cell
  bad : Bool
  deriving DecidableEq, Repr

/-- A partial of an update-only line: one word or pair of one operation (R106). -/
structure Partial where
  pa : Nat
  op : AtomOp
  value : DWord
  deriving DecidableEq, Repr

/-- A lane word that lands in a row, by the lane of the ply. With `poison` it stands for a word that did not land: its
landing marks the word poisoned (R50). -/
structure Piece where
  row : Nat
  lane : Nat
  word : Word
  poison : Bool
  deriving DecidableEq, Repr

/-- A write that has not yet been performed at home, by the place of its first byte, with the address that was translated and the lane that
writes.
One with no bytes stands for the partials of its line (R106). -/
structure HomeWrite where
  va : DWord
  lane : Nat
  pa : Nat
  bytes : List Byte
  poison : Option Mark
  deriving DecidableEq, Repr

/-- A load, store or atomic in flight (R154, R189): what lands in which rows, and what is still to be performed at home. -/
structure Flight where
  seq : Nat
  uid : Nat
  ply : Nat
  run : Nat
  tenant : Option (BitVec 4)
  /-- the address space it was translated in, and the generation that its writes carry; an untranslated one has none (R112) -/
  space : Nat
  phys : Bool
  gen : BitVec 16
  /-- how often it has been returned with an old generation, and its writes that wait for their pages since (R325) -/
  stale : Nat
  away : List HomeWrite
  /-- the instruction that made it -/
  pc : Pc
  /-- it counts in %cnts.LDS or STS, or as a tile access in TOPS (R189) -/
  counted : Bool
  tops : Bool
  rows : List Nat
  pieces : List Piece
  writes : List HomeWrite
  /-- it stands for lanes still to be replayed (R187) -/
  waiting : Bool
  /-- how a load reads, and the lanes that it has read (R339) -/
  load : Option (Instr × List LaneReq)
  /-- a load kept as a replay packet through a pre-emption (R339) -/
  packet : Bool
  ctxgen : Nat
  /-- the lines that a load has read -/
  lines : List Nat
  deriving DecidableEq, Repr

/-- The two directions and two tile forms of a copy (R226). -/
inductive CopyKind where | cpyin | cpyout | tile | fill
  deriving DecidableEq, Repr

/-- How an agent's addresses translate (R287, R302): the space, the tenant, untranslated, and the die it sits on. -/
structure Viewer where
  space : Nat
  tenant : Option (BitVec 4)
  phys : Bool
  core : Nat
  deriving DecidableEq, Repr

/-- A copy outstanding (R227). -/
structure Copy where
  seq : Nat
  uid : Nat
  ply : Nat
  run : Nat
  kind : CopyKind
  team : Nat
  tile : Nat
  source : Nat
  offset : Nat
  fillWord : Word
  record : Option TensorRec
  coords : DWord
  cr : CReg
  pc : Pc
  who : Viewer
  /-- the blocks that have not landed -/
  left : List Nat
  /-- it waits for a page (R228) -/
  held : Bool
  stale : Map Nat
  deriving DecidableEq, Repr

/-- What an octet operation of the matrix engine works on (R200, R208, R209). -/
structure MatOp where
  seq : Nat
  octet : Nat
  uid : Nat
  ply : Nat
  run : Nat
  team : Nat
  pc : Pc
  residue : Bool
  fn : MatFn
  shape : Nat
  af : Nat
  bf : Nat
  cf : Nat
  rnsmap : BitVec 10
  codebook : Option (Vector (BitVec 16) 16)
  lanes : List Nat
  /-- the first accumulator register, and the accumulator rows in register order -/
  dReg : Nat
  accRows : List Nat
  /-- the first register of the A fragment and their number -/
  aReg : Nat
  aCount : Nat
  aRows : List Nat
  bRows : List Nat
  /-- the A words of each lane of the octet, read at issue -/
  aWords : List (List Word)
  /-- the B bytes when they come from a B-share, read at issue -/
  bBytes : List Byte
  /-- the tile and offset of B, of the A scales and of the B scales -/
  bTile : Option (Nat × Nat)
  aScale : Option (Nat × Nat × Nat)
  bScale : Option (Nat × Nat × Nat)
  tiles : List Nat
  /-- the row of a poisoned register word of an active row that was read at issue -/
  badRow : Option Nat
  /-- another octet of the instruction has failed and its ply takes the cause (R211) -/
  reported : Bool
  /-- the accumulator words of each lane as a save has copied them out (R218) -/
  initial : Option (List (List Word))
  deriving DecidableEq, Repr

/-- The operations of an octet as they were when MFILL replaced their frame, oldest first, and the issue numbers of those that have been
discarded since (R219, R342; log entry 30). -/
structure SavedOctet where
  octet : Nat
  ops : List MatOp
  gone : List Nat
  deriving DecidableEq, Repr
/-- Those that can still continue. -/
def SavedOctet.live (x : SavedOctet) : List MatOp := x.ops.filter fun m => !x.gone.contains m.seq

/-- A frame that MFILL has written over an octet of a frozen engine: its words, by word and lane (R219). -/
structure Frame where
  words : Map (List Word)
  deriving DecidableEq, Repr

/-- A core. An absent record is a core that holds nothing. -/
structure Core where
  rows : Map Row
  retiredRows : NSet
  moulds : Map Mould
  gens : Map (BitVec 16)
  l1 : Map L1Line
  /-- the lines of L1, the least recently used last: the next victim (R90) -/
  l1Order : List Nat
  /-- the instruction cache, the line filled last first (R119) -/
  icache : List CodeLine
  partials : List Partial
  loads : List Flight
  stores : List Flight
  copies : List Copy
  mats : List MatOp
  frozen : Bool
  /-- a restore holds the freeze until a pre-empted slot is resumed (R342) -/
  freezeHeld : Bool
  /-- the frozen operations that a save has copied out, by octet, and the frames written over octets -/
  saved : List SavedOctet
  frames : Map Frame
  ncur : Nat
  nreq : Nat
  retiredGranules : NSet
  ctxgen : Map Nat
  starved : Option Nat
  /-- its last issue was a lane issue (R308) -/
  laneLast : Bool
  throttled : Bool
  /-- the H registers of the slots that no ply is in: they stay with the slot (Table 21-2, R343) -/
  halts : Map Halt
  /-- the poisoned words of the uniform store, by offset (R345) -/
  uniBad : NSet
  deriving DecidableEq, Repr

def Core.empty : Core :=
  { rows := [], retiredRows := [], moulds := [], gens := [], l1 := [], l1Order := [], icache := [], partials := [], loads := [], stores := []
    copies := [], mats := [], frozen := false, freezeHeld := false, saved := [], frames := [], ncur := 0, nreq := 0
    retiredGranules := [], ctxgen := [], starved := none, laneLast := false, throttled := false, halts := [], uniBad := [] }

/-! ## Teams and runs -/

/-- A tile: its deckle table entry (Table 5-1) and its contents. -/
structure Tile where
  level : Bool
  hasp : Bool
  eops : Nat
  base : Nat
  rowsM1 : Nat
  pitch : Nat
  cells : List Host.Cell
  poison : Map Mark
  /-- the 8-byte words with one bit error that nothing has read yet (R345) -/
  soft : NSet
  deriving DecidableEq, Repr

/-- A named barrier (R238). -/
structure Barrier where
  ph : BitVec 32
  cnt : Nat
  exp : Nat
  deriving DecidableEq, Repr

/-- A press that is bound (R30-R33, R230). -/
structure Press where
  nst : Nat
  depth : Nat
  roles : List (BitVec 2)
  n : Nat
  tumblers : List Nat
  /-- the phase bits of each stage, by ring slot -/
  phases : List (List Bool)
  brokenSlots : NSet
  /-- handed-back tickets of each stage -/
  back : List NSet
  binding : Nat
  deriving DecidableEq, Repr

/-- A declared B-share (R225): the slots and base registers of its four members, and their width. -/
structure Share where
  slots : List Nat
  bases : List Nat
  width : Nat
  uids : List Nat
  deriving DecidableEq, Repr

/-- A team resident on a core (R17). -/
structure Team where
  run : Nat
  number : Nat
  core : Nat
  slots : NSet
  tiles : Map Tile
  bars : Map Barrier
  presses : Map Press
  shares : Map Share
  binding : Nat
  retired : Bool
  /-- bytes that its plies have written, noted while its run has several teams (R313) -/
  wrote : NSet
  deriving DecidableEq, Repr

/-- A team that is reserved and not yet committed (R305). -/
structure Reservation where
  team : Nat
  core : Nat
  teamix : Nat
  slots : NSet
  deriving DecidableEq, Repr

/-- The run descriptor (Table 22-1). -/
structure RunDesc where
  entry : Pc
  width : Nat
  plies : Nat
  template : Bool
  udel : Bool
  prio : BitVec 2
  tenant : BitVec 4
  aspace : BitVec 12
  teams : Nat
  gang : Nat
  slim : Nat
  crec : DWord
  retmap : DWord
  skipmap : DWord
  wakekey : DWord
  dies : BitVec 4
  args : Vector DWord 8
  deriving DecidableEq, Repr

/-- An item of a stamp queue (R311): the mould handle and the WIX. -/
structure StampItem where
  handle : DWord
  wix : DWord
  deriving DecidableEq, Repr

/-- A run that has been accepted and has not ended (R304-R314). -/
structure Run where
  desc : RunDesc
  runid : BitVec 32
  tag : Option Nat
  accepted : Nat
  /-- raises of its priority so far (R304) -/
  aged : Nat
  nextTeam : Nat
  reserved : List Reservation
  skip : NSet
  retired : NSet
  stampq : List StampItem
  /-- barriers wider than core: keyed by id, scope and instance (R238) -/
  bars : Map Barrier
  cap : Bool
  ctrap : Bool
  rnsmap : BitVec 10
  cause : BitVec 8
  causePly : DWord
  causePc : DWord
  killed : Bool
  /-- a held slot: the item starts when its core holds the mould's export (R311) -/
  bound : List (Nat × StampItem)
  deriving DecidableEq, Repr

/-! ## Memory, translation and queues -/

/-- Frame states (Table 21-7). -/
inductive FrameState where
  | quarantined
  | scrubbing (job : Nat)
  | free
  | bound (tenant : BitVec 4) (key : BitVec 6)
  deriving DecidableEq, Repr

/-- A scrub job (R296). -/
structure ScrubJob where
  first : Nat
  frames : Nat
  done : Nat
  ended : Bool
  aborted : Bool
  starter : Option Nat
  seq : BitVec 8
  deriving DecidableEq, Repr

/-- A TLB entry (R321). -/
structure TlbEntry where
  space : Nat
  vbase : Nat
  log : Nat
  pbase : Nat
  r : Bool
  w : Bool
  x : Bool
  rep : Nat
  rgrp : Nat
  gen : BitVec 16
  /-- the TENANT of its space at the walk (R315) -/
  tenant : BitVec 4
  deriving DecidableEq, Repr

/-- A waiter of the fault merge table (R322): a ply, a copy, or a store that was returned with an old generation. -/
inductive Waiter where
  | ply (key uid : Nat)
  | copy (core seq : Nat)
  | store (core seq : Nat)
  deriving DecidableEq, Repr

/-- An entry of a fault merge table (R322). -/
structure MergeEntry where
  space : Nat
  vpage : Nat
  waiters : List Waiter
  deriving DecidableEq, Repr

/-- A miss held at the L2 TLB until an entry frees (R322). -/
structure HeldMiss where
  space : Nat
  vpage : Nat
  waiter : Waiter
  tenant : Option (BitVec 4)
  kind : BitVec 3
  level : Nat
  who : DWord
  /-- the generation of the space at the walk (Table 23-4) -/
  gen : BitVec 16
  deriving DecidableEq, Repr

/-- A ply parked on a queue (R34). -/
structure QueueWaiter where
  ply : Nat
  uid : Nat
  deriving DecidableEq, Repr

/-- Who pushed an entry (R302, R337): a sender of a window, the scope policy of its run, and how it translates. -/
structure Pusher where
  sender : Nat
  cap : Bool
  ctrap : Bool
  who : Viewer
  deriving DecidableEq, Repr

/-- A queue that a queue engine holds (R233, R309, R310). -/
structure Queue where
  kind : QueueKind
  ring : DWord
  logd : Nat
  head : DWord
  tail : DWord
  waiters : List QueueWaiter
  runs : NSet
  notify : BitVec 16
  /-- who pushed each stored entry of a submission queue -/
  pushers : List Pusher
  deriving DecidableEq, Repr

/-- An entry of a replay window (R35). -/
structure Pending where
  seq : Nat
  desc : Nat
  kind : QueueKind
  data : List DWord
  /-- sent and not yet at the queue engine -/
  flying : Bool
  /-- it has been stored or handed over, and the acknowledgement is on its way -/
  taken : Bool
  /-- a negative acknowledgement is on its way -/
  dropped : Bool
  deriving DecidableEq, Repr

/-- A replay window: one sender towards one queue engine (R35, R236). -/
structure Window where
  sender : Nat
  die : Nat
  ply : Nat
  run : Nat
  who : Viewer
  next : Nat
  entries : List Pending
  /-- the destination drops everything before this sequence number arrives again -/
  awaited : Option Nat
  /-- the sender waits its back-off -/
  backoff : Bool
  deriving DecidableEq, Repr

/-- An entry that waits for room in its sender's window (R35, R236, R323, R347). -/
structure Unsent where
  sender : Nat
  die : Nat
  ply : Nat
  run : Nat
  who : Viewer
  desc : Nat
  kind : QueueKind
  data : List DWord
  deriving DecidableEq, Repr

/-- A waiter of the latch table: a ply, or waiter n of function f (R241, R363). -/
inductive LatchWaiter where
  | ply (key : Nat)
  | host (vf n : Nat)
  deriving DecidableEq, Repr

/-- A latch table entry (R241). -/
structure Latch where
  count : Nat
  waiters : List LatchWaiter
  armed : List Nat
  deriving DecidableEq, Repr

/-- L2 replacement priorities (R89). -/
inductive L2Prio where | evictFirst | normal | evictLast
  deriving DecidableEq, Repr

/-- A line in L2: its priority, and its set and way in its slice (R88, R89). -/
structure L2Line where
  line : Nat
  prio : L2Prio
  set : Nat
  way : Nat
  deriving DecidableEq, Repr

/-! ## The registers of the hypervisor, the reliability units and the I/O die -/

/-- Table 24-1 and the hypervisor rows of Table 21-2. -/
structure Hyp where
  astbase : DWord
  flten : BitVec 4
  subq : Map DWord
  tcfg : Map (BitVec 22)
  tport : Map (BitVec 56)
  kway : Map DWord
  vfpol : Map (BitVec 7)
  preTen : BitVec 4
  preGo : Bool
  preRestore : Bool
  /-- the tenants whose set sweep runs, each with its TCFG before the sets were lost (R335) -/
  sweepOld : Map (BitVec 22)
  csel : BitVec 8
  mbtab : DWord
  injaddr : DWord
  /-- the address that the injector was armed on (R352) -/
  injAt : DWord
  injArm : Bool
  injMode : BitVec 2
  injFired : Bool
  injMask : BitVec 8
  keySlot : BitVec 6
  keyLoad : Bool
  keyBusy : Bool
  deriving DecidableEq, Repr

/-- A resource of the counting table (R349). -/
inductive Resource where
  | row (core row : Nat)
  | granule (core granule : Nat)
  | way (slice set way : Nat)
  | frame (frame : Nat)
  | channel (j : Nat)
  deriving DecidableEq, Repr

/-- An entry of the counting table: the resource and the times of its two latest events (R349). -/
structure Counted where
  resource : Resource
  latest : Nat
  earlier : Option Nat
  deriving DecidableEq, Repr

/-- An error record (Table 25-2). -/
structure ErrorRec where
  src : Nat
  kind : Nat
  inj : BitVec 2
  aux : Nat
  loc : Nat
  res : DWord
  ply : DWord
  time : Nat
  deriving DecidableEq, Repr

/-- A pass of a stack's patrol scrub (R354): when it began, and the lines that it has read. -/
structure Pass where
  start : Nat
  lines : NSet
  deriving DecidableEq, Repr

/-- Table 25-3, and the state of the reliability units. -/
structure Rel where
  relcfg : BitVec 5
  rnsmapw : BitVec 10
  testmask : BitVec 16
  sinjEn : Bool
  sinjMode : BitVec 2
  sinjMask : BitVec 8
  sinjSeed : BitVec 32
  sinjRate : BitVec 32
  scrcfg : BitVec 10
  lagging : BitVec 8
  deferring : BitVec 8
  /-- the passes in progress, and the times of the latest corrected events, by stack (R354) -/
  passes : Map Pass
  corrected : Map (List Nat)
  cecnt : Vector (BitVec 32) 4
  uecnt : Vector (BitVec 32) 4
  dropcnt : Vector (BitVec 32) 4
  tables : Map (List Counted)
  /-- records that a die's unit holds (R347) -/
  buffers : Map (List ErrorRec)
  deriving DecidableEq, Repr

/-- A lease (Table 26-5). -/
structure Lease where
  drive : BitVec 2
  en : Bool
  wp : Bool
  stop : Bool
  reason : BitVec 8
  tenant : BitVec 4
  aspace : BitVec 12
  sqid : BitVec 16
  lbase : DWord
  lcnt : DWord
  nsid : BitVec 32
  qkey : DWord
  /-- the tail the I/O die has forwarded -/
  tail : BitVec 32
  deriving DecidableEq, Repr

def Lease.empty : Lease := ⟨0, false, false, false, 0, 0, 0, 0, 0, 0, 0, 0, 0⟩

/-- A waiter of a latch aperture (Table 26-4), with the key of its latch table entry. -/
structure HostWaiter where
  key : DWord
  status : BitVec 2
  deriving DecidableEq, Repr

/-- What a request at the inbound ordering point reaches: a page of a space, an offset of BAR0, or, for a drive's admin
queues, a physical address (R360, R368). -/
inductive Aim where | page | bar0 | admin
  deriving DecidableEq, Repr

/-- A request held at the inbound ordering point (R362): virtual function f is source f, the drive of root port j source
64 + j, whose DMA names its lease, and the physical function source 128. -/
structure Inbound where
  source : Nat
  relaxed : Bool
  tenant : BitVec 4
  space : Nat
  va : Nat
  lease : Nat
  req : BusRequest
  aim : Aim
  deriving DecidableEq, Repr

/-- Tables 26-2, 26-5 and 27-1, and the state of the I/O die's units. -/
structure Io where
  pod : BitVec 9
  podOn : Bool
  hro : Bool
  hostwin : BitVec 16
  akUp : BitVec 16
  akNarrow : BitVec 16
  akgrp : BitVec 16
  /-- the packages that each Aktum port reaches (R365) -/
  reach : Map NSet
  vfwin : Map DWord
  leases : Map Lease
  waiters : Map HostWaiter
  /-- the host waiters whose KEY found the table full, in the order of their writes (R364) -/
  keyq : List Nat
  inbound : List Inbound
  readyRom : Bool
  readyMem : BitVec 8
  readySvc : BitVec 16
  readyDie : BitVec 4
  readyHost : Bool
  readyNvme : BitVec 4
  readyAktum : Bool
  readyKeys : Bool
  stage : BitVec 4
  fail : BitVec 8
  meas : BitVec 512
  monsel : DWord
  monitors : Map Int
  nvmeLink : BitVec 4
  /-- the firmware image that the ROM works on, and what the host has sent of a new one (R374) -/
  image : Option FirmwareImage
  upload : List Byte
  serviceEntry : Pc
  contextEntry : Pc
  deriving DecidableEq, Repr

/-- What has left the package: the model's own record (log entry 15). -/
inductive OutMsg where
  | hostWrite (addr : Nat) (data : List Byte)
  | hostRead (vf : Nat) (data : List Byte)
  | aktumWrite (pa : Nat) (data : List Byte)
  | aktumRed (pa : Nat) (op : AtomOp) (value : DWord)
  /-- an atomic or a CAS, performed at the other package's home (R366) -/
  | aktumAtomic (pa : Nat) (req : BusRequest)
  /-- the reply to another package's request; none when it is not permitted -/
  | aktumReply (port : Nat) (data : Option (List Byte)) (poisoned : Bool)
  | sqTail (drive : Nat) (sq : Nat) (tail : BitVec 32)
  | cqHead (drive : Nat) (sq : Nat) (head : BitVec 32)
  | dmaReply (lease : Nat) (data : Option (List Byte))
  | latchSeen (vf n : Nat)
  | podBarrier (run : Nat) (id : BitVec 4) (m : PodBarrier)
  deriving DecidableEq, Repr

/-! ## The machine -/

/-- What happens in a step: an instruction of a ply, or a step of a unit or of the environment (log entry 4). -/
inductive Turn where
  | ply (key : Nat)
  | event (i : Instr)
  deriving DecidableEq, Repr

/-- The state of one HL9 package. -/
structure State where
  /-- the agent whose instruction runs: core * 64 + slot; service core k is core 192 + k (R374) -/
  cur : Nat
  /-- what happens next, in order; when it is empty the model's own order goes on (the model's own; log entry 4) -/
  agenda : List Turn
  /-- the cycles that the coming steps take (the model's own; log entry 5) -/
  lapse : List Nat
  cycle : Nat
  /-- the cycle of the last reset of the compute dies, from which %clock counts (R57) -/
  coreReset : Nat
  /-- counts the free values taken (the model's own) -/
  fresh : Nat
  /-- the next issue number (the model's own) -/
  seq : Nat
  plies : Map Ply
  cores : Map Core
  teams : Map Team
  runs : Map Run
  nextRun : BitVec 32
  mem : List Host.Cell
  /-- the poisoned 8-byte words of memory (R346) -/
  poison : Map Mark
  /-- bit errors that nothing has read yet (R345): 4 * the 8-byte word, 2 more when it cannot be corrected, 1 more in L2 -/
  latent : NSet
  /-- the key number that each line was written under; an unlisted line is clean or was never written (R296, R298) -/
  keyOf : Map Nat
  frames : Map FrameState
  retirePending : NSet
  retiredFrames : NSet
  jobs : Map ScrubJob
  /-- the key number that each slot holds; an unlisted slot is zeroised -/
  keys : Map Nat
  nextKey : Nat
  spaceGens : Map (BitVec 16)
  tlbs : Map (List TlbEntry)
  merges : Map (Map MergeEntry)
  heldMisses : Map (List HeldMiss)
  /-- the lines of every L2 slice, the least recently used last -/
  l2 : List L2Line
  disabledWays : List (Nat × Nat × Nat)
  queues : Map Queue
  windows : List Window
  /-- what the units and ended plies still have to send, oldest first -/
  unsent : List Unsent
  latches : Map Latch
  /-- the keys that the distributor and the leases still wake: the table was full (R241, R314, R370) -/
  wakes : List Nat
  hyp : Hyp
  rel : Rel
  io : Io
  /-- die-to-die links that have failed, as 4 * a + b with a < b (R313) -/
  deadLinks : NSet
  /-- bytes whose value the loss of a link left unspecified (R313) -/
  lost : NSet
  outbox : List OutMsg
  deriving DecidableEq, Repr

/-- The faults: where the machine stops. -/
inductive Fault where
  /-- Raised by an untranslated access of a context ply or a service core to a physical address that Table 26-1 gives no
  target (R287, R357). Safe: the spec gives such an access no effect. -/
  | notInstalled
  /-- Raised by an access to the I/O die's register space that is not one aligned 8-byte word, outside a doorbell page
  (R358). Safe: the spec gives such an access no effect. -/
  | registerWidth
  deriving DecidableEq, Repr

/-- The refusals: where the model gives no meaning. -/
inductive Refusal where
  /-- Raised by an arm of the dispatch that has no meaning yet. Safe: nothing is claimed of it. -/
  | notModelled (mnemonic : String)
  /-- Raised by an instruction word when `cur` names no live ply: no run reaches such a state. Safe: nothing runs. -/
  | noActingPly
  /-- Raised by a step of the environment or of a unit in a state in which that step cannot happen (a landing that nothing
  awaits, an agent that does not exist). Safe: the step is no step of the machine there. -/
  | notEnabled
  deriving DecidableEq, Repr

def Hyp.reset : Hyp :=
  { astbase := 0, flten := 0, subq := [], tcfg := [], tport := [], kway := [], vfpol := [], preTen := 0, preGo := false
    preRestore := false, sweepOld := [], csel := 0, mbtab := 0, injaddr := 0, injAt := 0, injArm := false, injMode := 0, injFired := false
    injMask := 0, keySlot := 0, keyLoad := false, keyBusy := false }

def Rel.reset : Rel :=
  { relcfg := 0xF, rnsmapw := 0, testmask := 0, sinjEn := false, sinjMode := 0, sinjMask := 0, sinjSeed := 1, sinjRate := 0
    scrcfg := 24, lagging := 0, deferring := 0, passes := [], corrected := [], cecnt := Vector.replicate 4 0, uecnt := Vector.replicate 4 0
    dropcnt := Vector.replicate 4 0, tables := [], buffers := [] }

def Io.reset : Io :=
  { pod := 0, podOn := false, hro := false, hostwin := 0, akUp := 0, akNarrow := 0, akgrp := 0, reach := [], vfwin := [], leases := []
    waiters := [], keyq := [], inbound := [], readyRom := false, readyMem := 0, readySvc := 0, readyDie := 0, readyHost := false
    readyNvme := 0, readyAktum := false, readyKeys := false, stage := 0, fail := 0, meas := 0, monsel := 0, monitors := []
    nvmeLink := 0, image := none, upload := [], serviceEntry := 0, contextEntry := 0 }

/-- The machine after a cold reset (R372): no ply runs, every frame is Quarantined, every key slot is zeroised. -/
def State.reset : State :=
  { cur := 0, agenda := [], lapse := [], cycle := 0, coreReset := 0, fresh := 0, seq := 1024, plies := [], cores := [], teams := []
    runs := [], nextRun := 1, mem := [], poison := [], latent := [], keyOf := [], frames := []
    retirePending := [], retiredFrames := [], jobs := [], keys := [], nextKey := 1, spaceGens := [], tlbs := []
    merges := [], heldMisses := [], l2 := [], disabledWays := [], queues := [], windows := [], unsent := [], latches := [], wakes := []
    hyp := Hyp.reset, rel := Rel.reset, io := Io.reset, deadLinks := [], lost := [], outbox := [] }

end Sys2Proof.Machine
end

