-- ==== Sys2Proof/Machine/Ops.lean ====
section
/-! DEFINITION. Machine/Ops.lean: the named operations that the meanings share: the agents and their registers, the rows
of the row store (R46 to R50), the counts, event bits, replay windows and error records, taking a cause and returning
from a handler (R36, R39 to R42, R285, R326), and what completes an instruction (R120, R257, R260). -/
namespace Sys2Proof

/-! ## Causes (R39, R40, Table 23-7) -/

/-- The code of a cause (Table 23-7). -/
def Cause.code : Cause → BitVec 7
  | .illegal => 0x00 | .reserved => 0x01 | .privileged => 0x02 | .shape => 0x03 | .formatBlock => 0x04 | .role => 0x05
  | .pair => 0x06 | .brk => 0x08 | .specialReg => 0x09 | .emDiverged => 0x0A | .fpInvalid => 0x10 | .fpDivZero => 0x11
  | .fpOverflow => 0x12 | .fpUnderflow => 0x13 | .fpInexact => 0x14 | .residue => 0x15 | .intDivZero => 0x16
  | .pageFault => 0x20 | .protection => 0x21 | .misaligned => 0x22 | .staleGen => 0x23 | .tileHandle => 0x24
  | .tileBounds => 0x25 | .tensorRecord => 0x26 | .replicated => 0x27 | .tileLevel => 0x29 | .mouldHandle => 0x30
  | .rowPool => 0x31 | .mouldFull => 0x32 | .stampLimit => 0x33 | .givenReg => 0x34 | .pressBroken => 0x40
  | .pressUnbound => 0x41 | .ticket => 0x42 | .barrierCount => 0x43 | .reconverge => 0x44 | .queueBad => 0x45
  | .linkLoss => 0x47 | .residueLocated => 0x50 | .watermark => 0x51 | .regError => 0x52 | .memError => 0x53
  | .tileError => 0x54 | .injected => 0x55 | .retryExhausted => 0x56 | .preempt => 0x60 | .partition => 0x61
  | .clamped => 0x62 | .keySlot => 0x63 | .service => 0x65 | .trap n => 0x70#7 + n.setWidth 7
/-- The after causes: 0x50, 0x65 and 0x70-0x7F (R39). -/
def Cause.isAfter : Cause → Bool | .residueLocated | .service | .trap _ => true | _ => false
/-- The delegable causes by code: 0x10-0x16, 0x50 and 0x70-0x7F (R39). -/
def delegableCode (c : BitVec 7) : Bool := (0x10 ≤ c.toNat && c.toNat ≤ 0x16) || c == 0x50 || 0x70 ≤ c.toNat
/-- The causes that a region retry answers (R258, R328). -/
def Cause.consumed : Cause → Bool | .watermark | .regError | .memError | .tileError | .injected => true | _ => false
/-- The causes whose address HADDR records: 0x20-0x27 (Table 21-2). -/
def Cause.addressed : Cause → Bool
  | .pageFault | .protection | .misaligned | .staleGen | .tileHandle | .tileBounds | .tensorRecord | .replicated => true
  | _ => false

end Sys2Proof

namespace Sys2Proof.Machine

/-! ## Agents (R5, R7, R11, R57) -/

def coreOf (k : Nat) : Nat := k / 64
def slotOf (k : Nat) : Nat := k % 64
def agentKey (core slot : Nat) : Nat := core * 64 + slot
/-- The context ply of a core is its slot 63 (R286). -/
def contextKey (core : Nat) : Nat := core * 64 + 63
/-- Service core n is agent core 192 + n, slot 0 (R374). -/
def serviceKey (n : Nat) : Nat := (192 + n) * 64
def isService (k : Nat) : Bool := 192 ≤ k / 64
def isContext (k : Nat) : Bool := !isService k && k % 64 == 63
/-- The die of a core (R7); service cores 2s and 2s + 1 sit in stack s, which die s div 2 carries (R5). -/
def dieOfCore (c : Nat) : Nat := if c < 192 then c / 48 else (c - 192) / 4
/-- The die whose reliability unit reports an event of a core: service cores report to that of die 0 (R347). -/
def unitOf (c : Nat) : Nat := if c < 192 then dieOfCore c else 0
/-- The quad of a compute core, counted over the package (R7). -/
def quadOf (c : Nat) : Nat := c / 4
/-- The die whose stacks hold a physical byte (R318). -/
def dieOfPa (pa : Nat) : Nat := pa / 2 ^ 37 % 4
/-- The slice, of the package's 256, that is home to a physical byte: the die of R318, and the part's hash (R88). -/
def sliceOfPa (pa : Nat) : Nat := 64 * dieOfPa pa + Config.channelOf (pa / 128) % 64
/-- The stack that holds a physical byte: 32 channels each, two to a die (Table 1-1, R5, R332). -/
def stackOfPa (pa : Nat) : Nat := sliceOfPa pa / 32
/-- The full physical address of a local byte. -/
def localPa (io : Io) (a : Nat) : Nat := io.pod.toNat * 2 ^ 40 + a % 2 ^ 39
/-- The home lane base h (R11). -/
def homeLane (k w : Nat) : Nat := if isService k then 0 else slotOf k * w % 64

def State.ply (s : State) (k : Nat) : Option Ply := s.plies.find k
def State.setPly (s : State) (k : Nat) (p : Ply) : State := { s with plies := s.plies.put k p }
def State.modPly (s : State) (k : Nat) (f : Ply → Ply) : State :=
  match s.plies.find k with | some p => s.setPly k (f p) | none => s
def State.core (s : State) (c : Nat) : Core := s.cores.getD c Core.empty
def State.setCore (s : State) (c : Nat) (x : Core) : State := { s with cores := s.cores.put c x }
def State.modCore (s : State) (c : Nat) (f : Core → Core) : State := s.setCore c (f (s.core c))
def State.team (s : State) (t : Nat) : Option Team := s.teams.find t
def State.setTeam (s : State) (t : Nat) (x : Team) : State := { s with teams := s.teams.put t x }
def State.run (s : State) (r : Nat) : Option Run := s.runs.find r
def State.setRun (s : State) (r : Nat) (x : Run) : State := { s with runs := s.runs.put r x }
def State.modRun (s : State) (r : Nat) (f : Run → Run) : State :=
  match s.runs.find r with | some x => s.setRun r (f x) | none => s
/-- The next issue number. -/
def State.bump (s : State) : State := { s with seq := s.seq + 1 }

/-- %plyid (Table 3-4). A team's key is 4 * core + TEAMIX. -/
def plyid (k : Nat) (p : Ply) : DWord :=
  BitVec.ofNat 64 (slotOf k + 64 * (p.ident.team % 4) + 256 * coreOf k + 65536 * homeLane k p.width)

/-- The handle of a live ply that some unit remembers by the filling of its slot. -/
def State.live (s : State) (k uid : Nat) : Option Ply :=
  match s.ply k with | some p => if p.uid = uid then some p else none | none => none

/-! ## The registers of a ply (R43) -/

def Ply.sreg (p : Ply) (r : SReg) : DWord := p.a.s[r.toNat]'r.isLt
def Ply.setS (p : Ply) (r : SReg) (v : DWord) : Ply := { p with a := { p.a with s := p.a.s.set r.toNat v r.isLt } }
/-- s[D+j]; the decoder keeps D + j within s0-s63. -/
def Ply.setSAt (p : Ply) (n : Nat) (v : DWord) : Ply := p.setS (BitVec.ofNat 6 n) v
/-- A lane predicate; p7 reads 1 in lanes 0 to w-1 (R43). -/
def Ply.preg (p : Ply) (r : PReg) : DWord := if r = 7 then allLanes p.width else p.a.p[r.toNat]'r.isLt
/-- Writes the lanes of a mask of a predicate; p7 discards writes (R43). -/
def Ply.setP (p : Ply) (r : PReg) (mask v : DWord) : Ply :=
  if r = 7 then p
  else { p with a := { p.a with p := p.a.p.set r.toNat ((p.a.p[r.toNat]'r.isLt &&& ~~~mask) ||| (v &&& mask)) r.isLt } }
/-- A uniform predicate; q7 reads 1 (R43). -/
def Ply.qreg (p : Ply) (r : QReg) : Bool := r == 7 || p.a.q.getLsbD r.toNat
/-- Writes a uniform predicate; q7 discards writes (R43). -/
def Ply.setQ (p : Ply) (r : QReg) (b : Bool) : Ply :=
  if r = 7 then p else { p with a := { p.a with q := setBitTo p.a.q r.toNat b } }
def Ply.setEm (p : Ply) (em : DWord) : Ply := { p with a := { p.a with em := em &&& allLanes p.width } }
def Ply.setPc (p : Ply) (pc : Pc) : Ply := { p with a := { p.a with pc := pc } }
def Ply.creg (p : Ply) (r : CReg) : DWord := p.a.c[r.toNat]'r.isLt
def Ply.setC (p : Ply) (r : CReg) (v : DWord) : Ply := { p with a := { p.a with c := p.a.c.set r.toNat v r.isLt } }
def Ply.entry (p : Ply) (r : VReg) : RowEntry := p.a.rows[r.toNat]'r.isLt
def Ply.setEntry (p : Ply) (r : VReg) (e : RowEntry) : Ply :=
  { p with a := { p.a with rows := p.a.rows.set r.toNat e r.isLt } }
/-- Changes every pin. -/
def mapPins (v : Vector Pin 8) (f : Pin → Pin) : Vector Pin 8 := Vector.ofFn fun i => f v[i]
def Ply.pin (p : Ply) (k : KReg) : Pin := p.a.pins[k.toNat]'k.isLt
def Ply.setPin (p : Ply) (k : KReg) (x : Pin) : Ply := { p with a := { p.a with pins := p.a.pins.set k.toNat x k.isLt } }
/-- The active lanes, ascending (R12). -/
def Ply.lanes (p : Ply) : List Nat := lanesOf p.a.em
/-- Divergence is open (R12). -/
def Ply.diverged (p : Ply) : Bool := !p.a.knuckles.isEmpty || p.a.pins.toList.any (·.valid)
/-- The next of a register, wrapping; the decoder keeps groups within v0-v63. -/
def nthReg (r : VReg) (n : Nat) : VReg := r + BitVec.ofNat 6 n

/-- How an agent's addresses translate (R287, R302). -/
def viewer (k : Nat) (p : Ply) : Viewer :=
  if p.mode = 0 then ⟨p.ident.aspace.toNat, p.ident.tenant, false, coreOf k⟩
  else ⟨(p.priv.paspace.extractLsb' 0 12).toNat, none, p.priv.paspace.getLsbD 12, coreOf k⟩

/-! ## Rows (R46, R47, R49) -/

def Row.fresh : Row := ⟨Vector.replicate 8 0, 1, 0, 0, 0, false⟩

/-- The row that holds a lane of a register. -/
def rowOf (e : RowEntry) (lane : Nat) : Option Nat :=
  match e with | .mapped rs => rs[lane / 8]? | _ => none
def Core.row? (c : Core) (e : RowEntry) (lane : Nat) : Option Row :=
  match rowOf e lane with | some n => c.rows.find n | none => none
/-- A lane's word of a register; a Zero or Given register reads 0 (R46). -/
def Core.word (c : Core) (e : RowEntry) (lane : Nat) : Word :=
  match c.row? e lane with | some r => r.words.toList.getD (lane % 8) 0 | none => 0
/-- The word is poisoned (R55). -/
def Core.poisoned (c : Core) (e : RowEntry) (lane : Nat) : Bool :=
  match c.row? e lane with | some r => r.poison.getLsbD (lane % 8) | none => false
/-- A row is pending while a load or an atomic still lands in it (R50, R189). -/
def Core.pending (c : Core) (n : Nat) : Bool := c.loads.any (·.rows.contains n) || c.stores.any (·.rows.contains n)
/-- The operations whose locks stand: those of the engine, and, while it is frozen, those filled back for plies that have resumed,
which have rows again (R53, R217). -/
def Core.lockers (c : Core) : List MatOp := c.mats ++ if c.frozen then c.saved.flatMap SavedOctet.live else []
/-- A row of a locked accumulator (R53). -/
def Core.lockedAcc (c : Core) (n : Nat) : Bool := c.lockers.any (·.accRows.contains n)
/-- A locked row (R53). -/
def Core.locked (c : Core) (n : Nat) : Bool :=
  c.lockers.any fun m => m.accRows.contains n || m.aRows.contains n || m.bRows.contains n
/-- The rows of a register that hold some of the lanes. -/
def rowsOf (e : RowEntry) (lanes : List Nat) : List Nat := (lanes.filterMap (rowOf e)).eraseDups

/-- The lowest free row that is in the pool (log entry 9). -/
def Core.freeRow (c : Core) : Option Nat := lowestFree (c.rows.keys ++ c.retiredRows) 16384
/-- Takes a row from the pool and writes it wholly (R46); what it copies is checked, and carries its poison (R47, R55). -/
def Core.allocRow (c : Core) (r : Row) : Option (Nat × Core) :=
  let x : Row := { r with count := 1, retiring := false, poison := r.poison ||| r.hard, soft := 0, hard := 0 }
  match c.freeRow with | some n => some (n, { c with rows := c.rows.put n x }) | none => none
/-- Takes n zero-filled rows, or none. -/
def Core.allocZero (c : Core) : Nat → Option (List Nat × Core)
  | 0 => some ([], c)
  | n + 1 =>
    match c.allocRow Row.fresh with
    | some (r, c') => (match c'.allocZero n with | some (rs, c'') => some (r :: rs, c'') | none => none)
    | none => none
/-- Lowers a row's count; at 0 it returns to the pool, or leaves it when it is marked retiring (R46, R350). -/
def Core.dropRow (c : Core) (n : Nat) : Core :=
  match c.rows.find n with
  | some r =>
    if r.count ≤ 1 then
      { c with rows := c.rows.drop n, retiredRows := if r.retiring then c.retiredRows.add n else c.retiredRows }
    else { c with rows := c.rows.put n { r with count := r.count - 1 } }
  | none => c
/-- Releases the rows of one entry of a map (R49). -/
def Core.dropEntry (c : Core) (e : RowEntry) : Core :=
  match e with | .mapped rs => rs.foldl Core.dropRow c | _ => c
/-- Releases a whole map (R49). -/
def Core.dropMap (c : Core) (m : Vector RowEntry 64) : Core := m.toList.foldl Core.dropEntry c

/-- Makes one octet row of a Mapped entry the writer's own: a row that others hold is copied (R47). -/
def Core.ownRow (c : Core) (n : Nat) : Option (Nat × Core) :=
  match c.rows.find n with
  | some r => if r.count > 1 then (match c.allocRow r with | some (x, c') => some (x, c'.dropRow n) | none => none) else some (n, c)
  | none => some (n, c)
/-- The same for the rows of the octets in a list, from octet `j` on. -/
def Core.ownRows (c : Core) (octets : List Nat) : Nat → List Nat → Option (List Nat × Core)
  | _, [] => some ([], c)
  | j, n :: rs =>
    match (if octets.contains j then c.ownRow n else some (n, c)) with
    | some (x, c') => (match c'.ownRows octets (j + 1) rs with | some (xs, c'') => some (x :: xs, c'') | none => none)
    | none => none
/-- The rows of an entry made ready for a write of the given lanes by a ply w wide (R47); none when the pool is short. -/
def Core.prepare (c : Core) (w : Nat) (e : RowEntry) (lanes : List Nat) : Option (RowEntry × Core) :=
  if lanes.isEmpty then some (e, c)
  else match e with
    | .zero => (match c.allocZero (w / 8) with | some (rs, c') => some (.mapped rs, c') | none => none)
    | .mapped rs =>
      (match c.ownRows (lanes.map (· / 8)) 0 rs with | some (xs, c') => some (.mapped xs, c') | none => none)
    | .given => some (e, c)
/-- Writes one lane word of a row; a write clears the word's errors and its poison, or carries poison with a copy (R55). -/
def Row.put (r : Row) (lane : Nat) (v : Word) (poison : Bool) : Row :=
  { r with words := Vector.ofFn fun i => if i.val = lane then v else r.words[i]
           poison := setBitTo r.poison lane poison, soft := setBitTo r.soft lane false, hard := setBitTo r.hard lane false }
/-- Writes a lane word through an entry. -/
def Core.putWord (c : Core) (e : RowEntry) (lane : Nat) (v : Word) (poison : Bool) : Core :=
  match rowOf e lane with
  | some n => (match c.rows.find n with | some r => { c with rows := c.rows.put n (r.put (lane % 8) v poison) } | none => c)
  | none => c

/-- A lane word to be written. -/
structure LaneVal where
  lane : Nat
  word : Word
  poison : Bool := false
  deriving DecidableEq, Repr

/-- A lane write to a register under R47; none when the pool is short. -/
def writeReg (c : Core) (p : Ply) (r : VReg) (vals : List LaneVal) : Option (Core × Ply) :=
  match c.prepare p.width (p.entry r) (vals.map (·.lane)) with
  | some (e, c') => some (vals.foldl (fun x v => x.putWord e v.lane v.word v.poison) c', p.setEntry r e)
  | none => none
/-- The writes of an instruction that names several registers. -/
def writeRegs (c : Core) (p : Ply) : List (VReg × List LaneVal) → Option (Core × Ply)
  | [] => some (c, p)
  | (r, vals) :: rest => match writeReg c p r vals with | some (c', p') => writeRegs c' p' rest | none => none

/-- A new holder of one row: its count rises, or a row at 255 is copied (R49). -/
def Core.shareRow (c : Core) (n : Nat) : Option (Nat × Core) :=
  match c.rows.find n with
  | some r => if r.count < 255 then some (n, { c with rows := c.rows.put n { r with count := r.count + 1 } }) else c.allocRow r
  | none => some (n, c)
def Core.shareRows (c : Core) : List Nat → Option (List Nat × Core)
  | [] => some ([], c)
  | n :: rs =>
    match c.shareRow n with
    | some (x, c') => (match c'.shareRows rs with | some (xs, c'') => some (x :: xs, c'') | none => none)
    | none => none
def Core.shareEntry (c : Core) (e : RowEntry) : Option (RowEntry × Core) :=
  match e with
  | .mapped rs => (match c.shareRows rs with | some (xs, c') => some (.mapped xs, c') | none => none)
  | e => some (e, c)
def Core.shareList (c : Core) : List RowEntry → Option (List RowEntry × Core)
  | [] => some ([], c)
  | e :: es =>
    match c.shareEntry e with
    | some (x, c') => (match c'.shareList es with | some (xs, c'') => some (x :: xs, c'') | none => none)
    | none => none
/-- A list as a row map. -/
def asMap (es : List RowEntry) : Vector RowEntry 64 := Vector.ofFn fun i => es.getD i.val .zero
/-- A new holder of every row of a map (R49); none when the pool is short. -/
def Core.shareMap (c : Core) (m : Vector RowEntry 64) : Option (Vector RowEntry 64 × Core) :=
  match c.shareList m.toList with | some (es, c') => some (asMap es, c') | none => none
/-- A row at count 255 is pending, so that it cannot be copied yet (R49, R50). -/
def Core.shareStalls (c : Core) (m : Vector RowEntry 64) : Bool :=
  m.toList.any fun e => match e with
    | .mapped rs => rs.any fun n => c.pending n && (match c.rows.find n with | some r => r.count == 255 | none => false)
    | _ => false

/-! ## Whether the registers of an instruction let it issue (R46, R50, R53, R55, R161) -/

/-- What holds an instruction back, or the cause its registers raise. -/
inductive Gate where
  | given
  | stall
  /-- a row that is read holds bit errors, which the read finds (R55) -/
  | error
  | poison (row : Nat)
  deriving DecidableEq, Repr

/-- A register and the lanes of it that an instruction reads or writes. -/
abbrev RegUse := VReg × List Nat

def anyGiven (p : Ply) (us : List RegUse) : Bool := us.any fun (r, ls) => !ls.isEmpty && p.entry r == .given
def readStalls (c : Core) (p : Ply) (us : List RegUse) : Bool :=
  us.any fun (r, ls) => (rowsOf (p.entry r) ls).any fun n => c.pending n || c.lockedAcc n
/-- A write to a row waits: a pending row, or a locked one that it would land in; a locked row that others hold is copied,
and the copy is a read (R53, R213). -/
def Core.writeWaits (c : Core) (n : Nat) : Bool :=
  c.pending n || c.lockedAcc n || (c.locked n && (match c.rows.find n with | some r => r.count ≤ 1 | none => true))
def writeStalls (c : Core) (p : Ply) (us : List RegUse) : Bool :=
  us.any fun (r, ls) => (rowsOf (p.entry r) ls).any c.writeWaits
/-- The first poisoned word that is read, lane by lane (R186), by its row. -/
def poisonRead (c : Core) (p : Ply) (us : List RegUse) : Option Nat :=
  (List.range 64).findSome? fun l => us.findSome? fun (r, ls) =>
    if ls.contains l && c.poisoned (p.entry r) l then rowOf (p.entry r) l else none
/-- A row holds bit errors that nothing has found yet. -/
def Core.rowErrors (c : Core) (n : Nat) : Bool := match c.rows.find n with | some x => x.soft != 0 || x.hard != 0 | none => false
/-- The rows of registers. -/
def rowsUsed (p : Ply) (us : List RegUse) : List Nat := (us.flatMap fun (r, ls) => rowsOf (p.entry r) ls).eraseDups
/-- The rows that a write copies, because others hold them (R47). -/
def rowsCopied (c : Core) (p : Ply) (us : List RegUse) : List Nat :=
  (rowsUsed p us).filter fun n => match c.rows.find n with | some r => r.count > 1 | none => false
/-- A row that is read, or copied for a write, holds bit errors. -/
def errorRead (c : Core) (p : Ply) (reads writes : List RegUse) : Bool :=
  (rowsUsed p reads).any c.rowErrors || (rowsCopied c p writes).any c.rowErrors
/-- 0x34 first, then the stall of a read, then what the read finds, with 0x52, then the stall of a write. -/
def laneGate (c : Core) (p : Ply) (reads writes : List RegUse) : Option Gate :=
  if anyGiven p (reads ++ writes) then some .given
  else if readStalls c p reads then some .stall
  else if errorRead c p reads writes then some .error
  else match poisonRead c p reads with
    | some n => some (.poison n)
    | none => if writeStalls c p writes then some .stall else none

/-! ## The counts of %cnts (R154, R159, R189, R216, R236) -/

def loadsOut (s : State) (k : Nat) (p : Ply) : Nat :=
  ((s.core (coreOf k)).loads.filter fun f => f.uid == p.uid && f.counted).length
def pushesOut (s : State) (uid : Nat) : Nat :=
  (s.windows.filter (·.sender == uid)).foldl (fun n w => n + w.entries.length) 0 + (s.unsent.filter (·.sender == uid)).length
def storesOut (s : State) (k : Nat) (p : Ply) : Nat :=
  ((s.core (coreOf k)).stores.filter fun f => f.uid == p.uid && f.counted).length + pushesOut s p.uid
def copiesOut (s : State) (k : Nat) (p : Ply) : Nat :=
  ((s.core (coreOf k)).copies.filter fun f => f.uid == p.uid).length
def tilesOut (s : State) (k : Nat) (p : Ply) : Nat :=
  let c := s.core (coreOf k)
  (((c.mats ++ if c.frozen || p.state == .halted then c.saved.flatMap SavedOctet.live else []).filter fun f => f.uid == p.uid).map (·.seq)).eraseDups.length
    + ((c.loads ++ c.stores).filter fun f => f.uid == p.uid && f.tops).length
/-- Every count is zero (R249, R258). -/
def drained (s : State) (k : Nat) (p : Ply) : Bool :=
  loadsOut s k p == 0 && storesOut s k p == 0 && copiesOut s k p == 0 && tilesOut s k p == 0

/-! ## The event register of a privileged agent (Table 21-2, R291) -/

/-- The slots of a core that are Halted (0x102). -/
def haltedSlots (s : State) (core : Nat) : DWord :=
  maskOf ((List.range 63).filter fun n => match s.ply (agentKey core n) with | some p => p.state == .halted | none => false)
/-- PEVT as it reads; bit 0 is the level of HALTED (Table 21-2). -/
def pevtOf (s : State) (k : Nat) (p : Ply) : BitVec 5 :=
  setBitTo p.priv.pevt 0 (isContext k && haltedSlots s (coreOf k) != 0)
/-- A parked IDLE becomes Ready when an event is there (R291). -/
def wakeIdle (k : Nat) (s : State) : State :=
  match s.ply k with
  | some p =>
    (match p.wait with
     | .event _ => s.setPly k { p with state := .ready, wait := .none, stalled := false }
     | _ => s)
  | none => s
/-- Sets a bit of an agent's PEVT. -/
def setPevt (k n : Nat) (s : State) : State :=
  wakeIdle k (s.modPly k fun p => { p with priv := { p.priv with pevt := setBitTo p.priv.pevt n true } })
/-- The agent that a NOTIFY field names (R299). -/
def notifyKey (v : BitVec 16) : Option Nat :=
  if v.toNat < 192 then some (contextKey v.toNat)
  else if 0x100 ≤ v.toNat ∧ v.toNat < 0x110 then some (serviceKey (v.toNat - 0x100)) else none

/-! ## Replay windows (R35, R236) -/

/-- The units that send messages to mailbox rings of their own: the reliability units, the fault units, the I/O die. -/
def reliabilitySender (d : Nat) : Nat := 128 + d
def faultSender (d : Nat) : Nat := 132 + d
def ioSender : Nat := 136

def ringDesc (s : State) (k : Nat) : Nat := s.hyp.mbtab.toNat + 64 * k
def findWindow (s : State) (sender die : Nat) : Option Window := s.windows.find? fun w => w.sender == sender && w.die == die
def putWindow (w : Window) : List Window → List Window
  | [] => [w]
  | x :: xs => if x.sender = w.sender ∧ x.die = w.die then w :: xs else x :: putWindow w xs
/-- A window holds at most 8 unacknowledged entries (R35). -/
def windowRoom (s : State) (sender die : Nat) : Nat :=
  match findWindow s sender die with | some w => 8 - w.entries.length | none => 8
/-- Enters one entry in a sender's window; it is sent at once. -/
def windowPush (sender die ply run : Nat) (who : Viewer) (desc : Nat) (kind : QueueKind) (data : List DWord) (s : State) : State :=
  let w := (findWindow s sender die).getD ⟨sender, die, ply, run, who, 1, [], none, false⟩
  { s with windows := putWindow { w with ply := ply, run := run, who := who, next := w.next + 1
                                         entries := w.entries ++ [⟨w.next, desc, kind, data, true, false, false⟩] } s.windows }
/-- Sends an entry when its window has room and nothing of its sender waits before it; else it is held (R35). -/
def sendOrHold (u : Unsent) (s : State) : State :=
  if windowRoom s u.sender u.die = 0 || s.unsent.any (fun x => x.sender == u.sender && x.die == u.die) then { s with unsent := s.unsent ++ [u] }
  else windowPush u.sender u.die u.ply u.run u.who u.desc u.kind u.data s
/-- A window of a sender has room again: what was held is sent, oldest first. -/
def sendHeld (sender die : Nat) : Nat → State → State
  | 0, s => s
  | fuel + 1, s =>
    match s.unsent.find? fun x => x.sender == sender && x.die == die with
    | some u =>
      if windowRoom s sender die = 0 then s
      else sendHeld sender die fuel (windowPush sender die u.ply u.run u.who u.desc u.kind u.data { s with unsent := s.unsent.erase u })
    | none => s
/-- A unit's message to mailbox ring k. What has no room in its window is held and sent later (R323, R347). -/
def ringSend (sender k : Nat) (data : List DWord) (s : State) : State :=
  sendOrHold ⟨sender, dieOfPa (ringDesc s k), 0, 0, ⟨0, none, true, 0⟩, ringDesc s k, .ring k, data⟩ s

/-! ## Error records and lasting resources (R347 to R350) -/

/-- The 32 bytes of a record as four words (Table 25-2). -/
def ErrorRec.words (e : ErrorRec) : List DWord :=
  [BitVec.ofNat 64 (e.src + 256 * e.kind + 65536 * e.inj.toNat + 2 ^ 24 * e.aux + 2 ^ 32 * e.loc), e.res, e.ply, BitVec.ofNat 64 e.time]
/-- One more event of a die, saturating (Table 25-3). -/
def bumpCount (v : Vector (BitVec 32) 4) (d : Nat) : Vector (BitVec 32) 4 :=
  Vector.ofFn fun i => if i.val = d ∧ v[i] ≠ 0xFFFFFFFF then v[i] + 1 else v[i]
/-- The records of a die's unit that have not been acknowledged (R347: it buffers 64). -/
def buffered (s : State) (d : Nat) : Nat := pushesOut s (reliabilitySender d)
/-- A record of an event of die d: a corrected one is sent only under CLOG, and is dropped and counted when the buffer is
full; every other is held until it is sent (R347). Events of KIND 0, 1 and 2 are counted (Table 25-3). -/
def record (d : Nat) (e : ErrorRec) (s : State) : State :=
  let s := { s with rel := { s.rel with
    cecnt := if e.kind = 0 then bumpCount s.rel.cecnt d else s.rel.cecnt
    uecnt := if e.kind = 1 ∨ e.kind = 2 then bumpCount s.rel.uecnt d else s.rel.uecnt
    corrected := if e.kind = 0 ∧ e.src = 5 then s.rel.corrected.put e.loc ((s.cycle :: s.rel.corrected.getD e.loc []).take 256) else s.rel.corrected } }
  if e.kind = 0 && !s.rel.relcfg.getLsbD 0 then s
  else if e.kind = 0 && buffered s d ≥ 64 then { s with rel := { s.rel with dropcnt := bumpCount s.rel.dropcnt d } }
  else ringSend (reliabilitySender d) (52 + d) e.words s

/-- How a resource shows in a record: SRC, LOC and RES (Table 25-2). A way shows as the line of its last event, and a residue
channel with the core of its last event. -/
def Resource.place (io : Io) (at_ : Nat) : Resource → Nat × Nat × Nat
  | .row c r => (0, c, r)
  | .granule c g => (2, c, g)
  | .way sl _ _ => (4, sl, localPa io (at_ / 128 * 128))
  | .frame f => (5, stackOfPa (f * 4096), localPa io (f * 4096))
  | .channel _ => (6, at_, 0)
def Resource.aux : Resource → Nat | .channel j => j | _ => 0
def lastingRecord (kind : Nat) (r : Resource) (at_ : Nat) (s : State) : ErrorRec :=
  ⟨(r.place s.io at_).1, kind, 0, r.aux, (r.place s.io at_).2.1, BitVec.ofNat 64 (r.place s.io at_).2.2, 0, s.cycle⟩

/-- The lines of a way leave L2 as it is disabled: their write-back finds their bit errors, which count against no way (R345, R346). -/
def leaveWay (lines : List Nat) (s : State) : State :=
  let found := s.latent.filter fun x => x % 2 == 1 && lines.contains (x / 4 / 16)
  found.foldl (fun s x =>
    let a := x / 4 * 8
    let hard := x / 2 % 2
    record (dieOfPa a) ⟨4, hard, 0, 0, sliceOfPa a, BitVec.ofNat 64 (localPa s.io (a / 128 * 128)), 0, s.cycle⟩
      { s with latent := s.latent.del x, poison := if hard = 1 then s.poison.put (x / 4) .l2 else s.poison })
    { s with l2 := s.l2.filter fun x => !lines.contains x.line }
/-- The action on a lasting resource, with its record of KIND 4 or 5 (Table 25-4). `at_` is where its last event fell. -/
def retire (d : Nat) (r : Resource) (at_ : Nat) (s : State) : State :=
  let done := record d (lastingRecord 4 r at_ s)
  let refused := record d (lastingRecord 5 r at_ s)
  match r with
  | .row c n =>
    let x := s.core c
    if !s.rel.relcfg.getLsbD 1 then s
    else if x.retiredRows.length ≥ 256 then refused s
    else (match x.rows.find n with
      | some row => s.setCore c { x with rows := x.rows.put n { row with retiring := true } }
      | none => done (s.setCore c { x with retiredRows := x.retiredRows.add n }))
  | .granule c g =>
    if !s.rel.relcfg.getLsbD 4 then s
    else done (s.modCore c fun x => { x with retiredGranules := x.retiredGranules.add g })
  | .way sl st w =>
    if !s.rel.relcfg.getLsbD 3 || s.disabledWays.contains (sl, st, w) then s
    else if ((s.disabledWays.filter fun (a, b, _) => a == sl && b == st).length ≥ 3) then refused s
    else
      let here := s.l2.filter fun x => x.set == st && x.way == w && sliceOfPa (128 * x.line) == sl
      done (leaveWay (here.map (·.line)) { s with disabledWays := (sl, st, w) :: s.disabledWays })
  | .frame f => { s with retirePending := s.retirePending.add f }
  | .channel j =>
    if !s.rel.relcfg.getLsbD 2 then s else done { s with rel := { s.rel with rnsmapw := setBitTo s.rel.rnsmapw j true } }

/-- An event of a resource at a place, counted in the die's table of 256 entries (R349, R350). -/
def countEvent (d : Nat) (r : Resource) (at_ : Nat) (s : State) : State :=
  let t := s.cycle
  let es := s.rel.tables.getD d []
  let put := fun (xs : List Counted) => { s with rel := { s.rel with tables := s.rel.tables.put d xs } }
  match es.find? (·.resource == r) with
  | some e =>
    (match e.earlier with
     | some e1 =>
       if e.latest + 11000000 ≥ t ∧ e1 + 11000000 ≥ t then
         retire d r at_ (record d (lastingRecord 3 r at_ s) (put (es.filter (·.resource != r))))
       else put (es.map fun x => if x.resource == r then ⟨r, t, some x.latest⟩ else x)
     | none => put (es.map fun x => if x.resource == r then ⟨r, t, some x.latest⟩ else x))
  | none =>
    if es.length < 256 then put (es ++ [⟨r, t, none⟩])
    else
      let oldest := es.foldl (fun m x => if x.latest < m then x.latest else m) t
      (match es.find? (·.latest == oldest) with
       | some x => put (es.filter (· != x) ++ [⟨r, t, none⟩])
       | none => put es)

/-- An error event of a die: its record, and its count against the resource unless it was injected (R349). -/
def errorEvent (d : Nat) (e : ErrorRec) (r : Option Resource) (at_ : Nat) (s : State) : State :=
  let s := record d e s
  match r with | some r => if e.inj = 0 then countEvent d r at_ s else s | none => s

/-- An error event of a core's arrays that no ply consumed: its source, kind and place (Table 25-2). -/
def coreEvent (core src kind : Nat) (res : DWord) (r : Option Resource) (s : State) : State :=
  errorEvent (unitOf core) ⟨src, kind, 0, 0, core, res, 0, s.cycle⟩ r 0 s

/-- Releases a map of a core, with the records of the rows that leave the pool (R49, R350). -/
def State.releaseMap (s : State) (c : Nat) (m : Vector RowEntry 64) : State :=
  let x := s.core c
  let y := x.dropMap m
  (y.retiredRows.filter fun n => !x.retiredRows.contains n).foldl
    (fun s n => record (unitOf c) (lastingRecord 4 (.row c n) 0 s) s) (s.setCore c y)

/-! ## Leaving a wait (R37, R42, R244) -/

def dropWaiter (k uid : Nat) (q : Queue) : Queue := { q with waiters := q.waiters.filter fun w => !(w.ply == k && w.uid == uid) }
def Latch.idle (l : Latch) : Bool := l.count == 0 && l.waiters.isEmpty && l.armed.isEmpty
def State.latch (s : State) (key : Nat) : Latch := s.latches.getD key ⟨0, [], []⟩
/-- A new entry is needed and all 4,096 are in use (R241). -/
def latchFull (s : State) (key : Nat) : Bool := !s.latches.mem key && s.latches.length ≥ 4096
/-- LWAKE on an entry that nothing waits for or is armed on: COUNT rises, and saturates (R241). -/
def countLatch (key : Nat) (s : State) : State :=
  { s with latches := s.latches.put key { s.latch key with count := min 65535 ((s.latch key).count + 1) } }
/-- A wake that found the table full is performed, when an entry has freed (R314, R370). -/
def admitWake (s : State) (key : Nat) : State :=
  if latchFull s key then s else countLatch key { s with wakes := s.wakes.erase key }
/-- Waiter n of function vf takes one from COUNT, or enters the waiters last (R364). -/
def joinLatch (vf n key : Nat) (s : State) : State :=
  let l := s.latch key
  let answer := fun (st : BitVec 2) => s.io.waiters.put (vf * 64 + n) ⟨BitVec.ofNat 64 key, st⟩
  if l.count = 0 then
    { s with latches := s.latches.put key { l with waiters := l.waiters ++ [.host vf n] }, io := { s.io with waiters := answer 1 } }
  else
    let l := { l with count := l.count - 1 }
    { s with latches := s.latches.set key (if l.idle then none else some l), io := { s.io with waiters := answer 2 } }
/-- A host waiter whose KEY found the table full enters it, when an entry has freed; where it takes a count, it is readied (R364). -/
def admitHost (s : State) (i : Nat) : State :=
  match s.io.waiters.find i with
  | some w =>
    if w.status ≠ 1 || latchFull s w.key.toNat || (s.latch w.key.toNat).waiters.contains (.host (i / 64) (i % 64)) then s
    else
      let ready := (s.latch w.key.toNat).count ≠ 0
      let s := joinLatch (i / 64) (i % 64) w.key.toNat s
      { s with io := { s.io with keyq := s.io.keyq.erase i }
               outbox := if ready then s.outbox ++ [.latchSeen (i / 64) (i % 64)] else s.outbox }
  | none => s
/-- What waited for an entry of the table enters it: the wakes first, and the hosts in the order of their writes (log entry 80). -/
def admitWaiting (s : State) : State := s.io.keyq.foldl admitHost (s.wakes.foldl admitWake s)
/-- Puts a latch entry back, freeing it when it is empty (R241). -/
def State.putLatch (s : State) (key : Nat) (l : Latch) : State :=
  if l.idle then admitWaiting { s with latches := s.latches.drop key } else { s with latches := s.latches.put key l }
/-- A ply leaves a latch entry's waiters. -/
def unwaitLatch (key k : Nat) (s : State) : State :=
  match s.latches.find key with
  | some l => s.putLatch key { l with waiters := l.waiters.filter (· != .ply k) }
  | none => s
/-- A ply is armed no longer (R241). -/
def disarm (k : Nat) (s : State) : State :=
  match s.latches.find? fun (_, l) => l.armed.contains k with
  | some (key, l) => s.putLatch key { l with armed := l.armed.filter (· != k) }
  | none => s
/-- A waiter leaves the merge tables and what they hold back (R322). -/
def unwaitWaiter (w : Waiter) (s : State) : State :=
  { s with merges := s.merges.mapVals fun _ m => m.mapVals fun _ e => { e with waiters := e.waiters.filter (· != w) }
           heldMisses := s.heldMisses.mapVals fun _ l => l.filter (·.waiter != w) }
def unwaitMerges (k uid : Nat) (s : State) : State := unwaitWaiter (.ply k uid) s
/-- Withdraws what a ply waits for from the queue, the latch entry or the merge tables that hold it (R42). -/
def withdraw (k : Nat) (s : State) : State :=
  match s.ply k with
  | none => s
  | some p =>
    match p.wait with
    | .queue desc _ _ =>
      (match s.queues.find desc with
       | some q => { s with queues := s.queues.put desc (dropWaiter k p.uid q) }
       | none => s)
    | .latch key => unwaitLatch key k s
    | .page => unwaitMerges k p.uid s
    | _ => s

/-! ## Taking a cause (R36, R39 to R41, R258, R285, R326) -/

/-- The program counter that a register value gives: its 57 bits, the low two zero (R115). -/
def alignPc (v : DWord) : Pc := v.setWidth 57 &&& ~~~3#57

/-- EM as the ply has it when no instruction runs over a part of its lanes (R292). -/
def Ply.wholeEm (p : Ply) : DWord := p.fullEm.getD p.a.em
/-- Such a run ends. -/
def Ply.widen (p : Ply) : Ply := { p with fullEm := none, a := { p.a with em := p.wholeEm } }
/-- Delivery of a user interrupt or a delegated cause (R36): the reported PC and EM are saved, valid pins are marked outer,
and the handler starts with every lane. It closes the region (R257). -/
def Ply.deliver (p : Ply) (cause : BitVec 7) (src : BitVec 2) (cix : BitVec 3) (pc : Pc) : Ply :=
  { p with
    uiepc := pc.setWidth 64, uiem := p.wholeEm, fullEm := none, uicause := cause, uisrc := src, uicix := cix, inUi := true, uiDepth := p.a.knuckles.length
    region := 0, state := .ready, wait := .none, words := [], stalled := false
    a := { p.a with pins := mapPins p.a.pins fun x => { x with outer := x.outer || x.valid }
                    em := allLanes p.width, pc := alignPc p.a.uivec } }
/-- A cause is delegated when the run permits it, UICTL.EDT is set and no user interrupt is in progress (R40, R41). -/
def Ply.delegates (p : Ply) : Bool := p.ident.udel && p.a.uictl.getLsbD 2 && !p.inUi

/-- Return from a user interrupt (R36). -/
def Ply.returnUser (p : Ply) : Ply :=
  { p with inUi := false, a := { p.a with em := p.uiem &&& allLanes p.width, pc := alignPc p.uiepc, pins := mapPins p.a.pins fun x => { x with outer := false } } }

/-- Entry to the own privileged handler (R285). With PINH set the agent stops. -/
def Ply.enterOwn (k : Nat) (p : Ply) (c : BitVec 7) (pc : Pc) : Ply :=
  if p.priv.pinh then { p with priv := { p.priv with stopped := true }, state := .halted, wait := .none, stalled := false }
  else
    { p with
      mode := if isService k then 2 else p.mode
      state := .ready, wait := .none, words := [], stalled := false
      priv := { p.priv with ppc := pc.setWidth 64, pcause := c, pem := p.a.em, pmode := p.mode, pinh := true }
      a := { p.a with em := allLanes p.width, pc := alignPc (if isService k then p.priv.hvec else p.priv.pvec) } }
/-- Return from the own privileged handler: RFE code 4 (R292). -/
def Ply.returnOwn (p : Ply) : Ply :=
  { p with
    mode := p.priv.pmode, priv := { p.priv with pinh := false }
    a := { p.a with em := p.priv.pem &&& allLanes p.width, pc := alignPc p.priv.ppc } }

/-- Halts a user ply, with its H registers (the lanes left are those of a run over a part of its lanes, when it names none), and raises the level of PEVT[0] (R326, Table 21-2). -/
def haltPly (k : Nat) (c : BitVec 7) (after : Bool) (pc : Pc) (addr umask : DWord) (s : State) : State :=
  wakeIdle (contextKey (coreOf k)) (s.modPly k fun p =>
    let left := if umask = 0 ∧ p.fullEm.isSome then p.a.em else umask
    { p.widen with state := .halted, wait := .none, words := [], stalled := false
                   halt := ⟨c, after, pc, p.wholeEm, left, addr⟩ })

/-- A record of the checks inside the computation: SRC 7, 8 or 9 (R347). -/
def checkRecord (k : Nat) (p : Ply) (src aux : Nat) (res : DWord) (s : State) : State :=
  record (unitOf (coreOf k)) ⟨src, 2, 0, aux, coreOf k, res, plyid k p, s.cycle⟩ s

/-- An instruction that is left partly performed is not replayed: its operation lands as it is, and the words that did not
land are marked poisoned (R50, R292). -/
def settleUnfinished (k : Nat) (s : State) : State :=
  match s.ply k with
  | none => s
  | some p =>
    let f := fun (l : List Flight) =>
      l.map fun x => if p.unfinished.any (·.flight == some x.seq) then { x with waiting := false } else x
    if p.unfinished = none then s
    else (s.modCore (coreOf k) fun c => { c with loads := f c.loads, stores := f c.stores }).setPly k { p with unfinished := none }

/-- A cause that no region retry answers takes its route: a context ply or a service core enters its own handler (R285), a
delegated cause goes to the user handler (R40), any other cause halts the ply (R326). -/
def routeCause (k : Nat) (c : Cause) (pc : Pc) (addr umask : DWord) (s : State) : State :=
  match s.ply k with
  | none => s
  | some p =>
    if p.mode ≠ 0 then
      let s := (settleUnfinished k s).modPly k fun p => p.enterOwn k c.code pc
      if p.priv.pinh && isService k then setPevt (serviceKey ((coreOf k - 192) ^^^ 1)) 2 s else s
    else if delegableCode c.code && p.delegates then s.modPly k fun p => p.deliver c.code 0 0 pc
    else haltPly k c.code c.isAfter pc (if c.addressed then addr else 0) umask s

/-- A cause takes its route (R285, R326). A consumed error of a user ply in an open region waits for its retry, or becomes
0x56 after the third (R258). -/
def settleCause (k : Nat) (c : Cause) (pc : Pc) (addr umask : DWord) (s : State) : State :=
  match s.ply k with
  | none => s
  | some p =>
    if p.mode = 0 && c.consumed && p.region != 0 then
      if p.retry = 3 then routeCause k .retryExhausted pc 0 umask (checkRecord k p 9 0 (p.region.setWidth 64) s)
      else (settleUnfinished k s).modPly k fun p => { p with state := .ready, wait := .retry c, words := [], stalled := false }
    else routeCause k c pc addr umask s
/-- TAKES A CAUSE, with the PC it reports, the address and the unfinished mask it carries. A watermark mismatch is recorded
(R347). -/
def takeCause (k : Nat) (c : Cause) (pc : Pc) (addr umask : DWord) (s : State) : State :=
  match s.ply k with
  | none => s
  | some p => settleCause k c pc addr umask (if c = .watermark then checkRecord k p 7 0 (pc.setWidth 64) s else s)

/-! ## The watermark (R260 to R262) -/

/-- One step of CRC-16 with polynomial 0x1021. -/
def crcStep (c : BitVec 16) : BitVec 16 := if c.getLsbD 15 then (c <<< 1) ^^^ 0x1021 else c <<< 1
def crcByte (c : BitVec 16) (x : Byte) : BitVec 16 :=
  let c := c ^^^ (x.setWidth 16 <<< 8)
  crcStep (crcStep (crcStep (crcStep (crcStep (crcStep (crcStep (crcStep c)))))))
def crcBytes (c : BitVec 16) (bs : List Byte) : BitVec 16 := bs.foldl crcByte c
/-- The bytes of instruction words in memory order (R115). -/
def wordBytes (ws : List (BitVec 32)) : List Byte := ws.flatMap fun w => bytesLE w.toNat 4
/-- The control half after the words of a completed instruction; nothing feeds while a user interrupt is in progress. -/
def Ply.fedSig (p : Ply) (ws : List (BitVec 32)) : BitVec 16 :=
  if p.inUi then p.a.wmsig else crcBytes p.a.wmsig (wordBytes ws)
def Ply.feed (p : Ply) (ws : List (BitVec 32)) : Ply := { p with a := { p.a with wmsig := p.fedSig ws } }
/-- wm_mask_hash of R27 and R260. -/
def Ply.maskHash (p : Ply) (k : KReg) (m : DWord) : Ply :=
  if p.inUi then p
  else { p with a := { p.a with wmmask := crcBytes p.a.wmmask (BitVec.ofNat 8 k.toNat :: bytesLE m.toNat 8) } }

/-! ## Completing an instruction -/

/-- Where an instruction word's meaning ends, before the PC, the watermark and the region are settled. -/
inductive Res where
  /-- it completes, and the next instruction follows -/
  | next (s : State)
  /-- it completes, and the ply goes on at an address -/
  | jump (s : State) (pc : Pc)
  /-- it completes, and what it did settled the PC already -/
  | stay (s : State)
  /-- a before cause, with its address and unfinished mask -/
  | before (s : State) (c : Cause) (addr umask : DWord)
  /-- it completes with an after cause -/
  | after (s : State) (c : Cause)
  /-- it cannot issue yet, and has no effect -/
  | stall
  /-- its read of a register has found bit errors, which are settled before it issues (R55) -/
  | again (s : State)
  /-- it has issued and waits -/
  | park (s : State) (st : SlotState) (w : Wait)
  | fault (f : Fault)

/-- What kind of word it is: whether it feeds the watermark (R260), and whether its issue closes the region (R257). -/
structure WordKind where
  fed : Bool := true
  closes : Bool := false
  deriving DecidableEq, Repr

abbrev Out := Host.Outcome State Fault Refusal

/-- The length in bytes of an instruction's words: 4, or 8 for ULIT (R118). -/
def lengthOf (ws : List (BitVec 32)) : Pc := BitVec.ofNat 57 (4 * ws.length)
def Ply.fedBy (p : Ply) (kd : WordKind) (ws : List (BitVec 32)) : Ply := if kd.fed then p.feed ws else p
def Ply.closedBy (p : Ply) (kd : WordKind) : Ply := if kd.closes then { p with region := 0 } else p
/-- The ply after an instruction that completes and goes on at `pc`. -/
def Ply.complete (p : Ply) (kd : WordKind) (ws : List (BitVec 32)) (pc : Pc) : Ply :=
  { (((p.fedBy kd ws).closedBy kd).widen).setPc pc with
    wait := .none, words := [], unfinished := none, stalled := false, stale := 0, staleFetch := 0 }

/-- A ply whose wait ends and whose instruction completes with it (R260). -/
def Ply.wakeDone (p : Ply) : Ply := { p.complete {} p.words (p.a.pc + lengthOf p.words) with state := .ready }
/-- A ply whose wait ends and that runs its instruction again. -/
def Ply.wakeAgain (p : Ply) : Ply := { p with state := .ready, wait := .none, words := [], stalled := false }

/-- What is left of a partly performed instruction keeps its words, which feed the watermark when it completes. -/
def Ply.keepWords (p : Ply) (kd : WordKind) (ws : List (BitVec 32)) : Ply :=
  { p with unfinished := p.unfinished.map fun u => { u with words := if kd.fed then ws else [] } }
/-- Settles the result of a word of the acting ply, whose PC was `pc`. A word that closes the region does so when it raises a
cause too, but for 0x05, with which it has not issued (R32, R257; log entry 17). -/
def finish (kd : WordKind) (ws : List (BitVec 32)) (k : Nat) (pc : Pc) (r : Res) : Out :=
  match r with
  | .next s => .next (s.modPly k fun p => p.complete kd ws (pc + lengthOf ws))
  | .jump s pc' => .next (s.modPly k fun p => p.complete kd ws pc')
  | .stay s => .next (s.modPly k fun p => { (p.keepWords kd ws).closedBy kd with stalled := false })
  | .before s c addr umask =>
    .next (takeCause k c pc addr umask (s.modPly k fun p =>
      let p := p.keepWords kd ws
      if c = .role then p else p.closedBy kd))
  | .after s c =>
    .next (takeCause k c (pc + lengthOf ws) 0 0 (s.modPly k fun p => p.complete kd ws (pc + lengthOf ws)))
  | .stall => .refused .notEnabled
  | .again s => .next s
  | .park s st w =>
    .next (s.modPly k fun p => { p.closedBy kd with state := st, wait := w, words := if kd.fed then ws else [], stalled := false })
  | .fault f => .fault f

/-- Marks a ply whose next instruction cannot issue until something happens. -/
def stallPly (k : Nat) (s : State) : State := s.modPly k fun p => { p with stalled := true }

/-- Runs the meaning of an unguarded word. -/
def perform (kd : WordKind) (ws : List (BitVec 32)) (s : State) (body : Ply → Res) : Out :=
  match s.ply s.cur with
  | none => .refused .noActingPly
  | some p =>
    match body p with
    | .stall => .next (stallPly s.cur s)
    | r => finish kd ws s.cur p.a.pc r

/-- The guard of a word holds (R120). -/
def guardHolds (g : Guard) (p : Ply) : Bool := p.qreg g.q ^^ g.neg

/-- Runs the meaning of a guarded word: a failed guard has no effect and goes on at the next word (R120), and a word
whose guard fails is fed (R260). -/
def guarded (kd : WordKind) (ws : List (BitVec 32)) (g : Guard) (s : State) (body : Ply → Res) : Out :=
  match s.ply s.cur with
  | none => .refused .noActingPly
  | some p =>
    if guardHolds g p then perform kd ws s body else finish { kd with closes := false } ws s.cur p.a.pc (.next s)

end Sys2Proof.Machine
end

