-- ==== Sys2Proof/Machine/Memory.lean ====
section
/-! DEFINITION. Machine/Memory.lean: memory at home, L1, the stores on their way, the update-only partials, and the
translation of addresses (R80, R87, R95 to R108, R315 to R325, R345 to R353, R357, R359). -/
namespace Sys2Proof

/-- The width of an atomic's data in bits (Table 11-4). -/
def AtomOp.width (op : AtomOp) : Nat := match op with | .add64 | .xchg64 | .min64 | .max64 => 64 | _ => 32

end Sys2Proof

namespace Sys2Proof.Machine

/-! ## The memory's canonical form -/

/-- Memory lists nonzero bytes only, by rising address: an unlisted byte reads 0 (log entry 3). -/
def Memory.wf (m : List Host.Cell) : Bool := Map.sortedFrom 0 m && m.all fun c => c.2 != 0
/-- One byte. -/
def Memory.read (m : List Host.Cell) (a : Nat) : Byte := Map.getD m a 0
/-- Writes one byte; writing 0 unlists it. -/
def Memory.write (m : List Host.Cell) (a : Nat) (b : Byte) : List Host.Cell := Map.setD m a b 0
/-- Writes bytes from an address up. -/
def Memory.writeBytes (m : List Host.Cell) (a : Nat) : List Byte → List Host.Cell
  | [] => m
  | b :: bs => Memory.writeBytes (Memory.write m a b) (a + 1) bs
def Memory.readBytes (m : List Host.Cell) (a n : Nat) : List Byte := (List.range n).map fun i => Memory.read m (a + i)

/-! ## Where a physical address lies (R357, R358, Table 26-1) -/

inductive Target where
  | memory (a : Nat)
  | package (p : Nat) (a : Nat)
  | register (off : Nat)
  | host (addr : Nat)
  | absent
  deriving DecidableEq, Repr

def target (io : Io) (pa : Nat) : Target :=
  if pa / 2 ^ 51 % 2 = 1 then .host (pa % 2 ^ 51)
  else if pa / 2 ^ 49 % 4 ≠ 0 ∨ pa / 2 ^ 39 % 2 ≠ 0 ∨ pa / 2 ^ 52 ≠ 0 then .absent
  else if pa / 2 ^ 40 % 512 = 511 then .register (pa % 2 ^ 39)
  else if pa / 2 ^ 40 % 512 = io.pod.toNat then .memory (pa % 2 ^ 39)
  else if io.podOn && pa / 2 ^ 40 % 512 ≤ 383 then .package (pa / 2 ^ 40 % 512) (pa % 2 ^ 39)
  else .absent

/-- The place of a physical address: a local byte by its address in this package, any other by its physical address, set
apart by 2^52. Lines, pending writes and partials are named by places. -/
def placeOf (io : Io) (pa : Nat) : Nat := match target io pa with | .memory a => a | _ => pa + 2 ^ 52
/-- What lies at a place. -/
def targetAt (io : Io) (x : Nat) : Target := if x < 2 ^ 39 then .memory x else target io (x % 2 ^ 52)

def lineOf (x : Nat) : Nat := x / 128
/-- A lease doorbell page (R358, R370). -/
def isDoorbell (off : Nat) : Bool := 0x100000 ≤ off && off < 0x100000 + 4096 * 64

/-! ## Frames and keys (R287, R295, R298) -/

def State.frame (s : State) (f : Nat) : FrameState := s.frames.getD f .quarantined
/-- The key that an access to a local byte carries: 0 for none, or nothing when the frame's key slot is not loaded. -/
def keyFor (s : State) (a : Nat) : Option Nat :=
  match s.frame (a / 4096) with | .bound _ slot => s.keys.find slot.toNat | _ => some 0

def linkDown (s : State) (d1 d2 : Nat) : Bool := s.deadLinks.contains (4 * min d1 d2 + max d1 d2)
/-- The keyway lets a requester port reach the memory port of a byte (R332). When the row opens all 16 ports of the
byte's die, the part's hash does not matter. -/
def keywayOpens (s : State) (port a : Nat) : Bool :=
  let row := s.hyp.kway.getD port 0
  field row (16 * dieOfPa a) 16 = 0xFFFF || row.getLsbD (sliceOfPa a / 4)

/-- Who makes an access, for the checks after translation: the tenant, the requester port, the die, and whether it is a
service core. -/
structure Requester where
  tenant : Option (BitVec 4)
  port : Nat
  die : Nat
  service : Bool
  deriving DecidableEq, Repr

def Viewer.requester (v : Viewer) : Requester := ⟨v.tenant, if v.core < 192 then quadOf v.core else 55, dieOfCore v.core, 192 ≤ v.core⟩

/-- What the access checks answer. -/
inductive Check where
  | ok
  | cause (c : Cause)
  | fault (f : Fault)
  deriving DecidableEq, Repr

/-- The Aktum ports that are up and reach a package (R365). -/
def portsTo (io : Io) (p : Nat) : List Nat := (List.range 16).filter fun j => io.akUp.getLsbD j && (io.reach.getD j []).contains p
/-- The check of an access to another package: 0x47 without a route to it (R365), and 0x61 when its tenant holds neither I/O
port, 53 or 54, of those that it can leave by (R359). -/
def aktumCheck (s : State) (tenant : Option (BitVec 4)) (p : Nat) : Check :=
  let ports := portsTo s.io p
  if ports.isEmpty then .cause .linkLoss
  else if tenant.all fun t => ports.any fun j => (s.hyp.tport.getD t.toNat 0).getLsbD (53 + j / 8) then .ok
  else .cause .partition
/-- The checks of a translated access of n bytes: link loss (R313, R365), the keyway (R332), frame states (R295), key slots
(R298), and the register space (R358). An agent without a tenant skips the keyway and the frame states (R287). -/
def accessCheck (s : State) (r : Requester) (x n : Nat) : Check :=
  match targetAt s.io x with
  | .memory a =>
    if linkDown s r.die (dieOfPa a) then .cause .linkLoss
    else match r.tenant with
      | none => if keyFor s a = none then .cause .keySlot else .ok
      | some t =>
        if !keywayOpens s r.port a then .cause .partition
        else match s.frame (a / 4096) with
          | .bound t' _ => if t' ≠ t then .cause .partition else if keyFor s a = none then .cause .keySlot else .ok
          | _ => .cause .partition
  | .package p _ => aktumCheck s r.tenant p
  | .register off =>
    if isDoorbell off then .ok
    else if !r.service then .cause .partition
    else if n = 8 then .ok else .fault .registerWidth
  | .host _ => .ok
  | .absent => .fault .notInstalled

/-! ## Bytes at home -/

/-- A byte of this package's memory under a key: unspecified after a link loss (R313), ciphertext under another key than
it was written with (R298). -/
def homeByte (s : State) (key a : Nat) : Byte :=
  if s.lost.contains a then Config.lostByte a s.fresh
  else match s.keyOf.find (lineOf a) with
    | some k => if k = key then Memory.read s.mem a else Config.cipherByte a s.fresh
    | none => Memory.read s.mem a

/-- Bytes that an access delivers, with the poisoned 8-byte words among them, by word number (R346). -/
structure Image where
  base : Nat
  bytes : List Byte
  poison : Map Mark
  deriving DecidableEq, Repr

/-- The 8-byte words that n bytes from `a` touch. -/
def wordsOf (a n : Nat) : List Nat := if n = 0 then [] else (List.range ((a + n - 1) / 8 - a / 8 + 1)).map (· + a / 8)
/-- A part of an image. -/
def Image.slice (i : Image) (a n : Nat) : Image :=
  ⟨a, (i.bytes.drop (a - i.base)).take n, i.poison.sift fun x _ => (wordsOf a n).contains x⟩
/-- The number that an image's bytes hold (R1). -/
def Image.value (i : Image) : Nat := ofBytesLE i.bytes
/-- An image under a write that lies over part of it. A whole word clears its poison, a narrower write does not (R346). -/
def Image.apply (i : Image) (w : HomeWrite) : Image :=
  let hit := fun k => i.base ≤ k && k < i.base + i.bytes.length
  let whole := fun x => w.pa ≤ 8 * x && 8 * x + 8 ≤ w.pa + w.bytes.length
  let touched := (wordsOf w.pa w.bytes.length).filter fun x => hit (8 * x) || hit (8 * x + 7)
  { i with
    bytes := (List.range i.bytes.length).map fun j =>
      if w.pa ≤ i.base + j && i.base + j < w.pa + w.bytes.length then w.bytes.getD (i.base + j - w.pa) 0 else i.bytes.getD j 0
    poison := match w.poison with | some m => i.poison.putAll touched m | none => i.poison.sift fun x _ => !whole x }

/-- A local value of w bits, read at home without the checks of a read. -/
def peekHome (s : State) (a w : Nat) : Nat := ofBytesLE ((List.range (w / 8)).map fun i => homeByte s ((keyFor s a).getD 0) (a + i))
/-- The condition of WAITC over w bits (R156). -/
def waitHolds (c : WaitCond) (w x y : Nat) : Bool :=
  match c with
  | .eq => x == y | .ne => x != y | .geu => y ≤ x | .ltu => x < y
  | .ge => signedOf w y ≤ signedOf w x | .lt => signedOf w x < signedOf w y
  | .anyset => x &&& y != 0 | .allclr => x &&& y == 0

/-- The monitors of a line are tested after each write performed there (R108). -/
def testMonitors (line : Nat) (s : State) : State :=
  let test := fun (p : Ply) => match p.wait with
    | .monitor m =>
      let w := if m.wide then 64 else 32
      if lineOf m.pa = line ∧ waitHolds m.cond w (peekHome s m.pa w) (m.comparand.toNat % 2 ^ w) then
        { p with wait := .monitor { m with hit := true } } else p
    | _ => p
  if s.plies.any fun (_, p) => match p.wait with | .monitor m => lineOf m.pa == line | _ => false then
    { s with plies := s.plies.mapVals fun _ p => test p }
  else s
/-- Writes bytes of one line at home. A line under another key keeps its other bytes as ciphertext (log entry 14). -/
def writeHome (a : Nat) (bs : List Byte) (poison : Option Mark) (s : State) : State :=
  let key := (keyFor s a).getD 0
  let line := lineOf a
  let s := match s.keyOf.find line with
    | some k =>
      if k = key then s
      else { s with mem := Memory.writeBytes s.mem (128 * line) ((List.range 128).map fun i => Config.cipherByte (128 * line + i) s.fresh)
                    fresh := s.fresh + 1 }
    | none => s
  let whole := (wordsOf a bs.length).filter fun x => a ≤ 8 * x && 8 * x + 8 ≤ a + bs.length
  testMonitors line { s with
    mem := Memory.writeBytes s.mem a bs
    keyOf := s.keyOf.put line key
    lost := if s.lost.isEmpty then [] else s.lost.filter fun x => !(a ≤ x && x < a + bs.length)
    poison := match poison with | some m => s.poison.putAll (wordsOf a bs.length) m | none => s.poison.dropAll whole
    latent := if s.latent.isEmpty then [] else s.latent.filter fun y => !whole.contains (y / 4) }

/-- A write to a place, wherever it lies; registers are written by their own operation. -/
def writeAt (x : Nat) (bs : List Byte) (poison : Option Mark) (s : State) : State :=
  match targetAt s.io x with
  | .memory a => writeHome a bs poison s
  | .package _ _ => { s with outbox := s.outbox ++ [.aktumWrite (x % 2 ^ 52) bs] }
  | .host h => { s with outbox := s.outbox ++ [.hostWrite h bs] }
  | _ => s

/-- Notes bytes that a ply of a team has written, when its run has several teams (R313). -/
def noteWrote (team x n : Nat) (s : State) : State :=
  match s.teams.find team with
  | some t =>
    if x < 2 ^ 39 && (s.run t.run).any (fun r => 1 < r.desc.teams) then
      { s with teams := s.teams.put team { t with wrote := (List.range n).foldl (fun w j => w.add (x + j)) t.wrote } }
    else s
  | none => s
/-- The same for the ply of an agent. -/
def noteWrites (k x n : Nat) (s : State) : State :=
  match s.ply k with | some p => if p.mode = 0 then noteWrote p.ident.team x n s else s | none => s

/-! ## Atomic operations (Table 11-4) -/

def minS (w : Nat) (a b : Nat) : Nat := if signedOf w a ≤ signedOf w b then a else b
def maxS (w : Nat) (a b : Nat) : Nat := if signedOf w a ≥ signedOf w b then a else b
/-- new from old and val, over w bits. -/
def atomApply (op : AtomOp) (w old val : Nat) : Nat :=
  match op with
  | .add | .add64 => (old + val) % 2 ^ w
  | .sub => (old + (2 ^ w - val % 2 ^ w)) % 2 ^ w
  | .min | .min64 => minS w old val
  | .max | .max64 => maxS w old val
  | .minu => min old val
  | .maxu => max old val
  | .and => old &&& val
  | .or => old ||| val
  | .xor => old ^^^ val
  | .xchg | .xchg64 => val
  | .fadd => (memFadd (BitVec.ofNat 32 old) (BitVec.ofNat 32 val)).toNat
/-- The bits of an atomic of a bus request. -/
def atomBits (op : AtomOp) (wide : Bool) : Nat := if wide then 64 else op.width
/-- The bytes of a request: an atomic's are those of its word or pair. -/
def BusRequest.length : BusRequest → Nat
  | .read n => n | .write bs => bs.length | .red op _ => op.width / 8 | .atom op wide _ => atomBits op wide / 8
  | .cas wide _ _ => if wide then 8 else 4
/-- The new value that an atomic gives from the old one; none when it writes nothing. -/
def BusRequest.update (r : BusRequest) (old : Nat) : Option Nat :=
  match r with
  | .red op v => some (atomApply op op.width old (v.toNat % 2 ^ op.width))
  | .atom op wide v => some (atomApply op (atomBits op wide) old (v.toNat % 2 ^ atomBits op wide))
  | .cas wide expected new =>
    let w := if wide then 64 else 32
    if expected.toNat % 2 ^ w = old then some (new.toNat % 2 ^ w) else none
  | .read _ | .write _ => none
/-- The identity a partial starts at (R106). -/
def atomIdentity (op : AtomOp) : Nat :=
  match op with
  | .add | .add64 | .sub | .or | .xor | .maxu | .xchg | .xchg64 => 0
  | .min => 0x7FFFFFFF | .max => 0x80000000 | .minu | .and => 0xFFFFFFFF
  | .min64 => 0x7FFFFFFFFFFFFFFF | .max64 => 0x8000000000000000 | .fadd => 0x80000000
/-- One more contribution enters a partial; subtractions add up. -/
def atomCombine (op : AtomOp) (w acc val : Nat) : Nat :=
  atomApply (match op with | .sub => .add | o => o) w acc val

/-! ## Bit errors in memory (R345, R346, R349) -/

def stackRecord (kind : Nat) (inj : BitVec 2) (l2 : Bool) (a : Nat) (who : DWord) (s : State) : ErrorRec :=
  if l2 then ⟨4, kind, inj, 0, sliceOfPa a, BitVec.ofNat 64 (localPa s.io (a / 128 * 128)), who, s.cycle⟩
  else ⟨5, kind, inj, 0, stackOfPa a, BitVec.ofNat 64 (localPa s.io (a / 8 * 8)), who, s.cycle⟩
/-- The resource of an error in memory: the way that holds the line, or its frame (R349). -/
def memResource (l2 : Bool) (a : Nat) (s : State) : Resource :=
  match l2, s.l2.find? (·.line == lineOf a) with
  | true, some x => .way (sliceOfPa a) x.set x.way
  | _, _ => .frame (a / 4096)
/-- A read finds one bit error: it corrects the word, or poisons it (R345). The consumer of a poisoned word records it. -/
def findError (s : State) (x : Nat) : State :=
  let l2 := x % 2 == 1
  let a := x / 4 * 8
  let s := { s with latent := s.latent.del x }
  if x / 2 % 2 = 1 then { s with poison := s.poison.put (x / 4) (if l2 then .l2 else .memory) }
  else errorEvent (dieOfPa a) (stackRecord 0 0 l2 a 0 s) (some (memResource l2 a s)) a s
/-- An uncorrectable error that leaves poison and is not consumed is logged as latent (R346). -/
def logLatent (s : State) (x : Nat) : State :=
  let l2 := x % 2 == 1
  let a := x / 4 * 8
  if x / 2 % 2 = 1 then errorEvent (dieOfPa a) (stackRecord 1 0 l2 a 0 s) (some (memResource l2 a s)) a s else s
/-- A read finds the bit errors of its words. -/
def correctWords (ws : List Nat) (s : State) : State :=
  if s.latent.isEmpty then s else (s.latent.filter fun x => ws.contains (x / 4)).foldl findError s

/-! ## L2 (R88 to R90, Table 5-4) -/

/-- The tenant whose frame holds a line. -/
def lineOwner (s : State) (line : Nat) : Option (BitVec 4) :=
  match s.frame (line / 32) with | .bound t _ => some t | _ => none
/-- The set of a line in its slice: the share of its tenant replaces the top bits of the index (R88). -/
def setOfLine (s : State) (line : Nat) : Nat :=
  let raw := Config.setOf line % 256
  match lineOwner s line with
  | none => raw
  | some t =>
    let c := s.hyp.tcfg.getD t.toNat 0
    let n := 2 ^ (8 - (c.extractLsb' 1 3).toNat)
    (c.extractLsb' 4 4).toNat * n % 256 + raw % n
def L2Prio.rank : L2Prio → Nat | .evictFirst => 0 | .normal => 1 | .evictLast => 2
def L2Prio.join (a b : L2Prio) : L2Prio := if a.rank < b.rank then b else a
/-- The lines of a set of a slice. -/
def l2Set (s : State) (slice set : Nat) : List L2Line := s.l2.filter fun x => x.set == set && sliceOfPa (128 * x.line) == slice
/-- The line that a miss evicts: of the owner's lines in the set one of the lowest priority, and of those the least recently
used (R89). Where the owner has none there, every line of the set stands for them (log entry 108). -/
def l2Victim (s : State) (owner : Option (BitVec 4)) (xs : List L2Line) : Option L2Line :=
  let own := xs.filter fun x => lineOwner s x.line == owner
  (if own.isEmpty then xs else own).foldl (fun b x => match b with
    | some y => if x.prio.rank ≤ y.prio.rank then some x else some y
    | none => some x) none
/-- Lines leave L2: their write-back reads them, so that their bit errors are found (log entry 108). -/
def evictL2 (lines : List Nat) (s : State) : State :=
  let bad := s.latent.filter fun x => x % 2 == 1 && lines.contains (x / 4 / 16)
  let s := bad.foldl (fun s x => findError (logLatent s x) x) s
  { s with l2 := s.l2.filter fun x => !lines.contains x.line }
/-- An access requests a priority for the line of a local place, which becomes the most recently used, and fills if it is
absent: into the lowest way of its set that is free and enabled, else in the place of a victim (R88, R89, R350). A set that
holds 12 evict-last lines of the tenant takes evict-last as normal. -/
def touchL2 (want : L2Prio) (a : Nat) (s : State) : State :=
  let line := lineOf a
  let old := s.l2.find? (·.line == line)
  let slice := sliceOfPa (128 * line)
  let set := match old with | some x => x.set | none => setOfLine s line
  let owner := lineOwner s line
  let lasts := (l2Set s slice set).filter fun x => x.line != line && x.prio == .evictLast && lineOwner s x.line == owner
  let want := if want = .evictLast ∧ lasts.length ≥ 12 then .normal else want
  let prio := match old with | some x => x.prio.join want | none => want
  let off := s.disabledWays.filterMap fun (sl, st, w) => if sl = slice ∧ st = set then some w else none
  let way : Option Nat := match old with | some x => some x.way | none => lowestFree ((l2Set s slice set).map (·.way) ++ off) 16
  let out : Option L2Line := if way.isSome then none else l2Victim s owner (l2Set s slice set)
  let s := evictL2 (out.map (·.line)).toList s
  { s with l2 := match way.or (out.map (·.way)) with
                 | some w => ⟨line, prio, set, w⟩ :: s.l2.filter fun x => x.line != line
                 | none => s.l2 }
/-- A request at a place for a line that L2 may hold. -/
def touchPlace (want : L2Prio) (x : Nat) (s : State) : State :=
  match targetAt s.io x with | .memory a => touchL2 want a s | _ => s

/-! ## Landings (R50, R154, R187) -/

/-- A piece lands in its row: a word that arrived, or the mark of one that never will. -/
def landPiece (c : Core) (x : Piece) : Core :=
  match c.rows.find x.row with
  | none => c
  | some r =>
    let r' := if x.poison then { r with poison := setBitTo r.poison (x.lane % 8) true } else r.put (x.lane % 8) x.word false
    { c with rows := c.rows.put x.row r' }
/-- What a flight can land now, and what stays of it: a flight that waits for a replay keeps its rows pending, and lands the
words that have arrived. -/
def Flight.ready (f : Flight) : List Piece := if f.waiting then f.pieces.filter (!·.poison) else f.pieces
def Flight.rest (f : Flight) : Flight :=
  { f with pieces := if f.waiting then f.pieces.filter (·.poison) else [], writes := [], load := f.load.map fun (i, _) => (i, []) }
def modFlight (seq : Nat) (f : Flight → Flight) (l : List Flight) : List Flight := l.map fun x => if x.seq = seq then f x else x
/-- More of a flight is to come: lanes to be replayed, or writes that wait for their pages (R187, R325). -/
def Flight.more (f : Flight) : Bool := f.waiting || !f.away.isEmpty
/-- A list of flights after one of them has landed. -/
def afterLanding (f : Flight) (l : List Flight) : List Flight :=
  if f.more then modFlight f.seq Flight.rest l else l.filter (·.seq != f.seq)
/-- A load lands, and the pending bits of its rows clear. -/
def landLoad (c : Core) (f : Flight) : Core := let y := f.ready.foldl landPiece c; { y with loads := afterLanding f y.loads }
/-- Every load of a ply that has read its words lands: what a release by the ply waits for (R100, R114). -/
def landLoads (k : Nat) (s : State) : State :=
  match s.ply k with
  | none => s
  | some p =>
    let mine := (s.core (coreOf k)).loads.filter fun f => f.uid == p.uid && !f.packet && !f.waiting
    if mine.isEmpty then s else s.modCore (coreOf k) fun c => mine.foldl landLoad c
/-- A load that is an acquire. -/
def Flight.acquires (f : Flight) : Bool := match f.load with | some (.lda .., _) => true | _ => false
/-- Before a ply accesses lines, its acquires and its loads of these lines land, so that no replay after a pre-emption reads them
later than the access (R96, R100, R114; log entry 128). -/
def landEarlier (k : Nat) (lines : List Nat) (s : State) : State :=
  match s.ply k with
  | none => s
  | some p =>
    let mine := (s.core (coreOf k)).loads.filter fun f =>
      f.uid == p.uid && !f.packet && !f.waiting && (f.acquires || f.lines.any (lines.contains ·))
    if mine.isEmpty then s else s.modCore (coreOf k) fun c => mine.foldl landLoad c

/-! ## Stores on their way, and partials (R87, R98, R106, R107) -/

/-- The bytes of a core's own writes, oldest first, that have not been performed at home. -/
def Core.writesOf (c : Core) : List HomeWrite := c.stores.flatMap fun f => f.writes.filter (!·.bytes.isEmpty)
/-- Forgets the writes of a core that meet a test; they have been performed. -/
def Core.forget (c : Core) (f : HomeWrite → Bool) : Core :=
  { c with stores := c.stores.map fun x => { x with writes := x.writes.filter fun w => !f w } }
/-- Performs at home a core's writes to one line, oldest first. -/
def pushLine (c line : Nat) (s : State) : State :=
  let here := fun (w : HomeWrite) => lineOf w.pa == line && !w.bytes.isEmpty
  let ws := (s.core c).writesOf.filter here
  if ws.isEmpty then s
  else ws.foldl (fun s w => writeAt w.pa w.bytes w.poison s) (s.modCore c (·.forget here))
/-- Drops the lines of L1 that meet a test. -/
def Core.dropLines (c : Core) (f : Nat → Bool) : Core :=
  { c with l1 := c.l1.sift fun line _ => !f line, l1Order := c.l1Order.filter fun line => !f line }
/-- Drops a line of a core's L1. -/
def dropL1 (c line : Nat) (s : State) : State :=
  if (s.core c).l1.mem line then s.modCore c (·.dropLines (· == line)) else s
/-- Applies one partial at home. A word that is poisoned stays so: its new value comes from the poisoned one. An error that this
finds is consumed by nobody, and logged as latent (R346). -/
def applyPartial (s : State) (p : Partial) : State :=
  match targetAt s.io p.pa with
  | .memory a =>
    let w := p.op.width
    let s := touchL2 .normal a s
    let found := s.latent.filter fun x => x / 4 == a / 8
    let s := correctWords [a / 8] (found.foldl logLatent s)
    writeHome a (bytesLE (atomApply p.op w (peekHome s a w) p.value.toNat) (w / 8)) (s.poison.find (a / 8)) s
  | .package _ _ => { s with outbox := s.outbox ++ [.aktumRed (p.pa % 2 ^ 52) p.op p.value] }
  | _ =>
    let w := p.op.width
    let old := (List.range (w / 8)).map fun j => Config.outsideByte (p.pa % 2 ^ 52 + j) s.fresh
    writeAt p.pa (bytesLE (atomApply p.op w (ofBytesLE old) p.value.toNat) (w / 8)) none { s with fresh := s.fresh + 1 }
/-- The home slice combines one core's partials of a line. -/
def combineCore (line : Nat) (s : State) (c : Nat) : State :=
  let ps := (s.core c).partials.filter fun p => lineOf p.pa == line
  if ps.isEmpty then s
  else
    let s := dropL1 c line (pushLine c line s)
    ps.foldl applyPartial (s.modCore c fun x => { x with partials := x.partials.filter fun p => !(lineOf p.pa == line) })
/-- The home slice recalls every core's partials of a line, in ascending core number (R106, R107). -/
def combineLine (line : Nat) (s : State) : State :=
  if s.cores.any fun (_, x) => x.partials.any fun p => lineOf p.pa == line then s.cores.keys.foldl (combineCore line) s else s
/-- Performs one pending write; one without bytes stands for the partials of its line. -/
def performWrite (c : Nat) (s : State) (w : HomeWrite) : State :=
  if w.bytes.isEmpty then combineLine (lineOf w.pa) s else pushLine c (lineOf w.pa) s
/-- Performs at home everything that a core's plies have written: what a release wider than core needs (R100, R106). -/
def pushCore (c : Nat) (s : State) : State :=
  let ws := (s.core c).stores.flatMap (·.writes)
  let s := ws.foldl (performWrite c) s
  s.modCore c fun x => { x with stores := x.stores.map fun f => { f with writes := [] } }
/-- Everything a core holds in L1 is dropped: what an acquire wider than core needs (R98, R101). -/
def dropL1All (c : Nat) (s : State) : State :=
  if (s.core c).l1.isEmpty then s else s.modCore c fun x => { x with l1 := [], l1Order := [] }
/-- A release at a scope (R100, R103): the loads of the releasing ply have landed, and wider than core, the core's writes are
performed at home. -/
def release (k : Nat) (e : Scope) (s : State) : State := if e = .core then landLoads k s else pushCore (coreOf k) (landLoads k s)
/-- An acquire at a scope. -/
def acquire (c : Nat) (e : Scope) (s : State) : State := if e = .core then s else dropL1All c s

/-! ## Reading at home (R345, R346, R352, R353) -/

/-- What an injector does to one word of a read (R352): mode 0 is corrected, 1 poisons, 2 flips bits of a byte. -/
def injectInto (mode : BitVec 2) (mask : BitVec 8) (inj : BitVec 2) (word byte : Nat) (i : Image) (s : State) : Image × State :=
  let a := word * 8
  let note := fun kind => record (dieOfPa a) (stackRecord kind inj false a 0 s) s
  let there := (wordsOf i.base i.bytes.length).contains word
  match mode.toNat with
  | 0 => (i, note 0)
  | 1 => (if there then { i with poison := i.poison.put word (if inj = 1 then .oneShot else .seeded) } else i, note 1)
  | _ =>
    let j := a + byte - i.base
    ({ i with bytes := (List.range i.bytes.length).map fun n => if n = j && i.base ≤ a + byte then i.bytes.getD n 0 ^^^ mask else i.bytes.getD n 0 },
     note 1)

/-- The seeded generator (R353). -/
def seedStep (x : BitVec 32) : BitVec 32 :=
  let x := x ^^^ (x <<< 13)
  let x := x ^^^ (x >>> 17)
  x ^^^ (x <<< 5)

/-- The one-shot injector fires at the first read that fetches its word (R352). -/
def oneShot (i : Image) (s : State) : Image × State :=
  match target s.io s.hyp.injAt.toNat with
  | .memory a =>
    if s.hyp.injArm && (wordsOf i.base i.bytes.length).contains (a / 8) then
      injectInto s.hyp.injMode s.hyp.injMask 1 (a / 8) (a % 8) i { s with hyp := { s.hyp with injArm := false, injFired := true } }
    else (i, s)
  | _ => (i, s)
/-- The seeded injector steps at every L2 read of a tenant flagged TEST. A firing at a word of the line that the read does
not deliver alters nothing, and is recorded (R353). -/
def seeded (tenant : Option (BitVec 4)) (i : Image) (s : State) : Image × State :=
  match tenant with
  | none => (i, s)
  | some t =>
    if s.rel.sinjEn && s.rel.testmask.getLsbD t.toNat then
      let x := seedStep s.rel.sinjSeed
      let s := { s with rel := { s.rel with sinjSeed := x } }
      let word := i.base / 128 * 16 + (x.extractLsb' 6 4).toNat
      if x < s.rel.sinjRate then
        injectInto s.rel.sinjMode s.rel.sinjMask 2 word (x.extractLsb' 10 3).toNat i s
      else (i, s)
    else (i, s)

/-- Bytes of one line of this package's memory as its home slice holds them. -/
def homeImage (s : State) (a n : Nat) : Image :=
  ⟨a, (List.range n).map fun j => homeByte s ((keyFor s a).getD 0) (a + j), s.poison.sift fun x _ => (wordsOf a n).contains x⟩
/-- Reads n bytes of one line of this package's memory at its home slice, for delivery or to fill a cache. `lay` lays over
them what has not reached home yet; the injectors act on what is delivered (R276, R352, R353). -/
def fetchHome (tenant : Option (BitVec 4)) (lay : Image → Image) (a n : Nat) (s : State) : Image × State :=
  let s := correctWords (wordsOf a n) (combineLine (lineOf a) s)
  let (i, s) := oneShot (lay (homeImage s a n)) s
  seeded tenant i s
/-- The same for a whole line, of which n bytes from `a` are wanted: the uncorrectable errors of its other words leave
poison, and are logged as latent (R346). -/
def fetchLine (tenant : Option (BitVec 4)) (lay : Image → Image) (a n : Nat) (s : State) : Image × State :=
  let unread := s.latent.filter fun x => x / 4 / 16 == lineOf a && !(wordsOf a n).contains (x / 4)
  let (i, s) := fetchHome tenant lay (lineOf a * 128) 128 s
  (i, unread.foldl logLatent s)

/-- Bytes from outside the package's memory: free values (log entry 13). -/
def outsideRead (x n : Nat) (s : State) : Image × State :=
  (⟨x, (List.range n).map fun j => Config.outsideByte (x % 2 ^ 52 + j) s.fresh, []⟩, { s with fresh := s.fresh + 1 })

/-! ## The registers of the I/O die, as a read sees them (Tables 26-2, 26-5, 27-1) -/

def Lease.word (l : Lease) (j : Nat) : DWord :=
  match j with
  | 0 => BitVec.ofNat 64 (l.drive.toNat + 4 * l.en.toNat + 8 * l.wp.toNat + 16 * l.stop.toNat + 256 * l.reason.toNat
      + 2 ^ 16 * l.tenant.toNat + 2 ^ 20 * l.aspace.toNat + 2 ^ 32 * l.sqid.toNat)
  | 1 => l.lbase
  | 2 => l.lcnt
  | 3 => l.nsid.setWidth 64
  | 4 => l.qkey
  | _ => 0

def Io.ready (io : Io) : DWord :=
  BitVec.ofNat 64 (io.readyRom.toNat + 2 * io.readyMem.toNat + 2 ^ 9 * io.readySvc.toNat + 2 ^ 25 * io.readyDie.toNat
    + 2 ^ 29 * io.readyHost.toNat + 2 ^ 30 * io.readyNvme.toNat + 2 ^ 34 * io.readyAktum.toNat + 2 ^ 35 * io.readyKeys.toNat)

/-- A monitor's value (R377); a number that names no monitor reads 0. -/
def Io.monval (io : Io) : DWord :=
  let n := io.monsel.toNat
  if n ≤ 49 ∨ (64 ≤ n ∧ n ≤ 76) ∨ (128 ≤ n ∧ n ≤ 140) then BitVec.ofInt 64 (io.monitors.getD n 0) else 0

def ioRead (io : Io) (off : Nat) : DWord :=
  if off = 0 then BitVec.ofNat 64 (io.pod.toNat + 512 * io.podOn.toNat)
  else if off = 0x8 then BitVec.ofNat 64 io.hro.toNat
  else if off = 0x10 then io.hostwin.setWidth 64
  else if off = 0x18 then BitVec.ofNat 64 (io.akUp.toNat + 65536 * io.akNarrow.toNat)
  else if off = 0x20 then io.akgrp.setWidth 64
  else if 0x100 ≤ off ∧ off < 0x300 ∧ off % 8 = 0 then io.vfwin.getD ((off - 0x100) / 8) 0
  else if 0x1000 ≤ off ∧ off < 0x2000 ∧ off % 8 = 0 then
    (io.leases.getD ((off - 0x1000) / 64) Lease.empty).word (off % 64 / 8)
  else if off = 0x400 then io.ready
  else if off = 0x408 then BitVec.ofNat 64 (io.stage.toNat + 256 * io.fail.toNat)
  else if 0x440 ≤ off ∧ off ≤ 0x478 ∧ off % 8 = 0 then io.meas.extractLsb' (8 * (off - 0x440)) 64
  else if off = 0x500 then io.monsel
  else if off = 0x508 then io.monval
  else 0

/-! ## Reads by a core (R87, R98, R100, R151) -/

/-- A line as L1 holds it. -/
def L1Line.image (line : Nat) (l : L1Line) : Image := ⟨128 * line, Memory.readBytes l.cells (128 * line) 128, l.poison⟩
def Image.toL1 (i : Image) : L1Line := ⟨Memory.writeBytes [] i.base i.bytes, i.poison, false⟩
/-- A core's own writes laid over what lies beyond it. -/
def overlay (s : State) (c : Nat) (i : Image) : Image :=
  ((s.core c).writesOf.filter fun w => lineOf w.pa == lineOf i.base).foldl Image.apply i

/-- How a read uses L1 (Table 5-4): a miss does not fill, fills as the most recently used, or fills as the next victim. -/
inductive L1Use where | bypass | allocate | victim
  deriving DecidableEq, Repr
/-- The lines that L1 holds: what the tile store leaves of the 2 MiB (R94). -/
def Core.l1Lines (c : Core) : Nat := 512 * (32 - c.ncur)
/-- A line fills L1, and the lines that have no room leave it, the least recently used first (R90). -/
def Core.fillL1 (c : Core) (u : L1Use) (line : Nat) (l : L1Line) : Core :=
  let others := c.l1Order.filter (· != line)
  let kept := others.take (c.l1Lines - 1)
  { c with l1 := (c.l1.dropAll (others.drop (c.l1Lines - 1))).put line l
           l1Order := if u = .victim then kept ++ [line] else line :: kept }
/-- A read that hits makes the line the most recently used, but for one that asks for the next victim (log entry 109). -/
def Core.useL1 (c : Core) (u : L1Use) (line : Nat) : Core :=
  if u = .victim then c else { c with l1Order := line :: c.l1Order.filter (· != line) }

/-- The address of a line in a record (Table 25-2). -/
def lineRes (s : State) (line : Nat) : DWord := BitVec.ofNat 64 (if 128 * line < 2 ^ 39 then localPa s.io (128 * line) else 128 * line % 2 ^ 52)
/-- A read of a line whose parity has failed drops it, and reads it anew (R345). -/
def checkL1 (c line : Nat) (s : State) : State :=
  match (s.core c).l1.find line with
  | some l => if l.bad then coreEvent c 3 0 (lineRes s line) none (dropL1 c line s) else s
  | none => s

/-- The register space as a read by a core sees it: a doorbell page reads 0 (R370). -/
def registerRead (s : State) (off n : Nat) : List Byte := bytesLE (if isDoorbell off then 0 else (ioRead s.io off).toNat) n

/-- A read of n bytes of one line through L1: the core's copy, else what lies beyond, of which a miss may keep the whole line (R87,
R90). `beyond` reads the bytes alone, and `line` the line. -/
def throughL1 (c : Nat) (u : L1Use) (a n : Nat) (beyond line : State → Image × State) (s : State) : Image × State :=
  let s := checkL1 c (lineOf a) s
  match (s.core c).l1.find (lineOf a) with
  | some l => ((l.image (lineOf a)).slice a n, s.modCore c (·.useL1 u (lineOf a)))
  | none =>
    if u = .bypass then beyond s
    else
      let (i, s) := line s
      (i.slice a n, s.modCore c (·.fillL1 u (lineOf a) i.toL1))
/-- Bytes from outside the package's memory, with the core's own writes over them. -/
def outsideOverlaid (c x n : Nat) (s : State) : Image × State :=
  let (i, s) := outsideRead x n s
  (overlay s c i, s)

/-- A plain read of n bytes of one line: L1, else home with the core's own writes over it (R87, R98). -/
def plainRead (c : Nat) (tenant : Option (BitVec 4)) (x n : Nat) (u : L1Use) (s : State) : Image × State :=
  match targetAt s.io x with
  | .memory a =>
    throughL1 c u a n (fun s => fetchHome tenant (overlay s c) a n s) (fun s => fetchLine tenant (overlay s c) a n s)
      (combineLine (lineOf a) s)
  | .register off => (⟨x, registerRead s off n, []⟩, s)
  | _ => throughL1 c u x n (outsideOverlaid c x n) (outsideOverlaid c (lineOf x * 128) 128) s

/-- A read at the home slice: the core's own writes to the line go first, and its L1 copy is dropped so that no later read
is older (R96). -/
def homeRead (c : Nat) (tenant : Option (BitVec 4)) (x n : Nat) (s : State) : Image × State :=
  match targetAt s.io x with
  | .memory a => fetchHome tenant id a n (touchL2 .normal a (dropL1 c (lineOf a) (pushLine c (lineOf a) s)))
  | .register off => (⟨x, registerRead s off n, []⟩, s)
  | _ =>
    let (i, t) := outsideRead x n s
    (overlay s c i, dropL1 c (lineOf x) (pushLine c (lineOf x) t))

/-- A read at home of a place by a unit of the package, or by an agent of a tenant outside the cores. -/
def placeRead (tenant : Option (BitVec 4)) (x n : Nat) (s : State) : Image × State :=
  match targetAt s.io x with
  | .memory a => fetchHome tenant id a n (touchL2 .normal a s)
  | .register off => (⟨x, registerRead s off n, []⟩, s)
  | _ => outsideRead x n s

/-- A store updates the L1 copy of its own core, if there is one (R87). -/
def touchL1 (c : Nat) (w : HomeWrite) (s : State) : State :=
  match (s.core c).l1.find (lineOf w.pa) with
  | some l => s.modCore c fun x => { x with l1 := x.l1.put (lineOf w.pa) { ((l.image (lineOf w.pa)).apply w).toL1 with bad := l.bad } }
  | none => s

/-- A write at the home slice by a core (R151): its earlier writes to the line go first, and its L1 copy is updated (R87). -/
def homeWrite (c : Nat) (w : HomeWrite) (s : State) : State :=
  let line := lineOf w.pa
  touchL1 c w (writeAt w.pa w.bytes w.poison (combineLine line (pushLine c line s)))

/-- A read delivers a poisoned word: 0x55 when it was injected, else 0x53 (R188, R328). -/
def Image.error (i : Image) : Option Cause :=
  if i.poison.isEmpty then none
  else if i.poison.any fun (_, m) => m == .oneShot || m == .seeded then some .injected else some .memError
/-- How a mark shows in INJ (Table 25-2). -/
def Mark.inj : Mark → BitVec 2 | .oneShot => 1 | .seeded => 2 | _ => 0
/-- The record of a consumed error in memory, counted where it arose (R347, R349). -/
def consumeRecord (i : Image) (who : DWord) (s : State) : State :=
  match i.poison with
  | [] => s
  | (x, m) :: _ =>
    errorEvent (dieOfPa (8 * x)) (stackRecord 2 m.inj (m == .l2) (8 * x) who s) (some (memResource (m == .l2) (8 * x) s)) (8 * x) s

/-! ## Translation (R315 to R321) -/

/-- What an access needs of its page (Table 23-3). -/
inductive Need where | read | write | both | exec
  deriving DecidableEq, Repr

def TlbEntry.allows (e : TlbEntry) : Need → Bool
  | .read => e.r | .write => e.w | .both => e.r && e.w | .exec => e.x
def TlbEntry.covers (e : TlbEntry) (space va : Nat) : Bool := e.space == space && va / 2 ^ e.log == e.vbase / 2 ^ e.log
def genOf (s : State) (space : Nat) : BitVec 16 := s.spaceGens.getD space 0
/-- An entry whose generation is no longer current is never used (R321). -/
def tlbFind (s : State) (id space va : Nat) : Option TlbEntry :=
  (s.tlbs.getD id []).find? fun e => e.covers space va && e.gen == genOf s space
def tlbInstall (id : Nat) (e : TlbEntry) (s : State) : State :=
  { s with tlbs := s.tlbs.put id (e :: (s.tlbs.getD id []).filter fun x => !(x.covers e.space e.vbase)) }
/-- The TLBs by number: L1 of core c is c, L2 of die d 256 + d, walk-ahead of quad q 512 + q, the I/O die's 1024. -/
def l2Tlb (d : Nat) : Nat := 256 + d
def walkAheadTlb (q : Nat) : Nat := 512 + q
def ioTlb : Nat := 1024

/-- The end of a walk (R319). -/
inductive Walk where
  | leaf (e : TlbEntry)
  | absent (level : Nat)
  | bad
  /-- it consumed an error: 0x53, or 0x55 when it was injected (R328); or a table lies in a package without a route: 0x47 (R365) -/
  | error (c : Cause)
  deriving DecidableEq, Repr

/-- A plain physical read by a walker for an agent: of memory, of another package's, to which it needs a route (R365), or of the
host's. It reaches no register (R358) and nothing that is not installed. -/
def walkRead (tenant : Option (BitVec 4)) (pa n : Nat) (s : State) : Except Walk (Image × State) :=
  match target s.io pa with
  | .memory a => .ok (fetchHome tenant id a n (touchL2 .normal a s))
  | .package p _ => if (portsTo s.io p).isEmpty then .error (.error .linkLoss) else .ok (outsideRead pa n s)
  | .host _ => .ok (outsideRead pa n s)
  | .register _ | .absent => .error .bad

def bit (x i : Nat) : Bool := x / 2 ^ i % 2 == 1
/-- The page size of a leaf at a level: 4 KiB or 64 KiB, 2 MiB, 1 GiB. -/
def leafLog (level e : Nat) : Nat := if level = 0 then (if bit e 5 then 16 else 12) else 12 + 9 * level
/-- Whether an entry names installed memory (R357). A leaf may name a lease's doorbell page, so that it can be mapped
(R358, R370; log entry 22). -/
def installed (s : State) (tenant : BitVec 4) (leaf : Bool) (pa : Nat) : Bool :=
  match target s.io pa with
  | .memory _ | .package _ _ => true
  | .host _ => s.io.hostwin.getLsbD tenant.toNat
  | .register off => leaf && isDoorbell off
  | .absent => false
/-- A physical address in this package: the package field is replaced, and every other bit stays (R357). -/
def ownPackage (io : Io) (pa : Nat) : Nat := pa / 2 ^ 49 * 2 ^ 49 + io.pod.toNat * 2 ^ 40 + pa % 2 ^ 40
/-- A malformed entry (R316). -/
def malformed (s : State) (tenant : BitVec 4) (level e : Nat) : Bool :=
  let leaf := bit e 1
  let rep := e / 64 % 4
  let rgrp := e / 256 % 16
  let pa := e / 4096 % 2 ^ 40 * 4096
  (e / 2 ^ 52 != 0) ||
  (if level = 0 then !leaf else if level ≥ 3 then leaf else false) ||
  (if leaf then
     (bit e 3 && !bit e 2) || (bit e 3 && bit e 4) || rep == 3 || (rgrp != 0 && rep != 2) || (bit e 5 && level != 0)
     || (!bit e 5 && pa % 2 ^ leafLog level e != 0)
     || !installed s tenant true (if rep = 2 then ownPackage s.io pa else pa)
   else e / 4 % 1024 != 0 || !installed s tenant false pa)

/-- Walks from a table down; `fuel` counts the levels left (R316). -/
def walkFrom (reader : Option (BitVec 4)) (tenant : BitVec 4) (space va : Nat) : Nat → Nat → State → Walk × State
  | 0, _, s => (.bad, s)
  | level + 1, table, s =>
    match walkRead reader (table + 8 * (va / 2 ^ (12 + 9 * level) % 512)) 8 s with
    | .error w => (w, s)
    | .ok (i, s) =>
      match i.error with
      | some c => (.error c, consumeRecord i 0 s)
      | none =>
        let e := i.value
        let pa := e / 4096 % 2 ^ 40 * 4096
        let log := leafLog level e
        if !bit e 0 then (.absent level, s)
        else if malformed s tenant level e then (.bad, s)
        else if bit e 1 then
          (.leaf ⟨space, va / 2 ^ log * 2 ^ log, log, pa / 2 ^ log * 2 ^ log, bit e 2, bit e 3, bit e 4, e / 64 % 4, e / 256 % 16,
                  genOf s space, tenant⟩, s)
        else walkFrom reader tenant space va level pa s

/-- A walk of a space for an agent; a walk for an agent without a tenant skips the TENANT check (R287, R315). -/
def walk (tenant : Option (BitVec 4)) (space va : Nat) (s : State) : Walk × State :=
  match walkRead tenant (s.hyp.astbase.toNat + 64 * space) 64 s with
  | .error w => (w, s)
  | .ok (i, s) =>
    match i.error with
    | some c => (.error c, consumeRecord i 0 s)
    | none =>
      let w := fun j => ofBytesLE ((i.bytes.drop (8 * j)).take 8)
      let own : BitVec 4 := BitVec.ofNat 4 (w 1)
      if !bit (w 0) 0 || w 0 / 2 % 2 ^ 11 != 0 || w 0 / 2 ^ 52 != 0 || w 1 / 16 != 0 || ((i.bytes.drop 16).any (· != 0)) then (.bad, s)
      else if tenant.any (· != own) then (.bad, s)
      else walkFrom tenant own space va 5 (w 0 / 4096 % 2 ^ 40 * 4096) s

/-- What a translation gives. -/
inductive Trans where
  | ok (pa : Nat) (rep rgrp : Nat)
  | absent (level : Nat)
  | cause (c : Cause)
  deriving DecidableEq, Repr

/-- The physical address of a byte through a leaf: the replica of the die, or of the package (R92, R318, R357). -/
def TlbEntry.pa (e : TlbEntry) (io : Io) (die va : Nat) : Nat :=
  let pa := e.pbase + va % 2 ^ e.log
  if e.rep = 1 then pa / 2 ^ 39 * 2 ^ 39 + die * 2 ^ 37 + pa % 2 ^ 37
  else if e.rep = 2 then ownPackage io pa else pa
/-- What an entry gives an agent: its permission, and the tenant of the space at its walk (R315). -/
def TlbEntry.trans (e : TlbEntry) (io : Io) (die : Nat) (tenant : Option (BitVec 4)) (va : Nat) (need : Need) : Trans :=
  if e.allows need && tenant.all (· == e.tenant) then .ok (e.pa io die va) e.rep e.rgrp else .cause .protection

/-- Looks a page up in a first-level TLB, then the die's L2 TLB, then walks (R319, R321). -/
def lookup (first die : Nat) (tenant : Option (BitVec 4)) (space va : Nat) (need : Need) (s : State) : Trans × State :=
  match tlbFind s first space va with
  | some e => (e.trans s.io die tenant va need, s)
  | none =>
    match tlbFind s (l2Tlb die) space va with
    | some e => (e.trans s.io die tenant va need, tlbInstall first e s)
    | none =>
      match walk tenant space va s with
      | (.leaf e, s) => (e.trans s.io die tenant va need, tlbInstall first e (tlbInstall (l2Tlb die) e s))
      | (.absent level, s) => (.absent level, s)
      | (.bad, s) => (.cause .protection, s)
      | (.error c, s) => (.cause c, s)

/-- Translates an address of an agent. Untranslated addresses need bits [63:52] zero (R287); others [63:57] (R80). -/
def translate (v : Viewer) (va : DWord) (need : Need) (s : State) : Trans × State :=
  if v.phys then (if va.toNat / 2 ^ 52 = 0 then (.ok va.toNat 0 0, s) else (.cause .protection, s))
  else if va.toNat / 2 ^ 57 ≠ 0 then (.cause .protection, s)
  else lookup v.core (dieOfCore v.core) v.tenant v.space va.toNat need s

/-! ## Pages that are not present (R322, R323) -/

/-- KIND of a fault record (Table 23-4). -/
def faultKind : Need → BitVec 3 | .read => 0 | .write => 1 | .exec => 2 | .both => 3

def spaceTenant (s : State) (space : Nat) : Nat :=
  match target s.io (s.hyp.astbase.toNat + 64 * space) with | .memory a => peekHome s (a + 8) 32 % 16 | _ => 0

/-- A fault record as four words (Table 23-4). -/
def faultWords (s : State) (space vpage entry level : Nat) (kind : BitVec 3) (who : DWord) (gen : BitVec 16) : List DWord :=
  [BitVec.ofNat 64 (vpage * 4096),
   BitVec.ofNat 64 (space + 2 ^ 16 * spaceTenant s space + 2 ^ 24 * kind.toNat + 2 ^ 32 * entry + 2 ^ 48 * level),
   who, gen.setWidth 64]

/-- A waiter enters the merge table of a die: the page's entry, else the lowest free one with a record, else it is held
until one frees (R322). -/
def mergeMiss (d space vpage level : Nat) (kind : BitVec 3) (who : DWord) (tenant : Option (BitVec 4)) (gen : BitVec 16) (w : Waiter)
    (s : State) : State :=
  let m := s.merges.getD d []
  match m.find? fun (_, e) => e.space == space && e.vpage == vpage with
  | some (n, e) =>
    if e.waiters.contains w then s else { s with merges := s.merges.put d (m.put n { e with waiters := e.waiters ++ [w] }) }
  | none =>
    match lowestFree m.keys 512 with
    | some n =>
      ringSend (faultSender d) (56 + d) (faultWords s space vpage n level kind who gen)
        { s with merges := s.merges.put d (m.put n ⟨space, vpage, [w]⟩) }
    | none => { s with heldMisses := s.heldMisses.put d (s.heldMisses.getD d [] ++ [⟨space, vpage, w, tenant, kind, level, who, gen⟩]) }

/-- A ply waits on pages that are not present, with the lanes that are left. While the die's fault records are off it is
treated as under a fail reply with 0x20 (R323). -/
def parkOnPages (k : Nat) (need : Need) (pages : List (DWord × Nat)) (u : Unfinished) (s : State) : State :=
  match s.ply k with
  | none => s
  | some p =>
    let d := dieOfCore (coreOf k)
    let v := viewer k p
    let addr := match pages with | (va, _) :: _ => va | [] => 0
    let s := s.setPly k { p with unfinished := some { u with va := addr } }
    if p.mode ≠ 0 then takeCause k .pageFault p.a.pc addr u.mask s
    else if !s.hyp.flten.getLsbD d then haltPly k Cause.pageFault.code false p.a.pc addr u.mask s
    else
      pages.foldl (fun s (va, level) => mergeMiss d v.space (va.toNat / 4096) level (faultKind need) (plyid k p) v.tenant (genOf s v.space) (.ply k p.uid) s)
        (s.modPly k fun p => { p with state := .parked, wait := .page, words := [], stalled := false })

end Sys2Proof.Machine
end

