-- ==== Sys2Proof/Machine/QueueEngine.lean ====
section
/-! DEFINITION. Machine/QueueEngine.lean: the queue engines of the dies (R34, R35, R233, R299, R309, R310): the queue that a
descriptor describes, the state that an engine keeps of it, and what becomes of an entry that arrives. -/
namespace Sys2Proof.Machine

/-! ## The state that an engine holds (R233, R310) -/

/-- The place of mailbox ring k's entry (R299). -/
def ringPlace (s : State) (k : Nat) : Nat := placeOf s.io (ringDesc s k)
/-- What a descriptor's place is: a submission queue, a mailbox ring, or another queue (R301, R310). -/
def queueKind (s : State) (x : Nat) : QueueKind :=
  match s.hyp.subq.find? fun (_, v) => v != 0 && placeOf s.io v.toNat == x with
  | some (t, _) => .submission (BitVec.ofNat 4 t)
  | none =>
    match (if s.hyp.mbtab = 0 then none else (List.range 64).find? fun k => ringPlace s k == x) with
    | some k => .ring k
    | none => .user
/-- The ring of a queue of this kind is a physical address (R233). -/
def QueueKind.physical : QueueKind → Bool | .user => false | _ => true
/-- The queue that a descriptor describes (Table 13-5, R299). -/
def parseQueue (kind : QueueKind) (bs : List Byte) : Option Queue :=
  let ring := leBytes bs 0 8
  let logd := leBytes bs 8 4
  let head := leBytes bs 16 8
  let tail := leBytes bs 24 8
  let tag := match kind with | .ring _ => leBytes bs 14 2 | _ => leBytes bs 12 4
  if ring % 32 ≠ 0 || ring / 2 ^ 57 ≠ 0 || logd > 20 || tag ≠ 0 || (bs.drop 32).any (· != 0)
    || (tail + (2 ^ 64 - head)) % 2 ^ 64 > 2 ^ logd
  then none
  else some { kind := kind, ring := BitVec.ofNat 64 ring, logd := logd, head := BitVec.ofNat 64 head, tail := BitVec.ofNat 64 tail
              waiters := [], runs := [], notify := BitVec.ofNat 16 (leBytes bs 12 2), pushers := [] }
/-- What reading a descriptor gives. -/
inductive Loaded where
  | ok (q : Queue)
  | bad
  | error (i : Image) (c : Cause)
/-- The engine takes a queue's state from its descriptor, unless it holds it. `core` is the reader, whose own writes come
first, and none for a unit of the package; `tenant` is the agent's. -/
def loadQueue (core : Option Nat) (tenant : Option (BitVec 4)) (x : Nat) (kind : QueueKind) (s : State) : Loaded × State :=
  match s.queues.find x with
  | some q => (.ok q, s)
  | none =>
    let (i, s) := match core with | some c => homeRead c tenant x 64 s | none => placeRead tenant x 64 s
    match i.error with
    | some c => (.error i c, s)
    | none =>
      match parseQueue kind i.bytes with
      | some q => (.ok q, { s with queues := s.queues.put x q })
      | none => (.bad, s)
/-- The entries that a queue stores. -/
def Queue.count (q : Queue) : Nat := (q.tail - q.head).toNat
def Queue.entryVa (q : Queue) (i : DWord) : DWord := q.ring + BitVec.ofNat 64 (32 * (i.toNat % 2 ^ q.logd))
/-- A run that has not ended has operated on the queue (R309). -/
def Queue.usedBy (q : Queue) (s : State) (run : Nat) : Queue := if (s.run run).isSome then { q with runs := q.runs.add run } else q
/-- The 32 bytes of an entry as four doublewords. -/
def entryWords (bs : List Byte) : List DWord := (List.range 4).map fun j => BitVec.ofNat 64 (leBytes bs (8 * j) 8)
def entryBytes (ws : List DWord) : List Byte := ws.flatMap fun w => bytesLE w.toNat 8

/-- A queue after its n oldest entries are popped. The oldest entries may have lain in the ring before the engine read it. -/
def Queue.pop (q : Queue) (n : Nat) : Queue :=
  { q with head := q.head + BitVec.ofNat 64 n, pushers := q.pushers.drop (n - (q.count - q.pushers.length)) }
def putQueue (x : Nat) (q : Queue) (s : State) : State := { s with queues := s.queues.put x q }

/-- Writes the four doublewords of an entry to s[D..D+3]. -/
def Ply.setEntry4 (p : Ply) (d : SReg) (ws : List DWord) : Ply := (ws.zipIdx).foldl (fun p (w, j) => p.setSAt (d.toNat + j) w) p
/-! ## An entry that arrives (R34, R35, R309) -/

/-- An entry is handed to a ply parked on the queue: an acquire towards the pusher. -/
def handOver (k : Nat) (d : SReg) (mbox : Bool) (data : List DWord) (s : State) : State :=
  acquire (coreOf k) .package (s.modPly k fun p =>
    let p := p.setEntry4 d data
    (if mbox then p.setQ 0 true else p).wakeDone)
/-- The first entry that reaches the engine ends every watch of the queue; under EQA it raises an interrupt (R234). -/
def endWatches (x : Nat) (s : State) : State :=
  { s with plies := s.plies.mapVals fun _ p =>
      if p.watched.any (·.1 == x) then { p with watched := none, pendQueue := p.pendQueue || p.a.uictl.getLsbD 1 } else p }
/-- The oldest ply that is parked on a queue, with where its entry goes. -/
def oldestWaiter (s : State) (x : Nat) : List QueueWaiter → Option (Nat × SReg × Bool)
  | [] => none
  | w :: ws =>
    match s.live w.ply w.uid with
    | some p => (match p.wait with | .queue y d m => if y = x then some (w.ply, d, m) else oldestWaiter s x ws | _ => oldestWaiter s x ws)
    | none => oldestWaiter s x ws
/-- A message stored in a ring sets a bit of PEVT at its NOTIFY target: [4] for a fault record, else [2] (R299, R323). -/
def notifyRing (kind : QueueKind) (sender : Nat) (q : Queue) (s : State) : State :=
  match kind with
  | .ring k =>
    (match notifyKey q.notify with
     | some t => setPevt t (if 56 ≤ k && k < 60 && 128 ≤ sender && sender < 1024 then 4 else 2) s
     | none => s)
  | _ => s
/-- An error record sets PEVT[2] as it arrives, though a parked receiver takes it (R347). -/
def noteRecord (kind : QueueKind) (sender : Nat) (q : Queue) (s : State) : State :=
  if reliabilitySender 0 ≤ sender ∧ sender < faultSender 0 then notifyRing kind sender q s else s
/-- Where an arriving entry is stored, when its pusher's translation permits it. -/
def storePlace (who : Viewer) (q : Queue) (s : State) : Option Nat × State :=
  if q.kind.physical then (some (placeOf s.io (q.entryVa q.tail).toNat), s)
  else match translate who (q.entryVa q.tail) .write s with
    | (.ok pa 0 _, s) =>
      let x := placeOf s.io pa
      (match accessCheck s who.requester x 32 with | .ok => (some x, s) | _ => (none, s))
    | (_, s) => (none, s)
/-- What becomes of an arriving entry. -/
inductive Arrival where
  | taken (s : State)
  | full
  | waits
/-- Who pushed an entry of a window, with the policy of a ply's run (R337). -/
def pusherOf (s : State) (w : Window) : Pusher :=
  match s.run w.run with | some r => ⟨w.sender, r.cap, r.ctrap, w.who⟩ | none => ⟨w.sender, false, false, w.who⟩
def accept (w : Window) (x : Nat) (kind : QueueKind) (data : List DWord) (s : State) : Arrival :=
  match loadQueue none w.who.tenant x kind s with
  | (.ok q, s) =>
    let q := q.usedBy s w.run
    (match oldestWaiter s x q.waiters with
     | some (k, d, m) =>
       .taken (endWatches x (handOver k d m data (noteRecord kind w.sender q
         (putQueue x { q with head := q.head + 1, tail := q.tail + 1, waiters := q.waiters.filter (·.ply != k) } s))))
     | none =>
       if q.count ≥ 2 ^ q.logd then .full
       else match storePlace w.who q s with
         | (none, _) => .waits
         | (some a, s) =>
           let by_ := match kind with | .submission _ => q.pushers ++ [pusherOf s w] | _ => []
           .taken (endWatches x (notifyRing kind w.sender q
             (writeAt a (entryBytes data) none (combineLine (lineOf a) (touchPlace .normal a
               (putQueue x { q with tail := q.tail + 1, pushers := by_ } s)))))))
  | _ => .waits
/-- The rings have no table yet: what units send them is held (R299, R323). -/
def QueueKind.unset (kind : QueueKind) (s : State) : Bool := match kind with | .ring _ => s.hyp.mbtab == 0 | _ => false
/-- Where an entry goes now: a ring by its number, whatever MBTAB was when it was sent, and a push port's entry to the queue that
its tenant's SUBQ names as it reaches the engine (R310, R361); while SUBQ names none, it is held (log entry 131). -/
def pendingPlace (s : State) (sender : Nat) (e : Pending) : Option (Nat × QueueKind) :=
  match e.kind with
  | .ring k => some (ringPlace s k, .ring k)
  | .submission t =>
    let v := s.hyp.subq.getD t.toNat 0
    if sender < 1024 then (if v = 0 then none else some (placeOf s.io v.toNat, .submission t)) else some (e.desc, queueKind s e.desc)
  | _ => some (e.desc, queueKind s e.desc)
/-- A window's oldest entry on its way, and what the engine does with it. -/
def arrivalOf (s : State) (w : Window) (e : Pending) : Arrival :=
  match pendingPlace s w.sender e with
  | some (x, kind) => if kind.unset s then .waits else accept w x kind e.data s
  | none => .waits
def setWindow (w : Window) (s : State) : State := { s with windows := putWindow w s.windows }
def modPending (seq : Nat) (f : Pending → Pending) (w : Window) : Window :=
  { w with entries := w.entries.map fun e => if e.seq = seq then f e else e }


end Sys2Proof.Machine
end

