-- ==== Sys2Proof/Machine/Units.lean ====
section
/-! DEFINITION. Machine/Units.lean: how the I/O die's own agents reach memory in an address space (R302, R359, R361). -/
namespace Sys2Proof.Machine

/-- A leaf for the I/O die, which lies on no compute die: a die-replicated page is reached at its leaf's address. -/
def TlbEntry.ioTrans (e : TlbEntry) (io : Io) (tenant : Option (BitVec 4)) (va : Nat) (need : Need) : Trans :=
  e.trans io (dieOfPa e.pbase) tenant va need
/-- The I/O die translates an address in a space, through its TLB (R361). -/
def ioTranslate (tenant : Option (BitVec 4)) (space va : Nat) (need : Need) (s : State) : Trans × State :=
  if va / 2 ^ 57 ≠ 0 then (.cause .protection, s)
  else match tlbFind s ioTlb space va with
    | some e => (e.ioTrans s.io tenant va need, s)
    | none =>
      match walk tenant space va s with
      | (.leaf e, s) => (e.ioTrans s.io tenant va need, tlbInstall ioTlb e s)
      | (.absent level, s) => (.absent level, s)
      | (.bad, s) => (.cause .protection, s)
      | (.error c, s) => (.cause c, s)
/-- The same for the agent that pushed an entry: untranslated for a privileged agent whose PHYS is 1. -/
def unitTranslate (v : Viewer) (va : Nat) (need : Need) (s : State) : Trans × State :=
  if v.phys then (if va / 2 ^ 52 = 0 then (.ok va 0 0, s) else (.cause .protection, s)) else ioTranslate v.tenant v.space va need s

/-- A tenant may reach a place, apart from the keyway: its own frames with their key, other packages, the host window. -/
def tenantReaches (s : State) (tenant : Option (BitVec 4)) (x : Nat) : Bool :=
  match targetAt s.io x, tenant with
  | .memory a, some t => (match s.frame (a / 4096) with | .bound t' _ => t' == t && (keyFor s a).isSome | _ => false)
  | .memory a, none => (keyFor s a).isSome
  | .package p _, t => aktumCheck s t p = .ok
  | .host _, _ => true
  | .register _, _ | .absent, _ => false
/-- The place of an address that a unit may use; none when its page is not present, or not permitted. -/
def unitPlace (v : Viewer) (va : Nat) (need : Need) (s : State) : Option Nat × State :=
  match unitTranslate v va need s with
  | (.ok pa _ _, s) => (if tenantReaches s v.tenant (placeOf s.io pa) then some (placeOf s.io pa) else none, s)
  | (_, s) => (none, s)
/-- Every page of a range of addresses can be used. -/
def pagesReach (v : Viewer) (need : Need) : Nat → Nat → State → Bool × State
  | 0, _, s => (true, s)
  | n + 1, page, s =>
    match unitPlace v (4096 * page) need s with
    | (some _, s) => pagesReach v need n (page + 1) s
    | (none, s) => (false, s)
def rangeReaches (v : Viewer) (need : Need) (va n : Nat) (s : State) : Bool × State :=
  pagesReach v need ((va + n - 1) / 4096 - va / 4096 + 1) (va / 4096) s

/-- Reads n bytes, line by line; none when a page cannot be read, or a word is poisoned. -/
def unitRead (v : Viewer) : Nat → Nat → Nat → State → Option (List Byte) × State
  | 0, _, _, s => (some [], s)
  | fuel + 1, va, n, s =>
    if n = 0 then (some [], s)
    else
      let m := min n (128 - va % 128)
      match unitPlace v va .read s with
      | (none, s) => (none, s)
      | (some x, s) =>
        let (i, s) := placeRead none x m s
        if i.error.isSome then (none, consumeRecord i 0 s)
        else match unitRead v fuel (va + m) (n - m) s with
          | (some bs, s) => (some (i.bytes ++ bs), s)
          | (none, s) => (none, s)
/-- Writes bytes, line by line; what a page does not permit is dropped (R314). -/
def unitWrite (v : Viewer) : Nat → Nat → List Byte → State → State
  | 0, _, _, s => s
  | fuel + 1, va, bs, s =>
    if bs.isEmpty then s
    else
      let m := min bs.length (128 - va % 128)
      let s := match unitPlace v va .write s with
        | (some x, s) => writeAt x (bs.take m) none (combineLine (lineOf x) (touchPlace .normal x s))
        | (none, s) => s
      unitWrite v fuel (va + m) (bs.drop m) s
/-- A unit of the I/O die on behalf of a tenant in a space. -/
def ioViewer (tenant : BitVec 4) (space : Nat) : Viewer := ⟨space, some tenant, false, 192⟩

end Sys2Proof.Machine
end

