-- ==== Sys2Proof/Machine/Io.lean ====
section
/-! DEFINITION. Machine/Io.lean: what a write of the I/O die's register space does (R358, R369 to R377; Tables 26-2, 26-5
and 27-1): the registers, the lease doorbells, RESTART with the resets, and the attestation report. -/
namespace Sys2Proof.Machine

/-! ## Starting the privileged agents (R286, R374) -/

/-- What an agent without a run has (R287). DESIGN CHOICE: R77 speaks of runs alone; the residue map of an agent without one is 0,
whatever RNSMAPW holds (log entry 1). -/
def bareIdent : Ident :=
  { run := 0, team := 0, teamid := 0, runid := 0, rtag := 0, tenant := none, aspace := 0, udel := false, prio := 0
    cap := false, ctrap := false, rnsmap := 0 }
/-- A ply as it starts. -/
def Ply.start (uid width : Nat) (mode : BitVec 2) (a : Arch) (ident : Ident) : Ply :=
  { uid := uid, width := width, state := .ready, wait := .none, words := [], mode := mode, a := a, held := none, region := 0
    retry := 0, regEm := 0, regSig := 0, regMask := 0, hintdrop := 0, scopestat := false, uicause := 0, uisrc := 0, uicix := 0
    uiepc := 0, uiem := 0, inUi := false, uiDepth := 0, pendLwake := false, pendQueue := false, pendTrap := false
    pendCopy := 0, ident := ident, watched := none, armed := none, barMark := .none, halt := Halt.empty, unfinished := none
    deferred := [], fullEm := none, stale := 0, staleFetch := 0, passLane := 0, passUniform := 0, stalled := false, item := none, kept := none, above := [], priv := Priv.reset }
/-- The H registers of a slot that no ply is in (Table 21-2, R343). -/
def slotHalt (s : State) (k : Nat) : Halt := (s.core (coreOf k)).halts.getD (slotOf k) Halt.empty
/-- Starts a context ply or a service core at the entry of its image (R374). What a stopped one mapped is released. -/
def startAgent (k : Nat) (pr : Priv) (s : State) : State :=
  let w := if isService k then 8 else 64
  let pc := if isService k then s.io.serviceEntry else s.io.contextEntry
  let s := match s.ply k with | some p => s.releaseMap (coreOf k) p.a.rows | none => s
  ({ s with seq := s.seq + 1 }).setPly k
    { Ply.start s.seq w (if isService k then 2 else 1) (Arch.start pc (allLanes w)) bareIdent with priv := pr }
/-- A service core runs once the firmware is verified and its stack is trained; a die's 48 context plies start once both of
its stacks are (Table 27-1). -/
def startService (s : State) (n : Nat) : State :=
  if s.io.readyRom && s.io.stage == 3 && s.io.readyMem.getLsbD (n / 2) && !s.io.readySvc.getLsbD n then
    startAgent (serviceKey n) Priv.reset { s with io := { s.io with readySvc := setBitTo s.io.readySvc n true } }
  else s
def startDie (s : State) (d : Nat) : State :=
  if s.io.readyRom && s.io.stage == 3 && s.io.readyMem.getLsbD (2 * d) && s.io.readyMem.getLsbD (2 * d + 1) && !s.io.readyDie.getLsbD d then
    (List.range 48).foldl (fun s c => startAgent (contextKey (48 * d + c)) Priv.reset s)
      { s with io := { s.io with readyDie := setBitTo s.io.readyDie d true } }
  else s
def startAgents (s : State) : State := (List.range 4).foldl startDie ((List.range 16).foldl startService s)

/-- RESTART with CP (R374): a stopped context ply starts again, or a stopped service core, which only the other service core
of its stack restarts. Its privileged registers stand but for PINH (log entry 26). -/
def restartAgent (by_ core : Nat) (s : State) : State :=
  let k := if core < 0xC0 then contextKey core else serviceKey (core - 0xC0)
  match s.ply k with
  | none => s
  | some p =>
    if !p.priv.stopped || (0xC0 ≤ core && by_ != serviceKey ((core - 0xC0) ^^^ 1)) then s
    else startAgent k { p.priv with pinh := false, stopped := false } s

/-! ## Resets (R372, R373, R378) -/

/-- What the retired lists keep of a core (R350): its retired and retiring rows and its granules. -/
def Core.afterReset (c : Core) : Core :=
  { Core.empty with
    retiredRows := (c.rows.filter fun (_, r) => r.retiring).foldl (fun l (n, _) => l.add n) c.retiredRows
    retiredGranules := c.retiredGranules }
/-- Cold reset: everything but the retired-frame list, and the model's own record of what comes and what has left. Straps
and sensor inputs stand. -/
def coldReset (s : State) : State :=
  { State.reset with
    agenda := s.agenda, lapse := s.lapse, fresh := s.fresh, seq := s.seq, outbox := s.outbox, retiredFrames := s.retiredFrames
    io := { Io.reset with pod := s.io.pod, podOn := s.io.podOn, monitors := s.io.monitors } }
/-- The I/O die after a function reset: its register space stands but for the READY bits; MEM and KEYS stay. -/
def Io.afterReset (io : Io) : Io :=
  { io with waiters := [], keyq := [], inbound := [], readyRom := false, readySvc := 0, readyDie := 0, readyHost := false, readyNvme := 0
            readyAktum := false, stage := 1, fail := 0, nvmeLink := 0, image := none, upload := [], serviceEntry := 0, contextEntry := 0 }
/-- The entries that a sender has pushed and no engine has taken are stored, in their order, where their queues have room: a push
is a release (R237, R299). -/
def performPushes (keep : Window → Bool) (s : State) : State :=
  (s.windows.filter keep).foldl (fun s w => (w.entries.filter fun e => !e.taken).foldl (fun s e =>
    match arrivalOf s w e with | .taken s => s | _ => s) s) s
/-- Function reset: the service cores' writes and releases are performed first (R378); what the base dies, the key store and
the I/O die's register space hold stands (log entry 27). -/
def functionReset (s : State) : State :=
  let s := (List.range 16).foldl (fun s n => pushCore (192 + n) s) s
  let s := performPushes (fun w => 192 ≤ w.who.core && 1024 ≤ w.sender) s
  { State.reset with
    agenda := s.agenda, lapse := s.lapse, cycle := s.cycle, coreReset := s.cycle, fresh := s.fresh, seq := s.seq
    outbox := s.outbox, mem := s.mem, poison := s.poison, latent := s.latent, keyOf := s.keyOf
    frames := s.frames, retirePending := s.retirePending, retiredFrames := s.retiredFrames
    jobs := s.jobs.mapVals fun _ j => { j with starter := none }
    keys := s.keys, nextKey := s.nextKey, disabledWays := s.disabledWays, deadLinks := s.deadLinks, lost := s.lost
    cores := (s.cores.mapVals fun _ c => c.afterReset).sift fun _ c => c != Core.empty
    rel := { Rel.reset with rnsmapw := s.rel.rnsmapw }
    io := s.io.afterReset }

/-! ## Attestation (R375) -/

/-- Writes bytes from a place up, line by line. -/
def writeLong : Nat → Nat → List Byte → State → State
  | 0, _, _, s => s
  | fuel + 1, a, bs, s =>
    if bs.isEmpty then s
    else
      let n := 128 - a % 128
      writeLong fuel (a + n) (bs.drop n) (writeAt a (bs.take n) none (combineLine (lineOf a) (touchPlace .normal a s)))
/-- The bytes of a report (Table 27-2). The key and the signature are free values (log entry 20). -/
def reportBytes (s : State) (nonce : List Byte) : List Byte :=
  let len := Config.signatureLength s.fresh % 1463
  nonce ++ bytesLE s.io.meas.toNat 64 ++ bytesLE (s.io.pod.toNat + 512 * s.io.podOn.toNat) 8 ++ bytesLE s.rel.rnsmapw.toNat 8
    ++ (List.range 1793).map (Config.publicKeyByte s.io.meas) ++ bytesLE len 2 ++ (List.range len).map (Config.signatureByte s.fresh)
/-- Where a report may lie: in memory of this package or another, or in the host window. -/
def reportPlace (s : State) (pa : Nat) : Bool :=
  match target s.io pa with | .memory _ | .package _ _ | .host _ => pa % 4096 == 0 | _ => false
/-- A write of ATTREQ by a service core in hypervisor mode: a release at system scope, so that the nonce and all that came
before it is performed. Any other write of it is ignored. -/
def attest (k pa : Nat) (s : State) : State :=
  match s.ply k with
  | some p =>
    if !isService k || p.mode != 2 || !reportPlace s pa then s
    else
      let (i, s) := placeRead none (placeOf s.io pa) 32 (release k .system s)
      setPevt k 2 (writeLong 32 (placeOf s.io pa) (reportBytes s i.bytes) { s with fresh := s.fresh + 1 })
  | none => s

/-! ## Lease doorbells (R370, R371) -/

/-- The reason for which a submission entry fails (NVMe: opcode in byte 0, NSID in bytes 4 to 7, SLBA in bytes 40 to 47, NLB in
bytes 48 and 49); 0 when it passes. -/
def entryReason (l : Lease) (e : List Byte) : Nat :=
  let op := leBytes e 0 1
  let slba := leBytes e 40 8
  if !(op == 0 || op == 1 || op == 2 || op == 8) then 1
  else if (op == 1 || op == 8) && !l.wp then 4
  else if leBytes e 4 4 ≠ l.nsid.toNat then 2
  else if !(l.lbase.toNat ≤ slba && slba + leBytes e 48 2 < l.lbase.toNat + l.lcnt.toNat) then 3
  else 0
/-- The first failing entry of n entries from i on. Quire's admin commands have placed the queue at an address of the tenant's
space; an entry that cannot be read there fails with REASON 5 (log entry 25). -/
def failingEntry (l : Lease) : Nat → Nat → State → Option (Nat × Nat) × State
  | 0, _, s => (none, s)
  | n + 1, i, s =>
    match unitRead (ioViewer l.tenant l.aspace.toNat) 2 ((Config.sqBase l.drive l.sqid).toNat + 64 * i) 64 s with
    | (none, s) => (some (i, 5), s)
    | (some e, s) =>
      let r := entryReason l e
      if r ≠ 0 then (some (i, r), s) else failingEntry l n ((i + 1) % max 1 (Config.sqEntries l.drive l.sqid)) s
def State.lease (s : State) (k : Nat) : Lease := s.io.leases.getD k Lease.empty
def State.setLease (s : State) (k : Nat) (l : Lease) : State := { s with io := { s.io with leases := s.io.leases.put k l } }
/-- A new SQ tail: each entry up to it is checked, and the passing tail goes to the drive. -/
def sqTail (k : Nat) (tail : BitVec 32) (s : State) : State :=
  let l := s.lease k
  if !l.en || l.stop then s
  else
    let old := l.tail.toNat
    let n := if old ≤ tail.toNat then tail.toNat - old else Config.sqEntries l.drive l.sqid - old + tail.toNat
    let forward := fun (t : BitVec 32) (l : Lease) (s : State) =>
      { s.setLease k { l with tail := t } with outbox := s.outbox ++ [.sqTail l.drive.toNat l.sqid.toNat t] }
    match failingEntry l n old s with
    | (none, s) => forward tail l s
    | (some (i, r), s) =>
      ringSend ioSender 47 [BitVec.ofNat 64 (k + 256 * r + 2 ^ 32 * i), 0, 0, 0]
        (forward (BitVec.ofNat 32 i) { l with stop := true, reason := BitVec.ofNat 8 r } s)
/-- A CQ head doorbell goes to the drive as it is. -/
def cqHead (k : Nat) (head : BitVec 32) (s : State) : State :=
  let l := s.lease k
  if !l.en || l.stop then s else { s with outbox := s.outbox ++ [.cqHead l.drive.toNat l.sqid.toNat head] }

/-! ## Register writes -/

def Lease.setWord (l : Lease) (j : Nat) (v : DWord) : Lease :=
  match j with
  | 0 =>
    { l with drive := fieldBits v 0 2, en := v.getLsbD 2, wp := v.getLsbD 3, stop := l.stop && !v.getLsbD 4
             tenant := fieldBits v 16 4, aspace := fieldBits v 20 12, sqid := fieldBits v 32 16
             tail := if v.getLsbD 2 && !l.en then 0 else l.tail }
  | 1 => { l with lbase := v }
  | 2 => { l with lcnt := v }
  | 3 => { l with nsid := fieldBits v 0 32 }
  | 4 => { l with qkey := v &&& 0x01FFFFFFFFFFFFF8 }
  | _ => l

/-- READY.NVME: the link is up, and Quire has enabled the controller, as it must before it enables a lease of the drive. -/
def noteDrives (s : State) : State :=
  let ready := fun (j : Nat) => s.io.nvmeLink.getLsbD j && s.io.leases.any fun (_, l) => l.en && l.drive.toNat == j
  { s with io := { s.io with readyNvme := (List.range 4).foldl (fun b j => if ready j then setBitTo b j true else b) s.io.readyNvme } }

/-- A write of n bytes at an offset of the register space by agent k. DESIGN CHOICE: a write of a reserved (zero) field of ORDCFG,
HOSTWIN, AKGRP or VFWIN is dropped, and the field reads 0 (Table 26-2 gives such a write no fate; log entry 66). -/
def ioWrite (k off : Nat) (bs : List Byte) (s : State) : State :=
  let v := BitVec.ofNat 64 (ofBytesLE bs)
  if isDoorbell off then
    let lease := (off - 0x100000) / 4096
    if bs.length = 4 ∧ off % 4096 = 0 then sqTail lease (v.setWidth 32) s
    else if bs.length = 4 ∧ off % 4096 = 4 then cqHead lease (v.setWidth 32) s
    else s
  else if off = 0x8 then { s with io := { s.io with hro := v.getLsbD 0 } }
  else if off = 0x10 then { s with io := { s.io with hostwin := v.setWidth 16 } }
  else if off = 0x20 then { s with io := { s.io with akgrp := v.setWidth 16 } }
  else if 0x100 ≤ off ∧ off < 0x300 ∧ off % 8 = 0 then
    { s with io := { s.io with vfwin := s.io.vfwin.setD ((off - 0x100) / 8) (v &&& 0x01FFFFF000001FFF) 0 } }
  else if 0x1000 ≤ off ∧ off < 0x2000 ∧ off % 8 = 0 then
    let n := (off - 0x1000) / 64
    noteDrives (s.setLease n ((s.lease n).setWord (off % 64 / 8) v))
  else if off = 0x480 then attest k v.toNat s
  else if off = 0x500 then { s with io := { s.io with monsel := v } }
  else if off = 0x600 then
    if v.getLsbD 9 then functionReset s
    else if v.getLsbD 8 then restartAgent k (field v 0 8) s
    else s
  else s

/-- Performs a write of an agent wherever it lies: the register space at once, the rest by `other`. -/
def routeWrite (k x : Nat) (bs : List Byte) (other : State → State) (s : State) : State :=
  match targetAt s.io x with | .register off => ioWrite k off bs s | _ => other s

end Sys2Proof.Machine
end

