-- ==== Sys2Proof/Machine/Operands.lean ====
section
/-! DEFINITION. Machine/Operands.lean: every operand form of the instruction words: lane registers and pairs, the B7
operand, predicates, uniform registers and immediates, and the shapes of the lane and uniform instructions that only move
values between registers (R29, R43 to R56, R120, R161). -/
namespace Sys2Proof.Machine

/-! ## Reading lane operands -/

/-- The lanes of a register that an instruction reads; a uniform operand reads none (R45). -/
def srcUse (b : LaneSrc) (ls : List Nat) : List RegUse := match b with | .v r => [(r, ls)] | .s _ => []
/-- A lane's word of a register of the acting ply. -/
def regWord (c : Core) (p : Ply) (r : VReg) (l : Nat) : Word := c.word (p.entry r) l
/-- A lane's B7 operand (R45). -/
def srcWord (c : Core) (p : Ply) (b : LaneSrc) (l : Nat) : Word :=
  match b with | .v r => regWord c p r l | .s r => (p.sreg r).setWidth 32
/-- A pair of registers as one 64-bit value (R45). -/
def regPair (c : Core) (p : Ply) (r : VReg) (l : Nat) : DWord := regWord c p (nthReg r 1) l ++ regWord c p r l
/-- A 64-bit B7 operand (R45). -/
def srcPair (c : Core) (p : Ply) (b : LaneSrc) (l : Nat) : DWord :=
  match b with | .v r => regPair c p r l | .s r => p.sreg r
/-- The lanes of a group of n registers from `r`. -/
def groupUse (r : VReg) (n : Nat) (ls : List Nat) : List RegUse := (List.range n).map fun j => (nthReg r j, ls)

/-- A consumed poisoned lane word: its record, and 0x52 (R55, R347). -/
def poisonCause (s : State) (p : Ply) (row : Nat) (umask : DWord) : Res :=
  let core := coreOf s.cur
  .before (errorEvent (unitOf core) ⟨0, 2, 0, 0, core, BitVec.ofNat 64 row, plyid s.cur p, s.cycle⟩ (some (.row core row)) 0 s)
    .regError 0 umask
/-- The lanes of a row that an instruction reads. -/
def lanesRead (p : Ply) (us : List RegUse) (n : Nat) : List Nat :=
  us.flatMap fun (r, ls) => (ls.filter fun l => rowOf (p.entry r) l == some n).map (· % 8)
/-- A read of a row finds its bit errors (R55): one that can be corrected is corrected and recorded; any other poisons its word,
and is logged as latent when the reading instruction does not read the word. -/
def findInRow (core : Nat) (read : List Nat) (s : State) (n : Nat) : State :=
  match (s.core core).rows.find n with
  | none => s
  | some r =>
    let log := fun (kind : Nat) => coreEvent core 0 kind (BitVec.ofNat 64 n) (some (.row core n))
    let s := s.modCore core fun c => { c with rows := c.rows.put n { r with soft := 0, hard := 0, poison := r.poison ||| r.hard } }
    (List.range 8).foldl (fun s l =>
      let s := if r.soft.getLsbD l then log 0 s else s
      if r.hard.getLsbD l && !read.contains l then log 1 s else s) s
/-- A read of registers finds the bit errors of their rows, and of the rows that a write copies. -/
def findRowErrors (s : State) (p : Ply) (reads writes : List RegUse) : State :=
  (rowsUsed p reads ++ rowsCopied (s.core (coreOf s.cur)) p writes).foldl
    (fun s n => findInRow (coreOf s.cur) (lanesRead p reads n) s n) s

/-- The rows of an entry. -/
def entryRows (e : RowEntry) : List Nat := match e with | .mapped rs => rs | _ => []
/-- The rows of a map that a new holder copies, because 255 hold them (R49). -/
def Core.rowsFull (c : Core) (m : Vector RowEntry 64) : List Nat :=
  ((m.toList.flatMap entryRows).eraseDups).filter fun n => match c.rows.find n with | some r => r.count == 255 | none => false
/-- One of them holds bit errors that nothing has found yet: the copy reads it (R55). -/
def Core.shareErrors (c : Core) (m : Vector RowEntry 64) : Bool := (c.rowsFull m).any c.rowErrors
def findShared (core : Nat) (m : Vector RowEntry 64) (s : State) : State := ((s.core core).rowsFull m).foldl (findInRow core []) s

/-- A replay applies the check of its source words afresh, over the lanes that are left (R187). -/
def regated (s : State) (p : Ply) (u : Unfinished) (regs : List VReg) (go : Res) : Res :=
  let us : List RegUse := regs.map fun r => (r, lanesOf u.mask)
  if errorRead (s.core (coreOf s.cur)) p us [] then .again (findRowErrors s p us [])
  else match poisonRead (s.core (coreOf s.cur)) p us with | some n => poisonCause s p n u.mask | none => go

/-- Goes on when the registers that an instruction reads and writes let it issue (R161). -/
def gated (s : State) (p : Ply) (reads writes : List RegUse) (go : Core → Res) : Res :=
  let c := s.core (coreOf s.cur)
  match laneGate c p reads writes with
  | some .given => .before s .givenReg 0 0
  | some .stall => .stall
  | some .error => .again (findRowErrors s p reads writes)
  | some (.poison row) => poisonCause s p row 0
  | none => go c

/-- A copy fault: the ply parks on rows, since it first did so (R48). -/
def rowWait (s : State) (p : Ply) : Res :=
  .park s .parked (.rows (match p.wait with | .rows t => t | _ => s.cycle))

/-- Writes lane registers of the acting ply under R47, and completes with the ply changed by `upd`. -/
def writeLanes (s : State) (p : Ply) (ws : List (VReg × List LaneVal)) (upd : Ply → Ply) : Res :=
  match writeRegs (s.core (coreOf s.cur)) p ws with
  | some (c, p') => .next ((s.setCore (coreOf s.cur) c).setPly s.cur (upd p'))
  | none => rowWait s p

/-- The values that a function gives in the active lanes. -/
def laneVals (p : Ply) (f : Nat → Word) : List LaneVal := p.lanes.map fun l => ⟨l, f l, false⟩

/-! ## The shapes of lane instructions without conditions of their own (R161) -/

/-- Reads registers and writes one lane register in the active lanes. -/
def laneWrite (s : State) (p : Ply) (d : VReg) (reads : List RegUse) (f : Core → Nat → Word) : Res :=
  gated s p reads [(d, p.lanes)] fun c => writeLanes s p [(d, laneVals p (f c))] id

/-- v[D] from v[A]. -/
def lane1 (i : Instr) (d a : VReg) (f : Word → Word) (s : State) : Out :=
  perform {} (encode i) s fun p => laneWrite s p d [(a, p.lanes)] fun c l => f (regWord c p a l)
/-- v[D] from v[A] and the B7 operand. -/
def lane2 (i : Instr) (d a : VReg) (b : LaneSrc) (f : Word → Word → Word) (s : State) : Out :=
  perform {} (encode i) s fun p =>
    laneWrite s p d ((a, p.lanes) :: srcUse b p.lanes) fun c l => f (regWord c p a l) (srcWord c p b l)
/-- v[D] from v[A], v[B] and v[C]. -/
def lane3 (i : Instr) (d a b c : VReg) (f : Word → Word → Word → Word) (s : State) : Out :=
  perform {} (encode i) s fun p =>
    laneWrite s p d [(a, p.lanes), (b, p.lanes), (c, p.lanes)] fun x l => f (regWord x p a l) (regWord x p b l) (regWord x p c l)

/-- Reads registers and writes a predicate in the active lanes; p7 discards the write (R43). -/
def lanePred (s : State) (p : Ply) (pd : PReg) (reads : List RegUse) (f : Core → Nat → Bool) : Res :=
  gated s p reads [] fun c => .next (s.setPly s.cur (p.setP pd p.a.em (maskOf (p.lanes.filter (f c)))))

/-! ## The shapes of uniform instructions (R137, R139) -/

/-- s[D] from the uniform file. -/
def uniform (i : Instr) (g : Guard) (d : SReg) (f : Ply → DWord) (s : State) : Out :=
  guarded {} (encode i) g s fun p => .next (s.setPly s.cur (p.setS d (f p)))
/-- q[D] from the uniform file. -/
def uniformQ (i : Instr) (g : Guard) (d : QReg) (f : Ply → Bool) (s : State) : Out :=
  guarded {} (encode i) g s fun p => .next (s.setPly s.cur (p.setQ d (f p)))

end Sys2Proof.Machine
end

