-- ==== Sys2Proof/Machine/Access.lean ====
section
/-! DEFINITION. Machine/Access.lean: how the accesses of a ply meet memory: the order of their causes (R186), page
waiting and replay (R187), clamping (R113), the L2 priorities (R89, R90), and the store, atomic and reduction of one place
(R87, R96, R100, R105, R106). -/
namespace Sys2Proof.Machine

/-! ## Where an access goes -/

/-- What a replicated page means to an access (R92). -/
inductive Reach where
  | plain | atomic | sum
  deriving DecidableEq, Repr
/-- 0x27 does not apply (R92, R366). -/
def Reach.ok (r : Reach) (io : Io) (rep rgrp : Nat) : Bool :=
  match r with | .plain => true | .atomic => rep == 0 | .sum => rep == 1 || (rep == 2 && io.akgrp.getLsbD rgrp)

/-- A translated address: the virtual address, its lane, its place, and the replication of its page. -/
structure Spot where
  va : DWord
  lane : Nat
  at_ : Nat
  rep : Nat
  deriving DecidableEq, Repr

/-- How the lanes of an instruction reach memory: what they need of a page, the bytes of one access, the addresses of one
lane with its main address last, and whether a lane waits for every lower lane (R187). -/
structure Shape where
  need : Need
  bytes : Nat
  reach : Reach := .plain
  residual : Bool := false
  inOrder : Bool := false
  scope : Option Scope := none
  deriving DecidableEq, Repr
def Shape.addrs (x : Shape) (r : LaneReq) : List DWord := if x.residual then [r.ea2, r.ea] else [r.ea]

/-- The causes of an address that need no translation: 0x22 before 0x21 (R186). -/
def addrCause (n : Nat) (vas : List DWord) : Option (Cause × DWord) :=
  match vas.find? fun va => va.toNat % n != 0 with
  | some va => some (.misaligned, va)
  | none => match vas.find? fun va => va.toNat / 2 ^ 57 != 0 with | some va => some (.protection, va) | none => none

/-- What the addresses of one access come to. -/
inductive Placed where
  | ok (req : LaneReq) (spots : List Spot)
  | absent (req : LaneReq) (pages : List (DWord × Nat))
  | cause (c : Cause) (va : DWord)
  deriving DecidableEq, Repr

/-- Translates addresses in order. -/
def translateAll (v : Viewer) (need : Need) : List DWord → State → List (DWord × Trans) × State
  | [], s => ([], s)
  | va :: vas, s =>
    let (t, s) := translate v va need s
    let (ts, s) := translateAll v need vas s
    ((va, t) :: ts, s)
/-- One access from its translations: a missing page raises nothing yet; else 0x21 comes before 0x27 (R186). -/
def placeReq (io : Io) (reach : Reach) (req : LaneReq) (ts : List (DWord × Trans)) : Placed :=
  let pages := ts.filterMap fun (va, t) => match t with | .absent level => some (va, level) | _ => none
  if !pages.isEmpty then .absent req pages
  else match ts.findSome? fun (va, t) => match t with | .cause c => some (c, va) | _ => none with
    | some (c, va) => .cause c va
    | none =>
      let spots := ts.filterMap fun (va, t) =>
        match t with | .ok pa rep rgrp => some (⟨va, req.lane, placeOf io pa, rep⟩, reach.ok io rep rgrp) | _ => none
      match spots.getLast? with
      | some (x, false) => .cause .replicated x.va
      | _ => .ok req (spots.map (·.1))
/-- Translates the accesses of several lanes, in ascending order. -/
def placeLanes (v : Viewer) (x : Shape) : List LaneReq → State → List Placed × State
  | [], s => ([], s)
  | r :: rs, s =>
    let (ts, s) := translateAll v x.need (x.addrs r) s
    let (ps, s') := placeLanes v x rs s
    (placeReq s.io x.reach r ts :: ps, s')

/-- The local places of a word in every die replica (R92, R318). -/
def replicas (a : Nat) : List Nat := (List.range 4).map fun d => d * 2 ^ 37 + a % 2 ^ 37
/-- The places that an access touches. -/
def touched (reach : Reach) (x : Spot) : List Nat := if reach = .sum ∧ x.rep = 1 then replicas x.at_ else [x.at_]
/-- The first access check of an access that fails. -/
def firstCheck (s : State) (r : Requester) (reach : Reach) (n : Nat) (xs : List Spot) : Option (Check × DWord) :=
  xs.findSome? fun x => (touched reach x).findSome? fun a =>
    match accessCheck s r a n with | .ok => none | c => some (c, x.va)

/-- The third return of an access with an old generation is due (R112, R325). -/
def Ply.returned (p : Ply) : Bool := p.stale == 3
/-- What step 5 of R186 finds in one lane: 0x21, then 0x27, then what the checks after translation find (R313, R332, R295, R298;
log entry 28), then 0x23. -/
def laneCheck (s : State) (r : Requester) (x : Shape) (returned : Bool) : Placed → Option (Check × DWord)
  | .absent _ _ => none
  | .cause c va => some (.cause c, va)
  | .ok req spots =>
    match firstCheck s r x.reach x.bytes spots with
    | some y => some y
    | none => if returned then some (.cause .staleGen, req.ea) else none

/-- An access that can be performed. -/
structure LaneGo where
  req : LaneReq
  spots : List Spot
  deriving DecidableEq, Repr
/-- The lines that accesses touch. -/
def accessLines (reach : Reach) (gos : List LaneGo) : List Nat := (gos.flatMap fun g => g.spots.flatMap (touched reach)).map lineOf
/-- Its main place. -/
def LaneGo.main (g : LaneGo) : Spot := g.spots.getLast?.getD ⟨0, 0, 0, 0⟩

def goOf : Placed → Option LaneGo | .ok r xs => some ⟨r, xs⟩ | _ => none
def leftOf : Placed → Option LaneReq | .absent r _ => some r | _ => none
def pagesOf : Placed → List (DWord × Nat) | .absent _ ps => ps | _ => []
/-- The accesses up to the first whose page is missing, when order asks for it (R187). -/
def present (inOrder : Bool) (ps : List Placed) : List LaneGo :=
  (if inOrder then ps.takeWhile fun x => (goOf x).isSome else ps).filterMap goOf
/-- The accesses that are left. -/
def leftover (inOrder : Bool) (ps : List Placed) : List LaneReq :=
  if inOrder then (ps.dropWhile fun x => (goOf x).isSome).filterMap fun x =>
    match x with | .ok r _ | .absent r _ => some r | .cause _ _ => none
  else ps.filterMap leftOf

/-! ## Scopes (R113) -/

/-- A system-scope operation of a capped ply raises 0x62 (R113). -/
def clampTraps (p : Ply) (e : Scope) : Bool := e == .system && p.ident.cap && p.ident.ctrap
/-- A clamped operation sets %scopestat[0]; it is performed at tenant scope. -/
def noteClamp (k : Nat) (e : Scope) (s : State) : State :=
  match s.ply k with
  | some p => if e == .system && p.ident.cap then s.setPly k { p with scopestat := true } else s
  | none => s
/-- An instruction of which nothing was performed leaves %scopestat as it was: `all` are its lanes, and `none` says that it was
parked whole. -/
def Res.unclamp (k : Nat) (old : Bool) (all : DWord) (none : Bool) : Res → Res
  | .before s c va m => .before (if m = 0 ∨ m = all then s.modPly k fun p => { p with scopestat := old } else s) c va m
  | .stay s => .stay (if none then s.modPly k fun p => { p with scopestat := old } else s)
  | r => r

/-- Runs the checks of R186 from step 4 on over accesses, and goes on with those that can be performed, those that are left
and their missing pages. DEDUCED: R186 places neither 0x62, which comes after all of them, nor 0x47, 0x61 and 0x63, which are
taken in step 5 after 0x27 and before 0x23, of the lowest lane (log entry 28). The third return of an access leaves all its lanes (R325).
Earlier loads that a replay must not read after these accesses land first (log entry 128). -/
def reachLanes (s : State) (p : Ply) (x : Shape) (reqs : List LaneReq) (umask : DWord)
    (go : State → List LaneGo → List LaneReq → List (DWord × Nat) → Res) : Res :=
  match reqs.findSome? fun r => addrCause x.bytes (x.addrs r) with
  | some (c, va) => .before s c va umask
  | none =>
    let v := viewer s.cur p
    let (ps, s) := placeLanes v x reqs s
    let all := maskOf (reqs.map (·.lane))
    match ps.findSome? (laneCheck s v.requester x p.returned) with
    | some (.cause c, va) =>
      if c = .staleGen then .before (s.modPly s.cur fun p => { p with stale := 0 }) c va all else .before s c va umask
    | some (.fault f, _) => .fault f
    | _ =>
      if x.scope.any (clampTraps p) then .before s .clamped 0 umask
      else
        let s := match x.scope with | some e => noteClamp s.cur e s | none => s
        let s := landEarlier s.cur (accessLines x.reach (present x.inOrder ps)) s
        (go s (present x.inOrder ps) (leftover x.inOrder ps) (ps.flatMap pagesOf)).unclamp s.cur p.scopestat all
          (present x.inOrder ps).isEmpty

/-- Completes an instruction, or parks it on the pages of the lanes that are left (R187). -/
def settleLanes (k : Nat) (need : Need) (left : List LaneReq) (pages : List (DWord × Nat)) (flight : Option Nat) (s : State) : Res :=
  if left.isEmpty then .next s
  else .stay (parkOnPages k need pages ⟨maskOf (left.map (·.lane)), left, flight, [], 0⟩ s)

/-- The lanes to be replayed, when the instruction is partly performed (R187). -/
def Ply.replays (p : Ply) : Option Unfinished := p.unfinished.bind fun u => if u.reqs.isEmpty then none else some u

/-! ## L2 priorities (R89, R90, Table 5-4) -/

/-- A read without an allocation uses a line that L2 holds, whose priority stays (R89, Table 5-4). -/
def useL2 (a : Nat) (s : State) : State :=
  match s.l2.find? (·.line == lineOf a) with
  | some x => { s with l2 := x :: s.l2.filter fun y => y.line != lineOf a }
  | none => s
/-- The request of a load or store hint; no-allocate makes none. -/
def hintL2 (h : Hint) (x : Spot) (s : State) : State :=
  match h with
  | .normal => touchPlace .normal x.at_ s
  | .evictFirst => touchPlace .evictFirst x.at_ s
  | .evictLast => touchPlace .evictLast x.at_ s
  | .noAllocate => match targetAt s.io x.at_ with | .memory a => useL2 a s | _ => s
/-- How a load with a hint uses L1. -/
def l1Use : Hint → L1Use | .noAllocate => .bypass | .evictFirst => .victim | _ => .allocate

/-! ## Flights (R154, R189) -/

/-- A flight of the acting ply as it is issued. -/
def Flight.issue (s : State) (k : Nat) (p : Ply) (counted : Bool) : Flight :=
  { seq := s.seq, uid := p.uid, ply := k, run := p.ident.run, tenant := (viewer k p).tenant, space := (viewer k p).space
    phys := (viewer k p).phys, gen := genOf s (viewer k p).space, stale := 0, away := [], pc := p.a.pc
    counted := counted, tops := false, rows := [], pieces := [], writes := [], waiting := false, load := none, packet := false
    lines := []
    ctxgen := (s.core (coreOf k)).ctxgen.getD ((p.ident.tenant.map (·.toNat)).getD 16) 0 }
/-- Enters a store or an atomic, and takes an issue number. -/
def enterStore (c : Nat) (f : Flight) (s : State) : State :=
  (s.modCore c fun x => { x with stores := x.stores ++ [f] }).bump
def modStore (c seq : Nat) (f : Flight → Flight) (s : State) : State :=
  s.modCore c fun x => { x with stores := modFlight seq f x.stores }
/-- The pieces of registers in lanes, register by register, as placeholders for words that have not landed. -/
def piecesFor (p : Ply) (rs : List VReg) (ls : List Nat) : List Piece :=
  rs.flatMap fun r => ls.filterMap fun l => (rowOf (p.entry r) l).map fun n => ⟨n, l, 0, true⟩
/-- Fills a lane's pieces with its words. -/
def fillLane (lane : Nat) : List Word → List Piece → List Piece
  | _, [] => []
  | [], ps => ps
  | w :: ws, x :: ps => if x.lane = lane then { x with word := w, poison := false } :: fillLane lane ws ps else x :: fillLane lane (w :: ws) ps

/-! ## One place -/

def wordsBytes (ws : List Word) : List Byte := ws.flatMap fun w => bytesLE w.toNat 4
/-- A plain write of a core, on its way home in a flight: its own partials of the line go first (R96, R106). -/
def plainWrite (c seq : Nat) (w : HomeWrite) (s : State) : State :=
  let s := if (s.core c).partials.any fun x => lineOf x.pa == lineOf w.pa then combineLine (lineOf w.pa) s else s
  modStore c seq (fun f => { f with writes := f.writes ++ [w] }) (touchL1 c w s)
/-- A write of an agent at a place: a release performs all that came before (R100), and one wider than core is made at home
(R151); a register is written at once; any other write is on its way home. -/
def writeOne (k seq : Nat) (e : Option Scope) (w : HomeWrite) (s : State) : State :=
  let c := coreOf k
  let s := match e with | some e => release k e s | none => s
  match targetAt s.io w.pa with
  | .register off => ioWrite k off w.bytes s
  | _ =>
    let s := noteWrites k w.pa w.bytes.length s
    if e.all (· == .core) then plainWrite c seq w s else homeWrite c w s
/-- A read of an agent at a place: an acquire wider than core is made at home, and drops what L1 holds (R98, R151). -/
def readOne (c : Nat) (tenant : Option (BitVec 4)) (e : Option Scope) (x n : Nat) (u : L1Use) (s : State) : Image × State :=
  if e.all (· == .core) then plainRead c tenant x n u s
  else
    let (i, s) := homeRead c tenant x n s
    (i, dropL1All c s)

/-- A place of another package's memory. -/
def elsewhere (s : State) (x : Nat) : Bool := match targetAt s.io x with | .package _ _ => true | _ => false
/-- An atomic at one place (R105, R192): at core scope at the core, at a wider scope at home; one of another package is performed
there, and its old value is free (R366, log entry 13). DEDUCED: its read may fire the injector, and its new value comes from what it
read (log entry 139). -/
def atomicOne (k seq : Nat) (tenant : Option (BitVec 4)) (e : Scope) (ordered : Bool) (x : Spot) (r : BusRequest) (s : State) :
    Image × State :=
  let c := coreOf k
  let n := BusRequest.length r
  let s := if ordered then release k e s else s
  let (i, s) :=
    if e = .core && !elsewhere s x.at_ then plainRead c tenant x.at_ n .bypass (hintL2 .normal x (combineLine (lineOf x.at_) s))
    else homeRead c tenant x.at_ n s
  let s := match targetAt s.io x.at_, i.error, BusRequest.update r i.value with
    | .package _ _, none, _ => { s with outbox := s.outbox ++ [.aktumAtomic (x.at_ % 2 ^ 52) r] }
    | .register off, none, some v => ioWrite k off (bytesLE v n) s
    | _, none, some v =>
      let w : HomeWrite := ⟨x.va, x.lane, x.at_, bytesLE v n, none⟩
      let s := noteWrites k x.at_ n s
      if e = .core then plainWrite c seq w s else homeWrite c w s
    | _, _, _ => s
  (i, if ordered then acquire c e s else s)

/-- A monitor is armed on a line (R108). -/
def armedOn (s : State) (line : Nat) : Bool :=
  s.plies.any fun (_, p) => match p.wait with | .monitor m => lineOf m.pa == line | _ => false
/-- A contribution enters the partials of a core: that of its place, or a new one (R106). -/
def enterPartial (op : AtomOp) (x : Nat) (v : DWord) (l : List Partial) : List Partial :=
  if l.any fun z => z.pa == x then
    l.map fun z => if z.pa = x then { z with value := BitVec.ofNat 64 (atomCombine op op.width z.value.toNat v.toNat) } else z
  else l ++ [⟨x, op, BitVec.ofNat 64 (atomCombine op op.width (atomIdentity op) v.toNat)⟩]
/-- One reduction enters its core's partial of the place (R106). Partials of another operation on the line are combined
first, and an armed monitor has it combined at once. What is no memory of this package is updated at once. -/
def reduceOne (k seq : Nat) (op : AtomOp) (x : Spot) (v : DWord) (s : State) : State :=
  let c := coreOf k
  let line := lineOf x.at_
  match targetAt s.io x.at_ with
  | .memory _ =>
    let s := noteWrites k x.at_ (op.width / 8) s
    let s := if s.cores.any fun (_, y) => y.partials.any fun z => lineOf z.pa == line && z.op != op then combineLine line s else s
    let s := (dropL1 c line s).modCore c fun y => { y with partials := enterPartial op x.at_ v y.partials }
    if armedOn s line then combineLine line s else modStore c seq (fun f => { f with writes := f.writes ++ [⟨x.va, x.lane, x.at_, [], none⟩] }) s
  | .register off =>
    ioWrite k off (bytesLE (atomApply op op.width (ofBytesLE (registerRead s off (op.width / 8))) v.toNat) (op.width / 8)) s
  | _ => applyPartial (dropL1 c line (pushLine c line s)) ⟨x.at_, op, v⟩
/-- What a reduction finds at its target, under the core's own earlier writes to the line, which are performed first (R96): an
uncorrectable error there is consumed, and the lane does not write (R188). -/
def reduceRead (c : Nat) (op : AtomOp) (x : Spot) (s : State) : Image × State :=
  match targetAt s.io x.at_ with
  | .memory a => let s := correctWords [a / 8] (pushLine c (lineOf a) s); (homeImage s a (op.width / 8), s)
  | _ => (⟨x.at_, [], []⟩, s)

end Sys2Proof.Machine
end

