-- ==== Sys2Proof/Machine/LaneMem.lean ====
section
/-! DEFINITION. Machine/LaneMem.lean: lane loads, stores, atomics, reductions and hints (chapter 11: R185 to R198; R92,
R93), and the reissue of the loads that a pre-emption kept (R339). -/
namespace Sys2Proof

/-- The bytes of an access size (Table 7-14). -/
def Size.bytes : Size → Nat | .b8 => 1 | .b16 => 2 | .b32 => 4 | .b64 => 8
/-- The scalar that .32 and .64 forms access. -/
def wideBytes (wide : Bool) : Nat := if wide then 8 else 4
/-- The transport format of REDQ (R196). -/
def QFmt.fmt : QFmt → Machine.Fmt | .bf16 => Machine.bf16 | .e4m3 => Machine.e4m3 | .e5m2 => Machine.e5m2

end Sys2Proof

namespace Sys2Proof.Machine

/-! ## Forms and addresses (R185, R190) -/

def regList (d : VReg) (n : Nat) : List VReg := (List.range n).map (nthReg d)
/-- How many lane registers hold n bytes. -/
def regCount (bytes : Nat) : Nat := if bytes ≤ 4 then 1 else 2
/-- A lane's address: s[SB] plus the lane's offset, scaled. -/
def laneAddr (c : Core) (p : Ply) (a : VReg) (sb : SReg) (scale : Nat) (l : Nat) : DWord :=
  p.sreg sb + ((regWord c p a l).setWidth 64 <<< scale)
/-- The data words of a lane. -/
def laneData (c : Core) (p : Ply) (rs : List VReg) (l : Nat) : List Word := rs.map fun r => regWord c p r l
def anyPoison (c : Core) (p : Ply) (rs : List VReg) (l : Nat) : Bool := rs.any fun r => c.poisoned (p.entry r) l
/-- The accesses of the active lanes. -/
def laneReqs (c : Core) (p : Ply) (a : VReg) (sb : SReg) (scale : Nat) (data : List VReg) : List LaneReq :=
  p.lanes.map fun l => ⟨l, laneAddr c p a sb scale l, 0, laneData c p data l, anyPoison c p data l⟩

/-- The lanes of accesses. -/
def lanesIn (reqs : List LaneReq) : List Nat := reqs.map (·.lane)

/-- The words that n loaded bytes give (R190). -/
def loadWords (z : Size) (sx : Bool) (x : Nat) : List Word :=
  match z with
  | .b8 => [if sx then (BitVec.ofNat 8 x).signExtend 32 else BitVec.ofNat 32 x]
  | .b16 => [if sx then (BitVec.ofNat 16 x).signExtend 32 else BitVec.ofNat 32 x]
  | .b32 => [BitVec.ofNat 32 x]
  | .b64 => [BitVec.ofNat 32 x, BitVec.ofNat 32 (x / 2 ^ 32)]
/-- A number as one word or a pair. -/
def valueWords (bytes x : Nat) : List Word := loadWords (if bytes ≤ 4 then .b32 else .b64) false x
/-- A word or a pair as a number. -/
def wordsValue (ws : List Word) : Nat := ofBytesLE (wordsBytes ws)

/-- How a load reads one lane. -/
structure LoadForm where
  bytes : Nat
  words : Nat → List Word
  scope : Option Scope := none
  hint : Hint := .normal
  sum : Option RepTy := none

/-- The form of a lane load instruction. -/
def loadForm : Instr → Option LoadForm
  | .ld _ _ _ z _ h x => some { bytes := z.bytes, words := loadWords z x, hint := h }
  | .lda _ _ _ wide e => some { bytes := wideBytes wide, words := valueWords (wideBytes wide), scope := some e }
  | .ldrep _ _ _ t =>
    let n := match t with | .s64 => 8 | _ => 4
    some { bytes := n, words := valueWords n, sum := some t }
  | _ => none
def LoadForm.shape (f : LoadForm) : Shape :=
  { need := .read, bytes := f.bytes, reach := if f.sum.isSome then .sum else .plain, scope := f.scope }

/-- One level of a binary tree of sums over ascending members; the last of an odd number stands alone (log entry 130). -/
def pairSums : List Word → List Word
  | a :: b :: xs => memFadd a b :: pairSums xs
  | xs => xs
/-- The sum of a binary tree; `fuel` counts its levels. -/
def treeSum : Nat → List Word → Word
  | 0, xs => xs.headD 0
  | fuel + 1, xs => treeSum fuel (pairSums xs)
/-- The sum of the replicas of a word in ascending order: wrapping, or the binary tree of R92. -/
def sumReplicas (t : RepTy) (xs : List Nat) : Nat :=
  match t with
  | .s32 => xs.foldl (· + ·) 0 % 2 ^ 32
  | .s64 => xs.foldl (· + ·) 0 % 2 ^ 64
  | .f32 => (treeSum xs.length (xs.map (BitVec.ofNat 32))).toNat
/-- The replicas of a package page in ascending package number: this package's, and free values for the members before and after it,
whose number the package does not hold either (R366; log entry 130). -/
def packageReplicas (x own n fresh : Nat) : List Nat :=
  let other := fun (j : Nat) => ofBytesLE ((List.range n).map fun b => Config.memberByte (x + b) j fresh)
  let below := Config.membersBelow x fresh % 384
  (List.range below).map other ++ own :: (List.range (Config.membersAbove x fresh % 384)).map fun j => other (below + 1 + j)
/-- Reads places one after another. -/
def readMany (c : Nat) (tenant : Option (BitVec 4)) (n : Nat) : List Nat → State → List Image × State
  | [], s => ([], s)
  | x :: xs, s =>
    let (i, s) := plainRead c tenant x n .bypass (touchPlace .normal x s)
    let (is, s) := readMany c tenant n xs s
    (i :: is, s)
/-- One lane's read. A package outside a pod is its group. -/
def readForm (c : Nat) (tenant : Option (BitVec 4)) (f : LoadForm) (x : Spot) (s : State) : Image × State :=
  match f.sum with
  | none => readOne c tenant f.scope x.at_ f.bytes (l1Use f.hint) (hintL2 f.hint x s)
  | some t =>
    if x.rep = 1 then
      let (is, s) := readMany c tenant f.bytes (replicas x.at_) s
      (⟨x.at_, bytesLE (sumReplicas t (is.map (·.value))) f.bytes, is.foldl (fun m i => i.poison.foldl (fun m (x, y) => m.put x y) m) []⟩, s)
    else
      let (i, s) := plainRead c tenant x.at_ f.bytes .bypass (hintL2 .normal x s)
      if s.io.podOn && i.error.isNone then
        ({ i with bytes := bytesLE (sumReplicas t (packageReplicas x.at_ i.value f.bytes s.fresh)) f.bytes }, { s with fresh := s.fresh + 1 })
      else (i, s)
/-- Reads the lanes in order, up to the first that consumes an error. -/
def readLanes (c : Nat) (tenant : Option (BitVec 4)) (f : LoadForm) :
    List LaneGo → State → (Option (Image × Cause × DWord) × List (Nat × List Word)) × State
  | [], s => ((none, []), s)
  | g :: gs, s =>
    let (i, s) := readForm c tenant f g.main s
    match i.error with
    | some cause => ((some (i, cause, g.req.ea), []), s)
    | none =>
      let ((e, vs), s) := readLanes c tenant f gs s
      ((e, (g.req.lane, f.words i.value) :: vs), s)

/-! ## Loads (R190, R191, R197) -/

/-- Makes the rows of registers ready for a write of lanes (R47); none when the pool is short. -/
def prepareRegs (c : Core) (p : Ply) (ls : List Nat) : List VReg → Option (Core × Ply)
  | [] => some (c, p)
  | r :: rs =>
    match c.prepare p.width (p.entry r) ls with
    | some (e, c') => prepareRegs c' (p.setEntry r e) ls rs
    | none => none
def fillAll (vals : List (Nat × List Word)) (ps : List Piece) : List Piece := vals.foldl (fun ps v => fillLane v.1 v.2 ps) ps
/-- The rows that pieces land in. -/
def pieceRows (ps : List Piece) : List Nat := (ps.map (·.row)).eraseDups
/-- A ply with the row map that a preparation left. -/
def takeRows (k : Nat) (p : Ply) (s : State) : State := s.modPly k fun q => { q with a := { q.a with rows := p.a.rows } }

/-- Performs lanes of a load: at its first issue with its destination rows made ready, or as a replay (R187). -/
def loadLanes (i : Instr) (f : LoadForm) (rs : List VReg) (s : State) (p : Ply) (reqs : List LaneReq) (old : Option Unfinished) : Res :=
  let k := s.cur
  let c := coreOf k
  let umask := (old.map (·.mask)).getD 0
  reachLanes s p f.shape reqs umask fun s gos left pages =>
    match readLanes c (viewer k p).tenant f gos s with
    | ((some (im, cause, va), _), s) => .before (consumeRecord im (plyid k p) s) cause va umask
    | ((none, vals), s) =>
      match old with
      | some u =>
        let land := fun (x : Flight) =>
          { x with pieces := fillAll vals x.pieces, waiting := !left.isEmpty
                   load := some (i, (x.load.map (·.2)).getD [] ++ gos.map (·.req)), lines := x.lines ++ accessLines f.shape.reach gos }
        settleLanes k .read left pages u.flight
          (s.modCore c fun y => { y with loads := y.loads.map fun x => if some x.seq = u.flight then land x else x })
      | none =>
        match prepareRegs (s.core c) p (lanesIn reqs) rs with
        | none => rowWait s p
        | some (y, p') =>
          let ps := fillAll vals (piecesFor p' rs (lanesIn reqs))
          let x := { Flight.issue s k p true with
            rows := pieceRows ps, pieces := ps, waiting := !left.isEmpty, load := some (i, gos.map (·.req))
            lines := accessLines f.shape.reach gos }
          settleLanes k .read left pages (some s.seq) (takeRows k p' (s.setCore c { y with loads := y.loads ++ [x] }).bump)

/-- A lane load: at most 63 are outstanding (R339). -/
def laneLoad (i : Instr) (f : LoadForm) (d a : VReg) (sb : SReg) (scale : Nat) (s : State) : Out :=
  perform {} (encode i) s fun p =>
    let rs := regList d (regCount f.bytes)
    match p.replays with
    | some u => regated s p u [a] (loadLanes i f rs s p u.reqs (some u))
    | none =>
      gated s p [(a, p.lanes)] (rs.map fun r => (r, p.lanes)) fun c =>
        if p.lanes.isEmpty then .next s
        else if loadsOut s s.cur p ≥ 63 then .stall
        else match prepareRegs c p p.lanes rs with
          | none => rowWait s p
          | some _ => loadLanes i f rs s p (laneReqs c p a sb scale []) none

def execLd (d a : VReg) (sb : SReg) (z : Size) (c : BitVec 2) (h : Hint) (x : Bool) (s : State) : Out :=
  laneLoad (.ld d a sb z c h x) { bytes := z.bytes, words := loadWords z x, hint := h } d a sb c.toNat s
def execLda (d a : VReg) (sb : SReg) (wide : Bool) (e : Scope) (s : State) : Out :=
  laneLoad (.lda d a sb wide e) { bytes := wideBytes wide, words := valueWords (wideBytes wide), scope := some e } d a sb 0 s
def execLdrep (d a : VReg) (sb : SReg) (t : RepTy) (s : State) : Out :=
  let n := match t with | .s64 => 8 | _ => 4
  laneLoad (.ldrep d a sb t) { bytes := n, words := valueWords n, sum := some t } d a sb 0 s

/-! ## Stores (R190, R191) -/

/-- Goes on when the registers let a store issue. In privileged mode a poisoned data word is stored as it is
(R290): a read finds the errors of its row, which are consumed by nobody, and logged as latent (R55, R346). -/
def gatedData (s : State) (p : Ply) (a : VReg) (data : List VReg) (go : Core → Res) : Res :=
  let us := data.map fun r => (r, p.lanes)
  if p.mode = 0 then gated s p ((a, p.lanes) :: us) [] go
  else if anyGiven p ((a, p.lanes) :: us) then .before s .givenReg 0 0
  else
    let c := s.core (coreOf s.cur)
    if readStalls c p us then .stall
    else if (rowsUsed p us).any c.rowErrors then
      .again ((rowsUsed p us).foldl (fun s n => findInRow (coreOf s.cur) (lanesRead p [(a, p.lanes)] n) s n) s)
    else gated s p [(a, p.lanes)] [] go
/-- The flight of a store or an atomic: a new one, or the one that a replay goes on with. -/
def storeFlight (s : State) (k : Nat) (p : Ply) (old : Option Unfinished) : Nat × State :=
  match old.bind (·.flight) with
  | some q => (q, s)
  | none => (s.seq, enterStore (coreOf k) (Flight.issue s k p true) s)
/-- Ends a store or an atomic: its flight waits while lanes are left. -/
def settleStore (k seq : Nat) (need : Need) (left : List LaneReq) (pages : List (DWord × Nat)) (s : State) : Res :=
  settleLanes k need left pages (some seq) (modStore (coreOf k) seq (fun f => { f with waiting := !left.isEmpty }) s)
/-- What a lane of a store writes. -/
def LaneGo.write (g : LaneGo) (n : Nat) : HomeWrite :=
  ⟨g.main.va, g.req.lane, g.main.at_, (wordsBytes g.req.data).take n, if g.req.poison then some .memory else none⟩
/-- Performs lanes of a store. -/
def storeLanes (x : Shape) (h : Hint) (s : State) (p : Ply) (reqs : List LaneReq) (old : Option Unfinished) : Res :=
  let k := s.cur
  reachLanes s p x reqs ((old.map (·.mask)).getD 0) fun s gos left pages =>
    let (seq, s) := storeFlight s k p old
    let s := gos.foldl (fun s g =>
      writeOne k seq x.scope (g.write x.bytes) (hintL2 h g.main s)) s
    settleStore k seq x.need left pages s
def laneStore (i : Instr) (x : Shape) (h : Hint) (d a : VReg) (sb : SReg) (scale : Nat) (s : State) : Out :=
  perform {} (encode i) s fun p =>
    let rs := regList d (regCount x.bytes)
    match p.replays with
    | some u => regated s p u (a :: if p.mode = 0 then rs else []) (storeLanes x h s p u.reqs (some u))
    | none =>
      gatedData s p a rs fun c => if p.lanes.isEmpty then .next s else storeLanes x h s p (laneReqs c p a sb scale rs) none

def execSt (d a : VReg) (sb : SReg) (z : Size) (c : BitVec 2) (h : Hint) (s : State) : Out :=
  laneStore (.st d a sb z c h) { need := .write, bytes := z.bytes } h d a sb c.toNat s
def execStr (d a : VReg) (sb : SReg) (wide : Bool) (e : Scope) (s : State) : Out :=
  laneStore (.str d a sb wide e) { need := .write, bytes := wideBytes wide, scope := some e } .normal d a sb 0 s

/-! ## Atomics (R188, R192, R193, R195) -/

/-- Performs atomics lane by lane, up to the first that consumes an error, which stops it and every higher lane. `f` gives
the request of a lane from its data. -/
def atomLanes (k seq : Nat) (tenant : Option (BitVec 4)) (e : Scope) (ordered : Bool) (n : Nat) (f : List Word → BusRequest) :
    List LaneGo → State → (Option (Image × Cause × List LaneReq) × List (Nat × List Word)) × State
  | [], s => ((none, []), s)
  | g :: gs, s =>
    let (i, s) := atomicOne k seq tenant e ordered g.main (f g.req.data) s
    match i.error with
    | some cause => ((some (i, cause, (g :: gs).map (·.req)), []), s)
    | none =>
      let ((x, vs), s) := atomLanes k seq tenant e ordered n f gs s
      ((x, (g.req.lane, valueWords n i.value) :: vs), s)
/-- A consumed error that leaves lanes unfinished (R188). -/
def stopLanes (k seq : Nat) (im : Image) (c : Cause) (left : List LaneReq) (p : Ply) (s : State) : Res :=
  let s := consumeRecord im (plyid k p) (modStore (coreOf k) seq (fun f => { f with waiting := true }) s)
  let m := maskOf (lanesIn left)
  .before (s.modPly k fun q => { q with unfinished := some ⟨m, left, some seq, [], 0⟩ }) c ((left.map (·.ea)).headD 0) m
/-- The flight takes old values, with the rows that they land in. -/
def landIn (k seq : Nat) (vals : List (Nat × List Word)) (s : State) : State :=
  modStore (coreOf k) seq (fun f => { f with pieces := fillAll vals f.pieces }) s
/-- Performs lanes of an atomic or a CAS, whose old values land in the registers `out`. -/
def atomicLanes (x : Shape) (e : Scope) (ordered : Bool) (out : List VReg) (f : List Word → BusRequest) (s : State) (p : Ply)
    (reqs : List LaneReq) (old : Option Unfinished) : Res :=
  let k := s.cur
  let c := coreOf k
  reachLanes s p x reqs ((old.map (·.mask)).getD 0) fun s gos left pages =>
    match (match old with | some _ => some (s.core c, p) | none => prepareRegs (s.core c) p (lanesIn reqs) out) with
    | none => rowWait s p
    | some (y, p') =>
      let (seq, s) := storeFlight (takeRows k p' (s.setCore c y)) k p old
      let s := match old with
        | some _ => s
        | none =>
          let ps := piecesFor p' out (lanesIn reqs)
          modStore c seq (fun f => { f with rows := pieceRows ps, pieces := ps }) s
      match atomLanes k seq (viewer k p).tenant e ordered x.bytes f gos s with
      | ((some (im, cause, rest), vals), s) => stopLanes k seq im cause (rest ++ left) p (landIn k seq vals s)
      | ((none, vals), s) => settleStore k seq x.need left pages (landIn k seq vals s)
/-- An atomic of a ply. With no active lane it has no effect but to close the region, which it does at its issue (log entry
17). -/
def laneAtomic (i : Instr) (bytes : Nat) (e : Scope) (ordered : Bool) (d : VReg) (ins : Nat) (a : VReg) (sb : SReg)
    (f : List Word → BusRequest) (s : State) : Out :=
  perform { closes := true } (encode i) s fun p =>
    let x : Shape := { need := .both, bytes := bytes, reach := .atomic, inOrder := true, scope := some e }
    let data := regList d ins
    let out := regList d (regCount bytes)
    match p.replays with
    | some u => regated s p u (a :: data) (atomicLanes x e ordered out f s p u.reqs (some u))
    | none =>
      gated s p ((a, p.lanes) :: data.map fun r => (r, p.lanes)) (out.map fun r => (r, p.lanes)) fun c =>
        if p.lanes.isEmpty then .next s
        else match prepareRegs c p p.lanes out with
          | none => rowWait s p
          | some _ => atomicLanes x e ordered out f s p (laneReqs c p a sb 0 data) none

/-- The bytes of an atomic operation. -/
def atomBytes (op : AtomOp) : Nat := op.width / 8
/-- What ATOM asks of its place, and CAS, which writes its second value where the first equals the old one (R192, R195). -/
def atomRequest (op : AtomOp) (data : List Word) : BusRequest := .atom op false (BitVec.ofNat 64 (wordsValue data))
def casRequest (wide : Bool) (data : List Word) : BusRequest :=
  let n := if wide then 2 else 1
  .cas wide (BitVec.ofNat 64 (wordsValue (data.take n))) (BitVec.ofNat 64 (wordsValue (data.drop n)))

def execAtom (d a : VReg) (sb : SReg) (op : AtomOp) (e : Scope) (s : State) : Out :=
  laneAtomic (.atom d a sb op e) (atomBytes op) e false d (regCount (atomBytes op)) a sb (atomRequest op) s
def execAtomar (d a : VReg) (sb : SReg) (op : AtomOp) (e : Scope) (s : State) : Out :=
  laneAtomic (.atomar d a sb op e) (atomBytes op) e true d (regCount (atomBytes op)) a sb (atomRequest op) s
def execCas (d a : VReg) (sb : SReg) (e : Scope) (wide ord : Bool) (s : State) : Out :=
  laneAtomic (.cas d a sb e wide ord) (wideBytes wide) e ord d (if wide then 4 else 2) a sb (casRequest wide) s

/-! ## Reductions (R93, R194, R196) -/

/-- Performs lanes of RED or REDQ by a function of one lane, which may stop on an error. -/
def redLanes (k seq : Nat) (f : LaneGo → State → Option (Image × Cause) × State) :
    List LaneGo → State → Option (Image × Cause × List LaneReq) × State
  | [], s => (none, s)
  | g :: gs, s =>
    match f g s with
    | (some (i, c), s) => (some (i, c, (g :: gs).map (·.req)), s)
    | (none, s) => redLanes k seq f gs s
def reduceLanes (x : Shape) (f : Nat → LaneGo → State → Option (Image × Cause) × State) (s : State) (p : Ply)
    (reqs : List LaneReq) (old : Option Unfinished) : Res :=
  let k := s.cur
  reachLanes s p x reqs ((old.map (·.mask)).getD 0) fun s gos left pages =>
    let (seq, s) := storeFlight s k p old
    match redLanes k seq (f seq) gos s with
    | (some (im, cause, rest), s) => stopLanes k seq im cause (rest ++ left) p s
    | (none, s) => settleStore k seq x.need left pages s
def laneReduce (i : Instr) (x : Shape) (d a : VReg) (reqs : Core → Ply → List VReg → List LaneReq)
    (f : Nat → LaneGo → State → Option (Image × Cause) × State) (s : State) : Out :=
  perform { closes := true } (encode i) s fun p =>
    let data := regList d (regCount x.bytes)
    match p.replays with
    | some u => regated s p u (a :: data) (reduceLanes x f s p u.reqs (some u))
    | none =>
      gated s p ((a, p.lanes) :: data.map fun r => (r, p.lanes)) [] fun c =>
        if p.lanes.isEmpty then .next s else reduceLanes x f s p (reqs c p data) none

/-- One lane of RED, or the sum of REDQ, at its target. -/
def redLane (k seq : Nat) (op : AtomOp) (x : Spot) (v : DWord) (s : State) : Option (Image × Cause) × State :=
  let (i, s) := reduceRead (coreOf k) op x s
  match i.error with | some c => (some (i, c), s) | none => (none, reduceOne k seq op x v s)
def execRed (d a : VReg) (sb : SReg) (op : AtomOp) (e : Scope) (s : State) : Out :=
  laneReduce (.red d a sb op e) { need := .both, bytes := atomBytes op, reach := .atomic, inOrder := true, scope := some e } d a
    (fun c p data => laneReqs c p a sb 0 data)
    (fun seq g s' => redLane s.cur seq op g.main (BitVec.ofNat 64 (wordsValue g.req.data)) s') s

/-- The contribution that REDQ sends, as FP32, and the new residual (R93). -/
def quantise (q : QFmt) (x : Word) : Word × Word :=
  let back := fun b => BitVec.ofNat 32 (fConvert q.fmt fp32 .rne false false false b).1
  match fp32.decode x.toNat with
  | .nan _ _ _ => (back (fConvert fp32 q.fmt .rne false false false x.toNat).1, 0)
  | .inf neg => (back (q.fmt.inf neg), 0)
  | .fin _ _ _ =>
    let y := back (fConvert fp32 q.fmt .rne true false false x.toNat).1
    (y, BitVec.ofNat 32 (fSub fp32 ⟨.rne, false⟩ x.toNat y.toNat).1)
/-- One lane of REDQ: the new residual is stored, and then the contribution goes out (R93). An error at either place stops it
before it writes (R188). -/
def redqLane (k : Nat) (tenant : Option (BitVec 4)) (q : QFmt) (seq : Nat) (g : LaneGo) (s : State) : Option (Image × Cause) × State :=
  match g.spots with
  | [r, t] =>
    let (i, s) := plainRead (coreOf k) tenant r.at_ 4 .allocate (hintL2 .normal r s)
    (match i.error with
     | some c => (some (i, c), s)
     | none =>
       let x := memFadd (g.req.data.headD 0) (BitVec.ofNat 32 i.value)
       let (y, res) := quantise q x
       let (j, s) := reduceRead (coreOf k) .fadd t s
       (match j.error with
        | some c => (some (j, c), s)
        | none => (none, reduceOne k seq .fadd t (y.setWidth 64) (writeOne k seq none ⟨r.va, r.lane, r.at_, bytesLE res.toNat 4, none⟩ s))))
  | _ => (none, s)
def execRedq (d a : VReg) (sb : SReg) (q : QFmt) (e : Scope) (s : State) : Out :=
  laneReduce (.redq d a sb q e)
    { need := .both, bytes := 4, reach := .atomic, residual := true, inOrder := true, scope := some e } d a
    (fun c p data => (laneReqs c p a sb 0 data).map fun r => { r with ea2 := p.a.resbase + (regWord c p a r.lane).setWidth 64 })
    (fun seq g s' => redqLane s.cur ((s.ply s.cur).bind fun p => (viewer s.cur p).tenant) q seq g s') s

/-! ## PREF (R91, R198) -/

/-- A hint on the line of a place (Table 5-4). -/
def applyPref (kind : PrefKind) (c : Nat) (tenant : Option (BitVec 4)) (x : Nat) (s : State) : State :=
  match targetAt s.io x with
  | .memory a =>
    let line := lineOf a
    let absent := if s.l2.any (·.line == line) then s else touchL2 .normal a s
    let set := fun (f : L2Prio → L2Prio) =>
      { s with l2 := s.l2.map fun y => if y.line = line then { y with prio := f y.prio } else y }
    (match kind with
     | .l2 => absent
     | .l1 => (plainRead c tenant x 0 .allocate absent).2
     | .keep => touchL2 .evictLast a s
     | .demote => dropL1 c line (set fun _ => .evictFirst)
     | .release => set fun w => if w = .evictLast then .normal else w)
  | .package _ _ | .host _ => if kind = .l1 then (plainRead c tenant x 0 .allocate s).2 else if kind = .demote then dropL1 c (lineOf x) s else s
  | _ => s
def dropHint (k : Nat) (s : State) : State :=
  s.modPly k fun p => { p with hintdrop := if p.hintdrop = 0xFFFFFFFF then p.hintdrop else p.hintdrop + 1 }
/-- One lane of PREF: a lane that R91 excludes drops its hint. DESIGN CHOICE: R91 does not say whether a page that may only be executed is
protected against the tenant; here it is (log entry 136). -/
def prefLane (k : Nat) (p : Ply) (kind : PrefKind) (s : State) (va : DWord) : State :=
  let v := viewer k p
  match translate v va .read s with
  | (.ok pa 0 _, s') =>
    (match accessCheck s' v.requester (placeOf s'.io pa) 1 with
     | .ok => applyPref kind (coreOf k) v.tenant (placeOf s'.io pa) s'
     | _ => dropHint k s)
  | _ => dropHint k s
def execPref (kind : PrefKind) (a : VReg) (sb : SReg) (s : State) : Out :=
  perform {} (encode (.pref kind a sb)) s fun p =>
    gated s p [(a, p.lanes)] [] fun c => .next ((p.lanes.map (laneAddr c p a sb 0)).foldl (prefLane s.cur p kind) s)

/-! ## Replay packets (R339) -/

/-- Reissues the load packets of a ply, oldest first; a page that is missing parks it, and a cause is taken, before it runs
any instruction (log entry 29). `fuel` counts the packets. -/
def reissue (k : Nat) : Nat → State → State
  | 0, s => s
  | fuel + 1, s =>
    match s.ply k with
    | none => s
    | some p =>
      let c := coreOf k
      match (s.core c).loads.find? fun x => x.uid == p.uid && x.packet with
      | none => s
      | some x =>
        match x.load.bind fun (i, reqs) => (loadForm i).map fun f => (f, reqs) with
        | none => s
        | some (f, reqs) =>
          let v := viewer k p
          let (ps, s) := placeLanes v f.shape reqs s
          let gos := ps.filterMap goOf
          match ps.findSome? fun y => match y with | .cause c va => some (c, va) | _ => none with
          | some (cause, va) => takeCause k cause p.a.pc va 0 s
          | none =>
            if !(ps.filterMap leftOf).isEmpty then parkOnPages k .read (ps.flatMap pagesOf) (p.unfinished.getD ⟨0, [], none, [], 0⟩) s
            else match firstCheck s v.requester f.shape.reach f.bytes (gos.flatMap (·.spots)) with
              | some (.cause cause, va) => takeCause k cause p.a.pc va 0 s
              | _ =>
                match readLanes c v.tenant f gos s with
                | ((some (im, cause, va), _), s) => takeCause k cause p.a.pc va 0 (consumeRecord im (plyid k p) s)
                | ((none, vals), s) =>
                  reissue k fuel (s.modCore c fun y => { y with loads := y.loads.map fun z =>
                    if z.seq = x.seq then { z with packet := false, pieces := fillAll vals z.pieces, ctxgen := y.ctxgen.getD ((p.ident.tenant.map (·.toNat)).getD 16) 0 } else z })
/-- Whether a ply still has packets to reissue. -/
def hasPackets (k : Nat) (p : Ply) (s : State) : Bool := (s.core (coreOf k)).loads.any fun x => x.uid == p.uid && x.packet

end Sys2Proof.Machine
end

