-- ==== Sys2Proof/Machine/UniformMem.lean ====
section
/-! DEFINITION. Machine/UniformMem.lean: uniform memory access, fences and the waits on memory and on counts (chapter 08:
R150 to R158; R102, R108). -/
namespace Sys2Proof.Machine

/-- One access of a ply: its causes, its page, and what it does at its place (R154). It is replayed whole. -/
def reachOne (s : State) (p : Ply) (x : Shape) (va : DWord) (go : State → Spot → Res) : Res :=
  reachLanes s p x [⟨0, va, 0, [], false⟩] 0 fun s gos _ pages =>
    match gos with
    | g :: _ => go s g.main
    | [] => .stay (parkOnPages s.cur x.need pages ⟨0, [], none, [], 0⟩ s)
/-- A consumed error in memory (R188). -/
def memPoison (s : State) (p : Ply) (i : Image) (c : Cause) (va : DWord) : Res :=
  .before (consumeRecord i (plyid s.cur p) s) c va 0
/-- A read by a uniform load into s[D], zero-extended. It lands at once; with 63 loads outstanding it waits at issue (R339). -/
def uniformRead (d : SReg) (e : Option Scope) (n : Nat) (va : DWord) (s : State) (p : Ply) : Res :=
  let k := s.cur
  let t := (viewer k p).tenant
  if loadsOut s k p ≥ 63 then .stall
  else reachOne s p { need := .read, bytes := n, scope := e } va fun s x =>
    let (i, s) := readOne (coreOf k) t e x.at_ n .allocate (hintL2 .normal x s)
    match i.error with
    | some c => memPoison s p i c va
    | none => .next (s.modPly k fun q => q.setS d (BitVec.ofNat 64 i.value))
/-- A write by a uniform store. -/
def uniformWrite (d : SReg) (e : Option Scope) (n : Nat) (va : DWord) (s : State) (p : Ply) : Res :=
  let k := s.cur
  reachOne s p { need := .write, bytes := n, scope := e } va fun s x =>
    let s' := hintL2 .normal x (enterStore (coreOf k) (Flight.issue s k p true) s)
    .next (writeOne k s.seq e ⟨x.va, 0, x.at_, bytesLE (p.sreg d).toNat n, none⟩ s')
/-- The address of ULD and UST (R150). -/
def dispAddr (p : Ply) (sb : SReg) (i : BitVec 7) (z : Size) : DWord := p.sreg sb + i.signExtend 64 * BitVec.ofNat 64 z.bytes

def execUld (d sb : SReg) (i : BitVec 7) (z : Size) (g : Guard) (s : State) : Out :=
  guarded {} (encode (.uld d sb i z g)) g s fun p => uniformRead d none z.bytes (dispAddr p sb i z) s p
def execUst (d sb : SReg) (i : BitVec 7) (z : Size) (g : Guard) (s : State) : Out :=
  guarded {} (encode (.ust d sb i z g)) g s fun p => uniformWrite d none z.bytes (dispAddr p sb i z) s p
def execUlda (d sb : SReg) (e : Scope) (wide : Bool) (g : Guard) (s : State) : Out :=
  guarded {} (encode (.ulda d sb e wide g)) g s fun p => uniformRead d (some e) (wideBytes wide) (p.sreg sb) s p
def execUstr (d sb : SReg) (e : Scope) (wide : Bool) (g : Guard) (s : State) : Out :=
  guarded {} (encode (.ustr d sb e wide g)) g s fun p => uniformWrite d (some e) (wideBytes wide) (p.sreg sb) s p

/-- A uniform atomic: its old value comes back to s[D], zero-extended (R152, R153). -/
def uniformAtomic (ws : List (BitVec 32)) (g : Guard) (d sb : SReg) (e : Scope) (ordered : Bool) (n : Nat) (f : Ply → BusRequest)
    (s : State) : Out :=
  guarded { closes := true } ws g s fun p =>
    let k := s.cur
    reachOne s p { need := .both, bytes := n, reach := .atomic, scope := some e } (p.sreg sb) fun s x =>
      let (i, s') := atomicOne k s.seq (viewer k p).tenant e ordered x (f p) (enterStore (coreOf k) (Flight.issue s k p true) s)
      match i.error with
      | some c =>
        memPoison (s'.modCore (coreOf k) fun y => { y with stores := y.stores.filter (·.seq != s.seq) }) p i c (p.sreg sb)
      | none => .next (s'.modPly k fun q => q.setS d (BitVec.ofNat 64 i.value))

def execUatom (d sb : SReg) (e : Scope) (wide : Bool) (op : AtomOp) (g : Guard) (s : State) : Out :=
  let n := wideBytes wide
  uniformAtomic (encode (.uatom d sb e wide op g)) g d sb e false n
    (fun p => .atom op wide (p.sreg d)) s
def execUcas (d sb : SReg) (e : Scope) (wide ord : Bool) (g : Guard) (s : State) : Out :=
  let n := wideBytes wide
  uniformAtomic (encode (.ucas d sb e wide ord g)) g d sb e ord n
    (fun p => .cas wide (p.sreg d) (p.sreg (d + 1))) s

/-! ## Fences (R102, R155) -/

/-- A fence: the parts of its kind, at its scope. The ply's loads before an acquire have landed (R102). -/
def fenceAt (i : Instr) (e : Scope) (g : Guard) (rel acq : Bool) (s : State) : Out :=
  guarded {} (encode i) g s fun p =>
    if clampTraps p e then .before s .clamped 0 0
    else
      let c := coreOf s.cur
      let s := noteClamp s.cur e s
      let s := if rel then release s.cur e s else landLoads s.cur s
      .next (if acq then acquire c e s else s)
def execFence (e : Scope) (g : Guard) (s : State) : Out := fenceAt (.fence e g) e g true true s
def execFenceAcq (e : Scope) (g : Guard) (s : State) : Out := fenceAt (.fenceAcq e g) e g false true s
def execFenceRel (e : Scope) (g : Guard) (s : State) : Out := fenceAt (.fenceRel e g) e g true false s

/-! ## Waits (R108, R156 to R158) -/

/-- WAITC (R108, R156). DESIGN CHOICE: R113 sets %scopestat[0] when a clamped operation is performed, and the spec does not say
when a WAITC that parks is; it is set as the monitor is armed, and stays set if the wait is abandoned (log entry 122). -/
def execWaitc (d sb : SReg) (e : Scope) (wide : Bool) (c : WaitCond) (g : Guard) (s : State) : Out :=
  guarded {} (encode (.waitc d sb e wide c g)) g s fun p =>
    let n := wideBytes wide
    let k := s.cur
    reachOne s p { need := .both, bytes := n, reach := .atomic, scope := some e } (p.sreg sb) fun s x =>
      let (i, s) := homeRead (coreOf k) (viewer k p).tenant x.at_ n s
      match i.error with
      | some cause => memPoison s p i cause (p.sreg sb)
      | none =>
        if waitHolds c (8 * n) i.value ((p.sreg d).toNat % 2 ^ (8 * n)) then .next (acquire (coreOf k) e s)
        else .park s .parked (.monitor ⟨x.at_, wide, c, p.sreg d, e, false⟩)

/-- WAITN's limits: a field of all ones is none (R158). -/
def limitOf (k x : Nat) : Option Nat := if x + 1 = 2 ^ k then none else some x
def within (n : Nat) (l : Option Nat) : Bool := l.all (n ≤ ·)
/-- Every count is within its limit (R158). -/
def countsWithin (s : State) (k : Nat) (p : Ply) (l st c m : Option Nat) : Bool :=
  within (loadsOut s k p) l && within (storesOut s k p) st && within (copiesOut s k p) c && within (tilesOut s k p) m
def execWaitn (l st : BitVec 6) (c : BitVec 5) (m : BitVec 4) (g : Guard) (s : State) : Out :=
  guarded {} (encode (.waitn l st c m g)) g s fun p =>
    let a := limitOf 6 l.toNat
    let b := limitOf 6 st.toNat
    let x := limitOf 5 c.toNat
    let y := limitOf 4 m.toNat
    if countsWithin s s.cur p a b x y then .next s else .park s .ready (.counts a b x y)

end Sys2Proof.Machine
end

