-- ==== Sys2Proof/Machine/Tiles.lean ====
section
/-! DEFINITION. Machine/Tiles.lean: tiles and what is loaded for the engines (chapters 05, 11 and 13: R81 to R86, R199,
R221 to R225, R340). -/
namespace Sys2Proof.Machine

/-! ## The deckle table and the tile store (R81, R82, R94) -/

/-- The row pitch and the size of a tile in bytes. -/
def Tile.rowBytes (x : Tile) : Nat := 2 ^ (x.pitch + 5)
def Tile.size (x : Tile) : Nat := (x.rowsM1 + 1) * x.rowBytes
def Tile.granules (x : Tile) : Nat := ceilDiv x.size 1024
/-- The granules that a core's store holds of a tile of core `o`: their number (R82). -/
def Tile.share (x : Tile) (o c : Nat) : Nat :=
  if !x.level then (if c = o then x.granules else 0)
  else if quadOf c ≠ quadOf o then 0
  else let j := (c % 4 + 4 - o % 4) % 4
    (x.granules - j + 3) / 4
/-- A team's tiles name its handles; the context ply names those of the Halted slot that HSLOT names (R340). DESIGN CHOICE: R82
has the context ply read and restore the entries of Table 5-1, and the spec names no instruction, register or packed word that
does; the context ply reaches an entry only through TALLOC, TFREE, TLD, TST and the copies that this names (log entry 123). -/
def tileTeam (s : State) (k : Nat) (p : Ply) : Option Nat :=
  if p.mode = 0 then some p.ident.team
  else match s.ply (agentKey (coreOf k) p.priv.hslot.toNat) with
    | some q => if isContext k && q.state == .halted && p.priv.hslot.toNat < 63 then some q.ident.team else none
    | none => none
def teamTile (s : State) (t : Option Nat) (h : Nat) : Option Tile := (t.bind s.team).bind fun x => x.tiles.find h
def State.modTeam (s : State) (t : Nat) (f : Team → Team) : State :=
  match s.teams.find t with | some x => s.setTeam t (f x) | none => s
def State.setTile (s : State) (t h : Nat) (x : Tile) : State := s.modTeam t fun y => { y with tiles := y.tiles.put h x }
def State.modTile (s : State) (t h : Nat) (f : Tile → Tile) : State :=
  match teamTile s (some t) h with | some x => s.setTile t h (f x) | none => s
/-- A frozen matrix operation names the tile (R340). -/
def frozenNames (s : State) (core t h : Nat) : Bool :=
  let c := s.core core
  let names := fun (m : MatOp) => m.team == t && m.tiles.contains h
  c.frozen && (c.mats.any names || c.saved.any fun x => x.live.any names)
/-- A lane access or a TFREE waits for the hasp (R84); the context ply ignores it for a frozen operation's tile. -/
def haspWaits (s : State) (k : Nat) (p : Ply) (t h : Nat) (x : Tile) : Bool := x.hasp && !(p.mode != 0 && frozenNames s (coreOf k) t h)

/-- The granules of a core's store that tiles hold, as (base, number). -/
def heldGranules (s : State) (c : Nat) : List (Nat × Nat) :=
  s.teams.flatMap fun (_, t) => t.tiles.filterMap fun (_, x) => if x.share t.core c = 0 then none else some (x.base, x.share t.core c)
/-- A run of granules of a store is free, within the carve-out and not retired (R221, R350). -/
def granulesFree (s : State) (c : Nat) (held : List (Nat × Nat)) (b n : Nat) : Bool :=
  b + n ≤ 64 * (s.core c).ncur && held.all (fun (b', n') => b + n ≤ b' || b' + n' ≤ b)
    && (s.core c).retiredGranules.all fun g => g < b || b + n ≤ g
/-- The lowest base at which every store that holds a part has room. -/
def placeTile (s : State) (o : Nat) (x : Tile) : Option Nat :=
  let parts := ((List.range 4).map fun j => o / 4 * 4 + (o + j) % 4).filterMap fun c =>
    if x.share o c = 0 then none else some (c, x.share o c, heldGranules s c)
  (List.range 1921).find? fun b => parts.all fun (c, n, held) => granulesFree s c held b n

/-- The shape word of TALLOC (R221): the tile it describes, or the cause. -/
def shapeTile (w : DWord) (granted : Bool) : Except Cause Tile :=
  let lvl := field w 24 3
  if field w 20 4 > 8 || field w 27 37 ≠ 0 then .error .tileHandle
  else if lvl > 1 || (lvl = 1 && !granted) then .error .tileLevel
  else .ok ⟨lvl = 1, false, 0, 0, field w 8 12, field w 20 4, [], [], []⟩
/-- The tenant's TCFG grants quad sharing (R82). -/
def quadShared (s : State) (tenant : Option (BitVec 4)) : Bool :=
  match tenant with | some t => (s.hyp.tcfg.getD t.toNat 0).getLsbD 21 | none => false
/-- Whether the run of a team grants it. -/
def teamShared (s : State) (t : Nat) : Bool :=
  quadShared s ((s.team t).bind fun x => (s.run x.run).map fun r => r.desc.tenant)
/-- Allocates: q0 says whether there was room. -/
def allocTile (s : State) (t h : Nat) (x : Tile) : Option State :=
  match s.team t with
  | none => none
  | some tm => match placeTile s tm.core x with | some b => some (s.setTile t h { x with base := b }) | none => none
/-- What closes the open region (R257). -/
def closing : WordKind := { closes := true }

def execTalloc (a : SReg) (g : Guard) (s : State) : Out :=
  guarded closing (encode (.talloc a g)) g s fun p =>
    match tileTeam s s.cur p with
    | none => .before s .tileHandle 0 0
    | some t =>
      let h := field (p.sreg a) 0 8
      match (if (teamTile s (some t) h).isSome then .error .tileHandle else shapeTile (p.sreg a) (teamShared s t)) with
      | .error c => .before s c 0 0
      | .ok x =>
        match allocTile s t h x with
        | some s' => .next (s'.setPly s.cur (p.setQ 0 true))
        | none => .next (s.setPly s.cur (p.setQ 0 false))
def execTalloct (d a : SReg) (g : Guard) (s : State) : Out :=
  guarded closing (encode (.talloct d a g)) g s fun p =>
    match tileTeam s s.cur p with
    | none => .before s .tileHandle 0 0
    | some t =>
      match (if field (p.sreg a) 0 8 ≠ 0 then .error .tileHandle else shapeTile (p.sreg a) (teamShared s t)) with
      | .error c => .before s c 0 0
      | .ok x =>
        match (s.team t).bind fun y => lowestFree y.tiles.keys 256 with
        | none => .next (s.setPly s.cur ((p.setS d 256).setQ 0 false))
        | some h =>
          match allocTile s t h x with
          | some s' => .next (s'.setPly s.cur ((p.setS d (BitVec.ofNat 64 h)).setQ 0 true))
          | none => .next (s.setPly s.cur ((p.setS d 256).setQ 0 false))
def execTfree (a : SReg) (g : Guard) (s : State) : Out :=
  guarded closing (encode (.tfree a g)) g s fun p =>
    let h := field (p.sreg a) 0 8
    match tileTeam s s.cur p, teamTile s (tileTeam s s.cur p) h with
    | some t, some x =>
      if field (p.sreg a) 8 56 ≠ 0 then .before s .tileHandle 0 0
      else if haspWaits s s.cur p t h x then .stall
      else .next (s.modTeam t fun y => { y with tiles := y.tiles.drop h })
    | _, _ => .before s .tileHandle 0 0

/-! ## Tile bytes (R81, R346) -/

/-- n bytes of a tile, by tile offset, with the poisoned 8-byte words among them. -/
def Tile.read (x : Tile) (off n : Nat) : Image :=
  ⟨off, Memory.readBytes x.cells off n, x.poison.sift fun w _ => (wordsOf off n).contains w⟩
/-- Writes bytes of a tile: a whole 8-byte word clears its poison (R346). -/
def Tile.write (x : Tile) (off : Nat) (bs : List Byte) (poison : Option Mark) : Tile :=
  let ws := wordsOf off bs.length
  let whole := ws.filter fun w => off ≤ 8 * w && 8 * w + 8 ≤ off + bs.length
  { x with cells := Memory.writeBytes x.cells off bs
           poison := match poison with | some m => x.poison.putAll ws m | none => x.poison.dropAll whole
           soft := x.soft.filter fun w => !whole.contains w }
/-- A consumed error in a tile: 0x55 when injected, else 0x54 (R188, R328). -/
def Image.tileError (i : Image) : Option Cause := match i.error with | some .injected => some .injected | some _ => some .tileError | none => none
/-- The core and the granule of its store that hold a byte of a tile (R82). -/
def Tile.place (x : Tile) (o off : Nat) : Nat × Nat :=
  let g := off / 1024
  if x.level then (o / 4 * 4 + (o + g) % 4, x.base + g / 4) else (o, x.base + g)
/-- A read of a tile's bytes corrects the words with one bit error, with their records (R345). -/
def correctTile (t h off n : Nat) (s : State) : State :=
  match teamTile s (some t) h, s.team t with
  | some x, some tm =>
    let found := x.soft.filter (wordsOf off n).contains
    if found.isEmpty then s
    else
      found.foldl (fun s w => let (c, g) := x.place tm.core (8 * w); coreEvent c 2 0 (BitVec.ofNat 64 g) (some (.granule c g)) s)
        (s.modTile t h fun y => { y with soft := y.soft.filter fun w => !found.contains w })
  | _, _ => s
/-- The record of a consumed error in a tile (R347, R349). -/
def tileRecord (t : Nat) (x : Tile) (i : Image) (who : DWord) (s : State) : State :=
  match i.poison, s.team t with
  | (w, m) :: _, some tm =>
    let (c, g) := x.place tm.core (8 * w)
    errorEvent (unitOf c) ⟨2, 2, m.inj, 0, c, BitVec.ofNat 64 g, who, s.cycle⟩ (some (.granule c g)) 0 s
  | _, _ => s

/-! ## TLD and TST (R189, R199): they reach the tile at issue, and count in TOPS until they land -/

/-- The cause of one lane's tile offset: 0x22 before 0x25. -/
def tileCause (x : Tile) (n off : Nat) : Option Cause :=
  if off % n ≠ 0 then some .misaligned else if off + n > x.size then some .tileBounds else none
def firstTileCause (x : Tile) (n : Nat) (offs : List Nat) : Option (Cause × DWord) :=
  offs.findSome? fun o => (tileCause x n o).map fun c => (c, BitVec.ofNat 64 o)
/-- The offset of a lane. -/
def tileOff (c : Core) (p : Ply) (a : VReg) (l : Nat) : Nat := (regWord c p a l).toNat
/-- Goes on with the tile when the lanes' accesses raise nothing and the hasp is THREAD. -/
def onTile (s : State) (p : Ply) (h n : Nat) (offs : List Nat) (go : Nat → Tile → Res) : Res :=
  match tileTeam s s.cur p, teamTile s (tileTeam s s.cur p) h with
  | some t, some x =>
    (match firstTileCause x n offs with
     | some (c, va) => .before s c va 0
     | none => if haspWaits s s.cur p t h x then .stall else go t x)
  | _, _ => .before s .tileHandle (BitVec.ofNat 64 (offs.headD 0)) 0

def execTld (d a : VReg) (h : BitVec 8) (z : Size) (x : Bool) (s : State) : Out :=
  perform {} (encode (.tld d a h z x)) s fun p =>
    let n := z.bytes
    let rs := regList d (regCount n)
    gated s p [(a, p.lanes)] (rs.map fun r => (r, p.lanes)) fun c =>
      if p.lanes.isEmpty then .next s
      else onTile s p h.toNat n (p.lanes.map (tileOff c p a)) fun t tile =>
        if (prepareRegs c p p.lanes rs).isNone then rowWait s p
        else
          let s := p.lanes.foldl (fun s l => correctTile t h.toNat (tileOff c p a l) n s) s
          let im := fun l => tile.read (tileOff c p a l) n
          match p.lanes.findSome? fun l => (im l).tileError.map fun e => (e, im l) with
          | some (e, i) => .before (tileRecord t tile i (plyid s.cur p) s) e 0 0
          | none =>
            match prepareRegs (s.core (coreOf s.cur)) p p.lanes rs with
            | none => rowWait s p
            | some (y, p') =>
              let ps := fillAll (p.lanes.map fun l => (l, loadWords z x (im l).value)) (piecesFor p' rs p.lanes)
              let f := { Flight.issue s s.cur p false with tops := true, rows := pieceRows ps, pieces := ps }
              .next (takeRows s.cur p' (s.setCore (coreOf s.cur) { y with loads := y.loads ++ [f] })).bump
def execTst (d a : VReg) (h : BitVec 8) (z : Size) (s : State) : Out :=
  perform {} (encode (.tst d a h z)) s fun p =>
    let n := z.bytes
    let rs := regList d (regCount n)
    gatedData s p a rs fun c =>
      if p.lanes.isEmpty then .next s
      else onTile s p h.toNat n (p.lanes.map (tileOff c p a)) fun t tile =>
        .next (enterStore (coreOf s.cur) { Flight.issue s s.cur p false with tops := true }
          (s.setTile t h.toNat (p.lanes.foldl (fun x l =>
            x.write (tileOff c p a l) ((wordsBytes (laneData c p rs l)).take n) (if anyPoison c p rs l then some .memory else none)) tile)))

/-! ## Tensor records (R85, R223) -/

/-- The element size of a format in half bytes; none for a code that a record may not hold. -/
def elemHalves (fmt : Nat) : Option Nat :=
  match fmt with
  | 0 | 1 | 6 => some 4 | 2 | 3 | 5 => some 2 | 4 => some 1 | 7 => some 8 | 8 => some 16 | 9 => some 24 | _ => none
/-- The record that 64 bytes hold, when they pass the checks of Table 5-3. -/
def parseRecord (bs : List Byte) : Option TensorRec :=
  let base := leBytes bs 0 8
  let w := leBytes bs 8 4
  let rank := w / 16 % 8
  let dim := fun j => leBytes bs (12 + 2 * j) 2
  let stride := fun j => leBytes bs (24 + 8 * j) 8
  match elemHalves (w % 16) with
  | none => none
  | some e =>
    let size := max 1 (e / 2)
    if base / 2 ^ 57 ≠ 0 || base % size ≠ 0 || rank = 0 || rank > 5 || w / 256 ≠ 0 || leBytes bs 22 2 ≠ 0 || leBytes bs 56 8 ≠ 0
      || (List.range 5).any (fun j => rank ≤ j && dim j ≠ 0)
      || (List.range 4).any (fun j => stride j / 2 ^ 57 ≠ 0 || stride j % size ≠ 0 || (rank ≤ j + 1 && stride j ≠ 0))
      || (w % 16 = 4 && dim 0 % 2 = 0)
    then none
    else some ⟨BitVec.ofNat 64 base, BitVec.ofNat 4 w, BitVec.ofNat 3 rank, w / 128 % 2 = 1,
               Vector.ofFn fun j => BitVec.ofNat 16 (dim j), Vector.ofFn fun j => BitVec.ofNat 64 (stride j)⟩
/-- A read of n bytes for TBIND, CBLD and PBIND, which hold the ply until it has arrived (R223, R224, R230); with 63 loads outstanding it waits at issue (R339). -/
def fetchBytes (s : State) (p : Ply) (n : Nat) (va : DWord) (go : State → List Byte → Res) : Res :=
  if loadsOut s s.cur p ≥ 63 then .stall
  else reachOne s p { need := .read, bytes := n } va fun s x =>
    let (i, s) := plainRead (coreOf s.cur) (viewer s.cur p).tenant x.at_ n .allocate (hintL2 .normal x s)
    match i.error with
    | some c => memPoison s p i c va
    | none => go s i.bytes
def execTbind (d : TReg) (a : SReg) (g : Guard) (s : State) : Out :=
  guarded {} (encode (.tbind d a g)) g s fun p =>
    fetchBytes s p 64 (p.sreg a) fun s bs =>
      match parseRecord bs with
      | none => .before s .tensorRecord (p.sreg a) 0
      | some r => .next (s.modPly s.cur fun q => { q with a := { q.a with t := q.a.t.set d.toNat (some r) d.isLt } })
def execCbld (d : CbReg) (a : SReg) (g : Guard) (s : State) : Out :=
  guarded {} (encode (.cbld d a g)) g s fun p =>
    fetchBytes s p 32 (p.sreg a) fun s bs =>
      .next (s.modPly s.cur fun q =>
        { q with a := { q.a with cb := q.a.cb.set d.toNat (some (Vector.ofFn fun j => BitVec.ofNat 16 (leBytes bs (2 * j) 2))) d.isLt } })

/-! ## B-shares (R225) -/

/-- The members of a declaration: their slots, bases and plies; none when it is not valid. -/
def shareOf (s : State) (k : Nat) (p : Ply) (slots bases : DWord) : Option Share :=
  let sl := (List.range 4).map fun q => field slots (8 * q) 8
  let ba := (List.range 4).map fun q => field bases (8 * q) 8
  let qs := sl.filterMap fun n => if n < 63 then s.ply (agentKey (coreOf k) n) else none
  let ok := field slots 32 32 = 0 && field bases 32 32 = 0 && sl.all (· < 64) && ba.all (· < 64) && qs.length = 4
    && qs.all (fun q => q.ident.team == p.ident.team && q.ident.run == p.ident.run && q.width ≤ 16)
    && ((qs.map (·.width)).eraseDups.length == 1)
    && (List.range 4).all fun q => homeLane (agentKey (coreOf k) (sl.getD q 0)) ((qs.map (·.width)).headD 8) / 16 == q
  if ok then some ⟨sl, ba, (qs.map (·.width)).headD 8, qs.map (·.uid)⟩ else none
def execBshr (d : BitVec 4) (a b : SReg) (g : Guard) (s : State) : Out :=
  guarded {} (encode (.bshr d a b g)) g s fun p =>
    match shareOf s s.cur p (p.sreg a) (p.sreg b) with
    | none => .before s .formatBlock 0 0
    | some x => .next (if p.mode = 0 then s.modTeam p.ident.team fun t => { t with shares := t.shares.put d.toNat x } else s)

end Sys2Proof.Machine
end

