-- ==== Sys2Proof/Machine/Engines.lean ====
section
/-! DEFINITION. Machine/Engines.lean: the copy engine (chapter 13: R83, R84, R110, R226 to R229) and the order of the engine
operations on a tile. -/
namespace Sys2Proof.Machine

/-! ## The bytes of tiles that engine operations use (R84, R206) -/

/-- N and K of a shape code (Table 7-23). -/
def matDims (shape : Nat) : Nat × Nat :=
  match shape with
  | 0 | 16 | 20 => (8, 16) | 1 => (16, 16) | 2 => (32, 16) | 3 => (64, 16)
  | 4 | 8 | 17 | 21 => (8, 32) | 5 | 9 | 18 => (16, 32) | 6 | 10 => (32, 32) | 11 => (64, 32)
  | 12 | 19 => (8, 64) | 13 => (16, 64) | _ => (8, 16)
/-- The bytes of B (Table 12-3). -/
def matBBytes (shape bf : Nat) : Nat := (matDims shape).1 * (matDims shape).2 * (elemHalves bf).getD 4 / 2

/-- A use of tile bytes. -/
structure TileUse where
  team : Nat
  tile : Nat
  lo : Nat
  len : Nat
  write : Bool
  deriving DecidableEq, Repr
def TileUse.meets (a b : TileUse) : Bool :=
  a.team == b.team && a.tile == b.tile && (a.write || b.write) && a.lo < b.lo + b.len && b.lo < a.lo + a.len
def copyUses (s : State) (x : Copy) : List TileUse :=
  let size := fun h => match teamTile s (some x.team) h with | some t => t.size | none => 0
  match x.kind with
  | .cpyin | .fill => [⟨x.team, x.tile, 0, size x.tile, true⟩]
  | .cpyout => [⟨x.team, x.tile, 0, size x.tile, false⟩]
  | .tile => [⟨x.team, x.source, 0, size x.source, false⟩, ⟨x.team, x.tile, x.offset, size x.source, true⟩]
def matUses (m : MatOp) : List TileUse :=
  (match m.bTile with | some (t, o) => [⟨m.team, t, o, matBBytes m.shape m.bf, false⟩] | none => [])
  ++ (match m.aScale with | some (t, o, nb) => [⟨m.team, t, o, 128 * nb, false⟩] | none => [])
  ++ (match m.bScale with | some (t, o, nb) => [⟨m.team, t, o, 2 * nb * (matDims m.shape).1, false⟩] | none => [])
/-- An earlier operation of the core that has not ended overlaps uses of operation `seq`, and one of the two writes: the
later one waits (R84). Only what the context ply issues (`context`) passes the operations of a frozen engine (R340). -/
def tileHeld (s : State) (core seq : Nat) (context : Bool) (us : List TileUse) : Bool :=
  let c := s.core core
  let mats := if c.frozen then (if context then [] else c.mats ++ c.saved.flatMap SavedOctet.live) else c.mats
  (c.copies.any fun x => x.seq < seq && (copyUses s x).any fun u => us.any u.meets)
  || mats.any fun m => m.seq < seq && (matUses m).any fun u => us.any u.meets

/-- EOPS rises and the hasp goes to ENGINE (R83). -/
def Tile.take (x : Tile) : Tile := { x with eops := x.eops + 1, hasp := true }
/-- EOPS falls; at 0 the hasp returns to THREAD. -/
def Tile.giveBack (x : Tile) : Tile := { x with eops := x.eops - 1, hasp := x.eops > 1 }
def takeTiles (t : Nat) (hs : List Nat) (s : State) : State := hs.foldl (fun s h => s.modTile t h Tile.take) s
def releaseTiles (t : Nat) (hs : List Nat) (s : State) : State := hs.foldl (fun s h => s.modTile t h Tile.giveBack) s
/-- A tile has no room in EOPS (R83); the context ply ignores it for a frozen operation's tile (R340). -/
def eopsFull (s : State) (core : Nat) (context : Bool) (t : Nat) (hs : List Nat) : Bool :=
  hs.any fun h => match teamTile s (some t) h with
    | some x => x.eops ≥ 255 && !(context && frozenNames s core t h) | none => false

/-! ## Where a copy's rows lie in memory (R85, R226) -/

def TensorRec.halves (r : TensorRec) : Nat := (elemHalves r.fmt.toNat).getD 8
def TensorRec.dim (r : TensorRec) (j : Nat) : Nat := (r.dimm1.toList.getD j 0).toNat + 1
def TensorRec.strideOf (r : TensorRec) (j : Nat) : DWord := r.stride.toList.getD (j - 1) 0
def coord (w : DWord) (j : Nat) : Nat := field w (16 * j) 16
/-- The bytes of a tile row that hold elements; the rest is its tail. -/
def TensorRec.rowFull (r : TensorRec) (b : Nat) : Nat := b * 2 / r.halves * r.halves / 2
/-- The bytes of a tile row whose elements lie inside the dimensions. -/
def TensorRec.rowIn (r : TensorRec) (w : DWord) (b row : Nat) : Nat :=
  if coord w 1 + row < r.dim 1 && coord w 2 < r.dim 2 && coord w 3 < r.dim 3 then
    min (b * 2 / r.halves) (r.dim 0 - coord w 0) * r.halves / 2
  else 0
/-- The address of the first element of a tile row. -/
def TensorRec.rowVa (r : TensorRec) (w : DWord) (row : Nat) : DWord :=
  r.base + BitVec.ofNat 64 (coord w 0 * r.halves / 2) + BitVec.ofNat 64 (coord w 1 + row) * r.strideOf 1
    + BitVec.ofNat 64 (coord w 2) * r.strideOf 2 + BitVec.ofNat 64 (coord w 3) * r.strideOf 3

/-! ## Blocks (R227) -/

/-- The length of the block that starts at a tile offset: it crosses no tile row and no line of memory. -/
def blockLen (x : Copy) (tile src : Tile) (off : Nat) : Nat :=
  match x.kind, x.record with
  | .cpyin, some r | .cpyout, some r =>
    let b := tile.rowBytes
    let o := off % b
    let inside := r.rowIn x.coords b (off / b)
    if o < inside then min (inside - o) (128 - (r.rowVa x.coords (off / b) + BitVec.ofNat 64 o).toNat % 128)
    else if o < r.rowFull b then min (r.rowFull b - o) 128
    else min (b - o) 128
  | .tile, _ => min 128 (min (src.rowBytes - off % src.rowBytes) (tile.rowBytes - (x.offset + off) % tile.rowBytes))
  | _, _ => min 128 (tile.rowBytes - off % tile.rowBytes)
/-- The blocks of a copy from an offset on, by the offset of their first byte. -/
def blocksFrom (x : Copy) (tile src : Tile) (total : Nat) : Nat → Nat → List Nat
  | 0, _ => []
  | fuel + 1, off => if off ≥ total then [] else off :: blocksFrom x tile src total fuel (off + blockLen x tile src off)

/-! ## Completion registers (R54) -/

/-- A completion register reaches zero: its yielded ply becomes Ready, and its interrupt becomes pending. -/
def reachZero (k : Nat) (c : CReg) (s : State) : State :=
  s.modPly k fun p =>
    let p := if p.a.uictl.getLsbD (16 + c.toNat) then { p with pendCopy := setBitTo p.pendCopy c.toNat true } else p
    match p.wait with
    | .copy c' whole =>
      if c' = c && p.state == .yielded then (if whole then p.wakeDone else p.wakeAgain) else p
    | _ => p
/-- A landed block subtracts its bytes. -/
def landBytes (k uid : Nat) (c : CReg) (n : Nat) (s : State) : State :=
  match s.live k uid with
  | none => s
  | some p =>
    let old := p.creg c
    let new := old - BitVec.ofNat 64 n
    let s := s.setPly k (p.setC c new)
    if old.toInt ≤ 0 || new.toInt > 0 then s else reachZero k c s

/-! ## The life of a copy -/

/-- The tiles that a copy names. -/
def Copy.tiles (x : Copy) : List Nat := if x.kind = .tile then [x.source, x.tile] else [x.tile]
def modCopy (core seq : Nat) (f : Copy → Copy) (s : State) : State :=
  s.modCore core fun c => { c with copies := c.copies.map fun x => if x.seq = seq then f x else x }
/-- A copy ends: its count and its tiles are released, before its register can reach zero (R83). -/
def endCopy (core : Nat) (x : Copy) (s : State) : State :=
  releaseTiles x.team x.tiles (s.modCore core fun c => { c with copies := c.copies.filter (·.seq != x.seq) })
/-- A copy stops (R228): its ply takes the cause at its next issue boundary, as a before cause of the copy. -/
def stopCopy (core : Nat) (x : Copy) (cause : Cause) (va : DWord) (s : State) : State :=
  let s := endCopy core x s
  match s.live x.ply x.uid with
  | some p => s.setPly x.ply { p with deferred := p.deferred ++ [⟨cause, x.pc, va, 0, false⟩] }
  | none => s
/-- Withdraws a copy from the merge tables (R322). -/
def unwaitCopy (core seq : Nat) (s : State) : State := unwaitWaiter (.copy core seq) s

/-- The tensor walk engine translates through the quad's walk-ahead TLB (R86, R321). -/
def translateWalk (v : Viewer) (va : DWord) (need : Need) (s : State) : Trans × State :=
  if v.phys then (if va.toNat / 2 ^ 52 = 0 then (.ok va.toNat 0 0, s) else (.cause .protection, s))
  else if va.toNat / 2 ^ 57 ≠ 0 then (.cause .protection, s)
  else lookup (walkAheadTlb (quadOf v.core)) (dieOfCore v.core) v.tenant v.space va.toNat need s

/-- What an attempt to land a block does. -/
inductive Landing where
  | landed (s : State)
  | held (level : Nat) (va : DWord) (s : State)
  | stop (c : Cause) (va : DWord) (s : State)
  | fault (f : Fault)

/-- The access of a block to memory: n bytes at an address. -/
def blockAccess (x : Copy) (va : DWord) (need : Need) (n : Nat) (s : State) (go : Nat → State → Landing) : Landing :=
  match translateWalk x.who va need s with
  | (.cause c, s) => .stop c va s
  | (.absent level, s) => .held level va s
  | (.ok pa _ _, s) =>
    let a := placeOf s.io pa
    match accessCheck s x.who.requester a n with
    | .cause c => .stop c va s
    | .fault f => .fault f
    | .ok => go a s

/-- Moves the bytes of one block. What CPYOUT writes leaves no copy in its core's L1 (R110). -/
def landBlock (core : Nat) (x : Copy) (tile src : Tile) (off n : Nat) (s : State) : Landing :=
  let who := match s.live x.ply x.uid with | some p => plyid x.ply p | none => 0
  let put := fun (o : Nat) (bs : List Byte) (s : State) => Landing.landed (s.modTile x.team x.tile fun t => t.write o bs none)
  match x.kind, x.record with
  | .cpyin, some r =>
    let b := tile.rowBytes
    let o := off % b
    if o < r.rowIn x.coords b (off / b) then
      let va := r.rowVa x.coords (off / b) + BitVec.ofNat 64 o
      blockAccess x va .read n s fun a s =>
        let (i, s) := homeRead core x.who.tenant a n s
        match i.error with
        | some c => .stop c va (consumeRecord i who s)
        | none => put off i.bytes s
    else if o < r.rowFull b then put off (List.replicate n 0) s
    else .landed s
  | .cpyout, some r =>
    let b := tile.rowBytes
    let o := off % b
    if o < r.rowIn x.coords b (off / b) then
      let va := r.rowVa x.coords (off / b) + BitVec.ofNat 64 o
      blockAccess x va .write n (correctTile x.team x.tile off n s) fun a s =>
        let i := tile.read off n
        match i.tileError with
        | some c => .stop c va (tileRecord x.team tile i who s)
        | none =>
          .landed (match targetAt s.io a with
            | .register o => ioWrite x.ply o i.bytes s
            | _ => dropL1 core (lineOf a) <| homeWrite core ⟨va, 0, a, i.bytes, none⟩ (touchPlace .normal a <| if x.run = 0 then s else noteWrote x.team a n s))
    else .landed s
  | .tile, _ =>
    let s := correctTile x.team x.source off n s
    let i := src.read off n
    (match i.tileError with
     | some c => .stop c 0 (tileRecord x.team src i who s)
     | none => put (x.offset + off) i.bytes s)
  | _, _ => put off ((List.range n).map fun j => (bytesLE x.fillWord.toNat 4).getD ((off + j) % 4) 0) s

/-- A copy waits for a page (R228, R322), or stops with 0x20 while the die's fault records are off (R323). -/
def holdCopy (core : Nat) (x : Copy) (level : Nat) (va : DWord) (s : State) : State :=
  let d := dieOfCore core
  if x.who.tenant = none || !s.hyp.flten.getLsbD d then stopCopy core x .pageFault va s
  else
    mergeMiss d x.who.space (va.toNat / 4096) level (if x.kind = .cpyin then 4 else 5) 0 x.who.tenant (genOf s x.who.space) (.copy core x.seq)
      (modCopy core x.seq (fun y => { y with held := true }) s)

/-- Lands one block of a copy. -/
def copyBlock (core : Nat) (x : Copy) (off : Nat) (s : State) : Except Fault State :=
  match teamTile s (some x.team) x.tile with
  | none => .ok (stopCopy core x .tileHandle 0 s)
  | some tile =>
    let src := (teamTile s (some x.team) x.source).getD tile
    let n := blockLen x tile src off
    match landBlock core x tile src off n s with
    | .fault f => .error f
    | .stop c va s => .ok (stopCopy core x c va s)
    | .held level va s => .ok (holdCopy core x level va s)
    | .landed s =>
      let left := x.left.filter (· != off)
      let s := if left.isEmpty then endCopy core x s else modCopy core x.seq (fun y => { y with left := left, stale := y.stale.drop off }) s
      .ok (landBytes x.ply x.uid x.cr n s)

/-! ## Issue (R220, R226, R227) -/

/-- The element rows of a copy that lie outside the dimensions (R226). -/
def copyOutside (r : TensorRec) (w : DWord) (tile : Tile) : Bool :=
  (List.range (tile.rowsM1 + 1)).any fun row => r.rowIn w tile.rowBytes row < r.rowFull tile.rowBytes
/-- The cause of a tensor copy's slot and coordinates. -/
def tensorCause (r : Option TensorRec) (w : DWord) (tile : Tile) : Option Cause :=
  match r with
  | none => some .tensorRecord
  | some r =>
    if (r.fmt == 4 && coord w 0 % 2 == 1) || (r.oob && copyOutside r w tile) then some .tensorRecord else none
/-- Which copies a role may issue (R32, R220). -/
def copyRole (kind : CopyKind) (role : BitVec 2) : Bool := role == 0 || (role == 1 && kind == .cpyin) || (role == 3 && kind == .cpyout)

/-- Issues a copy whose causes have been checked: what came before has landed or is performed at home first (R110). -/
def issueCopy (i : Instr) (y : Bool) (s : State) (p : Ply) (x : Copy) (tile src : Tile) : Res :=
  let k := s.cur
  let c := coreOf k
  if copiesOut s k p ≥ 31 || eopsFull s c (p.mode != 0) x.team x.tiles then .stall
  else
    let total := if x.kind = .tile then src.size else tile.size
    let x := { x with left := blocksFrom x tile src total total 0 }
    let s := takeTiles x.team x.tiles (pushCore c (landLoads k s))
    let s := (s.modCore c fun z => { z with copies := z.copies ++ [x] }).bump
    if y && (p.creg x.cr).toInt > 0 then
      .stay (s.modPly k fun q =>
        { q.complete closing (encode i) (q.a.pc + lengthOf (encode i)) with state := .yielded, wait := .copy x.cr false })
    else .next s
/-- A copy as it issues. -/
def newCopy (s : State) (p : Ply) (kind : CopyKind) (t h : Nat) (cr : CReg) : Copy :=
  { seq := s.seq, uid := p.uid, ply := s.cur, run := p.ident.run, kind := kind, team := t, tile := h, source := h, offset := 0
    fillWord := 0, record := none, coords := 0, cr := cr, pc := p.a.pc, who := viewer s.cur p, left := [], held := false, stale := [] }
/-- A copy instruction: 0x05 first, then 0x24 for its tile (R226). -/
def copyForm (i : Instr) (kind : CopyKind) (h : Nat) (s : State) (go : Ply → Nat → Tile → Res) : Out :=
  perform closing (encode i) s fun p =>
    if !copyRole kind p.a.role then .before s .role 0 0
    else match tileTeam s s.cur p, teamTile s (tileTeam s s.cur p) h with
      | some t, some x => go p t x
      | _, _ => .before s .tileHandle 0 0
/-- CPYIN and CPYOUT. -/
def tensorCopy (i : Instr) (kind : CopyKind) (h : BitVec 8) (t : TReg) (cb : SReg) (cr : CReg) (y : Bool) (s : State) : Out :=
  copyForm i kind h.toNat s fun p tm tile =>
    let r := p.a.t[t.toNat]'t.isLt
    match tensorCause r (p.sreg cb) tile with
    | some c => .before s c 0 0
    | none => issueCopy i y s p { newCopy s p kind tm h.toNat cr with record := r, coords := p.sreg cb } tile tile

def execCpyin (h : BitVec 8) (t : TReg) (cb : SReg) (cr : CReg) (y : Bool) (s : State) : Out :=
  tensorCopy (.cpyin h t cb cr y) .cpyin h t cb cr y s
def execCpyout (h : BitVec 8) (t : TReg) (cb : SReg) (cr : CReg) (y : Bool) (s : State) : Out :=
  tensorCopy (.cpyout h t cb cr y) .cpyout h t cb cr y s
def execCpytt (h : BitVec 8) (cb : SReg) (cr : CReg) (y : Bool) (s : State) : Out :=
  copyForm (.cpytt h cb cr y) .tile h.toNat s fun p tm tile =>
    let w := p.sreg cb
    let sh := field w 0 8
    match teamTile s (some tm) sh with
    | none => .before s .tileHandle 0 0
    | some src =>
      if field w 8 24 ≠ 0 || sh = h.toNat then .before s .tileHandle 0 0
      else if field w 32 32 + src.size > tile.size then .before s .tileBounds 0 0
      else issueCopy (.cpytt h cb cr y) y s p { newCopy s p .tile tm h.toNat cr with source := sh, offset := field w 32 32 } tile src
def execCpyfill (h : BitVec 8) (cb : SReg) (cr : CReg) (y : Bool) (s : State) : Out :=
  copyForm (.cpyfill h cb cr y) .fill h.toNat s fun p tm tile =>
    if field (p.sreg cb) 32 32 ≠ 0 then .before s .tileHandle 0 0
    else issueCopy (.cpyfill h cb cr y) y s p { newCopy s p .fill tm h.toNat cr with fillWord := (p.sreg cb).setWidth 32 } tile tile

/-! ## The engine's own steps (R227, R228) -/

/-- The core and the copy of an issue number. -/
def findCopy (s : State) (seq : Nat) : Option (Nat × Copy) :=
  s.cores.findSome? fun (c, x) => (x.copies.find? (·.seq == seq)).map fun y => (c, y)
/-- A block of a copy lands, meets a page that is not present, or stops the copy. -/
def execCopyBlockLand (seq block : Nat) (s : State) : Out :=
  match findCopy s seq with
  | none => .refused .notEnabled
  | some (c, x) =>
    if x.held || !x.left.contains block || tileHeld s c seq (x.run == 0) (copyUses s x) then .refused .notEnabled
    else match copyBlock c x block s with | .ok s => .next s | .error f => .fault f
/-- The state in which one left block meets a cause. -/
def blockStop (s : State) (core : Nat) (x : Copy) (c : Cause) (off : Nat) : Option State :=
  match teamTile s (some x.team) x.tile with
  | none => none
  | some tile =>
    let src := (teamTile s (some x.team) x.source).getD tile
    (match landBlock core x tile src off (blockLen x tile src off) s with | .stop c' _ s => if c' = c then some s else none | _ => none)
/-- The address that a block of a copy accesses in memory. -/
def blockVa (x : Copy) (tile : Tile) (off : Nat) : Option DWord :=
  match x.kind, x.record with
  | .cpyin, some r | .cpyout, some r =>
    let b := tile.rowBytes
    if off % b < r.rowIn x.coords b (off / b) then some (r.rowVa x.coords (off / b) + BitVec.ofNat 64 (off % b)) else none
  | _, _ => none
/-- The pages ahead of a copy's next block, in the order of its blocks: at most 8 (R321). -/
def pagesAhead (s : State) (x : Copy) : List Nat :=
  match teamTile s (some x.team) x.tile with
  | none => []
  | some tile =>
    match ((x.left.filterMap (blockVa x tile)).map fun va => va.toNat / 4096).eraseDups with
    | [] => []
    | _ :: rest => rest.take 8
/-- The tensor walk engine walks one of the pages ahead of a copy's next block: a leaf is installed in the quad's walk-ahead
TLB, and a page that is not present records nothing (R321). -/
def execPageWalk (core seq ahead : Nat) (s : State) : Out :=
  match (s.core core).copies.find? (·.seq == seq) with
  | none => .refused .notEnabled
  | some x =>
    match (pagesAhead s x)[ahead]? with
    | none => .refused .notEnabled
    | some page =>
      if x.who.phys then .refused .notEnabled
      else .next (translateWalk x.who (BitVec.ofNat 64 (4096 * page)) (if x.kind = .cpyin then .read else .write) s).2

/-- A copy stops on a cause that one of its blocks meets, with the records that the block makes (R228, R347). -/
def execCopyStop (seq : Nat) (c : Cause) (s : State) : Out :=
  match findCopy s seq with
  | none => .refused .notEnabled
  | some (core, x) =>
    match (if x.held then none else x.left.findSome? (blockStop s core x c)) with
    | some s => .next (stopCopy core x c 0 (unwaitCopy core seq s))
    | none => .refused .notEnabled

end Sys2Proof.Machine
end

