-- ==== Sys2Proof/Machine/Press.lean ====
section
/-! DEFINITION. Machine/Press.lean: presses (R30 to R33, R230, R231, R327), GIVE and CLAIM (R232), and how a ply leaves its
slot (R42, R244). -/
namespace Sys2Proof.Machine

/-! ## The press (R30, R31) -/

/-- The team of a ply. A context ply or a service core has none (log entry 33). -/
def ownTeam (s : State) (p : Ply) : Option Team := if p.mode = 0 then s.team p.ident.team else none
def pressOf (s : State) (p : Ply) (n : Nat) : Option Press := (ownTeam s p).bind fun t => t.presses.find n

def Press.tumbler (x : Press) (j : Nat) : Nat := x.tumblers.getD j 0
def Press.handedBack (x : Press) (j : Nat) : NSet := x.back.getD j []
def Press.broken (x : Press) : Bool := !x.brokenSlots.isEmpty
/-- A stage is ready (R30, R33). -/
def Press.ready (x : Press) (j : Nat) : Bool :=
  !(x.handedBack j).isEmpty ||
  (if j = 0 then x.tumbler 0 < x.n && x.tumbler 0 < x.tumbler (x.nst - 1) + x.depth else x.tumbler j < x.tumbler (j - 1))
/-- Every ticket has been drawn and none is handed back. -/
def Press.finished (x : Press) : Bool := x.tumbler (x.nst - 1) == x.n && x.back.all (·.isEmpty)
/-- The dispatcher's choice: store before compute before load, and of one role the later stage (R30). -/
def Press.choice (x : Press) : Option Nat :=
  (List.range x.nst).foldl (fun b j =>
    if !x.ready j then b
    else match b with
      | none => some j
      | some i => if (x.roles.getD i 0).toNat ≤ (x.roles.getD j 0).toNat then some j else some i) none

/-- What PTKT finds. -/
inductive Draw where
  | broken
  | finished
  | ticket (stage t : Nat) (x : Press)
  | wait
/-- The press after a draw from a stage. -/
def Press.draw (x : Press) (j : Nat) : Nat × Press :=
  match x.handedBack j with
  | t :: rest => (t, { x with back := x.back.set j rest })
  | [] => (x.tumbler j, { x with tumblers := x.tumblers.set j (x.tumbler j + 1) })
def Press.judge (x : Press) : Draw :=
  if x.broken then .broken
  else if x.finished then .finished
  else match x.choice with
    | some j => .ticket j (x.draw j).1 (x.draw j).2
    | none => .wait

/-- The phase bit of a stage at a slot. -/
def Press.phase (x : Press) (j slot : Nat) : Bool := (x.phases.getD j []).getD slot false
def ticketSlot (x : Press) (t : Nat) : Nat := t % x.depth
def ticketPhase (x : Press) (t : Nat) : Bool := t / x.depth % 2 == 1
/-- How a PWAIT by a holder ends: q0, or nothing yet (R31, R33). -/
def Press.waited (x : Press) (h : Held) : Option Bool :=
  let slot := ticketSlot x h.ticket
  if x.brokenSlots.contains slot then some false
  else if h.stage = 0 then
    (if h.ticket < x.depth || x.phase (x.nst - 1) slot == ticketPhase x h.ticket then some true else none)
  else if x.phase (h.stage - 1) slot != ticketPhase x h.ticket then some true else none

def State.setPress (s : State) (t n : Nat) (x : Press) : State := s.modTeam t fun y => { y with presses := y.presses.put n x }
/-- The ticket that a ply holds of press n. -/
def heldOf (p : Ply) (n : Nat) (x : Press) : Option Held :=
  p.held.filter fun h => h.team == p.ident.team && h.press == n && h.binding == x.binding
def Ply.setRole (p : Ply) (r : BitVec 2) : Ply := { p with a := { p.a with role := r } }

/-- A ply parked on press n is judged again after a change of the press: a PTKT runs again when it would not park, and a
PWAIT completes when it ends, with q0 = 0 when its binding is gone (R230). -/
def settlePressOf (n : Nat) (x : Press) (p : Ply) : Ply :=
  match p.wait with
  | .ptkt m => if m.toNat = n then (match x.judge with | .wait => p | _ => p.wakeAgain) else p
  | .pwait m =>
    if m.toNat = n then
      (match heldOf p n x with
       | none => (p.setQ 0 false).wakeDone
       | some h => (match x.waited h with | some b => (p.setQ 0 b).wakeDone | none => p))
    else p
  | _ => p
def settlePress (t n : Nat) (s : State) : State :=
  match (s.team t).bind fun y => y.presses.find n with
  | none => s
  | some x => { s with plies := s.plies.mapVals fun _ p => if p.mode = 0 && p.ident.team == t then settlePressOf n x p else p }

/-! ## Leaving a slot (R33, R42, R244) -/

/-- The slot of a press ring breaks: its holder left with the ticket (R33). -/
def breakSlot (h : Held) (t : Nat) (s : State) : State :=
  match (s.team t).bind fun y => y.presses.find h.press with
  | none => s
  | some x =>
    if x.binding ≠ h.binding then s
    else settlePress t h.press (s.setPress t h.press { x with brokenSlots := x.brokenSlots.add (ticketSlot x h.ticket) })

/-- The old values of a ply's atomics have nowhere to land in the rows that it no longer holds. -/
def Core.forgetRows (c : Core) (uid : Nat) : Core :=
  { c with stores := c.stores.map fun f =>
      if f.uid = uid then { f with rows := f.rows.filter c.rows.mem, pieces := f.pieces.filter fun x => c.rows.mem x.row } else f }

/-- A ply leaves its slot: its rows are released, its ticket breaks its slot, its watch, arm and waits end (R42, R244).
What a QPUSHL has still to push is pushed, and the H registers stay with the slot. -/
def freeSlot (k : Nat) (s : State) : State :=
  match s.ply k with
  | none => s
  | some p =>
    let s := match p.wait with
      | .push die x kind left => left.foldl (fun s e => sendOrHold ⟨p.uid, die, k, p.ident.run, viewer k p, x, kind, e⟩ s) s
      | _ => s
    let s := disarm k (withdraw k s)
    let s := (s.releaseMap (coreOf k) p.a.rows).modCore (coreOf k) fun c => { c.forgetRows p.uid with halts := c.halts.put (slotOf k) p.halt }
    let s := { s with plies := s.plies.drop k }
    let s := if p.mode = 0 then s.modTeam p.ident.team fun t => { t with shares := t.shares.sift fun _ x => !x.uids.contains p.uid } else s
    match p.held with | some h => breakSlot h p.ident.team s | none => s

/-! ## PBIND (R230) -/

/-- The press that a descriptor describes (Table 13-4). -/
def parsePress (bs : List Byte) (binding : Nat) : Option Press :=
  let w := leBytes bs 0 4
  let nst := w % 8
  let depth := w / 256 % 32
  let role := fun j => w / 2 ^ (16 + 2 * j) % 4
  let n := leBytes bs 4 4
  if nst < 2 || nst > 4 || depth < 1 || depth > 16 || n = 0 || w / 8 % 32 ≠ 0 || w / 2 ^ 13 % 8 ≠ 0 || w / 2 ^ 24 ≠ 0
    || (bs.drop 8).any (· != 0) || (List.range 4).any (fun j => (role j == 0) != (nst ≤ j))
  then none
  else some { nst := nst, depth := depth, roles := (List.range nst).map fun j => BitVec.ofNat 2 (role j), n := n
              tumblers := List.replicate nst 0, phases := List.replicate nst (List.replicate depth false)
              brokenSlots := [], back := List.replicate nst [], binding := binding }
/-- Every ticket of a press that a ply holds is cancelled, and the ply's ROLE becomes 0. -/
def cancelTickets (t n : Nat) (s : State) : State :=
  { s with plies := s.plies.mapVals fun _ p =>
      if p.mode = 0 && p.ident.team == t && p.held.any (·.press == n) then { p.setRole 0 with held := none } else p }
def execPbind (n : BitVec 3) (a : SReg) (g : Guard) (s : State) : Out :=
  guarded closing (encode (.pbind n a g)) g s fun p =>
    fetchBytes s p 64 (p.sreg a) fun s bs =>
      match ownTeam s p with
      | none => .before s .pressUnbound 0 0
      | some t =>
        match parsePress bs (t.binding + 1) with
        | none => .before s .pressUnbound 0 0
        | some x =>
          let tk := p.ident.team
          .next (settlePress tk n.toNat (cancelTickets tk n.toNat
            (s.modTeam tk fun y => { y with binding := y.binding + 1, presses := y.presses.put n.toNat x })))

/-! ## Tickets (R30 to R33, R231) -/

/-- PTKT. 0x41 comes first, then 0x42, and only then what a broken or a finished press answers (log entry 111). -/
def execPtkt (n : BitVec 3) (g : Guard) (s : State) : Out :=
  guarded closing (encode (.ptkt n g)) g s fun p =>
    match pressOf s p n.toNat with
    | none => .before s .pressUnbound 0 0
    | some x =>
      if p.held.isSome then .before s .ticket 0 0
      else match x.judge with
        | .broken => .next (s.setPly s.cur ((p.setRole 0).setQ 0 false))
        | .finished => .next (s.setPly s.cur ((p.setRole 0).setQ 0 true))
        | .wait => .park s .parked (.ptkt n)
        | .ticket j t x' =>
          let q := { p with
            held := some ⟨p.ident.team, n.toNat, j, t, x.binding⟩
            a := { p.a with role := x.roles.getD j 0, ticket := BitVec.ofNat 32 t
                            slotIx := BitVec.ofNat 4 (ticketSlot x t), phase := ticketPhase x t } }
          .next (settlePress p.ident.team n.toNat ((s.setPly s.cur (q.setQ 0 true)).setPress p.ident.team n.toNat x'))
/-- A word that needs a held ticket of press n: 0x41 when it is not bound, 0x42 when the ply holds none of it (R31). -/
def heldForm (ws : List (BitVec 32)) (n : BitVec 3) (g : Guard) (s : State) (go : Ply → Press → Held → Res) : Out :=
  guarded closing ws g s fun p =>
    match pressOf s p n.toNat with
    | none => .before s .pressUnbound 0 0
    | some x => match heldOf p n.toNat x with | none => .before s .ticket 0 0 | some h => go p x h
/-- The holder gives its ticket up: ROLE 0 (R32). -/
def Ply.dropTicket (p : Ply) : Ply := { p.setRole 0 with held := none }
/-- PDONE. The accesses before it are performed at core scope before another ply's PWAIT completes (R277). -/
def execPdone (n : BitVec 3) (g : Guard) (s : State) : Out :=
  heldForm (encode (.pdone n g)) n g s fun p x h =>
    let slot := ticketSlot x h.ticket
    if x.brokenSlots.contains slot then .before s .pressBroken 0 0
    else
      let bits := x.phases.getD h.stage []
      let x' := { x with phases := x.phases.set h.stage (bits.set slot (!bits.getD slot false)) }
      .next (settlePress p.ident.team n.toNat (((release s.cur .core s).setPly s.cur p.dropTicket).setPress p.ident.team n.toNat x'))
def execPwait (n : BitVec 3) (g : Guard) (s : State) : Out :=
  heldForm (encode (.pwait n g)) n g s fun p x h =>
    match x.waited h with
    | some b => .next (s.setPly s.cur (p.setQ 0 b))
    | none => .park s .parked (.pwait n)
def execPquit (n : BitVec 3) (g : Guard) (s : State) : Out :=
  heldForm (encode (.pquit n g)) n g s fun p x h =>
    let x' := { x with back := x.back.set h.stage ((x.handedBack h.stage).add h.ticket) }
    .next (settlePress p.ident.team n.toNat ((s.setPly s.cur p.dropTicket).setPress p.ident.team n.toNat x'))

/-! ## GIVE and CLAIM (R232) -/

/-- The registers from vN to v63. -/
def regsFrom (d : VReg) : List VReg := (List.range (64 - d.toNat)).map (nthReg d)
def execGive (d : VReg) (g : Guard) (s : State) : Out :=
  guarded closing (encode (.give d g)) g s fun p =>
    let c := s.core (coreOf s.cur)
    let rs := regsFrom d
    if rs.any fun r => (entryRows (p.entry r)).any fun n => c.pending n || c.locked n then .stall
    else
      let gone := asMap ((List.range 64).map fun j => if d.toNat ≤ j then p.a.rows.toList.getD j .zero else .zero)
      .next ((s.releaseMap (coreOf s.cur) gone).setPly s.cur (rs.foldl (fun q r => q.setEntry r .given) p))
/-- Maps zero-filled rows to registers, all of them or none. -/
def claimAll (c : Core) (p : Ply) : List VReg → Option (Core × Ply)
  | [] => some (c, p)
  | r :: rs =>
    match c.allocZero (p.width / 8) with
    | some (ns, c') => claimAll c' (p.setEntry r (.mapped ns)) rs
    | none => none
def execClaim (d : VReg) (g : Guard) (s : State) : Out :=
  guarded closing (encode (.claim d g)) g s fun p =>
    match claimAll (s.core (coreOf s.cur)) p ((regsFrom d).filter fun r => p.entry r == .given) with
    | some (c, q) => .next ((s.setCore (coreOf s.cur) c).setPly s.cur q)
    | none => rowWait s p

end Sys2Proof.Machine
end

