-- ==== Sys2Proof/Machine/Barrier.lean ====
section
/-! DEFINITION. Machine/Barrier.lean: named barriers (R238 to R240, R278 to R280) and the pod barrier network's end (R239). -/
namespace Sys2Proof.Machine

/-! ## Where a barrier lies (R238) -/

/-- The instance of a scope that an agent of a core is in (R7, R8). -/
def scopeInstance (e : Scope) (core : Nat) : Nat :=
  match e with | .core => core | .quad => quadOf core | .die => dieOfCore core | _ => 0
/-- The key of a barrier wider than core in its run. -/
def barKey (id : BitVec 4) (e : Scope) (inst : Nat) : Nat := id.toNat + 16 * e.bits.toNat + 128 * inst
def Barrier.start : Barrier := ⟨0, 0, 0⟩
/-- A barrier: at core scope its team's, else its run's; none for an agent without a team (log entry 33). -/
def getBar (s : State) (p : Ply) (core : Nat) (id : BitVec 4) (e : Scope) : Option Barrier :=
  match ownTeam s p with
  | none => none
  | some t =>
    if e = .core then some (t.bars.getD id.toNat Barrier.start)
    else (s.run p.ident.run).map fun r => r.bars.getD (barKey id e (scopeInstance e core)) Barrier.start
def setBar (s : State) (p : Ply) (core : Nat) (id : BitVec 4) (e : Scope) (b : Barrier) : State :=
  if e = .core then s.modTeam p.ident.team fun t => { t with bars := t.bars.put id.toNat b }
  else s.modRun p.ident.run fun r => { r with bars := r.bars.put (barKey id e (scopeInstance e core)) b }

/-! ## Phases (R239) -/

/-- Phase `n` has completed when PH is at `ph`: (PH - n) mod 2^32 lies in 1 to 2^31. -/
def phaseDone (ph n : BitVec 32) : Bool := 1 ≤ (ph - n).toNat && (ph - n).toNat ≤ 2 ^ 31
/-- A wait on a barrier completes: an acquire at its scope, BARW writes PH, and the arrived mark clears. -/
def wakeBar (k : Nat) (e : Scope) (ph : BitVec 32) (d : Option SReg) (s : State) : State :=
  acquire (coreOf k) e (s.modPly k fun p =>
    let p := match d with | some r => p.setS r (ph.setWidth 64) | none => p
    { p.wakeDone with barMark := .none })
/-- The waiters of a barrier whose phase has completed become Ready, in ascending order. -/
def settleBar (run team : Nat) (id : BitVec 4) (e : Scope) (inst : Nat) (ph : BitVec 32) (s : State) : State :=
  s.plies.keys.foldl (fun s k =>
    match s.ply k with
    | none => s
    | some p =>
      match p.wait with
      | .barrier id' e' n d =>
        if p.mode = 0 && p.ident.run == run && id' == id && e' == e && scopeInstance e (coreOf k) == inst
          && (e != .core || p.ident.team == team) && phaseDone ph n
        then wakeBar k e ph d s else s
      | _ => s) s

/-- What an arrival does to a barrier: none raises 0x43. -/
def Barrier.arrive (b : Barrier) (count : Nat) : Option Barrier :=
  if b.cnt ≠ 0 ∧ count ≠ b.exp then none
  else if b.cnt + 1 = count then some ⟨b.ph + 1, 0, count⟩
  else some ⟨b.ph, b.cnt + 1, count⟩

/-- The count that an arrival expects: the team default, or s[A] (R239); none raises 0x43. -/
def expected (s : State) (p : Ply) (e : Scope) (a : SReg) : Option Nat :=
  let n := if a = 0 then (if e = .core then (s.run p.ident.run).map (·.desc.plies) else none) else some (p.sreg a).toNat
  n.filter fun n => 1 ≤ n && n ≤ 65535

/-- An arrival of the acting ply: the state after it, and whether it completed its phase. -/
def arriveBar (s : State) (p : Ply) (id : BitVec 4) (e : Scope) (a d : SReg) : Option (State × BitVec 32 × Bool) :=
  let core := coreOf s.cur
  match getBar s p core id e, expected s p e a with
  | some b, some n =>
    (match b.arrive n with
     | none => none
     | some b' =>
       let q := { p.setS d (b.ph.setWidth 64) with barMark := .none }
       let s := setBar ((release s.cur e s).setPly s.cur q) p core id e b'
       let s := if e = .pod && s.io.podOn then
           { s with outbox := s.outbox ++ [.podBarrier p.ident.run id (if b'.ph = b.ph then .arrival n else .complete)] } else s
       some (settleBar p.ident.run p.ident.team id e (scopeInstance e core) b'.ph s, b.ph, b'.ph ≠ b.ph))
  | _, _ => none

def execBara (id : BitVec 4) (e : Scope) (a d : SReg) (g : Guard) (s : State) : Out :=
  guarded closing (encode (.bara id e a d g)) g s fun p =>
    match arriveBar s p id e a d with
    | none => .before s .barrierCount 0 0
    | some (s, _, _) => .next s
/-- A BARAW waits on a phase, with its arrived mark (R240). -/
def waitBar (s : State) (id : BitVec 4) (e : Scope) (phase : BitVec 32) : Res :=
  .park (s.modPly s.cur fun q => { q with barMark := ⟨true, id, e.bits, phase, q.inUi⟩ }) .parked (.barrier id e phase none)
/-- It completes at once. -/
def doneBar (s : State) (e : Scope) : Res :=
  .next (acquire (coreOf s.cur) e (s.modPly s.cur fun q => { q with barMark := .none }))
/-- A BARAW that an interrupt or a pre-emption made the ply abandon after it arrived: one of a user handler is another one than one that
the interrupt made the ply abandon (log entry 64). -/
def arrivedBefore (p : Ply) (id : BitVec 4) (e : Scope) : Bool :=
  p.barMark.valid && p.barMark.inUi == p.inUi && p.barMark.id == id && p.barMark.scope == e.bits
def execBaraw (id : BitVec 4) (e : Scope) (a d : SReg) (g : Guard) (s : State) : Out :=
  guarded closing (encode (.baraw id e a d g)) g s fun p =>
    if arrivedBefore p id e then
      let phase : BitVec 32 := (p.sreg d).setWidth 32
      match getBar s p (coreOf s.cur) id e with
      | none => .before s .barrierCount 0 0
      | some b => if phaseDone b.ph phase then doneBar s e else waitBar s id e phase
    else
      match arriveBar s p id e a d with
      | none => .before s .barrierCount 0 0
      | some (s, phase, done) => if done then doneBar s e else waitBar s id e phase
def execBarw (id : BitVec 4) (e : Scope) (d : SReg) (g : Guard) (s : State) : Out :=
  guarded closing (encode (.barw id e d g)) g s fun p =>
    let phase : BitVec 32 := (p.sreg d).setWidth 32
    match getBar s p (coreOf s.cur) id e with
    | none => .before s .barrierCount 0 0
    | some b =>
      let s := s.setPly s.cur { p with barMark := .none }
      if phaseDone b.ph phase then
        .next (acquire (coreOf s.cur) e (s.modPly s.cur fun q => q.setS d (b.ph.setWidth 64)))
      else .park s .parked (.barrier id e phase (some d))

/-! ## The pod barrier network (R239) -/

/-- A message from another package of the pod: an arrival with its count, or the completion of the phase (log entry 34). -/
def execPodBarrierMessage (run : Nat) (id : BitVec 4) (m : PodBarrier) (s : State) : Out :=
  match s.run run with
  | none => .refused .notEnabled
  | some r =>
    let key := barKey id .pod 0
    let b := r.bars.getD key Barrier.start
    let put := fun (b' : Barrier) =>
      settleBar run 0 id .pod 0 b'.ph (s.setRun run { r with bars := r.bars.put key b' })
    if !s.io.podOn then .refused .notEnabled
    else match m with
      | .arrival n =>
        (match (if 1 ≤ n && n ≤ 65535 then b.arrive n else none) with
         | some b' => .next (put b')
         | none => .refused .notEnabled)
      | .complete => if b.cnt = 0 then .refused .notEnabled else .next (put ⟨b.ph + 1, 0, b.exp⟩)

end Sys2Proof.Machine
end

