-- ==== Sys2Proof/Machine/Control.lean ====
section
/-! DEFINITION. Machine/Control.lean: branches, calls and divergence (R27, R116, R143 to R147). -/
namespace Sys2Proof.Machine

/-- A control-transfer instruction is not fed to the watermark (R133, R260). -/
def transfer : WordKind := { fed := false }
/-- A PC-relative target: the instruction's address plus 4 times the offset (R115). -/
def target4 {n : Nat} (pc : Pc) (o : BitVec n) : Pc := pc + (o.signExtend 57 <<< 2)
/-- The link register takes PC + 4 (R143). -/
def Ply.link (p : Ply) : Ply := p.setS 63 ((p.a.pc + 4).setWidth 64)
/-- A branch to a register's value: 0x22 before 0x21 (R116). -/
def branchTo (s : State) (v : DWord) (p : Ply) : Res :=
  if v.extractLsb' 0 2 ≠ 0 then .before s .misaligned v 0
  else if v.extractLsb' 57 7 ≠ 0 then .before s .protection v 0
  else .jump (s.setPly s.cur p) (v.setWidth 57)

def execBra (o : BitVec 21) (g : Guard) (s : State) : Out :=
  guarded transfer (encode (.bra o g)) g s fun p => .jump s (target4 p.a.pc o)
def execCall (o : BitVec 21) (g : Guard) (s : State) : Out :=
  guarded transfer (encode (.call o g)) g s fun p => .jump (s.setPly s.cur p.link) (target4 p.a.pc o)
def execBrx (a : SReg) (g : Guard) (s : State) : Out :=
  guarded transfer (encode (.brx a g)) g s fun p => branchTo s (p.sreg a) p
def execCallx (a : SReg) (g : Guard) (s : State) : Out :=
  guarded transfer (encode (.callx a g)) g s fun p => branchTo s (p.sreg a) p.link
def execRet (a : SReg) (g : Guard) (s : State) : Out :=
  guarded transfer (encode (.ret a g)) g s fun p => branchTo s (p.sreg a) p

/-- The lanes that a BRV sends to its target. -/
def takenLanes (p : Ply) (n : Bool) (pr : PReg) : DWord := p.a.em &&& (if n then ~~~p.preg pr else p.preg pr)
/-- BRV (R27, R145): it has no guard. -/
def execBrv (o : BitVec 21) (n : Bool) (pr : PReg) (s : State) : Out :=
  perform transfer (encode (.brv o n pr)) s fun p =>
    let t := takenLanes p n pr
    let f := p.a.em &&& ~~~t
    if t ≠ 0 ∧ f ≠ 0 then
      if p.a.knuckles.length ≥ 16 then .before s .reconverge 0 0
      else
        .jump (s.setPly s.cur { p with a := { p.a with em := t, knuckles := ⟨f, p.a.pc + 4⟩ :: p.a.knuckles } })
          (target4 p.a.pc o)
    else if t ≠ 0 then .jump s (target4 p.a.pc o)
    else .next s
/-- KPIN (R27, R146). -/
def execKpin (k : KReg) (o : BitVec 18) (g : Guard) (s : State) : Out :=
  guarded {} (encode (.kpin k o g)) g s fun p =>
    .next (s.setPly s.cur (p.setPin k ⟨true, false, p.a.em, target4 p.a.pc o, 0, BitVec.ofNat 5 p.a.knuckles.length⟩))
/-- KMEET (R27, R147). The top of the knuckle stack is the head of its list. -/
def execKmeet (k : KReg) (g : Guard) (s : State) : Out :=
  guarded transfer (encode (.kmeet k g)) g s fun p =>
    let x := p.pin k
    let am := x.am ||| p.a.em
    if !x.valid || x.outer then .before s .reconverge 0 0
    else if p.a.knuckles.length > x.sd.toNat then
      match p.a.knuckles with
      | top :: rest =>
        .jump (s.setPly s.cur ({ p with a := { p.a with em := top.mask, knuckles := rest } }.setPin k { x with am := am })) top.pc
      | [] => .before s .reconverge 0 0
    else if am ≠ x.rm then .before s .reconverge 0 0
    else
      .jump (s.setPly s.cur
        (({ p with a := { p.a with em := x.rm } }.setPin k { x with am := am, valid := false }).maskHash k x.rm)) x.jp

end Sys2Proof.Machine
end

