-- ==== Sys2Proof/Machine/Queue.lean ====
section
/-! DEFINITION. Machine/Queue.lean: the queue engines (R34, R35, R233 to R237, R281 to R283, R299, R309, R310): the queue
instructions, the mailbox forms, and the engine's own steps. -/
namespace Sys2Proof.Machine

/-! ## Queue operations of a ply -/

/-- A queue operation of the acting ply: its descriptor translates like a lane access (R154, R233; 0x27 on a replicated page,
R92), and a bad one raises 0x45. -/
def queueOp (s : State) (p : Ply) (va : DWord) (go : State → Nat → Queue → Res) : Res :=
  reachOne s p { need := .read, bytes := 64, reach := .atomic } va fun s x =>
    match loadQueue (some (coreOf s.cur)) (viewer s.cur p).tenant x.at_ (queueKind s x.at_) s with
    | (.error i c, s) => memPoison s p i c va
    | (.bad, s) => .before s .queueBad va 0
    | (.ok q, s) =>
      let q := q.usedBy s p.ident.run
      go { s with queues := s.queues.put x.at_ q } x.at_ q
/-- A mailbox operation: ring s[A], whose entry and RING are physical (R299). It reaches the die of the entry, or raises 0x47 (R313). -/
def ringOp (s : State) (p : Ply) (k : DWord) (go : State → Nat → Queue → Res) : Res :=
  if k.toNat / 64 ≠ 0 then .before s .queueBad 0 0
  else
    let x := ringPlace s k.toNat
    if linkDown s (viewer s.cur p).requester.die (dieOfPa x) then .before s .linkLoss 0 0
    else match loadQueue (some (coreOf s.cur)) (viewer s.cur p).tenant x (.ring k.toNat) s with
    | (.error i c, s) => memPoison s p i c 0
    | (.bad, s) => .before s .queueBad 0 0
    | (.ok q, s) => go s x q
/-- Reaches an entry of a queue: at its physical address, or through the operator's translation (R233). -/
def reachEntry (s : State) (p : Ply) (q : Queue) (need : Need) (i : DWord) (go : State → Nat → Res) : Res :=
  if q.kind.physical then go s (placeOf s.io (q.entryVa i).toNat)
  else reachOne s p { need := need, bytes := 32, reach := .atomic } (q.entryVa i) fun s x => go s x.at_
/-- Reaches n entries from the oldest on. -/
def reachEntries (s : State) (p : Ply) (q : Queue) (need : Need) : Nat → DWord → List Nat → (State → List Nat → Res) → Res
  | 0, _, xs, go => go s xs.reverse
  | n + 1, i, xs, go => reachEntry s p q need i fun s x => reachEntries s p q need n (i + 1) (x :: xs) go
/-- Takes the oldest entry into s[D..D+3], an acquire at package scope (R104). -/
def popOne (s : State) (p : Ply) (x : Nat) (q : Queue) (d : SReg) (upd : Ply → Ply) (drop : Bool) : Res :=
  reachEntry s p q .read q.head fun s a =>
    let c := coreOf s.cur
    let (i, s) := homeRead c (viewer s.cur p).tenant a 32 s
    match i.error with
    | some cause => memPoison s p i cause (q.entryVa q.head)
    | none =>
      let s := if drop then acquire c .package (putQueue x (q.pop 1) s) else s
      .next (s.modPly s.cur fun p => upd (p.setEntry4 d (entryWords i.bytes)))
/-- The acting ply parks on a queue, last among its waiters (R34). -/
def parkOnQueue (s : State) (p : Ply) (x : Nat) (q : Queue) (d : SReg) (mbox : Bool) : Res :=
  let q' := dropWaiter s.cur p.uid q
  .park (putQueue x { q' with waiters := q'.waiters ++ [⟨s.cur, p.uid⟩] } s) .parked (.queue x d mbox)

def execQpop (d a : SReg) (g : Guard) (s : State) : Out :=
  guarded closing (encode (.qpop d a g)) g s fun p =>
    queueOp s p (p.sreg a) fun s x q =>
      if q.count = 0 then parkOnQueue s p x q d false else popOne s p x q d id true
def execQpopt (d a : SReg) (g : Guard) (s : State) : Out :=
  guarded closing (encode (.qpopt d a g)) g s fun p =>
    queueOp s p (p.sreg a) fun s x q =>
      if q.count = 0 then .next (s.modPly s.cur fun p => { p.setQ 0 false with watched := some (x, p.sreg a) })
      else popOne s p x q d (fun p => { p.setQ 0 true with watched := none }) true
def execQcnt (d a : SReg) (g : Guard) (s : State) : Out :=
  guarded {} (encode (.qcnt d a g)) g s fun p =>
    queueOp s p (p.sreg a) fun s _ q => .next (s.modPly s.cur fun p => p.setS d (q.tail - q.head))

/-- Reads entries one after another. -/
def readEntries (c : Nat) (tenant : Option (BitVec 4)) : List Nat → State → List Image × State
  | [], s => ([], s)
  | x :: xs, s =>
    let (i, s) := homeRead c tenant x 32 s
    let (is, s) := readEntries c tenant xs s
    (i :: is, s)
/-- The pieces of popped entries: word j of entry n goes to v[D+j] of the n-th receiving lane. -/
def entryPieces (p : Ply) (rs : List VReg) (got : List Nat) (is : List Image) : List Piece :=
  rs.zipIdx.flatMap fun (r, j) => got.zipIdx.filterMap fun (l, n) =>
    (rowOf (p.entry r) l).map fun row => ⟨row, l, BitVec.ofNat 32 (leBytes ((is.map (·.bytes)).getD n []) (4 * j) 4), false⟩
/-- QPOPL pops an entry for each lane while the queue holds one, in lane order; the rows stay pending until the entries land
(R34, R50, R235, R283). Only the lanes that receive an entry need rows (R47); while these are short, it has no effect (R48). -/
def execQpopl (d : VReg) (a : SReg) (b : PReg) (g : Guard) (s : State) : Out :=
  guarded closing (encode (.qpopl d a b g)) g s fun p =>
    let m := p.a.em &&& p.preg b
    let ls := lanesOf m
    let rs := regList d 8
    if ls.isEmpty then .next s
    else gated s p [] (rs.map fun r => (r, ls)) fun _ =>
      queueOp s p (p.sreg a) fun u x q =>
        let got := ls.take q.count
        if got.isEmpty then .next (u.modPly u.cur fun p => p.setP b m 0)
        else if (prepareRegs (u.core (coreOf u.cur)) p got rs).isNone then rowWait s p
        else reachEntries u p q .read got.length q.head [] fun u xs =>
            let c := coreOf u.cur
            let (is, t) := readEntries c (viewer u.cur p).tenant xs u
            match is.findSome? fun i => i.error.map fun e => (i, e) with
            | some (i, e) => memPoison t p i e (q.entryVa q.head)
            | none =>
              match prepareRegs (t.core c) p got rs with
              | none => rowWait s p
              | some (y, p') =>
                let ps := entryPieces p' rs got is
                let f := { Flight.issue t t.cur p false with rows := pieceRows ps, pieces := ps }
                let t := (takeRows t.cur p' (t.setCore c { y with loads := y.loads ++ [f] })).bump
                .next ((acquire c .package (putQueue x (q.pop got.length) t)).modPly t.cur fun p => p.setP b m (maskOf got))

/-! ## Pushes (R35, R236, R281) -/

/-- The entries of a window to a queue that have not been taken. -/
def sentTo (s : State) (sender x : Nat) : Nat :=
  (s.windows.filter (·.sender == sender)).foldl (fun n w => n + (w.entries.filter fun e => e.desc == x && !e.taken).length) 0
/-- Enters entries in a ply's window while it has room; what is left waits. -/
def enterAll (sender die ply run : Nat) (who : Viewer) (x : Nat) (kind : QueueKind) : List (List DWord) → State → List (List DWord) × State
  | [], s => ([], s)
  | e :: es, s =>
    if windowRoom s sender die = 0 then (e :: es, s)
    else enterAll sender die ply run who x kind es (windowPush sender die ply run who x kind e s)
/-- The plies that are parked on a queue: the entries that reach it go to them first. -/
def parkedOn (s : State) (x : Nat) (q : Queue) : Nat :=
  (q.waiters.filter fun w => match s.live w.ply w.uid with | some p => (match p.wait with | .queue y _ _ => y == x | _ => false) | none => false).length
/-- Pushes entries of the acting ply: a release at package scope. The entries that parked plies will take need no place in the
ring; the others need one (R233). What the window has no room for waits, and holds the ply (R236, R281). -/
def pushEntries (s : State) (p : Ply) (x : Nat) (q : Queue) (es : List (List DWord)) (upd : Ply → Ply) : Res :=
  let k := s.cur
  let go := fun (s : State) =>
    let (left, s) := enterAll p.uid (dieOfPa x) k p.ident.run (viewer k p) x q.kind es (release k .package s)
    let s := s.modPly k upd
    if left.isEmpty then Res.next s else .park s .ready (.push (dieOfPa x) x q.kind left)
  let sent := sentTo s p.uid x
  let first := max sent (parkedOn s x q)
  if q.kind.physical then go s
  else reachEntries s p q .write (sent + es.length - first) (q.tail + BitVec.ofNat 64 first) [] fun s _ => go s
def entry4 (p : Ply) (d : SReg) : List DWord := (List.range 4).map fun j => p.sreg (d + BitVec.ofNat 6 j)

def execQpush (d a : SReg) (g : Guard) (s : State) : Out :=
  guarded closing (encode (.qpush d a g)) g s fun p =>
    queueOp s p (p.sreg a) fun s' x q => if windowRoom s p.uid (dieOfPa x) = 0 then .stall else pushEntries s' p x q [entry4 p d] id
/-- QPUSHL reads its registers in every active lane (R281). -/
def execQpushl (d : VReg) (a : SReg) (b : PReg) (g : Guard) (s : State) : Out :=
  guarded closing (encode (.qpushl d a b g)) g s fun p =>
    let rs := regList d 8
    gated s p (rs.map fun r => (r, p.lanes)) [] fun c =>
      let es := (lanesOf (p.a.em &&& p.preg b)).map fun l =>
        entryWords (wordsBytes (rs.map fun r => regWord c p r l))
      if es.isEmpty then .next s
      else queueOp s p (p.sreg a) fun s x q => pushEntries s p x q es id

/-! ## Mailbox rings (R289, R299) -/

def execMboxSend (d a : SReg) (g : Guard) (s : State) : Out :=
  guarded {} [uWord 0x3E d a 0 0 g] g s fun p =>
    ringOp s p (p.sreg a) fun s' x q =>
      if windowRoom s p.uid (dieOfPa x) = 0 then .stall else pushEntries s' p x q [entry4 p d] fun p => p.setQ 0 true
def execMboxRecv (d a : SReg) (g : Guard) (s : State) : Out :=
  guarded {} [uWord 0x3E d a 0 1 g] g s fun p =>
    ringOp s p (p.sreg a) fun s x q =>
      if q.count = 0 then parkOnQueue s p x q d true else popOne s p x q d (fun p => p.setQ 0 true) true
def execMboxPeek (d a : SReg) (g : Guard) (s : State) : Out :=
  guarded {} [uWord 0x3E d a 0 2 g] g s fun p =>
    ringOp s p (p.sreg a) fun s x q =>
      if q.count = 0 then .next (s.modPly s.cur fun p => p.setQ 0 false)
      else popOne s p x q d (fun p => p.setQ 0 true) false

/-! ## The engine's own steps (R34, R35, R309) -/

/-- The oldest entry on its way in a window reaches the engine: it is dropped while an earlier one is awaited, handed over,
stored, or dropped because the queue is full (R35). -/
def execQueueEntryArrival (sender desc : Nat) (s : State) : Out :=
  match findWindow s sender (dieOfPa desc) with
  | none => .refused .notEnabled
  | some w =>
    match w.entries.find? (·.flying) with
    | none => .refused .notEnabled
    | some e =>
      if w.awaited.any (· != e.seq) then .next (setWindow (modPending e.seq (fun e => { e with flying := false }) w) s)
      else
        match arrivalOf s w e with
        | .waits => .refused .notEnabled
        | .full =>
          .next (setWindow { modPending e.seq (fun e => { e with flying := false, dropped := true }) w with awaited := some e.seq } s)
        | .taken s =>
          .next (setWindow { modPending e.seq (fun e => { e with flying := false, taken := true }) w with awaited := none } s)
/-- The negative acknowledgement returns: the sender starts its back-off. -/
def execQueueNack (sender desc : Nat) (s : State) : Out :=
  match findWindow s sender (dieOfPa desc) with
  | none => .refused .notEnabled
  | some w =>
    if !(w.entries.any (·.dropped)) then .refused .notEnabled
    else .next (setWindow { w with entries := w.entries.map fun e => { e with dropped := false }, backoff := true } s)
/-- The back-off ends: the sender sends its window again, in order. -/
def execQueueBackoff (sender desc : Nat) (s : State) : Out :=
  match findWindow s sender (dieOfPa desc) with
  | none => .refused .notEnabled
  | some w =>
    if !w.backoff then .refused .notEnabled
    else .next (setWindow { w with entries := w.entries.map fun e => { e with flying := !e.taken }, backoff := false } s)
/-- Entries of a QPUSHL that waited enter the window, and the ply goes on when none is left (R281). -/
def enterWaiting (k uid : Nat) (s : State) : State :=
  match s.live k uid with
  | none => s
  | some p =>
    match p.wait with
    | .push die x kind left =>
      let (rest, s) := enterAll uid die k p.ident.run (viewer k p) x kind left s
      s.modPly k fun p => if rest.isEmpty then p.wakeDone else { p with wait := .push die x kind rest }
    | _ => s
def dropWindow (w : Window) (s : State) : State :=
  { s with windows := s.windows.filter fun x => !(x.sender == w.sender && x.die == w.die) }
/-- An acknowledgement makes room in the window (R236). An empty window is forgotten. -/
def execQueueAck (sender desc : Nat) (s : State) : Out :=
  match findWindow s sender (dieOfPa desc) with
  | none => .refused .notEnabled
  | some w =>
    match w.entries with
    | [] => .refused .notEnabled
    | e :: rest =>
      if !e.taken then .refused .notEnabled
      else
        let w' := { w with entries := rest }
        .next (enterWaiting w.ply w.sender (sendHeld w.sender w.die 8 (if rest.isEmpty then dropWindow w s else setWindow w' s)))

end Sys2Proof.Machine
end

