-- ==== Sys2Proof/Machine/Latch.lean ====
section
/-! DEFINITION. Machine/Latch.lean: the latch table (R241, R242, R363, R364), and the words of major 0x2E (R36, R243 to
R245). -/
namespace Sys2Proof.Machine

/-! ## The table (R241) -/

/-- The key of an entry: a tenant's space of keys, or the one of the privileged agents (16), and the address. -/
def latchKeyOf (tenant : Option (BitVec 4)) (va : DWord) : Nat :=
  (match tenant with | some t => t.toNat | none => 16) * 2 ^ 57 + va.toNat % 2 ^ 57
/-- The oldest armed ply whose UICTL.ELW is 1 (R241). -/
def armedPly (s : State) : List Nat → Option Nat
  | [] => none
  | k :: ks =>
    match s.ply k with
    | some p => if p.a.uictl.getLsbD 0 then some k else armedPly s ks
    | none => armedPly s ks
/-- LWAKE on an entry: the oldest waiter becomes Ready; with none, `.int` interrupts the oldest armed ply; else COUNT rises. -/
def wakeLatch (key : Nat) (int : Bool) (s : State) : State :=
  let l := s.latch key
  match l.waiters with
  | .ply k :: rest => acquire (coreOf k) .system ((s.putLatch key { l with waiters := rest }).modPly k Ply.wakeDone)
  | .host vf n :: rest =>
    let s := s.putLatch key { l with waiters := rest }
    let i := vf * 64 + n
    { s with
      io := { s.io with waiters := match s.io.waiters.find i with
        | some w => s.io.waiters.put i { w with status := 2 } | none => s.io.waiters }
      outbox := s.outbox ++ [.latchSeen vf n] }
  | [] =>
    match (if int then armedPly s l.armed else none) with
    | some k =>
      (s.putLatch key { l with armed := l.armed.filter (· != k) }).modPly k fun p => { p with armed := none, pendLwake := true }
    | none => countLatch key s
/-- An LWAKE that the part makes, of the distributor or of a lease: it waits when it needs a new entry of a full table (R241,
R314, R370). -/
def unitWake (key : Nat) (s : State) : State := if latchFull s key then { s with wakes := s.wakes ++ [key] } else wakeLatch key false s

/-- A latch word: 0x22 before 0x21, no translation, and R113 for its system scope (R241, R242). DESIGN CHOICE: a clamped LWAIT that parks
sets %scopestat[0] as it parks, and it stays set if the wait is abandoned (log entry 122). -/
def latchForm (ws : List (BitVec 32)) (a : SReg) (g : Guard) (s : State) (go : State → Ply → Nat → Res) : Out :=
  guarded closing ws g s fun p =>
    match addrCause 8 [p.sreg a] with
    | some (c, va) => .before s c va 0
    | none =>
      let key := latchKeyOf p.ident.tenant (p.sreg a)
      if clampTraps p .system then .before s .clamped 0 0
      else if latchFull s key then .stall
      else go (noteClamp s.cur .system s) p key
/-- Takes one from COUNT: an acquire at system scope. -/
def takeCount (key : Nat) (s : State) : State :=
  acquire (coreOf s.cur) .system (s.putLatch key { s.latch key with count := (s.latch key).count - 1 })

def execLwait (a : SReg) (g : Guard) (s : State) : Out :=
  latchForm (encode (.lwait a g)) a g s fun s _ key =>
    if (s.latch key).count > 0 then .next (takeCount key s)
    else .park (s.putLatch key { s.latch key with waiters := (s.latch key).waiters ++ [.ply s.cur] }) .parked (.latch key)
def execLwaitArm (a : SReg) (g : Guard) (s : State) : Out :=
  latchForm (encode (.lwaitArm a g)) a g s fun s p key =>
    if (s.latch key).count > 0 then .next ((takeCount key s).modPly s.cur fun p => p.setQ 0 true)
    else
      let s := disarm s.cur s
      let s := s.putLatch key { s.latch key with armed := (s.latch key).armed ++ [s.cur] }
      .next (s.modPly s.cur fun q => { q.setQ 0 false with armed := some (p.sreg a) })
/-- LWAKE and its form with an interrupt: a release at system scope. -/
def lwakeForm (ws : List (BitVec 32)) (a : SReg) (g : Guard) (int : Bool) (s : State) : Out :=
  latchForm ws a g s fun s _ key => .next (wakeLatch key int (release s.cur .system s))
def execLwake (a : SReg) (g : Guard) (s : State) : Out := lwakeForm (encode (.lwake a g)) a g false s
def execLwakeInt (a : SReg) (g : Guard) (s : State) : Out := lwakeForm (encode (.lwakeInt a g)) a g true s

/-! ## The latch aperture of a function (R360, R363, R364) -/

/-- A function's tenant, when it is usable: VFPOL.EN and VFWIN.EN (R360), through a port that the tenant holds (R359), and not
after a failed verification (R374). -/
def functionTenant (s : State) (vf : Nat) : Option (BitVec 4) :=
  let pol := s.hyp.vfpol.getD vf 0
  let t := pol.extractLsb' 0 4
  if vf < 64 && pol.getLsbD 4 && (s.io.vfwin.getD vf 0).getLsbD 12 && (s.hyp.tport.getD t.toNat 0).getLsbD 48
    && s.io.stage != 15 then some t else none
/-- A posted write of a source holds its later ones: one that carries Relaxed Ordering does not (R362). -/
def BusRequest.isWrite : BusRequest → Bool | .read _ => false | _ => true
def Inbound.holds (e : Inbound) (source : Nat) : Bool := e.source == source && BusRequest.isWrite e.req && !e.relaxed
/-- A write of a source is held that later ones wait for. -/
def writesAhead (s : State) (source : Nat) : Bool := s.io.inbound.any (·.holds source)
/-- A push of a function has not been acknowledged: it is an earlier posted write too (R361, R362). -/
def pushesAhead (s : State) (source : Nat) : Bool :=
  let mine := fun (x : Nat) => if source < 64 then x == source else source == 128 && 64 ≤ x && x < 128
  s.windows.any (fun w => mine w.sender && !w.entries.isEmpty) || s.unsent.any fun u => mine u.sender
/-- What a later write of a source waits for (R362). -/
def inboundAhead (s : State) (source : Nat) : Bool := writesAhead s source || pushesAhead s source
/-- A write of a function to its latch aperture: it is dropped when the function is not usable. -/
def aperture (vf : Nat) (s : State) (go : BitVec 4 → Out) : Out :=
  if vf ≥ 64 || !s.io.readyHost || inboundAhead s vf then .refused .notEnabled
  else match functionTenant s vf with
    | none => .next s
    | some t => go t

/-- A write of WAKE: k[0] says `.int`. DESIGN CHOICE: a write with k[2:1] or k[63:57] nonzero is dropped (log entry 80). -/
def execLatchWake (vf : Nat) (k : BitVec 64) (s : State) : Out :=
  aperture vf s fun t =>
    let key := latchKeyOf (some t) (k &&& ~~~7#64)
    if field k 1 2 ≠ 0 ∨ field k 57 7 ≠ 0 then .next s
    else if latchFull s key then .refused .notEnabled
    else .next (wakeLatch key (k.getLsbD 0) s)
def setWaiter (vf n : Nat) (w : HostWaiter) (s : State) : State :=
  { s with io := { s.io with
      waiters := if w.status = 0 then s.io.waiters.drop (vf * 64 + n) else s.io.waiters.put (vf * 64 + n) w
      keyq := if w.status = 0 then s.io.keyq.erase (vf * 64 + n) else s.io.keyq } }
def waiterOf (s : State) (vf n : Nat) : HostWaiter := s.io.waiters.getD (vf * 64 + n) ⟨0, 0⟩
/-- The entry that a host took the last count of is freed, and what waited for one enters. -/
def joined (s : State) : State := if s.latches.length < 4096 then admitWaiting s else s
/-- A write of KEY: waiter n of function vf takes one from COUNT or waits; a bad key gives STATUS 3. -/
def execLatchKey (vf n : Nat) (k : BitVec 64) (s : State) : Out :=
  aperture vf s fun t =>
    if n ≥ 63 then .refused .notEnabled
    else if (waiterOf s vf n).status ≠ 0 then .next s
    else if field k 0 3 ≠ 0 ∨ field k 57 7 ≠ 0 then .next (setWaiter vf n ⟨0, 3⟩ s)
    else
      let key := latchKeyOf (some t) k
      if latchFull s key then
        let s := setWaiter vf n ⟨BitVec.ofNat 64 key, 1⟩ s
        .next { s with io := { s.io with keyq := s.io.keyq ++ [vf * 64 + n] } }
      else .next (joined (joinLatch vf n key s))
/-- A write of 0 to STATUS: it frees the waiter, or withdraws its wait. -/
def execLatchStatus (vf n : Nat) (s : State) : Out :=
  aperture vf s fun _ =>
    if n ≥ 63 then .refused .notEnabled
    else
      let w := waiterOf s vf n
      let s := setWaiter vf n ⟨0, 0⟩ s
      if w.status = 1 then
        match s.latches.find w.key.toNat with
        | some l => .next (s.putLatch w.key.toNat { l with waiters := l.waiters.filter (· != .host vf n) })
        | none => .next s
      else .next s

/-! ## Major 0x2E (R36, R243 to R245) -/

def execNop (g : Guard) (s : State) : Out := guarded {} (encode (.nop g)) g s fun _ => .next s
def execYld (c : CReg) (g : Guard) (s : State) : Out :=
  guarded closing (encode (.yld c g)) g s fun p =>
    if (p.creg c).toInt ≤ 0 then .next s else .park s .yielded (.copy c true)
def execTrap (n : BitVec 4) (g : Guard) (s : State) : Out := guarded {} (encode (.trap n g)) g s fun _ => .after s (.trap n)
def execSysc (g : Guard) (s : State) : Out := guarded closing (encode (.sysc g)) g s fun _ => .after s .service
def execBrk (g : Guard) (s : State) : Out := guarded {} (encode (.brk g)) g s fun _ => .before s .brk 0 0
/-- IRET (R36): 0x44 when no interrupt is in progress, or the knuckle stack is not back at its depth at entry. -/
def execIret (g : Guard) (s : State) : Out :=
  guarded transfer (encode (.iret g)) g s fun p =>
    if !p.inUi || p.a.knuckles.length ≠ p.uiDepth then .before s .reconverge 0 0
    else .jump (s.setPly s.cur p.returnUser) (alignPc p.uiepc)

end Sys2Proof.Machine
end

