-- ==== Sys2Proof/Machine/Host.lean ====
section
/-! DEFINITION. Machine/Host.lean: what reaches the I/O die from outside: the host port, the inbound ordering point, the
drives and the other packages (R359 to R371). -/
namespace Sys2Proof.Machine

/-! ## A tenant's request at an I/O port (R359, R361) -/

/-- The bytes of an access that lie in one line, one list entry per line: the address and the number of bytes. -/
def linesOf : Nat → Nat → Nat → List (Nat × Nat)
  | 0, _, _ => []
  | fuel + 1, a, n => if n = 0 then [] else let m := min n (128 - a % 128); (a, m) :: linesOf fuel (a + m) (n - m)
def linesIn (a n : Nat) : List (Nat × Nat) := linesOf (n / 128 + 2) a n
/-- The place of n bytes of a line, or the level at which the page was not present (0 when the access is not permitted). -/
def busPlace (port : Nat) (t : BitVec 4) (space va n : Nat) (need : Need) (s : State) : Except Nat Nat × State :=
  match ioTranslate (some t) space va need s with
  | (.ok pa _ _, s) =>
    let x := placeOf s.io pa
    (if accessCheck s ⟨some t, port, dieOfPa x, false⟩ x n = .ok then .ok x else .error 0, s)
  | (.absent level, s) => (.error level, s)
  | (.cause _, s) => (.error 0, s)
/-- The places of every line, or the address and level of the first that fails. -/
def busPlaces (port : Nat) (t : BitVec 4) (space : Nat) (need : Need) : List (Nat × Nat) → State → Except (Nat × Nat) (List (Nat × Nat)) × State
  | [], s => (.ok [], s)
  | (va, n) :: ls, s =>
    match busPlace port t space va n need s with
    | (.error level, s) => (.error (va, level), s)
    | (.ok x, s) =>
      match busPlaces port t space need ls s with
      | (.ok xs, s) => (.ok ((x, n) :: xs), s)
      | (.error e, s) => (.error e, s)
/-- Reads places at home for an agent; the flag tells that a word was poisoned. -/
def readPlaces (tenant : Option (BitVec 4)) : List (Nat × Nat) → State → (List Byte × Bool) × State
  | [], s => (([], false), s)
  | (x, n) :: xs, s =>
    let (i, s) := placeRead tenant x n s
    let s := if i.error.isSome then consumeRecord i 0 s else s
    let (r, s) := readPlaces tenant xs s
    ((i.bytes ++ r.1, i.error.isSome || r.2), s)
/-- Writes places at home, or at a lease doorbell. -/
def writePlaces : List (Nat × Nat) → List Byte → State → State
  | [], _, s => s
  | (x, n) :: xs, bs, s =>
    writePlaces xs (bs.drop n) (routeWrite 0 x (bs.take n) (fun s => writeAt x (bs.take n) none (combineLine (lineOf x) (touchPlace .normal x s))) s)
def BusRequest.need : BusRequest → Need | .read _ => .read | .write _ => .write | _ => .both
/-- Hosts and drives make plain reads and writes. -/
def BusRequest.plain : BusRequest → Bool | .read _ | .write _ => true | _ => false
def ones (n : Nat) : List Byte := List.replicate n 0xFF

/-! ## The inbound ordering point (R362) -/

def Inbound.isWrite (e : Inbound) : Bool := BusRequest.isWrite e.req
/-- An earlier request holds a later one of its source: a read waits for every earlier posted write, a write for those
without Relaxed Ordering, and a write with it waits for nothing. -/
def Inbound.blocks (e r : Inbound) : Bool :=
  e.source == r.source && e.isWrite && (if r.isWrite then !r.relaxed && !e.relaxed else true)
/-- A request arrives. The point holds 256 writes. -/
def arrive (r : Inbound) (s : State) : Out :=
  if r.isWrite && (s.io.inbound.filter Inbound.isWrite).length ≥ 256 then .refused .notEnabled
  else .next { s with io := { s.io with inbound := s.io.inbound ++ [r] } }
def reply (r : Inbound) (data : Option (List Byte)) (s : State) : State :=
  let m : OutMsg :=
    if r.source < 64 ∨ r.source = 128 then .hostRead r.source (data.getD (ones (BusRequest.length r.req))) else .dmaReply r.lease data
  { s with outbox := s.outbox ++ [m] }
/-- What a request does that reaches no page: a host write is dropped, a host read completes with all ones, and a fault
record goes to ring 56 (R361); a DMA fails and stops its lease (R371). -/
def failInbound (r : Inbound) (va level : Nat) (s : State) : State :=
  if r.source < 64 then
    let s := if r.isWrite then s else reply r none s
    ringSend ioSender 56 (faultWords s r.space (va / 4096) 0 level (faultKind (BusRequest.need r.req)) (BitVec.ofNat 64 (2 ^ 63 + r.source)) (genOf s r.space)) s
  else reply r none (s.setLease r.lease { s.lease r.lease with stop := true, reason := 5 })
/-- A byte of the latch aperture (Table 26-4) or of another offset of a function's BAR0, as a read gives it. KEY has no stated
value (log entry 117). -/
def vfByte (s : State) (vf off : Nat) : Byte :=
  let o := off - 0x1040
  if off < 0x1040 ∨ 0x1040 + 64 * 63 ≤ off then 0
  else if o % 64 < 8 then Config.barByte off s.fresh
  else if o % 64 = 8 then (waiterOf s vf (o / 64)).status.setWidth 8
  else 0
/-- A byte of the physical function's BAR0: READY and BOOTST are mirrored (R373). -/
def pfByte (s : State) (off : Nat) : Byte :=
  if 0x8000 ≤ off ∧ off < 0x8010 then (bytesLE (ioRead s.io (0x400 + (off - 0x8000) / 8 * 8)).toNat 8).getD (off % 8) 0
  else Config.barByte off s.fresh
/-- What is done at places: the reply tells what was read. -/
def performAt (r : Inbound) (tenant : Option (BitVec 4)) (xs : List (Nat × Nat)) (s : State) : State :=
  match r.req with
  | .read _ => let (d, s) := readPlaces tenant xs s; reply r (if d.2 then none else some d.1) s
  | .write bs => writePlaces xs bs s
  | _ => s
/-- The keyway lets the traffic of an I/O port reach a place (R332, R359). -/
def portOpens (s : State) (port x : Nat) : Bool := match targetAt s.io x with | .memory a => keywayOpens s port a | _ => true
/-- A request goes on: it is translated, performed at its home and acknowledged. A read of BAR0 is answered by the I/O die; STATUS
reading 2 is an acquire of the host, whose later requests come after it (R364). -/
def performInbound (r : Inbound) (s : State) : State :=
  let n := BusRequest.length r.req
  match r.aim with
  | .page =>
    let port := if r.source < 64 then 48 else r.source - 15
    (match busPlaces port r.tenant r.space (BusRequest.need r.req) (linesIn r.va n) s with
     | (.error (va, level), s) => failInbound r va level s
     | (.ok xs, s) => performAt r (some r.tenant) xs s)
  | .bar0 =>
    let byte := if r.source = 128 then pfByte s else vfByte s r.source
    reply r (some ((List.range n).map fun j => byte (r.va + j))) { s with fresh := s.fresh + 1 }
  | .admin =>
    let xs := (linesIn r.va n).map fun (a, m) => (placeOf s.io a, m)
    if xs.all fun (x, _) => portOpens s (r.source - 15) x then performAt r none xs s else reply r none s
def execOrderingPointForward (n : Nat) (s : State) : Out :=
  match s.io.inbound[n]? with
  | none => .refused .notEnabled
  | some r =>
    if (s.io.inbound.take n).any (·.blocks r) || (!r.relaxed && pushesAhead s r.source) then .refused .notEnabled
    else .next (performInbound r { s with io := { s.io with inbound := s.io.inbound.eraseIdx n } })

/-! ## The host port (R360, R361) -/

/-- A host access to a BAR. BAR2 of function f: offset o reaches VA BASE + o of the function's space. BAR0: a read of the latch
aperture or of the mirrored registers, other offsets reading as their rules say; a write there is a step of its own, or ignored, as
any write to a push port is that is no aligned write of 32 bytes (R360, R361, R363, R373). Relaxed Ordering is of writes (R362). An access of a function that is not usable is dropped; its read completes with all ones. -/
def execBar2Access (bar : HostBar) (off : Nat) (r : BusRequest) (relaxed : Bool) (s : State) : Out :=
  if !s.io.readyHost || !BusRequest.plain r then .refused .notEnabled
  else match bar with
    | .bar2 vf =>
      if vf ≥ 64 || off + BusRequest.length r > 2 ^ 36 then .refused .notEnabled
      else
        let w := s.io.vfwin.getD vf 0
        let e := fun (t : BitVec 4) =>
          (⟨vf, relaxed && s.io.hro && BusRequest.isWrite r, t, (fieldBits w 0 12).toNat, field w 36 21 * 2 ^ 36 + off, 0, r, .page⟩ : Inbound)
        match functionTenant s vf with
        | some t => arrive (e t) s
        | none => .next (if BusRequest.isWrite r then s else reply (e 0) none s)
    | .bar0 vf =>
      if vf ≥ 64 || off + BusRequest.length r > 65536 then .refused .notEnabled
      else if BusRequest.isWrite r then
        (if (off = 0 && BusRequest.length r = 32) || (0x1000 ≤ off && off < 0x2000) then .refused .notEnabled else .next s)
      else
        let e : Inbound := ⟨vf, false, 0, 0, off, 0, r, .bar0⟩
        match functionTenant s vf with | some _ => arrive e s | none => .next (reply e none s)
    | .physical =>
      if BusRequest.isWrite r then
        (if off < 0x4000 && off % 0x1000 = 0 && BusRequest.length r = 32 then .refused .notEnabled else .next s)
      else arrive ⟨128, false, 0, 0, off, 0, r, .bar0⟩ s

def entryOfBytes (bs : List Byte) : List DWord := (List.range 4).map fun j => BitVec.ofNat 64 (ofBytesLE ((bs.drop (8 * j)).take 8))
/-- A push of the host port, kept in the I/O die's window for the function; a full window withholds credits. One that the keyway does
not let through port 48 is dropped (R332, R359). -/
def hostPush (sender desc : Nat) (kind : QueueKind) (who : Viewer) (data : List Byte) (s : State) : Out :=
  let die := dieOfPa desc
  if !portOpens s 48 desc then .next s
  else if windowRoom s sender die = 0 then .refused .notEnabled
  else .next (windowPush sender die 0 0 who desc kind (entryOfBytes data) s)
/-- A write to a push port: 32 bytes are one push, any other write is dropped. After a failed verification only the port
for ring 48 is up, and what it takes goes to the ROM (R374). -/
def execPushPortWrite (port : PushPort) (data : List Byte) (s : State) : Out :=
  if !s.io.readyHost then .refused .notEnabled
  else match port with
    | .function f =>
      if f ≥ 64 || writesAhead s f then .refused .notEnabled
      else match functionTenant s f with
        | none => .next s
        | some t =>
          let desc := s.hyp.subq.getD t.toNat 0
          if data.length ≠ 32 ∨ desc = 0 then .next s
          else hostPush f (placeOf s.io desc.toNat) (.submission t) ⟨(fieldBits (s.io.vfwin.getD f 0) 0 12).toNat, some t, false, 192⟩ data s
    | .ring j =>
      if j ≥ 4 then .refused .notEnabled
      else if data.length ≠ 32 then .next s
      else if s.io.stage = 15 then .next (if j = 0 then { s with io := { s.io with upload := s.io.upload ++ data } } else s)
      else hostPush (64 + j) (ringDesc s (48 + j)) (.ring (48 + j)) ⟨0, none, true, 192⟩ data s

/-! ## Drives (R370, R371) -/

def execSqTailDoorbell (lease : Nat) (tail : BitVec 32) (s : State) : Out :=
  if lease ≥ 64 then .refused .notEnabled else .next (sqTail lease tail s)
def execCqHeadDoorbell (lease : Nat) (head : BitVec 32) (s : State) : Out :=
  if lease ≥ 64 then .refused .notEnabled else .next (cqHead lease head s)
/-- A drive's lease is served through a port that its tenant holds (R359). -/
def leasePort (s : State) (l : Lease) : Bool := (s.hyp.tport.getD l.tenant.toNat 0).getLsbD (49 + l.drive.toNat)
/-- Memory that a drive's admin queues lie in is bound to no tenant (R368). -/
def unbound (s : State) (pa n : Nat) : Bool :=
  (linesIn pa n).all fun (a, _) => match target s.io a with
    | .memory x => (match s.frame (x / 4096) with | .bound _ _ => false | _ => true)
    | _ => false
/-- A DMA of a drive passes the ordering point too (R362, R368): for a leased queue in the lease's space, for its admin queues at a
physical address. -/
def execNvmeDma (queue : DmaQueue) (va : Nat) (r : DmaRequest) (s : State) : Out :=
  let relaxed := r.relaxed && s.io.hro && BusRequest.isWrite r.request
  let r := r.request
  if !BusRequest.plain r || s.io.stage = 15 then .refused .notEnabled
  else match queue with
    | .lease k =>
      let l := s.lease k
      if k ≥ 64 || !l.en then .refused .notEnabled
      else
        let e : Inbound := ⟨64 + l.drive.toNat, relaxed, l.tenant, l.aspace.toNat, va, k, r, .page⟩
        if leasePort s l then arrive e s else .next (failInbound e va 0 s)
    | .admin j =>
      if j ≥ 4 || !unbound s va (BusRequest.length r) then .refused .notEnabled
      else arrive ⟨64 + j, relaxed, 0, 0, va, 64 + j, r, .admin⟩ s
/-- A completion interrupt follows the drive's earlier writes, and wakes QKEY; through a port that the tenant does not hold it is
dropped (R359). -/
def execNvmeCompletionInterrupt (lease : Nat) (s : State) : Out :=
  let l := s.lease lease
  if lease ≥ 64 || !l.en || writesAhead s (64 + l.drive.toNat) || s.io.stage = 15 then .refused .notEnabled
  else .next (if l.qkey = 0 || !leasePort s l then s else unitWake (latchKeyOf (some l.tenant) l.qkey) s)

/-! ## Aktum (R365, R366) -/

/-- An atomic of another package at home: its word is read, and written when the request gives a new value. A poisoned word is answered as
such, and stays. -/
def atomicAt (tenant : Option (BitVec 4)) (a : Nat) (r : BusRequest) (s : State) : (List Byte × Bool) × State :=
  let n := BusRequest.length r
  let (i, s) := placeRead tenant a n s
  if i.error.isSome then (([], true), consumeRecord i 0 s)
  else ((i.bytes, false), match BusRequest.update r i.value with | some v => writeAt a (bytesLE v n) none s | none => s)
/-- What a request of another package does at places of this package (R366); the answer, and whether it met poison. -/
def performRequest (tenant : Option (BitVec 4)) (pa : Nat) (xs : List (Nat × Nat)) (r : BusRequest) (s : State) : (List Byte × Bool) × State :=
  match r with
  | .write bs => (([], false), writePlaces xs bs s)
  | .read _ => readPlaces tenant xs s
  | .red _ _ => let (d, s) := atomicAt tenant pa r s; (([], d.2), s)
  | .atom .. | .cas .. => atomicAt tenant pa r s
/-- A request of another package for this package's memory, performed at home: it carries its agent's tenant (16 and more
for none), and is checked against the row of its port. -/
def execAktumRequest (port tenant pa : Nat) (r : BusRequest) (s : State) : Out :=
  let n := BusRequest.length r
  if port ≥ 16 || !s.io.akUp.getLsbD port || s.io.stage = 15 || pa + n > 2 ^ 39 || (!BusRequest.plain r && pa % n ≠ 0) then .refused .notEnabled
  else
    let t := if tenant < 16 then some (BitVec.ofNat 4 tenant) else none
    let xs := linesIn pa n
    let io := 53 + port / 8
    let held := match t with | some t => (s.hyp.tport.getD t.toNat 0).getLsbD io | none => true
    let ok := held && xs.all fun (x, n) => accessCheck s ⟨t, io, dieOfPa x, false⟩ x n = .ok
    let answer := fun (d : Option (List Byte)) (bad : Bool) (s : State) => { s with outbox := s.outbox ++ [.aktumReply port d bad] }
    if !ok then .next (answer none false s)
    else let (d, s) := performRequest t pa xs r s; .next (answer (some d.1) d.2 s)
/-- A flit is checked, and resent when its CRC fails: timing only. -/
def execAktumFlit (port : Nat) (_ : Bool) (s : State) : Out :=
  if port < 16 && s.io.akUp.getLsbD port then .next s else .refused .notEnabled
def execAktumRetrain (port : Nat) (s : State) : Out :=
  if port < 16 && s.io.akUp.getLsbD port then .next { s with io := { s.io with akNarrow := setBitTo s.io.akNarrow port true } }
  else .refused .notEnabled
def execAktumPortDown (port : Nat) (s : State) : Out :=
  if port < 16 && s.io.akUp.getLsbD port then
    .next { s with io := { s.io with akUp := setBitTo s.io.akUp port false, akNarrow := setBitTo s.io.akNarrow port false, reach := s.io.reach.drop port } }
  else .refused .notEnabled
/-- A port comes up, with the packages that it reaches (R365, R373; log entry 118). -/
def execAktumPortUp (x : AktumPort) (s : State) : Out :=
  let port := x.port
  if port < 16 ∧ s.io.stage ≠ 15 then
    .next { s with io := { s.io with
      akUp := setBitTo s.io.akUp port true, akNarrow := setBitTo s.io.akNarrow port false, readyAktum := true
      reach := s.io.reach.put port (x.reaches.foldl NSet.add []) } }
  else .refused .notEnabled

end Sys2Proof.Machine
end

