-- ==== Sys2Proof/Machine/Shake.lean ====
section
/-! DEFINITION. Machine/Shake.lean: SHAKE256, by which the boot ROM measures firmware (R374). The spec names the function; its
definition is that of FIPS 202 (log entry 104). Of its output the model uses the first 64 bytes. -/
namespace Sys2Proof.Machine

/-- The 1,600 bits of the permutation as 25 words; the word of column x and row y stands at x + 5 y. -/
abbrev Sponge := List (BitVec 64)
def Sponge.at_ (a : Sponge) (x y : Nat) : BitVec 64 := a.getD (x % 5 + 5 * (y % 5)) 0

/-- The powers of z modulo z^8 + z^6 + z^5 + z^4 + 1, from `r` on: the low bit of each is one bit of a round's constant. -/
def feedbackBits : Nat → BitVec 8 → List Bool
  | 0, _ => []
  | n + 1, r => r.getLsbD 0 :: feedbackBits n (if r.getLsbD 7 then (r <<< 1) ^^^ 0x71#8 else r <<< 1)
/-- The constant of a round: bit j of its seven stands at 2^j - 1. -/
def roundConstant (bits : List Bool) (round : Nat) : BitVec 64 :=
  (List.range 7).foldl (fun k j => if bits.getD (7 * round + j) false then setBitTo k (2 ^ j - 1) true else k) 0
/-- The way of the words through the permutation: step t takes the word at one place, turned by (t + 1)(t + 2)/2, to the next. -/
def wordSteps : Nat → Nat → Nat × Nat → List (Nat × Nat × Nat)
  | 0, _, _ => []
  | n + 1, t, (x, y) => (x + 5 * y, y + 5 * ((2 * x + 3 * y) % 5), (t + 1) * (t + 2) / 2 % 64) :: wordSteps n (t + 1) (y, (2 * x + 3 * y) % 5)
/-- The parity of a column. -/
def Sponge.parity (a : Sponge) (x : Nat) : BitVec 64 := (List.range 5).foldl (fun w y => w ^^^ a.at_ x y) 0
/-- Mixes the parities of the neighbouring columns into every word. -/
def Sponge.mix (a : Sponge) : Sponge :=
  let d := (List.range 5).map fun x => a.parity (x + 4) ^^^ (a.parity (x + 1)).rotateLeft 1
  a.zipIdx.map fun (w, i) => w ^^^ d.getD (i % 5) 0
/-- Turns the words and moves them along. -/
def Sponge.move (steps : List (Nat × Nat × Nat)) (a : Sponge) : Sponge :=
  (List.range 25).map fun i =>
    match steps.find? fun (_, goal, _) => goal == i with
    | some (source, _, turn) => (a.getD source 0).rotateLeft turn
    | none => a.getD i 0
/-- The step that is not linear, along each row. -/
def Sponge.bend (a : Sponge) : Sponge :=
  (List.range 25).map fun i => a.getD i 0 ^^^ (a.at_ (i + 2) (i / 5) &&& ~~~a.at_ (i + 1) (i / 5))
/-- The 24 rounds. -/
def Sponge.permute (a : Sponge) : Sponge :=
  let bits := feedbackBits 168 1
  let steps := wordSteps 24 0 (1, 0)
  (List.range 24).foldl (fun a round =>
    match (Sponge.move steps a.mix).bend with | w :: ws => (w ^^^ roundConstant bits round) :: ws | [] => []) a
/-- Takes in a block of 136 bytes. -/
def Sponge.enter (a : Sponge) (block : List Byte) : Sponge :=
  Sponge.permute (a.zipIdx.map fun (w, i) => w ^^^ BitVec.ofNat 64 (ofBytesLE ((block.drop (8 * i)).take 8)))
/-- The last block: what is left of the message, with SHAKE's suffix and the padding. -/
def lastBlock (m : List Byte) : List Byte :=
  (m ++ (0x1F : Byte) :: List.replicate (135 - m.length) 0).zipIdx.map fun (b, i) => if i = 135 then b ^^^ 0x80 else b
/-- Takes in a message; `fuel` is at least the number of its whole blocks. -/
def Sponge.absorb : Nat → List Byte → Sponge → Sponge
  | 0, m, a => a.enter (lastBlock m)
  | fuel + 1, m, a => if m.length < 136 then a.enter (lastBlock m) else Sponge.absorb fuel (m.drop 136) (a.enter (m.take 136))
/-- The first 64 bytes of SHAKE256 of a message, byte 0 lowest. -/
def shake256 (m : List Byte) : BitVec 512 :=
  let a := Sponge.absorb (m.length / 136) m (List.replicate 25 0)
  BitVec.ofNat 512 (ofBytesLE ((a.take 8).flatMap fun w => bytesLE w.toNat 8))

end Sys2Proof.Machine
end

