-- ==== Sys2Proof/Machine/Boot.lean ====
section
/-! DEFINITION. Machine/Boot.lean: resets, bring-up, attestation and monitors (R372 to R378; Table 27-1). -/
namespace Sys2Proof.Machine

/-! ## Resets -/

def execColdReset (s : State) : Out := .next (coldReset s)
/-- A PCIe Function Level Reset of the physical function. -/
def execFunctionReset (s : State) : Out := .next (functionReset s)
/-- A write of RESTART with FR = 1 by a service core. -/
def execRestartFr (s : State) : Out := if isService s.cur then .next (functionReset s) else .refused .notEnabled
/-- A write of RESTART with CP = 1 by a service core. -/
def execRestartCp (core : Nat) (s : State) : Out := if isService s.cur then .next (restartAgent s.cur core s) else .refused .notEnabled

/-! ## Bring-up -/

/-- The fused hash of an image's public key (R374). -/
def imageFuse (img : FirmwareImage) : Option Nat := (List.range 4).find? fun n => Config.keyHash n == shake256 img.publicKey
/-- Why an image fails (R374; Table 27-1, FAIL); 0 when it passes. DESIGN CHOICE: of several reasons the lowest is given, and a key
that no fuse names counts as revoked (log entry 104). -/
def FirmwareImage.failReason (img : FirmwareImage) : BitVec 8 :=
  if !img.headerGood then 1
  else if !Config.falconVerifies img.publicKey (shake256 img.rest) img.signature then 2
  else if (imageFuse img).all Config.keyRevoked then 3
  else if img.version < Config.rollback then 4 else 0
/-- MEAS extended by an image: SHAKE256(MEAS, SHAKE256(image)), truncated to 64 bytes (R374). -/
def extendMeas (meas : BitVec 512) (image : List Byte) : BitVec 512 :=
  shake256 (bytesLE meas.toNat 64 ++ bytesLE (shake256 image).toNat 64)
/-- The ROM takes an image: from the flash, or, after a failed verification, the one that the host has sent (R374). -/
def takeImage (img : FirmwareImage) (s : State) : Out :=
  if s.io.stage = 15 && (img.bytes.isEmpty || s.io.upload.take img.bytes.length != img.bytes) then .refused .notEnabled
  else .next { s with io := { s.io with stage := 1, image := some img, upload := [] } }
/-- It verifies the image: on success MEAS is extended and ROM sets; on failure STAGE reads 15. -/
def verifyImage (img : FirmwareImage) (s : State) : State :=
  if (FirmwareImage.failReason img) ≠ 0 then { s with io := { s.io with stage := 15, fail := (FirmwareImage.failReason img), image := none } }
  else { s with io := { s.io with stage := 2, fail := 0, meas := extendMeas s.io.meas img.bytes, readyRom := true, image := some img } }
/-- It loads the code images, and the agents start whose stacks are trained. -/
def loadImage (img : FirmwareImage) (s : State) : State :=
  let u := writeLong (img.code.length / 128 + 2) img.base img.code s
  startAgents { u with io := { u.io with
    stage := 3, image := none, serviceEntry := alignPc img.serviceEntry, contextEntry := alignPc img.contextEntry } }
/-- The boot ROM's next step: it takes an image, verifies it, or loads what it holds (R374; STAGE 0, 1 and 2). A function reset
goes back to the verification (R372). -/
def execFirmwareVerify (img : FirmwareImage) (s : State) : Out :=
  if s.io.stage = 0 ∨ s.io.stage = 15 then takeImage img s
  else if s.io.image.any (· != img) then .refused .notEnabled
  else if s.io.stage = 1 then .next (verifyImage img s)
  else if s.io.stage = 2 ∧ s.io.image.isSome then .next (loadImage img s)
  else .refused .notEnabled
/-- A stack trains, unless a verification has failed (R374). The key store is ready with the last of the eight, whose controllers hold the slots. -/
def execHbmStackTrained (stack : Nat) (s : State) : Out :=
  if stack ≥ 8 || s.io.readyMem.getLsbD stack || s.io.stage = 15 then .refused .notEnabled
  else
    let m := setBitTo s.io.readyMem stack true
    .next (startAgents { s with io := { s.io with readyMem := m, readyKeys := s.io.readyKeys || m == 0xFF } })
def execHostPortTrained (s : State) : Out := .next { s with io := { s.io with readyHost := true } }
def execNvmeLinkUp (port : Nat) (s : State) : Out :=
  if port ≥ 4 || s.io.stage = 15 then .refused .notEnabled
  else .next (noteDrives { s with io := { s.io with nvmeLink := setBitTo s.io.nvmeLink port true } })

/-! ## Attestation and monitors -/

def execAttreqWrite (pa : Nat) (s : State) : Out := if isService s.cur then .next (attest s.cur pa s) else .refused .notEnabled

/-- The numbers of the monitors: temperatures, voltages and process monitors (R377). -/
def isMonitor (n : Nat) : Bool := n ≤ 49 || (64 ≤ n && n ≤ 76) || (128 ≤ n && n ≤ 140)
def setMonitor (n : Nat) (v : Int) (s : State) : State := { s with io := { s.io with monitors := s.io.monitors.put n v } }
/-- The warmest of a compute die's eight sensors, in units of 0.125 C. -/
def dieHeat (s : State) (die : Nat) : Int :=
  (List.range 7).foldl (fun t j => max t (s.io.monitors.getD (8 * die + j + 1) 0)) (s.io.monitors.getD (8 * die) 0)
/-- A compute die's cores skip issue cycles from above 105 C until it is below 100 C. This affects timing only. -/
def throttleDie (die : Nat) (s : State) : State :=
  let all := fun (b : Bool) => (List.range 48).foldl (fun s c => s.modCore (48 * die + c) fun x => { x with throttled := b }) s
  if dieHeat s die > 840 then all true else if dieHeat s die < 800 then all false else s
/-- A monitor takes a value. At 125 C on any die the package takes a cold reset. -/
def execThermalThrottle (monitor : Nat) (v : Int) (s : State) : Out :=
  if !isMonitor monitor then .refused .notEnabled
  else
    let s := setMonitor monitor v s
    .next (if monitor ≤ 49 ∧ v ≥ 1000 then coldReset s else if monitor < 32 then throttleDie (monitor / 8) s else s)
/-- A temperature sensor reaches 125 C. -/
def execThermalTrip (monitor : Nat) (v : Int) (s : State) : Out :=
  if 49 < monitor || v < 1000 then .refused .notEnabled else .next (coldReset (setMonitor monitor v s))

end Sys2Proof.Machine
end

