-- ==== Sys2Proof/Machine/Flags.lean ====
section
/-! DEFINITION. Machine/Flags.lean: the flag computations: the floating-point conditions with their trap enables and
FPFLAGS (R57, R70, R172), and RNSSTAT after a decoding (R76). -/
namespace Sys2Proof.Machine

/-- A rounding code of Table 4-3. -/
def roundOf (c : Nat) : RoundMode :=
  match c with | 0 => .rne | 1 => .rtz | 2 => .rdn | 3 => .rup | _ => .rna
/-- FPMODE.RM and FPMODE.FTZ (Table 3-4). -/
def Ply.ftz (p : Ply) : Bool := p.a.fpmode.getLsbD 8
def Ply.round (p : Ply) : RoundMode := roundOf (p.a.fpmode.toNat % 8)
def Ply.fenv (p : Ply) : FEnv := ⟨p.round, p.ftz⟩
/-- FPMODE.TE (Table 3-4). -/
def Ply.enables (p : Ply) : Conds := p.a.fpmode.extractLsb' 3 5
/-- The causes of the conditions, lowest first (R70). -/
def condCause (cs : Conds) : Cause :=
  if cs.getLsbD 0 then .fpInvalid else if cs.getLsbD 1 then .fpDivZero else if cs.getLsbD 2 then .fpOverflow
  else if cs.getLsbD 3 then .fpUnderflow else .fpInexact
def Ply.raise (p : Ply) (cs : Conds) : Ply := { p with a := { p.a with fpflags := p.a.fpflags ||| cs } }
/-- R70: the lowest enabled condition is a before cause, and nothing is written; else every condition enters FPFLAGS. -/
def fpSettle (s : State) (p : Ply) (cs : Conds) (go : Ply → Res) : Res :=
  if cs &&& p.enables = 0 then go (p.raise cs) else .before s (condCause (cs &&& p.enables)) 0 0
/-- The conditions of every active lane together. -/
def allConds (ls : List Nat) (f : Nat → Conds) : Conds := ls.foldl (fun c l => c ||| f l) 0

/-- Reads registers and writes one lane register in the active lanes, with conditions (R172). -/
def fpWrite (s : State) (p : Ply) (d : VReg) (reads : List RegUse) (f : Core → Nat → Word × Conds) : Res :=
  gated s p reads [(d, p.lanes)] fun c =>
    fpSettle s p (allConds p.lanes fun l => (f c l).2) fun p => writeLanes s p [(d, laneVals p fun l => (f c l).1)] id
/-- The same for a predicate. -/
def fpPred (s : State) (p : Ply) (pd : PReg) (reads : List RegUse) (f : Core → Nat → Bool × Conds) : Res :=
  gated s p reads [] fun c =>
    fpSettle s p (allConds p.lanes fun l => (f c l).2) fun p =>
      .next (s.setPly s.cur (p.setP pd p.a.em (maskOf (p.lanes.filter fun l => (f c l).1))))

/-! ## RNSSTAT (R76, Table 3-4) -/

/-- The outcome of a decoding (R76). -/
inductive Decoded where
  | ok (x : Int)
  | located (j : Nat) (x : Int)
  | uncorrectable (x : Int)
  deriving DecidableEq, Repr

def Decoded.value : Decoded → Int | .ok x => x | .located _ x => x | .uncorrectable x => x
def bumpMcnt (m : BitVec 8) : BitVec 8 := if m = 255 then 255 else m + 1
/-- RNSSTAT after one lane's outcome. -/
def Ply.noteDecoded (p : Ply) (d : Decoded) : Ply :=
  match d with
  | .ok _ => p
  | .located j _ => { p with a := { p.a with rnsLoc := BitVec.ofNat 4 j, rnsMcnt := bumpMcnt p.a.rnsMcnt } }
  | .uncorrectable _ => { p with a := { p.a with rnsUnc := true, rnsMcnt := bumpMcnt p.a.rnsMcnt } }
/-- RNSSTAT after the outcomes of the lanes, in ascending order. -/
def Ply.noteAll (p : Ply) (ds : List Decoded) : Ply := ds.foldl Ply.noteDecoded p

end Sys2Proof.Machine
end

