-- ==== Sys2Proof/Machine/LaneRes.lean ====
section
/-! DEFINITION. Machine/LaneRes.lean: residue arithmetic (R73 to R79) and the residue instructions of chapter 10 (R182 to
R184): majors 0x2C and 0x2D. -/
namespace Sys2Proof.Machine

/-! ## Residue values (R73 to R78) -/

/-- The moduli of channels 0 to 9 (Table 4-5). -/
def moduli : List Nat := [241, 239, 233, 229, 227, 223, 211, 199, 256, 251]
def modulus (j : Nat) : Nat := moduli.getD j 1
def primaries (wide : Bool) : List Nat := if wide then [0, 1, 2, 3, 4, 5, 6, 7] else [0, 1, 2, 3]

/-- A basis as its live channels: primaries and checks. -/
structure Basis where
  p : List Nat
  c : List Nat
  deriving DecidableEq, Repr

/-- The live channels under a map of failed channels; none when the basis is unavailable (R78). -/
def liveBasis (wide : Bool) (map : BitVec 10) : Option Basis :=
  match (primaries wide ++ [8, 9]).filter map.getLsbD with
  | [] => some ⟨primaries wide, [8, 9]⟩
  | [8] => some ⟨primaries wide, [9]⟩
  | [9] => some ⟨primaries wide, [8]⟩
  | [j] => some ⟨(primaries wide).filter (· != j) ++ [9], [8]⟩
  | _ => none

/-- A residue value: the bytes of channels 0 to 9. -/
abbrev Residues := List Nat
def chan (r : Residues) (j : Nat) : Nat := r.getD j 0
/-- The value on the live channels; the other bytes are 0 (R78). -/
def onLive (b : Basis) (f : Nat → Nat) : Residues :=
  (List.range 10).map fun j => if b.p.contains j || b.c.contains j then f j else 0
/-- The residues of an integer (R73). -/
def formResidues (b : Basis) (x : Int) : Residues := onLive b fun j => (x % Int.ofNat (modulus j)).toNat
def addResidues (b : Basis) (x y : Residues) : Residues := onLive b fun j => (chan x j + chan y j) % modulus j
def mulResidues (b : Basis) (x y : Residues) : Residues := onLive b fun j => chan x j * chan y j % modulus j
def negResidues (b : Basis) (x : Residues) : Residues := onLive b fun j => (modulus j - chan x j % modulus j) % modulus j

def prodOf (s : List Nat) : Nat := s.foldl (fun n j => n * modulus j) 1
/-- The inverse modulo m: the least y whose product with x leaves 1. -/
def invMod (x m : Nat) : Nat := ((List.range m).find? fun y => x * y % m == 1 % m).getD 0
def crt (r : Residues) (s : List Nat) : Nat :=
  (s.foldl (fun x j => x + chan r j * (prodOf s / modulus j) * invMod (prodOf s / modulus j % modulus j) (modulus j)) 0) % prodOf s
def signedCrt (r : Residues) (s : List Nat) : Int :=
  let q := prodOf s
  let x := crt r s
  if x > (q - 1) / 2 then Int.ofNat x - Int.ofNat q else Int.ofNat x
def fits (r : Residues) (x : Int) (s : List Nat) : Bool := s.all fun j => Int.ofNat (chan r j % modulus j) == x % Int.ofNat (modulus j)
/-- The candidates of the location loop, in ascending channel number. -/
def locate (r : Residues) (b : Basis) (bound : Int) : List Nat → Option (Nat × Int)
  | [] => none
  | j :: js =>
    let t := (b.p ++ b.c).filter (· != j)
    let x := signedCrt r t
    if -bound ≤ x && x ≤ bound && fits r x t then some (j, x) else locate r b bound js
/-- rns_decode (R76). -/
def rnsDecode (b : Basis) (r : Residues) : Decoded :=
  let bound := Int.ofNat ((prodOf b.p - 1) / 2)
  let s0 := signedCrt r b.p
  if fits r s0 b.c then .ok s0
  else match (if b.c.length = 2 then locate r b bound ((List.range 10).filter (b.p ++ b.c).contains) else none) with
    | some (j, x) => .located j x
    | none => .uncorrectable (if s0 ≥ 0 then bound else -bound)

/-! ## Register layouts (R74, Table 4-6) -/

def groupSize (wide : Bool) : Nat := if wide then 3 else 2
/-- The channels that a register of the group holds. -/
def channelsOf (wide : Bool) (j : Nat) : List Nat :=
  match wide, j with | _, 0 => [0, 1, 2, 3] | false, _ => [8, 9] | true, 1 => [4, 5, 6, 7] | true, _ => [8, 9]
/-- The residues in a lane's words of a group. -/
def residuesOf (wide : Bool) (ws : List Word) : Residues :=
  let narrow := fun (j : Nat) =>
    if j < 4 then ((ws.getD 0 0).toNat / 2 ^ (8 * j)) % 256
    else if 8 ≤ j then ((ws.getD (groupSize wide - 1) 0).toNat / 2 ^ (8 * (j - 8))) % 256
    else if wide then ((ws.getD 1 0).toNat / 2 ^ (8 * (j - 4))) % 256 else 0
  (List.range 10).map narrow
/-- Word j of a group that holds a residue value. -/
def residueWord (wide : Bool) (r : Residues) (j : Nat) : Word :=
  BitVec.ofNat 32 (ofBytesLE ((channelsOf wide j).map fun c => BitVec.ofNat 8 (chan r c)))

/-! ## What the residue instructions share (R182) -/

/-- The values of a destination group. -/
def groupVals (p : Ply) (d : VReg) (n : Nat) (f : Nat → Nat → Word) : List (VReg × List LaneVal) :=
  (List.range n).map fun j => (nthReg d j, laneVals p fun l => f l j)
/-- A residue instruction: 0x34, then 0x15 for an unavailable basis, then the waits and 0x52 (R182); with EM 0 it raises no
cause (R135). -/
def residueOp (wide : Bool) (s : State) (p : Ply) (reads writes : List RegUse) (go : Basis → Core → Res) : Res :=
  if anyGiven p (reads ++ writes) then .before s .givenReg 0 0
  else match liveBasis wide p.ident.rnsmap with
    | some b => gated s p reads writes (go b)
    | none => if p.lanes.isEmpty then .next s else .before s .residue 0 0

def laneGroup (c : Core) (p : Ply) (r : VReg) (n l : Nat) : List Word := (List.range n).map fun j => regWord c p (nthReg r j) l
/-- A group that a B7 operand names, or the 8 bytes of a uniform register (R45, R182). -/
def srcGroup (c : Core) (p : Ply) (b : LaneSrc) (n l : Nat) : List Word :=
  match b with
  | .v r => laneGroup c p r n l
  | .s r => [(p.sreg r).setWidth 32, (p.sreg r).extractLsb' 32 32]
def srcGroupUse (b : LaneSrc) (n : Nat) (ls : List Nat) : List RegUse := match b with | .v r => groupUse r n ls | .s _ => []

/-! ## Major 0x2C (R183) -/

/-- Writes a residue value in the active lanes. -/
def residueWrite (i : Instr) (wide : Bool) (d : VReg) (reads : List Nat → List RegUse) (f : Basis → Core → Ply → Nat → Residues)
    (s : State) : Out :=
  perform {} (encode i) s fun p =>
    let n := groupSize wide
    residueOp wide s p (reads p.lanes) (groupUse d n p.lanes) fun b c =>
      writeLanes s p (groupVals p d n fun l j => residueWord wide (f b c p l) j) id
/-- The forms with two residue operands. -/
def residue2 (i : Instr) (wide : Bool) (d a : VReg) (b : LaneSrc) (f : Basis → Residues → Residues → Residues) (s : State) : Out :=
  let n := groupSize wide
  residueWrite i wide d (fun ls => groupUse a n ls ++ srcGroupUse b n ls)
    (fun x c p l => f x (residuesOf wide (laneGroup c p a n l)) (residuesOf wide (srcGroup c p b n l))) s
/-- The forms with one. -/
def residue1 (i : Instr) (wide : Bool) (d a : VReg) (f : Basis → Residues → Residues) (s : State) : Out :=
  let n := groupSize wide
  residueWrite i wide d (fun ls => groupUse a n ls) (fun x c p l => f x (residuesOf wide (laneGroup c p a n l))) s

def execRnsf (d a : VReg) (h : Hold) (s : State) : Out :=
  residueWrite (.rnsf d a h) false d (fun ls => [(a, ls)]) (fun b c p l => formResidues b (regWord c p a l).toInt) s
def execRnsfw (d a : VReg) (h : Hold) (s : State) : Out :=
  residueWrite (.rnsfw d a h) true d (fun ls => groupUse a 2 ls) (fun b c p l => formResidues b (regPair c p a l).toInt) s
def execRnsadd (d a : VReg) (b : LaneSrc) (h : Hold) (s : State) : Out := residue2 (.rnsadd d a b h) false d a b addResidues s
def execRnsmul (d a : VReg) (b : LaneSrc) (h : Hold) (s : State) : Out := residue2 (.rnsmul d a b h) false d a b mulResidues s
def execRnsaddw (d a b : VReg) (h : Hold) (s : State) : Out := residue2 (.rnsaddw d a b h) true d a (.v b) addResidues s
def execRnsmulw (d a b : VReg) (h : Hold) (s : State) : Out := residue2 (.rnsmulw d a b h) true d a (.v b) mulResidues s
def execRnsneg (d a : VReg) (h : Hold) (s : State) : Out := residue1 (.rnsneg d a h) false d a negResidues s
def execRnsnegw (d a : VReg) (h : Hold) (s : State) : Out := residue1 (.rnsnegw d a h) true d a negResidues s

/-! ## Major 0x2D (R184) -/

/-- The record and the counted event of a located channel (R347, R349). -/
def locatedEvent (k : Nat) (p : Ply) (s : State) (j : Nat) : State :=
  let core := coreOf k
  errorEvent (unitOf core) ⟨6, 0, 0, j, core, 0, plyid k p, s.cycle⟩ (some (.channel j)) core s
def locatedChannels (ds : List Decoded) : List Nat :=
  (List.range 10).filter fun j => ds.any fun d => match d with | .located i _ => i == j | _ => false
def anyUncorrectable (ds : List Decoded) : Bool := ds.any fun d => match d with | .uncorrectable _ => true | _ => false

/-- The decoding forms: RNSSTAT, the records, 0x15 under TUNC as a before cause, and 0x50 under TCOR as an after cause.
`n` registers from `d` receive what `out` makes of the delivered value. -/
def residueDecode (i : Instr) (wide : Bool) (d a : VReg) (n : Nat) (out : Basis → Int → Nat → Word) (s : State) : Out :=
  perform {} (encode i) s fun p =>
    let g := groupSize wide
    residueOp wide s p (groupUse a g p.lanes) (groupUse d n p.lanes) fun b c =>
      let at_ := fun l => rnsDecode b (residuesOf wide (laneGroup c p a g l))
      let ds := p.lanes.map at_
      if anyUncorrectable ds && p.a.rnsctl.getLsbD 1 then .before s .residue 0 0
      else
        let js := locatedChannels ds
        match writeLanes s p (groupVals p d n fun l j => out b (at_ l).value j) (·.noteAll ds) with
        | .next s' =>
          let s' := js.foldl (locatedEvent s.cur p) s'
          if !js.isEmpty && p.a.rnsctl.getLsbD 0 then .after s' .residueLocated else .next s'
        | r => r

def execRnsr (d a : VReg) (h : Hold) (s : State) : Out :=
  residueDecode (.rnsr d a h) false d a 1 (fun _ x _ => BitVec.ofInt 32 x) s
def execRnsrw (d a : VReg) (h : Hold) (s : State) : Out :=
  residueDecode (.rnsrw d a h) true d a 2 (fun _ x j => (BitVec.ofInt 64 x).extractLsb' (32 * j) 32) s
def execRnschk (d a : VReg) (h : Hold) (s : State) : Out :=
  residueDecode (.rnschk d a h) false d a 2 (fun b x j => residueWord false (formResidues b x) j) s
def execRnschkw (d a : VReg) (h : Hold) (s : State) : Out :=
  residueDecode (.rnschkw d a h) true d a 3 (fun b x j => residueWord true (formResidues b x) j) s

end Sys2Proof.Machine
end

