-- ==== Sys2Proof/Machine/Matrix.lean ====
section
/-! DEFINITION. Machine/Matrix.lean: the matrix engine (chapter 12: R200 to R219; R71, R72, R342). -/
namespace Sys2Proof.Machine

/-! ## Operand sizes (R204, R205, Table 12-3) -/

/-- A shape code that Table 7-23 assigns. -/
def shapeAssigned (shape : Nat) : Bool := shape ≤ 6 || (8 ≤ shape && shape ≤ 13) || (16 ≤ shape && shape ≤ 21)
/-- The bits of an A element by shape class. -/
def shapeABits (shape : Nat) : Nat := if shape ≤ 6 || 20 ≤ shape then 16 else 8
/-- The registers of an accumulator element. -/
def shapeAccRegs (shape : Nat) : Nat := if shape < 16 then 1 else if shape < 20 then 2 else 3
def matARegs (shape : Nat) : Nat := (matDims shape).2 * shapeABits shape / 32
def matAccRegs (shape : Nat) : Nat := (matDims shape).1 * shapeAccRegs shape
/-- The element formats that a shape admits (Table 7-23). -/
def shapeAdmits (shape af bf : Nat) : Bool :=
  if shape ≤ 6 then (af == bf && af ≤ 1) || (af == 0 && bf == 4)
  else if shape < 16 then (af == 2 || af == 3) && (bf == 2 || bf == 3 || bf == 4)
  else if shape < 20 then af == 5 else af == 6
/-- The bits of a B element. -/
def elemBits (bf : Nat) : Nat := 4 * (elemHalves bf).getD 4
/-- A block length code (Table 12-2), and the number of blocks (R203). -/
def blockOf (code : Nat) : Nat := match code with | 1 => 16 | 2 => 32 | 3 => 64 | _ => 0
def blocksIn (k code : Nat) : Nat := if blockOf code = 0 then 1 else max 1 (k / blockOf code)

/-! ## The format block (R202, R203) -/

/-- A scale word breaks its rules. -/
def badScale (w : DWord) : Bool := field w 8 24 % 2 == 1 || field w 32 32 != 0
/-- The content rules of the block (0x04). -/
def badBlock (p : Ply) (mmai : Bool) (f : Nat) (declared : Bool) : Bool :=
  let w := p.sreg (BitVec.ofNat 6 f)
  let x := fun j => p.sreg (BitVec.ofNat 6 (f + j))
  let af := field w 0 4
  let bf := field w 4 4
  let cf := field w 8 4
  let lens := field w 12 4
  let scaled := fun i => w.getLsbD (19 + i)
  field w 32 32 != 0
  || (if mmai then !(af == 5 || af == 6) || bf != af || cf != af + 3 || lens != 0 || scaled 0 || scaled 1 || field w 21 2 != cf - 7
      else af > 3 || bf > 4 || cf != 7 || field w 21 2 != 0)
  || (scaled 0 != (field w 12 2 != 0)) || (scaled 1 != (field w 14 2 != 0))
  || (if bf = 4 then (p.a.cb.toList.getD (field w 16 3) none).isNone else field w 16 3 != 0)
  || (if w.getLsbD 23 then (x 1).toNat % 32 != 0 || field (x 1) 32 32 != 0 else !declared)
  || (scaled 0 && badScale (x 2)) || (scaled 1 && badScale (x 3))

/-! ## B-shares (R207, R225) -/

/-- A declared share whose members are all in their slots. -/
def liveShare (s : State) (k : Nat) (p : Ply) (id : Nat) : Option Share :=
  if p.mode ≠ 0 then none
  else match (s.team p.ident.team).bind fun t => t.shares.find id with
    | some x => if (x.slots.zip x.uids).all fun (n, u) => (s.live (agentKey (coreOf k) n) u).isSome then some x else none
    | none => none
/-- The registers of one column group of a member, and of all of them. -/
def shareBlock (k bf : Nat) : Nat := max 1 (k / 4 * elemBits bf / 32)
def shareRegs (x : Share) (shape bf : Nat) : Nat := ceilDiv (matDims shape).1 x.width * shareBlock (matDims shape).2 bf
/-- The members: their plies and base registers. -/
def shareMembers (s : State) (k : Nat) (x : Share) : List (Ply × Nat) :=
  (x.slots.zip x.bases).filterMap fun (n, b) => (s.ply (agentKey (coreOf k) n)).map fun q => (q, b)
/-- The place of element (k, n): member, register, lane and bit. -/
def shareSpot (x : Share) (kk bf k n : Nat) : Nat × Nat × Nat × Nat :=
  let q4 := kk / 4
  let b := k % q4 * elemBits bf
  (k / q4, x.bases.getD (k / q4) 0 + n / x.width * shareBlock kk bf + b / 32, n % x.width, b % 32)
/-- The bytes of B in the layout of a tile, read from the member registers at issue. -/
def shareBytes (s : State) (core : Nat) (x : Share) (ms : List (Ply × Nat)) (shape bf : Nat) : List Byte :=
  let (nn, kk) := matDims shape
  let c := s.core core
  let el := fun i =>
    let (q, r, l, b) := shareSpot x kk bf (i / nn) (i % nn)
    match ms[q]? with
    | some (p, _) => (c.word (p.entry (BitVec.ofNat 6 r)) l).toNat / 2 ^ b % 2 ^ elemBits bf
    | none => 0
  let per := 8 / min 8 (elemBits bf)
  (List.range (matBBytes shape bf)).map fun j =>
    if elemBits bf = 16 then BitVec.ofNat 8 (el (j / 2) / 2 ^ (8 * (j % 2)))
    else BitVec.ofNat 8 ((List.range per).foldl (fun a i => a + el (per * j + i) * 2 ^ (elemBits bf * i)) 0)
/-- The registers of the members as (ply, register). -/
def memberRegs (x : Share) (ms : List (Ply × Nat)) (shape bf : Nat) : List (Ply × Nat) :=
  ms.flatMap fun (q, b) => (List.range (shareRegs x shape bf)).map fun j => (q, b + j)
def memberRows (rs : List (Ply × Nat)) (w : Nat) : List Nat :=
  (rs.flatMap fun (q, r) => rowsOf (q.entry (BitVec.ofNat 6 r)) (List.range w)).eraseDups

/-! ## What an octet operation computes (R71, R72, R208, R209) -/

/-- Element i of a packed number. -/
def elemOf (x bits i : Nat) : Nat := x / 2 ^ (bits * i) % 2 ^ bits
def fmtOf (code : Nat) : Fmt := match code with | 1 => fp16 | 2 => e4m3 | 3 => e5m2 | _ => bf16
def MatOp.bVal (m : MatOp) (x : Nat) : FVal :=
  if m.bf = 4 then bf16.decode ((m.codebook.map fun v => (v.toList.getD x 0).toNat).getD 0) else (fmtOf m.bf).decode x
/-- The sum of one chunk and the addition to the accumulator, over the chunks of an element. -/
def MatOp.fpElement (m : MatOp) (a : Nat) (b : Nat) (sa sb : Nat → FVal) (n acc : Nat) : Nat :=
  let (nn, kk) := matDims m.shape
  (List.range (kk / 16)).foldl (fun acc c =>
    accAdd acc (chunk (m.fn == .neg) ((List.range 16).map fun i =>
      let k := 16 * c + i
      [sa (16 * c), sb (16 * c), (fmtOf m.af).decode (elemOf a (shapeABits m.shape) k), m.bVal (elemOf b (elemBits m.bf) (k * nn + n))]))) acc
/-- The new accumulator words of a lane: `a` and `b` are the packed A row and B, `acc` the held words. -/
def MatOp.lane (m : MatOp) (a b : Nat) (sa : Nat → FVal) (sb : Nat → Nat → FVal) (acc : List Word) : List Word :=
  let (nn, kk) := matDims m.shape
  if !m.residue then
    (List.range nn).map fun n =>
      BitVec.ofNat 32 (m.fpElement a b sa (sb n) n (if m.fn = .overwrite then 0x80000000 else (acc.getD n 0).toNat))
  else
    let wide := m.cf == 9
    let g := groupSize wide
    let bits := shapeABits m.shape
    match liveBasis wide m.rnsmap with
    | none => acc
    | some basis =>
      (List.range nn).flatMap fun n =>
        let t : Int := (List.range kk).foldl (fun t k => t + signedOf bits (elemOf a bits k) * signedOf bits (elemOf b bits (k * nn + n))) 0
        let t := if m.fn = .neg then -t else t
        let held := residuesOf wide ((acc.drop (g * n)).take g)
        let new := onLive basis fun j =>
          ((Int.ofNat (if m.fn = .overwrite then 0 else chan held j % modulus j) + t) % Int.ofNat (modulus j)).toNat
        (List.range g).map (residueWord wide new)
/-- The bytes of a tile that an operation reads; a tile that a restore has not brought back gives free values (log entry 30). -/
def tileBytes (m : MatOp) (t : Option Tile) (o n : Nat) : List Byte :=
  match t with
  | some t => (t.read o n).bytes
  | none => (List.range n).map fun j => (Config.frameWord m.seq (o + j) 256).setWidth 8
def one : FVal := .fin false 1 0
/-- The scale of an index (a lane or a column) at element k. -/
def MatOp.scaleAt (m : MatOp) (t : Option Tile) (sc : Option (Nat × Nat × Nat)) (kk idx k : Nat) : FVal :=
  match sc with
  | some (_, off, nb) => bf16.decode (ofBytesLE (tileBytes m t (off + 2 * (idx * nb + k / (kk / nb))) 2))
  | none => one

/-! ## Issue (R200, R210 to R214) -/

/-- The octets of a ply that hold active lanes. -/
def activeOctets (p : Ply) : List Nat := (List.range (p.width / 8)).filter fun j => p.lanes.any fun l => l / 8 == j
def givenAny (rs : List (Ply × Nat)) : Bool := rs.any fun (q, r) => r < 64 && q.entry (BitVec.ofNat 6 r) == .given
/-- The registers from r on as (ply, register). -/
def ownRegs (p : Ply) (r n : Nat) : List (Ply × Nat) := (List.range n).map fun j => (p, r + j)
/-- An accumulator row that an earlier operation of the same group, shape and format holds chains (R212). -/
def chains (c : Core) (p : Ply) (d shape cf n : Nat) : Bool :=
  c.mats.all fun m => !m.accRows.contains n || (m.uid == p.uid && m.dReg == d && m.shape == shape && m.cf == cf)
/-- An accumulator row holds the operation back. -/
def accWaits (c : Core) (p : Ply) (d shape cf n : Nat) : Bool :=
  if c.lockedAcc n then c.pending n || !chains c p d shape cf n else c.writeWaits n
/-- A scale's tile word as the operation keeps it: the tile, the offset and the blocks. -/
def scaleOf (w : DWord) (kk code : Nat) : Nat × Nat × Nat := (field w 0 8, field w 8 24, blocksIn kk code)
/-- A region of a tile lies beyond it (R206). -/
def beyond (s : State) (t : Nat) (h hi : Nat) : Bool := match teamTile s (some t) h with | some x => hi > x.size | none => false

/-- What an MMA or MMAI word and its format block say (R200 to R206). -/
structure MatCall where
  mmai : Bool
  d : VReg
  a : VReg
  f : SReg
  fn : MatFn
  shape : Nat
  /-- the format word -/
  w : DWord
  share : Option Share
  members : List (Ply × Nat)
  bTile : Option (Nat × Nat)
  aScale : Option (Nat × Nat × Nat)
  bScale : Option (Nat × Nat × Nat)
def MatCall.af (m : MatCall) : Nat := field m.w 0 4
def MatCall.bf (m : MatCall) : Nat := field m.w 4 4
def MatCall.cf (m : MatCall) : Nat := field m.w 8 4
def MatCall.known (m : MatCall) : Bool := shapeAssigned m.shape
/-- The registers of A and of the accumulator; an unassigned shape checks the first of each. -/
def MatCall.na (m : MatCall) : Nat := if m.known then matARegs m.shape else 1
def MatCall.nd (m : MatCall) : Nat := if m.known then matAccRegs m.shape else 1
def MatCall.aRegs (m : MatCall) : List VReg := regList m.a m.na
def MatCall.dRegs (m : MatCall) : List VReg := regList m.d m.nd
/-- The members' registers, when B is a share. A BF that names no format counts as 16 bits an element (log entry 110). -/
def MatCall.bRegs (m : MatCall) : List (Ply × Nat) :=
  match m.share with | some y => if m.known then memberRegs y m.members m.shape m.bf else [] | none => []
def MatCall.bRows (m : MatCall) : List Nat := memberRows m.bRegs (m.share.elim 8 (·.width))
def MatCall.tiles (m : MatCall) : List Nat :=
  ((m.bTile.map (·.1)).toList ++ (m.aScale.map (·.1)).toList ++ (m.bScale.map (·.1)).toList).eraseDups
def matCall (mmai : Bool) (d a : VReg) (f : SReg) (shp : BitVec 5) (fn : MatFn) (s : State) (p : Ply) : MatCall :=
  let w := p.sreg f
  let x := fun j => p.sreg (BitVec.ofNat 6 (f.toNat + j))
  let kk := (matDims shp.toNat).2
  let share := if w.getLsbD 23 then none else liveShare s s.cur p (field w 24 8)
  { mmai := mmai, d := d, a := a, f := f, fn := fn, shape := shp.toNat, w := w, share := share
    members := match share with | some y => shareMembers s s.cur y | none => []
    bTile := if w.getLsbD 23 then some (field w 24 8, field (x 1) 0 32) else none
    aScale := if w.getLsbD 19 then some (scaleOf (x 2) kk (field w 12 2)) else none
    bScale := if w.getLsbD 20 then some (scaleOf (x 3) kk (field w 14 2)) else none }
/-- A region that the operation reads lies beyond its tile (R206). The A scales that count are those of the lanes up to the
highest active one (log entry 110). -/
def MatCall.outside (m : MatCall) (s : State) (p : Ply) : Bool :=
  let top := (p.lanes.getLast?.getD 0) + 1
  let t := p.ident.team
  (match m.bTile with | some (h, o) => beyond s t h (o + matBBytes m.shape m.bf) | none => false)
  || (match m.aScale with | some (h, o, nb) => beyond s t h (o + 2 * top * nb) | none => false)
  || (match m.bScale with | some (h, o, nb) => beyond s t h (o + 2 * (matDims m.shape).1 * nb) | none => false)
/-- The first check that fails, in the order of R214. -/
def MatCall.cause (m : MatCall) (s : State) (p : Ply) : Option Cause :=
  if givenAny (ownRegs p m.a.toNat m.na ++ ownRegs p m.d.toNat m.nd ++ m.bRegs) then some .givenReg
  else if p.a.role = 1 || p.a.role = 3 then some .role
  else if badBlock p m.mmai m.f.toNat m.share.isSome then some .formatBlock
  else if !m.known || !shapeAdmits m.shape m.af m.bf then some .shape
  else if m.mmai && (liveBasis (m.cf == 9) p.ident.rnsmap).isNone then some .residue
  else if m.mmai && m.cf == 8 && m.d.toNat % 2 == 1 then some .pair
  else if m.a.toNat + m.na > 64 || m.d.toNat + m.nd > 64 || m.bRegs.any (fun (_, r) => r ≥ 64) then some .reserved
  else if m.tiles.any fun h => p.mode != 0 || (teamTile s (some p.ident.team) h).isNone then some .tileHandle
  else if m.outside s p then some .tileBounds
  else none
/-- The octet of the core that octet j of a ply is. -/
def octetOf (s : State) (p : Ply) (j : Nat) : Nat := homeLane s.cur p.width / 8 + j
/-- What holds the operation back: a frozen engine, its registers' rows, its tiles' counts, or three operations of an octet
(R53, R83, R210, R212, R342). -/
def MatCall.stalls (m : MatCall) (s : State) (p : Ply) : Bool :=
  let c := s.core (coreOf s.cur)
  c.frozen || readStalls c p (m.aRegs.map fun r => (r, p.lanes))
  || m.dRegs.any (fun r => (rowsOf (p.entry r) p.lanes).any (accWaits c p m.d.toNat m.shape m.cf))
  || m.bRows.any (fun n => c.pending n || c.lockedAcc n) || eopsFull s (coreOf s.cur) false p.ident.team m.tiles
  || (activeOctets p).any fun j => (c.mats.filter (·.octet == octetOf s p j)).length ≥ 3
/-- The lanes of a member's register that hold B. -/
def MatCall.shareUse (m : MatCall) (q : Ply) (r : Nat) : RegUse := (BitVec.ofNat 6 r, List.range (min (matDims m.shape).1 q.width))
/-- The bit errors of the rows that are read at issue, which the read finds (R55). -/
def MatCall.findErrors (m : MatCall) (s : State) (p : Ply) : Option State :=
  let c := s.core (coreOf s.cur)
  let own : List RegUse := m.aRegs.map fun r => (r, p.lanes)
  let bad := m.bRegs.filter fun (q, r) => errorRead c q [m.shareUse q r] []
  let acc : List RegUse := m.dRegs.map fun r => (r, p.lanes)
  if errorRead c p own acc || !bad.isEmpty then
    some (bad.foldl (fun s (q, r) => findRowErrors s q [m.shareUse q r] []) (findRowErrors s p own acc))
  else none
/-- The operation of octet j: A and a shared B are read at issue (R207, R213); p' has the rows of the accumulator. -/
def MatCall.op (m : MatCall) (s : State) (p p' : Ply) (j : Nat) : MatOp :=
  let c := s.core (coreOf s.cur)
  let ls := p.lanes.filter fun l => l / 8 == j
  let bBad := m.bRegs.findSome? fun (q, r) => poisonRead c q [m.shareUse q r]
  { seq := s.seq, octet := octetOf s p j, uid := p.uid, ply := s.cur, run := p.ident.run, team := p.ident.team, pc := p.a.pc
    residue := m.mmai, fn := m.fn, shape := m.shape, af := m.af, bf := m.bf, cf := m.cf, rnsmap := p.ident.rnsmap
    codebook := if m.bf = 4 then (p.a.cb.toList.getD (field m.w 16 3) none) else none
    lanes := ls, dReg := m.d.toNat, accRows := m.dRegs.filterMap fun r => rowOf (p'.entry r) (8 * j)
    aReg := m.a.toNat, aCount := m.na, aRows := (m.aRegs.flatMap fun r => rowsOf (p'.entry r) ls).eraseDups
    bRows := m.bRows, aWords := ls.map fun l => m.aRegs.map fun r => regWord c p r l
    bBytes := match m.share with | some y => shareBytes s (coreOf s.cur) y m.members m.shape m.bf | none => []
    bTile := m.bTile, aScale := m.aScale, bScale := m.bScale, tiles := m.tiles
    badRow := (poisonRead c p (m.aRegs.map fun r => (r, ls))).or bBad
    reported := false, initial := none }
/-- The state with the operations entered. -/
def MatCall.issued (m : MatCall) (s : State) (p p' : Ply) (c' : Core) : State :=
  takeRows s.cur p' (takeTiles p.ident.team m.tiles
    ((s.setCore (coreOf s.cur) { c' with mats := c'.mats ++ (activeOctets p).map (m.op s p p') }).bump))
/-- MMA and MMAI. -/
def matIssue (i : Instr) (mmai : Bool) (d a : VReg) (f : SReg) (shp : BitVec 5) (fn : MatFn) (s : State) : Out :=
  perform {} (encode i) s fun p =>
    let m := matCall mmai d a f shp fn s p
    if p.lanes.isEmpty then .next s
    else match m.cause s p with
      | some c => .before s c 0 0
      | none =>
        if m.stalls s p then .stall
        else match m.findErrors s p with
        | some s => .again s
        | none =>
        match prepareRegs (s.core (coreOf s.cur)) p p.lanes m.dRegs with
          | none => rowWait s p
          | some (c', p') => .next (m.issued s p p' c')
def execMma (d a : VReg) (f : SReg) (shp : BitVec 5) (n : MatFn) (s : State) : Out := matIssue (.mma d a f shp n) false d a f shp n s
def execMmai (d a : VReg) (f : SReg) (shp : BitVec 5) (n : MatFn) (s : State) : Out := matIssue (.mmai d a f shp n) true d a f shp n s

/-! ## Completion (R211, R212, R216) -/

/-- Removes operations from an engine; the tiles of an instruction are released with its last octet. -/
def dropMats (core : Nat) (f : MatOp → Bool) (s : State) : State :=
  let gone := (s.core core).mats.filter f
  let s := s.modCore core fun c => { c with mats := c.mats.filter fun m => !f m }
  ((gone.map (·.seq)).eraseDups).foldl (fun s q =>
    if (s.core core).mats.any (·.seq == q) then s
    else match gone.find? (·.seq == q) with | some m => releaseTiles m.team m.tiles s | none => s) s
/-- The saved operations that meet a test are discarded: the frame still tells of them, and they do not continue. -/
def SavedOctet.discard (f : MatOp → Bool) (x : SavedOctet) : SavedOctet := { x with gone := x.gone ++ (x.live.filter f).map (·.seq) }
def Core.dropSaved (c : Core) (f : MatOp → Bool) : Core :=
  { c with saved := (c.saved.map (·.discard f)).filter fun x => !x.live.isEmpty }
/-- A kill abandons the ply's operations (R217). -/
def abandonMats (core uid : Nat) (s : State) : State :=
  (dropMats core (·.uid == uid) s).modCore core (·.dropSaved (·.uid == uid))
/-- An operation fails: it writes nothing, and its ply takes the cause at its next issue boundary (R211). -/
def failMat (core : Nat) (m : MatOp) (cause : Cause) (s : State) : State :=
  let s := if m.reported then s
    else match s.live m.ply m.uid with
      | some p => s.setPly m.ply { p with deferred := p.deferred ++ [⟨cause, m.pc, 0, 0, true⟩] }
      | none => s
  dropMats core (fun y => y.seq == m.seq && y.octet == m.octet)
    (s.modCore core fun c => { c with mats := c.mats.map fun y => if y.seq = m.seq then { y with reported := true } else y })
/-- The held accumulator words of a lane. -/
def accWords (c : Core) (m : MatOp) (l : Nat) : List Word :=
  m.accRows.map fun n => match c.rows.find n with | some r => r.words.toList.getD (l % 8) 0 | none => 0
/-- A row with a poisoned accumulator word of an active lane. -/
def accBadRow (c : Core) (m : MatOp) : Option Nat :=
  if m.fn = .overwrite || m.initial.isSome then none
  else m.accRows.find? fun n => m.lanes.any fun l => match c.rows.find n with | some r => r.poison.getLsbD (l % 8) | none => false
/-- The tile words that an operation reads, for their errors. -/
def matReads (s : State) (m : MatOp) : List (Nat × Image) :=
  let lanes := m.lanes
  let rd := fun h off n => (teamTile s (some m.team) h).map fun t => (h, t.read off n)
  let bs := match m.bTile with | some (h, o) => (rd h o (matBBytes m.shape m.bf)).toList | none => []
  let as := match m.aScale with | some (h, o, nb) => lanes.filterMap fun l => rd h (o + 2 * l * nb) (2 * nb) | none => []
  let ss := match m.bScale with | some (h, o, nb) => (rd h o (2 * nb * (matDims m.shape).1)).toList | none => []
  bs ++ as ++ ss
/-- The results of an operation, by lane. -/
def matResults (s : State) (core : Nat) (m : MatOp) : List (Nat × List Word) :=
  let tile := fun (x : Option Nat) => x.bind fun h => teamTile s (some m.team) h
  let bTile := tile (m.bTile.map (·.1))
  let b := match m.bTile with
    | some (_, o) => ofBytesLE (tileBytes m bTile o (matBBytes m.shape m.bf))
    | none => ofBytesLE m.bBytes
  let at_ := tile (m.aScale.map (·.1))
  let bt := tile (m.bScale.map (·.1))
  let kk := (matDims m.shape).2
  (m.lanes.zip m.aWords).zipIdx.map fun ((l, ws), i) =>
    (l, m.lane (wordsValue ws) b (m.scaleAt at_ m.aScale kk l) (fun n => m.scaleAt bt m.bScale kk n)
      (match m.initial with | some xs => xs.getD i [] | none => accWords (s.core core) m l))
/-- Writes the accumulator. -/
def writeAcc (m : MatOp) (rs : List (Nat × List Word)) (c : Core) : Core :=
  rs.foldl (fun c (l, ws) =>
    (m.accRows.zip ws).foldl (fun (c : Core) (n, w) =>
      match c.rows.find n with | some r => { c with rows := c.rows.put n (r.put (l % 8) w false) } | none => c) c) c
/-- The read of the held accumulator finds the bit errors of its rows (R55). -/
def accErrors (core : Nat) (m : MatOp) (s : State) : State :=
  if m.fn = .overwrite || m.initial.isSome then s
  else m.accRows.foldl (findInRow core (m.lanes.map (· % 8))) s
/-- An octet operation completes. DESIGN CHOICE: one that meets both a poisoned register word and a bad tile word takes 0x52; R211 gives no
order (log entry 134). -/
def completeMat (core : Nat) (m : MatOp) (s : State) : State :=
  let s := accErrors core m s
  let s := (matReads s m).foldl (fun s (h, i) => correctTile m.team h i.base i.bytes.length s) s
  let who := match s.live m.ply m.uid with | some p => plyid m.ply p | none => 0
  match m.badRow.or (accBadRow (s.core core) m) with
  | some n =>
    failMat core m .regError (errorEvent (unitOf core) ⟨0, 2, 0, 0, core, BitVec.ofNat 64 n, who, s.cycle⟩ (some (.row core n)) 0 s)
  | none => match (matReads s m).findSome? fun (h, i) => i.tileError.map fun e => (h, i, e) with
    | some (h, i, e) =>
      (match teamTile s (some m.team) h with
       | some t => failMat core m e (tileRecord m.team t i who s)
       | none => failMat core m e s)
    | none =>
      dropMats core (fun y => y.seq == m.seq && y.octet == m.octet) (s.modCore core (writeAcc m (matResults s core m)))
/-- An operation waits: the engine is frozen, an earlier operation of its chain or on its tiles has not ended (R84, R212). -/
def matHeld (s : State) (core : Nat) (m : MatOp) : Bool :=
  let c := s.core core
  c.frozen || tileHeld s core m.seq false (matUses m)
    || c.mats.any fun y => y.seq < m.seq && y.octet == m.octet && y.accRows.any m.accRows.contains
def execMmaComplete (seq octet : Nat) (s : State) : Out :=
  match s.cores.findSome? fun (c, x) => (x.mats.find? fun m => m.seq == seq && m.octet == octet).map fun m => (c, m) with
  | none => .refused .notEnabled
  | some (c, m) => if matHeld s c m then .refused .notEnabled else .next (completeMat c m s)

/-! ## Frames (R217 to R219, R342) -/

/-- The frame of operations that an octet holds: its number of words, and word w of lane i. Words 1 to NW-1 are free values
(log entry 12). -/
def frameSize (ms : List MatOp) : Nat := match ms with | [] => 1 | m :: _ => min 256 (2 + Config.frameExtra m.seq)
def opsFrameWord (ms : List MatOp) (w i : Nat) : Word :=
  match w, ms with
  | 0, _ => if i = 0 then BitVec.ofNat 32 (frameSize ms + 512 * ms.length + 4096) else 0
  | _, [] => 0
  | _, m :: _ => if w < frameSize ms then Config.frameWord m.seq i w else 0
/-- All words of such a frame. -/
def opsFrame (ms : List MatOp) : Frame :=
  ⟨(List.range (frameSize ms)).map fun w => (w, (List.range 8).map (opsFrameWord ms w))⟩
/-- The operations of an octet, oldest first. -/
def Core.octetOps (c : Core) (o : Nat) : List MatOp := c.mats.filter (·.octet == o)
/-- NW of a frame that MFILL has written: bits 8:0 of its header (R218). -/
def Frame.size (f : Frame) : Nat := ((f.words.getD 0 []).getD 0 0).toNat % 512
/-- Word w of lane i of such a frame; words at or beyond NW read 0 (R218), but the header itself, which lane 0 holds. -/
def Frame.word (f : Frame) (w i : Nat) : Word :=
  if w = 0 ∧ i ≠ 0 then 0 else if w = 0 ∨ w < f.size then (f.words.getD w []).getD i 0 else 0
/-- Word w of lane i of an octet's frame, as MSTATE reads it. -/
def frameWordAt (c : Core) (o w i : Nat) : Word :=
  match c.frames.find o with
  | some f => f.word w i
  | none => opsFrameWord (c.octetOps o) w i
/-- MSTATE and MFILL are the context ply's, while the engine is frozen (R219); with EM 0 they raise nothing (R135). -/
def frameOp (i : Instr) (s : State) (go : Ply → Core → Res) : Out :=
  perform {} (encode i) s fun p =>
    if p.lanes.isEmpty then .next s
    else if !isContext s.cur || p.mode = 0 then .before s .privileged 0 0
    else if !(s.core (coreOf s.cur)).frozen then .before s .illegal 0 0
    else go p (s.core (coreOf s.cur))
def execMstate (d : VReg) (w : BitVec 8) (s : State) : Out :=
  frameOp (.mstate d w) s fun p c => laneWrite s p d [] fun _ l => frameWordAt c (l / 8) w.toNat (l % 8)

/-- A pre-empted ply: Halted with 0x60. -/
def preempted (s : State) (k uid : Nat) : Bool :=
  match s.live k uid with | some p => p.state == .halted && p.halt.cause == Cause.preempt.code | none => false
/-- Takes the operations of an octet off the engine, because MFILL replaces their frame, with the accumulator words that it
held; their locks and tiles are released (R219; log entry 30). -/
def saveOctet (core o : Nat) (s : State) : State :=
  let c := s.core core
  let mine := c.octetOps o
  if mine.isEmpty then s
  else
    let first := fun (m : MatOp) => !(mine.any fun y => y.seq < m.seq && y.accRows.any m.accRows.contains)
    let kept := mine.map fun m =>
      let m := if first m && m.initial.isNone then
        { m with initial := some (m.lanes.map (accWords c m)), badRow := m.badRow.or (accBadRow c m) } else m
      { m with accRows := [], aRows := [], bRows := [] }
    (dropMats core (·.octet == o) s).modCore core fun c => { c with saved := c.saved ++ [⟨o, kept, []⟩] }
/-- The words that an MFILL writes into a frame: the lanes it does not write keep theirs. -/
def fillFrame (c : Core) (o w : Nat) (vals : List (Nat × Word)) : Frame :=
  let old : Frame := if w = 0 then ⟨[]⟩ else match c.frames.find o with | some f => f | none => opsFrame (c.octetOps o)
  let row := (List.range 8).map fun i => match vals.find? (·.1 == i) with | some (_, x) => x | none => (old.words.getD w []).getD i 0
  ⟨old.words.put w row⟩
/-- The words below NW that are not 0 in some lane, of the header that of lane 0: frames are compared so. -/
def Frame.norm (f : Frame) : Frame :=
  ⟨(f.words.map fun (w, r) => (w, if w = 0 then r.take 1 else r)).filter fun (w, r) => (w == 0 || w < f.size) && r.any (· != 0)⟩
def emptyFrame : Frame := ⟨[(0, [0x1001])]⟩
/-- The saved octet that a frame filled over octet o brings back: the latest whose frame it is. -/
def filledOctet (c : Core) (o : Nat) : Option SavedOctet :=
  (c.frames.find o).bind fun f => (c.saved.filter fun x => x.octet == o && (opsFrame x.ops).norm == f.norm).getLast?
/-- The saved operations of an octet whose frame has been filled back. -/
def filledOps (c : Core) (o : Nat) : List MatOp := (filledOctet c o).elim [] SavedOctet.live
/-- The operations that the frames hold. -/
def frozenOps (c : Core) : List MatOp := c.mats ++ c.frames.keys.flatMap (filledOps c)
/-- The rows of n registers from r that an operation uses, as its ply maps them now. -/
def MatOp.rowsNow (m : MatOp) (p : Ply) (r n : Nat) : List Nat :=
  let o := m.octet - homeLane m.ply p.width / 8
  (regList (BitVec.ofNat 6 r) n).filterMap fun v => rowOf (p.entry v) (8 * o)
/-- An operation on the rows that its ply's registers now hold. -/
def MatOp.onRows (m : MatOp) (p : Ply) : MatOp :=
  { m with accRows := m.rowsNow p m.dReg (matAccRegs m.shape), aRows := m.rowsNow p m.aReg m.aCount, bRows := [] }
/-- An operation continues. -/
def resumeMat (core : Nat) (s : State) (m : MatOp) : State :=
  match s.live m.ply m.uid with
  | none => s
  | some p => s.modCore core fun c => { c with mats := c.mats ++ [m.onRows p] }
/-- The locks of octet o's saved operations: those that its frame has brought back, of plies that have resumed, stand again (R53, R217). -/
def relock (core : Nat) (s : State) (o : Nat) : State :=
  let back := (filledOps (s.core core) o).map (·.seq)
  let lock := fun (m : MatOp) => match s.live m.ply m.uid with
    | some p => if back.contains m.seq && p.state != .halted then m.onRows p else { m with accRows := [], aRows := [] }
    | none => m
  s.modCore core fun c => { c with saved := c.saved.map fun x => if x.octet = o then { x with ops := x.ops.map lock } else x }
def execMfill (a : VReg) (w : BitVec 8) (s : State) : Out :=
  frameOp (.mfill a w) s fun p _ =>
    gated s p [(a, p.lanes)] [] fun c =>
      let octets := (p.lanes.map (· / 8)).eraseDups
      let vals := fun o => (p.lanes.filter fun l => l / 8 == o).map fun l => (l % 8, regWord c p a l)
      let core := coreOf s.cur
      .next (octets.foldl (fun s o =>
        relock core ((saveOctet core o s).modCore core fun c' => { c' with frames := c'.frames.put o (fillFrame c o w.toNat (vals o)) }) o) s)

/-- The saved octets that a frame filled over octet o may stand for when it fails its check. -/
def badOctets (c : Core) (o : Nat) : List SavedOctet :=
  if (filledOctet c o).isNone && (match c.frames.find o with | some f => f.norm != emptyFrame.norm | none => false) then
    c.saved.filter (·.octet == o)
  else []
/-- A saved octet holds an operation of a ply that has resumed. -/
def SavedOctet.resumed (s : State) (x : SavedOctet) : Bool := x.live.any fun m => (s.live m.ply m.uid).isSome && !preempted s m.ply m.uid
/-- The octets whose frame fails its check, once one of their plies has resumed. -/
def lostOctets (s : State) (c : Core) : List SavedOctet := (c.frames.keys.flatMap (badOctets c)).filter (·.resumed s)
/-- The engine operations of a core that have taken a tile: EOPS counts them (R83). -/
def usersOf (c : Core) (t h : Nat) : Nat :=
  ((c.mats.filter fun m => m.team == t && m.tiles.contains h).map (·.seq)).eraseDups.length
    + (c.copies.filter fun x => x.team == t && x.tiles.contains h).length
/-- Every operation that continues has EOPS and the hasp of its tiles as at issue, of tiles restored since too (R340). -/
def retakeTiles (core : Nat) (s : State) : State :=
  let c := s.core core
  c.mats.foldl (fun s m => m.tiles.foldl (fun s h => s.modTile m.team h fun x =>
    { x with eops := usersOf c m.team h, hasp := usersOf c m.team h != 0 }) s) s
/-- A saved operation may still be brought back: its ply is Halted, as a save leaves it (R342, R343). -/
def keepsSaved (s : State) (m : MatOp) : Bool := match s.live m.ply m.uid with | some p => p.state == .halted | none => false
/-- Thaws a core's engine (R219, R342). The operations in the frames continue. What a save has copied out stays with its
Halted ply until a restore brings it back; any other saved operation is discarded. The plies of an octet whose frame fails its check
take 0x52. DESIGN CHOICE: of a ply's discarded operations the first of the saved list gives the PC; the spec names none (log entry 133). -/
def thaw (core : Nat) (s : State) : State :=
  let c := s.core core
  let back := (c.frames.keys.flatMap (filledOps c)).filter fun m => (s.live m.ply m.uid).isSome
  let bad := (lostOctets s c).flatMap SavedOctet.live
  let goes := fun (m : MatOp) => !keepsSaved s m || (back ++ bad).any fun x => x.seq == m.seq && x.octet == m.octet
  let s := s.setCore core { c.dropSaved goes with frozen := false, freezeHeld := false, frames := [] }
  let s := retakeTiles core (back.foldl (resumeMat core) s)
  ((bad.map fun m => (m.ply, m.uid, m.pc)).eraseDups).foldl (fun s (k, uid, pc) =>
    match s.live k uid with
    | some p => if p.deferred.any (·.cause == .regError) then s else s.setPly k { p with deferred := p.deferred ++ [⟨.regError, pc, 0, 0, true⟩] }
    | none => s) s
/-- The engine may thaw: no frame holds an operation of a pre-empted ply, nor one that fails its check and none of whose plies has
resumed. -/
def thawReady (s : State) (core : Nat) : Bool :=
  let c := s.core core
  c.frozen && !c.freezeHeld && ((frozenOps c).all fun m => !preempted s m.ply m.uid)
    && c.frames.keys.all fun o => (badOctets c o).isEmpty || (badOctets c o).any (·.resumed s)
def execEngineThaw (core : Nat) (s : State) : Out :=
  if thawReady s core then .next (thaw core s) else .refused .notEnabled

end Sys2Proof.Machine
end

