-- ==== Sys2Proof/Machine/Mould.lean ====
section
/-! DEFINITION. Machine/Mould.lean: moulds, siblings and stamped items (R23 to R26, R246 to R255, R311), and EXIT (R244). -/
namespace Sys2Proof.Machine

/-! ## The mould table (R246, R247) -/

/-- A mould handle (Table 14-1). -/
def mouldHandle (core slot : Nat) (gen : BitVec 16) (rtag : BitVec 8) : DWord :=
  BitVec.ofNat 64 (slot + 2 ^ 24 * gen.toNat + 2 ^ 40 * rtag.toNat + 2 ^ 48 * core)
def Mould.handle (m : Mould) : DWord := mouldHandle m.maker m.slot m.gen m.rtag
/-- The generation of an entry; before it is first freed it is 1 (log entry 1). -/
def Core.genOf (c : Core) (e : Nat) : BitVec 16 := c.gens.getD e 1
/-- The entry of a core that a FRZ parked on rows keeps (R248). -/
def keptBy (s : State) (core : Nat) : List Nat :=
  s.plies.filterMap fun (k, p) => match p.wait with | .rows _ => if coreOf k = core then p.kept else none | _ => none
/-- The lowest-numbered free entry. -/
def freeEntry (s : State) (core : Nat) : Option Nat := lowestFree ((s.core core).moulds.keys ++ keptBy s core) 1024
/-- A core's entry that a handle names: its own, or an export. -/
def entryOf (s : State) (core : Nat) (h : DWord) : Option (Nat × Mould) := (s.core core).moulds.find? fun (_, m) => m.handle == h
/-- The maker's own entry of a handle, not dropped. -/
def makerOf (s : State) (run : Nat) (h : DWord) : Option Mould :=
  match (s.core (field h 48 16)).moulds.find (field h 0 10) with
  | some m => if m.handle = h ∧ m.run = run ∧ m.maker = field h 48 16 ∧ m.slot = field h 0 10 ∧ !m.dropped then some m else none
  | none => none
/-- A valid handle (R247): the entry of the ply's core that it names. An agent without a run has moulds of its own. -/
def validMould (s : State) (k : Nat) (p : Ply) (h : DWord) : Option (Nat × Mould) :=
  if field h 10 14 ≠ 0 ∨ field h 40 8 ≠ p.ident.rtag.toNat then none
  else match makerOf s p.ident.run h with
    | some _ => entryOf s (coreOf k) h
    | none => none

/-! ## Which items remain of a mould (R26, R252, R253) -/

def itemsPlaced (s : State) (core : Nat) (run : Nat) (h : DWord) : Nat :=
  (s.plies.filter fun (k, p) => coreOf k == core && p.ident.run == run && p.item == some h).length
    + (match s.run run with | some r => (r.bound.filter fun (k, x) => coreOf k == core && x.handle == h).length | none => 0)
def itemsQueued (s : State) (run : Nat) (h : DWord) : Nat :=
  match s.run run with | some r => (r.stampq.filter (·.handle == h)).length | none => 0
/-- Over the run. -/
def itemsAll (s : State) (run : Nat) (h : DWord) : Nat :=
  (s.plies.filter fun (_, p) => p.ident.run == run && p.item == some h).length
    + (match s.run run with | some r => (r.bound.filter fun (_, x) => x.handle == h).length | none => 0) + itemsQueued s run h
/-- An export of a handle that its items still wait for, or that a held slot's core still lacks. -/
def exportWaits (s : State) (run : Nat) (h : DWord) : Bool :=
  (s.cores.any fun (c, x) => x.moulds.any fun (_, m) => m.handle == h && !m.complete && itemsPlaced s c run h + itemsQueued s run h != 0)
  || (match s.run run with | some r => r.bound.any fun (k, x) => x.handle == h && (entryOf s (coreOf k) h).isNone | none => false)

/-- Frees an entry: its rows are released and its generation advances, skipping 0. -/
def dropMould (core e : Nat) (s : State) : State :=
  match (s.core core).moulds.find e with
  | none => s
  | some m =>
    let s := s.releaseMap core m.image.rows
    let g := (s.core core).genOf e + 1
    s.modCore core fun c => { c with moulds := c.moulds.drop e, gens := c.gens.put e (if g = 0 then 1 else g) }
/-- Frees the entries of a dropped mould on the cores where no item of it remains, placed or queued. -/
def settleMould (run : Nat) (h : DWord) (s : State) : State :=
  if (makerOf s run h).isSome || itemsQueued s run h ≠ 0 then s
  else s.cores.keys.foldl (fun s c =>
    match entryOf s c h with
    | some (e, m) =>
      if m.run ≠ run || itemsPlaced s c run h ≠ 0 || (m.maker = c && m.slot = e && exportWaits s run h) then s else dropMould c e s
    | none => s) s

/-! ## FRZ (R248) -/

/-- What a mould captures (Table 14-4). -/
def capture (p : Ply) (ws : List (BitVec 32)) (d : SReg) (h : DWord) (rows : Vector RowEntry 64) : Arch :=
  { ((p.setS d h).setQ 0 false).a with
    pc := p.a.pc + 4, wmsig := p.fedSig ws, rows := rows, pins := mapPins p.a.pins fun x => { x with outer := false } }
def execFrz (d : SReg) (g : Guard) (s : State) : Out :=
  let ws := encode (.frz d g)
  guarded closing ws g s fun p =>
    let k := s.cur
    let core := coreOf k
    if storesOut s k p ≠ 0 || copiesOut s k p ≠ 0 || tilesOut s k p ≠ 0 then .stall
    else
      let mine := match p.wait with | .rows _ => p.kept | _ => none
      match (match mine with | some e => some e | none => freeEntry s core) with
      | none => .next (s.setPly k ((p.setS d 0).setQ 0 true))
      | some e =>
        let c := s.core core
        if c.shareStalls p.a.rows then .stall
        else if c.shareErrors p.a.rows then .again (findShared core p.a.rows s)
        else match c.shareMap p.a.rows with
          | none => rowWait (s.setPly k { p with kept := some e }) p
          | some (rows, c') =>
            let h := mouldHandle core e (c.genOf e) p.ident.rtag
            let m : Mould :=
              { gen := c.genOf e, rtag := p.ident.rtag, run := p.ident.run, maker := core, slot := e, width := p.width
                dropped := false, exported := false, complete := true, image := capture p ws d h rows, held := p.held }
            .next ((s.setCore core { c' with moulds := c'.moulds.put e m }).setPly k { (p.setS d h).setQ 0 true with kept := none })

/-! ## RSTR (R249, R250) -/

/-- The ply holds the very ticket that the mould recorded: of the same press, with the same number, and no PBIND since (R250). -/
def sameTicket (p : Ply) (m : Mould) : Bool :=
  match p.held, m.held with
  | some a, some b => a.team == b.team && a.press == b.press && a.ticket == b.ticket && a.binding == b.binding
  | _, _ => false
/-- The press state that an image takes (R250, Table 14-4). -/
def Arch.noTicket (a : Arch) : Arch := { a with role := 0, ticket := 0, slotIx := 0, phase := false }
/-- DESIGN CHOICE: R252 keeps items from an export that is not complete, and says nothing of RSTR and CAST; they stand back until it is
(log entry 132). -/
def execRstr (a : SReg) (g : Guard) (s : State) : Out :=
  let ws := encode (.rstr a g)
  guarded closing ws g s fun p =>
    let k := s.cur
    match (validMould s k p (p.sreg a)).filter fun (_, m) => m.width == p.width with
    | none => .before s .mouldHandle 0 0
    | some (_, m) =>
      if p.held.isSome && !sameTicket p m then .before s .ticket 0 0
      else if !drained s k p || !m.complete then .stall
      else
        let s' := s.releaseMap (coreOf k) p.a.rows
        let c := s'.core (coreOf k)
        if c.shareStalls m.image.rows then .stall
        else if c.shareErrors m.image.rows then .again (findShared (coreOf k) m.image.rows s)
        else match c.shareMap m.image.rows with
          | none => rowWait s p
          | some (rows, c') =>
            let image := { (if p.held.isSome then m.image else m.image.noTicket) with rows := rows }
            let q := { p.complete closing ws image.pc with a := image, retry := 0, inUi := false, uiDepth := 0, barMark := .none
                                                           watched := none, armed := none }
            .stay (disarm k ((s'.setCore (coreOf k) c').setPly k q))

/-! ## Starting a ply of a run (R11, R20, Table 14-4) -/

/-- What a ply takes from its run and its team (R302, R337). -/
def teamIdent (run : Nat) (r : Run) (team : Nat) (t : Team) : Ident :=
  { run := run, team := team, teamid := BitVec.ofNat 32 t.number, runid := r.runid, rtag := BitVec.ofNat 8 (r.tag.getD 0)
    tenant := some r.desc.tenant, aspace := r.desc.aspace, udel := r.desc.udel, prio := r.desc.prio, cap := r.cap
    ctrap := r.ctrap, rnsmap := r.rnsmap }
/-- The slots of a run that are held for stamped items. -/
def boundOf (s : State) (run : Nat) : List (Nat × StampItem) := match s.run run with | some r => r.bound | none => []
/-- A slot of a team holds a ply, or is held for an item. -/
def teamBusy (s : State) (t : Team) : Bool :=
  t.slots.any fun n => s.plies.mem (agentKey t.core n) || (boundOf s t.run).any fun (k, _) => k == agentKey t.core n
/-- A write, a copy or a push of a run on a core, by the plies of some slots, has not been performed (R236, R312). -/
def workLeft (s : State) (run core : Nat) (slots : Nat → Bool) : Bool :=
  let c := s.core core
  let mine := fun (k : Nat) => coreOf k == core && slots (slotOf k)
  c.stores.any (fun f => f.run == run && slots (slotOf f.ply) && !(f.writes.isEmpty && f.away.isEmpty))
  || c.copies.any (fun x => x.run == run && slots (slotOf x.ply))
  || s.windows.any (fun w => w.run == run && mine w.ply && w.entries.any (!·.taken))
  || s.unsent.any fun u => u.run == run && u.sender ≥ 1024 && mine u.ply
/-- A team meets every condition of R312. -/
def teamDone (s : State) (t : Team) : Bool :=
  !teamBusy s t && (match s.run t.run with | some r => r.stampq.isEmpty | none => true) && !workLeft s t.run t.core t.slots.contains
/-- The teams of a run that meet every condition are retired, and stay so. -/
def retireDone (run : Nat) (s : State) : State :=
  let done := s.teams.filter fun (_, t) => t.run == run && !t.retired && teamDone s t
  done.foldl (fun s (k, t) => (s.setTeam k { t with retired := true }).modRun run fun r => { r with retired := r.retired.add t.number }) s
/-- The slots of a team that are Free: no ply in them, and none held for a stamped item (R311). A retired team has none (R312). -/
def freeSlots (s : State) (team : Nat) : List Nat :=
  match s.team team with
  | none => []
  | some t =>
    if t.retired || teamDone s t then []
    else
      t.slots.filter fun n => !s.plies.mem (agentKey t.core n) && !(boundOf s t.run).any fun (k, _) => k == agentKey t.core n
/-- An image of a mould in a slot: its rows are shared on the core (R49). None when a row must be copied and none is free. -/
def startImage (s : State) (k : Nat) (m : Mould) (ident : Ident) (item : Option DWord) (f : Arch → Arch) : Option State :=
  let core := coreOf k
  let s := findShared core m.image.rows s
  match (s.core core).shareMap m.image.rows with
  | none => none
  | some (rows, c) =>
    let a := f { m.image.noTicket with rows := rows }
    some (({ s.setCore core c with seq := s.seq + 1 }).setPly k { Ply.start s.seq m.width 0 a ident with item := item, halt := slotHalt s k })

/-! ## Exports and items (R24 to R26, R252, R311) -/

/-- Copies rows to another core's store, each to a fresh row; none when too few are free. -/
def copyRows (src : Core) : List Nat → Core → Option (List Nat × Core)
  | [], dst => some ([], dst)
  | n :: ns, dst =>
    match dst.allocRow ((src.rows.find n).getD Row.fresh) with
    | some (x, dst) => (match copyRows src ns dst with | some (xs, dst) => some (x :: xs, dst) | none => none)
    | none => none
def copyMap (src : Core) : List RowEntry → Core → Option (List RowEntry × Core)
  | [], dst => some ([], dst)
  | .mapped ns :: es, dst =>
    (match copyRows src ns dst with
     | some (xs, dst) => (match copyMap src es dst with | some (ys, dst) => some (.mapped xs :: ys, dst) | none => none)
     | none => none)
  | e :: es, dst => match copyMap src es dst with | some (ys, dst) => some (e :: ys, dst) | none => none
/-- A row of a map is pending: an export reads it after its bit clears. -/
def mapPending (c : Core) (m : Vector RowEntry 64) : Bool := m.toList.any fun e => (entryRows e).any c.pending
/-- The rows of a map. -/
def mapRowList (m : Vector RowEntry 64) : List Nat := (m.toList.flatMap entryRows).eraseDups
/-- Completes the export in an entry of a core, when its maker's rows have landed and enough rows are free. -/
def completeExport (core e : Nat) (s : State) : Option State :=
  match (s.core core).moulds.find e with
  | none => none
  | some m =>
    let src := s.core m.maker
    match src.moulds.find m.slot with
    | none => none
    | some maker =>
      if m.complete || maker.handle ≠ m.handle || mapPending src maker.image.rows || (copyMap src maker.image.rows.toList (s.core core)).isNone then none
      else
        let s := (mapRowList maker.image.rows).foldl (findInRow m.maker []) s
        match copyMap (s.core m.maker) maker.image.rows.toList (s.core core) with
        | none => none
        | some (es, c) =>
          some (s.setCore core { c with moulds := c.moulds.put e { m with complete := true, image := { maker.image with rows := asMap es } } })
/-- Takes an entry of a core for an export, and completes it when it can. -/
def exportTo (m : Mould) (s : State) (core : Nat) : State :=
  match freeEntry s core with
  | none => s
  | some e =>
    let x := { m with exported := true, complete := false, image := { m.image with rows := Vector.replicate 64 .zero } }
    let s := s.modCore core fun c => { c with moulds := c.moulds.put e x }
    (completeExport core e s).getD s
/-- The maker of a mould has exported it. -/
def markExported (m : Mould) (s : State) : State :=
  s.modCore m.maker fun c => { c with moulds := c.moulds.mapVals fun _ x => if x.handle = m.handle then { x with exported := true } else x }
/-- Exports a mould to a core that was placed after its STAMP, for an item there; none while the core has no free entry (log
entry 100). -/
def lateExport (run core : Nat) (h : DWord) (s : State) : Option State :=
  match (s.core (field h 48 16)).moulds.find (field h 0 10), freeEntry s core with
  | some m, some _ => if m.handle = h ∧ m.run = run then some (exportTo m (markExported m s) core) else none
  | _, _ => none
/-- Starts a stamped item in a slot held for it, once its core's mould or export is complete. -/
def startItem (run k : Nat) (x : StampItem) (s : State) : Option State :=
  match s.run run, s.teams.find? fun (_, t) => t.run == run && t.core == coreOf k && t.slots.contains (slotOf k) with
  | some r, some (tk, t) =>
    (match entryOf s (coreOf k) x.handle with
     | none => lateExport run (coreOf k) x.handle s
     | some (_, m) =>
       if !m.complete || (s.core (coreOf k)).shareStalls m.image.rows then none
       else
         let s := s.setRun run { r with bound := r.bound.filter (·.1 != k) }
         (startImage s k m (teamIdent run r tk t) (some x.handle) (fun i => { i with wix := x.wix })).map (acquire (coreOf k) .package))
  | _, _ => none
/-- A slot is given to an item, and the item starts in it when it can. A dropped mould's entry is freed where no item of it is
left (R252). -/
def giveSlot (run k : Nat) (x : StampItem) (s : State) : State :=
  let s := s.modRun run fun r => { r with bound := r.bound ++ [(k, x)] }
  settleMould run x.handle ((startItem run k x s).getD s)
/-- A team among others, by team number. -/
def insertTeam : List (Nat × Team) → Nat × Team → List (Nat × Team)
  | [], x => [x]
  | y :: ys, x => if x.2.number < y.2.number then x :: y :: ys else y :: insertTeam ys x
/-- The Free slots of a run in the order in which items take them: the team's own first, then the others' (R25). -/
def slotsFor (s : State) (run : Nat) (own : Option Nat) : List Nat :=
  let ts := s.teams.filter fun (_, t) => t.run == run
  let byNumber := (ts.filter fun (k, _) => some k != own).foldl insertTeam []
  ((ts.filter fun (k, _) => some k == own) ++ byNumber).flatMap fun (k, t) => (freeSlots s k).map (agentKey t.core)
/-- The oldest queued items of a run take its Free slots, before anything else can (R25, R311). -/
def placeQueued (run : Nat) (s : State) : State :=
  match s.run run with
  | none => s
  | some r =>
    if r.stampq.isEmpty then s
    else
      ((slotsFor s run none).zip r.stampq).foldl (fun s (k, x) => giveSlot run k x (s.modRun run fun r => { r with stampq := r.stampq.tail })) s

/-- CAST: the items that wait in the stamp queue take Free slots first (R25, R251). DESIGN CHOICE: it stands back while the export on its
core is not complete (log entry 132). -/
def execCast (d a b : SReg) (g : Guard) (s : State) : Out :=
  guarded {} (encode (.cast d a b g)) g s fun p =>
    let k := s.cur
    match validMould s k p (p.sreg a) with
    | none => .before s .mouldHandle 0 0
    | some (_, m) =>
      let s := placeQueued p.ident.run s
      match (if p.mode ≠ 0 then [] else freeSlots s p.ident.team) with
      | [] => .next (s.setPly k (p.setQ 0 false))
      | n :: _ =>
        if (s.core (coreOf k)).shareStalls m.image.rows || !m.complete then .stall
        else
          let x := agentKey (coreOf k) n
          match startImage (release k .core s) x m p.ident none (fun i => { i with sibix := p.sreg b }) with
          | none => rowWait s p
          | some s' =>
            let q := Ply.start s.seq m.width 0 m.image p.ident
            .next (s'.modPly k fun p => (p.setS d (plyid x q)).setQ 0 true)

/-- The cores of a run that hold neither the mould nor its export. -/
def coresLacking (s : State) (run : Nat) (h : DWord) : List Nat :=
  ((s.teams.filter fun (_, t) => t.run == run).map fun (_, t) => t.core).eraseDups.filter fun c => (entryOf s c h).isNone

/-- The slots that new items can take at once, when the queued ones have taken theirs (R25). -/
def stampSlots (s : State) (run : Nat) (own : Nat) : List Nat := slotsFor s run (some own)
/-- The items of a STAMP: WIX rises from s[D] (R24). -/
def stampItem (h first : DWord) (i : Nat) : StampItem := ⟨h, first + BitVec.ofNat 64 i⟩
/-- n items of a mould are stamped: it is exported where it is missing, items take slots, and the rest is queued. -/
def stampAll (s : State) (m : Mould) (run own : Nat) (h first : DWord) (n : Nat) : State :=
  let lacking := coresLacking s run h
  let slots := stampSlots s run own
  let s := lacking.foldl (exportTo m) (release s.cur .package s)
  let s := if lacking.isEmpty then s else markExported m s
  let s := (slots.take n).zipIdx.foldl (fun s (x, i) => giveSlot run x (stampItem h first i) s) s
  s.modRun run fun r => { r with stampq := r.stampq ++ (List.range (n - slots.length)).map fun i => stampItem h first (slots.length + i) }
def execStamp (d a b : SReg) (g : Guard) (s : State) : Out :=
  guarded closing (encode (.stamp d a b g)) g s fun p =>
    let k := s.cur
    let run := p.ident.run
    let h := p.sreg a
    let n := (p.sreg b).toNat
    match validMould s k p h, makerOf s run h with
    | some _, some m =>
      if n = 0 then .next s
      else
        let s := retireDone run (placeQueued run s)
        let (slim, queued) := match s.run run with | some r => (r.desc.slim, r.stampq.length) | none => (0, 0)
        if (coresLacking s run h).any fun c => (freeEntry s c).isNone then .before s .mouldFull 0 0
        else if queued + (n - (stampSlots s run p.ident.team).length) > slim then .before s .stampLimit 0 0
        else .next (stampAll s m run p.ident.team h (p.sreg d) n)
    | _, _ => .before s .mouldHandle 0 0

/-! ## DROP and MINFO (R253, R254) -/

def execDrop (a : SReg) (g : Guard) (s : State) : Out :=
  guarded closing (encode (.drop a g)) g s fun p =>
    let k := s.cur
    let h := p.sreg a
    match (validMould s k p h).filter fun (_, m) => m.maker == coreOf k with
    | none => .next (s.setPly k (p.setQ 0 false))
    | some (e, m) =>
      let s := (s.modCore (coreOf k) fun c => { c with moulds := c.moulds.put e { m with dropped := true } }).setPly k (p.setQ 0 true)
      .next (settleMould p.ident.run h s)
/-- The code of a width (Table 14-5). -/
def widthCode (w : Nat) : Nat := if w = 8 then 0 else if w = 16 then 1 else if w = 32 then 2 else 3
/-- The rows that a map holds. -/
def mapRows (m : Vector RowEntry 64) : Nat := (m.toList.map fun e => (entryRows e).length).foldl (· + ·) 0
def mouldInfo (s : State) (k : Nat) (p : Ply) (h : DWord) : Nat :=
  let free := 2 ^ 48 * (1024 - (s.core (coreOf k)).moulds.length - (keptBy s (coreOf k)).length)
  match validMould s k p h with
  | none => free
  | some (_, m) =>
    1 + 2 * m.exported.toNat + 8 * widthCode m.width + 2 ^ 16 * min 65535 (itemsAll s p.ident.run h) + 2 ^ 32 * mapRows m.image.rows + free
def execMinfo (d a : SReg) (g : Guard) (s : State) : Out :=
  guarded {} (encode (.minfo d a g)) g s fun p =>
    let h := p.sreg a
    .next (s.setPly s.cur ((p.setS d (BitVec.ofNat 64 (mouldInfo s s.cur p h))).setQ 0 (validMould s s.cur p h).isSome))

/-! ## The part's own steps -/

/-- Slots of a run are Free, or one is held for an item that can start: the oldest items take them (R311). -/
def execStampQueuePlace (run : Nat) (s : State) : Out :=
  match s.run run with
  | none => .refused .notEnabled
  | some r =>
    match r.bound.findSome? fun (k, x) => startItem run k x s with
    | some s => .next s
    | none =>
      match slotsFor s run none, r.stampq with
      | _ :: _, _ :: _ => .next (placeQueued run s)
      | _, _ => .refused .notEnabled
/-- An export that waited completes, and the items that wait for it start. -/
def execExportComplete (core entry : Nat) (s : State) : Out :=
  match completeExport core entry s with
  | none => .refused .notEnabled
  | some s =>
    match (s.core core).moulds.find entry with
    | none => .next s
    | some m =>
      let bound := (boundOf s m.run).filter fun (k, x) => coreOf k == core && x.handle == m.handle
      .next (bound.foldl (fun s (k, x) => (startItem m.run k x s).getD s) s)

/-! ## EXIT (R244) -/

/-- A ply has left: its slot is Free, and the stamp queue takes it (R244); a dropped mould whose last item it was is freed. -/
def endPly (k : Nat) (s : State) : State :=
  match s.ply k with
  | none => s
  | some p =>
    let s := freeSlot k s
    let s := match p.item with | some h => settleMould p.ident.run h s | none => s
    if p.mode = 0 then placeQueued p.ident.run s else s
def execExit (g : Guard) (s : State) : Out :=
  guarded closing (encode (.exit g)) g s fun p =>
    if loadsOut s s.cur p ≠ 0 || tilesOut s s.cur p ≠ 0 then .stall else .stay (endPly s.cur s)

end Sys2Proof.Machine
end

