-- ==== Sys2Proof/Machine/Integrity.lean ====
section
/-! DEFINITION. Machine/Integrity.lean: regions and their retry, and the watermark check (R256 to R262). -/
namespace Sys2Proof.Machine

/-- IREG (R256): REGION is the next word, and EM and the watermark are recorded as they stand after its own contribution. -/
def execIreg (g : Guard) (s : State) : Out :=
  let ws := encode (.ireg g)
  guarded {} ws g s fun p =>
    if p.diverged then .before s .emDiverged 0 0
    else .next (s.setPly s.cur
      { p with region := p.a.pc + 4, retry := 0, regEm := p.a.em, regSig := p.fedSig ws, regMask := p.a.wmmask })
def execIregClose (g : Guard) (s : State) : Out :=
  guarded {} (encode (.iregClose g)) g s fun p => .next (s.setPly s.cur { p with region := 0 })

/-- WMK (R261, R262): it is not fed, and acts as NOP while a user interrupt is in progress. -/
def execWmk (sig : BitVec 16) (g : Guard) (s : State) : Out :=
  guarded { fed := false } (encode (.wmk sig g)) g s fun p =>
    if p.inUi then .next s
    else if p.a.wmsig = sig then .next (s.setPly s.cur { p with a := { p.a with wmsig := 0xFFFF, wmmask := 0xFFFF } })
    else .before s .watermark 0 0

/-- The ply restarts its region (R258). -/
def Ply.restart (p : Ply) : Ply :=
  { p with
    retry := p.retry + 1, wait := .none, words := [], stalled := false, unfinished := none, fullEm := none
    a := { p.a with em := p.regEm, knuckles := [], pins := mapPins p.a.pins fun x => { x with valid := false }
                    wmsig := p.regSig, wmmask := p.regMask, pc := p.region } }
/-- A consumed error in an open region: when every count is zero, the region runs again, with its record (R258, R347). -/
def execRegionRetry (k : Nat) (s : State) : Out :=
  match s.ply k with
  | none => .refused .notEnabled
  | some p =>
    match p.wait with
    | .retry _ =>
      if drained s k p then .next (checkRecord k p 8 (p.retry.toNat + 1) (p.region.setWidth 64) (s.setPly k p.restart))
      else .refused .notEnabled
    | _ => .refused .notEnabled

end Sys2Proof.Machine
end

