-- ==== Sys2Proof/Machine/Special.lean ====
section
/-! DEFINITION. Machine/Special.lean: the special registers of a ply by number, as SRD, SWR and the privileged forms reach
them (R54, R57, R58, R160; Tables 3-3 and 3-4). -/
namespace Sys2Proof.Machine

/-- %cnts (Table 3-4). -/
def cntsOf (s : State) (k : Nat) (p : Ply) : DWord :=
  BitVec.ofNat 64 (loadsOut s k p + 2 ^ 16 * storesOut s k p + 2 ^ 32 * copiesOut s k p + 2 ^ 48 * tilesOut s k p)
/-- RNSSTAT, UICTL, UICAUSE and a pin's state as words (Tables 3-3 and 3-4). -/
def Ply.rnsstat (p : Ply) : DWord := BitVec.ofNat 64 (p.a.rnsLoc.toNat + 256 * p.a.rnsMcnt.toNat + 65536 * p.a.rnsUnc.toNat)
def Ply.uicauseWord (p : Ply) : DWord := BitVec.ofNat 64 (p.uicause.toNat + 256 * p.uisrc.toNat + 65536 * p.uicix.toNat)
def Pin.word (x : Pin) : DWord := BitVec.ofNat 64 (x.valid.toNat + 2 * x.outer.toNat + 4 * x.sd.toNat)

/-- The value of special register n of a ply; none for an unlisted number (Table 3-3). -/
def readSpecial (s : State) (k : Nat) (p : Ply) (n : Nat) : Option DWord :=
  match n with
  | 0x000 => some p.a.em
  | 0x001 => some (BitVec.ofNat 64 p.width)
  | 0x002 => some (plyid k p)
  | 0x003 => some p.a.wix
  | 0x004 => some p.a.sibix
  | 0x005 => some (p.a.role.setWidth 64)
  | 0x006 => some (p.a.ticket.setWidth 64)
  | 0x007 => some (p.a.slotIx.setWidth 64)
  | 0x008 => some (BitVec.ofNat 64 p.a.phase.toNat)
  | 0x009 => some (p.a.fpmode.setWidth 64)
  | 0x00A => some (p.a.fpflags.setWidth 64)
  | 0x00B => some (p.a.rnsctl.setWidth 64)
  | 0x00C => some (p.ident.rnsmap.setWidth 64)
  | 0x00D => some p.rnsstat
  | 0x018 => some (cntsOf s k p)
  | 0x019 => some (p.region.setWidth 64)
  | 0x01A => some (p.retry.setWidth 64)
  | 0x01B => some (p.a.wmsig.setWidth 64)
  | 0x01C => some (p.a.wmmask.setWidth 64)
  | 0x01D => some (p.hintdrop.setWidth 64)
  | 0x01E => some (BitVec.ofNat 64 p.scopestat.toNat)
  | 0x01F => some (BitVec.ofNat 64 (s.cycle - s.coreReset))
  | 0x020 => some p.a.uivec
  | 0x021 => some (p.a.uictl.setWidth 64)
  | 0x022 => some p.uicauseWord
  | 0x023 => some p.uiepc
  | 0x024 => some p.uiem
  | 0x025 => some p.a.resbase
  | 0x028 => some (p.ident.teamid.setWidth 64)
  | 0x029 => some (p.ident.runid.setWidth 64)
  | 0x030 => some (p.a.qbackoff.setWidth 64)
  | n =>
    if 0x010 ≤ n ∧ n ≤ 0x017 ∨ 0x050 ≤ n ∧ n ≤ 0x057 then some (p.creg (BitVec.ofNat 3 n))
    else if 0x040 ≤ n ∧ n ≤ 0x047 then some (p.pin (BitVec.ofNat 3 n)).word
    else none

/-- A write of ones to RNSSTAT (Table 3-4). -/
def Ply.clearRnsstat (p : Ply) (v : DWord) : Ply :=
  { p with a := { p.a with
      rnsLoc := if field v 0 4 ≠ 0 then 0xF else p.a.rnsLoc
      rnsMcnt := if field v 8 8 ≠ 0 then 0 else p.a.rnsMcnt
      rnsUnc := if v.getLsbD 16 then false else p.a.rnsUnc } }

/-- What a write of a special register does. -/
inductive SpecialWrite where
  | done (p : Ply)
  | cause (c : Cause)

/-- A write of an RW register of Table 3-3 that keeps the fields it lists; none for a number without one. -/
def writeFields (p : Ply) (n : Nat) (v : DWord) : Option Ply :=
  match n with
  | 0x009 => some { p with a := { p.a with fpmode := v.setWidth 9 } }
  | 0x00A => some { p with a := { p.a with fpflags := v.setWidth 5 } }
  | 0x00B => some { p with a := { p.a with rnsctl := v.setWidth 2 } }
  | 0x01D => some { p with hintdrop := v.setWidth 32 }
  | 0x020 => some { p with a := { p.a with uivec := v &&& ~~~3#64 } }
  | 0x021 => some { p with a := { p.a with uictl := v.setWidth 24 &&& 0xFF0007 } }
  | 0x023 => some { p with uiepc := v &&& ~~~3#64 }
  | 0x024 => some { p with uiem := v &&& allLanes p.width }
  | 0x025 => some { p with a := { p.a with resbase := v &&& ~~~3#64 } }
  | 0x030 => some { p with a := { p.a with qbackoff := v.setWidth 16 } }
  | n => if 0x010 ≤ n ∧ n ≤ 0x017 then some (p.setC (BitVec.ofNat 3 n) v) else none

/-- SWR (R57, R160): EM under R12, the RW1C registers, CADD under R54, and the fields of the others. -/
def writeSpecial (p : Ply) (n : Nat) (v : DWord) : SpecialWrite :=
  if n = 0x000 then (if p.diverged then .cause .emDiverged else .done (p.setEm v))
  else if n = 0x009 ∧ field v 0 3 ≥ 5 then .cause .specialReg
  else if n = 0x00D then .done (p.clearRnsstat v)
  else if n = 0x01E then .done { p with scopestat := p.scopestat && !v.getLsbD 0 }
  else if 0x050 ≤ n ∧ n ≤ 0x057 then .done (p.setC (BitVec.ofNat 3 n) (p.creg (BitVec.ofNat 3 n) + v))
  else match writeFields p n v with
    | some p' => .done p'
    | none => .cause .specialReg

/-- A write of a special register of the acting ply. -/
def specialWrite (s : State) (p : Ply) (n : Nat) (v : DWord) : Res :=
  match writeSpecial p n v with
  | .done p' => .next (s.setPly s.cur p')
  | .cause c => .before s c 0 0

def execSrd (d : SReg) (n : BitVec 12) (g : Guard) (s : State) : Out :=
  guarded {} (encode (.srd d n g)) g s fun p =>
    match readSpecial s s.cur p n.toNat with
    | some v => .next (s.setPly s.cur (p.setS d v))
    | none => .before s .specialReg 0 0
def execSwr (d : SReg) (n : BitVec 12) (g : Guard) (s : State) : Out :=
  guarded {} (encode (.swr d n g)) g s fun p => specialWrite s p n.toNat (p.sreg d)

/-! The four rows of the table that name a register write by itself, as a step of the acting ply: they do what the write of
SWR does, and are no word, so that they move no PC and feed no watermark (log entry 23). -/

/-- A register write as a step of its own. -/
def registerStep (s : State) (n : Nat) (v : DWord) : Out :=
  match s.ply s.cur with
  | none => .refused .noActingPly
  | some p =>
    match writeSpecial p n v with
    | .done p' => .next (s.setPly s.cur p')
    | .cause c => .next (takeCause s.cur c p.a.pc 0 0 s)
def execEmWrite (v : BitVec 64) (s : State) : Out := registerStep s 0x000 v
def execCadd (c : CReg) (v : BitVec 64) (s : State) : Out := registerStep s (0x050 + c.toNat) v
def execRnsstatWrite (v : BitVec 64) (s : State) : Out := registerStep s 0x00D v
def execRegisterWrite (n : BitVec 12) (v : BitVec 64) (s : State) : Out := registerStep s n.toNat v

end Sys2Proof.Machine
end

