-- ==== Sys2Proof/Machine/Hyper.lean ====
section
/-! DEFINITION. Machine/Hyper.lean: the hypervisor registers (R331 to R337, R348, R352, R376; Tables 24-1, 24-2 and 25-3),
their writes as steps, and the halt and restore of a pre-empted tenant (R338, R342). -/
namespace Sys2Proof.Machine

/-! ## Partitions (R330, R334, R336) -/

def tcfgOf (s : State) (t : Nat) : BitVec 22 := s.hyp.tcfg.getD t 0
def tcfgEnabled (c : BitVec 22) : Bool := c.getLsbD 0
/-- A set range: its first set, and how many (R88, R334). -/
def tcfgSets (c : BitVec 22) : Nat × Nat :=
  let n := 2 ^ (8 - (c.extractLsb' 1 3).toNat)
  ((c.extractLsb' 4 4).toNat * n % 256, n)
def setIn (r : Nat × Nat) (x : Nat) : Bool := r.1 ≤ x && x < r.1 + r.2
def rangesMeet (a b : Nat × Nat) : Bool := a.1 < b.1 + b.2 && b.1 < a.1 + a.2
/-- The sets that an enabled tenant holds. -/
def heldSets (c : BitVec 22) : Nat × Nat := if tcfgEnabled c then tcfgSets c else (0, 0)
/-- The sets of a tenant under sweep: those of its old range that its new one lacks (R335). -/
def sweptSet (s : State) (t : Nat) (x : Nat) : Bool :=
  match s.hyp.sweepOld.find t with
  | some c => setIn (heldSets c) x && !setIn (heldSets (tcfgOf s t)) x
  | none => false
def otherTenants (t : Nat) : List Nat := (List.range 16).filter (· != t)
def tportQuads (s : State) (t : Nat) : BitVec 48 := (s.hyp.tport.getD t 0).extractLsb' 0 48
/-- Another enabled tenant holds one of these quads (R330). -/
def quadTaken (s : State) (t : Nat) (q : BitVec 48) : Bool :=
  (otherTenants t).any fun u => tcfgEnabled (tcfgOf s u) && tportQuads s u &&& q != 0
/-- The enabled tenant whose partition holds a core. -/
def coreTenant (s : State) (core : Nat) : Option Nat :=
  (List.range 16).find? fun t => tcfgEnabled (tcfgOf s t) && (tportQuads s t).getLsbD (quadOf core)
/-- The tile-store limit of a core (R336). -/
def tsLimit (s : State) (core : Nat) : Nat :=
  match coreTenant s core with | some t => ((tcfgOf s t).extractLsb' 16 5).toNat | none => 30

/-! ## Reads -/

def hypSweep (s : State) : DWord := maskOf s.hyp.sweepOld.keys
/-- The factor of Table 25-5 for the warmer of a stack's two sensors, in units of 0.125 C. -/
def heatFactor (s : State) (stack : Nat) : Nat :=
  let t := max (s.io.monitors.getD (32 + 2 * stack) 0) (s.io.monitors.getD (33 + 2 * stack) 0)
  if t < 680 then 1 else if t < 760 then 2 else 4
/-- The factor for its corrected events in the last second, of 1,100,000,000 cycles (R350). -/
def errorFactor (s : State) (stack : Nat) : Nat :=
  let n := ((s.rel.corrected.getD stack []).filter fun t => s.cycle ≤ t + 1100000000).length
  if n < 16 then 1 else if n < 256 then 2 else 4
/-- The time of a patrol pass of a stack, in cycles (R354; log entry 114). -/
def passTime (s : State) (stack : Nat) : Nat :=
  s.rel.scrcfg.toNat * 3960000000000 / min 16 (heatFactor s stack * errorFactor s stack)
/-- A pass in progress has run more than twice its time. -/
def passLate (s : State) (stack : Nat) : Bool :=
  match s.rel.passes.find stack with | some x => s.rel.scrcfg != 0 && x.start + 2 * passTime s stack < s.cycle | none => false
/-- The lagging bits (R354). -/
def laggingNow (s : State) : BitVec 8 :=
  (List.range 8).foldl (fun v j => if passLate s j then setBitTo v j true else v) s.rel.lagging
/-- The reliability registers and KEYCTL, 0x2E0 on (Table 25-3, R376). -/
def relRead (s : State) (n : Nat) : Option DWord :=
  match n with
  | 0x2E0 => some (s.rel.relcfg.setWidth 64)
  | 0x2E1 => some (s.rel.rnsmapw.setWidth 64)
  | 0x2E2 => some (s.rel.testmask.setWidth 64)
  | 0x2E3 => some (BitVec.ofNat 64 (s.rel.sinjEn.toNat + 2 * s.rel.sinjMode.toNat + 256 * s.rel.sinjMask.toNat))
  | 0x2E4 => some (s.rel.sinjSeed.setWidth 64)
  | 0x2E5 => some (s.rel.sinjRate.setWidth 64)
  | 0x2E6 => some (s.rel.scrcfg.setWidth 64)
  | 0x2E7 => some (BitVec.ofNat 64 ((laggingNow s).toNat + 256 * s.rel.deferring.toNat))
  | 0x2F8 => some (BitVec.ofNat 64 (s.hyp.keySlot.toNat + 256 * s.hyp.keyLoad.toNat + 512 * s.hyp.keyBusy.toNat))
  | n =>
    let count := fun (v : Vector (BitVec 32) 4) => some ((v.toList.getD (n % 4) 0).setWidth 64)
    if 0x2E8 ≤ n ∧ n < 0x2EC then count s.rel.cecnt
    else if 0x2EC ≤ n ∧ n < 0x2F0 then count s.rel.uecnt
    else if 0x2F0 ≤ n ∧ n < 0x2F4 then count s.rel.dropcnt
    else none
/-- The value of a hypervisor register; none for an unlisted number. -/
def hypRead (s : State) (n : Nat) : Option DWord :=
  if n = 0x200 then some s.hyp.astbase
  else if n = 0x201 then some (s.hyp.flten.setWidth 64)
  else if 0x210 ≤ n ∧ n < 0x220 then some (s.hyp.subq.getD (n - 0x210) 0)
  else if 0x220 ≤ n ∧ n < 0x230 then some ((tcfgOf s (n - 0x220)).setWidth 64)
  else if 0x230 ≤ n ∧ n < 0x240 then some ((s.hyp.tport.getD (n - 0x230) 0).setWidth 64)
  else if 0x240 ≤ n ∧ n < 0x278 then some (s.hyp.kway.getD (n - 0x240) 0)
  else if 0x280 ≤ n ∧ n < 0x2C0 then some ((s.hyp.vfpol.getD (n - 0x280) 0).setWidth 64)
  else if n = 0x2C0 then some (BitVec.ofNat 64 (s.hyp.preTen.toNat + 256 * s.hyp.preGo.toNat + 512 * s.hyp.preRestore.toNat))
  else if n = 0x2C1 then some (hypSweep s)
  else if n = 0x2C2 then some (s.hyp.csel.setWidth 64)
  else if n = 0x2C3 then
    let c := s.core s.hyp.csel.toNat
    some (BitVec.ofNat 64 (c.nreq + 256 * c.ncur))
  else relRead s n

/-! ## Writes -/

/-- What a write of a hypervisor register does; `wait` holds it back until something happens. -/
inductive HypWrite where
  | done (s : State)
  | cause (c : Cause)
  | wait

def HypWrite.check (ok : Bool) (s : State) : HypWrite := if ok then .done s else .cause .specialReg
def State.setHyp (s : State) (h : Hyp) : State := { s with hyp := h }

/-- Drops a queue's state; what was stored is discarded, and its parked plies run their instruction again (R310). -/
def dropQueue (x : Nat) (s : State) : State :=
  match s.queues.find x with
  | none => s
  | some q =>
    q.waiters.foldl (fun s w => match s.live w.ply w.uid with
      | some p => (match p.wait with | .queue y _ _ => if y = x then s.setPly w.ply p.wakeAgain else s | _ => s)
      | none => s) { s with queues := s.queues.drop x }
/-- The state of every mailbox ring is dropped. -/
def dropRings (s : State) : State :=
  s.queues.foldl (fun s (x, q) => match q.kind with | .ring _ => dropQueue x s | _ => s) s
/-- A write of MBTAB, of any value, drops the state of all rings: of those that it named, and of whatever the engines hold of
the descriptors that it names now (R310). -/
def writeMbtab (v : DWord) (s : State) : State :=
  let s := dropRings s
  let s := s.setHyp { s.hyp with mbtab := v &&& ~~~0xFFF#64 }
  if s.hyp.mbtab = 0 then s else (List.range 64).foldl (fun s k => dropQueue (ringPlace s k) s) s
/-- A write of SUBQ waits until the old queue is empty, and then drops its state and any at the new descriptor (R310). -/
def writeSubq (t : Nat) (v : DWord) (s : State) : HypWrite :=
  if v.extractLsb' 0 6 ≠ 0 then .cause .specialReg
  else
    let old := s.hyp.subq.getD t 0
    let x := placeOf s.io old.toNat
    let (stored, s) :=
      if old = 0 then (false, s)
      else match loadQueue none none x (.submission (BitVec.ofNat 4 t)) s with | (.ok q, s) => (q.count != 0, s) | (_, s) => (false, s)
    if stored then .wait
    else
      let s := if old = 0 then s else dropQueue x s
      let s := if v = 0 then s else dropQueue (placeOf s.io v.toNat) s
      .done (s.setHyp { s.hyp with subq := s.hyp.subq.setD t v 0 })
/-- A write of TCFG (R334, R335). -/
def writeTcfg (t : Nat) (v : DWord) (s : State) : HypWrite :=
  let c : BitVec 22 := v.setWidth 22
  let k := (c.extractLsb' 1 3).toNat
  let old := tcfgOf s t
  if k > 4 || (c.extractLsb' 4 4).toNat ≥ 2 ^ k || (c.extractLsb' 16 5).toNat > 30 then .cause .specialReg
  else if tcfgEnabled c && (otherTenants t).any fun u => rangesMeet (heldSets c) (heldSets (tcfgOf s u)) then .cause .specialReg
  else if tcfgEnabled c && quadTaken s t (tportQuads s t) then .cause .specialReg
  else if s.hyp.sweepOld.mem t then .wait
  else if (List.range 256).any fun x => setIn (heldSets c) x && s.hyp.sweepOld.keys.any fun u => sweptSet s u x then .wait
  else
    let lost := (List.range 256).any fun x => setIn (heldSets old) x && !setIn (heldSets c) x
    .done (s.setHyp { s.hyp with
      tcfg := s.hyp.tcfg.setD t c 0, sweepOld := if lost then s.hyp.sweepOld.put t old else s.hyp.sweepOld })
def writeTport (t : Nat) (v : DWord) (s : State) : HypWrite :=
  HypWrite.check (field v 56 8 = 0 && !(tcfgEnabled (tcfgOf s t) && quadTaken s t (v.extractLsb' 0 48)))
    (s.setHyp { s.hyp with tport := s.hyp.tport.setD t (v.setWidth 56) 0 })
/-- A user ply of a tenant. -/
def Ply.ofTenant (p : Ply) (t : Nat) : Bool := p.mode == 0 && p.ident.tenant == some (BitVec.ofNat 4 t)
/-- A wait that a halt makes the ply leave (Table 24-3, step 2). -/
def Wait.leaves : Wait → Bool
  | .rows _ | .page | .queue .. | .monitor _ | .latch _ | .barrier .. | .ptkt _ | .pwait _ | .copy .. => true
  | _ => false
/-- Step 2 of the halt for one ply: it leaves its wait, and keeps its unfinished lanes (R338, R344). -/
def leaveWait (t : Nat) (s : State) (k : Nat) : State :=
  match s.ply k with
  | some p =>
    if p.ofTenant t && p.state != .halted && p.wait.leaves then
      (withdraw k s).modPly k fun p => { p with state := .ready, wait := .none, words := [], kept := none, stalled := false }
    else s
  | none => s
/-- A write of PRE waits while GO reads 1 (R331, R344). With GO and no RESTORE the tenant's plies issue no more and leave their
waits at once (R338, steps 1 and 2). -/
def writePre (v : DWord) (s : State) : HypWrite :=
  if s.hyp.preGo then .wait
  else
    let s := s.setHyp { s.hyp with preTen := v.setWidth 4, preGo := v.getLsbD 8, preRestore := v.getLsbD 9 }
    .done (if s.hyp.preGo && !s.hyp.preRestore then s.plies.keys.foldl (leaveWait s.hyp.preTen.toNat) s else s)
/-- A write of CSPLIT: NREQ of core CSEL, at most the core's limit (R336). -/
def writeCsplit (v : DWord) (s : State) : State :=
  let core := s.hyp.csel.toNat
  s.modCore core fun c => { c with nreq := min (field v 0 5) (tsLimit s core) }
/-- A write of INJCTL: one with ARM arms the injector on the word that INJADDR names then (R352, Table 21-2). -/
def writeInjctl (v : DWord) (s : State) : HypWrite :=
  HypWrite.check (field v 1 2 ≠ 3) (s.setHyp { s.hyp with
    injArm := v.getLsbD 0, injAt := if v.getLsbD 0 then s.hyp.injaddr else s.hyp.injAt, injMode := fieldBits v 1 2, injFired := s.hyp.injFired && !v.getLsbD 3, injMask := fieldBits v 8 8 })
/-- A write of KEYCTL: LOAD acts on a zeroised slot, and waits while an earlier LOAD reads 1 (R376). -/
def writeKeyctl (v : DWord) (s : State) : HypWrite :=
  if s.hyp.keyLoad then .wait
  else
    let slot : BitVec 6 := v.setWidth 6
    let h := { s.hyp with keySlot := slot }
    if !v.getLsbD 8 then .done (s.setHyp h)
    else .done (s.setHyp { h with keyLoad := !s.keys.mem slot.toNat, keyBusy := s.keys.mem slot.toNat })
def setAt (v : Vector (BitVec 32) 4) (j : Nat) (x : BitVec 32) : Vector (BitVec 32) 4 := Vector.ofFn fun i => if i.val = j then x else v[i]
/-- The reliability registers and KEYCTL. -/
def relWrite (n : Nat) (v : DWord) (s : State) : HypWrite :=
  let put := fun (r : Rel) => { s with rel := r }
  match n with
  | 0x2E0 => HypWrite.check (v.toNat < 32) (put { s.rel with relcfg := v.setWidth 5 })
  | 0x2E1 => HypWrite.check (v.toNat < 1024) (put { s.rel with rnsmapw := v.setWidth 10 })
  | 0x2E2 => .done (put { s.rel with testmask := v.setWidth 16 })
  | 0x2E3 => HypWrite.check (field v 1 2 ≠ 3)
      (put { s.rel with sinjEn := v.getLsbD 0, sinjMode := fieldBits v 1 2, sinjMask := fieldBits v 8 8 })
  | 0x2E4 => HypWrite.check (field v 0 32 ≠ 0) (put { s.rel with sinjSeed := v.setWidth 32 })
  | 0x2E5 => .done (put { s.rel with sinjRate := v.setWidth 32 })
  | 0x2E6 => HypWrite.check (field v 0 10 ≤ 720) (put { s.rel with scrcfg := v.setWidth 10 })
  | 0x2F8 => writeKeyctl v s
  | n =>
    let j := n % 4
    if 0x2E8 ≤ n ∧ n < 0x2EC then .done (put { s.rel with cecnt := setAt s.rel.cecnt j (v.setWidth 32) })
    else if 0x2EC ≤ n ∧ n < 0x2F0 then .done (put { s.rel with uecnt := setAt s.rel.uecnt j (v.setWidth 32) })
    else if 0x2F0 ≤ n ∧ n < 0x2F4 then .done (put { s.rel with dropcnt := setAt s.rel.dropcnt j (v.setWidth 32) })
    else .cause .specialReg
/-- A write of a hypervisor register; an unlisted or a read-only number raises 0x09 (R288). -/
def hypWrite (n : Nat) (v : DWord) (s : State) : HypWrite :=
  if n = 0x200 then .done (s.setHyp { s.hyp with astbase := v &&& ~~~0x3FFFF#64 })
  else if n = 0x201 then HypWrite.check (v.toNat < 16) (s.setHyp { s.hyp with flten := v.setWidth 4 })
  else if 0x210 ≤ n ∧ n < 0x220 then writeSubq (n - 0x210) v s
  else if 0x220 ≤ n ∧ n < 0x230 then writeTcfg (n - 0x220) v s
  else if 0x230 ≤ n ∧ n < 0x240 then writeTport (n - 0x230) v s
  else if 0x240 ≤ n ∧ n < 0x278 then .done (s.setHyp { s.hyp with kway := s.hyp.kway.setD (n - 0x240) v 0 })
  else if 0x280 ≤ n ∧ n < 0x2C0 then .done (s.setHyp { s.hyp with vfpol := s.hyp.vfpol.setD (n - 0x280) (v.setWidth 7) 0 })
  else if n = 0x2C0 then writePre v s
  else if n = 0x2C2 then HypWrite.check (field v 0 8 < 192) (s.setHyp { s.hyp with csel := v.setWidth 8 })
  else if n = 0x2C3 then .done (writeCsplit v s)
  else relWrite n v s

/-! The rows of the table that name a write of one hypervisor register: the write of the acting agent as a step of its own,
which moves no PC (log entry 23). -/

/-- A write as a step: outside hypervisor mode it raises 0x02 (R288). -/
def hypStep (s : State) (w : State → HypWrite) : Out :=
  match s.ply s.cur with
  | none => .refused .noActingPly
  | some p =>
    if p.mode ≠ 2 then .next (takeCause s.cur .privileged p.a.pc 0 0 s)
    else match w s with
      | .done s => .next s
      | .cause c => .next (takeCause s.cur c p.a.pc 0 0 s)
      | .wait => .refused .notEnabled
/-- A write of one of several registers of a kind. -/
def hypIndexed (s : State) (n limit i : Nat) (v : DWord) : Out :=
  if i < limit then hypStep s (hypWrite (n + i) v) else .refused .notEnabled
def execTcfgWrite (t : Nat) (v : BitVec 64) (s : State) : Out := hypIndexed s 0x220 16 t v
def execKwayWrite (port : Nat) (v : BitVec 64) (s : State) : Out := hypIndexed s 0x240 56 port v
def execSubqWrite (t : Nat) (v : BitVec 64) (s : State) : Out := hypIndexed s 0x210 16 t v
def execMbtabWrite (v : BitVec 64) (s : State) : Out :=
  hypStep s fun s => .done (writeMbtab v s)
def execCsplitWrite (v : BitVec 64) (s : State) : Out := hypStep s (hypWrite 0x2C3 v)
def execKeyctlLoad (slot : Nat) (s : State) : Out :=
  if slot < 64 then hypStep s (hypWrite 0x2F8 (BitVec.ofNat 64 (slot + 256))) else .refused .notEnabled
def execInjctlArm (v : BitVec 64) (s : State) : Out := hypStep s (writeInjctl (v ||| 1))

/-- LOAD reads 0 once every controller holds the fresh key. -/
def execKeyctlLoadDone (s : State) : Out :=
  if !s.hyp.keyLoad then .refused .notEnabled
  else .next { s with keys := s.keys.put s.hyp.keySlot.toNat s.nextKey, nextKey := s.nextKey + 1
                      hyp := { s.hyp with keyLoad := false } }
/-- The tenant to which the frame of a line is bound. -/
def lineTenant (s : State) (line : Nat) : Option Nat := match s.frame (line / 32) with | .bound t _ => some t.toNat | _ => none
/-- Every lost set is swept: the tenant's lines outside its range have left L2 (R335). -/
def execSweepEnd (t : Nat) (s : State) : Out :=
  if !s.hyp.sweepOld.mem t then .refused .notEnabled
  else
    .next { s with
      l2 := s.l2.filter fun x => !(lineTenant s x.line == some t && !setIn (heldSets (tcfgOf s t)) x.set)
      hyp := { s.hyp with sweepOld := s.hyp.sweepOld.drop t } }
/-- A pending split takes effect once no team is resident, and L1 is invalidated (R94, R336). -/
def execCarveOutApply (core : Nat) (s : State) : Out :=
  let c := s.core core
  let n := min c.nreq (tsLimit s core)
  if core ≥ 192 || n = c.ncur || s.teams.any fun (_, t) => t.core == core then .refused .notEnabled
  else .next (s.setCore core { c with ncur := n, l1 := [], l1Order := [] })

/-! ## The halt and the restore (R338, R339, R342) -/

/-- The cores that hold plies of a tenant. -/
def tenantCores (s : State) (t : Nat) : List Nat := ((s.plies.filter fun (_, p) => p.ofTenant t).map fun (k, _) => coreOf k).eraseDups
/-- The plies of a tenant do not issue while its halt is in progress (Table 24-3, step 1). -/
def haltsIssue (s : State) (p : Ply) : Bool := s.hyp.preGo && !s.hyp.preRestore && p.ofTenant s.hyp.preTen.toNat
/-- Step 3 is complete: what was issued has been performed, has landed or has stopped, but for the lanes of a ply parked on a page,
and for the loads that step 4 keeps. A returned store drains as any other: it is performed or has its cause once its page is served
(log entry 77). -/
def haltDrained (s : State) (t : Nat) : Bool :=
  s.cores.all (fun (_, c) =>
    c.stores.all (fun f => f.tenant != some (BitVec.ofNat 4 t) || (f.waiting && f.away.isEmpty))
    && c.loads.all (fun f => f.tenant != some (BitVec.ofNat 4 t) || f.counted)
    && c.copies.all (fun x => x.who.tenant != some (BitVec.ofNat 4 t)))
  && s.plies.all fun (_, p) => !p.ofTenant t || (pushesOut s p.uid == 0 && (match p.wait with | .push .. => false | _ => true))
/-- The loads of a tenant become replay packets, and the context generation of the core advances (Table 24-3, step 4). -/
def Core.packLoads (c : Core) (t : Nat) : Core :=
  { c with loads := c.loads.map fun f => if f.tenant = some (BitVec.ofNat 4 t) ∧ f.counted then { f with packet := true } else f
           ctxgen := c.ctxgen.put t (c.ctxgen.getD t 0 + 1), frozen := true }
/-- A retry that waits for its counts is taken up after the restore (R258, R338). -/
def Ply.keepRetry (p : Ply) : Ply :=
  match p.wait with | .retry c => { p with deferred := ⟨c, p.a.pc, 0, 0, true⟩ :: p.deferred } | _ => p
/-- Step 6 for one ply: it becomes Halted with 0x60. -/
def haltForPreempt (t : Nat) (s : State) (k : Nat) : State :=
  match s.ply k with
  | some p =>
    if p.ofTenant t && p.state != .halted then
      haltPly k Cause.preempt.code false p.a.pc 0 ((p.unfinished.map (·.mask)).getD 0)
        ((withdraw k s).modPly k fun p => { p.keepRetry with kept := none })
    else s
  | none => s
def execPrePreempt (t : Nat) (s : State) : Out :=
  if !s.hyp.preGo || s.hyp.preRestore || s.hyp.preTen.toNat ≠ t || !haltDrained s t then .refused .notEnabled
  else
    let cores := tenantCores s t
    let s := cores.foldl (fun s c => (pushCore c s).modCore c (·.packLoads t)) s
    let s := s.plies.keys.foldl (haltForPreempt t) s
    .next (cores.foldl (fun s c => setPevt (contextKey c) 1 s) (s.setHyp { s.hyp with preGo := false }))
def execPreRestore (t : Nat) (s : State) : Out :=
  if !s.hyp.preGo || !s.hyp.preRestore || s.hyp.preTen.toNat ≠ t then .refused .notEnabled
  else
    .next ((tenantCores s t).foldl (fun s c => setPevt (contextKey c) 1 (s.modCore c fun c => { c with frozen := true, freezeHeld := true }))
      (s.setHyp { s.hyp with preGo := false }))

end Sys2Proof.Machine
end

