-- ==== Sys2Proof/Machine/Priv.lean ====
section
/-! DEFINITION. Machine/Priv.lean: the privileged registers (R288, Table 21-2), reaching a halted ply (R290, R341, Tables
21-4 and 21-5), waiting and resuming (R291, R292), and translation (R293, R294). -/
namespace Sys2Proof.Machine

/-! ## The privileged registers (R288, Table 21-2) -/

/-- The ply in the slot that HSLOT names. -/
def slotKey (k : Nat) (p : Ply) : Nat := agentKey (coreOf k) p.priv.hslot.toNat
def hslotPly (s : State) (k : Nat) (p : Ply) : Option Ply := if p.priv.hslot = 63 then none else s.ply (slotKey k p)
/-- A lane mask of a slot placed at its core lanes. -/
def placed (k : Nat) (t : Ply) (m : DWord) : DWord := m <<< homeLane k t.width
def unplaced (k : Nat) (t : Ply) (m : DWord) : DWord := (m >>> homeLane k t.width) &&& allLanes t.width
/-- The H registers that HSLOT reaches: those of its slot, with a ply in it or none (R343). -/
def haltOf (s : State) (k : Nat) (p : Ply) : Halt := match hslotPly s k p with | some t => t.halt | none => slotHalt s (slotKey k p)
/-- An H register; a slot with no ply in it has the lane base and width of 64 lanes (log entry 112). -/
def haltRead (h : Halt) (up : DWord → DWord) (n : Nat) : DWord :=
  match n with
  | 0x104 => BitVec.ofNat 64 (h.cause.toNat + 256 * h.after.toNat)
  | 0x105 => h.pc.setWidth 64
  | 0x106 => up h.em
  | 0x107 => up h.umask
  | _ => h.addr
/-- A register of Table 21-2; none for an unlisted number, and for those of the slots on a service core. -/
def privRead (s : State) (k : Nat) (p : Ply) (n : Nat) : Option DWord :=
  if isService k && 0x102 ≤ n && n ≤ 0x108 then none
  else if 0x104 ≤ n ∧ n ≤ 0x108 then
    some (haltRead (haltOf s k p) (match hslotPly s k p with | some t => placed (slotKey k p) t | none => id) n)
  else match n with
    | 0x100 => some (p.mode.setWidth 64)
    | 0x101 => some ((pevtOf s k p).setWidth 64)
    | 0x102 => some (haltedSlots s (coreOf k))
    | 0x103 => some (p.priv.hslot.setWidth 64)
    | 0x110 => some p.priv.pvec
    | 0x111 => some p.priv.ppc
    | 0x112 => some p.priv.pem
    | 0x113 => some (BitVec.ofNat 64 (p.priv.pcause.toNat + 256 * p.priv.pinh.toNat))
    | 0x114 => some (p.priv.pmode.setWidth 64)
    | 0x115 => some (p.priv.paspace.setWidth 64)
    | 0x118 => some p.priv.hvec
    | 0x120 => some s.hyp.mbtab
    | 0x130 => some s.hyp.injaddr
    | 0x131 => some (BitVec.ofNat 64 (s.hyp.injArm.toNat + 2 * s.hyp.injMode.toNat + 8 * s.hyp.injFired.toNat + 256 * s.hyp.injMask.toNat))
    | _ => none
def execPsrd (d : SReg) (n : BitVec 12) (g : Guard) (s : State) : Out :=
  guarded {} [srWord 0x38 d n 0 g] g s fun p =>
    let k := s.cur
    let answer := fun (v : Option DWord) => match v with
      | some v => Res.next (s.setPly k ((p.setS d v).setQ 0 true)) | none => .before s .specialReg 0 0
    if n.toNat < 0x100 then answer (readSpecial s k p n.toNat)
    else if n.toNat < 0x200 then answer (privRead s k p n.toNat)
    else if n.toNat < 0x300 then (if p.mode ≠ 2 then .before s .privileged 0 0 else answer (hypRead s n.toNat))
    else .before s .specialReg 0 0

/-- A write of an H register. -/
def haltWrite (h : Halt) (down : DWord → DWord) (n : Nat) (v : DWord) : Halt :=
  match n with
  | 0x105 => { h with pc := alignPc v }
  | 0x106 => { h with em := down v }
  | _ => { h with umask := down v }
/-- It reaches the slot that HSLOT names. -/
def slotWrite (s : State) (k : Nat) (p : Ply) (n : Nat) (v : DWord) : State :=
  let x := slotKey k p
  match hslotPly s k p with
  | some t => s.setPly x { t with halt := haltWrite t.halt (unplaced x t) n v }
  | none => s.modCore (coreOf k) fun c => { c with halts := c.halts.put (slotOf x) (haltWrite (slotHalt s x) id n v) }
/-- A write of a register of Table 21-2 that hypervisor mode alone makes. -/
def hypOnlyWrite (n : Nat) (v : DWord) (p : Ply) (s : State) : HypWrite :=
  match n with
  | 0x118 => .done (s.setPly s.cur { p with priv := { p.priv with hvec := v } })
  | 0x120 => .done (writeMbtab v s)
  | 0x130 => .done (s.setHyp { s.hyp with injaddr := v })
  | _ => writeInjctl v s
/-- A write of a register of Table 21-2 (R288). -/
def privWrite (s : State) (k : Nat) (p : Ply) (n : Nat) (v : DWord) : HypWrite :=
  let put := fun (x : Priv) => HypWrite.done (s.setPly k { p with priv := x })
  if isService k && 0x102 ≤ n && n ≤ 0x108 then .cause .specialReg
  else if n = 0x118 ∨ n = 0x120 ∨ n = 0x130 ∨ n = 0x131 then (if p.mode ≠ 2 then .cause .privileged else hypOnlyWrite n v p s)
  else if 0x105 ≤ n ∧ n ≤ 0x107 then
    .done (slotWrite s k p n v)
  else match n with
    | 0x101 => put { p.priv with pevt := p.priv.pevt &&& ~~~(v.setWidth 5 &&& 0x1E) }
    | 0x103 => put { p.priv with hslot := v.setWidth 6 }
    | 0x110 => put { p.priv with pvec := v }
    | 0x111 => put { p.priv with ppc := v }
    | 0x112 => put { p.priv with pem := v &&& allLanes p.width }
    | 0x114 =>
      if field v 0 2 = 0 ∨ field v 0 2 = 3 then .cause .specialReg
      else if field v 0 2 = 2 ∧ p.mode ≠ 2 then .cause .privileged
      else put { p.priv with pmode := v.setWidth 2 }
    | 0x115 => put { p.priv with paspace := v.setWidth 13 }
    | _ => .cause .specialReg
/-- The end of a PSWR; a success sets q0 (R289). -/
def HypWrite.res (s : State) : HypWrite → Res
  | .done s' => .next (s'.modPly s'.cur fun p => p.setQ 0 true)
  | .cause c => .before s c 0 0
  | .wait => .stall
def execPswr (d : SReg) (n : BitVec 12) (g : Guard) (s : State) : Out :=
  guarded {} [srWord 0x39 d n 0 g] g s fun p =>
    if n.toNat < 0x100 then
      (match writeSpecial p n.toNat (p.sreg d) with
       | .done p' => .next (s.setPly s.cur (p'.setQ 0 true))
       | .cause c => .before s c 0 0)
    else if n.toNat < 0x200 then (privWrite s s.cur p n.toNat (p.sreg d)).res s
    else if n.toNat < 0x300 then
      (if p.mode ≠ 2 then .before s .privileged 0 0 else (hypWrite n.toNat (p.sreg d) s).res s)
    else .before s .specialReg 0 0

/-! ## Reaching a halted ply: PLYX (R290) -/

/-- An instruction that acts on the Halted slot HSLOT of a context ply; any other issuer, or a slot that is not Halted, sets
q0 to 0 and changes nothing (R290). -/
def onHalted (ws : List (BitVec 32)) (g : Guard) (s : State) (go : Ply → Nat → Ply → Res) : Out :=
  guarded {} ws g s fun p =>
    match (if isContext s.cur then hslotPly s s.cur p else none) with
    | some t => if t.state = .halted then go p (slotKey s.cur p) t else .next (s.setPly s.cur (p.setQ 0 false))
    | none => .next (s.setPly s.cur (p.setQ 0 false))
/-- It ends with q0. -/
def endX (s : State) (ok : Bool) : Res := .next (s.modPly s.cur fun p => p.setQ 0 ok)

/-- The row waits for a replay (R290): a replay packet, or the unfinished lanes of an instruction. -/
def Core.replayPending (c : Core) (n : Nat) : Bool :=
  c.loads.any (fun f => f.rows.contains n && (f.packet || f.waiting)) || c.stores.any fun f => f.rows.contains n && f.waiting
/-- A flight that still lands data of its own accord. -/
def Flight.live (f : Flight) : Bool := !f.packet && (!f.waiting || f.pieces.any (!·.poison))
/-- The row is pending on a live load. -/
def Core.livePending (c : Core) (n : Nat) : Bool :=
  c.loads.any (fun f => f.rows.contains n && f.live) || c.stores.any fun f => f.rows.contains n && f.live
/-- The target's lanes whose context lanes are active. -/
def reachedLanes (k : Nat) (p t : Ply) : List Nat := (List.range t.width).filter fun l => p.a.em.getLsbD (homeLane k t.width + l)

def execXrdv (d a : VReg) (g : Guard) (s : State) : Out :=
  onHalted [uWord 0x31 d a 0 0 g] g s fun p k t =>
    let c := s.core (coreOf k)
    let h := homeLane k t.width
    let ls := reachedLanes k p t
    let rows := rowsOf (t.entry a) ls
    let own : List RegUse := [(d, ls.map (· + h))]
    if anyGiven p own then .before s .givenReg 0 0
    else if rows.any c.livePending || (!c.frozen && rows.any c.lockedAcc) || writeStalls c p own then .stall
    else if rows.any c.rowErrors then .again (rows.foldl (findInRow (coreOf k) []) s)
    else
      let vals := ls.map fun l => (⟨h + l, c.word (t.entry a) l, c.poisoned (t.entry a) l⟩ : LaneVal)
      writeLanes s p [(d, vals)] fun p => p.setQ 0 (t.entry a != .given)
def execXwrv (d a : VReg) (g : Guard) (s : State) : Out :=
  onHalted [uWord 0x31 d a 0 1 g] g s fun p k t =>
    let c := s.core (coreOf k)
    let h := homeLane k t.width
    let ls := reachedLanes k p t
    let own : List RegUse := [(a, ls.map (· + h))]
    if t.entry d = .given || (entryRows (t.entry d)).any c.replayPending then endX s false
    else if anyGiven p own then .before s .givenReg 0 0
    else if readStalls c p own || (rowsOf (t.entry d) ls).any c.writeWaits then .stall
    else if (rowsUsed p own ++ rowsCopied c t [(d, ls)]).any c.rowErrors then
      .again ((rowsUsed p own ++ rowsCopied c t [(d, ls)]).foldl (findInRow (coreOf k) []) s)
    else
      let vals := ls.map fun l => (⟨l, c.word (p.entry a) (h + l), c.poisoned (p.entry a) (h + l)⟩ : LaneVal)
      match writeReg c t d vals with
      | some (c', t') => endX ((s.setCore (coreOf k) c').setPly k t') true
      | none => rowWait s p
def execXrds (d a : SReg) (g : Guard) (s : State) : Out :=
  onHalted [uWord 0x31 d a 0 2 g] g s fun p _ t => endX (s.setPly s.cur (p.setS d (t.sreg a))) true
def execXwrs (d a : SReg) (g : Guard) (s : State) : Out :=
  onHalted [uWord 0x31 d a 0 3 g] g s fun p k t => endX (s.setPly k (t.setS d (p.sreg a))) true
def execXrdsp (d : SReg) (n : BitVec 12) (g : Guard) (s : State) : Out :=
  onHalted [srWord 0x31 d n 4 g] g s fun p k t =>
    match readSpecial s k t n.toNat with
    | some v => endX (s.setPly s.cur (p.setS d v)) true
    | none => .before s .specialReg 0 0
/-- A write of a halted ply's special register (R290): what SWR writes, the registers that R290 adds, and plain values where
SWR clears by ones. -/
def foreignWrite (t : Ply) (n : Nat) (v : DWord) : SpecialWrite :=
  match n with
  | 0x000 => .done (t.setEm v)
  | 0x003 => .done { t with a := { t.a with wix := v } }
  | 0x004 => .done { t with a := { t.a with sibix := v } }
  | 0x00D => .done { t with a := { t.a with rnsLoc := fieldBits v 0 4, rnsMcnt := fieldBits v 8 8, rnsUnc := v.getLsbD 16 } }
  | 0x019 => .done { t with region := alignPc v }
  | 0x01A => .done { t with retry := v.setWidth 2 }
  | 0x01B => .done { t with a := { t.a with wmsig := v.setWidth 16 } }
  | 0x01C => .done { t with a := { t.a with wmmask := v.setWidth 16 } }
  | 0x01E => .done { t with scopestat := v.getLsbD 0 }
  | 0x022 => .done { t with uicause := fieldBits v 0 7, uisrc := fieldBits v 8 2, uicix := fieldBits v 16 3 }
  | n => writeSpecial t n v
def execXwrsp (d : SReg) (n : BitVec 12) (g : Guard) (s : State) : Out :=
  onHalted [srWord 0x31 d n 5 g] g s fun p k t =>
    match foreignWrite t n.toNat (p.sreg d) with
    | .done t' => endX (s.setPly k t') true
    | .cause c => .before s c 0 0

/-! ## Packed words (Table 21-5) -/

def boolsWord (f : Nat → Bool) (n : Nat) : DWord := maskOf ((List.range n).filter f)
/-- Knuckle entry j, counted from the bottom; above the depth it is what XWPK last wrote there. -/
def Ply.knuckle (t : Ply) (j : Nat) : Knuckle :=
  if j < t.a.knuckles.length then t.a.knuckles.reverse.getD j ⟨0, 0⟩ else t.above.getD j ⟨0, 0⟩
def pinAt (t : Ply) (k : Nat) : Pin := t.a.pins.toList.getD k Pin.empty
def stateCode : SlotState → Nat | .ready => 1 | .parked => 2 | .yielded => 3 | .halted => 4
/-- Words 66 to 73. -/
def packedTail (c : Core) (t : Ply) (w : Nat) : DWord :=
  let entryAt := fun (n : Nat) => t.a.rows.toList.getD n .zero
  match w with
  | 66 => BitVec.ofNat 64 (t.inUi.toNat + 2 * t.pendLwake.toNat + 4 * t.pendQueue.toNat + 8 * t.pendTrap.toNat + 256 * t.pendCopy.toNat)
  | 67 => let m := t.barMark; BitVec.ofNat 64 (m.valid.toNat + 2 * m.id.toNat + 32 * m.scope.toNat + 2 ^ 32 * m.phase.toNat)
  | 68 => (match t.watched with | some (_, va) => va | none => 0)
  | 69 => t.armed.getD 0
  | 70 => boolsWord (fun n => entryAt n == .given) 64
  | 71 => boolsWord (fun n => entryAt n == .zero) 64
  | 72 => boolsWord (fun n => (entryRows (entryAt n)).any c.replayPending) 64
  | 73 => BitVec.ofNat 64 (stateCode t.state)
  | _ => 0
/-- A packed word as XRPK reads it. -/
def packedRead (c : Core) (t : Ply) (w : Nat) : DWord :=
  if w < 8 then t.preg (BitVec.ofNat 3 w)
  else if w = 8 then
    boolsWord (fun n => t.qreg (BitVec.ofNat 3 n)) 8 ||| BitVec.ofNat 64 (2 ^ 16 * (t.a.knuckles.length % 32))
  else if w = 9 then boolsWord (fun n => if n < 8 then (pinAt t n).valid else (pinAt t (n - 8)).outer) 16
  else if w < 42 then
    let x := t.knuckle ((w - 10) / 2)
    if w % 2 = 0 then x.mask else x.pc.setWidth 64
  else if w < 66 then
    let x := pinAt t ((w - 42) / 3)
    match (w - 42) % 3 with | 0 => x.rm | 1 => x.am | _ => x.jp.setWidth 64 ||| (x.sd.setWidth 64 <<< 57)
  else packedTail c t w
def execXrpk (d a : SReg) (g : Guard) (s : State) : Out :=
  onHalted [uWord 0x31 d a 0 6 g] g s fun p k t =>
    let w := field (p.sreg a) 0 7
    endX (s.setPly s.cur (p.setS d (packedRead (s.core (coreOf k)) t w))) (w < 74)

/-- The knuckle stack takes a depth: entries above the old depth are what XWPK last wrote there. -/
def Ply.setDepth (t : Ply) (n : Nat) : Ply :=
  let xs := (List.range n).map t.knuckle
  let cut := (List.range t.a.knuckles.length).filter (n ≤ ·)
  { t with above := cut.foldl (fun m j => m.put j (t.knuckle j)) t.above, a := { t.a with knuckles := xs.reverse } }
def Ply.setKnuckle (t : Ply) (j : Nat) (x : Knuckle) : Ply :=
  let n := t.a.knuckles.length
  if j < n then { t with a := { t.a with knuckles := t.a.knuckles.set (n - 1 - j) x } } else { t with above := t.above.put j x }
def Ply.modPinAt (t : Ply) (k : Nat) (f : Pin → Pin) : Ply := t.setPin (BitVec.ofNat 3 k) (f (t.pin (BitVec.ofNat 3 k)))
/-- Words 0 to 67, which hold values of the ply alone. -/
def packedPut (t : Ply) (w : Nat) (v : DWord) : Ply :=
  if w < 8 then t.setP (BitVec.ofNat 3 w) (allLanes t.width) v
  else if w = 8 then ({ t with a := { t.a with q := v.setWidth 8 } }).setDepth (field v 16 5)
  else if w = 9 then
    (List.range 8).foldl (fun t k => t.modPinAt k fun x => { x with valid := v.getLsbD k, outer := v.getLsbD (8 + k) }) t
  else if w < 42 then
    let j := (w - 10) / 2
    t.setKnuckle j (if w % 2 = 0 then { t.knuckle j with mask := v } else { t.knuckle j with pc := alignPc v })
  else if w < 66 then
    t.modPinAt ((w - 42) / 3) fun x =>
      match (w - 42) % 3 with
      | 0 => { x with rm := v } | 1 => { x with am := v } | _ => { x with jp := alignPc v, sd := fieldBits v 57 5 }
  else if w = 66 then
    { t with inUi := v.getLsbD 0, pendLwake := v.getLsbD 1, pendQueue := v.getLsbD 2, pendTrap := v.getLsbD 3, pendCopy := fieldBits v 8 8 }
  else { t with barMark := ⟨v.getLsbD 0, fieldBits v 1 4, fieldBits v 5 3, fieldBits v 32 32, t.inUi⟩ }
/-- Word 68: the watched queue, by its descriptor's address in the target's space. -/
def packedWatch (k : Nat) (t : Ply) (v : DWord) (s : State) : State :=
  if v = 0 then s.setPly k { t with watched := none }
  else
    let (x, s) := translate (viewer k t) v .read s
    let place := match x with | .ok pa _ _ => placeOf s.io pa | _ => 2 ^ 64 + v.toNat
    s.setPly k { t with watched := some (place, v) }
/-- Word 69: the armed latch key; none when a new entry is needed and the table is full. -/
def packedArm (k : Nat) (t : Ply) (v : DWord) (s : State) : Option State :=
  let s := disarm k (s.setPly k { t with armed := none })
  if v = 0 then some s
  else
    let key := latchKeyOf t.ident.tenant v
    if latchFull s key then none
    else
      some ((s.putLatch key { s.latch key with armed := (s.latch key).armed ++ [k] }).modPly k fun t => { t with armed := some v })
/-- Word 70 on one register (R341): a replay-pending register stays Mapped. -/
def giveOne (c : Core) (t : Ply) (v : DWord) (n : Nat) : RowEntry :=
  match t.a.rows.toList.getD n .zero with
  | .mapped rs => if v.getLsbD n && !rs.any c.replayPending then .given else .mapped rs
  | _ => if v.getLsbD n then .given else .zero
/-- A frozen operation keeps no row that word 70 has released; row 16384 does not exist. -/
def MatOp.unlock (gone : List Nat) (m : MatOp) : MatOp :=
  let f := fun (n : Nat) => if gone.contains n then 16384 else n
  { m with accRows := m.accRows.map f, aRows := m.aRows.map f, bRows := m.bRows.map f }
/-- Word 70 acts on the row map (R341). It stalls while a row that it releases is pending on a live load, or locked by an
operation of a running engine; a frozen operation loses the row (28, "Word 70 releases every row of the map"). -/
def packedGive (k : Nat) (t : Ply) (v : DWord) (s : State) : Option State :=
  let c := s.core (coreOf k)
  let new := (List.range 64).map (giveOne c t v)
  let gone := (List.range 64).map fun n =>
    let old := t.a.rows.toList.getD n .zero
    if new.getD n .zero = old then RowEntry.zero else old
  let rows := gone.flatMap entryRows
  if rows.any fun n => c.livePending n || (!c.frozen && c.locked n) then none
  else
    let s := s.modCore (coreOf k) fun c => { c with mats := c.mats.map fun m => if m.uid = t.uid then m.unlock rows else m }
    some ((s.releaseMap (coreOf k) (asMap gone)).setPly k { t with a := { t.a with rows := asMap new } })
def execXwpk (d a : SReg) (g : Guard) (s : State) : Out :=
  onHalted [uWord 0x31 d a 0 7 g] g s fun p k t =>
    let w := field (p.sreg a) 0 7
    let v := p.sreg d
    let orStall := fun (x : Option State) => match x with | some s => endX s true | none => Res.stall
    if w < 68 then endX (s.setPly k (packedPut t w v)) true
    else if w = 68 then endX (packedWatch k t v s) true
    else if w = 69 then orStall (packedArm k t v s)
    else if w = 70 then orStall (packedGive k t v s)
    else endX s false

/-! ## Waiting and resuming (R291, R292) -/

def execIdle (d : SReg) (g : Guard) (s : State) : Out :=
  guarded {} [uWord 0x36 d 0 0 0 g] g s fun p =>
    let ev := pevtOf s s.cur p
    if ev = 0 then .park s .parked (.event d)
    else .next (s.setPly s.cur (({ p with priv := { p.priv with pevt := p.priv.pevt &&& ~~~(ev &&& 0x1E) } }.setS d (ev.setWidth 64)).setQ 0 true))

/-- A kill drops a ply's loads: the lane words that did not land are marked poisoned (R50). -/
def Core.dropLoads (c : Core) (uid : Nat) : Core :=
  let lost := (c.loads.filter (·.uid == uid)).flatMap (·.pieces)
  let rows := lost.foldl (fun (m : Map Row) x => match m.find x.row with
    | some r => m.put x.row { r with poison := setBitTo r.poison (x.lane % 8) true } | none => m) c.rows
  { c with rows := rows, loads := c.loads.filter (·.uid != uid)
           stores := c.stores.map fun f => if f.uid = uid then { f with waiting := false } else f }
/-- Kills a ply (R42): its loads are dropped, its frozen or running matrix operations abandoned (R217), and it leaves its slot. -/
def killPly (k : Nat) (s : State) : State :=
  match s.ply k with
  | none => s
  | some p => endPly k (abandonMats (coreOf k) p.uid (s.modCore (coreOf k) (·.dropLoads p.uid)))
/-- A kill is entered in the run: its CAUSE, PLY and PC are those of the first (R314). -/
def noteKill (run : Nat) (cause : BitVec 8) (who pc : DWord) (s : State) : State :=
  s.modRun run fun r =>
    if r.cause = 0 then { r with killed := true, cause := cause, causePly := who, causePc := pc } else { r with killed := true }

/-- The unfinished lanes that a resume replays: those of HUMASK (R292). -/
def Unfinished.narrow (u : Unfinished) (m : DWord) : Unfinished :=
  let reqs := u.reqs.filter fun r => m.getLsbD r.lane
  { u with mask := maskOf (reqs.map (·.lane)), reqs := reqs }
/-- The ply goes on at HPC with HEM. -/
def Ply.resume (t : Ply) (pc : Pc) : Ply :=
  { t with state := .ready, wait := .none, words := [], stalled := false, a := { t.a with em := t.halt.em, pc := pc } }
/-- The unfinished lanes that a resume takes up: none when HUMASK names none of them, or a lane that is not one, or when HPC has
moved (log entry 46). -/
def Ply.takenUp (t : Ply) : Option Unfinished :=
  ((t.unfinished.filter fun u => t.halt.umask &&& ~~~u.mask == 0).map (·.narrow t.halt.umask)).filter fun u =>
    !u.reqs.isEmpty && t.halt.pc == t.a.pc
/-- A resume takes up the unfinished lanes, or settles them. -/
def takeUp (k : Nat) (t : Ply) (s : State) : State :=
  match t.takenUp with | some u => s.setPly k { t with unfinished := some u } | none => settleUnfinished k s
/-- With HUMASK and no lanes to take up, the instruction at HPC runs over the lanes of HUMASK first (R292). -/
def Ply.narrowed (t : Ply) (m : DWord) : Ply := { t with fullEm := some t.a.em, a := { t.a with em := m } }
/-- The end of an RFE that resumes: a release of the context ply, and an acquire of the ply (R292); a pre-empted slot ends
the freeze that a restore holds (R342), and its frozen operations lock their rows again (R217). -/
def resumed (k : Nat) (t : Ply) (s : State) : State :=
  let c := coreOf k
  let s := if t.halt.cause = Cause.preempt.code then s.modCore c fun x => { x with freezeHeld := false } else s
  let s := (s.core c).frames.keys.foldl (relock c) s
  acquire c .package (release s.cur .package s)
/-- RFE code 0. -/
def rfeZero (k : Nat) (t : Ply) (s : State) : State :=
  let m := t.halt.umask
  resumed k t ((takeUp k t s).modPly k fun q =>
    let q := q.resume q.halt.pc
    if t.takenUp.isNone && m != 0 then q.narrowed m else q)
/-- RFE code 3 with HUMASK: the instruction counts as complete (R292); its words feed the watermark (R260). -/
def rfeThree (k : Nat) (t : Ply) (s : State) : State :=
  let ws := (t.unfinished.map (·.words)).getD []
  resumed k t ((settleUnfinished k s).modPly k fun t =>
    let t := { t with halt := { t.halt with umask := 0 } }
    (if ws.isEmpty then t else t.feed ws).resume (t.halt.pc + 4))
def rfeTwo (k : Nat) (t : Ply) (s : State) : State :=
  noteKill t.ident.run (t.halt.cause.setWidth 8) (plyid k t) (t.halt.pc.setWidth 64) (killPly k s)
/-- RFE code 1: the cause goes to the user handler (R36, R40). -/
def rfeOne (k : Nat) (s : State) : State :=
  let s := (settleUnfinished k s).modPly k fun q => { q with a := { q.a with em := q.halt.em } }
  acquire (coreOf k) .package (release k .package (s.modPly k fun q => q.deliver q.halt.cause 0 0 q.halt.pc))
/-- The ply may take its HCAUSE itself: EDT is set and the cause is delegable (Table 21-6, R39). -/
def deliverable (t : Ply) : Bool := t.a.uictl.getLsbD 2 && delegableCode t.halt.cause

/-- RFE (R292, Table 21-6). The code is in a register, so that the five rows of the table that have this word act alike. -/
def rfeWord (a : SReg) (g : Guard) (s : State) : Out :=
  guarded transfer [uWord 0x37 0 a 0 0 g] g s fun p =>
    let code := field (p.sreg a) 0 3
    let fail := Res.next (s.setPly s.cur (p.setQ 0 false))
    if code = 4 then (if p.priv.pinh then .jump (s.setPly s.cur p.returnOwn) (alignPc p.priv.ppc) else fail)
    else if code > 4 then fail
    else match (if isContext s.cur then hslotPly s s.cur p else none) with
      | none => fail
      | some t =>
        let k := slotKey s.cur p
        if t.state ≠ .halted then fail
        else match code with
          | 0 => endX (rfeZero k t s) true
          | 1 => if t.inUi then fail else if deliverable t then endX (rfeOne k s) true else endX (rfeTwo k t s) true
          | 2 => endX (rfeTwo k t s) true
          | _ => endX (if t.halt.umask = 0 then rfeZero k t s else rfeThree k t s) true
def execRfeResume (a : SReg) (g : Guard) (s : State) : Out := rfeWord a g s
def execRfeDeliver (a : SReg) (g : Guard) (s : State) : Out := rfeWord a g s
def execRfeKill (a : SReg) (g : Guard) (s : State) : Out := rfeWord a g s
def execRfeResumeNoReplay (a : SReg) (g : Guard) (s : State) : Out := rfeWord a g s
def execRfeReturn (a : SReg) (g : Guard) (s : State) : Out := rfeWord a g s

/-! ## Translation: TLBI and GENB (R293, R294) -/

/-- Removes the entries that meet a test from every TLB; a release at package scope. It sets q0 to 1. -/
def tlbRemove (s : State) (f : TlbEntry → Bool) : Res :=
  let s := release s.cur .package s
  endX { s with tlbs := s.tlbs.mapVals fun _ l => l.filter fun e => !f e } true
/-- The form of a TLBI that names a space. -/
def tlbForm (ws : List (BitVec 32)) (d : SReg) (g : Guard) (s : State) (ok : Ply → Bool) (f : Ply → Nat → TlbEntry → Bool) : Out :=
  guarded {} ws g s fun p =>
    if field (p.sreg d) 12 52 ≠ 0 || !ok p then endX s false
    else tlbRemove s fun e => e.space == (p.sreg d).toNat && f p (p.sreg d).toNat e
def execTlbiPage (d a : SReg) (g : Guard) (s : State) : Out :=
  tlbForm [uWord 0x3A d a 0 0 g] d g s (fun _ => true) fun p space e => e.covers space (p.sreg a).toNat
def execTlbiRange (d a b : SReg) (g : Guard) (s : State) : Out :=
  tlbForm [uWord 0x3A d a b 1 g] d g s (fun p => p.sreg b ≠ 0 && field (p.sreg b) 0 12 = 0) fun p _ e =>
    e.vbase < (p.sreg a).toNat + (p.sreg b).toNat && (p.sreg a).toNat < e.vbase + 2 ^ e.log
def execTlbiAs (d : SReg) (g : Guard) (s : State) : Out := tlbForm [uWord 0x3A d 0 0 2 g] d g s (fun _ => true) fun _ _ _ => true
def execTlbiAll (g : Guard) (s : State) : Out :=
  guarded {} [uWord 0x3A 0 0 0 3 g] g s fun _ => tlbRemove s fun _ => true

/-- An access that carries an old generation of the space remains between an agent and a controller (R112): a load that has
not landed. Its stores have been returned. -/
def oldAccess (s : State) (space : Nat) : Bool :=
  s.cores.any fun (_, c) => c.loads.any fun f =>
    f.space == space && !f.phys && f.gen != genOf s space && f.load.isSome && !f.packet && !(f.waiting && f.ready.isEmpty)
/-- A GENB of another ply still advances the space. -/
def genbBusy (s : State) (space : Nat) : Bool :=
  s.plies.any fun (_, p) => match p.wait with | .genb _ x => x == space | _ => false
def Ply.genbDone (p : Ply) (s : State) (d : SReg) (space : Nat) : Ply := (p.setS d ((genOf s space).setWidth 64)).setQ 0 true
/-! ### Stores that are returned with an old generation (R112, R325) -/

/-- A ply takes a cause of its store at its next issue boundary, for the lanes left; a consumed error may be retried (R258). -/
def deferStore (f : Flight) (c : Cause) (va : DWord) (left : List HomeWrite) (s : State) : State :=
  match s.live f.ply f.uid with
  | some p => s.setPly f.ply { p with deferred := p.deferred ++ [⟨c, f.pc, va, maskOf (left.map (·.lane)), true⟩] }
  | none => s
/-- A returned store stops with a cause: what of it waits for pages leaves the merge entries, and is left with the rest (R325). -/
def stopStore (core seq : Nat) (f : Flight) (c : Cause) (va : DWord) (left : List HomeWrite) (s : State) : State :=
  let waits := ((s.core core).stores.find? (·.seq == seq)).elim [] (·.away)
  deferStore f c va (waits ++ left) (unwaitWaiter (.store core seq) (modStore core seq (fun f => { f with away := [] }) s))
/-- How the agent of a flight translates. -/
def Flight.viewer (core : Nat) (f : Flight) : Viewer := ⟨f.space, f.tenant, f.phys, core⟩
/-- A returned write is translated and issued again: it is on its way to its new place, waits for its page, or has a cause. -/
def issueAgain (core seq : Nat) (f : Flight) (w : HomeWrite) (s : State) : Option Cause × State :=
  match translate (f.viewer core) w.va .write s with
  | (.cause c, s) => (some c, s)
  | (.absent level, s) =>
    if (f.tenant = none || !s.hyp.flten.getLsbD (dieOfCore core)) then (some .pageFault, s)
    else
      let s := modStore core seq (fun f => { f with away := f.away ++ [w] }) s
      (none, mergeMiss (dieOfCore core) f.space (w.va.toNat / 4096) level 1 (match s.live f.ply f.uid with | some p => plyid f.ply p | none => 0)
        f.tenant (genOf s f.space) (.store core seq) s)
  | (.ok pa _ _, s) =>
    let a := placeOf s.io pa
    match accessCheck s (f.viewer core).requester a w.bytes.length with
    | .ok => (none, plainWrite core seq { w with pa := a } s)
    | .cause c => (some c, s)
    | .fault _ => (some .protection, s)
/-- The writes of a flight are issued again in order, up to one that raises a cause. -/
def issueAll (core seq : Nat) (f : Flight) : List HomeWrite → State → State
  | [], s => s
  | w :: ws, s =>
    match issueAgain core seq f w s with
    | (none, s) => issueAll core seq f ws s
    | (some c, s) => stopStore core seq f c w.va (w :: ws) s
/-- A controller returns a store; its third return raises 0x23. -/
def returnStore (core : Nat) (s : State) (f : Flight) : State :=
  let ws := f.writes
  if ws.isEmpty then s
  else
    let s := modStore core f.seq (fun f => { f with writes := [], gen := genOf s f.space, stale := f.stale + 1 }) s
    let s := ws.foldl (fun s w => dropL1 core (lineOf w.pa) s) s
    if f.stale = 2 then deferStore f .staleGen ((ws.map (·.va)).headD 0) ws s else issueAll core f.seq f ws s
/-- The stores of a space that one core has on their way, by issue. -/
def spaceStores (s : State) (space core : Nat) : List Flight := (s.core core).stores.filter fun f => f.space == space && !f.phys
/-- The reductions of a space that one core holds are combined at home: they go before the generation advances (log entry 113). -/
def sendPartials (space : Nat) (s : State) (core : Nat) : State :=
  let marks := (spaceStores s space core).flatMap fun f => f.writes.filter (·.bytes.isEmpty)
  (marks.foldl (performWrite core) s).modCore core fun c => { c with stores := c.stores.map fun f =>
    if f.space = space ∧ !f.phys then { f with writes := f.writes.filter (!·.bytes.isEmpty) } else f }
/-- Every store of a space that is on its way from a core is returned. -/
def returnStores (space : Nat) (s : State) (core : Nat) : State := (spaceStores s space core).foldl (returnStore core) s
/-- GENB advances the generation: no TLB and no instruction cache keeps an entry of an older one, and the stores on their way
are returned (R112, R294, R325). -/
def advance (space : Nat) (s : State) : State :=
  let s := s.cores.keys.foldl (sendPartials space) s
  let s := { s with
    spaceGens := s.spaceGens.setD space (genOf s space + 1) 0
    tlbs := s.tlbs.mapVals fun _ l => l.filter fun e => !(e.space == space)
    cores := s.cores.mapVals fun _ c => { c with icache := c.icache.filter fun l => l.space != space } }
  s.cores.keys.foldl (returnStores space) s
/-- GENB (R294). DESIGN CHOICE: with s[A][63:12] nonzero it sets q0 to 0 and does nothing; R294 names s[A][11:0] alone (log entry 137). -/
def execGenb (d a : SReg) (g : Guard) (s : State) : Out :=
  guarded {} [uWord 0x3B d a 0 0 g] g s fun p =>
    let space := (p.sreg a).toNat
    if space / 4096 ≠ 0 then endX s false
    else if genbBusy s space then .stall
    else
      let s := advance space s
      if oldAccess s space then .park s .ready (.genb d space) else .next (s.modPly s.cur fun p => p.genbDone s d space)
def execGenbComplete (k : Nat) (s : State) : Out :=
  match s.ply k with
  | none => .refused .notEnabled
  | some p =>
    match p.wait with
    | .genb d space => if oldAccess s space then .refused .notEnabled else .next (s.setPly k (p.genbDone s d space).wakeDone)
    | _ => .refused .notEnabled
/-- A waiting WAITN completes when every count is within its limit (R158). -/
def execWaitnComplete (k : Nat) (s : State) : Out :=
  match s.ply k with
  | none => .refused .notEnabled
  | some p =>
    match p.wait with
    | .counts l st c m => if countsWithin s k p l st c m then .next (s.setPly k p.wakeDone) else .refused .notEnabled
    | _ => .refused .notEnabled

end Sys2Proof.Machine
end

