-- ==== Sys2Proof/Machine/Frames.lean ====
section
/-! DEFINITION. Machine/Frames.lean: frames, scrubbing, binding and keys (R295 to R298, R351, R379, R380), the patrol scrub
(R354 to R356), and bit errors that arise of themselves (R345, Table 25-1). -/
namespace Sys2Proof.Machine

/-- The first frame and the number of frames of a well-formed range of this package: aligned to 4 KiB, not empty (R289, R297). DESIGN
CHOICE: a range that lies outside this package's memory is not well formed either; the package holds no state of its frames (log entry
135). -/
def frameRange (io : Io) (base len : DWord) : Option (Nat × Nat) :=
  match target io base.toNat with
  | .memory a =>
    if a % 4096 = 0 ∧ len ≠ 0 ∧ len.toNat % 4096 = 0 ∧ a + len.toNat ≤ 2 ^ 39 then some (a / 4096, len.toNat / 4096) else none
  | _ => none
/-- The same for a range that SCRB takes: in installed memory, which the ranges of present packages belong to (R296, R357). The
frames of another package are numbered by their places. -/
def scrubRange (io : Io) (base len : DWord) : Option (Nat × Nat) :=
  match target io base.toNat with
  | .package _ a =>
    if a % 4096 = 0 ∧ len ≠ 0 ∧ len.toNat % 4096 = 0 ∧ a + len.toNat ≤ 2 ^ 39 then some (placeOf io base.toNat / 4096, len.toNat / 4096)
    else none
  | _ => frameRange io base len
def framesFrom (f n : Nat) : List Nat := (List.range n).map (f + ·)
def setFrames (x : FrameState) (fs : List Nat) (s : State) : State :=
  { s with frames := fs.foldl (fun m f => m.setD f x .quarantined) s.frames }
def FrameState.isBound : FrameState → Bool | .bound _ _ => true | _ => false
def FrameState.isScrubbing : FrameState → Bool | .scrubbing _ => true | _ => false

/-! ## Scrub jobs (R296) -/

/-- The lowest-numbered index with no job running. -/
def freeJob (s : State) : Option Nat :=
  (List.range 16).find? fun i => match s.jobs.find i with | some j => j.ended | none => true
/-- The sequence number of the next start of an index. -/
def nextJobSeq (s : State) (i : Nat) : BitVec 8 :=
  match s.jobs.find i with | some j => if j.seq + 1 = 0 then 1 else j.seq + 1 | none => 1
def jobHandle (i : Nat) (seq : BitVec 8) : DWord := BitVec.ofNat 64 (i + 256 * seq.toNat)
def execScrbStart (d a b : SReg) (g : Guard) (s : State) : Out :=
  guarded {} [uWord 0x3C d a b 0 g] g s fun p =>
    let k := s.cur
    let fail := Res.next (s.setPly k ((p.setS d 0).setQ 0 false))
    match scrubRange s.io (p.sreg a) (p.sreg b), freeJob s with
    | some (f, n), some i =>
      let fs := framesFrom f n
      if fs.any fun f => (s.frame f).isBound || (s.frame f).isScrubbing then fail
      else
        let seq := nextJobSeq s i
        let s := setFrames (.scrubbing i) (fs.filter fun f => !s.retiredFrames.contains f)
          { s with jobs := s.jobs.put i ⟨f, n, 0, false, false, some k, seq⟩ }
        .next (s.setPly k ((p.setS d (jobHandle i seq)).setQ 0 true))
    | _, _ => fail
/-- The job that a handle names. -/
def jobOf (s : State) (h : DWord) : Option (Nat × ScrubJob) :=
  match s.jobs.find (field h 0 4) with
  | some j => if jobHandle (field h 0 4) j.seq = h then some (field h 0 4, j) else none
  | none => none
def ScrubJob.word (j : ScrubJob) : DWord :=
  BitVec.ofNat 64 (j.done % 2 ^ 28 + 2 ^ 28 * (j.frames % 2 ^ 28) + 2 ^ 62 * j.aborted.toNat + 2 ^ 63 * j.ended.toNat)
def execScrbQuery (d a : SReg) (g : Guard) (s : State) : Out :=
  guarded {} [uWord 0x3C d a 0 1 g] g s fun p =>
    match jobOf s (p.sreg a) with
    | some (_, j) => .next (s.setPly s.cur ((p.setS d j.word).setQ 0 true))
    | none => .next (s.setPly s.cur ((p.setS d 0).setQ 0 false))
/-- A job ends, and its starter learns it (R296, R378). -/
def endJob (i : Nat) (j : ScrubJob) (s : State) : State :=
  let s := { s with jobs := s.jobs.put i { j with ended := true } }
  match j.starter with | some k => setPevt k 3 s | none => s
def execScrbAbort (a : SReg) (g : Guard) (s : State) : Out :=
  guarded {} [uWord 0x3C 0 a 0 2 g] g s fun p =>
    match jobOf s (p.sreg a) with
    | none => endX s false
    | some (i, j) =>
      if j.ended then endX s true
      else endX (endJob i { j with aborted := true } (setFrames .quarantined (framesFrom (j.first + j.done) (j.frames - j.done)) s)) true

/-- Frame f is written with zeros and becomes clean (R296). A frame of another package is written over Aktum. -/
def cleanFrame (f : Nat) (s : State) : State :=
  let out := fun (n size : Nat) => !(n / (4096 / size) == f)
  match targetAt s.io (4096 * f) with
  | .memory _ =>
    { s with
      mem := s.mem.filter fun (a, _) => out a 1
      poison := s.poison.sift fun w _ => out w 8
      latent := s.latent.filter fun x => out (x / 4) 8
      keyOf := s.keyOf.sift fun l _ => out l 128
      lost := s.lost.filter (out · 1) }
  | _ => writeAt (4096 * f) (List.replicate 4096 0) none s
/-- The stack that holds a line of this package defers scrub work (R355). -/
def scrubDeferred (s : State) (a : Nat) : Bool := s.rel.deferring.getLsbD (stackOfPa a)
/-- A stack that holds a part of a frame defers (R296, R355). -/
def frameDeferred (s : State) (f : Nat) : Bool := f < 2 ^ 27 && (List.range 32).any fun j => scrubDeferred s (4096 * f + 128 * j)
/-- The next frame of a job is scrubbed and becomes Free; a retired frame only counts (R351). -/
def execScrubJobProgress (i : Nat) (s : State) : Out :=
  match s.jobs.find i with
  | none => .refused .notEnabled
  | some j =>
    let f := j.first + j.done
    if j.ended || frameDeferred s f then .refused .notEnabled
    else
      let s := if s.retiredFrames.contains f then s else setFrames .free [f] (cleanFrame f s)
      let j := { j with done := j.done + 1 }
      .next (if j.done ≥ j.frames then endJob i j s else { s with jobs := s.jobs.put i j })
def execScrubDeferral (stack : Nat) (on : Bool) (s : State) : Out :=
  if stack ≥ 8 then .refused .notEnabled
  else .next { s with rel := { s.rel with deferring := setBitTo s.rel.deferring stack on } }

/-! ## BIND and UNBIND (R297) -/

/-- Status codes of R297. -/
def statusEnd (s : State) (d : SReg) (st : Nat) : Res :=
  .next (s.modPly s.cur fun p => (p.setS d (BitVec.ofNat 64 st)).setQ 0 (st = 0))
/-- BIND (R297). The lines that L2 holds of the frames leave it: a tenant's lines lie in its own sets (R88; log entry 21). -/
def execBind (d a b : SReg) (g : Guard) (s : State) : Out :=
  guarded {} [uWord 0x3F d a b 0 g] g s fun p =>
    let v := p.sreg d
    match frameRange s.io (p.sreg a) (p.sreg b) with
    | none => statusEnd s d 3
    | some (f, n) =>
      let fs := framesFrom f n
      if field v 4 4 ≠ 0 ∨ field v 14 50 ≠ 0 then statusEnd s d 3
      else if fs.any fun f => (s.frame f).isBound then statusEnd s d 2
      else if fs.any fun f => s.frame f != .free then statusEnd s d 1
      else
        let inside := fun (line : Nat) => f ≤ line / 32 && line / 32 < f + n
        statusEnd (setFrames (.bound (fieldBits v 0 4) (fieldBits v 8 6)) fs (evictL2 ((s.l2.map (·.line)).filter inside) s)) d 0

/-- An access in flight has still to be performed on a place that meets a test: a write on its way home. -/
def writesRemain (s : State) (f : Nat → Bool) : Bool := s.cores.any fun (_, c) => c.stores.any fun x => x.writes.any fun w => f w.pa
/-- A walk-ahead entry of a quad leads to a byte of n frames from f on, through the replica of its die or of the package
(R318, R357, R379). -/
def TlbEntry.meets (e : TlbEntry) (io : Io) (die f n : Nat) : Bool :=
  match target io (e.pa io die e.vbase) with | .memory a => a < 4096 * (f + n) && 4096 * f < a + 2 ^ e.log | _ => false
/-- Drops the lines of the instruction cache that meet a test. -/
def Core.dropCode (c : Core) (f : Nat → Bool) : Core := { c with icache := c.icache.filter fun x => !f x.line }
/-- What caches hold of frames leaves them: L1 and instruction-cache lines, walk-ahead entries, and L2 lines, which are written
back (R379). -/
def uncacheFrames (f n : Nat) (s : State) : State :=
  let inside := fun (line : Nat) => f ≤ line / 32 && line / 32 < f + n
  let s := evictL2 ((s.l2.map (·.line)).filter inside) s
  { s with
    cores := s.cores.mapVals fun _ c => (c.dropLines inside).dropCode inside
    tlbs := s.tlbs.mapVals fun id l => if 512 ≤ id ∧ id < 1024 then l.filter fun e => !e.meets s.io ((id - 512) / 12) f n else l }
/-- A released frame that was retire-pending is retired, with its record (R350, R351). -/
def retireFrames (fs : List Nat) (s : State) : State :=
  (fs.filter s.retirePending.contains).foldl (fun s f =>
    record (dieOfPa (4096 * f)) (lastingRecord 4 (.frame f) (4096 * f) s)
      { s with retirePending := s.retirePending.del f, retiredFrames := s.retiredFrames.add f }) s
def execUnbind (d a b : SReg) (g : Guard) (s : State) : Out :=
  guarded {} [uWord 0x3F d a b 1 g] g s fun p =>
    let v := p.sreg d
    match frameRange s.io (p.sreg a) (p.sreg b) with
    | none => statusEnd s d 3
    | some (f, n) =>
      let fs := framesFrom f n
      let mine := fun (x : FrameState) => match x with | .bound t _ => t == v.setWidth 4 | _ => false
      if field v 4 60 ≠ 0 then statusEnd s d 3
      else if fs.any fun f => !mine (s.frame f) then statusEnd s d 2
      else if writesRemain s fun x => 4096 * f ≤ x && x < 4096 * (f + n) then .stall
      else statusEnd (retireFrames fs (setFrames .quarantined fs (uncacheFrames f n s))) d 0

/-! ## KZRO (R298) -/

/-- A place lies in a frame that is bound with a key slot. -/
def carriesSlot (s : State) (slot : Nat) (x : Nat) : Bool :=
  x < 2 ^ 39 && (match s.frame (x / 4096) with | .bound _ k => k.toNat == slot | _ => false)
/-- The slot is zeroised once every access that carries it has been performed; what L1 holds under it goes with it. -/
def execKzro (a : SReg) (g : Guard) (s : State) : Out :=
  guarded {} [uWord 0x3D 0 a 0 0 g] g s fun p =>
    let slot := (p.sreg a).toNat
    if slot / 64 ≠ 0 then endX s false
    else if writesRemain s (carriesSlot s slot) || (s.hyp.keyLoad && s.hyp.keySlot.toNat == slot) then .stall
    else
      endX { s with
        keys := s.keys.drop slot
        cores := s.cores.mapVals fun _ c => c.dropLines fun line => carriesSlot s slot (128 * line) } true

/-! ## The patrol scrub, and bit errors (R345, R354) -/

/-- The patrol scrub reads a word of HBM: a single-bit error is corrected, an uncorrectable word is poisoned and logged as
latent. -/
def scrubWord (s : State) (x : Nat) : State := logLatent (findError s x) x
/-- A stack's pass has read one more line. With the last of its 2^29 lines it ends: on time it clears the lagging bit, which one
that has run more than twice its time sets (R354). -/
def notePass (stack line : Nat) (s : State) : State :=
  let x := s.rel.passes.getD stack ⟨s.cycle, []⟩
  let late := x.start + 2 * passTime s stack < s.cycle
  let lines := x.lines.add line
  let ends := lines.length ≥ 2 ^ 29
  { s with rel := { s.rel with
      lagging := if late then setBitTo s.rel.lagging stack true
        else if ends && s.cycle ≤ x.start + passTime s stack then setBitTo s.rel.lagging stack false else s.rel.lagging
      passes := if ends then s.rel.passes.drop stack else s.rel.passes.put stack ⟨x.start, lines⟩ } }
/-- A line of a stack that its pass has not read. -/
def execPatrolScrub (pa : Nat) (s : State) : Out :=
  match target s.io pa with
  | .memory a =>
    let stack := stackOfPa a
    if s.rel.scrcfg = 0 || scrubDeferred s a || (s.rel.passes.find stack).any fun x => x.lines.contains (lineOf a) then .refused .notEnabled
    else .next (notePass stack (lineOf a) ((s.latent.filter fun x => x % 2 == 0 && x / 4 / 16 == lineOf a).foldl scrubWord s))
  | _ => .refused .notEnabled

/-- A bit error in memory waits for the next read of its word; one in L2 lies in a line that L2 holds. -/
def latentError (pa : Nat) (bad l2 : Bool) (s : State) : Out :=
  match target s.io pa with
  | .memory a =>
    if l2 && !(s.l2.any (·.line == lineOf a)) then .refused .notEnabled
    else .next { s with latent := s.latent.add (4 * (a / 8) + 2 * bad.toNat + l2.toNat) }
  | _ => .refused .notEnabled
/-- The tile that holds a granule of a core's store, with its team, its handle and the granule of the tile (R82). -/
def tileAtGranule (s : State) (core granule : Nat) : Option (Nat × Nat × Nat) :=
  s.teams.findSome? fun (t, tm) => tm.tiles.findSome? fun (h, x) =>
    ((List.range x.granules).find? fun g => x.place tm.core (1024 * g) == (core, granule)).map fun g => (t, h, g)
/-- A bit error in a word of the row store waits for the next read of its row (R55). -/
def rowError (core row lane : Nat) (bad : Bool) (s : State) : Out :=
  match (s.core core).rows.find row with
  | some r =>
    if lane ≥ 8 then .refused .notEnabled
    else
      let r := if bad then { r with hard := setBitTo r.hard lane true } else { r with soft := setBitTo r.soft lane true }
      .next (s.modCore core fun c => { c with rows := c.rows.put row r })
  | none => .refused .notEnabled
/-- A word of a core's uniform store, by its offset: one bit error is corrected in the read. An uncorrectable one is consumed at
once by the agent that reads the word, which raises 0x52; an unread word is poisoned and logged as latent, and is consumed when it
is read (R345, R346). Which offset holds what is the part's own (log entry 115). -/
def uniformError (core offset : Nat) (reader : Option Nat) (bad : Bool) (s : State) : Out :=
  let poisoned := bad || (s.core core).uniBad.contains offset
  let res := BitVec.ofNat 64 offset
  let mark := fun (on : Bool) => s.modCore core fun c => { c with uniBad := if on then c.uniBad.add offset else c.uniBad.del offset }
  match reader with
  | none => .next (if bad then coreEvent core 1 1 res none (mark true) else s)
  | some k =>
    match s.ply k with
    | some p =>
      if coreOf k ≠ core then .refused .notEnabled
      else if !poisoned then .next (coreEvent core 1 0 res none s)
      else
        .next (errorEvent (unitOf core) ⟨1, 2, 0, 0, core, res, plyid k p, s.cycle⟩ none 0
          ((mark false).setPly k { p with deferred := p.deferred ++ [⟨.regError, p.a.pc, 0, 0, true⟩] }))
    | none => .refused .notEnabled
/-- A bit error in a tile's word: one that can be corrected waits for the next read, any other poisons the word. -/
def tileStoreError (core granule byte : Nat) (bad : Bool) (s : State) : Out :=
  match tileAtGranule s core granule with
  | some (t, h, g) =>
    let w := (1024 * g + byte) / 8
    if byte ≥ 1024 then .refused .notEnabled
    else .next (s.modTile t h fun y => if bad then { y with poison := y.poison.put w .memory } else { y with soft := y.soft.add w })
  | none => .refused .notEnabled
/-- The parity of a line that a core's L1 or instruction cache holds has failed: its next read drops it. -/
def spoilL1 (core line : Nat) (s : State) : Out :=
  if (s.core core).l1.mem line then
    .next (s.modCore core fun c => { c with l1 := c.l1.mapVals fun n l => if n = line then { l with bad := true } else l })
  else .refused .notEnabled
def spoilCode (core line : Nat) (s : State) : Out :=
  if (s.core core).icache.any (·.line == line) then
    .next (s.modCore core fun c => { c with icache := c.icache.map fun l => if l.line = line then { l with bad := true } else l })
  else .refused .notEnabled
/-- A bit error arises in an array (Table 25-1). -/
def execStorageError (e : ArrayError) (s : State) : Out :=
  match e with
  | .hbm pa bad => latentError pa bad false s
  | .l2 pa bad => latentError pa bad true s
  | .rowStore core row lane bad => rowError core row lane bad s
  | .uniformStore core offset reader bad => uniformError core offset reader bad s
  | .tileStore core granule byte bad => tileStoreError core granule byte bad s
  | .l1Line core line => spoilL1 core line s
  | .instructionCache core line => spoilCode core line s
  | .tlb core => .next { s with tlbs := s.tlbs.drop core }

end Sys2Proof.Machine
end

