-- ==== Sys2Proof/Machine/Faults.lean ====
section
/-! DEFINITION. Machine/Faults.lean: the part's own steps around the plies: the landing of loads and the acknowledgement of
stores (R50, R154), the wake of monitors (R108) and of plies parked on rows (R48), causes and user interrupts at an issue
boundary (R36, R37, R211, R228), and the fault units (R319 to R325). -/
namespace Sys2Proof.Machine

/-! ## Landings (R50, R154, R187) -/

def findFlight (s : State) (pick : Core → List Flight) (seq : Nat) : Option (Nat × Flight) :=
  s.cores.findSome? fun (c, x) => ((pick x).find? (·.seq == seq)).map fun f => (c, f)
/-- Returned load data writes its rows, and the pending bits clear. The old return of a replay packet is dropped (R339). -/
def execLoadLanding (seq : Nat) (s : State) : Out :=
  match findFlight s Core.loads seq with
  | none => .refused .notEnabled
  | some (c, f) =>
    if f.packet then .next s
    else if f.waiting && f.ready.isEmpty then .refused .notEnabled
    else .next (s.modCore c fun x => landLoad x f)
/-- A store or an atomic is performed at home and acknowledged; the old values of an atomic land. Lanes still to be replayed, and
writes that were returned and wait for their pages, stay (R187, R325). -/
def execStoreAck (seq : Nat) (s : State) : Out :=
  match findFlight s Core.stores seq with
  | none => .refused .notEnabled
  | some (c, f) =>
    if f.more && f.ready.isEmpty && f.writes.isEmpty then .refused .notEnabled
    else
      let s := f.writes.foldl (performWrite c) s
      .next (s.modCore c fun x => let y := f.ready.foldl landPiece x; { y with stores := afterLanding f y.stores })

/-! ## Wakes (R48, R108) -/

/-- A write performed at home has met an armed monitor's condition: an acquire at WAITC's scope. No later read of the core may
give an older value than the one that met it, so that its L1 copy of the line is dropped (R96, R108). A register is
tested as it stands, and a location outside the package is watched at its own home, which tells of a value that it holds (log entry
13). -/
def execMonitorWake (k : Nat) (s : State) : Out :=
  match s.ply k with
  | none => .refused .notEnabled
  | some p =>
    match p.wait with
    | .monitor m =>
      let w := if m.wide then 64 else 32
      let holds := fun x => waitHolds m.cond w x (m.comparand.toNat % 2 ^ w)
      let wake := fun (s : State) => acquire (coreOf k) m.scope (dropL1 (coreOf k) (lineOf m.pa) (s.setPly k p.wakeDone))
      match targetAt s.io m.pa with
      | .memory _ => if m.hit then .next (wake s) else .refused .notEnabled
      | .register off => if holds (ofBytesLE (registerRead s off (w / 8))) then .next (wake s) else .refused .notEnabled
      | _ => let (i, s) := outsideRead m.pa (w / 8) s; .next (if holds i.value then wake s else s)
    | _ => .refused .notEnabled

/-- A ply parked on rows tries its instruction again: it is Ready, and still counts as parked until the instruction issues. -/
def execRowWaitRetry (k : Nat) (s : State) : Out :=
  match s.ply k with
  | none => .refused .notEnabled
  | some p =>
    match p.wait with
    | .rows _ =>
      if p.state = .parked ∧ (s.core (coreOf k)).freeRow.isSome then .next (s.setPly k { p with state := .ready, words := [], stalled := false })
      else .refused .notEnabled
    | _ => .refused .notEnabled
def Ply.onRows (p : Ply) : Bool := match p.wait with | .rows _ => p.state == .parked || p.state == .ready | _ => false
/-- A core is starved: a ply is parked on rows, and none is Ready but for its retries (R48). -/
def starvedNow (s : State) (core : Nat) : Bool :=
  let mine := s.plies.filter fun (k, _) => coreOf k == core
  mine.any (fun (_, p) => p.onRows) && mine.all fun (_, p) => p.state != .ready || p.onRows
/-- The ply that has been parked on rows the longest; of equals the lowest slot. -/
def longestOnRows (s : State) (core : Nat) : Option Nat :=
  (s.plies.foldl (fun (b : Option (Nat × Nat)) (k, p) =>
    if coreOf k ≠ core ∨ !p.onRows then b
    else match p.wait, b with
      | .rows t, none => some (k, t)
      | .rows t, some (k', t') => if t < t' then some (k, t) else some (k', t')
      | _, b => b) none).map (·.1)
def execRowStarvation (core : Nat) (s : State) : Out :=
  match (s.core core).starved, longestOnRows s core with
  | some t, some k =>
    if t + 65536 ≤ s.cycle then
      match s.ply k with
      | some p =>
        .next (takeCause k .rowPool p.a.pc 0 0
          ((s.modCore core fun c => { c with starved := none }).setPly k { p with state := .ready, wait := .none, words := [], kept := none }))
      | none => .refused .notEnabled
    else .refused .notEnabled
  | _, _ => .refused .notEnabled
/-- Keeps, for each core, since when it has been starved without a break. -/
def noteStarved (s : State) : State :=
  if s.plies.any (fun (_, p) => p.onRows) || s.cores.any (fun (_, c) => c.starved.isSome) then
    (s.plies.map (fun (k, _) => coreOf k)).eraseDups.foldl (fun s c =>
      let x := s.core c
      let now := if starvedNow s c then some (x.starved.getD s.cycle) else none
      if now = x.starved then s else s.setCore c { x with starved := now }) s
  else s

/-! ## At an issue boundary (R36, R37, R40, R211, R228) -/

/-- The ply is at a boundary of its issue stream. -/
def Ply.atBoundary (p : Ply) : Bool :=
  p.state == .ready && p.unfinished.isNone && (match p.wait with | .none | .rows _ => true | _ => false)
/-- A cause that a copy, a matrix operation or a returned store reported is taken. A copy's is not retried (R257, R258). -/
def execDeferredCause (k : Nat) (s : State) : Out :=
  match s.ply k with
  | none => .refused .notEnabled
  | some p =>
    match p.deferred with
    | [] => .refused .notEnabled
    | x :: rest =>
      if !p.atBoundary || haltsIssue s p then .refused .notEnabled
      else
        let s := s.setPly k { p with deferred := rest, wait := .none, kept := none }
        .next (if x.retried then settleCause k x.cause x.pc x.addr x.mask s else routeCause k x.cause x.pc x.addr x.mask s)

/-- A wait that a user interrupt abandons (R37). -/
def Wait.yields : Wait → Bool
  | .queue .. | .monitor _ | .latch _ | .barrier .. | .ptkt _ | .pwait _ | .copy .. => true
  | _ => false
/-- A user interrupt can be delivered: one is pending, none is in progress, and the ply is at a boundary or in such a wait. -/
def Ply.interruptible (p : Ply) : Bool :=
  p.mode == 0 && !p.inUi && (p.pendLwake || p.pendQueue || p.pendTrap || p.pendCopy != 0) && p.unfinished.isNone && p.fullEm.isNone
    && ((p.state == .ready && p.wait == .none) || ((p.state == .parked || p.state == .yielded) && p.wait.yields))
/-- The pending source that is delivered first, and the ply with that source no longer pending. DESIGN CHOICE: the spec orders
no sources; a trap comes first, then LWAKE, then the watched queue, then the lowest completion register (log entry 116). -/
def Ply.nextSource (p : Ply) : (BitVec 7 × BitVec 2 × BitVec 3) × Ply :=
  if p.pendTrap then ((p.halt.cause, 0, 0), { p with pendTrap := false })
  else if p.pendLwake then ((0x66, 1, 0), { p with pendLwake := false })
  else if p.pendQueue then ((0x66, 2, 0), { p with pendQueue := false })
  else
    let c := trailingZeros p.pendCopy
    ((0x66, 3, BitVec.ofNat 3 c), { p with pendCopy := setBitTo p.pendCopy c false })
/-- A cause that waits for the boundary comes before the interrupt (R40): a ply in a wait abandons it, and takes the cause. -/
def execUserInterruptDelivery (k : Nat) (s : State) : Out :=
  match s.ply k with
  | none => .refused .notEnabled
  | some p =>
    if !p.interruptible || haltsIssue s p then .refused .notEnabled
    else if !p.deferred.isEmpty then
      if p.state = .ready then .refused .notEnabled
      else .next ((withdraw k s).modPly k fun p => { p with state := .ready, wait := .none, words := [], stalled := false })
    else
      .next ((withdraw k s).modPly k fun p =>
        let x := p.nextSource
        x.2.deliver x.1.1 x.1.2.1 x.1.2.2 p.a.pc)

/-- A word that is no instruction raises its decode cause (R134). -/
def DecodeCause.cause : DecodeCause → Cause
  | .illegal => .illegal | .reserved => .reserved | .privileged => .privileged | .formatBase => .formatBlock | .pair => .pair
def execIllegalInstruction (c : DecodeCause) (s : State) : Out :=
  match s.ply s.cur with
  | none => .refused .noActingPly
  | some p => .next (takeCause s.cur (DecodeCause.cause c) p.a.pc 0 0 s)

/-! ## The fault units (R319, R322 to R325) -/

/-- The merge table can take a miss: its page has an entry, or one is free. -/
def mergeRoom (s : State) (d : Nat) (h : HeldMiss) : Bool :=
  let m := s.merges.getD d []
  m.any (fun (_, e) => e.space == h.space && e.vpage == h.vpage) || (lowestFree m.keys 512).isSome
/-- A held miss takes a freed merge entry (R322). -/
def execFaultEntryTaken (d : Nat) (s : State) : Out :=
  match s.heldMisses.getD d [] with
  | [] => .refused .notEnabled
  | h :: rest =>
    if !mergeRoom s d h then .refused .notEnabled
    else .next (mergeMiss d h.space h.vpage h.level h.kind h.who h.tenant h.gen h.waiter { s with heldMisses := s.heldMisses.put d rest })

/-- A reply (Table 23-5): the entry, and the cause of a fail, CAUSE [6:0]; none for a malformed one. DESIGN CHOICE: the table names no
bit 7 of byte 3, and does not call it zero; the model ignores it (log entry 129). -/
def parseReply (bs : List Byte) : Option (Nat × Option Cause) :=
  let w := leBytes bs 0 4
  if w / 2 ^ 9 % 2 ^ 7 ≠ 0 ∨ w / 2 ^ 17 % 2 ^ 7 ≠ 0 ∨ (bs.drop 4).any (· != 0) then none
  else some (w % 512, if w / 2 ^ 16 % 2 = 0 then none else some (if w / 2 ^ 24 % 2 ^ 7 = 0x20 then .pageFault else .protection))
/-- A ply or a copy still waits on some entry, or is held. -/
def stillWaits (s : State) (w : Waiter) : Bool :=
  s.merges.any (fun (_, m) => m.any fun (_, e) => e.waiters.contains w) || s.heldMisses.any fun (_, l) => l.any (·.waiter == w)
/-- The address that a fail reply reports: the lowest unfinished lane's on the page. -/
def failAddr (u : Unfinished) (vpage : Nat) : DWord :=
  (u.reqs.findSome? fun r => ((if r.ea2 = 0 then [] else [r.ea2]) ++ [r.ea]).find? fun a => a.toNat / 4096 == vpage).getD u.va
def HomeWrite.onPage (vpage : Nat) (w : HomeWrite) : Bool := w.va.toNat / 4096 == vpage
/-- The writes of a returned store that wait for a page: they leave the store, to be issued again (R324, R325). -/
def takeAway (core seq vpage : Nat) (s : State) : Option (Flight × List HomeWrite × State) :=
  match (s.core core).stores.find? (·.seq == seq) with
  | none => none
  | some f =>
    let here := HomeWrite.onPage vpage
    some (f, f.away.filter here, modStore core seq (fun f => { f with away := f.away.filter fun w => !here w }) s)
/-- A waiter of a closed entry goes on, or fails (R324). -/
def serveWaiter (vpage : Nat) (cause : Option Cause) (s : State) (w : Waiter) : State :=
  match w, cause with
  | .ply k uid, none =>
    (match s.live k uid with
     | some p => if stillWaits s w then s else dropL1All (coreOf k) (if p.wait = .page then s.setPly k p.wakeAgain else s)
     | none => s)
  | .ply k uid, some c =>
    (match s.live k uid with
     | some p =>
       let u := p.unfinished.getD ⟨0, [], none, [], 0⟩
       if p.wait = .page then haltPly k c.code false p.a.pc (failAddr u vpage) u.mask (unwaitMerges k uid s) else s
     | none => s)
  | .copy core seq, none => modCopy core seq (fun y => { y with held := false }) s
  | .copy core seq, some c =>
    (match (s.core core).copies.find? (·.seq == seq) with
     | some x => stopCopy core x c (BitVec.ofNat 64 (vpage * 4096)) (unwaitCopy core seq s)
     | none => s)
  | .store core seq, none =>
    (match takeAway core seq vpage s with
     | some (f, ws, s) => issueAll core seq f ws (dropL1All core s)
     | none => s)
  | .store core seq, some c =>
    (match (s.core core).stores.find? (·.seq == seq) with
     | some f => stopStore core seq f c (((f.away.filter (·.onPage vpage)).map (·.va)).headD 0) [] s
     | none => s)
/-- The fault unit of a die takes the oldest reply of its ring: it closes the entry and serves every waiter. -/
def execFaultReply (d : Nat) (s : State) : Out :=
  let x := ringPlace s (60 + d)
  if d ≥ 4 then .refused .notEnabled
  else match loadQueue none none x (.ring (60 + d)) s with
    | (.ok q, s) =>
      if q.count = 0 then .refused .notEnabled
      else
        let (i, s) := placeRead none (placeOf s.io (q.entryVa q.head).toNat) 32 s
        let s := putQueue x (q.pop 1) s
        (match (if i.error.isSome then none else parseReply i.bytes) with
         | none => .next s
         | some (n, cause) =>
           match (s.merges.getD d []).find n with
           | none => .next s
           | some e =>
             let s := { s with merges := s.merges.put d ((s.merges.getD d []).drop n) }
             .next (e.waiters.foldl (serveWaiter e.vpage cause) s))
    | _ => .refused .notEnabled

/-- An agent whose accesses may be returned: its space's generation is being advanced (R112). -/
def Viewer.outdated (v : Viewer) (s : State) : Bool := !v.phys && genbBusy s v.space
/-- A controller returns an access that carries an old generation, while a GENB advances its space: its issuer walks and issues it
again, and the third return of one access raises 0x23 (R112, R325): for a fetch at its instruction; for the next access of a ply
as its instruction issues again; for a block of a copy as the copy stops (R228). -/
def execStaleAccessReturn (a : StaleAccess) (s : State) : Out :=
  match a with
  | .fetch k =>
    (match s.ply k with
     | some p =>
       if p.state ≠ .ready ∨ p.wait ≠ .none ∨ !(viewer k p).outdated s then .refused .notEnabled
       else if p.staleFetch < 2 then .next (s.setPly k { p with staleFetch := p.staleFetch + 1 })
       else
         .next (takeCause k .staleGen p.a.pc (p.a.pc.setWidth 64) ((p.unfinished.map (·.mask)).getD 0) (s.setPly k { p with staleFetch := 0 }))
     | none => .refused .notEnabled)
  | .data k =>
    (match s.ply k with
     | some p =>
       if p.state ≠ .ready ∨ p.wait ≠ .none ∨ 3 ≤ p.stale ∨ !(viewer k p).outdated s then .refused .notEnabled
       else .next (s.setPly k { p with stale := p.stale + 1 })
     | none => .refused .notEnabled)
  | .copy seq block =>
    match findCopy s seq with
    | some (core, x) =>
      match (if x.left.contains block then (teamTile s (some x.team) x.tile).bind fun tile => blockVa x tile block else none) with
      | some va =>
        let n := x.stale.getD block 0
        if x.held || !x.who.outdated s then .refused .notEnabled
        else if n < 2 then .next (modCopy core seq (fun y => { y with stale := y.stale.put block (n + 1) }) s)
        else .next (stopCopy core x .staleGen va s)
      | none => .refused .notEnabled
    | none => .refused .notEnabled

end Sys2Proof.Machine
end

