-- ==== Sys2Proof/Machine/LaneFloat.lean ====
section
/-! DEFINITION. Machine/LaneFloat.lean: the lane floating-point, compare and conversion instructions of chapter 10 (R172 to
R181): majors 0x0F and 0x11 to 0x17. -/
namespace Sys2Proof.Machine

/-- A pattern and conditions as a lane word. -/
def fpWord (r : Nat × Conds) : Word × Conds := (BitVec.ofNat 32 r.1, r.2)

/-- v[D] from v[A] and the B7 operand under the ply's floating-point mode. -/
def fp2 (i : Instr) (d a : VReg) (b : LaneSrc) (f : FEnv → Nat → Nat → Nat × Conds) (s : State) : Out :=
  perform {} (encode i) s fun p => fpWrite s p d ((a, p.lanes) :: srcUse b p.lanes) fun c l =>
    fpWord (f p.fenv (regWord c p a l).toNat (srcWord c p b l).toNat)
/-- v[D] from v[A]. -/
def fp1 (i : Instr) (d a : VReg) (f : FEnv → Nat → Nat × Conds) (s : State) : Out :=
  perform {} (encode i) s fun p => fpWrite s p d [(a, p.lanes)] fun c l => fpWord (f p.fenv (regWord c p a l).toNat)
/-- v[D] from v[A], v[B] and v[C]. -/
def fp3 (i : Instr) (d a b c : VReg) (f : FEnv → Nat → Nat → Nat → Nat × Conds) (s : State) : Out :=
  perform {} (encode i) s fun p => fpWrite s p d [(a, p.lanes), (b, p.lanes), (c, p.lanes)] fun x l =>
    fpWord (f p.fenv (regWord x p a l).toNat (regWord x p b l).toNat (regWord x p c l).toNat)

/-! ## Major 0x11 (R173) -/

def execFadd (d a : VReg) (b : LaneSrc) (h : Hold) (s : State) : Out := fp2 (.fadd d a b h) d a b (fAdd fp32) s
def execFsub (d a : VReg) (b : LaneSrc) (h : Hold) (s : State) : Out := fp2 (.fsub d a b h) d a b (fSub fp32) s
def execFmul (d a : VReg) (b : LaneSrc) (h : Hold) (s : State) : Out := fp2 (.fmul d a b h) d a b (fMul fp32) s
def execFmin (d a : VReg) (b : LaneSrc) (h : Hold) (s : State) : Out :=
  fp2 (.fmin d a b h) d a b (fun v => fMinMax fp32 v false true) s
def execFmax (d a : VReg) (b : LaneSrc) (h : Hold) (s : State) : Out :=
  fp2 (.fmax d a b h) d a b (fun v => fMinMax fp32 v true true) s
def execFcopysign (d a : VReg) (b : LaneSrc) (h : Hold) (s : State) : Out :=
  lane2 (.fcopysign d a b h) d a b (fun x y => (x &&& 0x7FFFFFFF) ||| (y &&& 0x80000000)) s
def execFminm (d a : VReg) (b : LaneSrc) (h : Hold) (s : State) : Out :=
  fp2 (.fminm d a b h) d a b (fun v => fMinMax fp32 v false false) s
def execFmaxm (d a : VReg) (b : LaneSrc) (h : Hold) (s : State) : Out :=
  fp2 (.fmaxm d a b h) d a b (fun v => fMinMax fp32 v true false) s

/-! ## Majors 0x12 and 0x13 (R174, R175) -/

def execFrcp (d a : VReg) (h : Hold) (s : State) : Out := fp1 (.frcp d a h) d a (fUnary .rcp) s
def execFsqrt (d a : VReg) (h : Hold) (s : State) : Out := fp1 (.fsqrt d a h) d a (fUnary .sqrt) s
def execFrsq (d a : VReg) (h : Hold) (s : State) : Out := fp1 (.frsq d a h) d a (fUnary .rsq) s
def execFexp2 (d a : VReg) (h : Hold) (s : State) : Out := fp1 (.fexp2 d a h) d a (fUnary .exp2) s
def execFlog2 (d a : VReg) (h : Hold) (s : State) : Out := fp1 (.flog2 d a h) d a (fUnary .log2) s
def execFfloor (d a : VReg) (h : Hold) (s : State) : Out := fp1 (.ffloor d a h) d a (fun v => fIntegral .rdn v.ftz false) s
def execFceil (d a : VReg) (h : Hold) (s : State) : Out := fp1 (.fceil d a h) d a (fun v => fIntegral .rup v.ftz false) s
def execFtrunc (d a : VReg) (h : Hold) (s : State) : Out := fp1 (.ftrunc d a h) d a (fun v => fIntegral .rtz v.ftz false) s
def execFrint (d a : VReg) (h : Hold) (s : State) : Out := fp1 (.frint d a h) d a (fun v => fIntegral v.rm v.ftz true) s
def execFclass (d a : VReg) (h : Hold) (s : State) : Out :=
  lane1 (.fclass d a h) d a (fun x => BitVec.ofNat 32 (fClass x.toNat)) s
def execFscale (d a : VReg) (b : LaneSrc) (h : Hold) (s : State) : Out :=
  fp2 (.fscale d a b h) d a b (fun v x n => fScale v x (signedOf 32 n)) s

/-! ## Major 0x14 (R176) -/

def execFfma (d a b c : VReg) (s : State) : Out := fp3 (.ffma d a b c) d a b c (fun v => fFma fp32 v false) s
def execFfms (d a b c : VReg) (s : State) : Out := fp3 (.ffms d a b c) d a b c (fun v => fFma fp32 v true) s

/-! ## Packed BF16, majors 0x15 and 0x16 (R177) -/

/-- An operation on each of the two elements of packed words. -/
def packed2 (f : FEnv → Nat → Nat → Nat × Conds) (v : FEnv) (x y : Nat) : Nat × Conds :=
  let lo := f v (x % 65536) (y % 65536)
  let hi := f v (x / 65536) (y / 65536)
  (lo.1 + 65536 * hi.1, lo.2 ||| hi.2)
def packed3 (f : FEnv → Nat → Nat → Nat → Nat × Conds) (v : FEnv) (x y z : Nat) : Nat × Conds :=
  let lo := f v (x % 65536) (y % 65536) (z % 65536)
  let hi := f v (x / 65536) (y / 65536) (z / 65536)
  (lo.1 + 65536 * hi.1, lo.2 ||| hi.2)
def execBadd2 (d a : VReg) (b : LaneSrc) (h : Hold) (s : State) : Out := fp2 (.badd2 d a b h) d a b (packed2 (fAdd bf16)) s
def execBmul2 (d a : VReg) (b : LaneSrc) (h : Hold) (s : State) : Out := fp2 (.bmul2 d a b h) d a b (packed2 (fMul bf16)) s
def execBmin2 (d a : VReg) (b : LaneSrc) (h : Hold) (s : State) : Out :=
  fp2 (.bmin2 d a b h) d a b (packed2 fun v => fMinMax bf16 v false true) s
def execBmax2 (d a : VReg) (b : LaneSrc) (h : Hold) (s : State) : Out :=
  fp2 (.bmax2 d a b h) d a b (packed2 fun v => fMinMax bf16 v true true) s
def execBfma2 (d a b c : VReg) (s : State) : Out := fp3 (.bfma2 d a b c) d a b c (packed3 fun v => fFma bf16 v false) s
def execBfms2 (d a b c : VReg) (s : State) : Out := fp3 (.bfms2 d a b c) d a b c (packed3 fun v => fFma bf16 v true) s

/-! ## FCMP (R178) -/

def execFcmp (pd : PReg) (m : Cmb) (a : VReg) (b : LaneSrc) (c : FCond) (ps : PReg) (s : State) : Out :=
  perform {} (encode (.fcmp pd m a b c ps)) s fun p =>
    fpPred s p pd ((a, p.lanes) :: srcUse b p.lanes) fun x l =>
      let r := fCompare p.ftz c (regWord x p a l).toNat (srcWord x p b l).toNat
      (match m with
       | .replace => r.1
       | .and => r.1 && (p.preg ps).getLsbD l
       | .or => r.1 || (p.preg ps).getLsbD l, r.2)

/-! ## CVT (R179 to R181) -/

/-- The rounding mode of an instruction field. -/
def Ply.rounding (p : Ply) (r : Rnd) : RoundMode := match r with | .mode m => m | .dyn => p.round
/-- The number of source registers of a code (Table 10-6). -/
def CvtCode.sources (c : CvtCode) : Nat :=
  match c with | .bf16x2F32 | .f16x2F32 => 2 | .e4m3x4F32 | .e5m2x4F32 => 4 | _ => 1
/-- Elements of `w` bits converted each on its own, the first lowest; their conditions are ORed. -/
def gatherElems (w : Nat) (f : Nat → Nat × Conds) : List Nat → Nat × Conds
  | [] => (0, 0)
  | x :: xs => let r := f x; let t := gatherElems w f xs; (r.1 + 2 ^ w * t.1, r.2 ||| t.2)
def intWord (r : Int × Conds) : Nat × Conds := ((BitVec.ofInt 32 r.1).toNat, r.2)
/-- The result of a conversion from the words of its source registers (Tables 10-6 and 10-7). -/
def convert (c : CvtCode) (k : Nat) (sat : Bool) (rm : RoundMode) (ftz : Bool) (xs : List Nat) : Nat × Conds :=
  let x := xs.getD 0 0
  let byte := x / 2 ^ (8 * k) % 256
  let half := x / 2 ^ (16 * k) % 65536
  match c with
  | .f32S32 => intToF32 rm (signedOf 32 x)
  | .f32U32 => intToF32 rm (Int.ofNat x)
  | .s32F32 => intWord (fToInt (dstS32 sat) rm ftz x)
  | .u32F32 => intWord (fToInt (dstU32 sat) rm ftz x)
  | .f32Bf16lo => fConvert bf16 fp32 rm false ftz false (x % 65536)
  | .f32Bf16hi => fConvert bf16 fp32 rm false ftz false (x / 65536)
  | .bf16x2F32 => gatherElems 16 (fConvert fp32 bf16 rm sat ftz ftz) xs
  | .f16x2F32 => gatherElems 16 (fConvert fp32 fp16 rm sat ftz ftz) xs
  | .f32F16lo => fConvert fp16 fp32 rm false ftz false (x % 65536)
  | .f32F16hi => fConvert fp16 fp32 rm false ftz false (x / 65536)
  | .e4m3x4F32 => gatherElems 8 (fConvert fp32 e4m3 rm sat ftz false) xs
  | .e5m2x4F32 => gatherElems 8 (fConvert fp32 e5m2 rm sat ftz false) xs
  | .f32E4m3 => fConvert e4m3 fp32 rm false false false byte
  | .f32E5m2 => fConvert e5m2 fp32 rm false false false byte
  | .f32S8 => intToF32 rm (signedOf 8 byte)
  | .f32U8 => intToF32 rm (Int.ofNat byte)
  | .f32S16 => intToF32 rm (signedOf 16 half)
  | .s8F32 => intWord (fToInt dstS8 rm ftz x)
def execCvt (d a : VReg) (k : BitVec 2) (sat : Bool) (r : Rnd) (c : CvtCode) (s : State) : Out :=
  perform {} (encode (.cvt d a k sat r c)) s fun p =>
    let n := CvtCode.sources c
    fpWrite s p d (groupUse a n p.lanes) fun x l =>
      fpWord (convert c k.toNat sat (p.rounding r) p.ftz ((List.range n).map fun j => (regWord x p (nthReg a j) l).toNat))

end Sys2Proof.Machine
end

