-- ==== Sys2Proof/Machine/LaneInt.lean ====
section
/-! DEFINITION. Machine/LaneInt.lean: the lane integer, logic, move, predicate and cross-lane instructions of chapter 09
(R161 to R171): majors 0x01 to 0x0E, 0x10 and 0x18 to 0x1A. -/
namespace Sys2Proof.Machine

/-! ## The functions of one lane -/

/-- Clamps an integer to a range (R163). -/
def clampInt (i lo hi : Int) : Word := BitVec.ofInt 32 (if i < lo then lo else if hi < i then hi else i)
def satS32 (i : Int) : Word := clampInt i (-2147483648) 2147483647
/-- Bits [63:32] of a product of 64 bits. -/
def highWord (x : DWord) : Word := x.extractLsb' 32 32
/-- The field position and length of a control word (R164). -/
def fieldPos (b : Word) : Nat := b.toNat % 32
def fieldLen (b : Word) : Nat := min (b.toNat / 256 % 64) 32
def fieldOf (a b : Word) : Nat := a.toNat / 2 ^ fieldPos b % 2 ^ fieldLen b
/-- BFXS's sign extension: the sign is bit len - 1 of the field. -/
def fieldSigned (a b : Word) : Word :=
  let len := fieldLen b
  let f := fieldOf a b
  if 0 < len ∧ f / 2 ^ (len - 1) % 2 = 1 then BitVec.ofInt 32 (Int.ofNat f - Int.ofNat (2 ^ len)) else BitVec.ofNat 32 f
def shiftCount (b : Word) : Nat := b.toNat % 32
/-- BFI (R167). -/
def insertField (a b c : Word) : Word :=
  let mask : Word := BitVec.ofNat 32 (2 ^ fieldLen c - 1) <<< fieldPos c
  (b &&& ~~~mask) ||| ((a <<< fieldPos c) &&& mask)
/-- ICMP's condition (R166, Table 7-21). -/
def compareWord {n : Nat} (c : Cond) (a b : BitVec n) : Bool :=
  match c with
  | .eq => a == b | .ne => a != b | .lt => a.slt b | .le => a.sle b | .gt => b.slt a | .ge => b.sle a
  | .ltu => a.ult b | .geu => b.ule a
/-- CMB (R166). -/
def combine (m : Cmb) (c old : Bool) : Bool := match m with | .replace => c | .and => c && old | .or => c || old

/-! ## Majors 0x01 and 0x02 (R163) -/

def execIadd (d a : VReg) (b : LaneSrc) (h : Hold) (s : State) : Out := lane2 (.iadd d a b h) d a b (· + ·) s
def execIsub (d a : VReg) (b : LaneSrc) (h : Hold) (s : State) : Out := lane2 (.isub d a b h) d a b (· - ·) s
def execImul (d a : VReg) (b : LaneSrc) (h : Hold) (s : State) : Out := lane2 (.imul d a b h) d a b (· * ·) s
def execImulhi (d a : VReg) (b : LaneSrc) (h : Hold) (s : State) : Out :=
  lane2 (.imulhi d a b h) d a b (fun x y => highWord (x.signExtend 64 * y.signExtend 64)) s
def execImulhu (d a : VReg) (b : LaneSrc) (h : Hold) (s : State) : Out :=
  lane2 (.imulhu d a b h) d a b (fun x y => highWord (x.setWidth 64 * y.setWidth 64)) s
def execImin (d a : VReg) (b : LaneSrc) (h : Hold) (s : State) : Out :=
  lane2 (.imin d a b h) d a b (fun x y => if x.sle y then x else y) s
def execImax (d a : VReg) (b : LaneSrc) (h : Hold) (s : State) : Out :=
  lane2 (.imax d a b h) d a b (fun x y => if x.sle y then y else x) s
def execIminu (d a : VReg) (b : LaneSrc) (h : Hold) (s : State) : Out :=
  lane2 (.iminu d a b h) d a b (fun x y => if x.ule y then x else y) s
def execImaxu (d a : VReg) (b : LaneSrc) (h : Hold) (s : State) : Out :=
  lane2 (.imaxu d a b h) d a b (fun x y => if x.ule y then y else x) s
def execIaddsat (d a : VReg) (b : LaneSrc) (h : Hold) (s : State) : Out :=
  lane2 (.iaddsat d a b h) d a b (fun x y => satS32 (x.toInt + y.toInt)) s
def execIsubsat (d a : VReg) (b : LaneSrc) (h : Hold) (s : State) : Out :=
  lane2 (.isubsat d a b h) d a b (fun x y => satS32 (x.toInt - y.toInt)) s
def execIaddusat (d a : VReg) (b : LaneSrc) (h : Hold) (s : State) : Out :=
  lane2 (.iaddusat d a b h) d a b (fun x y => BitVec.ofNat 32 (min (x.toNat + y.toNat) (2 ^ 32 - 1))) s
def execIsubusat (d a : VReg) (b : LaneSrc) (h : Hold) (s : State) : Out :=
  lane2 (.isubusat d a b h) d a b (fun x y => BitVec.ofNat 32 (x.toNat - y.toNat)) s
def execIabsd (d a : VReg) (b : LaneSrc) (h : Hold) (s : State) : Out :=
  lane2 (.iabsd d a b h) d a b (fun x y => BitVec.ofNat 32 (x.toInt - y.toInt).natAbs) s

/-! ## Majors 0x03 and 0x04 (R164) -/

def execAndB (d a : VReg) (b : LaneSrc) (h : Hold) (s : State) : Out := lane2 (.andB d a b h) d a b (· &&& ·) s
def execOrB (d a : VReg) (b : LaneSrc) (h : Hold) (s : State) : Out := lane2 (.orB d a b h) d a b (· ||| ·) s
def execXorB (d a : VReg) (b : LaneSrc) (h : Hold) (s : State) : Out := lane2 (.xorB d a b h) d a b (· ^^^ ·) s
def execAndn (d a : VReg) (b : LaneSrc) (h : Hold) (s : State) : Out := lane2 (.andn d a b h) d a b (fun x y => x &&& ~~~y) s
def execOrn (d a : VReg) (b : LaneSrc) (h : Hold) (s : State) : Out := lane2 (.orn d a b h) d a b (fun x y => x ||| ~~~y) s
def execXnor (d a : VReg) (b : LaneSrc) (h : Hold) (s : State) : Out := lane2 (.xnor d a b h) d a b (fun x y => ~~~(x ^^^ y)) s
def execShl (d a : VReg) (b : LaneSrc) (h : Hold) (s : State) : Out :=
  lane2 (.shl d a b h) d a b (fun x y => x <<< shiftCount y) s
def execShr (d a : VReg) (b : LaneSrc) (h : Hold) (s : State) : Out :=
  lane2 (.shr d a b h) d a b (fun x y => x >>> shiftCount y) s
def execSar (d a : VReg) (b : LaneSrc) (h : Hold) (s : State) : Out :=
  lane2 (.sar d a b h) d a b (fun x y => x.sshiftRight (shiftCount y)) s
def execRotl (d a : VReg) (b : LaneSrc) (h : Hold) (s : State) : Out :=
  lane2 (.rotl d a b h) d a b (fun x y => (x <<< shiftCount y) ||| (x >>> (32 - shiftCount y))) s
def execRotr (d a : VReg) (b : LaneSrc) (h : Hold) (s : State) : Out :=
  lane2 (.rotr d a b h) d a b (fun x y => (x >>> shiftCount y) ||| (x <<< (32 - shiftCount y))) s
def execPopc (d a : VReg) (h : Hold) (s : State) : Out := lane1 (.popc d a h) d a (fun x => BitVec.ofNat 32 (popCount x)) s
def execClz (d a : VReg) (h : Hold) (s : State) : Out := lane1 (.clz d a h) d a (fun x => BitVec.ofNat 32 (leadingZeros x)) s
def execBrev (d a : VReg) (h : Hold) (s : State) : Out := lane1 (.brev d a h) d a BitVec.reverse s
def execBfx (d a : VReg) (b : LaneSrc) (h : Hold) (s : State) : Out :=
  lane2 (.bfx d a b h) d a b (fun x y => BitVec.ofNat 32 (fieldOf x y)) s
def execBfxs (d a : VReg) (b : LaneSrc) (h : Hold) (s : State) : Out := lane2 (.bfxs d a b h) d a b fieldSigned s

/-! ## Immediates, majors 0x05 to 0x0D (R165) -/

def execIaddi (d a : VReg) (i : BitVec 13) (s : State) : Out := lane1 (.iaddi d a i) d a (· + i.signExtend 32) s
def execImuli (d a : VReg) (i : BitVec 13) (s : State) : Out := lane1 (.imuli d a i) d a (· * i.signExtend 32) s
def execAndi (d a : VReg) (i : BitVec 13) (s : State) : Out := lane1 (.andi d a i) d a (· &&& i.signExtend 32) s
def execOri (d a : VReg) (i : BitVec 13) (s : State) : Out := lane1 (.ori d a i) d a (· ||| i.signExtend 32) s
def execXori (d a : VReg) (i : BitVec 13) (s : State) : Out := lane1 (.xori d a i) d a (· ^^^ i.signExtend 32) s
def execShli (d a : VReg) (n : BitVec 5) (s : State) : Out := lane1 (.shli d a n) d a (· <<< n.toNat) s
def execShri (d a : VReg) (n : BitVec 5) (s : State) : Out := lane1 (.shri d a n) d a (· >>> n.toNat) s
def execSari (d a : VReg) (n : BitVec 5) (s : State) : Out := lane1 (.sari d a n) d a (·.sshiftRight n.toNat) s
def execMovi (d : VReg) (i : BitVec 13) (s : State) : Out :=
  perform {} (encode (.movi d i)) s fun p => laneWrite s p d [] fun _ _ => i.signExtend 32

/-! ## ICMP, SEL and BFI (R166, R167) -/

def execIcmp (pd : PReg) (m : Cmb) (a : VReg) (b : LaneSrc) (c : Cond) (ps : PReg) (s : State) : Out :=
  perform {} (encode (.icmp pd m a b c ps)) s fun p =>
    lanePred s p pd ((a, p.lanes) :: srcUse b p.lanes) fun x l =>
      combine m (compareWord c (regWord x p a l) (srcWord x p b l)) ((p.preg ps).getLsbD l)
def execSel (d a b : VReg) (c : PReg) (s : State) : Out :=
  perform {} (encode (.sel d a b c)) s fun p =>
    laneWrite s p d [(a, p.lanes), (b, p.lanes)] fun x l =>
      if (p.preg c).getLsbD l then regWord x p a l else regWord x p b l
def execBfi (d a b c : VReg) (s : State) : Out := lane3 (.bfi d a b c) d a b c insertField s

/-! ## Moves and predicate logic, major 0x18 (R168) -/

def execMov (d a : VReg) (h : Hold) (s : State) : Out := lane1 (.mov d a h) d a id s
def execPtov (d : VReg) (a : PReg) (h : Hold) (s : State) : Out :=
  perform {} (encode (.ptov d a h)) s fun p => laneWrite s p d [] fun _ l => if (p.preg a).getLsbD l then 1 else 0
def execVtop (d : PReg) (a : VReg) (h : Hold) (s : State) : Out :=
  perform {} (encode (.vtop d a h)) s fun p => lanePred s p d [(a, p.lanes)] fun x l => regWord x p a l != 0
/-- Predicate logic in the active lanes. -/
def predLogic (i : Instr) (d : PReg) (f : Ply → DWord) (s : State) : Out :=
  perform {} (encode i) s fun p => .next (s.setPly s.cur (p.setP d p.a.em (f p)))
def execPand (d a b : PReg) (s : State) : Out := predLogic (.pand d a b) d (fun p => p.preg a &&& p.preg b) s
def execPor (d a b : PReg) (s : State) : Out := predLogic (.por d a b) d (fun p => p.preg a ||| p.preg b) s
def execPxor (d a b : PReg) (s : State) : Out := predLogic (.pxor d a b) d (fun p => p.preg a ^^^ p.preg b) s
def execPandn (d a b : PReg) (s : State) : Out := predLogic (.pandn d a b) d (fun p => p.preg a &&& ~~~p.preg b) s

/-! ## Cross-lane exchange and lane identity, majors 0x19 and 0x1A (R169 to R171) -/

/-- Copies v[A] from a source lane that `j` computes from the lane, the B7 operand and the width. The B operand is read in
the active lanes first, and then each source lane, active or not. -/
def shuffle (i : Instr) (d a : VReg) (b : LaneSrc) (j : Nat → Nat → Nat → Nat) (s : State) : Out :=
  perform {} (encode i) s fun p =>
    let c := s.core (coreOf s.cur)
    let src := fun l => j l (srcWord c p b l).toNat p.width
    laneWrite s p d (srcUse b p.lanes ++ [(a, p.lanes.map src)]) fun x l => regWord x p a (src l)
def execShfl (d a : VReg) (b : LaneSrc) (h : Hold) (s : State) : Out := shuffle (.shfl d a b h) d a b (fun _ y w => y % w) s
def execShflx (d a : VReg) (b : LaneSrc) (h : Hold) (s : State) : Out :=
  shuffle (.shflx d a b h) d a b (fun l y w => l ^^^ (y % w)) s
def execShflup (d a : VReg) (b : LaneSrc) (h : Hold) (s : State) : Out :=
  shuffle (.shflup d a b h) d a b (fun l y _ => if y ≤ l then l - y else l) s
def execShfldn (d a : VReg) (b : LaneSrc) (h : Hold) (s : State) : Out :=
  shuffle (.shfldn d a b h) d a b (fun l y w => if l + y < w then l + y else l) s
/-- The inclusive prefix sum in a lane. -/
def prefixSum (c : Core) (p : Ply) (a : VReg) (l : Nat) : Word :=
  (p.lanes.filter (· ≤ l)).foldl (fun acc x => acc + regWord c p a x) 0
def execIscan (d a : VReg) (h : Hold) (s : State) : Out :=
  perform {} (encode (.iscan d a h)) s fun p => laneWrite s p d [(a, p.lanes)] fun x l => prefixSum x p a l
/-- LSR's values, for home lane base `base` (R171). -/
def laneIdentity (c : BitVec 2) (base l : Nat) : Word :=
  match c.toNat with
  | 0 => BitVec.ofNat 32 l
  | 1 => BitVec.ofNat 32 (base + l)
  | 2 => BitVec.ofNat 32 ((base + l) / 8)
  | _ => BitVec.ofNat 32 ((base + l) / 16)
def execLsr (d : VReg) (c : BitVec 2) (s : State) : Out :=
  perform {} (encode (.lsr d c)) s fun p => laneWrite s p d [] fun _ l => laneIdentity c (homeLane s.cur p.width) l

end Sys2Proof.Machine
end

