-- ==== Sys2Proof/Machine/Sched.lean ====
section
/-! DEFINITION. Machine/Sched.lean: the distributors (R19 to R22, R301 to R307), retirement and the completion record (R312,
R314), and the loss of a die-to-die link (R313). -/
namespace Sys2Proof.Machine

/-! ## The run descriptor (R302, Table 22-1) -/

def bytesField (bs : List Byte) (at_ n lo k : Nat) : Nat := leBytes bs at_ n / 2 ^ lo % 2 ^ k
def parseRun (bs : List Byte) : RunDesc :=
  { entry := BitVec.ofNat 57 (leBytes bs 0 8), width := 8 * 2 ^ bytesField bs 8 4 0 2, plies := bytesField bs 8 4 2 6
    template := bytesField bs 8 4 8 1 == 1, udel := bytesField bs 8 4 9 1 == 1, prio := BitVec.ofNat 2 (bytesField bs 8 4 10 2)
    tenant := BitVec.ofNat 4 (bytesField bs 8 4 12 4), aspace := BitVec.ofNat 12 (bytesField bs 8 4 16 12)
    teams := bytesField bs 12 4 0 24, gang := bytesField bs 16 4 0 16, slim := bytesField bs 20 4 0 16
    crec := BitVec.ofNat 64 (leBytes bs 24 8), retmap := BitVec.ofNat 64 (leBytes bs 32 8)
    skipmap := BitVec.ofNat 64 (leBytes bs 40 8), wakekey := BitVec.ofNat 64 (leBytes bs 48 8)
    dies := BitVec.ofNat 4 (leBytes bs 56 1), args := Vector.ofFn fun i => BitVec.ofNat 64 (leBytes bs (64 + 8 * i.val) 8) }
/-- The bytes of a bitmap of teams. -/
def mapBytes (teams : Nat) : Nat := 8 * ceilDiv teams 64
/-- REASON 1: a reserved bit, a field out of its range, or a misaligned address. -/
def runMalformed (va : Nat) (entryRest : Bool) (bs : List Byte) (d : RunDesc) : Bool :=
  va % 128 != 0 || entryRest || leBytes bs 0 8 % 4 != 0 || leBytes bs 0 8 / 2 ^ 57 != 0 || bytesField bs 8 4 28 4 != 0
  || bytesField bs 12 4 24 8 != 0 || bytesField bs 16 4 16 16 != 0 || bytesField bs 20 4 16 16 != 0 || leBytes bs 56 8 / 16 != 0
  || d.plies == 0 || d.teams == 0 || d.gang == 0 || d.gang > d.teams
  || d.crec.toNat % 64 != 0 || d.retmap.toNat % 8 != 0 || d.skipmap.toNat % 8 != 0 || d.wakekey.toNat % 8 != 0
/-- The dies that a run may use; 0 means any. -/
def RunDesc.mayUse (d : RunDesc) (die : Nat) : Bool := d.dies == 0 || d.dies.getLsbD die
def RunDesc.diesCount (d : RunDesc) : Nat := ((List.range 4).filter d.mayUse).length
/-- REASON 2: the gang can never fit. -/
def neverFits (d : RunDesc) : Bool := d.gang > min 4 (63 / d.plies) * 48 * d.diesCount
/-- REASON 4: a page of the completion record, the bitmap of retired teams or the bitmap of skipped teams. -/
def pagesOk (v : Viewer) (d : RunDesc) (s : State) : Bool × State :=
  let n := max 8 (mapBytes d.teams)
  let (a, s) := rangeReaches v .write d.crec.toNat 64 s
  let (b, s) := rangeReaches v .write d.retmap.toNat n s
  let (c, s) := if d.skipmap = 0 then (true, s) else rangeReaches v .read d.skipmap.toNat n s
  (a && b && c, s)

/-! ## The completion record (R314, Table 22-3) -/

def bitmapBytes (teams : Nat) (f : Nat → Bool) : List Byte :=
  (List.range (mapBytes teams)).map fun j => (List.range 8).foldl (fun b i => if f (8 * j + i) then setBitTo b i true else b) (0 : Byte)
/-- Bytes 0 to 7 and the rest of a record. -/
def recordHead (cause : BitVec 8) (reason : Nat) (rejected killed : Bool) : List Byte :=
  bytesLE (cause.toNat + 256 * reason + 2 ^ 16 + 2 ^ 17 * rejected.toNat + 2 ^ 18 * killed.toNat) 8
def recordTail (runid retired : Nat) (ply pc : DWord) (elapsed : Nat) : List Byte :=
  bytesLE runid 4 ++ bytesLE 0 4 ++ bytesLE retired 8 ++ bytesLE ply.toNat 8 ++ bytesLE pc.toNat 8 ++ bytesLE elapsed 8 ++ bytesLE 0 16
/-- The key that the end of a run wakes. DESIGN CHOICE: of a run rejected with REASON 3 too it is a key of the descriptor's TENANT (log
entry 138). -/
def wakeKeyOf (d : RunDesc) : Option Nat :=
  if d.wakekey = 0 ∨ d.wakekey.toNat % 8 ≠ 0 ∨ d.wakekey.toNat / 2 ^ 57 ≠ 0 then none else some (latchKeyOf (some d.tenant) d.wakekey)
/-- Writes the record, DONE last, and wakes the key. Only the wake waits for a full latch table (R241, R314). -/
def writeRecord (v : Viewer) (d : RunDesc) (head tail : List Byte) (s : State) : State :=
  let s := unitWrite v 2 (d.crec.toNat + 8) tail s
  let s := unitWrite v 2 d.crec.toNat head s
  match wakeKeyOf d with | some key => unitWake key s | none => s

/-! ## Acceptance (R303, R304, R306) -/

/-- The effective priority of a run at a cycle (R304). -/
def Run.priority (r : Run) (now : Nat) : Nat := min 3 (r.desc.prio.toNat + (now - r.accepted) / 1048576)
/-- A run still has gangs to place. -/
def Run.placing (r : Run) : Bool := r.nextTeam < r.desc.teams
/-- Run a stands before run b: a higher effective priority, then a lower RUNID. -/
def Run.before (now : Nat) (a b : Run) : Bool :=
  a.priority now > b.priority now || (a.priority now == b.priority now && a.runid.toNat < b.runid.toNat)
/-- The first run in order that has a gang to place. -/
def firstRun (s : State) : Option (Nat × Run) :=
  s.runs.foldl (fun b (k, r) => if !r.placing then b else match b with
    | none => some (k, r) | some (k', r') => if Run.before s.cycle r r' then some (k, r) else some (k', r')) none
/-- A run that rises above the one whose gang is being placed takes its uncommitted reservations away (R306). -/
def releaseReserved (prio : Nat) (s : State) : State :=
  { s with runs := s.runs.mapVals fun _ r => if r.priority s.cycle < prio then { r with reserved := [] } else r }
/-- The run whose gang is placed now: the one that holds reservations, unless the first run in order has a higher effective
priority (R304, R306). DEDUCED: R306 takes reservations away from a gang only for a priority above its own (log entry 119). -/
def placingRun (s : State) : Option (Nat × Run) :=
  match s.runs.find? fun (_, r) => r.placing && !r.reserved.isEmpty, firstRun s with
  | some (k, r), some (k', r') => if r'.priority s.cycle > r.priority s.cycle then some (k', r') else some (k, r)
  | _, x => x

/-- The policy of a run that is being accepted (R337). -/
def policyOf (s : State) (p : Pusher) : Bool × Bool :=
  if p.sender < 64 then let v := s.hyp.vfpol.getD p.sender 0; (v.getLsbD 5, v.getLsbD 6) else (p.cap, p.ctrap)
/-- The next RUNID skips 0 when the counter wraps. -/
def afterRunid (n : BitVec 32) : BitVec 32 := if n + 1 = 0 then 1 else n + 1
def newRun (s : State) (d : RunDesc) (policy : Bool × Bool) (skip : NSet) : Run :=
  { desc := d, runid := s.nextRun, tag := none, accepted := s.cycle, aged := 0, nextTeam := 0, reserved := [], skip := skip
    retired := [], stampq := [], bars := [], cap := policy.1, ctrap := policy.2, rnsmap := 0, cause := 0, causePly := 0
    causePc := 0, killed := false, bound := [] }
/-- The teams below `teams` whose bit a bitmap sets. -/
def skippedTeams (teams : Nat) (bs : List Byte) : NSet :=
  (List.range teams).filter fun t => (bs.getD (t / 8) 0).getLsbD (t % 8)
/-- Accepts or rejects the run of a descriptor that has been read. -/
def admitRun (t : BitVec 4) (pusher : Pusher) (v : Viewer) (bad : Bool) (d : RunDesc) (s : State) : State :=
  let reject := fun (reason : Nat) (s : State) => writeRecord v d (recordHead 0 reason true false) (recordTail 0 0 0 0 0) s
  let (ok, s) := pagesOk v d s
  if !ok then reject 4 s
  else if bad then reject 1 s
  else if d.tenant ≠ t then reject 3 s
  else if neverFits d then reject 2 s
  else
    let (skip, s) := if d.skipmap = 0 then (some [], s) else unitRead v (ceilDiv (mapBytes d.teams) 64 + 2) d.skipmap.toNat (mapBytes d.teams) s
    match skip with
    | none => reject 4 s
    | some bs =>
      let r := newRun s d (policyOf s pusher) (skippedTeams d.teams bs)
      let s := releaseReserved (r.priority s.cycle) s
      { s with runs := s.runs.put s.nextRun.toNat r, nextRun := afterRunid s.nextRun }
/-- The distributor takes the oldest entry of a tenant's submission queue (R301, R303). It reads the descriptor where the
pusher's address leads, and then in the space that it names. -/
def execRunAccept (t : Nat) (s : State) : Out :=
  let desc := s.hyp.subq.getD t 0
  if t ≥ 16 || desc = 0 || s.io.readyDie = 0 then .refused .notEnabled
  else
    let x := placeOf s.io desc.toNat
    match loadQueue none none x (.submission (BitVec.ofNat 4 t)) s with
    | (.ok q, s) =>
      if q.count = 0 then .refused .notEnabled
      else
        let (i, s) := placeRead none (placeOf s.io (q.entryVa q.head).toNat) 32 s
        let s := putQueue x (q.pop 1) s
        let pusher : Pusher := match (if q.pushers.length = q.count then q.pushers else []) with
          | p :: _ => p | [] => ⟨ioSender, false, false, ⟨0, none, true, 192⟩⟩
        let va := leBytes i.bytes 0 8
        (match (if i.error.isSome then (none, s) else unitRead pusher.who 3 va 128 s) with
         | (none, s) => .next s
         | (some bs, s) =>
           let space := (parseRun bs).aspace.toNat
           let v := ioViewer (BitVec.ofNat 4 t) space
           match unitRead v 3 va 128 s with
           | (none, s) =>
             .next (writeRecord v (parseRun bs) (recordHead 0 4 true false) (recordTail 0 0 0 0 0) s)
           | (some bs, s) =>
             let d := parseRun bs
             .next (admitRun (BitVec.ofNat 4 t) pusher v (runMalformed va ((i.bytes.drop 8).any (· != 0)) bs d) d s))
    | _ => .refused .notEnabled
/-- A waiting run has risen (R304): `aged` counts the raises that the distributor has acted upon. -/
def execRunAging (run : Nat) (s : State) : Out :=
  match s.run run with
  | none => .refused .notEnabled
  | some r =>
    if !r.placing || r.desc.prio.toNat + r.aged ≥ 3 || s.cycle < r.accepted + 1048576 * (r.aged + 1) then .refused .notEnabled
    else .next (releaseReserved (r.priority s.cycle) (s.setRun run { r with aged := r.aged + 1 }))

/-! ## Gang placement (R305, R307) -/

/-- The slots of a core that are granted to a team or reserved for one. -/
def takenSlots (s : State) (core : Nat) : List Nat :=
  (s.teams.flatMap fun (_, t) => if t.core = core then t.slots else [])
    ++ s.runs.flatMap fun (_, r) => r.reserved.flatMap fun x => if x.core = core then x.slots else []
/-- The team positions of a core that are taken. -/
def takenPositions (s : State) (core : Nat) : List Nat :=
  (s.teams.filterMap fun (k, t) => if t.core = core then some (k % 4) else none)
    ++ s.runs.flatMap fun (_, r) => r.reserved.filterMap fun x => if x.core = core then some x.teamix else none
/-- The Free slots of a core that nothing has taken, ascending. -/
def openSlots (s : State) (core : Nat) : List Nat :=
  let taken := takenSlots s core
  (List.range 63).filter fun n => !taken.contains n && !s.plies.mem (agentKey core n)
/-- A core can hold a team of a run. -/
def coreFits (s : State) (r : Run) (core : Nat) : Bool :=
  r.desc.mayUse (dieOfCore core) && s.io.readyDie.getLsbD (dieOfCore core)
  && coreTenant s core == some r.desc.tenant.toNat
  && (takenPositions s core).length < 4 && r.desc.plies ≤ (openSlots s core).length
/-- The teams of the gang that is being placed: skipped teams are never placed. -/
def gangTeams (r : Run) : List Nat :=
  ((List.range (min r.desc.gang (r.desc.teams - r.nextTeam))).map (r.nextTeam + ·)).filter fun t => !r.skip.contains t
/-- Reserves a team on the lowest core that fits. -/
def reserveTeam (s : State) (r : Run) (team : Nat) : Option Reservation :=
  match (List.range 192).find? (coreFits s r) with
  | none => none
  | some c => (lowestFree (takenPositions s c) 4).map fun ix => ⟨team, c, ix, (openSlots s c).take r.desc.plies⟩
/-- The lowest tag that no run holds. -/
def freeTag (s : State) : Option Nat := lowestFree (s.runs.filterMap fun (_, r) => r.tag) 256
/-- The registers of a ply at run start (R44). -/
def startArch (r : Run) : Arch :=
  let a := Arch.start r.desc.entry (allLanes r.desc.width)
  { a with s := Vector.ofFn fun i => if h : i.val < 8 then r.desc.args[i.val]'h else 0 }
/-- Starts a ply of a team. -/
def startPly (k : Nat) (r : Run) (ident : Ident) (s : State) : State :=
  ({ s with seq := s.seq + 1 }).setPly k { Ply.start s.seq r.desc.width 0 (startArch r) ident with halt := slotHalt s k }
/-- Commits one team: its plies start (R20), as after an acquire on its core. -/
def startTeam (run : Nat) (r : Run) (s : State) (x : Reservation) : State :=
  let tk := 4 * x.core + x.teamix
  let t : Team :=
    { run := run, number := x.team, core := x.core, slots := x.slots, tiles := [], bars := [], presses := [], shares := []
      binding := 0, retired := false, wrote := [] }
  let ident := teamIdent run r tk t
  let s := acquire x.core .package { s with teams := s.teams.put tk t }
  (if r.desc.template then x.slots.take 1 else x.slots).foldl (fun s n => startPly (agentKey x.core n) r ident s) s
/-- Commits the gang, when every team is reserved; the first commit needs a tag and reads RNSMAP (R307). -/
def commitGang (run : Nat) (r : Run) (s : State) : State :=
  if r.reserved.length < (gangTeams r).length then s.setRun run r
  else match (match r.tag with | some t => some t | none => freeTag s) with
    | none => s.setRun run r
    | some tag =>
      let r' := { r with tag := some tag, rnsmap := if r.tag.isSome then r.rnsmap else s.rel.rnsmapw }
      let s := r.reserved.foldl (startTeam run r') s
      s.setRun run { r' with reserved := [], nextTeam := min r.desc.teams (r.nextTeam + r.desc.gang) }
/-- Every slot, queue and write of a run is done with: its end is due (R22). -/
def endDue (s : State) (run : Nat) (r : Run) : Bool :=
  let ts := s.teams.filter fun (_, t) => t.run == run
  !r.placing && r.stampq.isEmpty && ts.all (fun (_, t) => !teamBusy s t && !workLeft s run t.core fun _ => true)
    && !s.windows.any (·.run == run) && !s.unsent.any fun u => u.sender ≥ 1024 && u.run == run
/-- The distributor reserves the next team of a gang, and commits the gang with its last team. A release of slots that is due
comes first (R306). -/
def execGangReserve (s : State) : Out :=
  match placingRun s with
  | none => .refused .notEnabled
  | some (k, r) =>
    let s := { s with runs := s.runs.mapVals fun k' x => if k' = k then x else { x with reserved := [] } }
    if s.runs.any fun (k, x) => endDue s k x then .refused .notEnabled
    else match (gangTeams r)[r.reserved.length]? with
    | none =>
      let s' := commitGang k r s
      if s' = s then .refused .notEnabled else .next s'
    | some team =>
      match reserveTeam s r team with
      | none => .refused .notEnabled
      | some x => .next (commitGang k { r with reserved := r.reserved ++ [x] } s)

/-! ## Retirement and the end (R22, R312 to R314) -/

def execTeamRetire (run team : Nat) (s : State) : Out :=
  match s.run run, s.teams.find? fun (_, t) => t.run == run && t.number == team with
  | some r, some (tk, t) =>
    if t.retired || !teamDone s t then .refused .notEnabled
    else .next ((s.setTeam tk { t with retired := true }).setRun run { r with retired := r.retired.add team })
  | _, _ => .refused .notEnabled

/-- Frees the moulds of a run on one core. -/
def dropMoulds (run : Nat) (s : State) (core : Nat) : State :=
  ((s.core core).moulds.filter fun (_, m) => m.run == run).foldl (fun s (e, _) => dropMould core e s) s
/-- A run leaves the queues that it has operated on; a queue that only ended runs used loses its state (R309). -/
def leaveQueues (run : Nat) (s : State) : State :=
  s.queues.foldl (fun s (x, q) =>
    if !q.runs.contains run then s
    else if q.kind = .user ∧ q.runs.del run = [] then dropQueue x s
    else putQueue x { q with runs := q.runs.del run } s) s
/-- Releases everything that a run holds, and forgets it. -/
def releaseRun (run : Nat) (s : State) : State :=
  let s := s.cores.keys.foldl (dropMoulds run) s
  let s := leaveQueues run s
  { s with teams := s.teams.sift fun _ t => t.run != run, runs := s.runs.drop run }
/-- The end of a run: its resources are released, then RETMAP and the record are written (R22, R314). -/
def endRun (run : Nat) (r : Run) (s : State) : State :=
  let v := ioViewer r.desc.tenant r.desc.aspace.toNat
  let done := fun t => r.retired.contains t || r.skip.contains t
  let count := r.skip.length + r.retired.length
  let s := releaseRun run s
  let map := bitmapBytes r.desc.teams done
  let s := unitWrite v (ceilDiv map.length 64 + 2) r.desc.retmap.toNat map s
  writeRecord v r.desc (recordHead r.cause 0 false r.killed)
    (recordTail r.runid.toNat count r.causePly r.causePc (s.cycle - r.accepted)) s
def execRunEnd (run : Nat) (s : State) : Out :=
  match s.run run with
  | none => .refused .notEnabled
  | some r =>
    let ts := s.teams.filter fun (_, t) => t.run == run
    if !endDue s run r then .refused .notEnabled
    else .next (endRun run { r with retired := ts.foldl (fun l (_, t) => l.add t.number) r.retired } s)

/-! ## Link loss (R313) -/

/-- The dies that a run's teams lie on. -/
def runDies (s : State) (run : Nat) : List Nat := (s.teams.filterMap fun (_, t) => if t.run = run then some (dieOfCore t.core) else none).eraseDups
/-- A pending write of a core crosses a link that has failed. -/
def crossesLost (s : State) (core : Nat) (w : HomeWrite) : Bool :=
  match targetAt s.io w.pa with | .memory a => linkDown s (dieOfCore core) (dieOfPa a) | _ => false
/-- A block of a copy lands when it can. -/
def finishBlock (core : Nat) (x : Copy) (s : State) (off : Nat) : State :=
  match teamTile s (some x.team) x.tile with
  | none => s
  | some tile =>
    let src := (teamTile s (some x.team) x.source).getD tile
    match landBlock core x tile src off (blockLen x tile src off) s with | .landed s => s | _ => s
/-- The blocks of a copy that can land do (R313). -/
def finishCopy (core : Nat) (x : Copy) (s : State) : State := x.left.foldl (finishBlock core x) s
/-- The reductions of a run on one core that would cross a link that has failed: their places. -/
def lostPartials (run : Nat) (s : State) (core : Nat) : List Nat :=
  ((s.core core).stores.filter (·.run == run)).flatMap fun f =>
    (f.writes.filter fun w => w.bytes.isEmpty && crossesLost s core w).map (·.pa)
/-- The writes of a run on one core are performed, with what its copies can still move, but for those that would cross the link
or wait for a page. -/
def settleWrites (run : Nat) (s : State) (core : Nat) : State :=
  let gone := lostPartials run s core
  let s := s.modCore core fun c => { c with
    partials := c.partials.filter fun x => !gone.contains x.pa
    stores := c.stores.map fun f =>
      if f.run = run then { f with writes := f.writes.filter fun w => !crossesLost s core w } else f }
  let s := ((s.core core).stores.filter (·.run == run)).foldl (fun s f => f.writes.foldl (performWrite core) s) s
  let s := ((s.core core).copies.filter (·.run == run)).foldl (fun s x => finishCopy core x s) s
  let s := ((s.core core).copies.filter (·.run == run)).foldl (fun s x => unwaitCopy core x.seq s) s
  s.modCore core fun c => { c with stores := c.stores.filter (·.run != run), copies := c.copies.filter (·.run != run) }
/-- The entries that reach their queue engine, oldest first, up to one that finds no place; what is left. -/
def deliverAll (w : Window) : List Pending → State → List Pending × State
  | [], s => ([], s)
  | e :: es, s =>
    if e.taken then deliverAll w es s
    else match arrivalOf s w e with | .taken s => deliverAll w es s | _ => (e :: es, s)
/-- The pushes of a run are performed (R236), but for those that would cross the link; a queue without room keeps the rest waiting. -/
def settleWindow (run : Nat) (s : State) (w : Window) : State :=
  let later := (s.unsent.filter fun u => u.sender == w.sender && u.die == w.die).zipIdx.map fun (u, i) =>
    (⟨w.next + i, u.desc, u.kind, u.data, true, false, false⟩ : Pending)
  let s := { s with unsent := s.unsent.filter fun u => !(u.sender == w.sender && u.die == w.die) }
  let (left, s) := if linkDown s (dieOfCore (coreOf w.ply)) w.die then ([], s) else deliverAll w (w.entries ++ later) s
  let back := (left.drop 8).map fun e => (⟨w.sender, w.die, w.ply, run, w.who, e.desc, e.kind, e.data⟩ : Unsent)
  let s := { s with unsent := s.unsent ++ back }
  if left.isEmpty then dropWindow w s
  else setWindow { w with entries := (left.take 8).map fun e => { e with flying := true, dropped := false }, next := w.next + later.length
                          awaited := none, backoff := false } s
def settlePushes (run : Nat) (s : State) : State := (s.windows.filter (·.run == run)).foldl (settleWindow run) s
/-- The bytes that the unretired teams of a run wrote are unspecified. -/
def loseBytes (run : Nat) (s : State) : State :=
  { s with lost := (s.teams.filter fun (_, t) => t.run == run && !t.retired).foldl (fun l (_, t) => t.wrote.foldl NSet.add l) s.lost
           fresh := s.fresh + 1 }
/-- A run that spans the link ends at once. The teams that R312 has retired before stay so. -/
def loseRun (s : State) (run : Nat) : State :=
  let s := retireDone run s
  match s.run run with
  | none => s
  | some r =>
    let s := s.setRun run { r with stampq := [], bound := [], reserved := [] }
    let plies := (s.plies.filter fun (_, p) => p.mode == 0 && p.ident.run == run).map fun (k, _) => k
    let s := plies.foldl (fun s k => killPly k s) s
    let s := loseBytes run (settlePushes run (s.cores.keys.foldl (settleWrites run) s))
    endRun run { r with cause := Cause.linkLoss.code.setWidth 8, causePly := 0, causePc := 0, killed := true } s
def execDieLinkLoss (a b : Nat) (s : State) : Out :=
  if a ≥ 4 || b ≥ 4 || a = b || linkDown s a b then .refused .notEnabled
  else
    let s := { s with deadLinks := s.deadLinks.add (4 * min a b + max a b) }
    .next ((s.runs.keys.filter fun r => (runDies s r).contains a && (runDies s r).contains b).foldl loseRun s)

end Sys2Proof.Machine
end

