-- ==== Sys2Proof/Machine/Uniform.lean ====
section
/-! DEFINITION. Machine/Uniform.lean: uniform arithmetic, immediates, compares, predicate logic, the EM family and the
transfers between the files (chapter 08: R137 to R142, R148, R149, R29, R56). -/
namespace Sys2Proof.Machine

/-! ## Majors 0x00 to 0x02 (R137, R138) -/

/-- s[D] from s[A] and s[B]. -/
def uniform2 (i : Instr) (g : Guard) (d a b : SReg) (f : DWord → DWord → DWord) (s : State) : Out :=
  uniform i g d (fun p => f (p.sreg a) (p.sreg b)) s
def ushift (b : DWord) : Nat := b.toNat % 64
/-- UBFX's field (R137). -/
def ufield (a b : DWord) : DWord := BitVec.ofNat 64 (a.toNat / 2 ^ ushift b % 2 ^ min (field b 8 7) 64)

def execUadd (d a b : SReg) (g : Guard) (s : State) : Out := uniform2 (.uadd d a b g) g d a b (· + ·) s
def execUsub (d a b : SReg) (g : Guard) (s : State) : Out := uniform2 (.usub d a b g) g d a b (· - ·) s
def execUmul (d a b : SReg) (g : Guard) (s : State) : Out := uniform2 (.umul d a b g) g d a b (· * ·) s
def execUmulhi (d a b : SReg) (g : Guard) (s : State) : Out :=
  uniform2 (.umulhi d a b g) g d a b (fun x y => (x.signExtend 128 * y.signExtend 128).extractLsb' 64 64) s
def execUmulhu (d a b : SReg) (g : Guard) (s : State) : Out :=
  uniform2 (.umulhu d a b g) g d a b (fun x y => (x.setWidth 128 * y.setWidth 128).extractLsb' 64 64) s
def execUmin (d a b : SReg) (g : Guard) (s : State) : Out :=
  uniform2 (.umin d a b g) g d a b (fun x y => if x.sle y then x else y) s
def execUmax (d a b : SReg) (g : Guard) (s : State) : Out :=
  uniform2 (.umax d a b g) g d a b (fun x y => if x.sle y then y else x) s
def execUminu (d a b : SReg) (g : Guard) (s : State) : Out :=
  uniform2 (.uminu d a b g) g d a b (fun x y => if x.ule y then x else y) s
def execUand (d a b : SReg) (g : Guard) (s : State) : Out := uniform2 (.uand d a b g) g d a b (· &&& ·) s
def execUor (d a b : SReg) (g : Guard) (s : State) : Out := uniform2 (.uor d a b g) g d a b (· ||| ·) s
def execUxor (d a b : SReg) (g : Guard) (s : State) : Out := uniform2 (.uxor d a b g) g d a b (· ^^^ ·) s
def execUandn (d a b : SReg) (g : Guard) (s : State) : Out := uniform2 (.uandn d a b g) g d a b (fun x y => x &&& ~~~y) s
def execUshl (d a b : SReg) (g : Guard) (s : State) : Out := uniform2 (.ushl d a b g) g d a b (fun x y => x <<< ushift y) s
def execUshr (d a b : SReg) (g : Guard) (s : State) : Out := uniform2 (.ushr d a b g) g d a b (fun x y => x >>> ushift y) s
def execUsar (d a b : SReg) (g : Guard) (s : State) : Out :=
  uniform2 (.usar d a b g) g d a b (fun x y => x.sshiftRight (ushift y)) s
def execUmaxu (d a b : SReg) (g : Guard) (s : State) : Out :=
  uniform2 (.umaxu d a b g) g d a b (fun x y => if x.ule y then y else x) s
def execUpopc (d a : SReg) (g : Guard) (s : State) : Out :=
  uniform (.upopc d a g) g d (fun p => BitVec.ofNat 64 (popCount (p.sreg a))) s
def execUclz (d a : SReg) (g : Guard) (s : State) : Out :=
  uniform (.uclz d a g) g d (fun p => BitVec.ofNat 64 (leadingZeros (p.sreg a))) s
def execUctz (d a : SReg) (g : Guard) (s : State) : Out :=
  uniform (.uctz d a g) g d (fun p => BitVec.ofNat 64 (trailingZeros (p.sreg a))) s
def execUbfx (d a b : SReg) (g : Guard) (s : State) : Out := uniform2 (.ubfx d a b g) g d a b ufield s

/-- A division: a zero divisor raises 0x16 (R138). -/
def uniformDivide (i : Instr) (g : Guard) (d a b : SReg) (f : DWord → DWord → DWord) (s : State) : Out :=
  guarded {} (encode i) g s fun p =>
    if p.sreg b = 0 then .before s .intDivZero 0 0 else .next (s.setPly s.cur (p.setS d (f (p.sreg a) (p.sreg b))))
def execUdivu (d a b : SReg) (g : Guard) (s : State) : Out := uniformDivide (.udivu d a b g) g d a b (· / ·) s
def execUremu (d a b : SReg) (g : Guard) (s : State) : Out := uniformDivide (.uremu d a b g) g d a b (· % ·) s

/-! ## Immediates and literals (R139, R140) -/

/-- s[D] from s[D] and a sign-extended immediate. -/
def uniformImm (j : Instr) (g : Guard) (d : SReg) (i : BitVec 15) (f : DWord → DWord → DWord) (s : State) : Out :=
  uniform j g d (fun p => f (p.sreg d) (i.signExtend 64)) s
def execUaddi (d : SReg) (i : BitVec 15) (g : Guard) (s : State) : Out := uniformImm (.uaddi d i g) g d i (· + ·) s
def execUandi (d : SReg) (i : BitVec 15) (g : Guard) (s : State) : Out := uniformImm (.uandi d i g) g d i (· &&& ·) s
def execUori (d : SReg) (i : BitVec 15) (g : Guard) (s : State) : Out := uniformImm (.uori d i g) g d i (· ||| ·) s
def execUxori (d : SReg) (i : BitVec 15) (g : Guard) (s : State) : Out := uniformImm (.uxori d i g) g d i (· ^^^ ·) s
def execUshli (d : SReg) (n : BitVec 6) (g : Guard) (s : State) : Out :=
  uniform (.ushli d n g) g d (fun p => p.sreg d <<< n.toNat) s
def execUshri (d : SReg) (n : BitVec 6) (g : Guard) (s : State) : Out :=
  uniform (.ushri d n g) g d (fun p => p.sreg d >>> n.toNat) s
def execUsari (d : SReg) (n : BitVec 6) (g : Guard) (s : State) : Out :=
  uniform (.usari d n g) g d (fun p => (p.sreg d).sshiftRight n.toNat) s
def execUmovi (d : SReg) (i : BitVec 15) (g : Guard) (s : State) : Out := uniformImm (.umovi d i g) g d i (fun _ y => y) s
def execUmuli (d : SReg) (i : BitVec 15) (g : Guard) (s : State) : Out := uniformImm (.umuli d i g) g d i (· * ·) s
def execUlit (d : SReg) (lit : BitVec 32) (g : Guard) (s : State) : Out :=
  uniform (.ulit d lit g) g d (fun _ => lit.setWidth 64) s
def execUlitS (d : SReg) (lit : BitVec 32) (g : Guard) (s : State) : Out :=
  uniform (.ulitS d lit g) g d (fun _ => lit.signExtend 64) s
def execUlitHi (d : SReg) (lit : BitVec 32) (g : Guard) (s : State) : Out :=
  uniform (.ulitHi d lit g) g d (fun p => lit ++ (p.sreg d).setWidth 32) s

/-! ## Compares and predicate logic (R141, R142) -/

def execUcmp (c : Cond) (q : QReg) (a b : SReg) (g : Guard) (s : State) : Out :=
  uniformQ (.ucmp c q a b g) g q (fun p => compareWord c (p.sreg a) (p.sreg b)) s
def execUcmpi (c : Cond) (q : QReg) (a : SReg) (i : BitVec 9) (g : Guard) (s : State) : Out :=
  uniformQ (.ucmpi c q a i g) g q (fun p => compareWord c (p.sreg a) (i.signExtend 64)) s
def execQand (d a b : QReg) (g : Guard) (s : State) : Out := uniformQ (.qand d a b g) g d (fun p => p.qreg a && p.qreg b) s
def execQor (d a b : QReg) (g : Guard) (s : State) : Out := uniformQ (.qor d a b g) g d (fun p => p.qreg a || p.qreg b) s
def execQxor (d a b : QReg) (g : Guard) (s : State) : Out := uniformQ (.qxor d a b g) g d (fun p => p.qreg a ^^ p.qreg b) s
def execQandn (d a b : QReg) (g : Guard) (s : State) : Out := uniformQ (.qandn d a b g) g d (fun p => p.qreg a && !p.qreg b) s

/-! ## The EM family and the transfers (R148, R149) -/

/-- The lowest active lane, as the list of the lanes that a transfer reads: none with EM 0. -/
def Ply.lowest (p : Ply) : List Nat := match lowestLane p.a.em with | some l => [l] | none => []
/-- Reads a register in the lowest active lane; 0 with EM 0. -/
def lowestWord (c : Core) (p : Ply) (a : VReg) : Word := match lowestLane p.a.em with | some l => regWord c p a l | none => 0
def lowestPair (c : Core) (p : Ply) (a : VReg) : DWord := match lowestLane p.a.em with | some l => regPair c p a l | none => 0

def execEmrd (d : SReg) (g : Guard) (s : State) : Out := uniform (.emrd d g) g d (fun p => p.a.em) s
/-- EM from v[A] of the lowest active lane: 32 bits of a lane word reach at most lanes 0 to 31 (log entry 24). DESIGN CHOICE: the
spec does not order 0x0A against the 0x34 and 0x52 of v[A]; 0x0A comes first (log entry 24). -/
def execEmwr (a : VReg) (g : Guard) (s : State) : Out :=
  guarded {} (encode (.emwr a g)) g s fun p =>
    if p.diverged then .before s .emDiverged 0 0
    else gated s p [(a, p.lowest)] [] fun c => .next (s.setPly s.cur (p.setEm ((lowestWord c p a).setWidth 64)))
def execEmandp (a : PReg) (g : Guard) (s : State) : Out :=
  guarded {} (encode (.emandp a g)) g s fun p =>
    if p.diverged then .before s .emDiverged 0 0 else .next (s.setPly s.cur (p.setEm (p.a.em &&& p.preg a)))
def execVote (d : SReg) (a : PReg) (g : Guard) (s : State) : Out :=
  uniform (.vote d a g) g d (fun p => p.a.em &&& p.preg a) s
def execV2s (d : SReg) (a : VReg) (g : Guard) (s : State) : Out :=
  guarded {} (encode (.v2s d a g)) g s fun p =>
    gated s p [(a, p.lowest)] [] fun c => .next (s.setPly s.cur (p.setS d ((lowestWord c p a).setWidth 64)))
def execV2s64 (d : SReg) (a : VReg) (g : Guard) (s : State) : Out :=
  guarded {} (encode (.v2s64 d a g)) g s fun p =>
    gated s p (groupUse a 2 p.lowest) [] fun c => .next (s.setPly s.cur (p.setS d (lowestPair c p a)))
def execS2v (d : VReg) (a : SReg) (g : Guard) (s : State) : Out :=
  guarded {} (encode (.s2v d a g)) g s fun p => laneWrite s p d [] fun _ _ => (p.sreg a).setWidth 32
def execEmpop (d : SReg) (g : Guard) (s : State) : Out :=
  uniform (.empop d g) g d (fun p => BitVec.ofNat 64 (popCount p.a.em)) s

/-- The identity of a reduction (R29). -/
def reduIdentity : ReduOp → DWord
  | .add | .maxu | .or | .xor => 0
  | .min => 0x7FFFFFFF | .max => (0x80000000#32).signExtend 64 | .minu | .and => 0xFFFFFFFF
/-- One step of a reduction (R149). -/
def reduStep (op : ReduOp) (acc : DWord) (x : Word) : DWord :=
  let sx := x.signExtend 64
  let zx := x.setWidth 64
  match op with
  | .add => acc + sx
  | .min => if acc.sle sx then acc else sx
  | .max => if acc.sle sx then sx else acc
  | .minu => if acc.ule zx then acc else zx
  | .maxu => if acc.ule zx then zx else acc
  | .and => acc &&& zx | .or => acc ||| zx | .xor => acc ^^^ zx
def execRedu (d : SReg) (a : VReg) (f : ReduOp) (g : Guard) (s : State) : Out :=
  guarded {} (encode (.redu d a f g)) g s fun p =>
    gated s p [(a, p.lanes)] [] fun c =>
      .next (s.setPly s.cur (p.setS d (p.lanes.foldl (fun acc l => reduStep f acc (regWord c p a l)) (reduIdentity f))))

end Sys2Proof.Machine
end

