-- ==== Sys2Proof/Machine/Dispatch.lean ====
section
/-! DEFINITION. Machine/Dispatch.lean: the meaning of every instruction, one arm per constructor of `Instr`. -/
namespace Sys2Proof.Machine

/-- The meaning of an instruction: each arm calls the definition that follows the instruction's rules of spec/. -/
def exec (i : Instr) (s : State) : Host.Outcome State Fault Refusal :=
  match i with
  | .iadd d a b h => Sys2Proof.Machine.execIadd d a b h s
  | .isub d a b h => Sys2Proof.Machine.execIsub d a b h s
  | .imul d a b h => Sys2Proof.Machine.execImul d a b h s
  | .imulhi d a b h => Sys2Proof.Machine.execImulhi d a b h s
  | .imulhu d a b h => Sys2Proof.Machine.execImulhu d a b h s
  | .imin d a b h => Sys2Proof.Machine.execImin d a b h s
  | .imax d a b h => Sys2Proof.Machine.execImax d a b h s
  | .iminu d a b h => Sys2Proof.Machine.execIminu d a b h s
  | .imaxu d a b h => Sys2Proof.Machine.execImaxu d a b h s
  | .iaddsat d a b h => Sys2Proof.Machine.execIaddsat d a b h s
  | .isubsat d a b h => Sys2Proof.Machine.execIsubsat d a b h s
  | .iaddusat d a b h => Sys2Proof.Machine.execIaddusat d a b h s
  | .isubusat d a b h => Sys2Proof.Machine.execIsubusat d a b h s
  | .iabsd d a b h => Sys2Proof.Machine.execIabsd d a b h s
  | .andB d a b h => Sys2Proof.Machine.execAndB d a b h s
  | .orB d a b h => Sys2Proof.Machine.execOrB d a b h s
  | .xorB d a b h => Sys2Proof.Machine.execXorB d a b h s
  | .andn d a b h => Sys2Proof.Machine.execAndn d a b h s
  | .orn d a b h => Sys2Proof.Machine.execOrn d a b h s
  | .xnor d a b h => Sys2Proof.Machine.execXnor d a b h s
  | .shl d a b h => Sys2Proof.Machine.execShl d a b h s
  | .shr d a b h => Sys2Proof.Machine.execShr d a b h s
  | .sar d a b h => Sys2Proof.Machine.execSar d a b h s
  | .rotl d a b h => Sys2Proof.Machine.execRotl d a b h s
  | .rotr d a b h => Sys2Proof.Machine.execRotr d a b h s
  | .popc d a h => Sys2Proof.Machine.execPopc d a h s
  | .clz d a h => Sys2Proof.Machine.execClz d a h s
  | .brev d a h => Sys2Proof.Machine.execBrev d a h s
  | .bfx d a b h => Sys2Proof.Machine.execBfx d a b h s
  | .bfxs d a b h => Sys2Proof.Machine.execBfxs d a b h s
  | .iaddi d a imm => Sys2Proof.Machine.execIaddi d a imm s
  | .imuli d a imm => Sys2Proof.Machine.execImuli d a imm s
  | .andi d a imm => Sys2Proof.Machine.execAndi d a imm s
  | .ori d a imm => Sys2Proof.Machine.execOri d a imm s
  | .xori d a imm => Sys2Proof.Machine.execXori d a imm s
  | .shli d a n => Sys2Proof.Machine.execShli d a n s
  | .shri d a n => Sys2Proof.Machine.execShri d a n s
  | .sari d a n => Sys2Proof.Machine.execSari d a n s
  | .movi d imm => Sys2Proof.Machine.execMovi d imm s
  | .icmp pd m a b c ps => Sys2Proof.Machine.execIcmp pd m a b c ps s
  | .fcmp pd m a b c ps => Sys2Proof.Machine.execFcmp pd m a b c ps s
  | .sel d a b c => Sys2Proof.Machine.execSel d a b c s
  | .bfi d a b c => Sys2Proof.Machine.execBfi d a b c s
  | .fadd d a b h => Sys2Proof.Machine.execFadd d a b h s
  | .fsub d a b h => Sys2Proof.Machine.execFsub d a b h s
  | .fmul d a b h => Sys2Proof.Machine.execFmul d a b h s
  | .fmin d a b h => Sys2Proof.Machine.execFmin d a b h s
  | .fmax d a b h => Sys2Proof.Machine.execFmax d a b h s
  | .fcopysign d a b h => Sys2Proof.Machine.execFcopysign d a b h s
  | .fminm d a b h => Sys2Proof.Machine.execFminm d a b h s
  | .fmaxm d a b h => Sys2Proof.Machine.execFmaxm d a b h s
  | .frcp d a h => Sys2Proof.Machine.execFrcp d a h s
  | .fsqrt d a h => Sys2Proof.Machine.execFsqrt d a h s
  | .frsq d a h => Sys2Proof.Machine.execFrsq d a h s
  | .fexp2 d a h => Sys2Proof.Machine.execFexp2 d a h s
  | .flog2 d a h => Sys2Proof.Machine.execFlog2 d a h s
  | .ffloor d a h => Sys2Proof.Machine.execFfloor d a h s
  | .fceil d a h => Sys2Proof.Machine.execFceil d a h s
  | .ftrunc d a h => Sys2Proof.Machine.execFtrunc d a h s
  | .frint d a h => Sys2Proof.Machine.execFrint d a h s
  | .fclass d a h => Sys2Proof.Machine.execFclass d a h s
  | .fscale d a b h => Sys2Proof.Machine.execFscale d a b h s
  | .ffma d a b c => Sys2Proof.Machine.execFfma d a b c s
  | .ffms d a b c => Sys2Proof.Machine.execFfms d a b c s
  | .badd2 d a b h => Sys2Proof.Machine.execBadd2 d a b h s
  | .bmul2 d a b h => Sys2Proof.Machine.execBmul2 d a b h s
  | .bmin2 d a b h => Sys2Proof.Machine.execBmin2 d a b h s
  | .bmax2 d a b h => Sys2Proof.Machine.execBmax2 d a b h s
  | .bfma2 d a b c => Sys2Proof.Machine.execBfma2 d a b c s
  | .bfms2 d a b c => Sys2Proof.Machine.execBfms2 d a b c s
  | .cvt d a k sat r c => Sys2Proof.Machine.execCvt d a k sat r c s
  | .mov d a h => Sys2Proof.Machine.execMov d a h s
  | .ptov d a h => Sys2Proof.Machine.execPtov d a h s
  | .vtop d a h => Sys2Proof.Machine.execVtop d a h s
  | .pand d a b => Sys2Proof.Machine.execPand d a b s
  | .por d a b => Sys2Proof.Machine.execPor d a b s
  | .pxor d a b => Sys2Proof.Machine.execPxor d a b s
  | .pandn d a b => Sys2Proof.Machine.execPandn d a b s
  | .shfl d a b h => Sys2Proof.Machine.execShfl d a b h s
  | .shflx d a b h => Sys2Proof.Machine.execShflx d a b h s
  | .shflup d a b h => Sys2Proof.Machine.execShflup d a b h s
  | .shfldn d a b h => Sys2Proof.Machine.execShfldn d a b h s
  | .iscan d a h => Sys2Proof.Machine.execIscan d a h s
  | .lsr d c => Sys2Proof.Machine.execLsr d c s
  | .ld d a sb z c h x => Sys2Proof.Machine.execLd d a sb z c h x s
  | .st d a sb z c h => Sys2Proof.Machine.execSt d a sb z c h s
  | .lda d a sb wide e => Sys2Proof.Machine.execLda d a sb wide e s
  | .str d a sb wide e => Sys2Proof.Machine.execStr d a sb wide e s
  | .atom d a sb op e => Sys2Proof.Machine.execAtom d a sb op e s
  | .atomar d a sb op e => Sys2Proof.Machine.execAtomar d a sb op e s
  | .cas d a sb e wide ord => Sys2Proof.Machine.execCas d a sb e wide ord s
  | .red d a sb op e => Sys2Proof.Machine.execRed d a sb op e s
  | .redq d a sb q e => Sys2Proof.Machine.execRedq d a sb q e s
  | .ldrep d a sb t => Sys2Proof.Machine.execLdrep d a sb t s
  | .pref k a sb => Sys2Proof.Machine.execPref k a sb s
  | .tld d a h z x => Sys2Proof.Machine.execTld d a h z x s
  | .tst d a h z => Sys2Proof.Machine.execTst d a h z s
  | .mma d a f shp n => Sys2Proof.Machine.execMma d a f shp n s
  | .mmai d a f shp n => Sys2Proof.Machine.execMmai d a f shp n s
  | .mstate d w => Sys2Proof.Machine.execMstate d w s
  | .mfill a w => Sys2Proof.Machine.execMfill a w s
  | .rnsf d a h => Sys2Proof.Machine.execRnsf d a h s
  | .rnsfw d a h => Sys2Proof.Machine.execRnsfw d a h s
  | .rnsadd d a b h => Sys2Proof.Machine.execRnsadd d a b h s
  | .rnsmul d a b h => Sys2Proof.Machine.execRnsmul d a b h s
  | .rnsaddw d a b h => Sys2Proof.Machine.execRnsaddw d a b h s
  | .rnsmulw d a b h => Sys2Proof.Machine.execRnsmulw d a b h s
  | .rnsneg d a h => Sys2Proof.Machine.execRnsneg d a h s
  | .rnsnegw d a h => Sys2Proof.Machine.execRnsnegw d a h s
  | .rnsr d a h => Sys2Proof.Machine.execRnsr d a h s
  | .rnsrw d a h => Sys2Proof.Machine.execRnsrw d a h s
  | .rnschk d a h => Sys2Proof.Machine.execRnschk d a h s
  | .rnschkw d a h => Sys2Proof.Machine.execRnschkw d a h s
  | .uadd d a b g => Sys2Proof.Machine.execUadd d a b g s
  | .usub d a b g => Sys2Proof.Machine.execUsub d a b g s
  | .umul d a b g => Sys2Proof.Machine.execUmul d a b g s
  | .umulhi d a b g => Sys2Proof.Machine.execUmulhi d a b g s
  | .umulhu d a b g => Sys2Proof.Machine.execUmulhu d a b g s
  | .umin d a b g => Sys2Proof.Machine.execUmin d a b g s
  | .umax d a b g => Sys2Proof.Machine.execUmax d a b g s
  | .uminu d a b g => Sys2Proof.Machine.execUminu d a b g s
  | .uand d a b g => Sys2Proof.Machine.execUand d a b g s
  | .uor d a b g => Sys2Proof.Machine.execUor d a b g s
  | .uxor d a b g => Sys2Proof.Machine.execUxor d a b g s
  | .uandn d a b g => Sys2Proof.Machine.execUandn d a b g s
  | .ushl d a b g => Sys2Proof.Machine.execUshl d a b g s
  | .ushr d a b g => Sys2Proof.Machine.execUshr d a b g s
  | .usar d a b g => Sys2Proof.Machine.execUsar d a b g s
  | .umaxu d a b g => Sys2Proof.Machine.execUmaxu d a b g s
  | .upopc d a g => Sys2Proof.Machine.execUpopc d a g s
  | .uclz d a g => Sys2Proof.Machine.execUclz d a g s
  | .uctz d a g => Sys2Proof.Machine.execUctz d a g s
  | .ubfx d a b g => Sys2Proof.Machine.execUbfx d a b g s
  | .udivu d a b g => Sys2Proof.Machine.execUdivu d a b g s
  | .uremu d a b g => Sys2Proof.Machine.execUremu d a b g s
  | .uaddi d imm g => Sys2Proof.Machine.execUaddi d imm g s
  | .uandi d imm g => Sys2Proof.Machine.execUandi d imm g s
  | .uori d imm g => Sys2Proof.Machine.execUori d imm g s
  | .uxori d imm g => Sys2Proof.Machine.execUxori d imm g s
  | .ushli d n g => Sys2Proof.Machine.execUshli d n g s
  | .ushri d n g => Sys2Proof.Machine.execUshri d n g s
  | .usari d n g => Sys2Proof.Machine.execUsari d n g s
  | .umovi d imm g => Sys2Proof.Machine.execUmovi d imm g s
  | .umuli d imm g => Sys2Proof.Machine.execUmuli d imm g s
  | .ulit d lit g => Sys2Proof.Machine.execUlit d lit g s
  | .ulitS d lit g => Sys2Proof.Machine.execUlitS d lit g s
  | .ulitHi d lit g => Sys2Proof.Machine.execUlitHi d lit g s
  | .ucmp c q a b g => Sys2Proof.Machine.execUcmp c q a b g s
  | .ucmpi c q a imm g => Sys2Proof.Machine.execUcmpi c q a imm g s
  | .qand d a b g => Sys2Proof.Machine.execQand d a b g s
  | .qor d a b g => Sys2Proof.Machine.execQor d a b g s
  | .qxor d a b g => Sys2Proof.Machine.execQxor d a b g s
  | .qandn d a b g => Sys2Proof.Machine.execQandn d a b g s
  | .bra o g => Sys2Proof.Machine.execBra o g s
  | .call o g => Sys2Proof.Machine.execCall o g s
  | .brx a g => Sys2Proof.Machine.execBrx a g s
  | .callx a g => Sys2Proof.Machine.execCallx a g s
  | .ret a g => Sys2Proof.Machine.execRet a g s
  | .brv o n p => Sys2Proof.Machine.execBrv o n p s
  | .kpin k o g => Sys2Proof.Machine.execKpin k o g s
  | .kmeet k g => Sys2Proof.Machine.execKmeet k g s
  | .emrd d g => Sys2Proof.Machine.execEmrd d g s
  | .emwr a g => Sys2Proof.Machine.execEmwr a g s
  | .emandp a g => Sys2Proof.Machine.execEmandp a g s
  | .vote d a g => Sys2Proof.Machine.execVote d a g s
  | .v2s d a g => Sys2Proof.Machine.execV2s d a g s
  | .v2s64 d a g => Sys2Proof.Machine.execV2s64 d a g s
  | .s2v d a g => Sys2Proof.Machine.execS2v d a g s
  | .empop d g => Sys2Proof.Machine.execEmpop d g s
  | .redu d a f g => Sys2Proof.Machine.execRedu d a f g s
  | .uld d sb imm z g => Sys2Proof.Machine.execUld d sb imm z g s
  | .ust d sb imm z g => Sys2Proof.Machine.execUst d sb imm z g s
  | .ulda d sb e wide g => Sys2Proof.Machine.execUlda d sb e wide g s
  | .ustr d sb e wide g => Sys2Proof.Machine.execUstr d sb e wide g s
  | .uatom d sb e wide op g => Sys2Proof.Machine.execUatom d sb e wide op g s
  | .ucas d sb e wide ord g => Sys2Proof.Machine.execUcas d sb e wide ord g s
  | .fence e g => Sys2Proof.Machine.execFence e g s
  | .fenceAcq e g => Sys2Proof.Machine.execFenceAcq e g s
  | .fenceRel e g => Sys2Proof.Machine.execFenceRel e g s
  | .waitc d sb e wide c g => Sys2Proof.Machine.execWaitc d sb e wide c g s
  | .waitn l st c m g => Sys2Proof.Machine.execWaitn l st c m g s
  | .srd d n g => Sys2Proof.Machine.execSrd d n g s
  | .swr d n g => Sys2Proof.Machine.execSwr d n g s
  | .emWrite v => Sys2Proof.Machine.execEmWrite v s
  | .cadd c v => Sys2Proof.Machine.execCadd c v s
  | .rnsstatWrite v => Sys2Proof.Machine.execRnsstatWrite v s
  | .registerWrite n v => Sys2Proof.Machine.execRegisterWrite n v s
  | .talloc a g => Sys2Proof.Machine.execTalloc a g s
  | .talloct d a g => Sys2Proof.Machine.execTalloct d a g s
  | .tfree a g => Sys2Proof.Machine.execTfree a g s
  | .cpyin h t cb cr y => Sys2Proof.Machine.execCpyin h t cb cr y s
  | .cpyout h t cb cr y => Sys2Proof.Machine.execCpyout h t cb cr y s
  | .cpytt h cb cr y => Sys2Proof.Machine.execCpytt h cb cr y s
  | .cpyfill h cb cr y => Sys2Proof.Machine.execCpyfill h cb cr y s
  | .tbind d a g => Sys2Proof.Machine.execTbind d a g s
  | .cbld d a g => Sys2Proof.Machine.execCbld d a g s
  | .bshr d a b g => Sys2Proof.Machine.execBshr d a b g s
  | .frz d g => Sys2Proof.Machine.execFrz d g s
  | .rstr a g => Sys2Proof.Machine.execRstr a g s
  | .cast d a b g => Sys2Proof.Machine.execCast d a b g s
  | .drop a g => Sys2Proof.Machine.execDrop a g s
  | .minfo d a g => Sys2Proof.Machine.execMinfo d a g s
  | .stamp d a b g => Sys2Proof.Machine.execStamp d a b g s
  | .pbind n a g => Sys2Proof.Machine.execPbind n a g s
  | .ptkt n g => Sys2Proof.Machine.execPtkt n g s
  | .pdone n g => Sys2Proof.Machine.execPdone n g s
  | .pwait n g => Sys2Proof.Machine.execPwait n g s
  | .pquit n g => Sys2Proof.Machine.execPquit n g s
  | .give d g => Sys2Proof.Machine.execGive d g s
  | .claim d g => Sys2Proof.Machine.execClaim d g s
  | .qpop d a g => Sys2Proof.Machine.execQpop d a g s
  | .qpopt d a g => Sys2Proof.Machine.execQpopt d a g s
  | .qpopl d a b g => Sys2Proof.Machine.execQpopl d a b g s
  | .qpush d a g => Sys2Proof.Machine.execQpush d a g s
  | .qpushl d a b g => Sys2Proof.Machine.execQpushl d a b g s
  | .qcnt d a g => Sys2Proof.Machine.execQcnt d a g s
  | .bara id e a d g => Sys2Proof.Machine.execBara id e a d g s
  | .baraw id e a d g => Sys2Proof.Machine.execBaraw id e a d g s
  | .barw id e d g => Sys2Proof.Machine.execBarw id e d g s
  | .lwait a g => Sys2Proof.Machine.execLwait a g s
  | .lwaitArm a g => Sys2Proof.Machine.execLwaitArm a g s
  | .lwake a g => Sys2Proof.Machine.execLwake a g s
  | .lwakeInt a g => Sys2Proof.Machine.execLwakeInt a g s
  | .nop g => Sys2Proof.Machine.execNop g s
  | .exit g => Sys2Proof.Machine.execExit g s
  | .yld c g => Sys2Proof.Machine.execYld c g s
  | .trap n g => Sys2Proof.Machine.execTrap n g s
  | .sysc g => Sys2Proof.Machine.execSysc g s
  | .iret g => Sys2Proof.Machine.execIret g s
  | .brk g => Sys2Proof.Machine.execBrk g s
  | .wmk sig g => Sys2Proof.Machine.execWmk sig g s
  | .ireg g => Sys2Proof.Machine.execIreg g s
  | .iregClose g => Sys2Proof.Machine.execIregClose g s
  | .xrdv d a g => Sys2Proof.Machine.execXrdv d a g s
  | .xwrv d a g => Sys2Proof.Machine.execXwrv d a g s
  | .xrds d a g => Sys2Proof.Machine.execXrds d a g s
  | .xwrs d a g => Sys2Proof.Machine.execXwrs d a g s
  | .xrdsp d n g => Sys2Proof.Machine.execXrdsp d n g s
  | .xwrsp d n g => Sys2Proof.Machine.execXwrsp d n g s
  | .xrpk d a g => Sys2Proof.Machine.execXrpk d a g s
  | .xwpk d a g => Sys2Proof.Machine.execXwpk d a g s
  | .idle d g => Sys2Proof.Machine.execIdle d g s
  | .rfeResume a g => Sys2Proof.Machine.execRfeResume a g s
  | .rfeDeliver a g => Sys2Proof.Machine.execRfeDeliver a g s
  | .rfeKill a g => Sys2Proof.Machine.execRfeKill a g s
  | .rfeResumeNoReplay a g => Sys2Proof.Machine.execRfeResumeNoReplay a g s
  | .rfeReturn a g => Sys2Proof.Machine.execRfeReturn a g s
  | .psrd d n g => Sys2Proof.Machine.execPsrd d n g s
  | .pswr d n g => Sys2Proof.Machine.execPswr d n g s
  | .tlbiPage d a g => Sys2Proof.Machine.execTlbiPage d a g s
  | .tlbiRange d a b g => Sys2Proof.Machine.execTlbiRange d a b g s
  | .tlbiAs d g => Sys2Proof.Machine.execTlbiAs d g s
  | .tlbiAll g => Sys2Proof.Machine.execTlbiAll g s
  | .genb d a g => Sys2Proof.Machine.execGenb d a g s
  | .scrbStart d a b g => Sys2Proof.Machine.execScrbStart d a b g s
  | .scrbQuery d a g => Sys2Proof.Machine.execScrbQuery d a g s
  | .scrbAbort a g => Sys2Proof.Machine.execScrbAbort a g s
  | .kzro a g => Sys2Proof.Machine.execKzro a g s
  | .mboxSend d a g => Sys2Proof.Machine.execMboxSend d a g s
  | .mboxRecv d a g => Sys2Proof.Machine.execMboxRecv d a g s
  | .mboxPeek d a g => Sys2Proof.Machine.execMboxPeek d a g s
  | .bind d a b g => Sys2Proof.Machine.execBind d a b g s
  | .unbind d a b g => Sys2Proof.Machine.execUnbind d a b g s
  | .loadLanding seq => Sys2Proof.Machine.execLoadLanding seq s
  | .storeAck seq => Sys2Proof.Machine.execStoreAck seq s
  | .monitorWake ply => Sys2Proof.Machine.execMonitorWake ply s
  | .copyBlockLand seq block => Sys2Proof.Machine.execCopyBlockLand seq block s
  | .copyStop seq c => Sys2Proof.Machine.execCopyStop seq c s
  | .deferredCause ply => Sys2Proof.Machine.execDeferredCause ply s
  | .mmaComplete seq octet => Sys2Proof.Machine.execMmaComplete seq octet s
  | .engineThaw core => Sys2Proof.Machine.execEngineThaw core s
  | .pageWalk core seq ahead => Sys2Proof.Machine.execPageWalk core seq ahead s
  | .faultEntryTaken die => Sys2Proof.Machine.execFaultEntryTaken die s
  | .faultReply die => Sys2Proof.Machine.execFaultReply die s
  | .staleAccessReturn a => Sys2Proof.Machine.execStaleAccessReturn a s
  | .queueEntryArrival ply desc => Sys2Proof.Machine.execQueueEntryArrival ply desc s
  | .queueNack ply desc => Sys2Proof.Machine.execQueueNack ply desc s
  | .queueBackoff ply desc => Sys2Proof.Machine.execQueueBackoff ply desc s
  | .queueAck ply desc => Sys2Proof.Machine.execQueueAck ply desc s
  | .userInterruptDelivery ply => Sys2Proof.Machine.execUserInterruptDelivery ply s
  | .regionRetry ply => Sys2Proof.Machine.execRegionRetry ply s
  | .waitnComplete ply => Sys2Proof.Machine.execWaitnComplete ply s
  | .genbComplete ply => Sys2Proof.Machine.execGenbComplete ply s
  | .rowWaitRetry ply => Sys2Proof.Machine.execRowWaitRetry ply s
  | .rowStarvation core => Sys2Proof.Machine.execRowStarvation core s
  | .stampQueuePlace run => Sys2Proof.Machine.execStampQueuePlace run s
  | .exportComplete core entry => Sys2Proof.Machine.execExportComplete core entry s
  | .runAccept tenant => Sys2Proof.Machine.execRunAccept tenant s
  | .runAging run => Sys2Proof.Machine.execRunAging run s
  | .gangReserve => Sys2Proof.Machine.execGangReserve s
  | .teamRetire run team => Sys2Proof.Machine.execTeamRetire run team s
  | .runEnd run => Sys2Proof.Machine.execRunEnd run s
  | .dieLinkLoss dieA dieB => Sys2Proof.Machine.execDieLinkLoss dieA dieB s
  | .prePreempt tenant => Sys2Proof.Machine.execPrePreempt tenant s
  | .preRestore tenant => Sys2Proof.Machine.execPreRestore tenant s
  | .tcfgWrite tenant v => Sys2Proof.Machine.execTcfgWrite tenant v s
  | .sweepEnd tenant => Sys2Proof.Machine.execSweepEnd tenant s
  | .kwayWrite port v => Sys2Proof.Machine.execKwayWrite port v s
  | .subqWrite tenant v => Sys2Proof.Machine.execSubqWrite tenant v s
  | .mbtabWrite v => Sys2Proof.Machine.execMbtabWrite v s
  | .csplitWrite v => Sys2Proof.Machine.execCsplitWrite v s
  | .carveOutApply core => Sys2Proof.Machine.execCarveOutApply core s
  | .keyctlLoad slot => Sys2Proof.Machine.execKeyctlLoad slot s
  | .keyctlLoadDone => Sys2Proof.Machine.execKeyctlLoadDone s
  | .injctlArm v => Sys2Proof.Machine.execInjctlArm v s
  | .patrolScrub pa => Sys2Proof.Machine.execPatrolScrub pa s
  | .scrubJobProgress job => Sys2Proof.Machine.execScrubJobProgress job s
  | .scrubDeferral stack on => Sys2Proof.Machine.execScrubDeferral stack on s
  | .coldReset => Sys2Proof.Machine.execColdReset s
  | .functionReset => Sys2Proof.Machine.execFunctionReset s
  | .restartFr => Sys2Proof.Machine.execRestartFr s
  | .restartCp core => Sys2Proof.Machine.execRestartCp core s
  | .firmwareVerify img => Sys2Proof.Machine.execFirmwareVerify img s
  | .attreqWrite pa => Sys2Proof.Machine.execAttreqWrite pa s
  | .thermalThrottle monitor v => Sys2Proof.Machine.execThermalThrottle monitor v s
  | .thermalTrip monitor v => Sys2Proof.Machine.execThermalTrip monitor v s
  | .pushPortWrite port data => Sys2Proof.Machine.execPushPortWrite port data s
  | .bar2Access bar off r relaxed => Sys2Proof.Machine.execBar2Access bar off r relaxed s
  | .orderingPointForward n => Sys2Proof.Machine.execOrderingPointForward n s
  | .latchWake vf k => Sys2Proof.Machine.execLatchWake vf k s
  | .latchKey vf n k => Sys2Proof.Machine.execLatchKey vf n k s
  | .latchStatus vf n => Sys2Proof.Machine.execLatchStatus vf n s
  | .sqTailDoorbell lease tail => Sys2Proof.Machine.execSqTailDoorbell lease tail s
  | .cqHeadDoorbell lease head => Sys2Proof.Machine.execCqHeadDoorbell lease head s
  | .nvmeDma queue va r => Sys2Proof.Machine.execNvmeDma queue va r s
  | .nvmeCompletionInterrupt lease => Sys2Proof.Machine.execNvmeCompletionInterrupt lease s
  | .aktumRequest port tenant pa r => Sys2Proof.Machine.execAktumRequest port tenant pa r s
  | .aktumFlit port crcOk => Sys2Proof.Machine.execAktumFlit port crcOk s
  | .aktumRetrain port => Sys2Proof.Machine.execAktumRetrain port s
  | .illegalInstruction c => Sys2Proof.Machine.execIllegalInstruction c s
  | .storageError e => Sys2Proof.Machine.execStorageError e s
  | .aktumPortDown port => Sys2Proof.Machine.execAktumPortDown port s
  | .aktumPortUp port => Sys2Proof.Machine.execAktumPortUp port s
  | .hbmStackTrained stack => Sys2Proof.Machine.execHbmStackTrained stack s
  | .hostPortTrained => Sys2Proof.Machine.execHostPortTrained s
  | .nvmeLinkUp port => Sys2Proof.Machine.execNvmeLinkUp port s
  | .podBarrierMessage run id m => Sys2Proof.Machine.execPodBarrierMessage run id m s

end Sys2Proof.Machine
end

