-- ==== Sys2Proof/Machine/Turn.lean ====
section
/-! DEFINITION. Machine/Turn.lean: what one step does around an instruction: time, the fetch (R115, R118, R119), the choice of
the ply that issues (R308), and the order of the part's own steps where none is given. -/
namespace Sys2Proof.Machine

/-! ## Fetch (R115, R118, R119, R287, R322) -/

/-- What fetching one word gives. -/
inductive FetchedWord where
  | word (w : BitVec 32)
  | absent (level : Nat)
  | cause (c : Cause)
  | fault (f : Fault)

/-- The lines of the 64 KiB instruction cache (R119). -/
def codeLines : Nat := 512
def CodeLine.image (l : CodeLine) : Image := ⟨128 * l.line, Memory.readBytes l.cells (128 * l.line) 128, []⟩
/-- The line is the one that an agent fetches: of its space, under the generation in force (R112, R119). -/
def CodeLine.serves (l : CodeLine) (v : Viewer) (s : State) (line : Nat) : Bool :=
  l.line == line && l.space == v.space && l.gen == genOf s v.space
/-- A ply of a core runs in a space. -/
def runsCode (s : State) (core space : Nat) : Bool :=
  s.plies.any fun (k, p) => coreOf k == core && p.state != .halted && (viewer k p).space == space && !(viewer k p).phys
/-- A line fills the instruction cache, and the line that was filled first leaves a full one. -/
def Core.fillCode (c : Core) (l : CodeLine) : Core :=
  { c with icache := (l :: c.icache.filter fun x => !(x.line == l.line && x.space == l.space)).take codeLines }
/-- A fetch that meets a line whose parity has failed drops it, and reads it anew (R345). -/
def checkCode (c : Nat) (v : Viewer) (line : Nat) (s : State) : State :=
  if (s.core c).icache.any (fun l => l.serves v s line && l.bad) then
    coreEvent c 3 0 (lineRes s line) none (s.modCore c (·.dropCode (· == line)))
  else s
/-- Code at home, for the fetch agent. No injector fires (log entry 50). -/
def codeImage (a n : Nat) (s : State) : Image × State :=
  let s := correctWords (wordsOf a n) (combineLine (lineOf a) (touchL2 .normal a s))
  (homeImage s a n, s)
/-- The line of a word of code, which the fetch agent of the die multicasts to every core of it that runs the same space. A line
with a poisoned word fills no cache. The uncorrectable errors of its other words leave poison, and are logged as latent (R346). -/
def fillCode (c : Nat) (v : Viewer) (a : Nat) (s : State) : Image × State :=
  let unread := s.latent.filter fun x => x / 4 / 16 == lineOf a && !(wordsOf a 4).contains (x / 4)
  let (i, s) := codeImage (lineOf a * 128) 128 s
  let s := unread.foldl logLatent s
  if !i.poison.isEmpty then (i.slice a 4, s)
  else
    let l : CodeLine := ⟨lineOf a, v.space, genOf s v.space, Memory.writeBytes [] i.base i.bytes, false⟩
    let takes := fun (n : Nat) => dieOfCore n == dieOfCore c && (n == c || runsCode s n v.space)
    (i.slice a 4, { s with cores := s.cores.mapVals fun n x => if takes n then x.fillCode l else x })
/-- The bytes of a place as a fetch of a core reads them. An untranslated fetch is of no space, and reads home (log entry 107).
DESIGN CHOICE: the spec does not say what a fetch from the register space of the I/O die gives; it is checked as the access to
the 8-byte register, and gives its low or high half (log entry 96). -/
def fetchedImage (c : Nat) (v : Viewer) (x : Nat) (s : State) : Image × State :=
  match targetAt s.io x with
  | .memory a =>
    if v.phys then codeImage a 4 s
    else
      let s := checkCode c v (lineOf a) s
      (match (s.core c).icache.find? (·.serves v s (lineOf a)) with
       | some l => (l.image.slice a 4, s)
       | none => fillCode c v a s)
  | .register off => (⟨x, (registerRead s (off / 8 * 8) 8).drop (off % 8) |>.take 4, []⟩, s)
  | _ => outsideRead x 4 s
/-- Fetches the word at an address for a ply. A poisoned one raises its cause (R328). -/
def fetchWord (k : Nat) (p : Ply) (pc : Pc) (s : State) : FetchedWord × State :=
  let v := viewer k p
  match translate v (pc.setWidth 64) .exec s with
  | (.absent level, s) => (.absent level, s)
  | (.cause c, s) => (.cause c, s)
  | (.ok pa _ _, s) =>
    let x := placeOf s.io pa
    match (match targetAt s.io x with
           | .register _ => accessCheck s v.requester (x / 8 * 8) 8
           | _ => accessCheck s v.requester x 4) with
    | .cause c => (.cause c, s)
    | .fault f => (.fault f, s)
    | .ok =>
      let (i, s) := fetchedImage (coreOf k) v x s
      match i.error with
      | some c => (.cause c, consumeRecord i (plyid k p) s)
      | none => (.word (BitVec.ofNat 32 i.value), s)

def Ply.decodeCtx (k : Nat) (p : Ply) : DecodeCtx := ⟨p.mode != 0, isService k, p.width > 8⟩
/-- What a ply runs next. -/
inductive Fetched where
  | instr (i : Instr)
  /-- the page at an address is not present -/
  | absent (va : Pc) (level : Nat)
  | cause (c : Cause) (va : Pc)
  | fault (f : Fault)
/-- Decodes the words of an instruction. -/
noncomputable def decoded (ctx : DecodeCtx) (w lit : BitVec 32) : Fetched :=
  match decodeWord ctx w lit with | .ok i => .instr i | .error c => .instr (.illegalInstruction c)
/-- The words that encode no ULIT need no second fetch; a ULIT takes the next word as data (R118). One whose guard fails has
no cause and no wait (R120): it takes a literal that can be had, to feed it (R260), and else a free value (log entry 120). -/
noncomputable def fetch (k : Nat) (p : Ply) (s : State) : Fetched × State :=
  match fetchWord k p p.a.pc s with
  | (.absent level, s) => (.absent p.a.pc level, s)
  | (.cause c, s) => (.cause c p.a.pc, s)
  | (.fault f, s) => (.fault f, s)
  | (.word w, s) =>
    if !isUlit w || !(decodeWord (p.decodeCtx k) w 0).isOk then (decoded (p.decodeCtx k) w 0, s)
    else match fetchWord k p (p.a.pc + 4) s with
      | (.word lit, s) => (decoded (p.decodeCtx k) w lit, s)
      | (x, t) =>
        if !guardHolds (fG w) p then
          (decoded (p.decodeCtx k) w (Config.skippedLiteral s.fresh), { s with fresh := s.fresh + 1 })
        else match x with
          | .absent level => (.absent (p.a.pc + 4) level, t)
          | .cause c => (.cause c (p.a.pc + 4), t)
          | .fault f => (.fault f, t)
          | .word lit => (decoded (p.decodeCtx k) w lit, t)

/-! ## The ply that issues (R308) -/

/-- A returned store that waits for its page holds its own ply, and the user plies of its tenant on the core, which may have seen it
(R98, R103, R325; log entry 77). -/
def Flight.holds (p : Ply) (f : Flight) : Bool := !f.away.isEmpty && (f.uid == p.uid || (p.mode == 0 && p.ident.tenant == f.tenant))
/-- A ply can take a turn: it is Ready, waits for nothing but rows, its tenant's halt is not in progress (R338), and no returned store
holds it. -/
def Ply.canIssue (k : Nat) (p : Ply) (s : State) : Bool :=
  p.state == .ready && (match p.wait with | .none | .rows _ => true | _ => false) && !haltsIssue s p
    && (s.core (coreOf k)).stores.all fun f => !f.holds p
/-- A ply has something to do before its next instruction: a cause that waits for its boundary, a user interrupt or replay
packets. -/
def Ply.hasWork (k : Nat) (p : Ply) (s : State) : Bool :=
  (!p.deferred.isEmpty && p.atBoundary) || p.interruptible || hasPackets k p s
/-- The next instruction of a ply is a lane instruction: bit 31 of its word is 0. -/
def nextIsLane (s : State) (k : Nat) (p : Ply) : Bool :=
  match fetchWord k p p.a.pc s with | (.word w, _) => !w.getLsbD 31 | _ => false

/-- Leaves a fetch that waited for its page behind it. -/
def Ply.fetchDone (p : Ply) : Ply :=
  match p.unfinished with
  | some u => if u.reqs.isEmpty && u.flight.isNone then { p with unfinished := none } else p
  | none => p
/-- The state in which the fetched instruction runs. -/
def issueState (k : Nat) (s : State) : State := { s.modPly k Ply.fetchDone with cur := k }
/-- The lanes that a ply has left to replay; a fetch that waits is for all of EM. -/
def Ply.leftLanes (p : Ply) : Unfinished := p.fetchDone.unfinished.getD ⟨p.a.em, [], none, [], 0⟩
/-- A ply fetches its next instruction and runs it. -/
noncomputable def issue (k : Nat) (p : Ply) (s : State) : Out :=
  match fetch k p s with
  | (.instr i, s) => exec i (issueState k s)
  | (.absent va level, s) => .next (parkOnPages k .exec [(va.setWidth 64, level)] p.leftLanes { s with cur := k })
  | (.cause c va, s) =>
    .next (takeCause k c p.a.pc (va.setWidth 64) ((p.fetchDone.unfinished.map (·.mask)).getD 0) { s with cur := k })
  | (.fault f, _) => .fault f

/-- A ply's mark says that it could not issue. -/
def standsBack (k : Nat) (o : Out) : Bool :=
  match o with | .next s => (match s.ply k with | some p => p.stalled | none => false) | _ => false
/-- The plies of a core that may be candidates of its lane issue or of its uniform issue. -/
def contenders (s : State) (core : Nat) (lane : Bool) : List (Nat × Ply) :=
  s.plies.filter fun (k, p) =>
    coreOf k == core && p.canIssue k s && !p.stalled && !p.hasWork k s && nextIsLane s k p == lane
/-- The candidates: those whose next instruction can issue. -/
noncomputable def candidates (s : State) (core : Nat) (lane : Bool) : List (Nat × Ply) :=
  match contenders s core lane with
  | [x] => [x]
  | l => l.filter fun (k, p) => !standsBack k (issue k p s)
def passOf (lane : Bool) (p : Ply) : Nat := if lane then p.passLane else p.passUniform
/-- A candidate is due (R308). The list holds the pass counts of every candidate. -/
def isDue (counts : List Nat) (c : Nat) : Bool := c + (counts.filter (c ≤ ·)).length - 1 ≥ 63
/-- The later of two in a list ordered by slot replaces the earlier when it stands before it. -/
def firstBy (before : Nat × Ply → Nat × Ply → Bool) (l : List (Nat × Ply)) : Option (Nat × Ply) :=
  l.foldl (fun b x => match b with | none => some x | some y => if before x y then some x else some y) none
/-- The choice of one issue from its candidates (R308). -/
def choosePly (lane : Bool) (cs : List (Nat × Ply)) : Option (Nat × Ply) :=
  let counts := cs.map fun (_, p) => passOf lane p
  if counts.any (isDue counts) then firstBy (fun x y => passOf lane x.2 > passOf lane y.2) cs
  else match cs.find? fun (k, _) => isContext k with
    | some x => some x
    | none =>
      firstBy (fun x y => x.2.ident.prio > y.2.ident.prio || (x.2.ident.prio == y.2.ident.prio && passOf lane x.2 > passOf lane y.2)) cs
/-- The ply that a core issues next. A cycle of a core is a turn of its lane issue and a turn of its uniform issue, one after
the other (log entry 121). -/
noncomputable def corePick (s : State) (core : Nat) : Option Nat :=
  match choosePly true (candidates s core true), choosePly false (candidates s core false) with
  | some (k, _), some (k', _) => some (if (s.core core).laneLast then k' else k)
  | some (k, _), none => some k
  | none, x => x.map (·.1)
/-- The pass counts of a core after one of its issues (R308): they rise for the candidates that were passed over, and are 0 for
every other ply of that issue. -/
def notePasses (k : Nat) (lane : Bool) (cs : List (Nat × Ply)) (s : State) : State :=
  { s.modCore (coreOf k) fun c => { c with laneLast := lane } with
    plies := s.plies.mapVals fun k' p =>
      if coreOf k' ≠ coreOf k then p
      else
        let c := if k' ≠ k && cs.any (fun (j, _) => j == k') then passOf lane p + 1 else 0
        if lane then { p with passLane := c } else { p with passUniform := c } }
/-- A ply that is no candidate has no pass count. -/
noncomputable def Ply.dropPasses (s : State) (k : Nat) (p : Ply) : Ply :=
  if p.passLane = 0 ∧ p.passUniform = 0 then p
  else
    let here := p.canIssue k s && !p.stalled && !p.hasWork k s && !standsBack k (issue k p s)
    let lane := nextIsLane s k p
    { p with passLane := if here && lane then p.passLane else 0, passUniform := if here && !lane then p.passUniform else 0 }

/-! ## A ply's turn -/

/-- Every other ply tries again, unless this one could not issue. -/
def unstall (s : State) : State :=
  if s.plies.any fun (_, p) => p.stalled then { s with plies := s.plies.mapVals fun _ p => { p with stalled := false } } else s
/-- What follows an issue that was chosen in `t`: one that could not issue leaves the counts, any other counts. -/
noncomputable def afterTurn (t : State) (k : Nat) (p : Ply) (s : State) : State :=
  if standsBack k (.next s) then s
  else unstall (notePasses k (nextIsLane t k p) (candidates t (coreOf k) (nextIsLane t k p)) s)
def mapNext (f : State → State) : Out → Out
  | .next s => .next (f s) | .fault e => .fault e | .refused r => .refused r
/-- A ply takes its turn: a cause that waits for its issue boundary, a user interrupt, its replay packets, or its next
instruction. -/
noncomputable def turn (k : Nat) (s : State) : Out :=
  match s.ply k with
  | none => .refused .notEnabled
  | some p =>
    if !p.canIssue k s then .refused .notEnabled
    else if !p.deferred.isEmpty && p.atBoundary then mapNext unstall (execDeferredCause k s)
    else if p.interruptible then mapNext unstall (execUserInterruptDelivery k s)
    else if hasPackets k p s then .next (unstall (reissue k (s.core (coreOf k)).loads.length { s with cur := k }))
    else mapNext (afterTurn s k p) (issue k p s)
/-- The ply whose turn it is on a core where a ply is named: its own, where it has work before its next instruction or the core
has no other choice, else the core's choice (R308). -/
noncomputable def turnOf (k : Nat) (s : State) : Nat :=
  match s.ply k with
  | some p => if p.canIssue k s && !p.hasWork k s then (corePick s (coreOf k)).getD k else k
  | none => k
/-- The core whose turn it is: the cores go round. -/
def nextCore (s : State) : Option Nat :=
  let cs := (s.plies.filter fun (k, p) => p.canIssue k s && (!p.stalled || p.hasWork k s)).map fun (k, _) => coreOf k
  match cs.find? (coreOf s.cur < ·) with | some c => some c | none => cs.head?
/-- The ply that goes on next. -/
noncomputable def nextPly (s : State) : Option Nat :=
  (nextCore s).bind fun core =>
    match s.plies.find? fun (k, p) => coreOf k == core && p.canIssue k s && p.hasWork k s with
    | some (k, _) => some k
    | none => corePick s core

/-! ## The part's own steps, where no order is given (log entry 4) -/

noncomputable def coreEvents (s : State) (c : Nat) (x : Core) : List Instr :=
  (x.loads.filter fun f => !f.packet && !(f.waiting && f.ready.isEmpty)).map (fun f => .loadLanding f.seq)
  ++ (x.stores.filter fun f => !(f.more && f.ready.isEmpty && f.writes.isEmpty)).map (fun f => .storeAck f.seq)
  ++ (x.copies.filter (!·.held)).flatMap (fun y => y.left.map fun b => .copyBlockLand y.seq b)
  ++ (if x.frozen then [.engineThaw c] else x.mats.map fun m => .mmaComplete m.seq m.octet)
  ++ (x.moulds.filter fun (_, m) => m.exported && !m.complete).map (fun (e, _) => .exportComplete c e)
  ++ (if min x.nreq (tsLimit s c) = x.ncur then [] else [.carveOutApply c])
  ++ (if x.starved.isSome then [.rowStarvation c] else [])
noncomputable def plyEvents (k : Nat) (p : Ply) : List Instr :=
  (match p.wait with
   | .monitor _ => [.monitorWake k] | .counts .. => [.waitnComplete k] | .genb .. => [.genbComplete k] | .retry _ => [.regionRetry k]
   | _ => [])
  ++ (if p.interruptible then [.userInterruptDelivery k] else [])
noncomputable def windowEvents (w : Window) : List Instr :=
  match w.entries with
  | [] => []
  | e :: _ => [.queueAck w.sender e.desc, .queueEntryArrival w.sender e.desc, .queueNack w.sender e.desc, .queueBackoff w.sender e.desc]
noncomputable def runEvents (s : State) (k : Nat) (r : Run) : List Instr :=
  (if r.stampq.isEmpty && r.bound.isEmpty then [] else [.stampQueuePlace k]) ++ (if r.placing then [.runAging k] else [])
  ++ (s.teams.filter fun (_, t) => t.run == k && !t.retired).map (fun (_, t) => .teamRetire k t.number)
  ++ (if r.placing then [] else [.runEnd k])
/-- What the units may do next, in the model's order. -/
noncomputable def internalEvents (s : State) : List Instr :=
  s.cores.flatMap (fun (c, x) => coreEvents s c x) ++ s.windows.flatMap windowEvents ++ s.plies.flatMap (fun (k, p) => plyEvents k p)
  ++ (s.heldMisses.filter fun (_, l) => !l.isEmpty).map (fun (d, _) => .faultEntryTaken d)
  ++ (if s.hyp.mbtab = 0 then [] else (List.range 4).map .faultReply)
  ++ s.runs.flatMap (fun (k, r) => runEvents s k r) ++ (if s.runs.any fun (_, r) => r.placing then [.gangReserve] else [])
  ++ s.hyp.subq.map (fun (t, _) => .runAccept t) ++ s.hyp.sweepOld.map (fun (t, _) => .sweepEnd t)
  ++ (if s.hyp.preGo then (if s.hyp.preRestore then [.preRestore s.hyp.preTen.toNat] else [.prePreempt s.hyp.preTen.toNat]) else [])
  ++ (if s.hyp.keyLoad then [.keyctlLoadDone] else []) ++ (s.jobs.filter fun (_, j) => !j.ended).map (fun (n, _) => .scrubJobProgress n)
  ++ (List.range s.io.inbound.length).map .orderingPointForward
  ++ (s.plies.filter fun (_, p) => match p.wait with | .rows _ => p.state == .parked | _ => false).map (fun (k, _) => .rowWaitRetry k)
/-- The first of some steps that can happen. -/
def firstEvent (s : State) : List Instr → Option Out
  | [] => none
  | i :: is => match exec i s with | .refused _ => firstEvent s is | o => some o

/-- Time passes: a step takes a cycle, or as many as the state says (log entry 5). A ply that is no candidate any more loses its
pass counts (R308). -/
noncomputable def tick (s : State) : State :=
  let s := noteStarved { s with cycle := s.cycle + (match s.lapse with | [] => 1 | n :: _ => n), lapse := s.lapse.tail }
  { s with plies := s.plies.mapVals (Ply.dropPasses s) }
/-- The events in the order of this step: each stands first in its turn. -/
noncomputable def eventOrder (s : State) : List Instr :=
  let l := internalEvents s
  let n := s.cycle / 2 % max 1 l.length
  l.drop n ++ l.take n
/-- A step in the model's own order: a unit and a ply take turns, and where neither can go on, time passes. -/
noncomputable def ownOrder (s : State) : Out :=
  let unit := fun (other : Out) => match firstEvent s (eventOrder s) with | some o => mapNext unstall o | none => other
  match nextPly s with
  | some k => if s.cycle % 2 = 1 then turn k s else unit (turn k s)
  | none => unit (.next s)
/-- One step of the machine. -/
noncomputable def oneStep (s : State) : Out :=
  let s := tick s
  match s.agenda with
  | [] => ownOrder s
  | .ply k :: rest => turn (turnOf k { s with agenda := rest }) { s with agenda := rest }
  | .event i :: rest => mapNext unstall (exec i { s with agenda := rest })

/-! ## Placing a word for the next step -/

/-- The physical address at which `placeWord` puts an instruction. -/
def bootPc (io : Io) : Nat := localPa io 0x1000
/-- The context ply of core 0 as it starts at an entry (R374). -/
def bootPly (io : Io) : Ply := Ply.start 0 64 1 (Arch.start (BitVec.ofNat 57 (bootPc io)) (allLanes 64)) bareIdent
/-- Puts the bits of an instruction where the context ply of core 0 starts, in memory that nothing else touches, and gives it
the next turn, for which the core's other plies stand back (log entry 2). -/
def placeWord (s : State) (nbits w : Nat) : State :=
  { s with
    mem := Memory.writeBytes s.mem 0x1000 (bytesLE (w % 2 ^ nbits) 8)
    keyOf := s.keyOf.drop (lineOf 0x1000), poison := s.poison.drop (0x1000 / 8), latent := [], lost := []
    plies := (s.plies.mapVals fun k p => if coreOf k = 0 then { p with stalled := true } else p).put (contextKey 0) (bootPly s.io)
    cores := s.cores.drop 0
    agenda := [.ply (contextKey 0)] }

end Sys2Proof.Machine
end

