-- ==== Sys2Proof/Machine/Step.lean ====
section
/-! DEFINITION. Machine/Step.lean: the step of the machine, and the host's way to place a word before it. -/
namespace Sys2Proof.Machine

/-- One step: what the agenda says, or the next turn in the model's own order. -/
noncomputable def step (s : State) : Host.Outcome State Fault Refusal := Sys2Proof.Machine.oneStep s

/-- `s` with an instruction of `nbits` bits `w` placed where the next step fetches. -/
def State.withFetchWord (s : State) (nbits w : Nat) : State := Sys2Proof.Machine.placeWord s nbits w

end Sys2Proof.Machine
end

