-- ==== Sys2Proof/Safety.lean ====
section
/-! DEFINITION. Safety.lean: what a run of the machine is, and what every state of a run is held to. -/
namespace Sys2Proof.Machine

/-- One step leads from `s` to `t`. -/
def StepsTo (s t : State) : Prop := step s = .next t

/-- A run leads from `s` to `t`. -/
inductive Reaches : State → State → Prop where
  | refl (s : State) : Reaches s s
  | tail {s t u : State} : Reaches s t → StepsTo t u → Reaches s u

/-- The memory is in its one canonical form: the listed addresses strictly rise, and no listed byte is 0. -/
def MemoryCanonical (s : State) : Prop := Memory.wf s.mem = true

/-- A run from `s` never stops with a fault: every step of it answers a next state or says that it is no step. -/
def FaultFree (s : State) : Prop := ∀ t, Reaches s t → ∀ f, step t ≠ .fault f

end Sys2Proof.Machine
end

