-- ==== Sys2Proof/Certificates/Slice0/Vocabulary.lean ====
section
/-! DEFINITION. Certificates/Slice0/Vocabulary.lean: the words that the statements use: which ply acts, what completing an
instruction leaves of it, and the shapes of the instructions that only move values between registers. -/
namespace Sys2Proof.Claim
open Sys2Proof.Machine

/-! ## The acting ply and what completing leaves of it -/

/-- `p` is the ply whose instruction runs in `s`. -/
def Acts (s : State) (p : Ply) : Prop := s.ply s.cur = some p
/-- The core of the acting ply. -/
def here (s : State) : Core := s.core (coreOf s.cur)

/-- The ply `p` when its instruction `i` has completed and it goes on at `pc`. The words of a fed instruction enter the
watermark's control half unless a user interrupt is in progress (R260), the instructions of R257 close the region, the whole EM
is back after a run over the lanes of HUMASK (R292), and the ply waits for nothing. Nothing else of `p` changes. -/
def went (kd : WordKind) (i : Instr) (p : Ply) (pc : Pc) : Ply :=
  { p with
    a := { p.a with em := p.wholeEm, pc := pc, wmsig := if kd.fed && !p.inUi then crcBytes p.a.wmsig (wordBytes (encode i)) else p.a.wmsig }
    region := if kd.closes then 0 else p.region, fullEm := none
    wait := .none, words := [], unfinished := none, stalled := false, stale := 0, staleFetch := 0 }
/-- The address after the words of an instruction: 4 bytes on, or 8 for ULIT (R115, R118). -/
def nextPc (i : Instr) (p : Ply) : Pc := p.a.pc + BitVec.ofNat 57 (4 * (encode i).length)
/-- The ply `p` when a fed instruction has completed and the next one follows. -/
def past (i : Instr) (p : Ply) : Ply := went {} i p (nextPc i p)
/-- The same for an instruction whose issue closes the region (R257). -/
def pastClosing (i : Instr) (p : Ply) : Ply := went { closes := true } i p (nextPc i p)

/-- `i` completes: the machine is as `t` says, the acting ply with `f` done to it, and the next instruction follows. -/
def Completes (kd : WordKind) (i : Instr) (s : State) (p : Ply) (t : State) (f : Ply → Ply) : Prop :=
  exec i s = .next (t.modPly s.cur fun q => went kd i (f q) (nextPc i p))
/-- `i` has issued and parks its ply on a wait; it completes later (R260). -/
def Parks (kd : WordKind) (i : Instr) (s t : State) (st : SlotState) (w : Wait) : Prop :=
  exec i s = .next (t.modPly s.cur fun q =>
    { q with region := if kd.closes then 0 else q.region, state := st, wait := w
             words := if kd.fed then encode i else [], stalled := false })
/-- `i` completes, and then takes a cause after itself with the PC of the next instruction (R39). -/
def CompletesThenRaises (kd : WordKind) (i : Instr) (s : State) (p : Ply) (t : State) (c : Cause) : Prop :=
  exec i s = .next (takeCause s.cur c (nextPc i p) 0 0 (t.modPly s.cur fun q => went kd i q (nextPc i p)))
/-- `i` cannot issue yet: nothing changes but that its ply stands back. -/
def StandsBack (i : Instr) (s : State) : Prop := exec i s = .next (s.modPly s.cur fun q => { q with stalled := true })

/-- `r` is the cause of the first condition of a list that holds, and none when none does. -/
def FirstOf (r : Option Cause) : List (Prop × Cause) → Prop
  | [] => r = none
  | (holds, c) :: rest => (holds → r = some c) ∧ (¬holds → FirstOf r rest)
/-- `i` takes a cause before itself, in the state `t` that its checks left: the report carries its own PC, an address and the
mask of its unfinished lanes. What is left of a partly performed instruction keeps its words, and the issue of `i` closes the
region where R257 says so, but for 0x05, with which it has not issued (R32, R39, R186; log entry 17). -/
def Raises (kd : WordKind) (i : Instr) (s : State) (p : Ply) (t : State) (c : Cause) (addr umask : DWord) : Prop :=
  exec i s = .next (takeCause s.cur c p.a.pc addr umask (t.modPly s.cur fun q =>
    let q := q.keepWords kd (encode i)
    if c = .role then q else q.closedBy kd))

/-! ## Uniform instructions: one register or one predicate -/

/-- With its guard true, `i` completes; s[d] takes `v`, and nothing else of the machine changes but what `past` says. -/
def UniformGives (i : Instr) (g : Guard) (d : SReg) (v : Ply → DWord) : Prop :=
  ∀ s p, Acts s p → guardHolds g p = true → exec i s = .next (s.setPly s.cur (past i (p.setS d (v p))))
/-- The same for q[d]. -/
def UniformTests (i : Instr) (g : Guard) (d : QReg) (v : Ply → Bool) : Prop :=
  ∀ s p, Acts s p → guardHolds g p = true → exec i s = .next (s.setPly s.cur (past i (p.setQ d (v p))))

/-! ## Control transfers (R133, R260) -/

/-- A control transfer is not fed to the watermark. -/
def unfed : WordKind := { fed := false }
/-- `i` completes: the ply, as `p'` says, goes on at `pc`. -/
def Goes (i : Instr) (s : State) (p' : Ply) (pc : Pc) : Prop := exec i s = .next (s.setPly s.cur (went unfed i p' pc))
/-- A PC-relative target: PC + 4 times the offset (R115). -/
def offsetPc {n : Nat} (p : Ply) (o : BitVec n) : Pc := p.a.pc + BitVec.ofInt 57 (4 * o.toInt)

/-! ## Lane instructions: the rows of the row store -/

/-- A lane's word of a register of the acting ply. -/
def word (s : State) (p : Ply) (r : VReg) (l : Nat) : Word := (here s).word (p.entry r) l
/-- A lane's B7 operand: a lane register, or the low half of a uniform one (R45). -/
def operand (s : State) (p : Ply) (b : LaneSrc) (l : Nat) : Word :=
  match b with | .v r => word s p r l | .s r => (p.sreg r).setWidth 32
/-- The registers let the instruction issue: none is Given, none that it reads is pending, locked or poisoned, and none that it
writes is pending or locked (R46, R50, R53, R55, R161). -/
def Open (s : State) (p : Ply) (reads writes : List RegUse) : Prop := laneGate (here s) p reads writes = none

/-- `i` completes; the acting ply is as `p'` says, and nothing else of the machine changes but what `past` says. -/
def Becomes (i : Instr) (s : State) (p' : Ply) : Prop := exec i s = .next (s.setPly s.cur (past i p'))
/-- The same for an instruction that closes the region. -/
def BecomesClosing (i : Instr) (s : State) (p' : Ply) : Prop := exec i s = .next (s.setPly s.cur (pastClosing i p'))
/-- `i` completes with rows written: the core is `c'` and the acting ply is as `p'` says. -/
def Writes (i : Instr) (s : State) (c' : Core) (p' : Ply) : Prop :=
  exec i s = .next ((s.setCore (coreOf s.cur) c').setPly s.cur (past i p'))

/-- When its registers let it issue and the row store has the rows that R47 takes, `i` completes; v[d] takes `v` in the active
lanes, and nothing else of the machine changes but what `past` says. -/
def LaneGives (i : Instr) (d : VReg) (reads : List Nat → List RegUse) (v : State → Ply → Nat → Word) : Prop :=
  ∀ s p c' p', Acts s p → Open s p (reads p.lanes) [(d, p.lanes)] →
    writeReg (here s) p d (p.lanes.map fun l => ⟨l, v s p l, false⟩) = some (c', p') →
    exec i s = .next ((s.setCore (coreOf s.cur) c').setPly s.cur (past i p'))
/-- From v[a]. -/
def LaneFrom1 (i : Instr) (d a : VReg) (f : Word → Word) : Prop :=
  LaneGives i d (fun ls => [(a, ls)]) fun s p l => f (word s p a l)
/-- From v[a] and the B7 operand. -/
def LaneFrom2 (i : Instr) (d a : VReg) (b : LaneSrc) (f : Word → Word → Word) : Prop :=
  LaneGives i d (fun ls => (a, ls) :: srcUse b ls) fun s p l => f (word s p a l) (operand s p b l)
/-- From v[a], v[b] and v[c]. -/
def LaneFrom3 (i : Instr) (d a b c : VReg) (f : Word → Word → Word → Word) : Prop :=
  LaneGives i d (fun ls => [(a, ls), (b, ls), (c, ls)]) fun s p l => f (word s p a l) (word s p b l) (word s p c l)
/-- A predicate takes the lanes for which `f` holds, in the active lanes; p7 discards them (R43). -/
def LaneTests (i : Instr) (pd : PReg) (reads : List Nat → List RegUse) (f : State → Ply → Nat → Bool) : Prop :=
  ∀ s p, Acts s p → Open s p (reads p.lanes) [] →
    exec i s = .next (s.setPly s.cur (past i (p.setP pd p.a.em (maskOf (p.lanes.filter (f s p))))))

/-! ## Floating point (R70, R172) -/

/-- The conditions of every active lane together. -/
def conds (p : Ply) (f : Nat → Word × Conds) : Conds := p.lanes.foldl (fun c l => c ||| (f l).2) 0
/-- With no enabled condition, `i` completes: FPFLAGS collects the conditions, and v[d] takes the results. -/
def FloatGives (i : Instr) (d : VReg) (reads : List Nat → List RegUse) (f : State → Ply → Nat → Word × Conds) : Prop :=
  ∀ s p c' p', Acts s p → Open s p (reads p.lanes) [(d, p.lanes)] → conds p (f s p) &&& p.enables = 0 →
    writeReg (here s) (p.raise (conds p (f s p))) d (p.lanes.map fun l => ⟨l, (f s p l).1, false⟩) = some (c', p') →
    exec i s = .next ((s.setCore (coreOf s.cur) c').setPly s.cur (past i p'))
/-- With an enabled condition, `i` writes nothing and takes the cause of the lowest one, before itself. -/
def FloatTraps (i : Instr) (d : VReg) (reads : List Nat → List RegUse) (f : State → Ply → Nat → Word × Conds) : Prop :=
  ∀ s p, Acts s p → Open s p (reads p.lanes) [(d, p.lanes)] → conds p (f s p) &&& p.enables ≠ 0 →
    Raises {} i s p s (condCause (conds p (f s p) &&& p.enables)) 0 0
/-- What an operation on numbers gives, as a lane word. -/
def asWord (r : Nat × Conds) : Word × Conds := (BitVec.ofNat 32 r.1, r.2)
def lanes1 (a : VReg) (ls : List Nat) : List RegUse := [(a, ls)]
def lanes2 (a : VReg) (b : LaneSrc) (ls : List Nat) : List RegUse := (a, ls) :: srcUse b ls
def lanes3 (a b c : VReg) (ls : List Nat) : List RegUse := [(a, ls), (b, ls), (c, ls)]

/-- `i` completes with what `f` gives in each lane, or traps, as its conditions and their enables say. -/
def Floats (i : Instr) (d : VReg) (reads : List Nat → List RegUse) (f : State → Ply → Nat → Word × Conds) : Prop :=
  FloatGives i d reads f ∧ FloatTraps i d reads f
def FloatFrom1 (i : Instr) (d a : VReg) (f : FEnv → Nat → Nat × Conds) : Prop :=
  Floats i d (lanes1 a) fun s p l => asWord (f p.fenv (word s p a l).toNat)
def FloatFrom2 (i : Instr) (d a : VReg) (b : LaneSrc) (f : FEnv → Nat → Nat → Nat × Conds) : Prop :=
  Floats i d (lanes2 a b) fun s p l => asWord (f p.fenv (word s p a l).toNat (operand s p b l).toNat)
def FloatFrom3 (i : Instr) (d a b c : VReg) (f : FEnv → Nat → Nat → Nat → Nat × Conds) : Prop :=
  Floats i d (lanes3 a b c) fun s p l => asWord (f p.fenv (word s p a l).toNat (word s p b l).toNat (word s p c l).toNat)

/-! ## Numbers (R60, R61, R64 to R69) -/

/-- The number m times 2^e, and the same with a sign. -/
def mag (m : Nat) (e : Int) : Rat := (m : Rat) * (2 : Rat) ^ e
def signed (neg : Bool) (x : Rat) : Rat := if neg then -x else x
/-- The largest finite value of a format, and its smallest normal one (Table 4-1). -/
def largest (f : Fmt) : Rat := if f.ieee then (2 - (2 : Rat) ^ (-(f.fbits : Int))) * (2 : Rat) ^ (f.bias : Int) else 448
def smallest (f : Fmt) : Rat := (2 : Rat) ^ (1 - (f.bias : Int))
/-- A pattern of a format holds a number with its sign. -/
def Holds (f : Fmt) (r : Nat) (neg : Bool) (x : Rat) : Prop := ∃ m e, f.decode r = .fin neg m e ∧ mag m e = x
/-- An overflow in a mode gives the infinity (Table 4-4). -/
def toInfinity (rm : RoundMode) (neg : Bool) : Bool :=
  match rm with | .rne | .rna => true | .rtz => false | .rdn => neg | .rup => !neg
/-- round_fmt of R65, with FTZ as R69 has it, of a number whose leading bit is 2^t above `x.e`: rounded to the precision of the format
it overflows, or is tiny and is rounded once more from the exact number, or is delivered. The last two give r's conditions. -/
def Delivered (f : Fmt) (rm : RoundMode) (sat ftz : Bool) (x : Exact) (t : Nat) (r : Nat × Conds) : Prop :=
  let q := x.e + t - f.fbits
  let low := 1 - (f.bias : Int) - f.fbits
  let n := x.roundAt rm q
  let tiny := x.roundAt rm low
  (largest f < mag n.1 q →
    r = (if toInfinity rm x.neg = true ∧ sat = false then f.inf x.neg else f.max x.neg, cOverflow ||| cInexact)) ∧
  (mag n.1 q < smallest f →
    (ftz = true → r = (f.zero x.neg, cUnderflow ||| cInexact)) ∧
    (ftz = false → Holds f r.1 x.neg (mag tiny.1 low) ∧ r.2 = if tiny.2 = true then cUnderflow ||| cInexact else 0)) ∧
  (mag n.1 q ≤ largest f → smallest f ≤ mag n.1 q → Holds f r.1 x.neg (mag n.1 q) ∧ r.2 = if n.2 = true then cInexact else 0)
/-- An operation gives the number `x`: an exact zero with its sign, or `x` through round_fmt. -/
def GivesNumber (f : Fmt) (v : FEnv) (x : Rat) (zero : Bool) (r : Nat × Conds) : Prop :=
  (x = 0 → r = (f.zero zero, 0)) ∧
  (x ≠ 0 → ∃ neg m e, m ≠ 0 ∧ x = signed neg (mag m e) ∧ r = roundFmt f v.rm false v.ftz ⟨neg, m, e, false⟩)
/-- The sign of an exact zero sum (R67). -/
def zeroSum (v : FEnv) (na nb : Bool) : Bool := if na = nb then na else v.rm = .rdn
/-- The operand of a lane instruction: a subnormal pattern counts as a zero under FTZ (R69). -/
def taken (f : Fmt) (v : FEnv) (a : Nat) : FVal := f.flush v.ftz (f.decode a)
/-- A NaN's pattern with its quiet bit set (R68), and the condition of operands one of which signals. -/
def quieted (f : Fmt) (a : Nat) : Nat := a ||| 2 ^ (f.fbits - 1)
def signals (f : Fmt) (l : List Nat) : Conds := if l.any (fun a => (f.decode a).isSig) = true then cInvalid else 0
/-- The order of values that are not NaNs, -0 below +0 (R67). -/
def Below (a b : FVal) : Prop :=
  match a, b with
  | .inf na, y => na = true ∧ y ≠ .inf true
  | x, .inf nb => nb = false ∧ x ≠ .inf false
  | .fin na ma ea, .fin nb mb eb =>
    signed na (mag ma ea) < signed nb (mag mb eb) ∨ (ma = 0 ∧ mb = 0 ∧ na = true ∧ nb = false)
  | _, _ => False
/-- A number brackets the root or the inverse that an exact magnitude stands for: `g` of its lower end is at most 1 and of its upper
end above, with 1 at the lower end when it is exact. -/
def Brackets (y : Exact) (g : Rat → Rat) (target : Rat) : Prop :=
  2 ^ 26 ≤ y.m ∧ g (mag y.m y.e) ≤ target ∧ target < g (mag (y.m + 1) y.e) ∧ (y.more = false ↔ g (mag y.m y.e) = target)

/-! ## Compares (R166, R178) -/

/-- A condition combined with the old predicate bit, as CMB says. -/
def combined (m : Cmb) (x old : Bool) : Bool := match m with | .replace => x | .and => x && old | .or => x || old
/-- ICMP with condition `c` tests `f` of v[a] and the B7 operand. -/
def LaneCompares (c : Cond) (f : Word → Word → Bool) : Prop :=
  ∀ (pd ps : PReg) (m : Cmb) (a : VReg) (b : LaneSrc),
    LaneTests (.icmp pd m a b c ps) pd (lanes2 a b)
      fun s p l => combined m (f (word s p a l) (operand s p b l)) ((p.preg ps).getLsbD l)

/-! ## Memory (R186, R187) -/

/-- Every access of an instruction can be performed: its addresses raise nothing, every page is present and permitted (R316,
R321), no access check fails, none is returned for the third time (R325), and its scope is not clamped with a trap. `gos` are the accesses with their places, and `t` is the
state after translation, with the clamp of R113 noted and the earlier loads landed that a replay must not read later (R96, R100, R114;
the model's choice, log entry 128). -/
def Lands (s : State) (p : Ply) (x : Shape) (reqs : List LaneReq) (gos : List LaneGo) (t : State) : Prop :=
  (reqs.findSome? fun r => addrCause x.bytes (x.addrs r)) = none ∧
  ∃ u, placeLanes (viewer s.cur p) x reqs s = (gos.map fun g => Placed.ok g.req g.spots, u) ∧
    firstCheck u (viewer s.cur p).requester x.reach x.bytes (gos.flatMap (·.spots)) = none ∧
    p.stale ≠ 3 ∧ x.scope.any (clampTraps p) = false ∧ 
    let v := match x.scope with | some e => noteClamp u.cur e u | none => u
    t = landEarlier v.cur (accessLines x.reach gos) v
/-- The same for the one access of a uniform instruction at `va`. -/
def LandsAt (s : State) (p : Ply) (x : Shape) (va : DWord) (spot : Spot) (t : State) : Prop :=
  Lands s p x [⟨0, va, 0, [], false⟩] [⟨⟨0, va, 0, [], false⟩, [spot]⟩] t

/-- The tenant whose space the ply's addresses are in. -/
abbrev tenantOf (s : State) (p : Ply) : Option (BitVec 4) := (viewer s.cur p).tenant
/-- n entries of a queue from number `i` on can be reached, at the places `xs`, and `t` is the state after translation: the ring of a
mailbox or of a submission queue is physical, and another is reached as by a lane access of 32 bytes (R233). -/
def EntriesLand (p : Ply) (q : Queue) (need : Need) : Nat → DWord → State → List Nat → State → Prop
  | 0, _, s, xs, t => xs = [] ∧ t = s
  | n + 1, i, s, xs, t => ∃ x ys u, xs = x :: ys ∧ EntriesLand p q need n (i + 1) u ys t ∧
    if q.kind.physical then x = placeOf s.io (q.entryVa i).toNat ∧ u = s
    else ∃ spot, spot.at_ = x ∧ LandsAt s p { need := need, bytes := 32, reach := .atomic } (q.entryVa i) spot u
/-- The acting ply pushes entries to the queue `q` at `x` (R35, R233, R236, R281): a release at package scope, after which the window
takes the entries in order while it has room, and the rest waits and holds the ply. An entry that a parked ply will take needs no
place in the ring. -/
def Pushes (kd : WordKind) (i : Instr) (x : Nat) (q : Queue) (es : List (List DWord)) (s : State) (p : Ply) (u : State) (f : Ply → Ply) :
    Prop :=
  let sent := sentTo u p.uid x
  let first := max sent (parkedOn u x q)
  ∀ xs t, EntriesLand p q .write (sent + es.length - first) (q.tail + BitVec.ofNat 64 first) u xs t →
    let v := release s.cur .package t
    let room := windowRoom v p.uid (dieOfPa x)
    let w := (es.take room).foldl
      (fun y e => windowPush p.uid (dieOfPa x) s.cur p.ident.run (viewer s.cur p) x q.kind e y) v
    (es.length ≤ room → Completes kd i s p w f) ∧
    (room < es.length → Parks kd i s (w.modPly s.cur f) .ready (.push (dieOfPa x) x q.kind (es.drop room)))
/-- The lowest lane with an address that cannot be used raises its cause before anything else of `i`, of its addresses in their order: 0x22
for one that is no multiple of n, and else 0x21 for one with a bit of [63:57] (R186). -/
def AddressRaises (kd : WordKind) (i : Instr) (x : Shape) (reqs : List LaneReq) (s : State) (p : Ply) : Prop :=
  ∀ pre r post, reqs = pre ++ r :: post → (∀ y ∈ pre, ∀ va ∈ x.addrs y, va.toNat % x.bytes = 0 ∧ va.toNat < 2 ^ 57) →
    ∀ before va after, x.addrs r = before ++ va :: after → (∀ y ∈ before, y.toNat % x.bytes = 0) →
      (va.toNat % x.bytes ≠ 0 → Raises kd i s p s .misaligned va 0) ∧
      ((∀ y ∈ va :: after, y.toNat % x.bytes = 0) → (∀ y ∈ before, y.toNat < 2 ^ 57) → 2 ^ 57 ≤ va.toNat →
        Raises kd i s p s .protection va 0)
/-- A lane load completes (R189, R190): with no active lane it does nothing; else, when every access lands and no word that it
reads is in error, it enters a flight, counted, whose pieces hold the words for the rows of v[d]; the rows stay pending. -/
def LoadCompletes (i : Instr) (f : LoadForm) (d a : VReg) (sb : SReg) (scale : Nat) (s : State) (p : Ply) : Prop :=
  let rs := regList d (regCount f.bytes)
  Open s p [(a, p.lanes)] (rs.map fun r => (r, p.lanes)) →
  (p.lanes = [] → Completes {} i s p s id) ∧
  (loadsOut s s.cur p < 63 → (prepareRegs (here s) p p.lanes rs).isSome = true →
    AddressRaises {} i f.shape (laneReqs (here s) p a sb scale []) s p) ∧
  ∀ gos t vals u y p', p.lanes ≠ [] → loadsOut s s.cur p < 63 → (prepareRegs (here s) p p.lanes rs).isSome = true →
    Lands s p f.shape (laneReqs (here s) p a sb scale []) gos t →
    readLanes (coreOf s.cur) (tenantOf s p) f gos t = ((none, vals), u) →
    prepareRegs (u.core (coreOf s.cur)) p p.lanes rs = some (y, p') →
    let ps := fillAll vals (piecesFor p' rs p.lanes)
    let flight := { Flight.issue u s.cur p true with
      rows := pieceRows ps, pieces := ps, waiting := false, load := some (i, gos.map (·.req))
      lines := accessLines f.shape.reach gos }
    Completes {} i s p (takeRows s.cur p' (u.setCore (coreOf s.cur) { y with loads := y.loads ++ [flight] }).bump) id
/-- The registers let a store of v[d] issue: in privileged mode a poisoned data word does not hold it, but an error that nothing has found
is found first (R55, R190, R290). -/
def StoreOpen (s : State) (p : Ply) (a : VReg) (data : List VReg) : Prop :=
  let us := data.map fun r => (r, p.lanes)
  if p.mode = 0 then Open s p ((a, p.lanes) :: us) []
  else anyGiven p ((a, p.lanes) :: us) = false ∧ readStalls (here s) p us = false ∧ errorRead (here s) p us [] = false ∧
    Open s p [(a, p.lanes)] []
/-- A lane store completes (R190, R191): the words of v[d] go to their places in lane order, and it counts as a store. -/
def StoreCompletes (i : Instr) (sh : Shape) (hint : Hint) (d a : VReg) (sb : SReg) (scale : Nat) (s : State) (p : Ply) : Prop :=
  let core := coreOf s.cur
  let rs := regList d (regCount sh.bytes)
  StoreOpen s p a rs →
  (p.lanes = [] → Completes {} i s p s id) ∧ AddressRaises {} i sh (laneReqs (here s) p a sb scale rs) s p ∧
  ∀ gos t, p.lanes ≠ [] → Lands s p sh (laneReqs (here s) p a sb scale rs) gos t →
    Completes {} i s p (modStore core t.seq (fun f => { f with waiting := false })
      (gos.foldl (fun u g => writeOne s.cur t.seq sh.scope
        ⟨g.main.va, g.req.lane, g.main.at_, (wordsBytes g.req.data).take sh.bytes, if g.req.poison then some .memory else none⟩
        (hintL2 hint g.main u)) (enterStore core (Flight.issue t s.cur p true) t))) id
/-- The lanes that are left of a partly performed instruction may be replayed: no row that it reads for them is in error (R55, R187). -/
def Resumes (s : State) (p : Ply) (u : Unfinished) (regs : List VReg) : Prop :=
  let us := regs.map fun r => (r, lanesOf u.mask)
  errorRead (here s) p us [] = false ∧ poisonRead (here s) p us = none
/-- The rest of a load completes, with the addresses of its first issue: its words fill the pieces of its flight (R187). -/
def LoadResumes (i : Instr) (f : LoadForm) (a : VReg) (u : Unfinished) (n : Nat) (s : State) (p : Ply) : Prop :=
  Resumes s p u [a] → ∀ gos t vals v, Lands s p f.shape u.reqs gos t → readLanes (coreOf s.cur) (tenantOf s p) f gos t = ((none, vals), v) →
    Completes {} i s p (v.modCore (coreOf s.cur) fun y => { y with loads := y.loads.map fun x => if x.seq = n then
      { x with pieces := fillAll vals x.pieces, waiting := false, load := some (i, (x.load.map (·.2)).getD [] ++ gos.map (·.req))
               lines := x.lines ++ accessLines f.shape.reach gos } else x }) id
/-- The rest of a store completes, with the addresses and the words of its first issue, in its flight. -/
def StoreResumes (i : Instr) (sh : Shape) (hint : Hint) (d a : VReg) (u : Unfinished) (n : Nat) (s : State) (p : Ply) : Prop :=
  Resumes s p u (a :: if p.mode = 0 then regList d (regCount sh.bytes) else []) → ∀ gos t, Lands s p sh u.reqs gos t →
    Completes {} i s p (modStore (coreOf s.cur) n (fun f => { f with waiting := false })
      (gos.foldl (fun v g => writeOne s.cur n sh.scope
        ⟨g.main.va, g.req.lane, g.main.at_, (wordsBytes g.req.data).take sh.bytes, if g.req.poison then some .memory else none⟩
        (hintL2 hint g.main v)) t)) id
/-- How an atomic of n bytes reaches memory: lane by lane in order, at its scope (R187, R192). -/
def atomicShape (n : Nat) (e : Scope) : Shape := { need := .both, bytes := n, reach := .atomic, inOrder := true, scope := some e }
/-- A lane atomic completes (R192, R195): lane by lane, each performs at its place what `f` asks from its data words, and
the old values wait to land in the rows of v[d], which stay pending. -/
def AtomicCompletes (i : Instr) (n : Nat) (e : Scope) (o : Bool) (ins : Nat) (f : List Word → BusRequest) (d a : VReg)
    (sb : SReg) (s : State) (p : Ply) : Prop :=
  let core := coreOf s.cur
  let data := regList d ins
  let out := regList d (regCount n)
  Open s p ((a, p.lanes) :: data.map fun r => (r, p.lanes)) (out.map fun r => (r, p.lanes)) →
  (p.lanes = [] → Completes { closes := true } i s p s id) ∧
  ((prepareRegs (here s) p p.lanes out).isSome = true →
    AddressRaises { closes := true } i (atomicShape n e) (laneReqs (here s) p a sb 0 data) s p) ∧
  ∀ gos t y p' vals u, p.lanes ≠ [] → (prepareRegs (here s) p p.lanes out).isSome = true →
    Lands s p (atomicShape n e) (laneReqs (here s) p a sb 0 data) gos t →
    prepareRegs (t.core core) p p.lanes out = some (y, p') →
    let t1 := takeRows s.cur p' (t.setCore core y)
    let ps := piecesFor p' out p.lanes
    atomLanes s.cur t1.seq (tenantOf s p) e o n f gos (modStore core t1.seq (fun x => { x with rows := pieceRows ps, pieces := ps })
      (enterStore core (Flight.issue t1 s.cur p true) t1)) = ((none, vals), u) →
    Completes { closes := true } i s p (modStore core t1.seq (fun x => { x with waiting := false }) (landIn s.cur t1.seq vals u)) id
/-- RED or REDQ completes (R194, R196): each lane's contribution goes in lane order as `f` says, and nothing comes back. -/
def ReduceCompletes (i : Instr) (sh : Shape) (d a : VReg) (reqs : List LaneReq)
    (f : Nat → LaneGo → State → Option (Image × Cause) × State) (s : State) (p : Ply) : Prop :=
  let core := coreOf s.cur
  Open s p ((a, p.lanes) :: (regList d (regCount sh.bytes)).map fun r => (r, p.lanes)) [] →
  (p.lanes = [] → Completes { closes := true } i s p s id) ∧
  (p.lanes ≠ [] → AddressRaises { closes := true } i sh reqs s p) ∧
  ∀ gos t u, p.lanes ≠ [] → Lands s p sh reqs gos t →
    redLanes s.cur t.seq (f t.seq) gos (enterStore core (Flight.issue t s.cur p true) t) = (none, u) →
    Completes { closes := true } i s p (modStore core t.seq (fun x => { x with waiting := false }) u) id

/-- What the I/O die finds as it reads n entries of a lease's submission queue from index `i` on (R370, R371): nothing wrong, or the
first entry that fails, with its reason. -/
def EntriesChecked (l : Lease) : Nat → Nat → State → Option (Nat × Nat) → State → Prop
  | 0, _, s, r, t => r = none ∧ t = s
  | n + 1, i, s, r, t =>
    let read := unitRead (ioViewer l.tenant l.aspace.toNat) 2 ((Config.sqBase l.drive l.sqid).toNat + 64 * i) 64 s
    (read.1 = none → r = some (i, 5) ∧ t = read.2) ∧
    ∀ e, read.1 = some e →
      let opcode := leBytes e 0 1
      let first := leBytes e 40 8
      let fails := fun (reason : Nat) => r = some (i, reason) ∧ t = read.2
      if opcode ∉ [0x00, 0x01, 0x02, 0x08] then fails 1
      else if opcode ∈ [0x01, 0x08] ∧ l.wp = false then fails 4
      else if leBytes e 4 4 ≠ l.nsid.toNat then fails 2
      else if first < l.lbase.toNat ∨ l.lbase.toNat + l.lcnt.toNat ≤ first + leBytes e 48 2 then fails 3
      else EntriesChecked l n ((i + 1) % max 1 (Config.sqEntries l.drive l.sqid)) read.2 r t

/-- The state after an arrival at a barrier that makes it `b'`: a release, s[D] takes the phase arrived in, the pod network learns of
it, and the waiters of a phase that has completed go on (R239, R240). -/
def arrivedBar (s : State) (p : Ply) (id : BitVec 4) (e : Scope) (b b' : Barrier) (n : Nat) (d : SReg) : State :=
  let core := coreOf s.cur
  let v := setBar ((release s.cur e s).setPly s.cur { p.setS d (b.ph.setWidth 64) with barMark := .none }) p core id e b'
  settleBar p.ident.run p.ident.team id e (scopeInstance e core) b'.ph
    (if e = .pod && v.io.podOn then
      { v with outbox := v.outbox ++ [.podBarrier p.ident.run id (if b'.ph = b.ph then .arrival n else .complete)] } else v)

end Sys2Proof.Claim
end

