-- ==== Sys2Proof/Certificates/Slice0/Obligations.lean ====
section
/-! DEFINITION. Certificates/Slice0/Obligations.lean: the statements for the provers. -/
open Sys2Proof Sys2Proof.Machine Sys2Proof.Claim

/-! ## Uniform instructions (chapter 08) -/

/-- R137 to R142, Tables 8-2 and 8-3: what the uniform arithmetic, logic, bit and immediate instructions write, as integers: each
completes, and nothing else changes. A quotient or remainder by 0 is not written: it takes 0x16 before itself. The compares write
their condition to q[QD], and the predicate forms combine q[A] and q[B]. -/
def Obligations.UniformArithmetic : Prop :=
  (∀ (d a b : SReg) (g : Guard),
    UniformGives (.uadd d a b g) g d (fun p => BitVec.ofNat 64 ((p.sreg a).toNat + (p.sreg b).toNat)) ∧
    UniformGives (.usub d a b g) g d (fun p => BitVec.ofInt 64 ((p.sreg a).toInt - (p.sreg b).toInt)) ∧
    UniformGives (.umul d a b g) g d (fun p => BitVec.ofNat 64 ((p.sreg a).toNat * (p.sreg b).toNat)) ∧
    UniformGives (.umulhi d a b g) g d (fun p => BitVec.ofInt 64 ((p.sreg a).toInt * (p.sreg b).toInt / 2 ^ 64)) ∧
    UniformGives (.umulhu d a b g) g d (fun p => BitVec.ofNat 64 ((p.sreg a).toNat * (p.sreg b).toNat / 2 ^ 64)) ∧
    UniformGives (.umin d a b g) g d (fun p => BitVec.ofInt 64 (min (p.sreg a).toInt (p.sreg b).toInt)) ∧
    UniformGives (.umax d a b g) g d (fun p => BitVec.ofInt 64 (max (p.sreg a).toInt (p.sreg b).toInt)) ∧
    UniformGives (.uminu d a b g) g d (fun p => BitVec.ofNat 64 (min (p.sreg a).toNat (p.sreg b).toNat)) ∧
    UniformGives (.umaxu d a b g) g d (fun p => BitVec.ofNat 64 (max (p.sreg a).toNat (p.sreg b).toNat)) ∧
    UniformGives (.uand d a b g) g d (fun p => p.sreg a &&& p.sreg b) ∧
    UniformGives (.uor d a b g) g d (fun p => p.sreg a ||| p.sreg b) ∧
    UniformGives (.uxor d a b g) g d (fun p => p.sreg a ^^^ p.sreg b) ∧
    UniformGives (.uandn d a b g) g d (fun p => p.sreg a &&& ~~~p.sreg b) ∧
    UniformGives (.ushl d a b g) g d (fun p => BitVec.ofNat 64 ((p.sreg a).toNat * 2 ^ ((p.sreg b).toNat % 64))) ∧
    UniformGives (.ushr d a b g) g d (fun p => BitVec.ofNat 64 ((p.sreg a).toNat / 2 ^ ((p.sreg b).toNat % 64))) ∧
    UniformGives (.usar d a b g) g d (fun p => BitVec.ofInt 64 ((p.sreg a).toInt / 2 ^ ((p.sreg b).toNat % 64))) ∧
    UniformGives (.upopc d a g) g d (fun p => BitVec.ofNat 64 (((List.range 64).filter (p.sreg a).getLsbD).length)) ∧
    UniformGives (.uclz d a g) g d (fun p => BitVec.ofNat 64 (leadingZeros (p.sreg a))) ∧
    UniformGives (.uctz d a g) g d (fun p => BitVec.ofNat 64 (trailingZeros (p.sreg a))) ∧
    UniformGives (.ubfx d a b g) g d (fun p =>
      BitVec.ofNat 64 ((p.sreg a).toNat / 2 ^ ((p.sreg b).toNat % 64) % 2 ^ min ((p.sreg b).toNat / 256 % 128) 64))) ∧
  (∀ (d a b : SReg) (g : Guard) (s : State) (p : Ply), Acts s p → guardHolds g p = true →
    (p.sreg b ≠ 0 →
      exec (.udivu d a b g) s =
        .next (s.setPly s.cur (past (.udivu d a b g) (p.setS d (BitVec.ofNat 64 ((p.sreg a).toNat / (p.sreg b).toNat))))) ∧
      exec (.uremu d a b g) s =
        .next (s.setPly s.cur (past (.uremu d a b g) (p.setS d (BitVec.ofNat 64 ((p.sreg a).toNat % (p.sreg b).toNat)))))) ∧
    (p.sreg b = 0 →
      Raises {} (.udivu d a b g) s p s .intDivZero 0 0 ∧ Raises {} (.uremu d a b g) s p s .intDivZero 0 0)) ∧
  (∀ (d : SReg) (i : BitVec 15) (n : BitVec 6) (lit : BitVec 32) (g : Guard),
    UniformGives (.uaddi d i g) g d (fun p => BitVec.ofInt 64 ((p.sreg d).toInt + i.toInt)) ∧
    UniformGives (.uandi d i g) g d (fun p => p.sreg d &&& BitVec.ofInt 64 i.toInt) ∧
    UniformGives (.uori d i g) g d (fun p => p.sreg d ||| BitVec.ofInt 64 i.toInt) ∧
    UniformGives (.uxori d i g) g d (fun p => p.sreg d ^^^ BitVec.ofInt 64 i.toInt) ∧
    UniformGives (.ushli d n g) g d (fun p => BitVec.ofNat 64 ((p.sreg d).toNat * 2 ^ n.toNat)) ∧
    UniformGives (.ushri d n g) g d (fun p => BitVec.ofNat 64 ((p.sreg d).toNat / 2 ^ n.toNat)) ∧
    UniformGives (.usari d n g) g d (fun p => BitVec.ofInt 64 ((p.sreg d).toInt / 2 ^ n.toNat)) ∧
    UniformGives (.umovi d i g) g d (fun _ => BitVec.ofInt 64 i.toInt) ∧
    UniformGives (.umuli d i g) g d (fun p => BitVec.ofInt 64 ((p.sreg d).toInt * i.toInt)) ∧
    UniformGives (.ulit d lit g) g d (fun _ => BitVec.ofNat 64 lit.toNat) ∧
    UniformGives (.ulitS d lit g) g d (fun _ => BitVec.ofInt 64 lit.toInt) ∧
    UniformGives (.ulitHi d lit g) g d (fun p => BitVec.ofNat 64 (lit.toNat * 2 ^ 32 + (p.sreg d).toNat % 2 ^ 32))) ∧
  (∀ (q qa qb : QReg) (a b : SReg) (i : BitVec 9) (g : Guard),
    (∀ c : Cond, encode (.ucmp c q a b g) = [uWord 0x0D (c.bits ++ q) a b 0 g] ∧ encode (.ucmpi c q a i g) = [ucmpiWord 0x0E c q a i g]) ∧
    UniformTests (.ucmp .eq q a b g) g q (fun p => decide (p.sreg a = p.sreg b)) ∧
    UniformTests (.ucmp .ne q a b g) g q (fun p => decide (p.sreg a ≠ p.sreg b)) ∧
    UniformTests (.ucmp .lt q a b g) g q (fun p => decide ((p.sreg a).toInt < (p.sreg b).toInt)) ∧
    UniformTests (.ucmp .le q a b g) g q (fun p => decide ((p.sreg a).toInt ≤ (p.sreg b).toInt)) ∧
    UniformTests (.ucmp .gt q a b g) g q (fun p => decide ((p.sreg a).toInt > (p.sreg b).toInt)) ∧
    UniformTests (.ucmp .ge q a b g) g q (fun p => decide ((p.sreg a).toInt ≥ (p.sreg b).toInt)) ∧
    UniformTests (.ucmp .ltu q a b g) g q (fun p => decide ((p.sreg a).toNat < (p.sreg b).toNat)) ∧
    UniformTests (.ucmp .geu q a b g) g q (fun p => decide ((p.sreg a).toNat ≥ (p.sreg b).toNat)) ∧
    UniformTests (.ucmpi .eq q a i g) g q (fun p => decide ((p.sreg a).toInt = i.toInt)) ∧
    UniformTests (.ucmpi .ne q a i g) g q (fun p => decide ((p.sreg a).toInt ≠ i.toInt)) ∧
    UniformTests (.ucmpi .lt q a i g) g q (fun p => decide ((p.sreg a).toInt < i.toInt)) ∧
    UniformTests (.ucmpi .le q a i g) g q (fun p => decide ((p.sreg a).toInt ≤ i.toInt)) ∧
    UniformTests (.ucmpi .gt q a i g) g q (fun p => decide ((p.sreg a).toInt > i.toInt)) ∧
    UniformTests (.ucmpi .ge q a i g) g q (fun p => decide ((p.sreg a).toInt ≥ i.toInt)) ∧
    UniformTests (.ucmpi .ltu q a i g) g q (fun p => decide ((p.sreg a).toNat < (BitVec.ofInt 64 i.toInt).toNat)) ∧
    UniformTests (.ucmpi .geu q a i g) g q (fun p => decide ((p.sreg a).toNat ≥ (BitVec.ofInt 64 i.toInt).toNat)) ∧
    UniformTests (.qand q qa qb g) g q (fun p => p.qreg qa && p.qreg qb) ∧
    UniformTests (.qor q qa qb g) g q (fun p => p.qreg qa || p.qreg qb) ∧
    UniformTests (.qxor q qa qb g) g q (fun p => p.qreg qa ^^ p.qreg qb) ∧
    UniformTests (.qandn q qa qb g) g q (fun p => p.qreg qa && !p.qreg qb))

/-- R137, R164: what a count of zeros is: it is the width exactly for 0, and below it the bit that follows the zeros is set
and every bit among them is clear. -/
def Obligations.ZeroCounts : Prop :=
  ∀ (w : Nat) (x : BitVec w),
    (leadingZeros x ≤ w ∧ trailingZeros x ≤ w ∧ (leadingZeros x = w ↔ x = 0) ∧ (trailingZeros x = w ↔ x = 0)) ∧
    (leadingZeros x < w → x.getLsbD (w - 1 - leadingZeros x) = true) ∧ (∀ j, w - leadingZeros x ≤ j → x.getLsbD j = false) ∧
    (trailingZeros x < w → x.getLsbD (trailingZeros x) = true) ∧ (∀ j, j < trailingZeros x → x.getLsbD j = false)

/-- R148, Table 8-7: the EM family and the transfers between the files. The EM that a lane word can give reaches lanes 0 to 31
(log entry 24). EMWR and EMANDP under open divergence take 0x0A before themselves (R12). -/
def Obligations.EmFamily : Prop :=
  ∀ (d : SReg) (a : VReg) (pa : PReg) (v : VReg) (r : SReg) (g : Guard),
    UniformGives (.emrd d g) g d (fun p => p.a.em) ∧
    UniformGives (.vote d pa g) g d (fun p => p.a.em &&& p.preg pa) ∧
    UniformGives (.empop d g) g d (fun p => BitVec.ofNat 64 p.lanes.length) ∧
    ∀ s p, Acts s p → guardHolds g p = true →
      (p.diverged = true → Raises {} (.emwr a g) s p s .emDiverged 0 0 ∧ Raises {} (.emandp pa g) s p s .emDiverged 0 0) ∧
      (p.diverged = false →
        exec (.emandp pa g) s = .next (s.setPly s.cur (past (.emandp pa g) (p.setEm (p.a.em &&& p.preg pa))))) ∧
      (∀ l, lowestLane p.a.em = some l → p.diverged = false → Open s p [(a, [l])] [] →
        exec (.emwr a g) s = .next (s.setPly s.cur (past (.emwr a g) (p.setEm ((word s p a l).setWidth 64))))) ∧
      (p.a.em = 0 → p.diverged = false → exec (.emwr a g) s = .next (s.setPly s.cur (past (.emwr a g) (p.setEm 0)))) ∧
      (∀ l, lowestLane p.a.em = some l → Open s p [(a, [l])] [] →
        exec (.v2s d a g) s = .next (s.setPly s.cur (past (.v2s d a g) (p.setS d ((word s p a l).setWidth 64))))) ∧
      (∀ l, lowestLane p.a.em = some l → Open s p [(nthReg a 0, [l]), (nthReg a 1, [l])] [] →
        exec (.v2s64 d a g) s =
          .next (s.setPly s.cur (past (.v2s64 d a g) (p.setS d (word s p (nthReg a 1) l ++ word s p a l))))) ∧
      (p.a.em = 0 → exec (.v2s d a g) s = .next (s.setPly s.cur (past (.v2s d a g) (p.setS d 0))) ∧
        exec (.v2s64 d a g) s = .next (s.setPly s.cur (past (.v2s64 d a g) (p.setS d 0)))) ∧
      (∀ c' p', Open s p [] [(v, p.lanes)] →
        writeReg (here s) p v (p.lanes.map fun l => ⟨l, (p.sreg r).setWidth 32, false⟩) = some (c', p') →
        exec (.s2v v r g) s = .next ((s.setCore (coreOf s.cur) c').setPly s.cur (past (.s2v v r g) p')))

/-- R149: REDU combines the active lanes' words over s[D] as a number: the sum of the signed words, the least and the greatest
with R29's identities, and the bitwise forms. With EM 0 it writes the identity, whatever the register holds. -/
def Obligations.Reductions : Prop :=
  ∀ (d : SReg) (a : VReg) (f : ReduOp) (g : Guard) (s : State) (p : Ply), Acts s p → guardHolds g p = true →
    p.lanes = [] ∨ Open s p [(a, p.lanes)] [] →
    let ws := p.lanes.map (word s p a)
    let fold := match f with
      | .add => BitVec.ofInt 64 (ws.map BitVec.toInt).sum
      | .min => BitVec.ofInt 64 ((ws.map BitVec.toInt).foldl min (2 ^ 31 - 1))
      | .max => BitVec.ofInt 64 ((ws.map BitVec.toInt).foldl max (-2 ^ 31))
      | .minu => BitVec.ofNat 64 ((ws.map BitVec.toNat).foldl min (2 ^ 32 - 1))
      | .maxu => BitVec.ofNat 64 ((ws.map BitVec.toNat).foldl max 0)
      | .and => (ws.foldl (· &&& ·) 0xFFFFFFFF#32).setWidth 64
      | .or => (ws.foldl (· ||| ·) 0#32).setWidth 64
      | .xor => (ws.foldl (· ^^^ ·) 0#32).setWidth 64
    encode (.redu d a f g) = [uWord 0x17 d a 0 f.bits g] ∧
    exec (.redu d a f g) s = .next (s.setPly s.cur (past (.redu d a f g) (p.setS d fold)))

/-! ## Branches and divergence (chapters 02 and 08) -/

/-- R116, R143, R144: BRA and CALL go to PC + 4 * OFF21, whatever the address; BRX, CALLX and RET go to s[A], and with bits
[1:0] nonzero take 0x22, else with a bit of [63:57] set 0x21, before themselves. CALL and CALLX leave PC + 4 in s63, and CALLX
reads s[A] first. EM, the knuckle stack and the pins stay. -/
def Obligations.BranchesAndCalls : Prop :=
  ∀ (o : BitVec 21) (a : SReg) (g : Guard) (s : State) (p : Ply), Acts s p → guardHolds g p = true →
    let linked := p.setS 63 ((p.a.pc + 4).setWidth 64)
    let v := p.sreg a
    encode (.bra o g) = [ubWord 0x10 o g.bits] ∧ encode (.call o g) = [ubWord 0x11 o g.bits] ∧
    Goes (.bra o g) s p (offsetPc p o) ∧ Goes (.call o g) s linked (offsetPc p o) ∧
    (v.toNat % 4 = 0 → v.toNat < 2 ^ 57 →
      Goes (.brx a g) s p (BitVec.ofNat 57 v.toNat) ∧ Goes (.ret a g) s p (BitVec.ofNat 57 v.toNat) ∧
      Goes (.callx a g) s linked (BitVec.ofNat 57 v.toNat)) ∧
    (v.toNat % 4 ≠ 0 →
      Raises unfed (.brx a g) s p s .misaligned v 0 ∧ Raises unfed (.ret a g) s p s .misaligned v 0 ∧
      Raises unfed (.callx a g) s p s .misaligned v 0) ∧
    (v.toNat % 4 = 0 → 2 ^ 57 ≤ v.toNat →
      Raises unfed (.brx a g) s p s .protection v 0 ∧ Raises unfed (.ret a g) s p s .protection v 0 ∧
      Raises unfed (.callx a g) s p s .protection v 0)

/-- R27, R145 to R147: BRV sends the lanes of EM whose predicate bit is set (clear, with N) to its target. With lanes both ways it
pushes the others with PC + 4, or takes 0x44 before itself on a full stack; with lanes one way only it pushes nothing. KPIN opens
its pin with EM, the join, no arrivals and the depth of the stack. KMEET takes 0x44 before itself on a pin that is not valid or is
marked outer, or at a final arrival whose lanes differ from the pin's; above the pin's depth it adds EM to the arrivals and goes on
with the path on the top of the stack; at a final arrival of every lane it restores the pin's EM, closes the pin, hashes the
reconvergence and goes to the join. -/
def Obligations.Divergence : Prop :=
  (∀ (o : BitVec 21) (n : Bool) (pr : PReg) (s : State) (p : Ply), Acts s p →
    let t := if n then p.a.em &&& ~~~p.preg pr else p.a.em &&& p.preg pr
    let f := if n then p.a.em &&& p.preg pr else p.a.em &&& ~~~p.preg pr
    (t ||| f = p.a.em ∧ t &&& f = 0) ∧
    (t ≠ 0 → f ≠ 0 → p.a.knuckles.length < 16 →
      Goes (.brv o n pr) s { p with a := { p.a with em := t, knuckles := ⟨f, p.a.pc + 4⟩ :: p.a.knuckles } } (offsetPc p o)) ∧
    (t ≠ 0 → f ≠ 0 → 16 ≤ p.a.knuckles.length → Raises unfed (.brv o n pr) s p s .reconverge 0 0) ∧
    (t ≠ 0 → f = 0 → Goes (.brv o n pr) s p (offsetPc p o)) ∧
    (t = 0 → Goes (.brv o n pr) s p (p.a.pc + 4))) ∧
  (∀ (k : KReg) (o : BitVec 18) (g : Guard) (s : State) (p : Ply), Acts s p → guardHolds g p = true →
    exec (.kpin k o g) s = .next (s.setPly s.cur (past (.kpin k o g)
      (p.setPin k ⟨true, false, p.a.em, offsetPc p o, 0, BitVec.ofNat 5 p.a.knuckles.length⟩)))) ∧
  (∀ (k : KReg) (g : Guard) (s : State) (p : Ply), Acts s p → guardHolds g p = true →
    let x := p.pin k
    let am := x.am ||| p.a.em
    (x.valid = false ∨ x.outer = true → Raises unfed (.kmeet k g) s p s .reconverge 0 0) ∧
    (x.valid = true → x.outer = false →
      (∀ top rest, p.a.knuckles = top :: rest → x.sd.toNat < p.a.knuckles.length →
        Goes (.kmeet k g) s ({ p with a := { p.a with em := top.mask, knuckles := rest } }.setPin k { x with am := am }) top.pc) ∧
      (p.a.knuckles.length ≤ x.sd.toNat → am ≠ x.rm → Raises unfed (.kmeet k g) s p s .reconverge 0 0) ∧
      (p.a.knuckles.length ≤ x.sd.toNat → am = x.rm →
        Goes (.kmeet k g) s
          (({ p with a := { p.a with em := x.rm } }.setPin k { x with am := am, valid := false }).maskHash k x.rm) x.jp)))

/-! ## Lane integer instructions (chapter 09) -/

/-- R163, R165, Table 9-2: what the lane integer arithmetic writes in each active lane, as integers: wrapping, high halves, least and
greatest, saturating, and the absolute difference; and the immediate forms, with I13 sign-extended. -/
def Obligations.LaneArithmetic : Prop :=
  (∀ (d a : VReg) (b : LaneSrc) (h : Hold),
    let clamp := fun (i lo hi : Int) => if i < lo then lo else if hi < i then hi else i
    LaneFrom2 (.iadd d a b h) d a b (fun x y => BitVec.ofInt 32 (x.toInt + y.toInt)) ∧
    LaneFrom2 (.isub d a b h) d a b (fun x y => BitVec.ofInt 32 (x.toInt - y.toInt)) ∧
    LaneFrom2 (.imul d a b h) d a b (fun x y => BitVec.ofInt 32 (x.toInt * y.toInt)) ∧
    LaneFrom2 (.imulhi d a b h) d a b (fun x y => BitVec.ofInt 32 (x.toInt * y.toInt / 2 ^ 32)) ∧
    LaneFrom2 (.imulhu d a b h) d a b (fun x y => BitVec.ofNat 32 (x.toNat * y.toNat / 2 ^ 32)) ∧
    LaneFrom2 (.imin d a b h) d a b (fun x y => BitVec.ofInt 32 (min x.toInt y.toInt)) ∧
    LaneFrom2 (.imax d a b h) d a b (fun x y => BitVec.ofInt 32 (max x.toInt y.toInt)) ∧
    LaneFrom2 (.iminu d a b h) d a b (fun x y => BitVec.ofNat 32 (min x.toNat y.toNat)) ∧
    LaneFrom2 (.imaxu d a b h) d a b (fun x y => BitVec.ofNat 32 (max x.toNat y.toNat)) ∧
    LaneFrom2 (.iaddsat d a b h) d a b (fun x y => BitVec.ofInt 32 (clamp (x.toInt + y.toInt) (-2 ^ 31) (2 ^ 31 - 1))) ∧
    LaneFrom2 (.isubsat d a b h) d a b (fun x y => BitVec.ofInt 32 (clamp (x.toInt - y.toInt) (-2 ^ 31) (2 ^ 31 - 1))) ∧
    LaneFrom2 (.iaddusat d a b h) d a b (fun x y => BitVec.ofNat 32 (min (x.toNat + y.toNat) (2 ^ 32 - 1))) ∧
    LaneFrom2 (.isubusat d a b h) d a b (fun x y => BitVec.ofNat 32 (x.toNat - y.toNat)) ∧
    LaneFrom2 (.iabsd d a b h) d a b (fun x y => BitVec.ofNat 32 (x.toInt - y.toInt).natAbs)) ∧
  (∀ (d a : VReg) (i : BitVec 13) (n : BitVec 5),
    LaneFrom1 (.iaddi d a i) d a (fun x => BitVec.ofInt 32 (x.toInt + i.toInt)) ∧
    LaneFrom1 (.imuli d a i) d a (fun x => BitVec.ofInt 32 (x.toInt * i.toInt)) ∧
    LaneFrom1 (.andi d a i) d a (fun x => x &&& BitVec.ofInt 32 i.toInt) ∧
    LaneFrom1 (.ori d a i) d a (fun x => x ||| BitVec.ofInt 32 i.toInt) ∧
    LaneFrom1 (.xori d a i) d a (fun x => x ^^^ BitVec.ofInt 32 i.toInt) ∧
    LaneFrom1 (.shli d a n) d a (fun x => BitVec.ofNat 32 (x.toNat * 2 ^ n.toNat)) ∧
    LaneFrom1 (.shri d a n) d a (fun x => BitVec.ofNat 32 (x.toNat / 2 ^ n.toNat)) ∧
    LaneFrom1 (.sari d a n) d a (fun x => BitVec.ofInt 32 (x.toInt / 2 ^ n.toNat)) ∧
    LaneGives (.movi d i) d (fun _ => []) (fun _ _ _ => BitVec.ofInt 32 i.toInt))

/-- R164, R167: the lane logic, shifts, rotations, counts and bit fields. A field is `len` bits from `pos` up, both read from the
control word, and BFI keeps every bit outside it. -/
def Obligations.LaneLogic : Prop :=
  ∀ (d a c r : VReg) (b : LaneSrc) (h : Hold),
    let pos := fun (y : Word) => y.toNat % 32
    let len := fun (y : Word) => min (y.toNat / 256 % 64) 32
    LaneFrom2 (.andB d a b h) d a b (fun x y => x &&& y) ∧ LaneFrom2 (.orB d a b h) d a b (fun x y => x ||| y) ∧
    LaneFrom2 (.xorB d a b h) d a b (fun x y => x ^^^ y) ∧ LaneFrom2 (.andn d a b h) d a b (fun x y => x &&& ~~~y) ∧
    LaneFrom2 (.orn d a b h) d a b (fun x y => x ||| ~~~y) ∧ LaneFrom2 (.xnor d a b h) d a b (fun x y => ~~~(x ^^^ y)) ∧
    LaneFrom2 (.shl d a b h) d a b (fun x y => BitVec.ofNat 32 (x.toNat * 2 ^ pos y)) ∧
    LaneFrom2 (.shr d a b h) d a b (fun x y => BitVec.ofNat 32 (x.toNat / 2 ^ pos y)) ∧
    LaneFrom2 (.sar d a b h) d a b (fun x y => BitVec.ofInt 32 (x.toInt / 2 ^ pos y)) ∧
    LaneFrom2 (.rotl d a b h) d a b (fun x y => x.rotateLeft (pos y)) ∧
    LaneFrom2 (.rotr d a b h) d a b (fun x y => x.rotateRight (pos y)) ∧
    LaneFrom1 (.popc d a h) d a (fun x => BitVec.ofNat 32 (((List.range 32).filter x.getLsbD).length)) ∧
    LaneFrom1 (.clz d a h) d a (fun x => BitVec.ofNat 32 (leadingZeros x)) ∧ LaneFrom1 (.brev d a h) d a BitVec.reverse ∧
    LaneFrom2 (.bfx d a b h) d a b (fun x y => BitVec.ofNat 32 (x.toNat / 2 ^ pos y % 2 ^ len y)) ∧
    LaneFrom2 (.bfxs d a b h) d a b (fun x y => BitVec.ofInt 32
      (let f := x.toNat / 2 ^ pos y % 2 ^ len y
       if len y ≠ 0 ∧ 2 ^ (len y - 1) ≤ f then (f : Int) - 2 ^ len y else f)) ∧
    LaneFrom3 (.bfi d a c r) d a c r insertField ∧
    ∀ (x y z : Word) (i : Nat), i < 32 →
      (insertField x y z).getLsbD i = if pos z ≤ i ∧ i < pos z + len z then x.getLsbD (i - pos z) else y.getLsbD i

/-- R166, R168: compares, selection, moves and predicate logic. ICMP combines its condition with p[PS] as CMB says. -/
def Obligations.LanePredicates : Prop :=
  LaneCompares .eq (fun x y => decide (x = y)) ∧ LaneCompares .ne (fun x y => decide (x ≠ y)) ∧
  LaneCompares .lt (fun x y => decide (x.toInt < y.toInt)) ∧ LaneCompares .le (fun x y => decide (x.toInt ≤ y.toInt)) ∧
  LaneCompares .gt (fun x y => decide (x.toInt > y.toInt)) ∧ LaneCompares .ge (fun x y => decide (x.toInt ≥ y.toInt)) ∧
  LaneCompares .ltu (fun x y => decide (x.toNat < y.toNat)) ∧ LaneCompares .geu (fun x y => decide (x.toNat ≥ y.toNat)) ∧
  ∀ (d a c : VReg) (pd pa pb : PReg) (h : Hold),
    LaneGives (.sel d a c pa) d (fun ls => [(a, ls), (c, ls)])
      (fun s p l => if (p.preg pa).getLsbD l then word s p a l else word s p c l) ∧
    LaneFrom1 (.mov d a h) d a (fun x => x) ∧
    LaneGives (.ptov d pa h) d (fun _ => []) (fun _ p l => if (p.preg pa).getLsbD l then 1 else 0) ∧
    LaneTests (.vtop pd a h) pd (lanes1 a) (fun s p l => decide (word s p a l ≠ 0)) ∧
    ∀ s p, Acts s p →
      exec (.pand pd pa pb) s = .next (s.setPly s.cur (past (.pand pd pa pb) (p.setP pd p.a.em (p.preg pa &&& p.preg pb)))) ∧
      exec (.por pd pa pb) s = .next (s.setPly s.cur (past (.por pd pa pb) (p.setP pd p.a.em (p.preg pa ||| p.preg pb)))) ∧
      exec (.pxor pd pa pb) s = .next (s.setPly s.cur (past (.pxor pd pa pb) (p.setP pd p.a.em (p.preg pa ^^^ p.preg pb)))) ∧
      exec (.pandn pd pa pb) s = .next (s.setPly s.cur (past (.pandn pd pa pb) (p.setP pd p.a.em (p.preg pa &&& ~~~p.preg pb))))

/-- R169 to R171: the exchanges read v[A] of a source lane, active or not, that stays within the ply's width; ISCAN adds the
active lanes up to each; LSR gives the lane's number, its home lane, and the numbers of its octet and of its 16 lanes. -/
def Obligations.CrossLane : Prop :=
  ∀ (d a : VReg) (b : LaneSrc) (h : Hold),
    let from_ := fun (i : Instr) (j : Nat → Nat → Nat → Nat) =>
      ∀ s p c' p', Acts s p →
        let src := fun l => j l (operand s p b l).toNat p.width
        Open s p (srcUse b p.lanes ++ [(a, p.lanes.map src)]) [(d, p.lanes)] →
        writeReg (here s) p d (p.lanes.map fun l => ⟨l, word s p a (src l), false⟩) = some (c', p') →
        exec i s = .next ((s.setCore (coreOf s.cur) c').setPly s.cur (past i p'))
    from_ (.shfl d a b h) (fun _ y w => y % w) ∧
    from_ (.shflx d a b h) (fun l y w => l ^^^ (y % w)) ∧
    from_ (.shflup d a b h) (fun l y _ => if y ≤ l then l - y else l) ∧
    from_ (.shfldn d a b h) (fun l y w => if l + y < w then l + y else l) ∧
    LaneGives (.iscan d a h) d (fun ls => [(a, ls)])
      (fun s p l => ((p.lanes.filter (· ≤ l)).map (word s p a)).foldl (· + ·) 0) ∧
    LaneGives (.lsr d 0) d (fun _ => []) (fun _ _ l => BitVec.ofNat 32 l) ∧
    LaneGives (.lsr d 1) d (fun _ => []) (fun s p l => BitVec.ofNat 32 (homeLane s.cur p.width + l)) ∧
    LaneGives (.lsr d 2) d (fun _ => []) (fun s p l => BitVec.ofNat 32 ((homeLane s.cur p.width + l) / 8)) ∧
    LaneGives (.lsr d 3) d (fun _ => []) (fun s p l => BitVec.ofNat 32 ((homeLane s.cur p.width + l) / 16))

/-! ## Lane floating point (chapters 04 and 10) -/

/-- Table 4-3: rounding m to a multiple of d = 2^q gives the multiple that the mode names: RNE the nearest and an even one at a
tie, RNA the nearest and the greater one at a tie, RTZ the one not above m, RDN and RUP the one not above or not below it by the
sign; it says inexact exactly when the two differ. -/
def Obligations.RoundingModes : Prop :=
  ∀ (neg : Bool) (m : Nat) (e q : Int), e < q →
    let d := pow2 (q - e)
    let r := fun rm => (⟨neg, m, e, false⟩ : Exact).roundAt rm q
    (∀ rm, ((r rm).2 = true ↔ (r rm).1 * d ≠ m) ∧ (r rm).1 * d < m + d ∧ m < (r rm).1 * d + d) ∧
    (2 * ((r .rne).1 * d) ≤ 2 * m + d ∧ 2 * m ≤ 2 * ((r .rne).1 * d) + d ∧
      (2 * ((r .rne).1 * d) = 2 * m + d ∨ 2 * m = 2 * ((r .rne).1 * d) + d → (r .rne).1 % 2 = 0)) ∧
    (2 * ((r .rna).1 * d) ≤ 2 * m + d ∧ 2 * m < 2 * ((r .rna).1 * d) + d) ∧
    (r .rtz).1 * d ≤ m ∧
    (if neg then m ≤ (r .rdn).1 * d ∧ (r .rup).1 * d ≤ m else (r .rdn).1 * d ≤ m ∧ m ≤ (r .rup).1 * d)

/-- R60, R61, R64 to R69, R173, R176, Tables 4-1, 4-2 and 4-4: what the operations of the floating-point instructions compute. Every
pattern is of one class and has its value; round_fmt delivers a number as R65 says. The sum, difference, product and fused sums of
numbers are the exact ones, delivered; a zero sum has the sign of R67; the first NaN of the operands is the result, quieted, and a
signalling one raises invalid; what an infinity gives; and an invalid operation gives the canonical NaN. FMIN and its kin give one of
their operands. -/
def Obligations.FloatValues : Prop :=
  let formats := [fp32, fp16, bf16, e5m2, e4m3]
  (∀ x ∈ [(fp32, 0x7F7FFFFF, 0x7FC00000), (fp16, 0x7BFF, 0x7E00), (bf16, 0x7F7F, 0x7FC0), (e5m2, 0x7B, 0x7E), (e4m3, 0x7E, 0x7F)],
    x.1.max false = x.2.1 ∧ x.1.canonical = x.2.2) ∧
  (∀ f ∈ formats, ∀ (s : Bool) (e m : Nat), e < 2 ^ f.ebits → m < 2 ^ f.fbits →
    let v := f.decode ((if s then 2 ^ (f.ebits + f.fbits) else 0) + e * 2 ^ f.fbits + m)
    let top := 2 ^ f.ebits - 1
    (e = 0 → v = .fin s m (1 - f.bias - f.fbits)) ∧
    (e ≠ 0 → (e ≠ top ∨ (f = e4m3 ∧ m ≠ 7)) → v = .fin s (2 ^ f.fbits + m) ((e : Int) - f.bias - f.fbits)) ∧
    (e = top → f ≠ e4m3 → (m = 0 → v = .inf s) ∧ (m ≠ 0 → v.isNan = true ∧ v.isSig = decide (m < 2 ^ (f.fbits - 1)))) ∧
    (e = top → f = e4m3 → m = 7 → v.isNan = true ∧ v.isSig = false)) ∧
  (∀ f ∈ formats, ∀ (rm : RoundMode) (sat ftz : Bool) (x : Exact) (t : Nat), 2 ^ t ≤ x.m → x.m < 2 ^ (t + 1) →
    (x.more = true → f.fbits < t) → Delivered f rm sat ftz x t (roundFmt f rm sat ftz x)) ∧
  (∀ f ∈ [fp32, bf16], ∀ (v : FEnv) (a b c : Nat) (op : Bool), a < 2 ^ (f.ebits + f.fbits + 1) → b < 2 ^ (f.ebits + f.fbits + 1) →
    c < 2 ^ (f.ebits + f.fbits + 1) →
    let x := taken f v a
    let y := taken f v b
    let z := taken f v c
    let sum := fun (o : Bool) => if o = true then fSub f v a b else fAdd f v a b
    let invalid := (f.canonical, cInvalid)
    (∀ na ma ea nb mb eb, x = .fin na ma ea → y = .fin nb mb eb →
      let product := signed (na != nb) (mag ma ea * mag mb eb)
      GivesNumber f v (signed na (mag ma ea) + signed (nb != op) (mag mb eb)) (zeroSum v na (nb != op)) (sum op) ∧
      GivesNumber f v product (na != nb) (fMul f v a b) ∧
      (∀ nc mc ec, z = .fin nc mc ec →
        GivesNumber f v (product + signed (nc != op) (mag mc ec)) (zeroSum v (na != nb) (nc != op)) (fFma f v op a b c)) ∧
      (∀ nc, z = .inf nc → fFma f v op a b c = (f.inf (nc != op), 0))) ∧
    (∀ na, x = .inf na →
      (∀ nb m e, y = .fin nb m e → sum op = (f.inf na, 0) ∧
        (m = 0 → fMul f v a b = invalid ∧ (z.isNan = false → fFma f v op a b c = invalid) ∧
          (z.isNan = true → fFma f v op a b c = (quieted f c, cInvalid))) ∧
        (m ≠ 0 → fMul f v a b = (f.inf (na != nb), 0))) ∧
      (∀ nb, y = .inf nb → fMul f v a b = (f.inf (na != nb), 0) ∧
        sum op = if na = (nb != op) then (f.inf na, 0) else invalid)) ∧
    (∀ na m e nb, x = .fin na m e → y = .inf nb → sum op = (f.inf (nb != op), 0) ∧
      (m = 0 → fMul f v a b = invalid) ∧ (m ≠ 0 → fMul f v a b = (f.inf (na != nb), 0))) ∧
    (∀ n, x.isNan = false → y.isNan = false → mulVal x y = some (.inf n) → (∀ nc m e, z = .fin nc m e → fFma f v op a b c = (f.inf n, 0)) ∧
      ∀ nc, z = .inf nc → fFma f v op a b c = if n = (nc != op) then (f.inf n, 0) else invalid) ∧
    (x.isNan = true → sum op = (quieted f a, signals f [a, b]) ∧ fMul f v a b = (quieted f a, signals f [a, b]) ∧
      fFma f v op a b c = (quieted f a, signals f [a, b, c])) ∧
    (x.isNan = false → y.isNan = true → sum op = (quieted f b, signals f [a, b]) ∧ fMul f v a b = (quieted f b, signals f [a, b]) ∧
      fFma f v op a b c = (quieted f b, signals f [a, b, c])) ∧
    (x.isNan = false → y.isNan = false → z.isNan = true → mulVal x y ≠ none → fFma f v op a b c = (quieted f c, signals f [c])) ∧
    let kept := fun (n : Nat) => match taken f v n with | .fin neg 0 _ => f.zero neg | _ => n
    (x.isNan = false → y.isNan = false → ∀ number,
      (Below y x → fMinMax f v false number a b = (kept b, 0) ∧ fMinMax f v true number a b = (kept a, 0)) ∧
      (¬Below y x → fMinMax f v false number a b = (kept a, 0) ∧ fMinMax f v true number a b = (kept b, 0))) ∧
    (x.isNan = true → y.isNan = false → fMinMax f v op true a b = (kept b, signals f [a, b])) ∧
    (x.isNan = false → y.isNan = true → fMinMax f v op true a b = (kept a, signals f [a, b]) ∧
      fMinMax f v op false a b = (quieted f b, signals f [a, b])) ∧
    (x.isNan = true → fMinMax f v op false a b = (quieted f a, signals f [a, b]) ∧
      (y.isNan = true → fMinMax f v op true a b = (quieted f a, signals f [a, b]))))

/-- R172 to R177: the lane floating-point instructions complete with the results of their operations in each active lane, under
the rounding mode and FTZ of FPMODE, and FPFLAGS collects what they raise; an enabled condition traps instead (R70). The
packed forms work on each half. Their unary functions take the special operands as Table 10-3 gives them; the inverse, the root
and the inverse root are rounded from numbers that bracket the true ones; a power of two and its logarithm are exact; FFLOOR and its
kin round to an integral value, FCLASS gives the class of the stored bits, and FSCALE scales by 2^n. -/
def Obligations.LaneFloat : Prop :=
  (∀ (v : FEnv) (a : Nat), a < 2 ^ 32 →
    let x := taken fp32 v a
    let is := fun (u : Unary) (r : Nat) (c : Conds) => fUnary u v a = (r, c)
    let nan := 0x7FC00000
    (x = .inf true → is .rcp 0x80000000 0 ∧ is .sqrt nan cInvalid ∧ is .rsq nan cInvalid ∧ is .exp2 0 0 ∧ is .log2 nan cInvalid) ∧
    (x = .inf false → is .rcp 0 0 ∧ is .sqrt 0x7F800000 0 ∧ is .rsq 0 0 ∧ is .exp2 0x7F800000 0 ∧ is .log2 0x7F800000 0) ∧
    (∀ n e, x = .fin n 0 e → is .rcp (fp32.inf n) cDivZero ∧ is .sqrt (fp32.zero n) 0 ∧ is .rsq (fp32.inf n) cDivZero ∧
      is .exp2 0x3F800000 0 ∧ is .log2 0xFF800000 cDivZero) ∧
    (x.isNan = true → ∀ u, is u (quieted fp32 a) (signals fp32 [a])) ∧
    ∀ n m e, x = .fin n m e → m ≠ 0 →
      let given := fun (u : Unary) (neg : Bool) (g : Rat → Rat) (target : Rat) =>
        ∃ y : Exact, y.neg = neg ∧ Brackets y g target ∧ fUnary u v a = roundFmt fp32 v.rm false v.ftz y
      let p := mag m e
      given .rcp n (fun y => y * p) 1 ∧
      (n = true → is .sqrt nan cInvalid ∧ is .rsq nan cInvalid ∧ is .log2 nan cInvalid) ∧
      (n = false → given .sqrt false (fun y => y * y) p ∧ given .rsq false (fun y => y * y * p) 1 ∧
        ∀ k : Int, p = (2 : Rat) ^ k → (k = 0 → is .log2 0 0) ∧
          (k ≠ 0 → Holds fp32 (fUnary .log2 v a).1 (decide (k < 0)) (k.natAbs : Rat) ∧ (fUnary .log2 v a).2 = 0)) ∧
      ∀ k : Nat, p = (k : Rat) → k < 256 →
        fUnary .exp2 v a = roundFmt fp32 v.rm false v.ftz ⟨false, 1, if n then -(k : Int) else k, false⟩) ∧
  (∀ (v : FEnv) (rm : RoundMode) (loud : Bool) (a : Nat), a < 2 ^ 32 →
    let x := taken fp32 v a
    let r := fIntegral rm v.ftz loud a
    (∀ n m e, x = .fin n m e → let k := (⟨n, m, e, false⟩ : Exact).roundAt rm 0
      Holds fp32 r.1 n (k.1 : Rat) ∧ r.2 = (if k.2 = true ∧ loud = true then cInexact else 0)) ∧
    (∀ n, x = .inf n → r = (a, 0)) ∧ (x.isNan = true → r = (quieted fp32 a, signals fp32 [a])) ∧
    ∀ j : Int,
      (∀ n m e, x = .fin n m e → (m = 0 → fScale v a j = (fp32.zero n, 0)) ∧
        (m ≠ 0 → fScale v a j = roundFmt fp32 v.rm false v.ftz ⟨n, m, e + j, false⟩)) ∧
      (∀ n, x = .inf n → fScale v a j = (a, 0)) ∧ (x.isNan = true → fScale v a j = (quieted fp32 a, signals fp32 [a]))) ∧
  (∀ (s : Bool) (e m : Nat), e < 256 → m < 2 ^ 23 →
    let c := fun (n p : Nat) => fClass ((if s then 2 ^ 31 else 0) + e * 2 ^ 23 + m) = if s then n else p
    (e = 255 → m = 0 → c 1 128) ∧ (0 < e → e < 255 → c 2 64) ∧ (e = 0 → m ≠ 0 → c 4 32) ∧ (e = 0 → m = 0 → c 8 16) ∧
    (e = 255 → 0 < m → m < 2 ^ 22 → c 256 256) ∧ (e = 255 → 2 ^ 22 ≤ m → c 512 512)) ∧
  ∀ (d a x y : VReg) (b : LaneSrc) (h : Hold),
    FloatFrom2 (.fadd d a b h) d a b (fAdd fp32) ∧ FloatFrom2 (.fsub d a b h) d a b (fSub fp32) ∧
    FloatFrom2 (.fmul d a b h) d a b (fMul fp32) ∧
    FloatFrom2 (.fmin d a b h) d a b (fun v => fMinMax fp32 v false true) ∧
    FloatFrom2 (.fmax d a b h) d a b (fun v => fMinMax fp32 v true true) ∧
    FloatFrom2 (.fminm d a b h) d a b (fun v => fMinMax fp32 v false false) ∧
    FloatFrom2 (.fmaxm d a b h) d a b (fun v => fMinMax fp32 v true false) ∧
    LaneFrom2 (.fcopysign d a b h) d a b (fun u v => BitVec.ofNat 32 (u.toNat % 2 ^ 31 + v.toNat / 2 ^ 31 * 2 ^ 31)) ∧
    FloatFrom1 (.frcp d a h) d a (fUnary .rcp) ∧ FloatFrom1 (.fsqrt d a h) d a (fUnary .sqrt) ∧
    FloatFrom1 (.frsq d a h) d a (fUnary .rsq) ∧ FloatFrom1 (.fexp2 d a h) d a (fUnary .exp2) ∧
    FloatFrom1 (.flog2 d a h) d a (fUnary .log2) ∧
    FloatFrom1 (.ffloor d a h) d a (fun v => fIntegral .rdn v.ftz false) ∧
    FloatFrom1 (.fceil d a h) d a (fun v => fIntegral .rup v.ftz false) ∧
    FloatFrom1 (.ftrunc d a h) d a (fun v => fIntegral .rtz v.ftz false) ∧
    FloatFrom1 (.frint d a h) d a (fun v => fIntegral v.rm v.ftz true) ∧
    LaneFrom1 (.fclass d a h) d a (fun u => BitVec.ofNat 32 (fClass u.toNat)) ∧
    FloatFrom2 (.fscale d a b h) d a b (fun v u n => fScale v u (BitVec.ofNat 32 n).toInt) ∧
    FloatFrom3 (.ffma d a x y) d a x y (fun v => fFma fp32 v false) ∧
    FloatFrom3 (.ffms d a x y) d a x y (fun v => fFma fp32 v true) ∧
    FloatFrom2 (.badd2 d a b h) d a b (packed2 (fAdd bf16)) ∧ FloatFrom2 (.bmul2 d a b h) d a b (packed2 (fMul bf16)) ∧
    FloatFrom2 (.bmin2 d a b h) d a b (packed2 fun v => fMinMax bf16 v false true) ∧
    FloatFrom2 (.bmax2 d a b h) d a b (packed2 fun v => fMinMax bf16 v true true) ∧
    FloatFrom3 (.bfma2 d a x y) d a x y (packed3 fun v => fFma bf16 v false) ∧
    FloatFrom3 (.bfms2 d a x y) d a x y (packed3 fun v => fFma bf16 v true)

/-- R66, R178 to R181, Tables 10-6 and 10-7: FCMP writes its condition, combined with p[PS], and raises invalid as the condition says;
CVT converts the words of its source registers under its own rounding field, or FPMODE's for DYN. The conditions compare the numbers,
-0 as +0. A conversion delivers the number in the target format, keeps a NaN's sign and the payload that fits, and an infinity; one to an
integer rounds first and takes the table's value outside its range. -/
def Obligations.FloatCompareConvert : Prop :=
  (∀ (ftz : Bool) (a b : Nat), a < 2 ^ 32 → b < 2 ^ 32 →
    let v : FEnv := ⟨.rne, ftz⟩
    let x := taken fp32 v a
    let y := taken fp32 v b
    let less := fun (u w : FVal) => match u, w with
      | .fin na ma ea, .fin nb mb eb => signed na (mag ma ea) < signed nb (mag mb eb) | _, _ => Below u w
    let gives := fun (c : FCond) (p : Prop) (i : Conds) => ((fCompare ftz c a b).1 = true ↔ p) ∧ (fCompare ftz c a b).2 = i
    let quiet := signals fp32 [a, b]
    (x.isNan = true ∨ y.isNan = true → gives .eq False quiet ∧ gives .ne True quiet ∧ gives .lt False cInvalid ∧ gives .le False cInvalid ∧
      gives .gt False cInvalid ∧ gives .ge False cInvalid ∧ gives .un True quiet ∧ gives .or False quiet) ∧
    (x.isNan = false → y.isNan = false → gives .eq (¬less x y ∧ ¬less y x) 0 ∧ gives .ne (less x y ∨ less y x) 0 ∧ gives .lt (less x y) 0 ∧
      gives .le (¬less y x) 0 ∧ gives .gt (less y x) 0 ∧ gives .ge (¬less x y) 0 ∧ gives .un False 0 ∧ gives .or True 0)) ∧
  (∀ src ∈ [fp32, fp16, bf16, e5m2, e4m3], ∀ dst ∈ [fp32, fp16, bf16, e5m2, e4m3],
    ∀ (rm : RoundMode) (sat fin fout : Bool) (a : Nat), a < 2 ^ (src.ebits + src.fbits + 1) →
    let x := src.flush fin (src.decode a)
    let r := fConvert src dst rm sat fin fout a
    (∀ n m e, x = .fin n m e → (m = 0 → r = (dst.zero n, 0)) ∧ (m ≠ 0 → r = roundFmt dst rm sat fout ⟨n, m, e, false⟩)) ∧
    (∀ n, x = .inf n → r = if dst = e4m3 then (if sat = true then dst.max n else dst.inf n, cInvalid) else (dst.inf n, 0)) ∧
    (x.isNan = true → r.2 = signals src [a] ∧ (dst.decode r.1).isNan = true ∧ (dst.decode r.1).isSig = false ∧
      (dst.decode r.1).neg = x.neg ∧
      (src ≠ e4m3 → dst ≠ e4m3 → r.1 % 2 ^ dst.fbits = quieted dst (a % 2 ^ src.fbits * 2 ^ (23 - src.fbits) / 2 ^ (23 - dst.fbits))) ∧
      (src = e4m3 → dst ≠ e4m3 → r.1 % 2 ^ (dst.ebits + dst.fbits) = dst.canonical))) ∧
  (∀ (rm : RoundMode) (ftz sat : Bool) (xs : List Nat) (k : Nat),
    let x := xs.getD 0 0
    let v := taken fp32 ⟨rm, ftz⟩ x
    let into := fun (c : CvtCode) => convert c k sat rm ftz xs
    let from_ := fun (c : CvtCode) (i : Int) => (i = 0 → into c = (0, 0)) ∧
      (i ≠ 0 → into c = roundFmt fp32 rm false false ⟨decide (i < 0), i.natAbs, 0, false⟩)
    let byte := x / 2 ^ (8 * k) % 256
    let half := x / 2 ^ (16 * k) % 65536
    let each := fun (w : Nat) (f : Nat → Nat × Conds) (r : Nat × Conds) => (∀ y ∈ xs, (f y).1 < 2 ^ w) →
      (∀ j (h : j < xs.length), r.1 / 2 ^ (w * j) % 2 ^ w = (f xs[j]).1) ∧ r.2 = (xs.map fun y => (f y).2).foldl (· ||| ·) 0
    from_ .f32S32 (BitVec.ofNat 32 x).toInt ∧ from_ .f32U32 x ∧ from_ .f32S8 (BitVec.ofNat 8 byte).toInt ∧ from_ .f32U8 byte ∧
    from_ .f32S16 (BitVec.ofNat 16 half).toInt ∧
    into .f32Bf16lo = fConvert bf16 fp32 rm false ftz false (x % 65536) ∧ into .f32Bf16hi = fConvert bf16 fp32 rm false ftz false (x / 65536) ∧
    into .f32F16lo = fConvert fp16 fp32 rm false ftz false (x % 65536) ∧ into .f32F16hi = fConvert fp16 fp32 rm false ftz false (x / 65536) ∧
    into .f32E4m3 = fConvert e4m3 fp32 rm false false false byte ∧ into .f32E5m2 = fConvert e5m2 fp32 rm false false false byte ∧
    each 16 (fConvert fp32 bf16 rm sat ftz ftz) (into .bf16x2F32) ∧ each 16 (fConvert fp32 fp16 rm sat ftz ftz) (into .f16x2F32) ∧
    each 8 (fConvert fp32 e4m3 rm sat ftz false) (into .e4m3x4F32) ∧ each 8 (fConvert fp32 e5m2 rm sat ftz false) (into .e5m2x4F32) ∧
    ∀ row ∈ [(CvtCode.s32F32, -2 ^ 31, 2 ^ 31 - 1, if sat then 0x7FFFFFFF else 0x80000000, 0x80000000, if sat then 0 else 0x80000000),
        (CvtCode.u32F32, 0, 2 ^ 32 - 1, 0xFFFFFFFF, if sat then 0 else 0xFFFFFFFF, if sat then 0 else 0xFFFFFFFF),
        (CvtCode.s8F32, -128, 127, 127, 0xFFFFFF80, 0)],
      let lo : Int := row.2.1
      let hi : Int := row.2.2.1
      let out := fun (n : Nat) => into row.1 = (n, cInvalid)
      (v.isNan = true → out row.2.2.2.2.2) ∧ (v = .inf false → out row.2.2.2.1) ∧ (v = .inf true → out row.2.2.2.2.1) ∧
      ∀ n m e, v = .fin n m e →
        let r := (⟨n, m, e, false⟩ : Exact).roundAt rm 0
        let i : Int := if n then -(r.1 : Int) else r.1
        (hi < i → out row.2.2.2.1) ∧ (i < lo → out row.2.2.2.2.1) ∧
        (lo ≤ i → i ≤ hi → into row.1 = ((BitVec.ofInt 32 i).toNat, if r.2 = true then cInexact else 0))) ∧
  ∀ (d a : VReg) (pd ps : PReg) (m : Cmb) (b : LaneSrc) (c : FCond) (k : BitVec 2) (sat : Bool) (r : Rnd) (cv : CvtCode),
    Floats (.cvt d a k sat r cv) d (fun ls => (List.range (CvtCode.sources cv)).map fun j => (nthReg a j, ls)) (fun s p l =>
      asWord (convert cv k.toNat sat (match r with | .mode x => x | .dyn => p.round) p.ftz
        ((List.range (CvtCode.sources cv)).map fun j => (word s p (nthReg a j) l).toNat))) ∧
    ∀ s p, Acts s p → Open s p (lanes2 a b p.lanes) [] →
      let cond := fun l => fCompare p.ftz c (word s p a l).toNat (operand s p b l).toNat
      let cs := p.lanes.foldl (fun x l => x ||| (cond l).2) 0
      let old := fun l => (p.preg ps).getLsbD l
      let bits := p.lanes.filter fun l => combined m (cond l).1 (old l)
      (cs &&& p.enables = 0 →
        exec (.fcmp pd m a b c ps) s =
          .next (s.setPly s.cur (past (.fcmp pd m a b c ps) ((p.raise cs).setP pd p.a.em (maskOf bits))))) ∧
      (cs &&& p.enables ≠ 0 → Raises {} (.fcmp pd m a b c ps) s p s (condCause (cs &&& p.enables)) 0 0)

/-! ## Residue instructions (chapters 04 and 10) -/

/-- R73, R76, R78, R183: over the live channels, the sum, product and negation of the residues of integers are the residues of their
sum, product and negation, and a channel that is not live holds 0. Decoding the residues of an integer within the range of the
primary channels delivers that integer and finds no failed channel, for every basis that is available. -/
def Obligations.ResidueNumbers : Prop :=
  (∀ (wide : Bool) (map : BitVec 10) (b : Basis) (x y : Int), liveBasis wide map = some b →
    addResidues b (formResidues b x) (formResidues b y) = formResidues b (x + y) ∧
    mulResidues b (formResidues b x) (formResidues b y) = formResidues b (x * y) ∧
    negResidues b (formResidues b x) = formResidues b (-x) ∧
    (∀ j, j ∈ b.p ∨ j ∈ b.c → chan (formResidues b x) j = (x % (modulus j : Int)).toNat) ∧
    (∀ j, j ∉ b.p → j ∉ b.c → chan (formResidues b x) j = 0)) ∧
  (∀ (wide : Bool) (map : BitVec 10) (b : Basis) (x : Int), liveBasis wide map = some b →
    2 * x.natAbs < prodOf b.p → rnsDecode b (formResidues b x) = .ok x)

/-- R183: each residue instruction of major 0x2C completes; in the active lanes the registers of its destination group take the
residues that its operation gives. -/
def Obligations.ResidueWrites : Prop :=
  ∀ (d a e : VReg) (b : LaneSrc) (h : Hold) (bs : Basis) (s : State) (p : Ply) (c' : Core) (p' : Ply), Acts s p →
    let group := fun (wide : Bool) (r : VReg) (l : Nat) =>
      residuesOf wide ((List.range (groupSize wide)).map fun j => word s p (nthReg r j) l)
    let second := fun (l : Nat) => match b with
      | .v r => group false r l
      | .s r => residuesOf false [(p.sreg r).setWidth 32, (p.sreg r).extractLsb' 32 32]
    let gives := fun (i : Instr) (wide : Bool) (reads : List RegUse) (f : Nat → Residues) =>
      liveBasis wide p.ident.rnsmap = some bs → Open s p reads (groupUse d (groupSize wide) p.lanes) →
      writeRegs (here s) p ((List.range (groupSize wide)).map fun j =>
        (nthReg d j, p.lanes.map fun l => ⟨l, residueWord wide (f l) j, false⟩)) = some (c', p') →
      exec i s = .next ((s.setCore (coreOf s.cur) c').setPly s.cur (past i p'))
    gives (.rnsf d a h) false [(a, p.lanes)] (fun l => formResidues bs (word s p a l).toInt) ∧
    gives (.rnsfw d a h) true (groupUse a 2 p.lanes)
      (fun l => formResidues bs (word s p (nthReg a 1) l ++ word s p a l).toInt) ∧
    gives (.rnsadd d a b h) false (groupUse a 2 p.lanes ++ srcGroupUse b 2 p.lanes)
      (fun l => addResidues bs (group false a l) (second l)) ∧
    gives (.rnsmul d a b h) false (groupUse a 2 p.lanes ++ srcGroupUse b 2 p.lanes)
      (fun l => mulResidues bs (group false a l) (second l)) ∧
    gives (.rnsaddw d a e h) true (groupUse a 3 p.lanes ++ groupUse e 3 p.lanes)
      (fun l => addResidues bs (group true a l) (group true e l)) ∧
    gives (.rnsmulw d a e h) true (groupUse a 3 p.lanes ++ groupUse e 3 p.lanes)
      (fun l => mulResidues bs (group true a l) (group true e l)) ∧
    gives (.rnsneg d a h) false (groupUse a 2 p.lanes) (fun l => negResidues bs (group false a l)) ∧
    gives (.rnsnegw d a h) true (groupUse a 3 p.lanes) (fun l => negResidues bs (group true a l))

/-- R76, R184: each decoding instruction of major 0x2D decodes every active lane. Under TUNC an uncorrectable lane is 0x15
before the instruction, and nothing is written. Else it completes: RNSSTAT notes the lanes, the destination takes the delivered
values, located channels are recorded, and under TCOR a located channel is 0x50 after it. -/
def Obligations.ResidueDecodes : Prop :=
  ∀ (d a : VReg) (h : Hold) (bs : Basis) (s : State) (p : Ply) (c' : Core) (p' : Ply), Acts s p →
    let at_ := fun (wide : Bool) (l : Nat) =>
      rnsDecode bs (residuesOf wide ((List.range (groupSize wide)).map fun j => word s p (nthReg a j) l))
    let gives := fun (i : Instr) (wide : Bool) (n : Nat) (out : Int → Nat → Word) =>
      liveBasis wide p.ident.rnsmap = some bs → Open s p (groupUse a (groupSize wide) p.lanes) (groupUse d n p.lanes) →
      let ds := p.lanes.map (at_ wide)
      let bad := ds.any fun x => match x with | .uncorrectable _ => true | _ => false
      let js := (List.range 10).filter fun j => ds.any fun x => match x with | .located i _ => i == j | _ => false
      (bad = true → p.a.rnsctl.getLsbD 1 = true → Raises {} i s p s .residue 0 0) ∧
      (bad = false ∨ p.a.rnsctl.getLsbD 1 = false →
        writeRegs (here s) p ((List.range n).map fun j =>
          (nthReg d j, p.lanes.map fun l => ⟨l, out (at_ wide l).value j, false⟩)) = some (c', p') →
        let t := js.foldl (locatedEvent s.cur p) ((s.setCore (coreOf s.cur) c').setPly s.cur (p'.noteAll ds))
        (js = [] ∨ p.a.rnsctl.getLsbD 0 = false → Completes {} i s p t id) ∧
        (js ≠ [] → p.a.rnsctl.getLsbD 0 = true → CompletesThenRaises {} i s p t .residueLocated))
    gives (.rnsr d a h) false 1 (fun x _ => BitVec.ofInt 32 x) ∧
    gives (.rnsrw d a h) true 2 (fun x j => (BitVec.ofInt 64 x).extractLsb' (32 * j) 32) ∧
    gives (.rnschk d a h) false 2 (fun x j => residueWord false (formResidues bs x) j) ∧
    gives (.rnschkw d a h) true 3 (fun x j => residueWord true (formResidues bs x) j)

/-! ## Special registers (chapters 03 and 08) -/

/-- R12, R57, R160, Tables 3-3 and 3-4: SRD of a listed register writes its value to s[D], each as its entry gives it, and of an
unlisted one takes 0x09. SWR of
a register that can be written keeps what its entry says of the value: EM within the ply's width, FPMODE's 9 bits, and so on; to EM
under open divergence it takes 0x0A, and to any other number, or of a rounding code 5 to 7 to FPMODE, 0x09, all before themselves.
No write moves the PC. The table's rows for a register write by itself do the same write (the model's choice, log entry 23). -/
def Obligations.SpecialRegisters : Prop :=
  (∀ (d : SReg) (n : BitVec 12) (c : CReg) (v : DWord) (g : Guard) (s : State) (p : Ply), Acts s p → guardHolds g p = true →
    (∀ x, readSpecial s s.cur p n.toNat = some x →
      exec (.srd d n g) s = .next (s.setPly s.cur (past (.srd d n g) (p.setS d x)))) ∧
    (readSpecial s s.cur p n.toNat = none → Raises {} (.srd d n g) s p s .specialReg 0 0) ∧
    (∀ q, writeSpecial p n.toNat (p.sreg d) = .done q → q.a.pc = p.a.pc →
      exec (.swr d n g) s = .next (s.setPly s.cur (past (.swr d n g) q))) ∧
    (∀ x, writeSpecial p n.toNat (p.sreg d) = .cause x → Raises {} (.swr d n g) s p s x 0 0) ∧
    (∀ q, writeSpecial p n.toNat v = .done q → exec (.registerWrite n v) s = .next (s.setPly s.cur q)) ∧
    (p.diverged = false → exec (.emWrite v) s = .next (s.setPly s.cur (p.setEm v))) ∧
    exec (.cadd c v) s = .next (s.setPly s.cur (p.setC c (p.creg c + v))) ∧
    exec (.rnsstatWrite v) s = .next (s.setPly s.cur (p.clearRnsstat v))) ∧
  (∀ (p : Ply) (v : DWord),
    (p.diverged = true → writeSpecial p 0x000 v = .cause .emDiverged) ∧
    (p.diverged = false → writeSpecial p 0x000 v = .done (p.setEm v)) ∧
    (v.toNat % 8 < 5 → writeSpecial p 0x009 v = .done { p with a := { p.a with fpmode := v.setWidth 9 } }) ∧
    (5 ≤ v.toNat % 8 → writeSpecial p 0x009 v = .cause .specialReg) ∧
    writeSpecial p 0x00A v = .done { p with a := { p.a with fpflags := v.setWidth 5 } } ∧
    writeSpecial p 0x00B v = .done { p with a := { p.a with rnsctl := v.setWidth 2 } } ∧
    writeSpecial p 0x01D v = .done { p with hintdrop := v.setWidth 32 } ∧
    writeSpecial p 0x01E v = .done { p with scopestat := p.scopestat && !v.getLsbD 0 } ∧
    writeSpecial p 0x020 v = .done { p with a := { p.a with uivec := v &&& 0xFFFFFFFFFFFFFFFC } } ∧
    writeSpecial p 0x021 v = .done { p with a := { p.a with uictl := v.setWidth 24 &&& 0xFF0007 } } ∧
    writeSpecial p 0x023 v = .done { p with uiepc := v &&& 0xFFFFFFFFFFFFFFFC } ∧
    writeSpecial p 0x024 v = .done { p with uiem := v &&& allLanes p.width } ∧
    writeSpecial p 0x025 v = .done { p with a := { p.a with resbase := v &&& 0xFFFFFFFFFFFFFFFC } } ∧
    writeSpecial p 0x030 v = .done { p with a := { p.a with qbackoff := v.setWidth 16 } } ∧
    (∀ j : Nat, j < 8 → writeSpecial p (0x010 + j) v = .done (p.setC (BitVec.ofNat 3 j) v) ∧
      writeSpecial p (0x050 + j) v = .done (p.setC (BitVec.ofNat 3 j) (p.creg (BitVec.ofNat 3 j) + v))) ∧
    writeSpecial p 0x00D v = .done (p.clearRnsstat v) ∧
    (∀ n, n ∉ [0x000, 0x009, 0x00A, 0x00B, 0x00D, 0x01D, 0x01E, 0x020, 0x021, 0x023, 0x024, 0x025, 0x030] →
      ¬(0x010 ≤ n ∧ n ≤ 0x017) → ¬(0x050 ≤ n ∧ n ≤ 0x057) → writeSpecial p n v = .cause .specialReg) ∧
    ∀ n q, writeSpecial p n v = .done q → q.a.pc = p.a.pc) ∧
  ∀ (s : State) (k : Nat) (p : Ply),
    (∀ x ∈ [(0x000, p.a.em), (0x001, BitVec.ofNat 64 p.width), (0x002, plyid k p), (0x003, p.a.wix), (0x004, p.a.sibix),
        (0x005, p.a.role.setWidth 64), (0x006, p.a.ticket.setWidth 64), (0x007, p.a.slotIx.setWidth 64),
        (0x008, if p.a.phase = true then 1 else 0), (0x009, p.a.fpmode.setWidth 64), (0x00A, p.a.fpflags.setWidth 64),
        (0x00B, p.a.rnsctl.setWidth 64), (0x00C, p.ident.rnsmap.setWidth 64),
        (0x00D, BitVec.ofNat 64 (p.a.rnsLoc.toNat + 256 * p.a.rnsMcnt.toNat + 65536 * p.a.rnsUnc.toNat)),
        (0x018, BitVec.ofNat 64 (loadsOut s k p + 2 ^ 16 * storesOut s k p + 2 ^ 32 * copiesOut s k p + 2 ^ 48 * tilesOut s k p)),
        (0x019, p.region.setWidth 64), (0x01A, p.retry.setWidth 64), (0x01B, p.a.wmsig.setWidth 64), (0x01C, p.a.wmmask.setWidth 64),
        (0x01D, p.hintdrop.setWidth 64), (0x01E, if p.scopestat = true then 1 else 0), (0x01F, BitVec.ofNat 64 (s.cycle - s.coreReset)),
        (0x020, p.a.uivec), (0x021, p.a.uictl.setWidth 64),
        (0x022, BitVec.ofNat 64 (p.uicause.toNat + 256 * p.uisrc.toNat + 65536 * p.uicix.toNat)), (0x023, p.uiepc), (0x024, p.uiem),
        (0x025, p.a.resbase), (0x028, p.ident.teamid.setWidth 64), (0x029, p.ident.runid.setWidth 64), (0x030, p.a.qbackoff.setWidth 64)],
      readSpecial s k p x.1 = some x.2) ∧
    (∀ j : Nat, j < 8 → readSpecial s k p (0x010 + j) = some (p.creg (BitVec.ofNat 3 j)) ∧
      readSpecial s k p (0x050 + j) = some (p.creg (BitVec.ofNat 3 j)) ∧
      let x := p.pin (BitVec.ofNat 3 j)
      readSpecial s k p (0x040 + j) = some (BitVec.ofNat 64 (x.valid.toNat + 2 * x.outer.toNat + 4 * x.sd.toNat))) ∧
    ∀ n, readSpecial s k p n = none ↔ ¬(n ≤ 0x00D ∨ (0x010 ≤ n ∧ n ≤ 0x025) ∨ n = 0x028 ∨ n = 0x029 ∨ n = 0x030 ∨
      (0x040 ≤ n ∧ n ≤ 0x047) ∨ (0x050 ≤ n ∧ n ≤ 0x057))

/-! ## Memory access (chapters 05, 06, 08 and 11) -/

/-- R150 to R154, R339: a uniform access whose address lands completes. ULD and ULDA read N bits, zero-extended, into s[D], and stand
back while 63 loads are out; UST and USTR write the low bytes of s[D], and count as a store; UATOM and UCAS return the old value and
write the new one. A misaligned address takes 0x22, and else a bit of [63:57] 0x21, before the instruction. The model's choices: a
uniform load lands as it issues (log entry 8), and its word is read then (log entry 6). -/
def Obligations.UniformMemory : Prop :=
  ∀ (d sb : SReg) (i : BitVec 7) (z : Size) (e : Scope) (w ord : Bool) (op : AtomOp) (g : Guard) (s : State) (p : Ply)
    (spot : Spot) (t : State), Acts s p → guardHolds g p = true →
    let core := coreOf s.cur
    let ten := (viewer s.cur p).tenant
    let near := p.sreg sb + i.signExtend 64 * BitVec.ofNat 64 z.bytes
    let reads := fun (j : Instr) (e : Option Scope) (n : Nat) (va : DWord) =>
      (63 ≤ loadsOut s s.cur p → StandsBack j s) ∧
      (loadsOut s s.cur p < 63 → LandsAt s p { need := .read, bytes := n, scope := e } va spot t →
        let r := readOne core ten e spot.at_ n .allocate (hintL2 .normal spot t)
        r.1.error = none → Completes {} j s p r.2 fun q => q.setS d (BitVec.ofNat 64 r.1.value))
    let writes := fun (j : Instr) (e : Option Scope) (n : Nat) (va : DWord) =>
      LandsAt s p { need := .write, bytes := n, scope := e } va spot t →
      Completes {} j s p (writeOne s.cur t.seq e ⟨spot.va, 0, spot.at_, bytesLE (p.sreg d).toNat n, none⟩
        (hintL2 .normal spot (enterStore core (Flight.issue t s.cur p true) t))) id
    let atomics := fun (j : Instr) (ord : Bool) (n : Nat) (x : BusRequest) =>
      LandsAt s p { need := .both, bytes := n, reach := .atomic, scope := some e } (p.sreg sb) spot t →
      let r := atomicOne s.cur t.seq ten e ord spot x (enterStore core (Flight.issue t s.cur p true) t)
      r.1.error = none → Completes { closes := true } j s p r.2 fun q => q.setS d (BitVec.ofNat 64 r.1.value)
    reads (.uld d sb i z g) none z.bytes near ∧ reads (.ulda d sb e w g) (some e) (wideBytes w) (p.sreg sb) ∧
    writes (.ust d sb i z g) none z.bytes near ∧ writes (.ustr d sb e w g) (some e) (wideBytes w) (p.sreg sb) ∧
    let update := fun (x : BusRequest) (f : Nat → Option Nat) => ∀ old, BusRequest.update x old = f old
    let width := if w then 64 else op.width
    atomics (.uatom d sb e w op g) false (wideBytes w) (.atom op w (p.sreg d)) ∧
    update (.atom op w (p.sreg d)) (fun old => some (atomApply op width old ((p.sreg d).toNat % 2 ^ width))) ∧
    atomics (.ucas d sb e w ord g) ord (wideBytes w) (.cas w (p.sreg d) (p.sreg (d + 1))) ∧
    update (.cas w (p.sreg d) (p.sreg (d + 1))) (fun old =>
      if (p.sreg d).toNat % 2 ^ (8 * wideBytes w) = old then some ((p.sreg (d + 1)).toNat % 2 ^ (8 * wideBytes w)) else none) ∧
    (near.toNat % z.bytes ≠ 0 →
      (loadsOut s s.cur p < 63 → Raises {} (.uld d sb i z g) s p s .misaligned near 0) ∧
      Raises {} (.ust d sb i z g) s p s .misaligned near 0) ∧
    (near.toNat % z.bytes = 0 → 2 ^ 57 ≤ near.toNat →
      (loadsOut s s.cur p < 63 → Raises {} (.uld d sb i z g) s p s .protection near 0) ∧
      Raises {} (.ust d sb i z g) s p s .protection near 0) ∧
    ((p.sreg sb).toNat % wideBytes w ≠ 0 →
      (loadsOut s s.cur p < 63 → Raises {} (.ulda d sb e w g) s p s .misaligned (p.sreg sb) 0) ∧ Raises {} (.ustr d sb e w g) s p s .misaligned (p.sreg sb) 0 ∧
      Raises { closes := true } (.uatom d sb e w op g) s p s .misaligned (p.sreg sb) 0 ∧
      Raises { closes := true } (.ucas d sb e w ord g) s p s .misaligned (p.sreg sb) 0) ∧
    ((p.sreg sb).toNat % wideBytes w = 0 → 2 ^ 57 ≤ (p.sreg sb).toNat →
      (loadsOut s s.cur p < 63 → Raises {} (.ulda d sb e w g) s p s .protection (p.sreg sb) 0) ∧ Raises {} (.ustr d sb e w g) s p s .protection (p.sreg sb) 0 ∧
      Raises { closes := true } (.uatom d sb e w op g) s p s .protection (p.sreg sb) 0 ∧
      Raises { closes := true } (.ucas d sb e w ord g) s p s .protection (p.sreg sb) 0)

/-- R102, R155, R156, R158: a fence completes, with its release part before its acquire part, and an acquire fence once the ply's loads
have landed (R102; the model's choice of when, log entry 128); under a trapping clamp it takes
0x62 instead (R113). WAITC completes when its condition already holds, and else parks on a monitor. WAITN completes when every
count is within its limit, where a field of all ones is no limit, and else waits. -/
def Obligations.FencesAndWaits : Prop :=
  ∀ (e : Scope) (d sb : SReg) (w : Bool) (c : WaitCond) (nl ns : BitVec 6) (nc : BitVec 5) (nm : BitVec 4) (g : Guard)
    (s : State) (p : Ply) (spot : Spot) (t : State), Acts s p → guardHolds g p = true →
    let core := coreOf s.cur
    let u := noteClamp s.cur e s
    (clampTraps p e = false →
      Completes {} (.fence e g) s p (acquire core e (release s.cur e u)) id ∧
      Completes {} (.fenceAcq e g) s p (acquire core e (landLoads s.cur u)) id ∧
      Completes {} (.fenceRel e g) s p (release s.cur e u) id) ∧
    (clampTraps p e = true →
      Raises {} (.fence e g) s p s .clamped 0 0 ∧ Raises {} (.fenceAcq e g) s p s .clamped 0 0 ∧
      Raises {} (.fenceRel e g) s p s .clamped 0 0) ∧
    (LandsAt s p { need := .both, bytes := wideBytes w, reach := .atomic, scope := some e } (p.sreg sb) spot t →
      let r := homeRead core (viewer s.cur p).tenant spot.at_ (wideBytes w) t
      r.1.error = none →
      let holds := waitHolds c (8 * wideBytes w) r.1.value ((p.sreg d).toNat % 2 ^ (8 * wideBytes w))
      (holds = true → Completes {} (.waitc d sb e w c g) s p (acquire core e r.2) id) ∧
      (holds = false →
        Parks {} (.waitc d sb e w c g) s r.2 .parked (.monitor ⟨spot.at_, w, c, p.sreg d, e, false⟩))) ∧
    let under := fun (n k x : Nat) => x = 2 ^ k - 1 ∨ n ≤ x
    let all := under (loadsOut s s.cur p) 6 nl.toNat ∧ under (storesOut s s.cur p) 6 ns.toNat ∧
      under (copiesOut s s.cur p) 5 nc.toNat ∧ under (tilesOut s s.cur p) 4 nm.toNat
    (all → Completes {} (.waitn nl ns nc nm g) s p s id) ∧
    let limit := fun (k x : Nat) => if x = 2 ^ k - 1 then none else some x
    (¬all → Parks {} (.waitn nl ns nc nm g) s s .ready
      (.counts (limit 6 nl.toNat) (limit 6 ns.toNat) (limit 5 nc.toNat) (limit 4 nm.toNat)))

/-- R185 to R187, R189 to R198: a lane memory instruction whose accesses land completes. A load's words land
in its destination rows later (R50), and it counts as a load in flight; a store's bytes are on their way home, and it counts as a
store; an atomic returns its old values into rows that stay pending; RED and REDQ return nothing; PREF applies its hint to each lane's
line. The lowest lane with a misaligned address raises 0x22 before anything else, and else the lowest with a bit of [63:57] 0x21 (R186),
of each instruction but PREF. A load or a store of which lanes are left, as after a page fault, is resumed with the addresses and the words
of its first issue (R187). The model's choices: the words of a load are those read as it issues (log entry 6), an earlier load of
the line lands first (log entry 128), RED and REDQ look at their target as they issue (log entry 124), and PREF of an execute-only page is
dropped (log entry 136). -/
def Obligations.LaneMemory : Prop :=
  ∀ (d a : VReg) (sb : SReg) (z : Size) (sc : BitVec 2) (h : Hint) (x w ord : Bool) (e : Scope) (ty : RepTy) (op : AtomOp)
    (q : QFmt) (kind : PrefKind) (s : State) (p : Ply), Acts s p →
    (∀ u n, p.replays = some u → u.flight = some n →
      LoadResumes (.ld d a sb z sc h x) { bytes := z.bytes, words := loadWords z x, hint := h } a u n s p ∧
      LoadResumes (.lda d a sb w e) { bytes := wideBytes w, words := valueWords (wideBytes w), scope := some e } a u n s p ∧
      StoreResumes (.st d a sb z sc h) { need := .write, bytes := z.bytes } h d a u n s p ∧
      StoreResumes (.str d a sb w e) { need := .write, bytes := wideBytes w, scope := some e } .normal d a u n s p) ∧
    (p.replays = none →
    LoadCompletes (.ld d a sb z sc h x) { bytes := z.bytes, words := loadWords z x, hint := h } d a sb sc.toNat s p ∧
    LoadCompletes (.lda d a sb w e) { bytes := wideBytes w, words := valueWords (wideBytes w), scope := some e } d a sb 0 s p ∧
    LoadCompletes (.ldrep d a sb ty)
      { bytes := if ty = .s64 then 8 else 4, words := valueWords (if ty = .s64 then 8 else 4), sum := some ty } d a sb 0 s p ∧
    StoreCompletes (.st d a sb z sc h) { need := .write, bytes := z.bytes } h d a sb sc.toNat s p ∧
    StoreCompletes (.str d a sb w e) { need := .write, bytes := wideBytes w, scope := some e } .normal d a sb 0 s p ∧
    AtomicCompletes (.atom d a sb op e) (atomBytes op) e false (regCount (atomBytes op)) (atomRequest op) d a sb s p ∧
    AtomicCompletes (.atomar d a sb op e) (atomBytes op) e true (regCount (atomBytes op)) (atomRequest op) d a sb s p ∧
    AtomicCompletes (.cas d a sb e w ord) (wideBytes w) e ord (if w then 4 else 2) (casRequest w) d a sb s p ∧
    ReduceCompletes (.red d a sb op e) (atomicShape (atomBytes op) e) d a
      (laneReqs (here s) p a sb 0 (regList d (regCount (atomBytes op))))
      (fun seq g s' => redLane s.cur seq op g.main (BitVec.ofNat 64 (wordsValue g.req.data)) s') s p ∧
    ReduceCompletes (.redq d a sb q e) { atomicShape 4 e with residual := true } d a
      ((laneReqs (here s) p a sb 0 (regList d 1)).map fun r =>
        { r with ea2 := p.a.resbase + (word s p a r.lane).setWidth 64 })
      (redqLane s.cur (tenantOf s p) q) s p ∧
    (Open s p [(a, p.lanes)] [] →
      Completes {} (.pref kind a sb) s p
        ((p.lanes.map fun l => p.sreg sb + (word s p a l).setWidth 64).foldl (prefLane s.cur p kind) s) id))

/-! ## Tiles, copies and the matrix engine (chapters 05, 11, 12 and 13) -/

/-- R189, R199, R345: TLD reads n bytes of a tile in each active lane, which land in v[d], and TST writes the low n bytes of v[d], when
every lane's offset is aligned and inside the tile and its hasp lets lane accesses pass; both count in TOPS until they land. A read for
which the pool has rows first corrects its words' single bit errors, and the lowest lane with a poisoned word raises 0x54. The lowest lane that fails raises
0x22 for a misaligned offset and else 0x25 for one beyond the tile; an unknown handle raises 0x24; the hasp holds the instruction
back. -/
def Obligations.TileAccess : Prop :=
  ∀ (d a : VReg) (h : BitVec 8) (z : Size) (x : Bool) (s : State) (p : Ply), Acts s p → p.lanes ≠ [] →
    let n := z.bytes
    let rs := regList d (regCount n)
    let off := fun l => (word s p a l).toNat
    let reads := Open s p [(a, p.lanes)] (rs.map fun r => (r, p.lanes))
    let writes := StoreOpen s p a rs
    let load : Instr := .tld d a h z x
    let store : Instr := .tst d a h z
    (∀ t tile, tileTeam s s.cur p = some t → teamTile s (some t) h.toNat = some tile →
      let fits := fun l => off l % n = 0 ∧ off l + n ≤ tile.size
      let im := fun l => tile.read (off l) n
      ((∀ l ∈ p.lanes, fits l) → haspWaits s s.cur p t h.toNat tile = false →
        (reads →
          (prepareRegs (here s) p p.lanes rs).isSome = true →
          let u := p.lanes.foldl (fun v l => correctTile t h.toNat (off l) n v) s
          ((∀ l ∈ p.lanes, (im l).tileError = none) → ∀ y p',
            prepareRegs (u.core (coreOf s.cur)) p p.lanes rs = some (y, p') →
            let ps := fillAll (p.lanes.map fun l => (l, loadWords z x (im l).value)) (piecesFor p' rs p.lanes)
            let flight := { Flight.issue u s.cur p false with tops := true, rows := pieceRows ps, pieces := ps }
            Completes {} load s p (takeRows s.cur p' (u.setCore (coreOf s.cur) { y with loads := y.loads ++ [flight] })).bump id) ∧
          ∀ pre l post e, p.lanes = pre ++ l :: post → (∀ m ∈ pre, (im m).tileError = none) → (im l).tileError = some e →
            Raises {} load s p (tileRecord t tile (im l) (plyid s.cur p) u) e 0 0) ∧
        (writes → Completes {} store s p (enterStore (coreOf s.cur) { Flight.issue s s.cur p false with tops := true }
          (s.setTile t h.toNat (p.lanes.foldl (fun y l => y.write (off l) ((wordsBytes (rs.map fun r => word s p r l)).take n)
            (if rs.any fun r => (here s).poisoned (p.entry r) l then some .memory else none)) tile))) id)) ∧
      ((∀ l ∈ p.lanes, fits l) → haspWaits s s.cur p t h.toNat tile = true →
        (reads → StandsBack load s) ∧ (writes → StandsBack store s)) ∧
      ∀ pre l post, p.lanes = pre ++ l :: post → (∀ m ∈ pre, fits m) →
        (off l % n ≠ 0 → (reads → Raises {} load s p s .misaligned (BitVec.ofNat 64 (off l)) 0) ∧
          (writes → Raises {} store s p s .misaligned (BitVec.ofNat 64 (off l)) 0)) ∧
        (off l % n = 0 → tile.size < off l + n →
          (reads → Raises {} load s p s .tileBounds (BitVec.ofNat 64 (off l)) 0) ∧
          (writes → Raises {} store s p s .tileBounds (BitVec.ofNat 64 (off l)) 0))) ∧
    (teamTile s (tileTeam s s.cur p) h.toNat = none → ∀ l ls, p.lanes = l :: ls →
      (reads → Raises {} load s p s .tileHandle (BitVec.ofNat 64 (off l)) 0) ∧
      (writes → Raises {} store s p s .tileHandle (BitVec.ofNat 64 (off l)) 0))

/-- R82, R221, R350: the base that a tile gets is the lowest at which every core's store that holds a part of it has room: the
part lies within the carve-out, meets no other tile's part in that store, and holds no retired granule. -/
def Obligations.TilePlacement : Prop :=
  ∀ (s : State) (o : Nat) (x : Tile),
    let room := fun (b c : Nat) =>
      b + x.share o c ≤ 64 * (s.core c).ncur ∧
      (∀ tm ∈ s.teams, ∀ y ∈ tm.2.tiles, y.2.share tm.2.core c ≠ 0 →
        b + x.share o c ≤ y.2.base ∨ y.2.base + y.2.share tm.2.core c ≤ b) ∧
      ∀ g ∈ (s.core c).retiredGranules, g < b ∨ b + x.share o c ≤ g
    (∀ b, placeTile s o x = some b →
      (∀ c, x.share o c ≠ 0 → room b c) ∧ ∀ b', b' < b → ∃ c, x.share o c ≠ 0 ∧ ¬room b' c) ∧
    (placeTile s o x = none → ∀ b, b < 1921 → ∃ c, x.share o c ≠ 0 ∧ ¬room b c)

/-- R221, R222: TALLOC makes the tile that its shape word describes under the word's handle, and TALLOCT under the lowest free
one, which it returns in s[D]; q0 says whether there was room, and without room no tile changes. A handle in use, or a reserved
field, raises 0x24, and a level that is not granted 0x29. TFREE ends a tile whose hasp lets it. -/
def Obligations.TileTable : Prop :=
  ∀ (d a : SReg) (g : Guard) (s : State) (p : Ply) (t : Nat) (tm : Team), Acts s p → guardHolds g p = true →
    tileTeam s s.cur p = some t → s.team t = some tm →
    let w := p.sreg a
    let h := field w 0 8
    let clean := field w 20 4 ≤ 8 ∧ field w 27 37 = 0
    let granted := field w 24 3 = 0 ∨ (field w 24 3 = 1 ∧ teamShared s t = true)
    let tile := fun (b : Nat) =>
      (⟨decide (field w 24 3 = 1), false, 0, b, field w 8 12, field w 20 4, [], [], []⟩ : Tile)
    let place := placeTile s tm.core (tile 0)
    (tm.tiles.find h = none → clean → granted →
      (∀ b, place = some b → Completes closing (.talloc a g) s p (s.setTile t h (tile b)) fun q => q.setQ 0 true) ∧
      (place = none → BecomesClosing (.talloc a g) s (p.setQ 0 false))) ∧
    (h = 0 → clean → granted →
      (∀ n b, lowestFree tm.tiles.keys 256 = some n → place = some b →
        Completes closing (.talloct d a g) s p (s.setTile t n (tile b)) fun q => (q.setS d (BitVec.ofNat 64 n)).setQ 0 true) ∧
      (lowestFree tm.tiles.keys 256 = none ∨ place = none →
        BecomesClosing (.talloct d a g) s ((p.setS d 256).setQ 0 false))) ∧
    (tm.tiles.find h ≠ none ∨ ¬clean → Raises closing (.talloc a g) s p s .tileHandle 0 0) ∧
    (tm.tiles.find h = none → clean → ¬granted → Raises closing (.talloc a g) s p s .tileLevel 0 0) ∧
    (h ≠ 0 ∨ ¬clean → Raises closing (.talloct d a g) s p s .tileHandle 0 0) ∧
    (h = 0 → clean → ¬granted → Raises closing (.talloct d a g) s p s .tileLevel 0 0) ∧
    (field w 8 56 = 0 → ∀ x, tm.tiles.find h = some x →
      (haspWaits s s.cur p t h x = false →
        Completes closing (.tfree a g) s p (s.setTeam t { tm with tiles := tm.tiles.drop h }) id) ∧
      (haspWaits s s.cur p t h x = true → StandsBack (.tfree a g) s)) ∧
    (tm.tiles.find h = none ∨ field w 8 56 ≠ 0 → Raises closing (.tfree a g) s p s .tileHandle 0 0)

/-- R83, R110, R220, R226, R227: a copy issues when its role, its tile, its record and its coordinates permit it and the ply has
fewer than 31 in flight; with 31, or with a tile's count full, it stands back. What came before has landed or is performed at home, the
tiles go to the engine, and the copy is in flight with its blocks; with Y and bytes still expected in c[CR], the ply yields with the
next instruction as its own. The wrong ROLE raises 0x05, an unknown tile or a reserved field 0x24, a source that does not fit 0x25 and
a record or coordinates that do not permit the copy 0x26. -/
def Obligations.CopiesIssue : Prop :=
  ∀ (h : BitVec 8) (tr : TReg) (cb : SReg) (cr : CReg) (y : Bool) (s : State) (p : Ply) (t : Nat) (tile : Tile), Acts s p →
    tileTeam s s.cur p = some t → teamTile s (some t) h.toNat = some tile →
    let w := p.sreg cb
    let record := p.a.t[tr.toNat]'tr.isLt
    let issues := fun (i : Instr) (x : Copy) (src : Tile) =>
      let full := copiesOut s s.cur p ≥ 31 || eopsFull s (coreOf s.cur) (p.mode != 0) t x.tiles
      (full = true → StandsBack i s) ∧ (full = false →
      let total := if x.kind = .tile then src.size else tile.size
      let x := { x with left := blocksFrom x tile src total total 0 }
      let u := ((takeTiles t x.tiles (pushCore (coreOf s.cur) (landLoads s.cur s))).modCore (coreOf s.cur)
        fun c => { c with copies := c.copies ++ [x] }).bump
      (y = false ∨ (p.creg cr).toInt ≤ 0 → Completes closing i s p u id) ∧
      (y = true → 0 < (p.creg cr).toInt → exec i s = .next (u.modPly s.cur fun q =>
        { went closing i q (q.a.pc + 4) with state := .yielded, wait := .copy cr false })))
    (p.a.role = 0 ∨ p.a.role = 1 → tensorCause record w tile = none →
      issues (.cpyin h tr cb cr y) { newCopy s p .cpyin t h.toNat cr with record := record, coords := w } tile) ∧
    (p.a.role = 0 ∨ p.a.role = 3 → tensorCause record w tile = none →
      issues (.cpyout h tr cb cr y) { newCopy s p .cpyout t h.toNat cr with record := record, coords := w } tile) ∧
    (p.a.role = 0 → ∀ src, teamTile s (some t) (field w 0 8) = some src → field w 8 24 = 0 → field w 0 8 ≠ h.toNat →
      field w 32 32 + src.size ≤ tile.size →
      issues (.cpytt h cb cr y) { newCopy s p .tile t h.toNat cr with source := field w 0 8, offset := field w 32 32 } src) ∧
    (p.a.role = 0 → field w 32 32 = 0 →
      issues (.cpyfill h cb cr y) { newCopy s p .fill t h.toNat cr with fillWord := w.setWidth 32 } tile) ∧
    (p.a.role = 0 → ∀ (n : BitVec 8), teamTile s (some t) n.toNat = none →
      Raises closing (.cpyin n tr cb cr y) s p s .tileHandle 0 0 ∧ Raises closing (.cpyout n tr cb cr y) s p s .tileHandle 0 0 ∧
      Raises closing (.cpytt n cb cr y) s p s .tileHandle 0 0 ∧ Raises closing (.cpyfill n cb cr y) s p s .tileHandle 0 0) ∧
    (∀ c, tensorCause record w tile = some c → c = .tensorRecord ∧
      (p.a.role = 0 ∨ p.a.role = 1 → Raises closing (.cpyin h tr cb cr y) s p s c 0 0) ∧
      (p.a.role = 0 ∨ p.a.role = 3 → Raises closing (.cpyout h tr cb cr y) s p s c 0 0)) ∧
    (p.a.role = 0 → teamTile s (some t) (field w 0 8) = none ∨ field w 8 24 ≠ 0 ∨ field w 0 8 = h.toNat →
      Raises closing (.cpytt h cb cr y) s p s .tileHandle 0 0) ∧
    (p.a.role = 0 → ∀ src, teamTile s (some t) (field w 0 8) = some src → field w 8 24 = 0 → field w 0 8 ≠ h.toNat →
      tile.size < field w 32 32 + src.size → Raises closing (.cpytt h cb cr y) s p s .tileBounds 0 0) ∧
    (p.a.role = 0 → field w 32 32 ≠ 0 → Raises closing (.cpyfill h cb cr y) s p s .tileHandle 0 0) ∧
    (p.a.role = 2 ∨ p.a.role = 3 → Raises closing (.cpyin h tr cb cr y) s p s .role 0 0) ∧
    (p.a.role = 1 ∨ p.a.role = 2 → Raises closing (.cpyout h tr cb cr y) s p s .role 0 0) ∧
    (p.a.role ≠ 0 → Raises closing (.cpytt h cb cr y) s p s .role 0 0 ∧ Raises closing (.cpyfill h cb cr y) s p s .role 0 0)

/-- R54, R84, R227, R228: a block of a copy that no earlier operation holds back lands: its bytes are subtracted from the
completion register of its ply, and the copy ends with its last block. A register that reaches zero makes its yielded ply Ready,
and its interrupt pending when UICTL says so. A copy whose block meets a cause stops, with the
records that the block makes, and its ply takes the cause at its next issue boundary. -/
def Obligations.CopiesRun : Prop :=
  ∀ (seq block core : Nat) (c : Cause) (x : Copy) (s : State), findCopy s seq = some (core, x) → x.held = false →
    (∀ tile u, x.left.contains block = true → tileHeld s core seq (x.run == 0) (copyUses s x) = false → teamTile s (some x.team) x.tile = some tile →
      let src := (teamTile s (some x.team) x.source).getD tile
      let n := blockLen x tile src block
      let left := x.left.filter (· != block)
      landBlock core x tile src block n s = .landed u →
      exec (.copyBlockLand seq block) s = .next (landBytes x.ply x.uid x.cr n
        (if left = [] then endCopy core x u else modCopy core x.seq (fun y => { y with left := left, stale := y.stale.drop block }) u))) ∧
    (∀ pre off post u, x.left = pre ++ off :: post → (∀ b ∈ pre, blockStop s core x c b = none) → blockStop s core x c off = some u →
      exec (.copyStop seq c) s = .next (stopCopy core x c 0 (unwaitCopy core seq u))) ∧
    ∀ (u : State) (k n : Nat) (cr : CReg) (p : Ply), u.ply k = some p →
      let old := p.creg cr
      let new := old - BitVec.ofNat 64 n
      let q := p.setC cr new
      (old.toInt ≤ 0 ∨ 0 < new.toInt → landBytes k p.uid cr n u = u.setPly k q) ∧
      (0 < old.toInt → new.toInt ≤ 0 →
        let r := if p.a.uictl.getLsbD (16 + cr.toNat) then { q with pendCopy := setBitTo p.pendCopy cr.toNat true } else q
        landBytes k p.uid cr n u = u.setPly k
          (if p.state = .yielded ∧ p.wait = .copy cr true then r.wakeDone
           else if p.state = .yielded ∧ p.wait = .copy cr false then r.wakeAgain else r))

/-- R85, R223 to R225, R230, R339: TBIND and CBLD load t[D] and cb[D] from memory, standing back while 63 loads are out; a record that
breaks Table 5-3 raises 0x26, BSHR declares a share of four members or raises 0x04, and PBIND binds a press to its team, under a new
binding, with every ticket of the old one cancelled, or raises 0x41. The model's choice: these loads land as they issue (log entry 8). -/
def Obligations.EngineLoads : Prop :=
  ∀ (d : TReg) (cbd : CbReg) (sh : BitVec 4) (n : BitVec 3) (a b : SReg) (g : Guard) (s : State) (p : Ply) (spot : Spot) (t : State),
    Acts s p → guardHolds g p = true →
    let fetched := fun (n : Nat) => plainRead (coreOf t.cur) (viewer t.cur p).tenant spot.at_ n .allocate (hintL2 .normal spot t)
    (63 ≤ loadsOut s s.cur p → StandsBack (.tbind d a g) s ∧ StandsBack (.cbld cbd a g) s ∧ StandsBack (.pbind n a g) s) ∧
    (loadsOut s s.cur p < 63 → LandsAt s p { need := .read, bytes := 64 } (p.sreg a) spot t → (fetched 64).1.error = none →
      let bs := (fetched 64).1.bytes
      let u := (fetched 64).2
      let failed := u.modPly t.cur fun q => { q with scopestat := p.scopestat }
      (∀ r, parseRecord bs = some r → Completes {} (.tbind d a g) s p
        (u.modPly u.cur fun q => { q with a := { q.a with t := q.a.t.set d.toNat (some r) d.isLt } }) id) ∧
      (parseRecord bs = none → Raises {} (.tbind d a g) s p failed .tensorRecord (p.sreg a) 0) ∧
      (∀ tm x, ownTeam u p = some tm → parsePress bs (tm.binding + 1) = some x →
        Completes closing (.pbind n a g) s p (settlePress p.ident.team n.toNat (cancelTickets p.ident.team n.toNat
          (u.modTeam p.ident.team fun y => { y with binding := y.binding + 1, presses := y.presses.put n.toNat x }))) id) ∧
      (ownTeam u p = none ∨ (∀ m, parsePress bs m = none) → Raises closing (.pbind n a g) s p failed .pressUnbound 0 0)) ∧
    (loadsOut s s.cur p < 63 → LandsAt s p { need := .read, bytes := 32 } (p.sreg a) spot t → (fetched 32).1.error = none →
      let u := (fetched 32).2
      Completes {} (.cbld cbd a g) s p (u.modPly u.cur fun q => { q with a := { q.a with
        cb := q.a.cb.set cbd.toNat (some (Vector.ofFn fun j => BitVec.ofNat 16 (leBytes (fetched 32).1.bytes (2 * j) 2))) cbd.isLt } }) id) ∧
    (shareOf s s.cur p (p.sreg a) (p.sreg b) = none → Raises {} (.bshr sh a b g) s p s .formatBlock 0 0) ∧
    (∀ x, shareOf s s.cur p (p.sreg a) (p.sreg b) = some x → p.mode = 0 → Completes {} (.bshr sh a b g) s p
      (s.modTeam p.ident.team fun y => { y with shares := y.shares.put sh.toNat x }) id) ∧
    (∀ x, shareOf s s.cur p (p.sreg a) (p.sreg b) = some x → p.mode ≠ 0 → Completes {} (.bshr sh a b g) s p s id)

/-- R200, R202 to R207, R210 to R214: MMA and MMAI with a lane active raise the first cause of R210's checks, in its order: a Given
register, the ROLE of a load or a store stage, a format block that breaks the content rules of R202 and R203, a shape that Table
7-23 does not assign or admit for the formats, an unavailable basis, an odd register pair, a register beyond v63, a tile that is not
allocated, and a tile region out of bounds (which scales and which share registers count: log entry 110). Else they stand back while
something holds them, find the bit errors of the rows that they read, or enter one operation for each octet with active lanes, with
A's words as they are now. With no lane active they do nothing. -/
def Obligations.MatrixIssue : Prop :=
  ∀ (mmai : Bool) (d a : VReg) (f : SReg) (shp : BitVec 5) (fn : MatFn) (s : State) (p : Ply), Acts s p →
    let i : Instr := if mmai then .mmai d a f shp fn else .mma d a f shp fn
    let m := matCall mmai d a f shp fn s p
    (p.lanes = [] → Becomes i s p) ∧
    (p.lanes ≠ [] →
      (∀ c, m.cause s p = some c → Raises {} i s p s c 0 0) ∧
      (m.cause s p = none → m.stalls s p = true → StandsBack i s) ∧
      (m.cause s p = none → m.stalls s p = false →
        (∀ u, m.findErrors s p = some u → exec i s = .next u) ∧
        (m.findErrors s p = none → ∀ c' p', prepareRegs (here s) p p.lanes m.dRegs = some (c', p') →
          Completes {} i s p (m.issued s p p' c') id))) ∧
    (let bits := fun (x : DWord) (lo n : Nat) => x.toNat / 2 ^ lo % 2 ^ n
     let w := p.sreg f
     let x := fun (j : Nat) => p.sreg (BitVec.ofNat 6 (f.toNat + j))
     let af := bits w 0 4
     let bf := bits w 4 4
     let cf := bits w 8 4
     let scale := fun (y : DWord) => bits y 8 1 = 0 ∧ bits y 32 32 = 0
     let formats := if mmai then (af = 5 ∨ af = 6) ∧ bf = af ∧ cf = af + 3 ∧ bits w 12 4 = 0 ∧ bits w 19 2 = 0 ∧ bits w 21 2 = cf - 7
       else af ≤ 3 ∧ bf ≤ 4 ∧ cf = 7 ∧ bits w 21 2 = 0
     let block := bits w 32 32 = 0 ∧ formats ∧ (bits w 19 1 = 1 ↔ bits w 12 2 ≠ 0) ∧ (bits w 20 1 = 1 ↔ bits w 14 2 ≠ 0) ∧
       (if bf = 4 then (p.a.cb.toList.getD (bits w 16 3) none).isSome = true else bits w 16 3 = 0) ∧
       (if bits w 23 1 = 1 then (x 1).toNat % 32 = 0 ∧ bits (x 1) 32 32 = 0
         else (liveShare s s.cur p (bits w 24 8)).isSome = true) ∧
       (bits w 19 1 = 1 → scale (x 2)) ∧ (bits w 20 1 = 1 → scale (x 3))
     let n := shp.toNat
     let admitted := (n ≤ 6 ∧ (af, bf) ∈ [(0, 0), (1, 1), (0, 4)]) ∨
       (8 ≤ n ∧ n ≤ 13 ∧ (af, bf) ∈ [(2, 2), (2, 3), (2, 4), (3, 2), (3, 3), (3, 4)]) ∨
       (16 ≤ n ∧ n ≤ 19 ∧ af = 5) ∨ (20 ≤ n ∧ n ≤ 21 ∧ af = 6)
     let own := fun (r : VReg) (k : Nat) => (List.range k).map fun j => (p, r.toNat + j)
     let regs := own a m.na ++ own d m.nd ++ m.bRegs
     let size := fun (h : Nat) => (teamTile s (some p.ident.team) h).map Tile.size
     FirstOf (m.cause s p) [
       (∃ y ∈ regs, y.2 < 64 ∧ y.1.entry (BitVec.ofNat 6 y.2) = .given, .givenReg),
       (p.a.role = 1 ∨ p.a.role = 3, .role),
       (¬block, .formatBlock),
       (¬admitted, .shape),
       (mmai = true ∧ liveBasis (cf == 9) p.ident.rnsmap = none, .residue),
       (mmai = true ∧ cf = 8 ∧ d.toNat % 2 = 1, .pair),
       (∃ y ∈ regs, 64 ≤ y.2, .reserved),
       (∃ h ∈ m.tiles, p.mode ≠ 0 ∨ size h = none, .tileHandle),
       ((∃ h o z, m.bTile = some (h, o) ∧ size h = some z ∧ z < o + matBBytes n bf) ∨
        (∃ h o k z, m.aScale = some (h, o, k) ∧ size h = some z ∧ z < o + 2 * (p.lanes.getLast?.getD 0 + 1) * k) ∨
        (∃ h o k z, m.bScale = some (h, o, k) ∧ size h = some z ∧ z < o + 2 * (matDims n).1 * k), .tileBounds)]) ∧
    (∀ p' j, (m.op s p p' j).aWords = ((p.lanes.filter fun l => l / 8 == j).map fun l => m.aRegs.map fun r => word s p r l) ∧
      (m.op s p p' j).lanes = p.lanes.filter fun l => l / 8 == j)

/-- R55, R208, R211, R212, R217 to R219, R342, R345: an octet operation that nothing holds back finds the bit errors of what it reads;
when no word of it is poisoned it writes its results into the accumulator and leaves the engine. A poisoned register word makes it fail
with 0x52 and the record of its row instead, and else the first bad tile word with 0x54, or 0x55 when it was injected, and that word's
record. The engine thaws when no operation in its frames is of a pre-empted ply. MSTATE reads a frozen engine's frames and MFILL writes
them, for the context ply alone; what MFILL brings back of resumed plies locks its rows. The model's choices: the words of a frame (log
entry 12), what of saved operations is kept (log entry 30), 0x52 before 0x54 (log entry 134). -/
def Obligations.MatrixEngine : Prop :=
  (∀ (seq octet core : Nat) (m : MatOp) (s : State),
    (s.cores.findSome? fun (c, x) => (x.mats.find? fun y => y.seq == seq && y.octet == octet).map fun y => (c, y)) = some (core, m) →
    matHeld s core m = false →
    let t := accErrors core m s
    let u := (matReads t m).foldl (fun v x => correctTile m.team x.1 x.2.base x.2.bytes.length v) t
    (m.badRow = none → accBadRow (u.core core) m = none → ((matReads u m).all fun x => x.2.tileError.isNone) = true →
      exec (.mmaComplete seq octet) s = .next (dropMats core (fun y => y.seq == m.seq && y.octet == m.octet)
        (u.modCore core (writeAcc m (matResults u core m))))) ∧
    let who := match u.live m.ply m.uid with | some p => plyid m.ply p | none => 0
    let bad := m.badRow.or (accBadRow (u.core core) m)
    (∀ n, bad = some n → exec (.mmaComplete seq octet) s = .next (failMat core m .regError
      (errorEvent (unitOf core) ⟨0, 2, 0, 0, core, BitVec.ofNat 64 n, who, u.cycle⟩ (some (.row core n)) 0 u))) ∧
    (bad = none → ∀ pre h i post e tile, matReads u m = pre ++ (h, i) :: post → (∀ x ∈ pre, x.2.tileError = none) →
      i.tileError = some e → teamTile u (some m.team) h = some tile →
      (e = .tileError ∨ e = .injected) ∧
      exec (.mmaComplete seq octet) s = .next (failMat core m e (tileRecord m.team tile i who u)))) ∧
  (∀ (core : Nat) (s : State), (s.core core).frozen = true → (s.core core).freezeHeld = false →
    (∀ m ∈ frozenOps (s.core core), preempted s m.ply m.uid = false) →
    (∀ o ∈ (s.core core).frames.keys, badOctets (s.core core) o = [] ∨ ∃ x ∈ badOctets (s.core core) o, x.resumed s = true) →
    exec (.engineThaw core) s = .next (thaw core s)) ∧
  ∀ (d a : VReg) (w : BitVec 8) (s : State) (p : Ply), Acts s p →
    (p.lanes = [] → Becomes (.mstate d w) s p ∧ Becomes (.mfill a w) s p) ∧
    (p.lanes ≠ [] →
      (isContext s.cur = false ∨ p.mode = 0 →
        Raises {} (.mstate d w) s p s .privileged 0 0 ∧ Raises {} (.mfill a w) s p s .privileged 0 0) ∧
      (isContext s.cur = true → p.mode ≠ 0 →
        ((here s).frozen = false → Raises {} (.mstate d w) s p s .illegal 0 0 ∧ Raises {} (.mfill a w) s p s .illegal 0 0) ∧
        ((here s).frozen = true →
          (Open s p [] [(d, p.lanes)] → ∀ c' p', writeReg (here s) p d (p.lanes.map fun l =>
            ⟨l, frameWordAt (here s) (l / 8) w.toNat (l % 8), false⟩) = some (c', p') → Writes (.mstate d w) s c' p') ∧
          (Open s p [(a, p.lanes)] [] → Completes {} (.mfill a w) s p
            (((p.lanes.map (· / 8)).eraseDups).foldl (fun u o => relock (coreOf s.cur) ((saveOctet (coreOf s.cur) o u).modCore (coreOf s.cur)
              fun c => { c with frames := c.frames.put o (fillFrame (here s) o w.toNat
                ((p.lanes.filter fun l => l / 8 == o).map fun l => (l % 8, word s p a l))) }) o) s) id))))

/-! ## Moulds, presses and rows (chapters 02, 13 and 14) -/

/-- R23, R246 to R248, R253, R254: FRZ waits for the ply's stores, copies and matrix operations, and then makes a mould in the
lowest free entry: its handle goes to s[D] with q0 = 1, and its image holds q0 = 0 and the next PC, and shares every row; with no
free entry s[D] is 0, and a row that must be copied has its errors found first (R55). DROP of a mould of the own core marks it dropped, and MINFO reports. -/
def Obligations.Moulds : Prop :=
  ∀ (d a : SReg) (g : Guard) (s : State) (p : Ply), Acts s p → guardHolds g p = true →
    let core := coreOf s.cur
    let c := here s
    let idle := storesOut s s.cur p = 0 ∧ copiesOut s s.cur p = 0 ∧ tilesOut s s.cur p = 0
    (¬idle → StandsBack (.frz d g) s) ∧
    (idle → (∀ t, p.wait ≠ .rows t) →
      (freeEntry s core = none → BecomesClosing (.frz d g) s ((p.setS d 0).setQ 0 true)) ∧
      (∀ e, freeEntry s core = some e → c.shareStalls p.a.rows = false → c.shareErrors p.a.rows = true →
        exec (.frz d g) s = .next (findShared core p.a.rows s)) ∧
      ∀ e rows c', freeEntry s core = some e → c.shareStalls p.a.rows = false → c.shareErrors p.a.rows = false → c.shareMap p.a.rows = some (rows, c') →
        let h := mouldHandle core e (c.genOf e) p.ident.rtag
        let image := { ((p.setS d h).setQ 0 false).a with
          pc := p.a.pc + 4, wmsig := p.fedSig (encode (.frz d g)), rows := rows, pins := mapPins p.a.pins fun x => { x with outer := false } }
        let m : Mould :=
          { gen := c.genOf e, rtag := p.ident.rtag, run := p.ident.run, maker := core, slot := e, width := p.width, dropped := false
            exported := false, complete := true, image := image, held := p.held }
        Completes closing (.frz d g) s p ((s.setCore core { c' with moulds := c'.moulds.put e m }).setPly s.cur
          { (p.setS d h).setQ 0 true with kept := none }) id) ∧
    (∀ e m, validMould s s.cur p (p.sreg a) = some (e, m) → m.maker = core →
      Completes closing (.drop a g) s p (settleMould p.ident.run (p.sreg a) ((s.setCore core
        { c with moulds := c.moulds.put e { m with dropped := true } }).setPly s.cur (p.setQ 0 true))) id) ∧
    ((∀ e m, validMould s s.cur p (p.sreg a) = some (e, m) → m.maker ≠ core) → BecomesClosing (.drop a g) s (p.setQ 0 false)) ∧
    Becomes (.minfo d a g) s ((p.setS d (BitVec.ofNat 64 (mouldInfo s s.cur p (p.sreg a)))).setQ 0
      (validMould s s.cur p (p.sreg a)).isSome)

/-- R24, R25, R104, R249 to R252, R311: RSTR of a mould of the own width, once its rows are here (an export on its way holds it and CAST back, the model's choice: log entry
132), takes its image and its rows, and goes on at its PC; an unknown handle raises 0x30, and a ticket of another team or press, another number or an older binding than
the mould recorded 0x42. CAST, a release at core scope, starts an image in the team's lowest free slot with s[B] as SIBIX, and sets
q0; STAMP of n items gives slots to some and queues the rest, or raises 0x32 or 0x33. Before either, the queued items of the run
take its free slots, and before STAMP the teams that have ended retire. -/
def Obligations.MouldsRun : Prop :=
  ∀ (d a b : SReg) (g : Guard) (s : State) (p : Ply) (e : Nat) (m : Mould), Acts s p → guardHolds g p = true →
    let core := coreOf s.cur
    let h := p.sreg a
    let n := (p.sreg b).toNat
    let run := p.ident.run
    (validMould s s.cur p h = none →
      Raises closing (.rstr a g) s p s .mouldHandle 0 0 ∧ Raises {} (.cast d a b g) s p s .mouldHandle 0 0 ∧
      Raises closing (.stamp d a b g) s p s .mouldHandle 0 0) ∧
    (validMould s s.cur p h = some (e, m) →
      (m.width ≠ p.width → Raises closing (.rstr a g) s p s .mouldHandle 0 0) ∧
      let same := ∃ x y, p.held = some x ∧ m.held = some y ∧
        x.team = y.team ∧ x.press = y.press ∧ x.ticket = y.ticket ∧ x.binding = y.binding
      (m.width = p.width → p.held.isSome = true → ¬same → Raises closing (.rstr a g) s p s .ticket 0 0) ∧
      (m.width = p.width → p.held.isSome = false ∨ same →
        (drained s s.cur p = false ∨ m.complete = false → StandsBack (.rstr a g) s) ∧
        (drained s s.cur p = true → m.complete = true →
          let u := s.releaseMap core p.a.rows
          (u.core core).shareStalls m.image.rows = false → (u.core core).shareErrors m.image.rows = false → ∀ rows c', (u.core core).shareMap m.image.rows = some (rows, c') →
            let image := { (if p.held.isSome then m.image else m.image.noTicket) with rows := rows }
            exec (.rstr a g) s = .next ((disarm s.cur ((u.setCore core c').setPly s.cur { went closing (.rstr a g) p m.image.pc with
              a := image, retry := 0, inUi := false, uiDepth := 0, barMark := .none, watched := none, armed := none })).modPly s.cur
                fun q => { (q.keepWords closing (encode (.rstr a g))).closedBy closing with stalled := false }))) ∧
      (let v := placeQueued run s
       (p.mode = 0 → ∀ x xs, freeSlots v p.ident.team = x :: xs →
        ((v.core core).shareStalls m.image.rows = true ∨ m.complete = false → StandsBack (.cast d a b g) s) ∧
        ((v.core core).shareStalls m.image.rows = false → m.complete = true →
          ∀ u, startImage (release s.cur .core v) (agentKey core x) m p.ident none (fun i => { i with sibix := p.sreg b }) = some u →
            Completes {} (.cast d a b g) s p u fun q =>
              (q.setS d (plyid (agentKey core x) (Ply.start v.seq m.width 0 m.image p.ident))).setQ 0 true)) ∧
       (p.mode ≠ 0 ∨ freeSlots v p.ident.team = [] → Completes {} (.cast d a b g) s p (v.setPly s.cur (p.setQ 0 false)) id)) ∧
      (∀ x, makerOf s run h = some x →
        let v := retireDone run (placeQueued run s)
        (n = 0 → BecomesClosing (.stamp d a b g) s p) ∧
        (0 < n → ∀ r, v.run run = some r →
          (((coresLacking v run h).any fun c => (freeEntry v c).isNone) = true → Raises closing (.stamp d a b g) s p v .mouldFull 0 0) ∧
          (((coresLacking v run h).any fun c => (freeEntry v c).isNone) = false →
            let excess := r.stampq.length + (n - (stampSlots v run p.ident.team).length) > r.desc.slim
            (excess → Raises closing (.stamp d a b g) s p v .stampLimit 0 0) ∧
            (¬excess → Completes closing (.stamp d a b g) s p (stampAll v x run p.ident.team h (p.sreg d) n) id)))))

/-- R30 to R33, R231: stage 0 is ready while tickets are left and the last stage is less than D behind, a later one while it is behind
the stage before it, and any that holds a handed-back ticket; a press is finished when the last stage has issued N tickets and none
is handed back. The dispatcher draws from a ready stage, store before compute before load and of one role the later stage, and
finds none only when no stage is ready. PTKT takes the ticket that it draws, with its role, slot and phase; it ends with ROLE 0 and
q0 on a broken or a finished press, parks while nothing can be drawn, and raises 0x41 on an unbound press and 0x42 for a holder (the model's choice of the order: 0x41, then
0x42, and only then a broken or finished press, log entry 111).
PDONE, whose accesses before it are performed at core scope, turns its stage's phase bit of the slot, and PQUIT hands the ticket
back. PWAIT ends with q0 = 0 on a broken slot, else with q0 = 1 when the phase bit of the stage before, at the slot, is not PHASE,
or for stage 0 when that of the last stage is PHASE or the ticket is below D; else it parks. -/
def Obligations.Tickets : Prop :=
  (∀ (x : Press),
    let role := fun (j : Nat) => (x.roles.getD j 0).toNat
    let issued := fun (j : Nat) => x.tumblers.getD j 0
    let handed := fun (j : Nat) => x.back.getD j [] ≠ []
    (x.ready 0 = true ↔ handed 0 ∨ (issued 0 < x.n ∧ issued 0 < issued (x.nst - 1) + x.depth)) ∧
    (∀ j, x.ready (j + 1) = true ↔ handed (j + 1) ∨ issued (j + 1) < issued j) ∧
    (x.finished = true ↔ issued (x.nst - 1) = x.n ∧ ∀ l ∈ x.back, l = []) ∧ (x.broken = true ↔ x.brokenSlots ≠ []) ∧
    (∀ h : Held,
      let slot := h.ticket % x.depth
      let phase := h.ticket / x.depth % 2 == 1
      let bit := fun (j : Nat) => (x.phases.getD j []).getD slot false
      (slot ∈ x.brokenSlots → x.waited h = some false) ∧
      (slot ∉ x.brokenSlots → h.stage = 0 → x.waited h =
        if h.ticket < x.depth ∨ bit (x.nst - 1) = phase then some true else none) ∧
      (slot ∉ x.brokenSlots → h.stage ≠ 0 → x.waited h = if bit (h.stage - 1) ≠ phase then some true else none)) ∧
    (∀ j, x.choice = some j → j < x.nst ∧ x.ready j = true ∧
      ∀ i, i < x.nst → x.ready i = true → role i < role j ∨ (role i = role j ∧ i ≤ j)) ∧
    (x.choice = none ↔ ∀ i, i < x.nst → x.ready i = false) ∧
    (∀ j, x.ready j = true → x.handedBack j = [] → j < x.tumblers.length →
      (x.draw j).1 = x.tumbler j ∧ (x.draw j).2.tumbler j = x.tumbler j + 1) ∧
    (∀ j t ts, x.handedBack j = t :: ts → j < x.back.length → (x.draw j).1 = t ∧ (x.draw j).2.handedBack j = ts)) ∧
  (∀ (n : BitVec 3) (g : Guard) (s : State) (p : Ply), Acts s p → guardHolds g p = true →
    let t := p.ident.team
    (pressOf s p n.toNat = none → Raises closing (.ptkt n g) s p s .pressUnbound 0 0 ∧ Raises closing (.pdone n g) s p s .pressUnbound 0 0 ∧
      Raises closing (.pwait n g) s p s .pressUnbound 0 0 ∧ Raises closing (.pquit n g) s p s .pressUnbound 0 0) ∧
    (∀ x, pressOf s p n.toNat = some x →
      (p.held.isSome = true → Raises closing (.ptkt n g) s p s .ticket 0 0) ∧
      (p.held = none →
        (x.broken = true → BecomesClosing (.ptkt n g) s ((p.setRole 0).setQ 0 false)) ∧
        (x.broken = false → x.finished = true → BecomesClosing (.ptkt n g) s ((p.setRole 0).setQ 0 true)) ∧
        (x.broken = false → x.finished = false →
          (x.choice = none → Parks closing (.ptkt n g) s s .parked (.ptkt n)) ∧
          ∀ j, x.choice = some j →
            let k := (x.draw j).1
            Completes closing (.ptkt n g) s p (settlePress t n.toNat ((s.setPly s.cur ({ p with
              held := some ⟨t, n.toNat, j, k, x.binding⟩
              a := { p.a with role := x.roles.getD j 0, ticket := BitVec.ofNat 32 k, slotIx := BitVec.ofNat 4 (k % x.depth)
                              phase := decide (k / x.depth % 2 = 1) } }.setQ 0 true)).setPress t n.toNat (x.draw j).2)) id)) ∧
      (heldOf p n.toNat x = none → Raises closing (.pdone n g) s p s .ticket 0 0 ∧ Raises closing (.pwait n g) s p s .ticket 0 0 ∧
        Raises closing (.pquit n g) s p s .ticket 0 0) ∧
      ∀ h, heldOf p n.toNat x = some h →
        let slot := h.ticket % x.depth
        let bits := x.phases.getD h.stage []
        (x.brokenSlots.contains slot = true → Raises closing (.pdone n g) s p s .pressBroken 0 0) ∧
        (x.brokenSlots.contains slot = false → Completes closing (.pdone n g) s p (settlePress t n.toNat
          (((release s.cur .core s).setPly s.cur { p.setRole 0 with held := none }).setPress t n.toNat
            { x with phases := x.phases.set h.stage (bits.set slot (!bits.getD slot false)) })) id) ∧
        Completes closing (.pquit n g) s p (settlePress t n.toNat ((s.setPly s.cur { p.setRole 0 with held := none }).setPress t n.toNat
          { x with back := x.back.set h.stage ((x.handedBack h.stage).add h.ticket) })) id ∧
        (∀ b, x.waited h = some b → BecomesClosing (.pwait n g) s (p.setQ 0 b)) ∧
        (x.waited h = none → Parks closing (.pwait n g) s s .parked (.pwait n))))

/-- R46, R49, R53, R232: GIVE of vN to v63 waits while one of their rows is pending or locked, releases their rows and leaves the
registers Given: the count of a row falls by the times that they map it, and at 0 the row is free; of the core nothing else changes
but the set of retired rows. CLAIM maps w/8 zero-filled rows that were free, each with a count of 1, to each of them that is Given,
all or none, and parks on rows where the pool cannot supply them; no row that was held changes. Neither touches a lower register. -/
def Obligations.GiveAndClaim : Prop :=
  ∀ (d : VReg) (g : Guard) (s : State) (p : Ply), Acts s p → guardHolds g p = true →
    let high := (List.range (64 - d.toNat)).map fun j => d + BitVec.ofNat 6 j
    let held := high.any fun r => (entryRows (p.entry r)).any fun n => (here s).pending n || (here s).locked n
    (held = true → StandsBack (.give d g) s) ∧
    (held = false →
      let rows := fun (e : Nat → RowEntry) => Vector.ofFn fun j : Fin 64 => e j
      let gone := rows fun j => if d.toNat ≤ j then p.a.rows.toList.getD j .zero else .zero
      let t := s.releaseMap (coreOf s.cur) gone
      exec (.give d g) s = .next (t.setPly s.cur (pastClosing (.give d g) { p with a := { p.a with
        rows := rows fun j => if d.toNat ≤ j then .given else p.a.rows.toList.getD j .zero } })) ∧
      (∀ k, t.ply k = s.ply k) ∧ (∀ k, k ≠ coreOf s.cur → t.core k = s.core k) ∧
      t.core (coreOf s.cur) = { here s with rows := (t.core (coreOf s.cur)).rows, retiredRows := (t.core (coreOf s.cur)).retiredRows } ∧
      ∀ n, let uses := ((high.flatMap fun r => entryRows (p.entry r)).filter (· == n)).length
        (t.core (coreOf s.cur)).rows.find n = ((here s).rows.find n).bind fun r =>
          if uses = 0 ∨ uses < r.count then some { r with count := r.count - uses } else none) ∧
    (claimAll (here s) p (high.filter fun r => p.entry r == .given) = none → (∀ t, p.wait ≠ .rows t) →
      Parks closing (.claim d g) s s .parked (.rows s.cycle)) ∧
    (∀ c q, claimAll (here s) p (high.filter fun r => p.entry r == .given) = some (c, q) →
      exec (.claim d g) s = .next ((s.setCore (coreOf s.cur) c).setPly s.cur (pastClosing (.claim d g) q)) ∧
      (∀ r : VReg, r < d → q.entry r = p.entry r) ∧ (∀ r : VReg, p.entry r ≠ .given → q.entry r = p.entry r) ∧
      (∀ r : VReg, d ≤ r → q.entry r ≠ .given) ∧
      (∀ r : VReg, d ≤ r → p.entry r = .given → ∃ ns, q.entry r = .mapped ns ∧ ns.length = p.width / 8 ∧
        ∀ n ∈ ns, (here s).rows.find n = none ∧ c.rows.find n = some ⟨Vector.replicate 8 0, 1, 0, 0, 0, false⟩) ∧
      (∀ n r, (here s).rows.find n = some r → c.rows.find n = some r))

/-! ## Queues, barriers and latches (chapters 06, 13 and 17) -/

/-- R34, R104, R233 to R235, R283: a queue operation on a queue that the engine holds. QCNT writes the entries stored; QPOP takes the
oldest into s[D..D+3], and parks on an empty queue; QPOPT takes it with q0 = 1, or sets q0 = 0 and a watch; QPOPL takes an entry for
each active lane of p[B] in lane order, while there is one: word j of a lane's entry lands in v[D+j] of the lane, whose rows stay
pending, and p[B] keeps the lanes that receive one. With no such lane it completes at once and writes nothing. Taking is an acquire
at package scope. -/
def Obligations.QueuePops : Prop :=
  (∀ (a : SReg) (v : VReg) (pb : PReg) (g : Guard) (s : State) (p : Ply), Acts s p → guardHolds g p = true →
    lanesOf (p.a.em &&& p.preg pb) = [] → BecomesClosing (.qpopl v a pb g) s p) ∧
  ∀ (d a : SReg) (v : VReg) (pb : PReg) (g : Guard) (s : State) (p : Ply) (spot : Spot) (t : State) (q : Queue), Acts s p →
    guardHolds g p = true → LandsAt s p { need := .read, bytes := 64, reach := .atomic } (p.sreg a) spot t →
    t.queues.find spot.at_ = some q →
    let q := q.usedBy t p.ident.run
    let u := putQueue spot.at_ q t
    let n := (q.tail - q.head).toNat
    Completes {} (.qcnt d a g) s p (u.modPly u.cur fun y => y.setS d (q.tail - q.head)) id ∧
    (n = 0 →
      Parks closing (.qpop d a g) s (putQueue spot.at_
        { q with waiters := (q.waiters.filter fun w => !(w.ply == u.cur && w.uid == p.uid)) ++ [⟨u.cur, p.uid⟩] } u)
        .parked (.queue spot.at_ d false) ∧
      Completes closing (.qpopt d a g) s p
        (u.modPly u.cur fun y => { y.setQ 0 false with watched := some (spot.at_, p.sreg a) }) id) ∧
    (n ≠ 0 → ∀ x t', EntriesLand p q .read 1 q.head u [x] t' →
      let r := homeRead (coreOf t'.cur) (viewer t'.cur p).tenant x 32 t'
      r.1.error = none →
      let taken := acquire (coreOf t'.cur) .package (putQueue spot.at_ (q.pop 1) r.2)
      let put := fun (y : Ply) => y.setEntry4 d (entryWords r.1.bytes)
      Completes closing (.qpop d a g) s p (taken.modPly taken.cur put) id ∧
      Completes closing (.qpopt d a g) s p (taken.modPly taken.cur fun y => { (put y).setQ 0 true with watched := none }) id) ∧
    let m := p.a.em &&& p.preg pb
    let ls := lanesOf m
    let rs := regList v 8
    ls ≠ [] → Open s p [] (rs.map fun r => (r, ls)) →
      (n = 0 → Completes closing (.qpopl v a pb g) s p u fun y => y.setP pb m 0) ∧
      (n ≠ 0 → (prepareRegs (u.core (coreOf u.cur)) p (ls.take n) rs).isSome = true →
        ∀ xs t', EntriesLand p q .read (ls.take n).length q.head u xs t' →
        let got := ls.take n
        let r := readEntries (coreOf t'.cur) (viewer t'.cur p).tenant xs t'
        (∀ i ∈ r.1, i.error = none) → ∀ y p', prepareRegs (r.2.core (coreOf t'.cur)) p got rs = some (y, p') →
        let ps : List Piece := rs.zipIdx.flatMap fun (x, j) => got.zipIdx.filterMap fun (l, k) => (rowOf (p'.entry x) l).map fun row =>
          ⟨row, l, BitVec.ofNat 32 (leBytes ((r.1.map (·.bytes)).getD k []) (4 * j) 4), false⟩
        let flight := { Flight.issue r.2 r.2.cur p false with rows := pieceRows ps, pieces := ps }
        let taken := (takeRows r.2.cur p' (r.2.setCore (coreOf t'.cur) { y with loads := y.loads ++ [flight] })).bump
        Completes closing (.qpopl v a pb g) s p (acquire (coreOf t'.cur) .package (putQueue spot.at_ (q.pop got.length) taken))
          fun y => y.setP pb m (maskOf got))

/-- R35, R103, R236, R281, R299: a push is a release at package scope and enters the sender's window, which holds 8 entries of a die;
with no room a QPUSH stands back. QPUSHL reads v[D] to v[D+7] as it issues and pushes an entry of these eight words for each active
lane of p[B], in lane order, and holds its ply while some of them wait for the window; with no such lane it does nothing. The
mailbox forms reach a ring by number, with q0 = 1; a number above 63 raises 0x45, and a ring across a lost die link 0x47 (R313). -/
def Obligations.QueuePushes : Prop :=
  ∀ (d a : SReg) (v : VReg) (pb : PReg) (g : Guard) (s : State) (p : Ply), Acts s p → guardHolds g p = true →
    let entry := [p.sreg d, p.sreg (d + 1), p.sreg (d + 2), p.sreg (d + 3)]
    let lanes := lanesOf (p.a.em &&& p.preg pb)
    (∀ spot t q, LandsAt s p { need := .read, bytes := 64, reach := .atomic } (p.sreg a) spot t →
      t.queues.find spot.at_ = some q →
      let q := q.usedBy t p.ident.run
      let u := putQueue spot.at_ q t
      (windowRoom s p.uid (dieOfPa spot.at_) = 0 → StandsBack (.qpush d a g) s) ∧
      (windowRoom s p.uid (dieOfPa spot.at_) ≠ 0 → Pushes closing (.qpush d a g) spot.at_ q [entry] s p u id) ∧
      (Open s p ((regList v 8).map fun r => (r, p.lanes)) [] → lanes ≠ [] →
        Pushes closing (.qpushl v a pb g) spot.at_ q
          (lanes.map fun l => (List.range 4).map fun j => word s p (nthReg v (2 * j + 1)) l ++ word s p (nthReg v (2 * j)) l) s p u id)) ∧
    (Open s p ((regList v 8).map fun r => (r, p.lanes)) [] → lanes = [] →
      BecomesClosing (.qpushl v a pb g) s p) ∧
    (64 ≤ (p.sreg a).toNat → Raises {} (.mboxSend d a g) s p s .queueBad 0 0 ∧ Raises {} (.mboxRecv d a g) s p s .queueBad 0 0 ∧
      Raises {} (.mboxPeek d a g) s p s .queueBad 0 0) ∧
    ((p.sreg a).toNat < 64 → linkDown s (viewer s.cur p).requester.die (dieOfPa (ringPlace s (p.sreg a).toNat)) = true →
      Raises {} (.mboxSend d a g) s p s .linkLoss 0 0 ∧ Raises {} (.mboxRecv d a g) s p s .linkLoss 0 0 ∧
      Raises {} (.mboxPeek d a g) s p s .linkLoss 0 0) ∧
    ((p.sreg a).toNat < 64 → ∀ q, let x := ringPlace s (p.sreg a).toNat
      linkDown s (viewer s.cur p).requester.die (dieOfPa x) = false → s.queues.find x = some q → q.kind = .ring (p.sreg a).toNat →
      (windowRoom s p.uid (dieOfPa x) = 0 → StandsBack (.mboxSend d a g) s) ∧
      (windowRoom s p.uid (dieOfPa x) ≠ 0 → Pushes {} (.mboxSend d a g) x q [entry] s p s fun y => y.setQ 0 true) ∧
      (q.count = 0 → Becomes (.mboxPeek d a g) s (p.setQ 0 false) ∧
        Parks {} (.mboxRecv d a g) s (putQueue x
          { q with waiters := (q.waiters.filter fun w => !(w.ply == s.cur && w.uid == p.uid)) ++ [⟨s.cur, p.uid⟩] } s)
          .parked (.queue x d true)) ∧
      (q.count ≠ 0 → let r := homeRead (coreOf s.cur) (viewer s.cur p).tenant (placeOf s.io (q.entryVa q.head).toNat) 32 s
        r.1.error = none →
        let put := fun (y : Ply) => (y.setEntry4 d (entryWords r.1.bytes)).setQ 0 true
        Completes {} (.mboxPeek d a g) s p (r.2.modPly r.2.cur put) id ∧
        (let taken := acquire (coreOf s.cur) .package (putQueue x (q.pop 1) r.2)
         Completes {} (.mboxRecv d a g) s p (taken.modPly taken.cur put) id)))

/-- R34, R35, R236, R310: what the queue engine does with the entries of a window. The oldest on its way is dropped while another
is awaited; else it is handed to the oldest parked ply, or stored, or, with the ring full, dropped and awaited. A NACK starts the
sender's back-off, whose end sends again what was not taken, and an ACK frees the oldest entry once it is taken, so that what was
held for want of room is sent. -/
def Obligations.QueueEngine : Prop :=
  ∀ (sender desc : Nat) (s : State) (w : Window), findWindow s sender (dieOfPa desc) = some w →
    (∀ e, w.entries.find? (·.flying) = some e →
      (w.awaited.any (· != e.seq) = true → exec (.queueEntryArrival sender desc) s =
        .next (setWindow { w with entries := w.entries.map fun y => if y.seq = e.seq then { y with flying := false } else y } s)) ∧
      (w.awaited.any (· != e.seq) = false → ∀ x kind q0, pendingPlace s w.sender e = some (x, kind) → kind.unset s = false →
        s.queues.find x = some q0 →
        let q := q0.usedBy s w.run
        let taken := { w with
          awaited := none, entries := w.entries.map fun y => if y.seq = e.seq then { y with flying := false, taken := true } else y }
        (∀ k d m, oldestWaiter s x q.waiters = some (k, d, m) → exec (.queueEntryArrival sender desc) s =
          .next (setWindow taken (endWatches x (handOver k d m e.data (noteRecord kind w.sender q (putQueue x
            { q with head := q.head + 1, tail := q.tail + 1, waiters := q.waiters.filter (·.ply != k) } s)))))) ∧
        (oldestWaiter s x q.waiters = none → 2 ^ q.logd ≤ q.count → exec (.queueEntryArrival sender desc) s =
          .next (setWindow { w with
            awaited := some e.seq
            entries := w.entries.map fun y => if y.seq = e.seq then { y with flying := false, dropped := true } else y } s)) ∧
        (∀ a u, oldestWaiter s x q.waiters = none → q.count < 2 ^ q.logd → storePlace w.who q s = (some a, u) →
          exec (.queueEntryArrival sender desc) s = .next (setWindow taken (endWatches x (notifyRing kind w.sender q
            (writeAt a (entryBytes e.data) none (combineLine (lineOf a) (touchPlace .normal a (putQueue x
              { q with tail := q.tail + 1
                       pushers := match kind with | .submission _ => q.pushers ++ [pusherOf u w] | _ => [] } u)))))))))) ∧
    (w.entries.any (·.dropped) = true → exec (.queueNack sender desc) s =
      .next (setWindow { w with entries := w.entries.map fun e => { e with dropped := false }, backoff := true } s)) ∧
    (w.backoff = true → exec (.queueBackoff sender desc) s =
      .next (setWindow { w with entries := w.entries.map fun e => { e with flying := !e.taken }, backoff := false } s)) ∧
    ∀ e rest, w.entries = e :: rest → e.taken = true →
      let sends := fun (u : State) => exec (.queueAck sender desc) s = .next (enterWaiting w.ply w.sender (sendHeld w.sender w.die 8 u))
      (rest = [] → sends (dropWindow w s)) ∧ (rest ≠ [] → sends (setWindow { w with entries := rest } s))

/-- R238 to R240, R278 to R280: an arrival with a count n from 1 to 65,535, the team's number of plies by default at core scope,
is a release; while arrivals stand it must agree with theirs, or raises 0x43. The n-th of a phase advances PH and makes CNT 0,
and wakes the waiters; s[D] takes the PH that it arrived in. BARAW arrives and waits for its phase, or, when the ply's mark says that it
has arrived before an interruption (the model's choice of what marks it, log entry 64), only waits; BARW waits for s[D]'s phase and
writes PH. A count of 0 or above 65,535, and no count at a wider scope, raises 0x43 in both. What another package sends is an arrival or
a completion (the model's choice, log entry 34). -/
def Obligations.Barriers : Prop :=
  (∀ (bar : BitVec 4) (e : Scope) (a d : SReg) (g : Guard) (s : State) (p : Ply) (b : Barrier), Acts s p → guardHolds g p = true →
    getBar s p (coreOf s.cur) bar e = some b →
    let core := coreOf s.cur
    let again := p.barMark.valid = true ∧ p.barMark.inUi = p.inUi ∧ p.barMark.id = bar ∧ p.barMark.scope = e.bits
    let wanted : BitVec 32 := (p.sreg d).setWidth 32
    let passed := 1 ≤ (b.ph - wanted).toNat ∧ (b.ph - wanted).toNat ≤ 2 ^ 31
    let unmarked := s.setPly s.cur { p with barMark := .none }
    (∀ n : Nat, 1 ≤ n → n ≤ 65535 →
      (if a = 0 then e = .core ∧ (s.run p.ident.run).map (·.desc.plies) = some n else (p.sreg a).toNat = n) →
      (b.cnt ≠ 0 ∧ n ≠ b.exp → Raises closing (.bara bar e a d g) s p s .barrierCount 0 0 ∧
        (¬again → Raises closing (.baraw bar e a d g) s p s .barrierCount 0 0)) ∧
      (b.cnt = 0 ∨ n = b.exp →
        let b' : Barrier := if b.cnt + 1 = n then ⟨b.ph + 1, 0, n⟩ else ⟨b.ph, b.cnt + 1, n⟩
        let u := arrivedBar s p bar e b b' n d
        Completes closing (.bara bar e a d g) s p u id ∧
        (¬again → b.cnt + 1 = n → Completes closing (.baraw bar e a d g) s p
          (acquire (coreOf u.cur) e (u.modPly u.cur fun q => { q with barMark := .none })) id) ∧
        (¬again → b.cnt + 1 ≠ n → Parks closing (.baraw bar e a d g) s
          (u.modPly u.cur fun q => { q with barMark := ⟨true, bar, e.bits, b.ph, q.inUi⟩ }) .parked (.barrier bar e b.ph none)))) ∧
    (a ≠ 0 ∧ ((p.sreg a).toNat = 0 ∨ 65535 < (p.sreg a).toNat) ∨ a = 0 ∧ e ≠ .core →
      Raises closing (.bara bar e a d g) s p s .barrierCount 0 0 ∧
      (¬again → Raises closing (.baraw bar e a d g) s p s .barrierCount 0 0)) ∧
    (again → passed → Completes closing (.baraw bar e a d g) s p (acquire core e unmarked) id) ∧
    (again → ¬passed → Parks closing (.baraw bar e a d g) s (s.setPly s.cur { p with barMark := ⟨true, bar, e.bits, wanted, p.inUi⟩ })
      .parked (.barrier bar e wanted none)) ∧
    (passed → Completes closing (.barw bar e d g) s p
      (acquire core e (s.setPly s.cur (({ p with barMark := .none } : Ply).setS d (b.ph.setWidth 64)))) id) ∧
    (¬passed → Parks closing (.barw bar e d g) s unmarked .parked (.barrier bar e wanted (some d)))) ∧
  ∀ (run : Nat) (id : BitVec 4) (n : Nat) (s : State) (r : Run), s.run run = some r → s.io.podOn = true →
    let key := id.toNat + 64
    let b := r.bars.getD key ⟨0, 0, 0⟩
    let put := fun (x : Barrier) => settleBar run 0 id .pod 0 x.ph (s.setRun run { r with bars := r.bars.put key x })
    (1 ≤ n → n ≤ 65535 → b.cnt = 0 ∨ n = b.exp → exec (.podBarrierMessage run id (.arrival n)) s =
      .next (put (if b.cnt + 1 = n then ⟨b.ph + 1, 0, n⟩ else ⟨b.ph, b.cnt + 1, n⟩))) ∧
    (b.cnt ≠ 0 → exec (.podBarrierMessage run id .complete) s = .next (put ⟨b.ph + 1, 0, b.exp⟩))

/-- R113, R241, R242, R363, R364: at a latch word's key, 8-byte aligned and below 2^57, LWAIT takes one from COUNT, an acquire, or
waits last; the arming form sets q0, or arms the ply; LWAKE, a release, wakes the oldest waiter, or with `.int` interrupts the
oldest armed ply that enables it, or raises COUNT up to 65,535. A function's writes of its aperture do the same for its tenant,
and, by the model's choice (log entry 87), are dropped when the function is not usable; a host waiter that LWAKE reaches has its status 2
and is told; a host whose key finds the table full waits for an entry behind those that wait already. A write of WAKE with k[2:1] or
k[63:57] nonzero is dropped, by the model's choice (log entry 80), and a clamped LWAIT is noted as it issues (log entry 122). -/
def Obligations.Latches : Prop :=
  (∀ (a : SReg) (g : Guard) (s : State) (p : Ply), Acts s p → guardHolds g p = true →
    let va := p.sreg a
    let key := latchKeyOf p.ident.tenant va
    let u := noteClamp s.cur .system s
    let l := u.latch key
    let all := fun (P : Instr → Prop) => P (.lwait a g) ∧ P (.lwaitArm a g) ∧ P (.lwake a g) ∧ P (.lwakeInt a g)
    (va.toNat % 8 ≠ 0 → all fun i => Raises closing i s p s .misaligned va 0) ∧
    (va.toNat % 8 = 0 → 2 ^ 57 ≤ va.toNat → all fun i => Raises closing i s p s .protection va 0) ∧
    (va.toNat % 8 = 0 → va.toNat < 2 ^ 57 →
      (clampTraps p .system = true → all fun i => Raises closing i s p s .clamped 0 0) ∧
      (clampTraps p .system = false → latchFull s key = true → all fun i => StandsBack i s) ∧
      (clampTraps p .system = false → latchFull s key = false →
        let taken := acquire (coreOf u.cur) .system (u.putLatch key { l with count := l.count - 1 })
        (l.count ≠ 0 → Completes closing (.lwait a g) s p taken id ∧
          Completes closing (.lwaitArm a g) s p (taken.modPly u.cur fun q => q.setQ 0 true) id) ∧
        (l.count = 0 →
          Parks closing (.lwait a g) s (u.putLatch key { l with waiters := l.waiters ++ [.ply u.cur] }) .parked (.latch key) ∧
          Completes closing (.lwaitArm a g) s p
            (let v := disarm u.cur u
             (v.putLatch key { v.latch key with armed := (v.latch key).armed ++ [v.cur] }).modPly v.cur
               fun q => { q.setQ 0 false with armed := some va }) id) ∧
        Completes closing (.lwake a g) s p (wakeLatch key false (release s.cur .system u)) id ∧
        Completes closing (.lwakeInt a g) s p (wakeLatch key true (release s.cur .system u)) id))) ∧
  (∀ (key : Nat) (int : Bool) (s : State),
    let l := s.latch key
    (∀ k rest, l.waiters = .ply k :: rest →
      wakeLatch key int s = acquire (coreOf k) .system ((s.putLatch key { l with waiters := rest }).modPly k Ply.wakeDone)) ∧
    (∀ vf n rest, l.waiters = .host vf n :: rest →
      let u := s.putLatch key { l with waiters := rest }
      let i := vf * 64 + n
      wakeLatch key int s = { u with
        outbox := u.outbox ++ [.latchSeen vf n]
        io := { u.io with waiters := match u.io.waiters.find i with
          | some w => u.io.waiters.put i { w with status := 2 } | none => u.io.waiters } }) ∧
    (l.waiters = [] → int = false ∨ armedPly s l.armed = none →
      wakeLatch key int s = s.putLatch key { l with count := min 65535 (l.count + 1) }) ∧
    (l.waiters = [] → int = true → ∀ k, armedPly s l.armed = some k →
      wakeLatch key int s = (s.putLatch key { l with armed := l.armed.filter (· != k) }).modPly k fun p =>
        { p with armed := none, pendLwake := true })) ∧
  ∀ (vf n : Nat) (k : BitVec 64) (s : State), vf < 64 → s.io.readyHost = true → inboundAhead s vf = false →
    (functionTenant s vf = none →
      exec (.latchWake vf k) s = .next s ∧ exec (.latchKey vf n k) s = .next s ∧ exec (.latchStatus vf n) s = .next s) ∧
    ∀ t, functionTenant s vf = some t →
      let w := waiterOf s vf n
      let key := latchKeyOf (some t) k
      let l := s.latch key
      (2 ≤ k.toNat % 8 ∨ 2 ^ 57 ≤ k.toNat → exec (.latchWake vf k) s = .next s) ∧
      (k.toNat % 8 < 2 → k.toNat < 2 ^ 57 → latchFull s (latchKeyOf (some t) (k &&& ~~~7#64)) = false →
        exec (.latchWake vf k) s = .next (wakeLatch (latchKeyOf (some t) (k &&& ~~~7#64)) (k.getLsbD 0) s)) ∧
      (n < 63 →
        (w.status ≠ 0 → exec (.latchKey vf n k) s = .next s) ∧
        (w.status = 0 → k.toNat % 8 ≠ 0 ∨ 2 ^ 57 ≤ k.toNat → exec (.latchKey vf n k) s = .next (setWaiter vf n ⟨0, 3⟩ s)) ∧
        (w.status = 0 → k.toNat % 8 = 0 → k.toNat < 2 ^ 57 →
          let put := fun (x : Option Latch) => { s with latches := s.latches.set key x }
          let less := { l with count := l.count - 1 }
          let answers := fun (st : BitVec 2) (u : State) =>
            exec (.latchKey vf n k) s = .next (joined (setWaiter vf n ⟨BitVec.ofNat 64 key, st⟩ u))
          (latchFull s key = true → let u := setWaiter vf n ⟨BitVec.ofNat 64 key, 1⟩ s
            exec (.latchKey vf n k) s = .next { u with io := { u.io with keyq := u.io.keyq ++ [64 * vf + n] } }) ∧
          (latchFull s key = false →
            (l.count ≠ 0 → answers 2 (put (if less.idle = true then none else some less))) ∧
            (l.count = 0 → answers 1 (put (some { l with waiters := l.waiters ++ [.host vf n] }))))) ∧
        (w.status ≠ 1 → exec (.latchStatus vf n) s = .next (setWaiter vf n ⟨0, 0⟩ s)) ∧
        (w.status = 1 → ∀ x, s.latches.find w.key.toNat = some x → exec (.latchStatus vf n) s =
          .next ((setWaiter vf n ⟨0, 0⟩ s).putLatch w.key.toNat { x with waiters := x.waiters.filter (· != .host vf n) })))

/-! ## Control words, regions and halted plies (chapters 02, 14, 15 and 21) -/

/-- R36, R244, R245: NOP only goes on. YLD yields its slot until c[CR] is at most 0, and goes on at once when it is. TRAP n takes
0x70 + n and SYSC 0x65 after themselves, and BRK 0x08 before itself. EXIT, once the ply has no loads and no matrix operations in
flight, leaves the slot. IRET returns to UIEPC with UIEM, or takes 0x44 before itself. -/
def Obligations.ControlWords : Prop :=
  ∀ (c : CReg) (n : BitVec 4) (g : Guard) (s : State) (p : Ply), Acts s p → guardHolds g p = true →
    Becomes (.nop g) s p ∧
    ((p.creg c).toInt ≤ 0 → BecomesClosing (.yld c g) s p) ∧
    (0 < (p.creg c).toInt → Parks closing (.yld c g) s s .yielded (.copy c true)) ∧
    CompletesThenRaises {} (.trap n g) s p s (.trap n) ∧ (Cause.trap n).code.toNat = 0x70 + n.toNat ∧
    CompletesThenRaises closing (.sysc g) s p s .service ∧ Raises {} (.brk g) s p s .brk 0 0 ∧
    (loadsOut s s.cur p = 0 → tilesOut s s.cur p = 0 → exec (.exit g) s = .next ((endPly s.cur s).modPly s.cur fun q =>
      { (q.keepWords closing (encode (.exit g))).closedBy closing with stalled := false })) ∧
    (loadsOut s s.cur p ≠ 0 ∨ tilesOut s s.cur p ≠ 0 → StandsBack (.exit g) s) ∧
    (p.inUi = false ∨ p.a.knuckles.length ≠ p.uiDepth → Raises unfed (.iret g) s p s .reconverge 0 0) ∧
    (p.inUi = true → p.a.knuckles.length = p.uiDepth → Goes (.iret g) s { p with
      inUi := false
      a := { p.a with em := p.uiem &&& allLanes p.width, pins := mapPins p.a.pins fun x => { x with outer := false } } }
      (alignPc p.uiepc))

/-- R256 to R262: IREG opens a region at the next word, with EM and the watermark as they stand after its own contribution, or
takes 0x0A under open divergence; its closing form closes the region. WMK, outside a user interrupt, resets a watermark that
agrees and takes 0x51 for one that does not. A retry, once every count is zero, runs the region again: it restores EM and the
watermark, empties the knuckle stack, invalidates the pins and counts in RETRY. -/
def Obligations.Regions : Prop :=
  (∀ (sig : BitVec 16) (g : Guard) (s : State) (p : Ply), Acts s p → guardHolds g p = true →
    (p.diverged = true → Raises {} (.ireg g) s p s .emDiverged 0 0) ∧
    (p.diverged = false → Becomes (.ireg g) s { p with
      region := p.a.pc + 4, retry := 0, regEm := p.a.em, regMask := p.a.wmmask
      regSig := if p.inUi then p.a.wmsig else crcBytes p.a.wmsig (wordBytes (encode (.ireg g))) }) ∧
    Becomes (.iregClose g) s { p with region := 0 } ∧
    (p.inUi = true → Goes (.wmk sig g) s p (p.a.pc + 4)) ∧
    (p.inUi = false → p.a.wmsig = sig →
      Goes (.wmk sig g) s { p with a := { p.a with wmsig := 0xFFFF, wmmask := 0xFFFF } } (p.a.pc + 4)) ∧
    (p.inUi = false → p.a.wmsig ≠ sig → Raises unfed (.wmk sig g) s p s .watermark 0 0)) ∧
  ∀ (k : Nat) (c : Cause) (s : State) (p : Ply), s.ply k = some p → p.wait = .retry c → drained s k p = true →
    exec (.regionRetry k) s = .next (checkRecord k p 8 (p.retry.toNat + 1) (p.region.setWidth 64) (s.setPly k { p with
      retry := p.retry + 1, wait := .none, words := [], stalled := false, unfinished := none, fullEm := none
      a := { p.a with em := p.regEm, knuckles := [], pins := mapPins p.a.pins fun x => { x with valid := false }
                      wmsig := p.regSig, wmmask := p.regMask, pc := p.region } }))

/-- R290, R341, Tables 21-4 and 21-5: each PLYX form of a context ply acts on the Halted ply of slot HSLOT and sets q0 to 1; any
other issuer, or a slot that is not Halted, only sets q0 to 0. The lane forms place the slot's lanes at its home lane; a Given
register, or for a write one that waits for a replay, gives q0 = 0. An unlisted special register raises 0x09, and a packed word
that Table 21-5 does not list gives q0 = 0. What is written in a knuckle word is read back, a PC with its low two bits zero (R115). A
read that meets a row with bit errors settles them first (R55). The model's choices: an entry above the depth keeps what was written
(log entry 48); words 68 and 69 translate and arm anew (log entry 49). -/
def Obligations.HaltedPlies : Prop :=
  ∀ (d a : SReg) (u v : VReg) (n : BitVec 12) (g : Guard) (s : State) (p : Ply), Acts s p → guardHolds g p = true →
    let k := slotKey s.cur p
    let ok := fun (q : Ply) => q.setQ 0 true
    let w := field (p.sreg a) 0 7
    (isContext s.cur = false ∨ (∀ t, hslotPly s s.cur p = some t → t.state ≠ .halted) →
      ∀ i ∈ [Instr.xrds d a g, .xwrs d a g, .xrdv u v g, .xwrv u v g, .xrdsp d n g, .xwrsp d n g, .xrpk d a g, .xwpk d a g],
        Becomes i s (p.setQ 0 false)) ∧
    ∀ t, isContext s.cur = true → hslotPly s s.cur p = some t → t.state = .halted →
      let c := s.core (coreOf k)
      let h := homeLane k t.width
      let ls := reachedLanes k p t
      Becomes (.xrds d a g) s (ok (p.setS d (t.sreg a))) ∧
      Completes {} (.xwrs d a g) s p (s.setPly k (t.setS d (p.sreg a))) ok ∧
      (∀ x, readSpecial s k t n.toNat = some x → Becomes (.xrdsp d n g) s (ok (p.setS d x))) ∧
      (readSpecial s k t n.toNat = none → Raises {} (.xrdsp d n g) s p s .specialReg 0 0) ∧
      (∀ t', foreignWrite t n.toNat (p.sreg d) = .done t' → Completes {} (.xwrsp d n g) s p (s.setPly k t') ok) ∧
      (∀ x, foreignWrite t n.toNat (p.sreg d) = .cause x → Raises {} (.xwrsp d n g) s p s x 0 0) ∧
      Becomes (.xrpk d a g) s ((p.setS d (packedRead c t w)).setQ 0 (w < 74)) ∧
      (w < 68 → Completes {} (.xwpk d a g) s p (s.setPly k (packedPut t w (p.sreg d))) ok) ∧
      (w = 68 → Completes {} (.xwpk d a g) s p (packedWatch k t (p.sreg d) s) ok) ∧
      (w = 69 → ∀ x, packedArm k t (p.sreg d) s = some x → Completes {} (.xwpk d a g) s p x ok) ∧
      (w = 70 → ∀ x, packedGive k t (p.sreg d) s = some x → Completes {} (.xwpk d a g) s p x ok) ∧
      (71 ≤ w → Becomes (.xwpk d a g) s (p.setQ 0 false)) ∧
      (anyGiven p [(u, ls.map (· + h))] = false → (rowsOf (t.entry v) ls).any c.livePending = false →
        c.frozen = true ∨ (rowsOf (t.entry v) ls).any c.lockedAcc = false → writeStalls c p [(u, ls.map (· + h))] = false →
        ((rowsOf (t.entry v) ls).any c.rowErrors = true →
          exec (.xrdv u v g) s = .next ((rowsOf (t.entry v) ls).foldl (findInRow (coreOf k) []) s)) ∧
        ((rowsOf (t.entry v) ls).any c.rowErrors = false →
        ∀ c' p', writeReg (here s) p u (ls.map fun l => ⟨h + l, c.word (t.entry v) l, c.poisoned (t.entry v) l⟩) = some (c', p') →
          Writes (.xrdv u v g) s c' (p'.setQ 0 (t.entry v != .given)))) ∧
      (t.entry u = .given ∨ (entryRows (t.entry u)).any c.replayPending = true → Becomes (.xwrv u v g) s (p.setQ 0 false)) ∧
      (t.entry u ≠ .given → (entryRows (t.entry u)).any c.replayPending = false → anyGiven p [(v, ls.map (· + h))] = false →
        readStalls c p [(v, ls.map (· + h))] = false → (rowsOf (t.entry u) ls).any c.writeWaits = false →
        (rowsUsed p [(v, ls.map (· + h))] ++ rowsCopied c t [(u, ls)]).any c.rowErrors = false →
        ∀ c' t', writeReg c t u (ls.map fun l => ⟨l, c.word (p.entry v) (h + l), c.poisoned (p.entry v) (h + l)⟩) = some (c', t') →
          Completes {} (.xwrv u v g) s p ((s.setCore (coreOf k) c').setPly k t') ok) ∧
      ∀ (j : Nat) (x : DWord), 10 ≤ j → j < 42 →
        packedRead c (packedPut t j x) j =
        if j % 2 = 0 then x else (x.setWidth 57 &&& ~~~3#57).setWidth 64

/-- R40, R292, Table 21-6: RFE by the code in bits [2:0] of s[A]; the five rows of the table that name a code each are one word
(log entry 16). Codes 0 and 3 resume the Halted slot at HPC with HEM, with the unfinished lanes of HUMASK replayed or, where none
are recorded, the instruction at HPC run over the lanes of HUMASK; for code 3 with such lanes, the instruction counts as complete and
the PC is behind it; code 1 delivers HCAUSE where EDT is 1 and it is delegable; code 2, and 1 where it is not, kills. Code 4 returns from the own handler. A code above 4, a slot that is not Halted, code 1 with a user interrupt in
progress, and 4 with PINH 0, only set q0 to 0. The model's choices: which lanes of HUMASK are replayed and when the instruction runs over
HUMASK instead (log entry 46), and that code 1 does not look at UDEL (log entry 47). -/
def Obligations.Returns : Prop :=
  ∀ (a : SReg) (g : Guard) (s : State) (p : Ply), Acts s p → guardHolds g p = true →
    ∀ i ∈ [Instr.rfeResume a g, .rfeDeliver a g, .rfeKill a g, .rfeResumeNoReplay a g, .rfeReturn a g],
    let code := (p.sreg a).toNat % 8
    let k := slotKey s.cur p
    let fails := exec i s = .next (s.setPly s.cur (went unfed i (p.setQ 0 false) (nextPc i p)))
    let ends := fun (u : State) => Completes unfed i s p u fun q => q.setQ 0 true
    let resume := fun (y : Ply) =>
      { y with state := .ready, wait := .none, words := [], stalled := false, a := { y.a with em := y.halt.em, pc := y.halt.pc } }
    let dead := fun (t : Ply) => noteKill t.ident.run (t.halt.cause.setWidth 8) (plyid k t) (t.halt.pc.setWidth 64) (killPly k s)
    (code = 4 → p.priv.pinh = true → Goes i s { p with
      mode := p.priv.pmode, priv := { p.priv with pinh := false }, a := { p.a with em := p.priv.pem &&& allLanes p.width } }
      (alignPc p.priv.ppc)) ∧
    (code = 4 → p.priv.pinh = false → fails) ∧ (4 < code → fails) ∧
    (code < 4 → isContext s.cur = false ∨ (∀ t, hslotPly s s.cur p = some t → t.state ≠ .halted) → fails) ∧
    ∀ t, isContext s.cur = true → hslotPly s s.cur p = some t → t.state = .halted →
      (code = 0 ∨ (code = 3 ∧ t.halt.umask = 0) → t.halt.umask = 0 ∨ t.takenUp ≠ none →
        ends (resumed k t ((takeUp k t s).modPly k resume))) ∧
      (code = 0 → t.halt.umask ≠ 0 → t.takenUp = none → ends (resumed k t ((takeUp k t s).modPly k fun y =>
        { resume y with fullEm := some y.halt.em, a := { (resume y).a with em := t.halt.umask } }))) ∧
      (code = 1 → t.inUi = true → fails) ∧
      (code = 1 → t.inUi = false → t.a.uictl.getLsbD 2 = true → delegableCode t.halt.cause = true →
        ends (rfeOne k s)) ∧
      (code = 1 → t.inUi = false →
        t.a.uictl.getLsbD 2 = false ∨ delegableCode t.halt.cause = false → ends (dead t)) ∧
      (code = 2 → ends (dead t)) ∧
      (code = 3 → t.halt.umask ≠ 0 → ends (rfeThree k t s))

/-- R288, R289, R291, R343, Table 21-2: PSRD writes the register's value to s[D] and PSWR writes it, and each sets q0. In 0x200 to 0x2FF both need hypervisor
mode, else 0x02, as does PSWR of HVEC, MBTAB, INJADDR and INJCTL; an unlisted number raises 0x09, and so does, on a service core, one of the slot registers. The H registers are those of the slot that
HSLOT names, with a ply in it or none; without one their masks stand as for 64 lanes (log entry 112). IDLE takes the events of PEVT,
clears bits [4:1] and sets q0, or waits for one. The model's choices: a written bit that belongs to no field is dropped (log entry 66), and
PVEC and PPC keep the 64 bits that are written (log entry 35). -/
def Obligations.PrivilegedRegisters : Prop :=
  ∀ (d : SReg) (n : BitVec 12) (g : Guard) (s : State) (p : Ply), Acts s p → guardHolds g p = true →
    let ev := pevtOf s s.cur p
    let v := p.sreg d
    let read := if n.toNat < 0x100 then readSpecial s s.cur p n.toNat else if n.toNat < 0x200 then privRead s s.cur p n.toNat
      else if n.toNat < 0x300 then hypRead s n.toNat else none
    let write := if n.toNat < 0x200 then privWrite s s.cur p n.toNat v else hypWrite n.toNat v s
    let may := n.toNat < 0x200 ∨ 0x300 ≤ n.toNat ∨ p.mode = 2
    (ev = 0 → Parks {} (.idle d g) s s .parked (.event d)) ∧
    (ev ≠ 0 → Becomes (.idle d g) s
      ((({ p with priv := { p.priv with pevt := p.priv.pevt &&& ~~~(ev &&& 0x1E) } } : Ply).setS d (ev.setWidth 64)).setQ 0 true)) ∧
    (∀ x, may → read = some x → Becomes (.psrd d n g) s ((p.setS d x).setQ 0 true)) ∧
    (may → read = none → Raises {} (.psrd d n g) s p s .specialReg 0 0) ∧
    (¬may → Raises {} (.psrd d n g) s p s .privileged 0 0 ∧ Raises {} (.pswr d n g) s p s .privileged 0 0) ∧
    (n.toNat < 0x100 → ∀ q, writeSpecial p n.toNat v = .done q → Becomes (.pswr d n g) s (q.setQ 0 true)) ∧
    (n.toNat < 0x100 → ∀ c, writeSpecial p n.toNat v = .cause c → Raises {} (.pswr d n g) s p s c 0 0) ∧
    (0x300 ≤ n.toNat → Raises {} (.pswr d n g) s p s .specialReg 0 0) ∧
    (0x100 ≤ n.toNat → n.toNat < 0x300 → may →
      (∀ u, write = .done u → Completes {} (.pswr d n g) s p (u.modPly u.cur fun y => y.setQ 0 true) id) ∧
      (∀ c, write = .cause c → Raises {} (.pswr d n g) s p s c 0 0) ∧
      (write = .wait → StandsBack (.pswr d n g) s)) ∧
    (let put := fun (x : Priv) => HypWrite.done (s.setPly s.cur { p with priv := x })
     privRead s s.cur p 0x110 = some p.priv.pvec ∧ privWrite s s.cur p 0x110 v = put { p.priv with pvec := v } ∧
     privRead s s.cur p 0x111 = some p.priv.ppc ∧ privWrite s s.cur p 0x111 v = put { p.priv with ppc := v } ∧
     privRead s s.cur p 0x112 = some p.priv.pem ∧ privWrite s s.cur p 0x112 v = put { p.priv with pem := v &&& allLanes p.width } ∧
     privRead s s.cur p 0x115 = some (p.priv.paspace.setWidth 64) ∧
     privWrite s s.cur p 0x115 v = put { p.priv with paspace := v.setWidth 13 } ∧
     (isService s.cur = false → privWrite s s.cur p 0x103 v = put { p.priv with hslot := v.setWidth 6 }) ∧
     privWrite s s.cur p 0x101 v = put { p.priv with pevt := p.priv.pevt &&& ~~~(v.setWidth 5 &&& 0x1E) } ∧
     (v.toNat % 4 = 1 ∨ (v.toNat % 4 = 2 ∧ p.mode = 2) → privWrite s s.cur p 0x114 v = put { p.priv with pmode := v.setWidth 2 }) ∧
     (v.toNat % 4 = 0 ∨ v.toNat % 4 = 3 → privWrite s s.cur p 0x114 v = .cause .specialReg) ∧
     (v.toNat % 4 = 2 → p.mode ≠ 2 → privWrite s s.cur p 0x114 v = .cause .privileged) ∧
     (p.mode ≠ 2 → ∀ m ∈ [0x118, 0x120, 0x130, 0x131], privWrite s s.cur p m v = .cause .privileged)) ∧
    let h := s.hyp
    let slot := agentKey (coreOf s.cur) p.priv.hslot.toNat
    let reads := fun (m : Nat) (x : DWord) => privRead s s.cur p m = some x
    (∀ x ∈ [(0x100, p.mode.setWidth 64), (0x101, ev.setWidth 64), (0x110, p.priv.pvec), (0x111, p.priv.ppc), (0x112, p.priv.pem),
        (0x113, BitVec.ofNat 64 (p.priv.pcause.toNat + 256 * p.priv.pinh.toNat)), (0x114, p.priv.pmode.setWidth 64),
        (0x115, p.priv.paspace.setWidth 64), (0x118, p.priv.hvec), (0x120, h.mbtab), (0x130, h.injaddr),
        (0x131, BitVec.ofNat 64 (h.injArm.toNat + 2 * h.injMode.toNat + 8 * h.injFired.toNat + 256 * h.injMask.toNat))],
      reads x.1 x.2) ∧
    ev = setBitTo p.priv.pevt 0 (isContext s.cur && haltedSlots s (coreOf s.cur) != 0) ∧
    (isService s.cur = false → reads 0x102 (haltedSlots s (coreOf s.cur)) ∧ reads 0x103 (p.priv.hslot.setWidth 64) ∧
      let place := fun (x : Halt) (up : DWord → DWord) =>
        reads 0x104 (BitVec.ofNat 64 (x.cause.toNat + 256 * x.after.toNat)) ∧ reads 0x105 (x.pc.setWidth 64) ∧
          reads 0x106 (up x.em) ∧ reads 0x107 (up x.umask) ∧ reads 0x108 x.addr
      (∀ t, hslotPly s s.cur p = some t → place t.halt fun m => m <<< homeLane slot t.width) ∧
      (hslotPly s s.cur p = none → place (slotHalt s slot) id)) ∧
    ∀ m, privRead s s.cur p m = none ↔ ¬((0x100 ≤ m ∧ m ≤ 0x101) ∨ (0x102 ≤ m ∧ m ≤ 0x108 ∧ isService s.cur = false) ∨
      (0x110 ≤ m ∧ m ≤ 0x115) ∨ m = 0x118 ∨ m = 0x120 ∨ m = 0x130 ∨ m = 0x131)

/-- R293, R294: TLBI removes, from every TLB, the entries of its space that its page or its range meets, or all of the space, or
every entry; it is a release and sets q0 to 1. A bit of [63:12] of the space, or a range that is empty or not a multiple of 4 KiB,
only sets q0 to 0. GENB advances the generation of its space, removes every TLB entry and every line of code of it (R112, R325),
returns its stores that are on their way, and waits until no access carries an older one; one space has one GENB at a time. The model's
choices: GENB itself returns the stores (log entry 77), its reductions on their way are combined first (log entry 113), and s[A] with a
bit of [63:12] only sets q0 to 0 (log entry 137). -/
def Obligations.Translation : Prop :=
  (∀ (d a b : SReg) (g : Guard) (s : State) (p : Ply), Acts s p → guardHolds g p = true →
    let space := (p.sreg d).toNat
    let va := (p.sreg a).toNat
    let len := (p.sreg b).toNat
    let u := release s.cur .package s
    let removes := fun (i : Instr) (f : TlbEntry → Bool) =>
      Completes {} i s p { u with tlbs := u.tlbs.mapVals fun _ l => l.filter fun e => !f e } fun q => q.setQ 0 true
    (space < 4096 →
      removes (.tlbiPage d a g) (fun e => e.space == space && e.covers space va) ∧ removes (.tlbiAs d g) (fun e => e.space == space && true)) ∧
    (4096 ≤ space → Becomes (.tlbiPage d a g) s (p.setQ 0 false) ∧ Becomes (.tlbiRange d a b g) s (p.setQ 0 false) ∧
      Becomes (.tlbiAs d g) s (p.setQ 0 false)) ∧
    (space < 4096 → len ≠ 0 → len % 4096 = 0 → removes (.tlbiRange d a b g)
      (fun e => e.space == space && (decide (e.vbase < va + len) && decide (va < e.vbase + 2 ^ e.log)))) ∧
    (len = 0 ∨ len % 4096 ≠ 0 → Becomes (.tlbiRange d a b g) s (p.setQ 0 false)) ∧
    removes (.tlbiAll g) (fun _ => true) ∧
    (4096 ≤ va → Becomes (.genb d a g) s (p.setQ 0 false)) ∧
    (va < 4096 →
      let w := s.cores.keys.foldl (sendPartials va) s
      let code := fun (_ : Nat) (c : Core) => { c with icache := c.icache.filter fun l => l.space != va }
      let v := { w with spaceGens := w.spaceGens.setD va (genOf w va + 1) 0, cores := w.cores.mapVals code
                        tlbs := w.tlbs.mapVals fun _ l => l.filter fun e => !(e.space == va) }
      let t := v.cores.keys.foldl (returnStores va) v
      (genbBusy s va = true → StandsBack (.genb d a g) s) ∧
      (genbBusy s va = false → oldAccess t va = true → Parks {} (.genb d a g) s t .ready (.genb d va)) ∧
      (genbBusy s va = false → oldAccess t va = false → Completes {} (.genb d a g) s p t fun q =>
        (q.setS d ((genOf t va).setWidth 64)).setQ 0 true))) ∧
  ∀ (k space : Nat) (d : SReg) (s : State) (p : Ply), s.ply k = some p → p.wait = .genb d space → oldAccess s space = false →
    exec (.genbComplete k) s = .next (s.setPly k ((p.setS d ((genOf s space).setWidth 64)).setQ 0 true).wakeDone)

/-! ## Frames, keys and errors (chapters 21 and 25) -/

/-- R295 to R298, R350, R351, R355, R379, Table 21-8: SCRB.START takes the lowest free index for a range of frames none of which is
Bound or Scrubbing, and answers its handle, or 0 with q0 = 0; QUERY answers the job's word, and ABORT ends it with the rest of its
frames Quarantined. A scrub step zeroes the next frame and makes it Free, unless it is retired. BIND makes a range of Free frames
Bound, and L2 drops the lines that it held of it; UNBIND drops what caches hold of its tenant's frames and makes them Quarantined, with
the status code of what is wrong else. KZRO forgets the key, and L1 loses what it held under it. A bit error that arises in memory, in a
row, in a tile, in a line of L1 or in a line of code is marked, and found by the next read of it, which for memory the patrol scrub is too.
In the uniform store it is corrected and logged in its read, or raises 0x52 in its reader; a TLB is dropped (R345, Table 25-1). The model's
choices: L1's lines at a KZRO (log entry 70), a deferral as a step (log entry 71), the uniform store's events (log entries 72 and 115), the
parity of lines and TLBs (log entry 73), errors that wait as marks (log entry 75), an abort's PEVT (log entry 102), a malformed range
(log entry 135) and a scrub job over another package (log entry 126). -/
def Obligations.FramesAndKeys : Prop :=
  ((∀ (d a b : SReg) (g : Guard) (s : State) (p : Ply), Acts s p → guardHolds g p = true →
    let v := p.sreg d
    let range := frameRange s.io (p.sreg a) (p.sreg b)
    let scrubs := scrubRange s.io (p.sreg a) (p.sreg b)
    let unclean := fun (fs : List Nat) => fs.any fun f => (s.frame f).isBound || (s.frame f).isScrubbing
    let status := fun (i : Instr) (u : State) (n : Nat) =>
      Completes {} i s p u fun q => (q.setS d (BitVec.ofNat 64 n)).setQ 0 (n = 0)
    let flag := fun (b : Bool) (q : Ply) => q.setQ 0 b
    (scrubs = none ∨ freeJob s = none → Becomes (.scrbStart d a b g) s ((p.setS d 0).setQ 0 false)) ∧
    (∀ f n, scrubs = some (f, n) →
      let fs := framesFrom f n
      (unclean fs = true → Becomes (.scrbStart d a b g) s ((p.setS d 0).setQ 0 false)) ∧
      ∀ i, unclean fs = false → freeJob s = some i →
        Completes {} (.scrbStart d a b g) s p
          ((setFrames (.scrubbing i) (fs.filter fun f => !s.retiredFrames.contains f)
            { s with jobs := s.jobs.put i ⟨f, n, 0, false, false, some s.cur, nextJobSeq s i⟩ }).setPly s.cur
              ((p.setS d (jobHandle i (nextJobSeq s i))).setQ 0 true)) id) ∧
    (range = none → status (.bind d a b g) s 3 ∧ status (.unbind d a b g) s 3) ∧
    (∀ f n, range = some (f, n) →
      let fs := framesFrom f n
      let mine := fun (x : FrameState) => match x with | .bound t _ => t == v.setWidth 4 | _ => false
      (field v 4 4 ≠ 0 ∨ field v 14 50 ≠ 0 → status (.bind d a b g) s 3) ∧
      (field v 4 4 = 0 → field v 14 50 = 0 →
        (fs.any (fun f => (s.frame f).isBound) = true → status (.bind d a b g) s 2) ∧
        (fs.any (fun f => (s.frame f).isBound) = false →
          (fs.any (fun f => s.frame f != .free) = true → status (.bind d a b g) s 1) ∧
          (fs.any (fun f => s.frame f != .free) = false →
            let cached := (s.l2.map (·.line)).filter fun line => f ≤ line / 32 && line / 32 < f + n
            status (.bind d a b g) (setFrames (.bound (v.setWidth 4) (v.extractLsb' 8 6)) fs (evictL2 cached s)) 0))) ∧
      (16 ≤ v.toNat → status (.unbind d a b g) s 3) ∧
      (v.toNat < 16 → fs.any (fun f => !mine (s.frame f)) = true → status (.unbind d a b g) s 2) ∧
      (v.toNat < 16 → fs.any (fun f => !mine (s.frame f)) = false →
        let busy := writesRemain s fun x => 4096 * f ≤ x && x < 4096 * (f + n)
        (busy = true → StandsBack (.unbind d a b g) s) ∧
        (busy = false → status (.unbind d a b g) (retireFrames fs (setFrames .quarantined fs (uncacheFrames f n s))) 0))) ∧
    (jobOf s (p.sreg a) = none → Becomes (.scrbQuery d a g) s ((p.setS d 0).setQ 0 false) ∧ Completes {} (.scrbAbort a g) s p s (flag false)) ∧
    (∀ i j, jobOf s (p.sreg a) = some (i, j) → Becomes (.scrbQuery d a g) s ((p.setS d j.word).setQ 0 true) ∧
      (j.ended = true → Completes {} (.scrbAbort a g) s p s (flag true)) ∧
      (j.ended = false → Completes {} (.scrbAbort a g) s p
        (endJob i { j with aborted := true } (setFrames .quarantined (framesFrom (j.first + j.done) (j.frames - j.done)) s)) (flag true))) ∧
    (let slot := (p.sreg a).toNat
     let busy := writesRemain s (carriesSlot s slot) || (s.hyp.keyLoad && s.hyp.keySlot.toNat == slot)
     (64 ≤ slot → Completes {} (.kzro a g) s p s (flag false)) ∧ (slot < 64 → busy = true → StandsBack (.kzro a g) s) ∧
     (slot < 64 → busy = false → Completes {} (.kzro a g) s p { s with
       keys := s.keys.drop slot
       cores := s.cores.mapVals fun _ c => c.dropLines fun line => carriesSlot s slot (128 * line) } (flag true)))) ∧
  ∀ (i : Nat) (j : ScrubJob) (s : State), s.jobs.find i = some j → j.ended = false → frameDeferred s (j.first + j.done) = false →
    let f := j.first + j.done
    let u := if s.retiredFrames.contains f then s else setFrames .free [f] (cleanFrame f s)
    let j' := { j with done := j.done + 1 }
    exec (.scrubJobProgress i) s = .next (if j.frames ≤ j.done + 1 then endJob i j' u else { u with jobs := u.jobs.put i j' })) ∧
  (∀ (s : State),
    (∀ (stack : Nat) (on : Bool), stack < 8 → exec (.scrubDeferral stack on) s =
      .next { s with rel := { s.rel with deferring := setBitTo s.rel.deferring stack on } }) ∧
    (∀ pa a bad, target s.io pa = .memory a →
      exec (.storageError (.hbm pa bad)) s = .next { s with latent := s.latent.add (4 * (a / 8) + 2 * bad.toNat) } ∧
      (s.l2.any (fun x => x.line == lineOf a) = true → exec (.storageError (.l2 pa bad)) s =
        .next { s with latent := s.latent.add (4 * (a / 8) + 2 * bad.toNat + 1) }) ∧
      (s.rel.scrcfg ≠ 0 → scrubDeferred s a = false →
        (∀ x, s.rel.passes.find (stackOfPa a) = some x → x.lines.contains (lineOf a) = false) → exec (.patrolScrub pa) s =
          .next (notePass (stackOfPa a) (lineOf a)
            ((s.latent.filter fun x => x % 2 == 0 && x / 4 / 16 == lineOf a).foldl (fun u x => logLatent (findError u x) x) s)))) ∧
    (∀ core row lane r, (s.core core).rows.find row = some r → lane < 8 →
      exec (.storageError (.rowStore core row lane true)) s = .next (s.modCore core fun c =>
        { c with rows := c.rows.put row { r with hard := setBitTo r.hard lane true } }) ∧
      exec (.storageError (.rowStore core row lane false)) s = .next (s.modCore core fun c =>
        { c with rows := c.rows.put row { r with soft := setBitTo r.soft lane true } })) ∧
    (∀ core offset,
      let marked := fun (l : NSet) => s.modCore core fun c => { c with uniBad := l }
      let bad := (s.core core).uniBad
      exec (.storageError (.uniformStore core offset none false)) s = .next s ∧
      exec (.storageError (.uniformStore core offset none true)) s =
        .next (coreEvent core 1 1 (BitVec.ofNat 64 offset) none (marked (bad.add offset))) ∧
      ∀ k p, coreOf k = core → s.ply k = some p →
        let raises := fun (b : Bool) => exec (.storageError (.uniformStore core offset (some k) b)) s =
          .next (errorEvent (unitOf core) ⟨1, 2, 0, 0, core, BitVec.ofNat 64 offset, plyid k p, s.cycle⟩ none 0
            ((marked (bad.del offset)).setPly k { p with deferred := p.deferred ++ [⟨.regError, p.a.pc, 0, 0, true⟩] }))
        raises true ∧ (bad.contains offset = true → raises false) ∧
        (bad.contains offset = false → exec (.storageError (.uniformStore core offset (some k) false)) s =
          .next (coreEvent core 1 0 (BitVec.ofNat 64 offset) none s))) ∧
    (∀ core granule byte t h n, tileAtGranule s core granule = some (t, h, n) → byte < 1024 →
      exec (.storageError (.tileStore core granule byte true)) s = .next (s.modTile t h fun y =>
        { y with poison := y.poison.put ((1024 * n + byte) / 8) .memory }) ∧
      exec (.storageError (.tileStore core granule byte false)) s = .next (s.modTile t h fun y =>
        { y with soft := y.soft.add ((1024 * n + byte) / 8) })) ∧
    ∀ core line,
      ((s.core core).l1.mem line = true → exec (.storageError (.l1Line core line)) s = .next (s.modCore core fun c =>
        { c with l1 := c.l1.mapVals fun n l => if n = line then { l with bad := true } else l })) ∧
      ((s.core core).icache.any (fun x => x.line == line) = true → exec (.storageError (.instructionCache core line)) s =
        .next (s.modCore core fun c => { c with icache := c.icache.map fun l => if l.line = line then { l with bad := true } else l })) ∧
      exec (.storageError (.tlb core)) s = .next { s with tlbs := s.tlbs.drop core })

/-! ## Causes and interrupts (chapters 02, 21 and 23) -/

/-- R36, R39 to R41, R258, R285, R326, Table 23-7: where a cause goes. A user ply halts, with its H registers and HADDR for the
causes 0x20 to 0x27 alone, and its context ply is told (in a run over a part of its lanes, with all its lanes as HEM and the lanes left as
HUMASK, R292); a delegable cause of a run that permits it goes to the user handler, when
none is in progress; a context ply or a service core enters its own handler, or stops with PINH set. A user ply's consumed error in an open
region waits for the retry of it, and after the third becomes 0x56; a cause that a copy reported is not retried (R257). A watermark mismatch is recorded. A word that is no
instruction raises its decode cause, a cause that an engine reported is taken at the issue boundary, and a pending user interrupt
abandons a wait that R37 lists and is delivered at the ply's PC, unless a cause waits for that boundary, which comes first (R36, R37,
R40, R134, R211, R228). The model's choices: the order of several pending sources (log entry 116); a stopped service core sets PEVT[2]
(log entry 40) of core k xor 1 (log entry 37); a pending delegated trap is delivered as source 0 with HCAUSE (log entry 39). -/
def Obligations.CausesTaken : Prop :=
  (∀ (k : Nat) (c : Cause) (pc : Pc) (addr umask : DWord) (s : State) (p : Ply), s.ply k = some p →
    let u := if c = .watermark then checkRecord k p 7 0 (pc.setWidth 64) s else s
    let v := settleUnfinished k u
    let retries := p.mode = 0 ∧ c.consumed = true ∧ p.region ≠ 0
    let whole := p.fullEm.getD p.a.em
    let left := if umask = 0 ∧ p.fullEm.isSome = true then p.a.em else umask
    let delegated := (0x10 ≤ c.code.toNat ∧ c.code.toNat ≤ 0x16 ∨ c.code = 0x50 ∨ 0x70 ≤ c.code.toNat) ∧
      p.ident.udel = true ∧ p.a.uictl.getLsbD 2 = true ∧ p.inUi = false
    (¬retries → p.mode = 0 → ¬delegated → takeCause k c pc addr umask s = wakeIdle (contextKey (coreOf k)) (u.setPly k { p with
      fullEm := none, a := { p.a with em := whole }, state := .halted, wait := .none, words := [], stalled := false
      halt := ⟨c.code, c.isAfter, pc, whole, left, if 0x20 ≤ c.code.toNat ∧ c.code.toNat ≤ 0x27 then addr else 0⟩ })) ∧
    (¬retries → p.mode = 0 → delegated → takeCause k c pc addr umask s = u.setPly k { p with
      uiepc := pc.setWidth 64, uiem := whole, fullEm := none, uicause := c.code, uisrc := 0, uicix := 0, inUi := true
      uiDepth := p.a.knuckles.length, region := 0, state := .ready, wait := .none, words := [], stalled := false
      a := { p.a with pins := mapPins p.a.pins fun x => { x with outer := x.outer || x.valid }
                      em := allLanes p.width, pc := alignPc p.a.uivec } }) ∧
    (¬retries → p.mode ≠ 0 → p.priv.pinh = false → takeCause k c pc addr umask s = v.modPly k fun q => { q with
      mode := if isService k then 2 else q.mode
      state := .ready, wait := .none, words := [], stalled := false
      priv := { q.priv with ppc := pc.setWidth 64, pcause := c.code, pem := q.a.em, pmode := q.mode, pinh := true }
      a := { q.a with em := allLanes q.width, pc := alignPc (if isService k then q.priv.hvec else q.priv.pvec) } }) ∧
    (¬retries → p.mode ≠ 0 → p.priv.pinh = true →
      let stops := v.modPly k fun q => { q with priv := { q.priv with stopped := true }, state := .halted, wait := .none, stalled := false }
      takeCause k c pc addr umask s = if isService k then setPevt (serviceKey ((coreOf k - 192) ^^^ 1)) 2 stops else stops) ∧
    (retries → p.retry ≠ 3 → takeCause k c pc addr umask s =
      v.modPly k fun q => { q with state := .ready, wait := .retry c, words := [], stalled := false }) ∧
    (retries → p.retry = 3 → takeCause k c pc addr umask s =
      routeCause k .retryExhausted pc 0 umask (checkRecord k p 9 0 (p.region.setWidth 64) u))) ∧
  ((∀ (x : DecodeCause) (s : State) (p : Ply), Acts s p →
    let code : BitVec 7 := match x with | .illegal => 0x00 | .reserved => 0x01 | .privileged => 0x02 | .formatBase => 0x04 | .pair => 0x06
    ∃ c : Cause, c.code = code ∧ exec (.illegalInstruction x) s = .next (takeCause s.cur c p.a.pc 0 0 s)) ∧
  (∀ (k : Nat) (x : Deferred) (rest : List Deferred) (s : State) (p : Ply), s.ply k = some p → p.deferred = x :: rest →
    p.atBoundary = true → haltsIssue s p = false →
    let u := s.setPly k { p with deferred := rest, wait := .none, kept := none }
    (x.retried = true → exec (.deferredCause k) s = .next (settleCause k x.cause x.pc x.addr x.mask u)) ∧
    (x.retried = false → exec (.deferredCause k) s = .next (routeCause k x.cause x.pc x.addr x.mask u))) ∧
  ∀ (k : Nat) (s : State) (p : Ply), s.ply k = some p → p.interruptible = true → haltsIssue s p = false →
    (p.deferred ≠ [] → p.state ≠ .ready → exec (.userInterruptDelivery k) s = .next ((withdraw k s).modPly k fun q =>
      { q with state := .ready, wait := .none, words := [], stalled := false })) ∧
    let delivers := fun (cause : BitVec 7) (src : BitVec 2) (cix : BitVec 3) (f : Ply → Ply) =>
      exec (.userInterruptDelivery k) s = .next ((withdraw k s).modPly k fun q =>
        { f q with
          uiepc := q.a.pc.setWidth 64, uiem := q.wholeEm, fullEm := none, uicause := cause, uisrc := src, uicix := cix, inUi := true
          uiDepth := q.a.knuckles.length, region := 0, state := .ready, wait := .none, words := [], stalled := false
          a := { q.a with pins := mapPins q.a.pins fun x => { x with outer := x.outer || x.valid }
                          em := allLanes q.width, pc := alignPc q.a.uivec } })
    p.deferred = [] →
    (p.pendTrap = true → delivers p.halt.cause 0 0 fun q => { q with pendTrap := false }) ∧
    (p.pendTrap = false → p.pendLwake = true → delivers 0x66 1 0 fun q => { q with pendLwake := false }) ∧
    (p.pendTrap = false → p.pendLwake = false → p.pendQueue = true → delivers 0x66 2 0 fun q => { q with pendQueue := false }) ∧
    (p.pendTrap = false → p.pendLwake = false → p.pendQueue = false → delivers 0x66 3 (BitVec.ofNat 3 (trailingZeros p.pendCopy))
      fun q => { q with pendCopy := setBitTo q.pendCopy (trailingZeros p.pendCopy) false }))

/-- R48, R50, R96, R108, R154, R187, R339: a load lands its pieces in their rows and leaves the flight list, and the old return of a
replay packet is dropped; a store is performed at home, and an atomic's old values land with it; what waits for a replay, or what a GENB
has returned (log entry 77), stays, with the words that have arrived landed. A monitor whose condition a
write met wakes its ply with an acquire at its scope, and its core's L1 copy of the line is dropped; one on a register wakes its ply while
the register meets the condition, and one outside the package reads its place again and wakes when what it reads meets it (the model's
choice, log entry 13); a WAITN whose counts are within their limits completes, a ply parked on
rows tries again once a row is free, and after 65,536 cycles of starvation the longest parked takes 0x31. -/
def Obligations.Landings : Prop :=
  (∀ (seq c : Nat) (f : Flight) (s : State), findFlight s Core.loads seq = some (c, f) →
    (f.packet = true → exec (.loadLanding seq) s = .next s) ∧
    (f.packet = false → f.waiting = false → exec (.loadLanding seq) s = .next (s.modCore c fun x =>
      let y := f.pieces.foldl landPiece x
      { y with loads := y.loads.filter (·.seq != f.seq) })) ∧
    (f.packet = false → f.waiting = true → f.pieces.filter (!·.poison) ≠ [] → exec (.loadLanding seq) s = .next (s.modCore c fun x =>
      let y := (f.pieces.filter (!·.poison)).foldl landPiece x
      { y with loads := modFlight f.seq Flight.rest y.loads }))) ∧
  (∀ (seq c : Nat) (f : Flight) (s : State), findFlight s Core.stores seq = some (c, f) →
    let arrived := if f.waiting = true then f.pieces.filter (!·.poison) else f.pieces
    let lands := fun (after : List Flight → List Flight) =>
      exec (.storeAck seq) s = .next ((f.writes.foldl (performWrite c) s).modCore c fun x =>
        let y := arrived.foldl landPiece x
        { y with stores := after y.stores })
    (f.waiting = false → f.away = [] → lands fun l => l.filter (·.seq != f.seq)) ∧
    (f.waiting = true ∨ f.away ≠ [] → arrived ≠ [] ∨ f.writes ≠ [] → lands (modFlight f.seq Flight.rest))) ∧
  (∀ (k core t : Nat) (s : State) (p : Ply), s.ply k = some p →
    (∀ m, p.wait = .monitor m →
      let wakes := fun (u : State) => acquire (coreOf k) m.scope (dropL1 (coreOf k) (m.pa / 128) (u.setPly k p.wakeDone))
      let n := if m.wide = true then 8 else 4
      let met := fun (x : Nat) => waitHolds m.cond (8 * n) x (m.comparand.toNat % 2 ^ (8 * n)) = true
      (∀ a, targetAt s.io m.pa = .memory a → m.hit = true → exec (.monitorWake k) s = .next (wakes s)) ∧
      (∀ off, targetAt s.io m.pa = .register off → met (ofBytesLE (registerRead s off n)) → exec (.monitorWake k) s = .next (wakes s)) ∧
      ((∀ a, targetAt s.io m.pa ≠ .memory a) → (∀ off, targetAt s.io m.pa ≠ .register off) → ∀ i u, outsideRead m.pa n s = (i, u) →
        (met i.value → exec (.monitorWake k) s = .next (wakes u)) ∧ (¬met i.value → exec (.monitorWake k) s = .next u))) ∧
    (∀ l st c m, p.wait = .counts l st c m → countsWithin s k p l st c m = true →
      exec (.waitnComplete k) s = .next (s.setPly k p.wakeDone)) ∧
    (∀ since, p.wait = .rows since → p.state = .parked → (s.core (coreOf k)).freeRow ≠ none →
      exec (.rowWaitRetry k) s = .next (s.setPly k { p with state := .ready, words := [], stalled := false })) ∧
    ((s.core core).starved = some t → longestOnRows s core = some k → t + 65536 ≤ s.cycle →
      exec (.rowStarvation core) s = .next (takeCause k .rowPool p.a.pc 0 0
        ((s.modCore core fun c => { c with starved := none }).setPly k { p with state := .ready, wait := .none, words := [], kept := none })))) ∧
  ∀ (c : Core) (x : Piece) (r : Row), c.rows.find x.row = some r → x.poison = false →
    ((landPiece c x).rows.find x.row).map (fun y => (y.words.toList.getD (x.lane % 8) 0, y.poison.getLsbD (x.lane % 8))) =
      some (x.word, false)

/-- R112, R319, R321 to R325, Table 23-5: a walk ahead of a copy translates one of the pages behind its next block's, 8 at most; a held
miss takes a merge entry that is free, with the generation of its walk;
the fault unit takes the oldest reply of its ring, and for a well-formed one that names an entry closes it and serves every
waiter: a ready reply wakes it, a fail reply gives its cause, 0x20 or 0x21. The third return of an access whose generation is old
raises 0x23: of a fetch at its instruction, of a block of a copy as the copy stops, and of an access of a ply, which is counted, as its
instruction issues again (Lands). The model's choices: a return is a step that can happen while a GENB of the space waits (log entry 77),
the block and the address of a copy's stop (log entry 61), the walk ahead (log entry 78), and bit 7 of byte 3 of a reply is not looked at
(log entry 129). -/
def Obligations.FaultUnits : Prop :=
  (∀ (seq ahead core page : Nat) (x : Copy) (tile : Tile) (s : State), (s.core core).copies.find? (·.seq == seq) = some x → x.who.phys = false →
    teamTile s (some x.team) x.tile = some tile →
    let pages := ((x.left.filterMap (blockVa x tile)).map fun va => va.toNat / 4096).eraseDups
    (pages.tail.take 8)[ahead]? = some page → exec (.pageWalk core seq ahead) s =
      .next (translateWalk x.who (BitVec.ofNat 64 (4096 * page)) (if x.kind = .cpyin then .read else .write) s).2) ∧
  (∀ (d : Nat) (h : HeldMiss) (rest : List HeldMiss) (s : State), s.heldMisses.getD d [] = h :: rest → mergeRoom s d h = true →
    exec (.faultEntryTaken d) s = .next (mergeMiss d h.space h.vpage h.level h.kind h.who h.tenant h.gen h.waiter
      { s with heldMisses := s.heldMisses.put d rest })) ∧
  (∀ (d : Nat) (s : State) (q : Queue) (i : Image) (u : State), d < 4 → s.queues.find (ringPlace s (60 + d)) = some q → q.count ≠ 0 →
    placeRead none (placeOf s.io (q.entryVa q.head).toNat) 32 s = (i, u) →
    let v := putQueue (ringPlace s (60 + d)) (q.pop 1) u
    (i.error ≠ none ∨ parseReply i.bytes = none → exec (.faultReply d) s = .next v) ∧
    (∀ n cause e, i.error = none → parseReply i.bytes = some (n, cause) → (v.merges.getD d []).find n = some e →
      exec (.faultReply d) s = .next (e.waiters.foldl (serveWaiter e.vpage cause)
        { v with merges := v.merges.put d ((v.merges.getD d []).drop n) })) ∧
    (∀ n cause, i.error = none → parseReply i.bytes = some (n, cause) → (v.merges.getD d []).find n = none →
      exec (.faultReply d) s = .next v)) ∧
  (∀ n : Nat, n < 512 → parseReply (bytesLE n 32) = some (n, none) ∧
    parseReply (bytesLE (n + 2 ^ 16 + 2 ^ 24 * 0x20) 32) = some (n, some .pageFault) ∧
    parseReply (bytesLE (n + 2 ^ 16 + 2 ^ 24 * 0x21) 32) = some (n, some .protection)) ∧
  (∀ (k : Nat) (s : State) (p : Ply), s.ply k = some p → p.state = .ready → p.wait = .none → (viewer k p).phys = false →
    genbBusy s (viewer k p).space = true →
    (p.stale < 3 → exec (.staleAccessReturn (.data k)) s = .next (s.setPly k { p with stale := p.stale + 1 })) ∧
    (p.staleFetch < 2 → exec (.staleAccessReturn (.fetch k)) s = .next (s.setPly k { p with staleFetch := p.staleFetch + 1 })) ∧
    (2 ≤ p.staleFetch → exec (.staleAccessReturn (.fetch k)) s = .next (takeCause k .staleGen p.a.pc (p.a.pc.setWidth 64)
      ((p.unfinished.map (·.mask)).getD 0) (s.setPly k { p with staleFetch := 0 })))) ∧
  ∀ (seq block core : Nat) (x : Copy) (tile : Tile) (va : DWord) (s : State), findCopy s seq = some (core, x) → x.held = false →
    x.left.contains block = true → x.who.phys = false → genbBusy s x.who.space = true → teamTile s (some x.team) x.tile = some tile →
    blockVa x tile block = some va →
    let n := x.stale.getD block 0
    (n < 2 → exec (.staleAccessReturn (.copy seq block)) s =
      .next (modCopy core seq (fun y => { y with stale := y.stale.put block (n + 1) }) s)) ∧
    (2 ≤ n → exec (.staleAccessReturn (.copy seq block)) s = .next (stopCopy core x .staleGen va s))

/-! ## Runs, partitions and resets (chapters 22, 24, 25 and 27) -/

/-- R19 to R22, R25, R26, R301 to R307, R311 to R314: the distributor takes the oldest submission of a tenant's queue and accepts
or rejects it with its record; a waiting run rises by one each 1,048,576 cycles, to at most 3; the next team of the run that is being
placed is reserved on the lowest core that fits, once every release of slots that is due has come, and the gang commits with its last
(which run is being placed, when one of equal priority stands first in order, is the model's reading: log entry 119). A team with no ply,
no item and no work left retires, and a run whose teams all have ends. The model's choices: the descriptor is read through the pusher's
space first (log entry 44), a nonzero byte 8 to 31 of the submission is REASON 1 (log entry 94), only a higher priority takes reservations
away (log entry 81), pushes in a window hold the end back (log entry 83), and each pair of dies has its link (log entry 84). -/
def Obligations.Runs : Prop :=
  ∀ (s : State),
    (∀ t : Nat, t < 16 → s.hyp.subq.getD t 0 ≠ 0 → s.io.readyDie ≠ 0 → ∀ q i u, let x := placeOf s.io (s.hyp.subq.getD t 0).toNat
      s.queues.find x = some q → q.count ≠ 0 → placeRead none (placeOf s.io (q.entryVa q.head).toNat) 32 s = (i, u) →
      let v := putQueue x (q.pop 1) u
      let pusher : Pusher := (if q.pushers.length = q.count then q.pushers else []).headD ⟨ioSender, false, false, ⟨0, none, true, 192⟩⟩
      let va := leBytes i.bytes 0 8
      let read := unitRead pusher.who 3 va 128 v
      (i.error ≠ none → exec (.runAccept t) s = .next v) ∧
      (i.error = none → read.1 = none → exec (.runAccept t) s = .next read.2) ∧
      (∀ bs bs' w, i.error = none → read.1 = some bs →
        unitRead (ioViewer (BitVec.ofNat 4 t) (parseRun bs).aspace.toNat) 3 va 128 read.2 = (some bs', w) → exec (.runAccept t) s = .next (admitRun (BitVec.ofNat 4 t) pusher
          (ioViewer (BitVec.ofNat 4 t) (parseRun bs).aspace.toNat) (runMalformed va ((i.bytes.drop 8).any (· != 0)) bs' (parseRun bs'))
          (parseRun bs') w)) ∧
      (∀ bs w, i.error = none → read.1 = some bs →
        unitRead (ioViewer (BitVec.ofNat 4 t) (parseRun bs).aspace.toNat) 3 va 128 read.2 = (none, w) → exec (.runAccept t) s =
          .next (writeRecord (ioViewer (BitVec.ofNat 4 t) (parseRun bs).aspace.toNat) (parseRun bs) (recordHead 0 4 true false)
            (recordTail 0 0 0 0 0) w))) ∧
    (∀ run r, s.run run = some r → r.nextTeam < r.desc.teams → r.desc.prio.toNat + r.aged < 3 →
      r.accepted + 1048576 * (r.aged + 1) ≤ s.cycle →
      let rises := min 3 (r.desc.prio.toNat + (s.cycle - r.accepted) / 1048576)
      let lose := fun (_ : Nat) (x : Run) =>
        if min 3 (x.desc.prio.toNat + (s.cycle - x.accepted) / 1048576) < rises then { x with reserved := [] } else x
      exec (.runAging run) s = .next { s with runs := (s.runs.put run { r with aged := r.aged + 1 }).mapVals lose }) ∧
    (∀ k r team x, placingRun s = some (k, r) →
      let others := fun (k' : Nat) (y : Run) => if k' = k then y else { y with reserved := [] }
      let u := { s with runs := s.runs.mapVals others }
      u.runs.any (fun (k, y) => endDue u k y) = false → (gangTeams r)[r.reserved.length]? = some team → reserveTeam u r team = some x →
      exec .gangReserve s = .next (commitGang k { r with reserved := r.reserved ++ [x] } u)) ∧
    (∀ run team r tk t, s.run run = some r → (s.teams.find? fun (_, y) => y.run == run && y.number == team) = some (tk, t) →
      t.retired = false → teamBusy s t = false → r.stampq = [] → workLeft s run t.core t.slots.contains = false →
      exec (.teamRetire run team) s =
        .next ((s.setTeam tk { t with retired := true }).setRun run { r with retired := r.retired.add team })) ∧
    (∀ run r, s.run run = some r → r.desc.teams ≤ r.nextTeam → r.stampq = [] →
      let ts := s.teams.filter fun (_, t) => t.run == run
      ts.any (fun (_, t) => teamBusy s t) = false → ts.any (fun (_, t) => workLeft s run t.core fun _ => true) = false →
      s.windows.any (·.run == run) = false → s.unsent.any (fun u => decide (1024 ≤ u.sender) && u.run == run) = false →
      exec (.runEnd run) s = .next (endRun run { r with retired := ts.foldl (fun l (_, t) => l.add t.number) r.retired } s)) ∧
    (∀ run r, s.run run = some r →
      (∀ u, r.bound.findSome? (fun (k, x) => startItem run k x s) = some u → exec (.stampQueuePlace run) s = .next u) ∧
      (r.bound.findSome? (fun (k, x) => startItem run k x s) = none → slotsFor s run none ≠ [] → r.stampq ≠ [] →
        exec (.stampQueuePlace run) s = .next (((slotsFor s run none).zip r.stampq).foldl
          (fun v (k, x) => giveSlot run k x (v.modRun run fun y => { y with stampq := y.stampq.tail })) s))) ∧
    (∀ core entry u m, completeExport core entry s = some u → (u.core core).moulds.find entry = some m →
      exec (.exportComplete core entry) s =
        .next (((boundOf u m.run).filter fun (k, x) => coreOf k == core && x.handle == m.handle).foldl
          (fun v (k, x) => (startItem m.run k x v).getD v) u)) ∧
    ∀ a b, a < 4 → b < 4 → a ≠ b → linkDown s a b = false →
      let u := { s with deadLinks := s.deadLinks.add (4 * min a b + max a b) }
      exec (.dieLinkLoss a b) s = .next ((u.runs.keys.filter fun r => (runDies u r).contains a && (runDies u r).contains b).foldl loseRun u)

/-- R288, R310, R331, R334 to R344, R348, R352, R376, Tables 24-1 and 25-3: each hypervisor register reads its value, and an unlisted
number, or a write of a read-only one, raises 0x09. Outside hypervisor mode a write of one takes 0x02 before itself. In it, a write does what the register's entry says, or raises 0x09; the table's rows for a register write do the same write as a
step of its own, which moves no PC (log entry 23). A halt makes the tenant's plies leave their waits at once, and one that has drained halts them with 0x60, makes the tenant's loads
replay packets and tells the context plies; a restore holds the freeze; a sweep's end drops the tenant's lines outside its sets; a
split takes effect on a core without teams; a loaded key gets a value of its own. -/
def Obligations.HypervisorSteps : Prop :=
  (∀ (v : DWord) (n : Nat) (s : State) (p : Ply), Acts s p →
    let via := fun (i : Instr) (w : HypWrite) =>
      (p.mode ≠ 2 → exec i s = .next (takeCause s.cur .privileged p.a.pc 0 0 s)) ∧
      (p.mode = 2 → (∀ u, w = .done u → exec i s = .next u) ∧
        ∀ c, w = .cause c → exec i s = .next (takeCause s.cur c p.a.pc 0 0 s))
    (n < 16 → via (.tcfgWrite n v) (hypWrite (0x220 + n) v s) ∧ via (.subqWrite n v) (hypWrite (0x210 + n) v s)) ∧
    (n < 56 → via (.kwayWrite n v) (hypWrite (0x240 + n) v s)) ∧ via (.csplitWrite v) (hypWrite 0x2C3 v s) ∧
    (n < 64 → via (.keyctlLoad n) (hypWrite 0x2F8 (BitVec.ofNat 64 (n + 256)) s)) ∧
    via (.mbtabWrite v) (.done (writeMbtab v s)) ∧ via (.injctlArm v) (writeInjctl (v ||| 1) s)) ∧
  (∀ (v : DWord) (n : Nat) (s : State),
    let h := s.hyp
    hypWrite 0x200 v s = .done { s with hyp := { h with astbase := v &&& ~~~0x3FFFF#64 } } ∧
    (n < 56 → hypWrite (0x240 + n) v s = .done { s with hyp := { h with kway := h.kway.setD n v 0 } }) ∧
    (n < 64 → hypWrite (0x280 + n) v s = .done { s with hyp := { h with vfpol := h.vfpol.setD n (v.setWidth 7) 0 } }) ∧
    (h.preGo = false →
      let u := { s with hyp := { h with preTen := v.setWidth 4, preGo := v.getLsbD 8, preRestore := v.getLsbD 9 } }
      (v.getLsbD 8 = false ∨ v.getLsbD 9 = true → hypWrite 0x2C0 v s = .done u) ∧
      (v.getLsbD 8 = true → v.getLsbD 9 = false →
        hypWrite 0x2C0 v s = .done (u.plies.keys.foldl (leaveWait (v.toNat % 16)) u))) ∧
    (h.preGo = true → hypWrite 0x2C0 v s = .wait) ∧
    (v.toNat % 256 < 192 → hypWrite 0x2C2 v s = .done { s with hyp := { h with csel := v.setWidth 8 } }) ∧
    (192 ≤ v.toNat % 256 → hypWrite 0x2C2 v s = .cause .specialReg) ∧
    (n < 16 → v.toNat % 64 ≠ 0 → hypWrite (0x210 + n) v s = .cause .specialReg) ∧
    (v.toNat / 2 % 4 = 3 → writeInjctl v s = .cause .specialReg) ∧
    (v.toNat / 2 % 4 ≠ 3 → writeInjctl v s = .done { s with hyp := { h with
      injArm := v.getLsbD 0, injAt := if v.getLsbD 0 = true then h.injaddr else h.injAt, injMode := v.extractLsb' 1 2
      injFired := h.injFired && !v.getLsbD 3, injMask := v.extractLsb' 8 8 } })) ∧
  (∀ (s : State) (n : Nat),
    let h := s.hyp
    let r := s.rel
    let reads := fun (m : Nat) (x : DWord) => hypRead s m = some x
    (∀ x ∈ [(0x200, h.astbase), (0x201, h.flten.setWidth 64),
        (0x2C0, BitVec.ofNat 64 (h.preTen.toNat + 256 * h.preGo.toNat + 512 * h.preRestore.toNat)), (0x2C1, maskOf h.sweepOld.keys),
        (0x2C2, h.csel.setWidth 64), (0x2C3, BitVec.ofNat 64 ((s.core h.csel.toNat).nreq + 256 * (s.core h.csel.toNat).ncur)),
        (0x2E0, r.relcfg.setWidth 64), (0x2E1, r.rnsmapw.setWidth 64), (0x2E2, r.testmask.setWidth 64),
        (0x2E3, BitVec.ofNat 64 (r.sinjEn.toNat + 2 * r.sinjMode.toNat + 256 * r.sinjMask.toNat)), (0x2E4, r.sinjSeed.setWidth 64),
        (0x2E5, r.sinjRate.setWidth 64), (0x2E6, r.scrcfg.setWidth 64),
        (0x2E7, BitVec.ofNat 64 ((laggingNow s).toNat + 256 * r.deferring.toNat)),
        (0x2F8, BitVec.ofNat 64 (h.keySlot.toNat + 256 * h.keyLoad.toNat + 512 * h.keyBusy.toNat))], reads x.1 x.2) ∧
    (n < 16 → reads (0x210 + n) (h.subq.getD n 0) ∧ reads (0x220 + n) ((h.tcfg.getD n 0).setWidth 64) ∧
      reads (0x230 + n) ((h.tport.getD n 0).setWidth 64)) ∧
    (n < 56 → reads (0x240 + n) (h.kway.getD n 0)) ∧ (n < 64 → reads (0x280 + n) ((h.vfpol.getD n 0).setWidth 64)) ∧
    (n < 4 → reads (0x2E8 + n) ((r.cecnt.toList.getD n 0).setWidth 64) ∧ reads (0x2EC + n) ((r.uecnt.toList.getD n 0).setWidth 64) ∧
      reads (0x2F0 + n) ((r.dropcnt.toList.getD n 0).setWidth 64)) ∧
    let listed := (0x200 ≤ n ∧ n ≤ 0x201) ∨ (0x210 ≤ n ∧ n ≤ 0x277) ∨ (0x280 ≤ n ∧ n ≤ 0x2C3) ∨ (0x2E0 ≤ n ∧ n ≤ 0x2F3) ∨ n = 0x2F8
    (hypRead s n = none ↔ ¬listed) ∧
    ∀ v, ¬listed ∨ n = 0x2C1 ∨ n = 0x2E7 → hypWrite n v s = .cause .specialReg) ∧
  (∀ (t k : Nat) (s : State) (p : Ply), s.ply k = some p → p.mode = 0 → p.ident.tenant = some (BitVec.ofNat 4 t) →
    p.state ≠ .halted → p.wait.leaves = true → leaveWait t s k = (withdraw k s).modPly k fun q =>
      { q with state := .ready, wait := .none, words := [], kept := none, stalled := false }) ∧
  ∀ (t core : Nat) (s : State),
    let h := s.hyp
    let cores := tenantCores s t
    let tell := fun (f : State → Nat → State) (u : State) => cores.foldl f { u with hyp := { u.hyp with preGo := false } }
    (h.preGo = true → h.preRestore = false → h.preTen.toNat = t → haltDrained s t = true →
      let u := cores.foldl (fun s c => (pushCore c s).modCore c (·.packLoads t)) s
      exec (.prePreempt t) s = .next (tell (fun s c => setPevt (contextKey c) 1 s) (u.plies.keys.foldl (haltForPreempt t) u))) ∧
    (h.preGo = true → h.preRestore = true → h.preTen.toNat = t → exec (.preRestore t) s = .next (tell (fun s c =>
      setPevt (contextKey c) 1 (s.modCore c fun x => { x with frozen := true, freezeHeld := true })) s)) ∧
    (h.sweepOld.mem t = true → exec (.sweepEnd t) s = .next { s with
      l2 := s.l2.filter fun x => !(lineTenant s x.line == some t && !setIn (heldSets (tcfgOf s t)) x.set)
      hyp := { h with sweepOld := h.sweepOld.drop t } }) ∧
    (core < 192 → s.teams.any (fun (_, x) => x.core == core) = false →
      let n := min (s.core core).nreq (tsLimit s core)
      n ≠ (s.core core).ncur → exec (.carveOutApply core) s = .next (s.setCore core { s.core core with ncur := n, l1 := [], l1Order := [] })) ∧
    (h.keyLoad = true → exec .keyctlLoadDone s = .next { s with
      keys := s.keys.put h.keySlot.toNat s.nextKey, nextKey := s.nextKey + 1, hyp := { h with keyLoad := false } })

/-- R372 to R378, Table 27-1: cold reset and function reset, by an FLR or by RESTART.FR; RESTART.CP starts a stopped agent again. The
boot ROM takes an image, verifies it and extends MEAS, or stops at stage 15 with the reason, and loads what has passed; after a failure
it takes what the host has sent to ring 48's port; a stack, the host port and a drive's link come up; a
service core's ATTREQ writes its report. A compute die throttles while the warmest of its eight sensors is above 105 C and stops below
100 C, and at 125 C the package takes a cold reset. Of several reasons the lowest is given, and a key that no fuse names counts as
revoked, by the model's choice (log entry 104). -/
def Obligations.ResetsAndBoot : Prop :=
  ∀ (s : State),
    exec .coldReset s = .next (coldReset s) ∧ exec .functionReset s = .next (functionReset s) ∧
    (isService s.cur = true → exec .restartFr s = .next (functionReset s) ∧
      (∀ core, exec (.restartCp core) s = .next (restartAgent s.cur core s)) ∧
      ∀ pa, exec (.attreqWrite pa) s = .next (attest s.cur pa s)) ∧
    (∀ core p, core < 192 → s.ply (contextKey core) = some p → p.priv.stopped = true →
      restartAgent s.cur core s = startAgent (contextKey core) { p.priv with pinh := false, stopped := false } s) ∧
    (∀ img : FirmwareImage,
      let fuse := (List.range 4).find? fun n => Config.keyHash n == shake256 img.publicKey
      let bad : BitVec 8 := if img.headerGood = false then 1
        else if Config.falconVerifies img.publicKey (shake256 img.rest) img.signature = false then 2
        else if fuse.all Config.keyRevoked = true then 3
        else if img.version < Config.rollback then 4 else 0
      (s.io.stage = 0 ∨ (s.io.stage = 15 ∧ img.bytes ≠ [] ∧ s.io.upload.take img.bytes.length = img.bytes) →
        exec (.firmwareVerify img) s = .next { s with io := { s.io with stage := 1, image := some img, upload := [] } }) ∧
      (s.io.stage = 1 → s.io.image = none ∨ s.io.image = some img → exec (.firmwareVerify img) s = .next { s with io :=
        if bad ≠ 0 then { s.io with stage := 15, fail := bad, image := none }
        else { s.io with
          stage := 2, fail := 0, meas := shake256 (bytesLE s.io.meas.toNat 64 ++ bytesLE (shake256 img.bytes).toNat 64), readyRom := true
          image := some img } }) ∧
      (s.io.stage = 2 → s.io.image = some img →
        let u := writeLong (img.code.length / 128 + 2) img.base img.code s
        exec (.firmwareVerify img) s = .next (startAgents { u with io := { u.io with
          stage := 3, image := none, serviceEntry := alignPc img.serviceEntry, contextEntry := alignPc img.contextEntry } }))) ∧
    (∀ stack, stack < 8 → s.io.readyMem.getLsbD stack = false → s.io.stage ≠ 15 →
      let m := setBitTo s.io.readyMem stack true
      exec (.hbmStackTrained stack) s =
        .next (startAgents { s with io := { s.io with readyMem := m, readyKeys := s.io.readyKeys || m == 0xFF } })) ∧
    exec .hostPortTrained s = .next { s with io := { s.io with readyHost := true } } ∧
    (∀ port, port < 4 → s.io.stage ≠ 15 → exec (.nvmeLinkUp port) s =
      .next (noteDrives { s with io := { s.io with nvmeLink := setBitTo s.io.nvmeLink port true } })) ∧
    (∀ (m : Nat) (t : Int),
      let u := { s with io := { s.io with monitors := s.io.monitors.put m t } }
      let all := fun (b : Bool) => (List.range 48).foldl (fun s c => s.modCore (48 * (m / 8) + c) fun x => { x with throttled := b }) u
      let heat : Int := (List.range 7).foldl (fun x j => max x (u.io.monitors.getD (8 * (m / 8) + j + 1) 0)) (u.io.monitors.getD (8 * (m / 8)) 0)
      (m ≤ 49 → 1000 ≤ t → exec (.thermalThrottle m t) s = .next (coldReset u) ∧ exec (.thermalTrip m t) s = .next (coldReset u)) ∧
      (m < 32 → t < 1000 → exec (.thermalThrottle m t) s = .next (if heat > 840 then all true else if heat < 800 then all false else u)) ∧
      ((32 ≤ m ∧ m ≤ 49 ∧ t < 1000) ∨ (64 ≤ m ∧ m ≤ 76) ∨ (128 ≤ m ∧ m ≤ 140) → exec (.thermalThrottle m t) s = .next u))

/-- R359 to R371, R373, R374: a usable function's BAR2 access waits at the ordering point, at VA BASE + offset of its space, and one that
is not usable is dropped, its read answered with all ones; a read of BAR0 is answered there too: WAKE and the other rules below the
waiters read 0, STATUS its code, and the physical function's mirror READY and BOOTST. The point holds a request behind the writes
that R362 puts before it and behind its function's pushes, and then performs it. A 32-byte write of a push port is a push when port 48 opens
the descriptor's line, after a
failed verification one for the ROM. A doorbell of a lease that is not enabled or is stopped is dropped; a completion doorbell goes to the
drive; and for a new tail each entry before it is read, and one whose opcode is not allowed (reason 1), whose NSID (2) or blocks (3) are not
the lease's, that writes without WP (4) or that cannot be read (5) stops the lease, the tail before it goes to the drive and ring 47 gets
a record. A drive's DMA takes the
lease's space, or for its admin queues a place that is bound to no tenant, and its completion wakes QKEY through a port of the tenant.
Other packages' reads, writes, REDs, atomics and CASes are checked against their port and performed at home. The model's choices: a
function that is not usable, whose reads give ones and whose writes are dropped (log entry 87), a drive's DMA through a port that the
tenant does not hold (log entry 92), an Aktum request that fails, answered without data (log entry 93), and the trained links of log
entry 117. -/
def Obligations.HostSteps : Prop :=
  ∀ (s : State),
    (∀ vf off r relaxed, vf < 64 → BusRequest.plain r = true → s.io.readyHost = true →
      let w := s.io.vfwin.getD vf 0
      let waits := fun (i : Instr) (e : Inbound) => exec i s = .next { s with io := { s.io with inbound := s.io.inbound ++ [e] } }
      let ones := fun (i : Instr) (n : Nat) => exec i s = .next { s with outbox := s.outbox ++ [.hostRead vf (List.replicate n 0xFF)] }
      (off + BusRequest.length r ≤ 2 ^ 36 →
        (∀ t, functionTenant s vf = some t → (BusRequest.isWrite r = true → (s.io.inbound.filter Inbound.isWrite).length < 256) →
          waits (.bar2Access (.bar2 vf) off r relaxed)
            ⟨vf, relaxed && s.io.hro && BusRequest.isWrite r, t, w.toNat % 2 ^ 12, w.toNat / 2 ^ 36 % 2 ^ 21 * 2 ^ 36 + off, 0, r, .page⟩) ∧
        (functionTenant s vf = none → BusRequest.isWrite r = true → exec (.bar2Access (.bar2 vf) off r relaxed) s = .next s) ∧
        (∀ n, functionTenant s vf = none → r = .read n → ones (.bar2Access (.bar2 vf) off r relaxed) n)) ∧
      (∀ n, r = .read n →
        waits (.bar2Access .physical off r relaxed) ⟨128, false, 0, 0, off, 0, r, .bar0⟩ ∧
        (off + n ≤ 65536 →
          (functionTenant s vf ≠ none → waits (.bar2Access (.bar0 vf) off r relaxed) ⟨vf, false, 0, 0, off, 0, r, .bar0⟩) ∧
          (functionTenant s vf = none → ones (.bar2Access (.bar0 vf) off r relaxed) n))) ∧
      (BusRequest.isWrite r = true →
        (off + BusRequest.length r ≤ 65536 → ¬(off = 0 ∧ BusRequest.length r = 32) → off < 0x1000 ∨ 0x2000 ≤ off →
          exec (.bar2Access (.bar0 vf) off r relaxed) s = .next s) ∧
        (0x4000 ≤ off ∨ off % 0x1000 ≠ 0 ∨ BusRequest.length r ≠ 32 → exec (.bar2Access .physical off r relaxed) s = .next s))) ∧
    (∀ n off e, let waiter := waiterOf s e.source
      BusRequest.length e.req = n → e.aim = .bar0 →
      let read := fun (byte : Nat → Byte) => performInbound e s =
        { s with outbox := s.outbox ++ [.hostRead e.source ((List.range n).map byte)], fresh := s.fresh + 1 }
      (e.source < 64 → e.va < 0x1040 → e.va + n ≤ 0x1040 → read fun _ => 0) ∧
      (e.source < 64 → off < 63 → n = 1 → e.va = 0x1048 + 64 * off → read fun _ => (waiter off).status.setWidth 8) ∧
      (e.source = 128 → n = 8 → e.va = 0x8000 ∨ e.va = 0x8008 →
        read fun j => (bytesLE (ioRead s.io (0x400 + (e.va - 0x8000))).toNat 8).getD j 0)) ∧
    (∀ n r, s.io.inbound[n]? = some r → (s.io.inbound.take n).any (·.blocks r) = false → (r.relaxed = true ∨ pushesAhead s r.source = false) →
      exec (.orderingPointForward n) s = .next (performInbound r { s with io := { s.io with inbound := s.io.inbound.eraseIdx n } })) ∧
    (∀ e r : Inbound, e.source = r.source → (BusRequest.isWrite e.req = false → e.blocks r = false) ∧
      (BusRequest.isWrite e.req = true → BusRequest.isWrite r.req = false → e.blocks r = true) ∧
      (BusRequest.isWrite e.req = true → BusRequest.isWrite r.req = true → e.blocks r = (!r.relaxed && !e.relaxed))) ∧
    (∀ f t data, f < 64 → s.io.readyHost = true → writesAhead s f = false → functionTenant s f = some t →
      let desc := s.hyp.subq.getD t.toNat 0
      let x := placeOf s.io desc.toNat
      (data.length ≠ 32 ∨ desc = 0 ∨ portOpens s 48 x = false → exec (.pushPortWrite (.function f) data) s = .next s) ∧
      (data.length = 32 → desc ≠ 0 → portOpens s 48 x = true → windowRoom s f (dieOfPa x) ≠ 0 → exec (.pushPortWrite (.function f) data) s =
        .next (windowPush f (dieOfPa x) 0 0 ⟨(s.io.vfwin.getD f 0).toNat % 2 ^ 12, some t, false, 192⟩ x (.submission t) (entryOfBytes data) s))) ∧
    (∀ j data, j < 4 → s.io.readyHost = true →
      (data.length ≠ 32 → exec (.pushPortWrite (.ring j) data) s = .next s) ∧
      (data.length = 32 → s.io.stage = 15 → exec (.pushPortWrite (.ring j) data) s =
        .next (if j = 0 then { s with io := { s.io with upload := s.io.upload ++ data } } else s)) ∧
      let x := ringDesc s (48 + j)
      (data.length = 32 → s.io.stage ≠ 15 → portOpens s 48 x = false → exec (.pushPortWrite (.ring j) data) s = .next s) ∧
      (data.length = 32 → s.io.stage ≠ 15 → portOpens s 48 x = true → windowRoom s (64 + j) (dieOfPa x) ≠ 0 → exec (.pushPortWrite (.ring j) data) s =
        .next (windowPush (64 + j) (dieOfPa x) 0 0 ⟨0, none, true, 192⟩ x (.ring (48 + j)) (entryOfBytes data) s))) ∧
    (∀ k (x : BitVec 32), k < 64 →
      let l := s.lease k
      let takes := l.en = true ∧ l.stop = false
      let told := fun (t : BitVec 32) (y : Lease) (u : State) =>
        { u.setLease k { y with tail := t } with outbox := u.outbox ++ [.sqTail l.drive.toNat l.sqid.toNat t] }
      let new := if l.tail.toNat ≤ x.toNat then x.toNat - l.tail.toNat else Config.sqEntries l.drive l.sqid - l.tail.toNat + x.toNat
      (¬takes → exec (.sqTailDoorbell k x) s = .next s ∧ exec (.cqHeadDoorbell k x) s = .next s) ∧
      (takes → exec (.cqHeadDoorbell k x) s = .next { s with outbox := s.outbox ++ [.cqHead l.drive.toNat l.sqid.toNat x] }) ∧
      (takes → ∀ r u, EntriesChecked l new l.tail.toNat s r u →
        (r = none → exec (.sqTailDoorbell k x) s = .next (told x l u)) ∧
        ∀ i reason, r = some (i, reason) → exec (.sqTailDoorbell k x) s =
          .next (ringSend ioSender 47 [BitVec.ofNat 64 (k + 256 * reason + 2 ^ 32 * i), 0, 0, 0]
            (told (BitVec.ofNat 32 i) { l with stop := true, reason := BitVec.ofNat 8 reason } u)))) ∧
    (∀ lease va r relaxed, lease < 64 → (s.lease lease).en = true → s.io.stage ≠ 15 →
      let l := s.lease lease
      let e : Inbound := ⟨64 + l.drive.toNat, relaxed && s.io.hro && BusRequest.isWrite r, l.tenant, l.aspace.toNat, va, lease, r, .page⟩
      let key := latchKeyOf (some l.tenant) l.qkey
      let port := (s.hyp.tport.getD l.tenant.toNat 0).getLsbD (49 + l.drive.toNat)
      (BusRequest.plain r = true →
        (port = true → (BusRequest.isWrite r = true → (s.io.inbound.filter Inbound.isWrite).length < 256) →
          exec (.nvmeDma (.lease lease) va ⟨r, relaxed⟩) s = .next { s with io := { s.io with inbound := s.io.inbound ++ [e] } }) ∧
        (port = false → exec (.nvmeDma (.lease lease) va ⟨r, relaxed⟩) s = .next (failInbound e va 0 s))) ∧
      (writesAhead s (64 + l.drive.toNat) = false →
        (l.qkey = 0 ∨ port = false → exec (.nvmeCompletionInterrupt lease) s = .next s) ∧
        (l.qkey ≠ 0 → port = true →
          (latchFull s key = false → exec (.nvmeCompletionInterrupt lease) s = .next (wakeLatch key false s)) ∧
          (latchFull s key = true → exec (.nvmeCompletionInterrupt lease) s = .next { s with wakes := s.wakes ++ [key] })))) ∧
    (∀ j va r relaxed, j < 4 → s.io.stage ≠ 15 → BusRequest.plain r = true → unbound s va (BusRequest.length r) = true →
      (BusRequest.isWrite r = true → (s.io.inbound.filter Inbound.isWrite).length < 256) →
      exec (.nvmeDma (.admin j) va ⟨r, relaxed⟩) s = .next { s with io := { s.io with inbound := s.io.inbound ++
        [⟨64 + j, relaxed && s.io.hro && BusRequest.isWrite r, 0, 0, va, 64 + j, r, .admin⟩] } }) ∧
    (∀ port tenant pa r, port < 16 → s.io.akUp.getLsbD port = true → s.io.stage ≠ 15 → pa + BusRequest.length r ≤ 2 ^ 39 →
      (BusRequest.plain r = false → pa % BusRequest.length r = 0) →
      let t := if tenant < 16 then some (BitVec.ofNat 4 tenant) else none
      let xs := linesIn pa (BusRequest.length r)
      let io := 53 + port / 8
      let ok := (∀ y, t = some y → (s.hyp.tport.getD y.toNat 0).getLsbD io = true) ∧
        ∀ x ∈ xs, accessCheck s ⟨t, io, dieOfPa x.1, false⟩ x.1 x.2 = .ok
      let answer := fun (d : Option (List Byte)) (bad : Bool) (u : State) => { u with outbox := u.outbox ++ [.aktumReply port d bad] }
      (¬ok → exec (.aktumRequest port tenant pa r) s = .next (answer none false s)) ∧
      (∀ bs, ok → r = .write bs → exec (.aktumRequest port tenant pa r) s = .next (answer (some []) false (writePlaces xs bs s))) ∧
      (∀ n d u, ok → r = .read n → readPlaces t xs s = (d, u) →
        exec (.aktumRequest port tenant pa r) s = .next (answer (some d.1) d.2 u)) ∧
      (∀ i u, ok → BusRequest.plain r = false → placeRead t pa (BusRequest.length r) s = (i, u) →
        let n := BusRequest.length r
        let written := fun (v : Nat) => writeAt pa (bytesLE v n) none u
        (i.error ≠ none → exec (.aktumRequest port tenant pa r) s = .next (answer (some []) true (consumeRecord i 0 u))) ∧
        (i.error = none →
          (∀ op v, r = .red op v → exec (.aktumRequest port tenant pa r) s =
            .next (answer (some []) false (written (atomApply op op.width i.value (v.toNat % 2 ^ op.width))))) ∧
          (∀ op w v, r = .atom op w v → exec (.aktumRequest port tenant pa r) s =
            .next (answer (some i.bytes) false (written (atomApply op (8 * n) i.value (v.toNat % 2 ^ (8 * n)))))) ∧
          ∀ wide expected new, r = .cas wide expected new → exec (.aktumRequest port tenant pa r) s = .next (answer (some i.bytes) false
            (if i.value = expected.toNat % 2 ^ (8 * n) then written (new.toNat % 2 ^ (8 * n)) else u))))) ∧
    ∀ port, port < 16 →
      let up := fun (a b : Bool) (reach : Map NSet) => { s with io :=
        { s.io with akUp := setBitTo s.io.akUp port a, akNarrow := setBitTo s.io.akNarrow port b, reach := reach } }
      (∀ reaches, s.io.stage ≠ 15 →
        let u := up true false (s.io.reach.put port (reaches.foldl NSet.add []))
        exec (.aktumPortUp ⟨port, reaches⟩) s = .next { u with io := { u.io with readyAktum := true } }) ∧
      (s.io.akUp.getLsbD port = true → (∀ good, exec (.aktumFlit port good) s = .next s) ∧
        exec (.aktumPortDown port) s = .next (up false false (s.io.reach.drop port)) ∧
        exec (.aktumRetrain port) s = .next { s with io := { s.io with akNarrow := setBitTo s.io.akNarrow port true } })

/-! ## The machine as a whole -/

/-- R115, R118, R120, R308: on a turn of a ply that can issue and that nothing else takes (a cause that waits for its boundary, a user
interrupt, replay packets), a step runs what its words decode to, as `exec` gives it in the state after the fetch: the word at its
PC, for a ULIT with the next word as its literal (one whose guard fails needs none: log entry 120); a word that does not decode is
the illegal instruction of its cause. The ply is the one that its core chooses. After the instruction the pass counts follow, and the
plies that stood back try again. -/
def Obligations.StepRunsDecoded : Prop :=
  ∀ (n k : Nat) (rest : List Turn) (s u : State) (p : Ply) (w : BitVec 32), s.agenda = .ply n :: rest →
    let t := { tick s with agenda := rest }
    let ctx : DecodeCtx := ⟨decide (p.mode ≠ 0), isService k, decide (8 < p.width)⟩
    let runs := fun (i : Instr) (v : State) => step s = mapNext (afterTurn t k p) (exec i (issueState k v))
    turnOf n t = k → t.ply k = some p → p.canIssue k t = true → p.deferred = [] ∨ p.atBoundary = false → p.interruptible = false →
    hasPackets k p t = false → fetchWord k p p.a.pc t = (.word w, u) →
    (w.toNat / 2 ^ 25 ≠ 0x4C → ∀ i, decodeWord ctx w 0 = .ok i → runs i u) ∧
    (∀ c, decodeWord ctx w 0 = .error c → runs (.illegalInstruction c) u) ∧
    (w.toNat / 2 ^ 25 = 0x4C → ∀ lit v i j, decodeWord ctx w 0 = .ok j → fetchWord k p (p.a.pc + 4) u = (.word lit, v) →
      decodeWord ctx w lit = .ok i → runs i v) ∧
    (w.toNat / 2 ^ 25 = 0x4C → ∀ x v i j, decodeWord ctx w 0 = .ok j → fetchWord k p (p.a.pc + 4) u = (x, v) →
      (∀ lit, x ≠ .word lit) → guardHolds (fG w) p = false → decodeWord ctx w (Config.skippedLiteral u.fresh) = .ok i →
      runs i { u with fresh := u.fresh + 1 })

/-- The example words of Tables 7-24, 8-10, 9-10, 10-12, 11-12, 13-9 and 14-3, each with the instruction that it stands for, and
the word of R118's worked example that a branch into a literal decodes. -/
def Obligations.WordsDecode : Prop :=
  let ctx : DecodeCtx := ⟨false, false, true⟩
  let always : Guard := ⟨false, 7⟩
  decodeWord ctx 0x02182080 0 = .ok (.iadd 3 1 (.v 2) .none) ∧ decodeWord ctx 0x02182082 0 = .ok (.iadd 3 1 (.v 2) .a) ∧
  decodeWord ctx 0x12345678 0 = .ok (.xori 6 34 0x1678) ∧ decodeWord ctx 0x16208003 0 = .ok (.shri 4 4 3) ∧
  decodeWord ctx 0x1C407170 0 = .ok (.icmp 1 .replace 3 (.s 5) .ltu 0) ∧
  decodeWord ctx 0x282A2106 0 ≠ decodeWord ctx 0x28282106 0 ∧ decodeWord ctx 0x28282106 0 = .ok (.ffma 5 1 2 3) ∧
  decodeWord ctx 0x58408190 0 = .ok (.rnsadd 8 4 (.v 6) .none) ∧
  decodeWord ctx 0x36282150 0 = .ok (.ld 5 1 2 .b32 2 .normal false) ∧
  decodeWord ctx 0x44486202 0 = .ok (.red 9 3 4 .add .die) ∧
  decodeWord ctx 0x80182107 0 = .ok (.uadd 3 1 2 always) ∧ decodeWord ctx 0xA1FFFFDB 0 = .ok (.bra 0x1FFFFD ⟨true, 3⟩) ∧
  decodeWord ctx 0x9C909FB7 0 = .ok (.ucmpi .lt 2 4 0x1FB always) ∧
  decodeWord ctx 0x98280007 0x12345678 = .ok (.ulit 5 0x12345678 always) ∧
  decodeWord ctx 0xD4000017 0 = .ok (.ptkt 0 always) ∧ decodeWord ctx 0xD6806007 0 = .ok (.qpop 16 3 always) ∧
  decodeWord ctx 0xD82000A7 0 = .ok (.bara 1 .core 0 10 always) ∧ decodeWord ctx 0xDA00A097 0 = .ok (.lwakeInt 5 always) ∧
  decodeWord ctx 0xDC000017 0 = .ok (.exit always) ∧ decodeWord ctx 0xD22802B7 0 ≠ decodeWord ctx 0xD2288327 0 ∧
  decodeWord ctx 0xD2288327 0 = .ok (.cast 5 4 6 always)

/-- R121 to R125: decoding the words of a well-formed instruction, in privileged mode on a compute core, gives it back, with every
operand at every value that its encoding admits; the five RFE rows, which are one word, give the row of code 0. -/
def Obligations.RoundTrip : Prop :=
  ∀ i : Instr, i.wellFormed = true → decodeWords ⟨true, false, false⟩ (encode i) = .ok i.asDecoded

/-- A step keeps the memory in its one canonical form: the listed addresses strictly rise, and no listed byte is 0, as which an
unlisted address reads (log entry 3). -/
def Obligations.StepKeepsMemoryCanonical : Prop :=
  ∀ s t : State, MemoryCanonical s → step s = .next t → MemoryCanonical t

/-- R1, R295, R296: a write at home puts its bytes, the lowest first, from its address up, and changes no other byte of memory, when
its line is under the key of the write; the memory stays in canonical form. -/
def Obligations.MemoryBytes : Prop :=
  ∀ (a : Nat) (bs : List Byte) (poison : Option Mark) (s : State), MemoryCanonical s →
    let key := (keyFor s a).getD 0
    let t := writeHome a bs poison s
    MemoryCanonical t ∧
    ((∀ k, s.keyOf.find (lineOf a) = some k → k = key) →
      (∀ x, x < a ∨ a + bs.length ≤ x → Memory.read t.mem x = Memory.read s.mem x) ∧
      (∀ j, (h : j < bs.length) → Memory.read t.mem (a + j) = bs[j]) ∧
      (∀ j, (h : j < bs.length) → a % 128 + bs.length ≤ 128 → homeByte t key (a + j) = bs[j])) ∧
    ∀ v n : Nat, ofBytesLE (bytesLE v n) = v % 2 ^ (8 * n) ∧ ∀ j, (h : j < (bytesLE v n).length) → (bytesLE v n)[j] = BitVec.ofNat 8 (v / 2 ^ (8 * j))

/-- R120, R260: a guarded instruction whose guard fails changes nothing: the next instruction is the one behind its words. Its words
feed the watermark as those of one that runs, but for a control transfer's, WMK's and RFE's. -/
def Obligations.GuardFails : Prop :=
  ∀ (i : Instr) (g : Guard) (s : State) (p : Ply), i.guard? = some g → Acts s p → guardHolds g p = false →
    let fed := match i with
      | .bra _ _ | .brx _ _ | .call _ _ | .callx _ _ | .ret _ _ | .kmeet _ _ | .iret _ | .wmk _ _ | .rfeResume _ _ | .rfeDeliver _ _
      | .rfeKill _ _ | .rfeResumeNoReplay _ _ | .rfeReturn _ _ => false
      | _ => true
    exec i s = .next (s.setPly s.cur (went { fed := fed } i p (nextPc i p)))

/-- R43, Table 3-1: a uniform register reads what was last written to it, and a write to one changes no other. q7 reads 1 and p7
reads 1 in the ply's lanes, and a write to either is discarded; a predicate takes the lanes that are written and keeps the others. -/
def Obligations.HardwiredRegisters : Prop :=
  ∀ (p : Ply) (r x : SReg) (v mask : DWord) (a b : PReg) (q y : QReg) (bit : Bool),
    (p.setS r v).sreg x = (if x = r then v else p.sreg x) ∧
    p.preg 7 = allLanes p.width ∧ p.setP 7 mask v = p ∧ p.qreg 7 = true ∧ p.setQ 7 bit = p ∧
    (a ≠ 7 → (p.setP a mask v).preg b = if b = a then (p.preg a &&& ~~~mask) ||| (v &&& mask) else p.preg b) ∧
    (q ≠ 7 → (p.setQ q bit).qreg y = if y = q then bit else p.qreg y) ∧
    ∀ l, (allLanes p.width).getLsbD l = decide (l < p.width ∧ l < 64)

/-- R20, R44, R295, R298, R372, R374, Table 27-1, Table 3-1: after a cold reset no ply, team or run exists, READY and BOOTST read 0,
every frame is Quarantined and not retired, and every key slot is zeroised; the memory is in its canonical form. A ply that a run
starts has the descriptor's arguments in s0 to s7 and 0 in s8 to s63, every lane active, every row map entry Zero, its
predicates, FPMODE, FPFLAGS and completion registers 0, ROLE 0, and its PC at the descriptor's entry. A context ply starts at its
image's entry in privileged mode, a service core in hypervisor mode. -/
def Obligations.StartStates : Prop :=
  (MemoryCanonical State.reset ∧ State.reset.plies = [] ∧ State.reset.teams = [] ∧ State.reset.runs = [] ∧
    (∀ k, State.reset.ply k = none) ∧ (∀ f, State.reset.frame f = .quarantined) ∧ State.reset.retiredFrames = [] ∧
    (∀ n, State.reset.keys.mem n = false) ∧ State.reset.io.readyRom = false ∧ State.reset.io.readyMem = 0 ∧
    State.reset.io.readySvc = 0 ∧ State.reset.io.readyDie = 0 ∧ State.reset.io.readyHost = false ∧ State.reset.io.readyNvme = 0 ∧
    State.reset.io.readyAktum = false ∧ State.reset.io.readyKeys = false ∧ State.reset.io.stage = 0 ∧ State.reset.io.fail = 0 ∧
    ∀ s, (coldReset s).plies = [] ∧ (coldReset s).retiredFrames = s.retiredFrames) ∧
  (∀ (k : Nat) (r : Run) (ident : Ident) (s : State),
    ∃ p, (startPly k r ident s).ply k = some p ∧ p.state = .ready ∧ p.mode = 0 ∧ p.width = r.desc.width ∧ p.a.pc = r.desc.entry ∧
      p.a.em = allLanes r.desc.width ∧ p.a.knuckles = [] ∧ p.diverged = false ∧ p.a.role = 0 ∧ p.a.wix = 0 ∧ p.a.sibix = 0 ∧
      p.a.fpmode = 0 ∧ p.a.fpflags = 0 ∧ (∀ c : CReg, p.creg c = 0) ∧
      (∀ j : Nat, (h : j < 8) → p.sreg (BitVec.ofNat 6 j) = r.desc.args[j]) ∧ (∀ x : SReg, 8 ≤ x.toNat → p.sreg x = 0) ∧
      (∀ x : VReg, p.entry x = .zero) ∧ (∀ q : QReg, q ≠ 7 → p.qreg q = false) ∧ (∀ x : PReg, x ≠ 7 → p.preg x = 0) ∧
      ∀ j, j ≠ k → (startPly k r ident s).ply j = s.ply j) ∧
  ∀ (k : Nat) (pr : Priv) (s : State), ∃ p, (startAgent k pr s).ply k = some p ∧ p.priv = pr ∧
    (isService k = true → p.mode = 2 ∧ p.width = 8 ∧ p.a.pc = s.io.serviceEntry) ∧
    (isService k = false → p.mode = 1 ∧ p.width = 64 ∧ p.a.pc = s.io.contextEntry)
end

