-- ==== Sys2Proof/Laws/Map.lean ====
section
/-! SUPPORT. Laws/Map.lean: the laws of sparse maps: what a lookup gives after a write or a removal, and that both keep the
keys strictly rising. -/
namespace Sys2Proof.Machine

variable {α : Type}

@[simp] theorem Map.find_put_same (m : Map α) (k : Nat) (a : α) : (m.put k a).find k = some a := by
  induction m with
  | nil => simp [Map.put, Map.find]
  | cons x m ih =>
    obtain ⟨j, b⟩ := x
    by_cases h : k < j
    · simp [Map.put, Map.find, h]
    · by_cases e : k = j <;> simp [Map.put, Map.find, h, e]
      simpa [e] using ih

theorem Map.find_put_other (m : Map α) {k j : Nat} (a : α) (h : j ≠ k) : (m.put k a).find j = m.find j := by
  induction m with
  | nil => simp [Map.put, Map.find, h]
  | cons x m ih =>
    obtain ⟨i, b⟩ := x
    by_cases h1 : k < i
    · simp [Map.put, Map.find, h1, h]
    · by_cases e : k = i
      · subst e; simp [Map.put, Map.find, h]
      · simp only [Map.put, h1, e, if_false, Map.find]; split
        · rfl
        · exact ih

theorem Map.find_put (m : Map α) (k j : Nat) (a : α) : (m.put k a).find j = if j = k then some a else m.find j := by
  by_cases h : j = k
  · subst h; simp
  · simp [h, Map.find_put_other m a h]

@[simp] theorem Map.put_put (m : Map α) (k : Nat) (a b : α) : (m.put k a).put k b = m.put k b := by
  induction m with
  | nil => simp [Map.put]
  | cons x m ih =>
    obtain ⟨j, c⟩ := x
    by_cases h : k < j
    · simp [Map.put, h]
    · by_cases e : k = j
      · simp [Map.put, e]
      · simp [Map.put, h, e, ih]

/-- A canonical map lists nothing below its least key. -/
theorem Map.find_below (m : Map α) (w k : Nat) (h : m.sortedFrom w = true) (hk : k < w) : m.find k = none := by
  induction m generalizing w with
  | nil => rfl
  | cons x m ih =>
    obtain ⟨j, b⟩ := x
    simp only [Map.sortedFrom, Bool.and_eq_true, decide_eq_true_eq] at h
    have : k ≠ j := by omega
    simp only [Map.find, this, if_false]
    exact ih (j + 1) h.2 (by omega)

/-- Writing the value that a key has changes nothing. -/
theorem Map.put_find (m : Map α) {k : Nat} {a : α} (w : Nat) (h : m.sortedFrom w = true) (f : m.find k = some a) : m.put k a = m := by
  induction m generalizing w with
  | nil => simp [Map.find] at f
  | cons x m ih =>
    obtain ⟨j, c⟩ := x
    simp only [Map.sortedFrom, Bool.and_eq_true, decide_eq_true_eq] at h
    simp only [Map.find] at f
    by_cases e : k = j
    · subst e; simp at f; subst f; simp [Map.put]
    · simp only [e, if_false] at f
      by_cases l : k < j
      · exfalso
        rw [Map.find_below m (j + 1) k h.2 (by omega)] at f
        cases f
      · simp [Map.put, l, e, ih (j + 1) h.2 f]

theorem Map.sortedFrom_put (m : Map α) (k : Nat) (a : α) (w : Nat) (h : m.sortedFrom w = true) (hw : w ≤ k) :
    (m.put k a).sortedFrom w = true := by
  induction m generalizing w with
  | nil => simp [Map.put, Map.sortedFrom, hw]
  | cons x m ih =>
    obtain ⟨j, b⟩ := x
    simp only [Map.sortedFrom, Bool.and_eq_true, decide_eq_true_eq] at h
    by_cases h1 : k < j
    · simp [Map.put, h1, Map.sortedFrom, hw, h.2] <;> omega
    · by_cases e : k = j
      · subst e; simp [Map.put, Map.sortedFrom, hw, h.2]
      · simp only [Map.put, h1, e, if_false, Map.sortedFrom, Bool.and_eq_true, decide_eq_true_eq]
        exact ⟨h.1, ih (j + 1) h.2 (by omega)⟩

theorem Map.sortedFrom_le (m : Map α) {v w : Nat} (h : m.sortedFrom w = true) (hv : v ≤ w) : m.sortedFrom v = true := by
  cases m with
  | nil => rfl
  | cons x m =>
    obtain ⟨j, b⟩ := x
    simp only [Map.sortedFrom, Bool.and_eq_true, decide_eq_true_eq] at h ⊢
    exact ⟨by omega, h.2⟩

theorem Map.sortedFrom_drop (m : Map α) (k w : Nat) (h : m.sortedFrom w = true) : (m.drop k).sortedFrom w = true := by
  induction m generalizing w with
  | nil => rfl
  | cons x m ih =>
    obtain ⟨j, b⟩ := x
    simp only [Map.sortedFrom, Bool.and_eq_true, decide_eq_true_eq] at h
    by_cases e : k = j
    · subst e; simp only [Map.drop, if_true]; exact Map.sortedFrom_le _ (ih (k + 1) h.2) (Nat.le_succ_of_le h.1)
    · simp only [Map.drop, e, if_false, Map.sortedFrom, Bool.and_eq_true, decide_eq_true_eq]
      exact ⟨h.1, ih (j + 1) h.2⟩

/-- A removed key is unlisted. -/
theorem Map.find_drop_same (m : Map α) (k : Nat) : (m.drop k).find k = none := by
  induction m with
  | nil => rfl
  | cons x m ih =>
    obtain ⟨j, b⟩ := x
    by_cases e : k = j
    · simp only [Map.drop, e, if_true]; exact e ▸ ih
    · simp only [Map.drop, e, if_false, Map.find]; exact ih

theorem Map.find_drop_other (m : Map α) {k j : Nat} (h : j ≠ k) : (m.drop k).find j = m.find j := by
  induction m with
  | nil => rfl
  | cons x m ih =>
    obtain ⟨i, b⟩ := x
    by_cases e : k = i
    · subst e; simp only [Map.drop, if_true, Map.find, h, if_false]; exact ih
    · simp only [Map.drop, e, if_false, Map.find]; split
      · rfl
      · exact ih

theorem Map.all_put (m : Map α) (f : Nat × α → Bool) (k : Nat) (a : α) (h : m.all f = true) (ha : f (k, a) = true) :
    (m.put k a).all f = true := by
  induction m with
  | nil => simp [Map.put, ha]
  | cons x m ih =>
    obtain ⟨j, b⟩ := x
    simp only [List.all_cons, Bool.and_eq_true] at h
    by_cases h1 : k < j
    · simp only [Map.put, h1, if_true, List.all_cons, Bool.and_eq_true]; exact ⟨ha, h⟩
    · by_cases e : k = j
      · subst e; simp only [Map.put, Nat.lt_irrefl, if_false, if_true, List.all_cons, Bool.and_eq_true]; exact ⟨ha, h.2⟩
      · simp only [Map.put, h1, e, if_false, List.all_cons, Bool.and_eq_true]; exact ⟨h.1, ih h.2⟩

theorem Map.all_drop (m : Map α) (f : Nat × α → Bool) (k : Nat) (h : m.all f = true) : (m.drop k).all f = true := by
  induction m with
  | nil => rfl
  | cons x m ih =>
    obtain ⟨j, b⟩ := x
    simp only [List.all_cons, Bool.and_eq_true] at h
    by_cases e : k = j
    · simp only [Map.drop, e, if_true]; exact e ▸ ih h.2
    · simp only [Map.drop, e, if_false, List.all_cons, Bool.and_eq_true]; exact ⟨h.1, ih h.2⟩

theorem Map.sortedFrom_filter (m : Map α) (f : Nat × α → Bool) (w : Nat) (h : m.sortedFrom w = true) :
    Map.sortedFrom w (m.filter f) = true := by
  induction m generalizing w with
  | nil => rfl
  | cons x m ih =>
    obtain ⟨j, b⟩ := x
    simp only [Map.sortedFrom, Bool.and_eq_true, decide_eq_true_eq] at h
    rw [List.filter_cons]
    split
    · simp only [Map.sortedFrom, Bool.and_eq_true, decide_eq_true_eq]; exact ⟨h.1, ih (j + 1) h.2⟩
    · exact Map.sortedFrom_le _ (ih (j + 1) h.2) (by omega)

end Sys2Proof.Machine
end

