-- ==== Sys2Proof/Laws/State.lean ====
section
/-! SUPPORT. Laws/State.lean: what each update of State, of a ply and of its registers leaves in every field, one lemma per
field per update, and what the register accessors read after a write. -/
namespace Sys2Proof.Machine

/-! ## Updates of State -/

@[simp] theorem State.setPly_cur (s : State) (k : Nat) (p : Ply) : (s.setPly k p).cur = s.cur := rfl
@[simp] theorem State.setPly_agenda (s : State) (k : Nat) (p : Ply) : (s.setPly k p).agenda = s.agenda := rfl
@[simp] theorem State.setPly_lapse (s : State) (k : Nat) (p : Ply) : (s.setPly k p).lapse = s.lapse := rfl
@[simp] theorem State.setPly_cycle (s : State) (k : Nat) (p : Ply) : (s.setPly k p).cycle = s.cycle := rfl
@[simp] theorem State.setPly_coreReset (s : State) (k : Nat) (p : Ply) : (s.setPly k p).coreReset = s.coreReset := rfl
@[simp] theorem State.setPly_fresh (s : State) (k : Nat) (p : Ply) : (s.setPly k p).fresh = s.fresh := rfl
@[simp] theorem State.setPly_seq (s : State) (k : Nat) (p : Ply) : (s.setPly k p).seq = s.seq := rfl
@[simp] theorem State.setPly_plies (s : State) (k : Nat) (p : Ply) : (s.setPly k p).plies = s.plies.put k p := rfl
@[simp] theorem State.setPly_cores (s : State) (k : Nat) (p : Ply) : (s.setPly k p).cores = s.cores := rfl
@[simp] theorem State.setPly_teams (s : State) (k : Nat) (p : Ply) : (s.setPly k p).teams = s.teams := rfl
@[simp] theorem State.setPly_runs (s : State) (k : Nat) (p : Ply) : (s.setPly k p).runs = s.runs := rfl
@[simp] theorem State.setPly_nextRun (s : State) (k : Nat) (p : Ply) : (s.setPly k p).nextRun = s.nextRun := rfl
@[simp] theorem State.setPly_mem (s : State) (k : Nat) (p : Ply) : (s.setPly k p).mem = s.mem := rfl
@[simp] theorem State.setPly_poison (s : State) (k : Nat) (p : Ply) : (s.setPly k p).poison = s.poison := rfl
@[simp] theorem State.setPly_latent (s : State) (k : Nat) (p : Ply) : (s.setPly k p).latent = s.latent := rfl
@[simp] theorem State.setPly_keyOf (s : State) (k : Nat) (p : Ply) : (s.setPly k p).keyOf = s.keyOf := rfl
@[simp] theorem State.setPly_frames (s : State) (k : Nat) (p : Ply) : (s.setPly k p).frames = s.frames := rfl
@[simp] theorem State.setPly_retirePending (s : State) (k : Nat) (p : Ply) : (s.setPly k p).retirePending = s.retirePending := rfl
@[simp] theorem State.setPly_retiredFrames (s : State) (k : Nat) (p : Ply) : (s.setPly k p).retiredFrames = s.retiredFrames := rfl
@[simp] theorem State.setPly_jobs (s : State) (k : Nat) (p : Ply) : (s.setPly k p).jobs = s.jobs := rfl
@[simp] theorem State.setPly_keys (s : State) (k : Nat) (p : Ply) : (s.setPly k p).keys = s.keys := rfl
@[simp] theorem State.setPly_nextKey (s : State) (k : Nat) (p : Ply) : (s.setPly k p).nextKey = s.nextKey := rfl
@[simp] theorem State.setPly_spaceGens (s : State) (k : Nat) (p : Ply) : (s.setPly k p).spaceGens = s.spaceGens := rfl
@[simp] theorem State.setPly_tlbs (s : State) (k : Nat) (p : Ply) : (s.setPly k p).tlbs = s.tlbs := rfl
@[simp] theorem State.setPly_merges (s : State) (k : Nat) (p : Ply) : (s.setPly k p).merges = s.merges := rfl
@[simp] theorem State.setPly_heldMisses (s : State) (k : Nat) (p : Ply) : (s.setPly k p).heldMisses = s.heldMisses := rfl
@[simp] theorem State.setPly_l2 (s : State) (k : Nat) (p : Ply) : (s.setPly k p).l2 = s.l2 := rfl
@[simp] theorem State.setPly_disabledWays (s : State) (k : Nat) (p : Ply) : (s.setPly k p).disabledWays = s.disabledWays := rfl
@[simp] theorem State.setPly_queues (s : State) (k : Nat) (p : Ply) : (s.setPly k p).queues = s.queues := rfl
@[simp] theorem State.setPly_windows (s : State) (k : Nat) (p : Ply) : (s.setPly k p).windows = s.windows := rfl
@[simp] theorem State.setPly_unsent (s : State) (k : Nat) (p : Ply) : (s.setPly k p).unsent = s.unsent := rfl
@[simp] theorem State.setPly_latches (s : State) (k : Nat) (p : Ply) : (s.setPly k p).latches = s.latches := rfl
@[simp] theorem State.setPly_wakes (s : State) (k : Nat) (p : Ply) : (s.setPly k p).wakes = s.wakes := rfl
@[simp] theorem State.setPly_hyp (s : State) (k : Nat) (p : Ply) : (s.setPly k p).hyp = s.hyp := rfl
@[simp] theorem State.setPly_rel (s : State) (k : Nat) (p : Ply) : (s.setPly k p).rel = s.rel := rfl
@[simp] theorem State.setPly_io (s : State) (k : Nat) (p : Ply) : (s.setPly k p).io = s.io := rfl
@[simp] theorem State.setPly_deadLinks (s : State) (k : Nat) (p : Ply) : (s.setPly k p).deadLinks = s.deadLinks := rfl
@[simp] theorem State.setPly_lost (s : State) (k : Nat) (p : Ply) : (s.setPly k p).lost = s.lost := rfl
@[simp] theorem State.setPly_outbox (s : State) (k : Nat) (p : Ply) : (s.setPly k p).outbox = s.outbox := rfl
@[simp] theorem State.setCore_cur (s : State) (c : Nat) (x : Core) : (s.setCore c x).cur = s.cur := rfl
@[simp] theorem State.setCore_agenda (s : State) (c : Nat) (x : Core) : (s.setCore c x).agenda = s.agenda := rfl
@[simp] theorem State.setCore_lapse (s : State) (c : Nat) (x : Core) : (s.setCore c x).lapse = s.lapse := rfl
@[simp] theorem State.setCore_cycle (s : State) (c : Nat) (x : Core) : (s.setCore c x).cycle = s.cycle := rfl
@[simp] theorem State.setCore_coreReset (s : State) (c : Nat) (x : Core) : (s.setCore c x).coreReset = s.coreReset := rfl
@[simp] theorem State.setCore_fresh (s : State) (c : Nat) (x : Core) : (s.setCore c x).fresh = s.fresh := rfl
@[simp] theorem State.setCore_seq (s : State) (c : Nat) (x : Core) : (s.setCore c x).seq = s.seq := rfl
@[simp] theorem State.setCore_plies (s : State) (c : Nat) (x : Core) : (s.setCore c x).plies = s.plies := rfl
@[simp] theorem State.setCore_cores (s : State) (c : Nat) (x : Core) : (s.setCore c x).cores = s.cores.put c x := rfl
@[simp] theorem State.setCore_teams (s : State) (c : Nat) (x : Core) : (s.setCore c x).teams = s.teams := rfl
@[simp] theorem State.setCore_runs (s : State) (c : Nat) (x : Core) : (s.setCore c x).runs = s.runs := rfl
@[simp] theorem State.setCore_nextRun (s : State) (c : Nat) (x : Core) : (s.setCore c x).nextRun = s.nextRun := rfl
@[simp] theorem State.setCore_mem (s : State) (c : Nat) (x : Core) : (s.setCore c x).mem = s.mem := rfl
@[simp] theorem State.setCore_poison (s : State) (c : Nat) (x : Core) : (s.setCore c x).poison = s.poison := rfl
@[simp] theorem State.setCore_latent (s : State) (c : Nat) (x : Core) : (s.setCore c x).latent = s.latent := rfl
@[simp] theorem State.setCore_keyOf (s : State) (c : Nat) (x : Core) : (s.setCore c x).keyOf = s.keyOf := rfl
@[simp] theorem State.setCore_frames (s : State) (c : Nat) (x : Core) : (s.setCore c x).frames = s.frames := rfl
@[simp] theorem State.setCore_retirePending (s : State) (c : Nat) (x : Core) : (s.setCore c x).retirePending = s.retirePending := rfl
@[simp] theorem State.setCore_retiredFrames (s : State) (c : Nat) (x : Core) : (s.setCore c x).retiredFrames = s.retiredFrames := rfl
@[simp] theorem State.setCore_jobs (s : State) (c : Nat) (x : Core) : (s.setCore c x).jobs = s.jobs := rfl
@[simp] theorem State.setCore_keys (s : State) (c : Nat) (x : Core) : (s.setCore c x).keys = s.keys := rfl
@[simp] theorem State.setCore_nextKey (s : State) (c : Nat) (x : Core) : (s.setCore c x).nextKey = s.nextKey := rfl
@[simp] theorem State.setCore_spaceGens (s : State) (c : Nat) (x : Core) : (s.setCore c x).spaceGens = s.spaceGens := rfl
@[simp] theorem State.setCore_tlbs (s : State) (c : Nat) (x : Core) : (s.setCore c x).tlbs = s.tlbs := rfl
@[simp] theorem State.setCore_merges (s : State) (c : Nat) (x : Core) : (s.setCore c x).merges = s.merges := rfl
@[simp] theorem State.setCore_heldMisses (s : State) (c : Nat) (x : Core) : (s.setCore c x).heldMisses = s.heldMisses := rfl
@[simp] theorem State.setCore_l2 (s : State) (c : Nat) (x : Core) : (s.setCore c x).l2 = s.l2 := rfl
@[simp] theorem State.setCore_disabledWays (s : State) (c : Nat) (x : Core) : (s.setCore c x).disabledWays = s.disabledWays := rfl
@[simp] theorem State.setCore_queues (s : State) (c : Nat) (x : Core) : (s.setCore c x).queues = s.queues := rfl
@[simp] theorem State.setCore_windows (s : State) (c : Nat) (x : Core) : (s.setCore c x).windows = s.windows := rfl
@[simp] theorem State.setCore_unsent (s : State) (c : Nat) (x : Core) : (s.setCore c x).unsent = s.unsent := rfl
@[simp] theorem State.setCore_latches (s : State) (c : Nat) (x : Core) : (s.setCore c x).latches = s.latches := rfl
@[simp] theorem State.setCore_wakes (s : State) (c : Nat) (x : Core) : (s.setCore c x).wakes = s.wakes := rfl
@[simp] theorem State.setCore_hyp (s : State) (c : Nat) (x : Core) : (s.setCore c x).hyp = s.hyp := rfl
@[simp] theorem State.setCore_rel (s : State) (c : Nat) (x : Core) : (s.setCore c x).rel = s.rel := rfl
@[simp] theorem State.setCore_io (s : State) (c : Nat) (x : Core) : (s.setCore c x).io = s.io := rfl
@[simp] theorem State.setCore_deadLinks (s : State) (c : Nat) (x : Core) : (s.setCore c x).deadLinks = s.deadLinks := rfl
@[simp] theorem State.setCore_lost (s : State) (c : Nat) (x : Core) : (s.setCore c x).lost = s.lost := rfl
@[simp] theorem State.setCore_outbox (s : State) (c : Nat) (x : Core) : (s.setCore c x).outbox = s.outbox := rfl
@[simp] theorem State.setTeam_cur (s : State) (t : Nat) (x : Team) : (s.setTeam t x).cur = s.cur := rfl
@[simp] theorem State.setTeam_agenda (s : State) (t : Nat) (x : Team) : (s.setTeam t x).agenda = s.agenda := rfl
@[simp] theorem State.setTeam_lapse (s : State) (t : Nat) (x : Team) : (s.setTeam t x).lapse = s.lapse := rfl
@[simp] theorem State.setTeam_cycle (s : State) (t : Nat) (x : Team) : (s.setTeam t x).cycle = s.cycle := rfl
@[simp] theorem State.setTeam_coreReset (s : State) (t : Nat) (x : Team) : (s.setTeam t x).coreReset = s.coreReset := rfl
@[simp] theorem State.setTeam_fresh (s : State) (t : Nat) (x : Team) : (s.setTeam t x).fresh = s.fresh := rfl
@[simp] theorem State.setTeam_seq (s : State) (t : Nat) (x : Team) : (s.setTeam t x).seq = s.seq := rfl
@[simp] theorem State.setTeam_plies (s : State) (t : Nat) (x : Team) : (s.setTeam t x).plies = s.plies := rfl
@[simp] theorem State.setTeam_cores (s : State) (t : Nat) (x : Team) : (s.setTeam t x).cores = s.cores := rfl
@[simp] theorem State.setTeam_teams (s : State) (t : Nat) (x : Team) : (s.setTeam t x).teams = s.teams.put t x := rfl
@[simp] theorem State.setTeam_runs (s : State) (t : Nat) (x : Team) : (s.setTeam t x).runs = s.runs := rfl
@[simp] theorem State.setTeam_nextRun (s : State) (t : Nat) (x : Team) : (s.setTeam t x).nextRun = s.nextRun := rfl
@[simp] theorem State.setTeam_mem (s : State) (t : Nat) (x : Team) : (s.setTeam t x).mem = s.mem := rfl
@[simp] theorem State.setTeam_poison (s : State) (t : Nat) (x : Team) : (s.setTeam t x).poison = s.poison := rfl
@[simp] theorem State.setTeam_latent (s : State) (t : Nat) (x : Team) : (s.setTeam t x).latent = s.latent := rfl
@[simp] theorem State.setTeam_keyOf (s : State) (t : Nat) (x : Team) : (s.setTeam t x).keyOf = s.keyOf := rfl
@[simp] theorem State.setTeam_frames (s : State) (t : Nat) (x : Team) : (s.setTeam t x).frames = s.frames := rfl
@[simp] theorem State.setTeam_retirePending (s : State) (t : Nat) (x : Team) : (s.setTeam t x).retirePending = s.retirePending := rfl
@[simp] theorem State.setTeam_retiredFrames (s : State) (t : Nat) (x : Team) : (s.setTeam t x).retiredFrames = s.retiredFrames := rfl
@[simp] theorem State.setTeam_jobs (s : State) (t : Nat) (x : Team) : (s.setTeam t x).jobs = s.jobs := rfl
@[simp] theorem State.setTeam_keys (s : State) (t : Nat) (x : Team) : (s.setTeam t x).keys = s.keys := rfl
@[simp] theorem State.setTeam_nextKey (s : State) (t : Nat) (x : Team) : (s.setTeam t x).nextKey = s.nextKey := rfl
@[simp] theorem State.setTeam_spaceGens (s : State) (t : Nat) (x : Team) : (s.setTeam t x).spaceGens = s.spaceGens := rfl
@[simp] theorem State.setTeam_tlbs (s : State) (t : Nat) (x : Team) : (s.setTeam t x).tlbs = s.tlbs := rfl
@[simp] theorem State.setTeam_merges (s : State) (t : Nat) (x : Team) : (s.setTeam t x).merges = s.merges := rfl
@[simp] theorem State.setTeam_heldMisses (s : State) (t : Nat) (x : Team) : (s.setTeam t x).heldMisses = s.heldMisses := rfl
@[simp] theorem State.setTeam_l2 (s : State) (t : Nat) (x : Team) : (s.setTeam t x).l2 = s.l2 := rfl
@[simp] theorem State.setTeam_disabledWays (s : State) (t : Nat) (x : Team) : (s.setTeam t x).disabledWays = s.disabledWays := rfl
@[simp] theorem State.setTeam_queues (s : State) (t : Nat) (x : Team) : (s.setTeam t x).queues = s.queues := rfl
@[simp] theorem State.setTeam_windows (s : State) (t : Nat) (x : Team) : (s.setTeam t x).windows = s.windows := rfl
@[simp] theorem State.setTeam_unsent (s : State) (t : Nat) (x : Team) : (s.setTeam t x).unsent = s.unsent := rfl
@[simp] theorem State.setTeam_latches (s : State) (t : Nat) (x : Team) : (s.setTeam t x).latches = s.latches := rfl
@[simp] theorem State.setTeam_wakes (s : State) (t : Nat) (x : Team) : (s.setTeam t x).wakes = s.wakes := rfl
@[simp] theorem State.setTeam_hyp (s : State) (t : Nat) (x : Team) : (s.setTeam t x).hyp = s.hyp := rfl
@[simp] theorem State.setTeam_rel (s : State) (t : Nat) (x : Team) : (s.setTeam t x).rel = s.rel := rfl
@[simp] theorem State.setTeam_io (s : State) (t : Nat) (x : Team) : (s.setTeam t x).io = s.io := rfl
@[simp] theorem State.setTeam_deadLinks (s : State) (t : Nat) (x : Team) : (s.setTeam t x).deadLinks = s.deadLinks := rfl
@[simp] theorem State.setTeam_lost (s : State) (t : Nat) (x : Team) : (s.setTeam t x).lost = s.lost := rfl
@[simp] theorem State.setTeam_outbox (s : State) (t : Nat) (x : Team) : (s.setTeam t x).outbox = s.outbox := rfl
@[simp] theorem State.setRun_cur (s : State) (r : Nat) (x : Run) : (s.setRun r x).cur = s.cur := rfl
@[simp] theorem State.setRun_agenda (s : State) (r : Nat) (x : Run) : (s.setRun r x).agenda = s.agenda := rfl
@[simp] theorem State.setRun_lapse (s : State) (r : Nat) (x : Run) : (s.setRun r x).lapse = s.lapse := rfl
@[simp] theorem State.setRun_cycle (s : State) (r : Nat) (x : Run) : (s.setRun r x).cycle = s.cycle := rfl
@[simp] theorem State.setRun_coreReset (s : State) (r : Nat) (x : Run) : (s.setRun r x).coreReset = s.coreReset := rfl
@[simp] theorem State.setRun_fresh (s : State) (r : Nat) (x : Run) : (s.setRun r x).fresh = s.fresh := rfl
@[simp] theorem State.setRun_seq (s : State) (r : Nat) (x : Run) : (s.setRun r x).seq = s.seq := rfl
@[simp] theorem State.setRun_plies (s : State) (r : Nat) (x : Run) : (s.setRun r x).plies = s.plies := rfl
@[simp] theorem State.setRun_cores (s : State) (r : Nat) (x : Run) : (s.setRun r x).cores = s.cores := rfl
@[simp] theorem State.setRun_teams (s : State) (r : Nat) (x : Run) : (s.setRun r x).teams = s.teams := rfl
@[simp] theorem State.setRun_runs (s : State) (r : Nat) (x : Run) : (s.setRun r x).runs = s.runs.put r x := rfl
@[simp] theorem State.setRun_nextRun (s : State) (r : Nat) (x : Run) : (s.setRun r x).nextRun = s.nextRun := rfl
@[simp] theorem State.setRun_mem (s : State) (r : Nat) (x : Run) : (s.setRun r x).mem = s.mem := rfl
@[simp] theorem State.setRun_poison (s : State) (r : Nat) (x : Run) : (s.setRun r x).poison = s.poison := rfl
@[simp] theorem State.setRun_latent (s : State) (r : Nat) (x : Run) : (s.setRun r x).latent = s.latent := rfl
@[simp] theorem State.setRun_keyOf (s : State) (r : Nat) (x : Run) : (s.setRun r x).keyOf = s.keyOf := rfl
@[simp] theorem State.setRun_frames (s : State) (r : Nat) (x : Run) : (s.setRun r x).frames = s.frames := rfl
@[simp] theorem State.setRun_retirePending (s : State) (r : Nat) (x : Run) : (s.setRun r x).retirePending = s.retirePending := rfl
@[simp] theorem State.setRun_retiredFrames (s : State) (r : Nat) (x : Run) : (s.setRun r x).retiredFrames = s.retiredFrames := rfl
@[simp] theorem State.setRun_jobs (s : State) (r : Nat) (x : Run) : (s.setRun r x).jobs = s.jobs := rfl
@[simp] theorem State.setRun_keys (s : State) (r : Nat) (x : Run) : (s.setRun r x).keys = s.keys := rfl
@[simp] theorem State.setRun_nextKey (s : State) (r : Nat) (x : Run) : (s.setRun r x).nextKey = s.nextKey := rfl
@[simp] theorem State.setRun_spaceGens (s : State) (r : Nat) (x : Run) : (s.setRun r x).spaceGens = s.spaceGens := rfl
@[simp] theorem State.setRun_tlbs (s : State) (r : Nat) (x : Run) : (s.setRun r x).tlbs = s.tlbs := rfl
@[simp] theorem State.setRun_merges (s : State) (r : Nat) (x : Run) : (s.setRun r x).merges = s.merges := rfl
@[simp] theorem State.setRun_heldMisses (s : State) (r : Nat) (x : Run) : (s.setRun r x).heldMisses = s.heldMisses := rfl
@[simp] theorem State.setRun_l2 (s : State) (r : Nat) (x : Run) : (s.setRun r x).l2 = s.l2 := rfl
@[simp] theorem State.setRun_disabledWays (s : State) (r : Nat) (x : Run) : (s.setRun r x).disabledWays = s.disabledWays := rfl
@[simp] theorem State.setRun_queues (s : State) (r : Nat) (x : Run) : (s.setRun r x).queues = s.queues := rfl
@[simp] theorem State.setRun_windows (s : State) (r : Nat) (x : Run) : (s.setRun r x).windows = s.windows := rfl
@[simp] theorem State.setRun_unsent (s : State) (r : Nat) (x : Run) : (s.setRun r x).unsent = s.unsent := rfl
@[simp] theorem State.setRun_latches (s : State) (r : Nat) (x : Run) : (s.setRun r x).latches = s.latches := rfl
@[simp] theorem State.setRun_wakes (s : State) (r : Nat) (x : Run) : (s.setRun r x).wakes = s.wakes := rfl
@[simp] theorem State.setRun_hyp (s : State) (r : Nat) (x : Run) : (s.setRun r x).hyp = s.hyp := rfl
@[simp] theorem State.setRun_rel (s : State) (r : Nat) (x : Run) : (s.setRun r x).rel = s.rel := rfl
@[simp] theorem State.setRun_io (s : State) (r : Nat) (x : Run) : (s.setRun r x).io = s.io := rfl
@[simp] theorem State.setRun_deadLinks (s : State) (r : Nat) (x : Run) : (s.setRun r x).deadLinks = s.deadLinks := rfl
@[simp] theorem State.setRun_lost (s : State) (r : Nat) (x : Run) : (s.setRun r x).lost = s.lost := rfl
@[simp] theorem State.setRun_outbox (s : State) (r : Nat) (x : Run) : (s.setRun r x).outbox = s.outbox := rfl
@[simp] theorem State.bump_cur (s : State) : (s.bump).cur = s.cur := rfl
@[simp] theorem State.bump_agenda (s : State) : (s.bump).agenda = s.agenda := rfl
@[simp] theorem State.bump_lapse (s : State) : (s.bump).lapse = s.lapse := rfl
@[simp] theorem State.bump_cycle (s : State) : (s.bump).cycle = s.cycle := rfl
@[simp] theorem State.bump_coreReset (s : State) : (s.bump).coreReset = s.coreReset := rfl
@[simp] theorem State.bump_fresh (s : State) : (s.bump).fresh = s.fresh := rfl
@[simp] theorem State.bump_seq (s : State) : (s.bump).seq = s.seq + 1 := rfl
@[simp] theorem State.bump_plies (s : State) : (s.bump).plies = s.plies := rfl
@[simp] theorem State.bump_cores (s : State) : (s.bump).cores = s.cores := rfl
@[simp] theorem State.bump_teams (s : State) : (s.bump).teams = s.teams := rfl
@[simp] theorem State.bump_runs (s : State) : (s.bump).runs = s.runs := rfl
@[simp] theorem State.bump_nextRun (s : State) : (s.bump).nextRun = s.nextRun := rfl
@[simp] theorem State.bump_mem (s : State) : (s.bump).mem = s.mem := rfl
@[simp] theorem State.bump_poison (s : State) : (s.bump).poison = s.poison := rfl
@[simp] theorem State.bump_latent (s : State) : (s.bump).latent = s.latent := rfl
@[simp] theorem State.bump_keyOf (s : State) : (s.bump).keyOf = s.keyOf := rfl
@[simp] theorem State.bump_frames (s : State) : (s.bump).frames = s.frames := rfl
@[simp] theorem State.bump_retirePending (s : State) : (s.bump).retirePending = s.retirePending := rfl
@[simp] theorem State.bump_retiredFrames (s : State) : (s.bump).retiredFrames = s.retiredFrames := rfl
@[simp] theorem State.bump_jobs (s : State) : (s.bump).jobs = s.jobs := rfl
@[simp] theorem State.bump_keys (s : State) : (s.bump).keys = s.keys := rfl
@[simp] theorem State.bump_nextKey (s : State) : (s.bump).nextKey = s.nextKey := rfl
@[simp] theorem State.bump_spaceGens (s : State) : (s.bump).spaceGens = s.spaceGens := rfl
@[simp] theorem State.bump_tlbs (s : State) : (s.bump).tlbs = s.tlbs := rfl
@[simp] theorem State.bump_merges (s : State) : (s.bump).merges = s.merges := rfl
@[simp] theorem State.bump_heldMisses (s : State) : (s.bump).heldMisses = s.heldMisses := rfl
@[simp] theorem State.bump_l2 (s : State) : (s.bump).l2 = s.l2 := rfl
@[simp] theorem State.bump_disabledWays (s : State) : (s.bump).disabledWays = s.disabledWays := rfl
@[simp] theorem State.bump_queues (s : State) : (s.bump).queues = s.queues := rfl
@[simp] theorem State.bump_windows (s : State) : (s.bump).windows = s.windows := rfl
@[simp] theorem State.bump_unsent (s : State) : (s.bump).unsent = s.unsent := rfl
@[simp] theorem State.bump_latches (s : State) : (s.bump).latches = s.latches := rfl
@[simp] theorem State.bump_wakes (s : State) : (s.bump).wakes = s.wakes := rfl
@[simp] theorem State.bump_hyp (s : State) : (s.bump).hyp = s.hyp := rfl
@[simp] theorem State.bump_rel (s : State) : (s.bump).rel = s.rel := rfl
@[simp] theorem State.bump_io (s : State) : (s.bump).io = s.io := rfl
@[simp] theorem State.bump_deadLinks (s : State) : (s.bump).deadLinks = s.deadLinks := rfl
@[simp] theorem State.bump_lost (s : State) : (s.bump).lost = s.lost := rfl
@[simp] theorem State.bump_outbox (s : State) : (s.bump).outbox = s.outbox := rfl
@[simp] theorem State.modPly_cur (s : State) (k : Nat) (f : Ply → Ply) : (s.modPly k f).cur = s.cur := by
  unfold State.modPly; split <;> rfl
@[simp] theorem State.modPly_agenda (s : State) (k : Nat) (f : Ply → Ply) : (s.modPly k f).agenda = s.agenda := by
  unfold State.modPly; split <;> rfl
@[simp] theorem State.modPly_lapse (s : State) (k : Nat) (f : Ply → Ply) : (s.modPly k f).lapse = s.lapse := by
  unfold State.modPly; split <;> rfl
@[simp] theorem State.modPly_cycle (s : State) (k : Nat) (f : Ply → Ply) : (s.modPly k f).cycle = s.cycle := by
  unfold State.modPly; split <;> rfl
@[simp] theorem State.modPly_coreReset (s : State) (k : Nat) (f : Ply → Ply) : (s.modPly k f).coreReset = s.coreReset := by
  unfold State.modPly; split <;> rfl
@[simp] theorem State.modPly_fresh (s : State) (k : Nat) (f : Ply → Ply) : (s.modPly k f).fresh = s.fresh := by
  unfold State.modPly; split <;> rfl
@[simp] theorem State.modPly_seq (s : State) (k : Nat) (f : Ply → Ply) : (s.modPly k f).seq = s.seq := by
  unfold State.modPly; split <;> rfl
@[simp] theorem State.modPly_cores (s : State) (k : Nat) (f : Ply → Ply) : (s.modPly k f).cores = s.cores := by
  unfold State.modPly; split <;> rfl
@[simp] theorem State.modPly_teams (s : State) (k : Nat) (f : Ply → Ply) : (s.modPly k f).teams = s.teams := by
  unfold State.modPly; split <;> rfl
@[simp] theorem State.modPly_runs (s : State) (k : Nat) (f : Ply → Ply) : (s.modPly k f).runs = s.runs := by
  unfold State.modPly; split <;> rfl
@[simp] theorem State.modPly_nextRun (s : State) (k : Nat) (f : Ply → Ply) : (s.modPly k f).nextRun = s.nextRun := by
  unfold State.modPly; split <;> rfl
@[simp] theorem State.modPly_mem (s : State) (k : Nat) (f : Ply → Ply) : (s.modPly k f).mem = s.mem := by
  unfold State.modPly; split <;> rfl
@[simp] theorem State.modPly_poison (s : State) (k : Nat) (f : Ply → Ply) : (s.modPly k f).poison = s.poison := by
  unfold State.modPly; split <;> rfl
@[simp] theorem State.modPly_latent (s : State) (k : Nat) (f : Ply → Ply) : (s.modPly k f).latent = s.latent := by
  unfold State.modPly; split <;> rfl
@[simp] theorem State.modPly_keyOf (s : State) (k : Nat) (f : Ply → Ply) : (s.modPly k f).keyOf = s.keyOf := by
  unfold State.modPly; split <;> rfl
@[simp] theorem State.modPly_frames (s : State) (k : Nat) (f : Ply → Ply) : (s.modPly k f).frames = s.frames := by
  unfold State.modPly; split <;> rfl
@[simp] theorem State.modPly_retirePending (s : State) (k : Nat) (f : Ply → Ply) : (s.modPly k f).retirePending = s.retirePending := by
  unfold State.modPly; split <;> rfl
@[simp] theorem State.modPly_retiredFrames (s : State) (k : Nat) (f : Ply → Ply) : (s.modPly k f).retiredFrames = s.retiredFrames := by
  unfold State.modPly; split <;> rfl
@[simp] theorem State.modPly_jobs (s : State) (k : Nat) (f : Ply → Ply) : (s.modPly k f).jobs = s.jobs := by
  unfold State.modPly; split <;> rfl
@[simp] theorem State.modPly_keys (s : State) (k : Nat) (f : Ply → Ply) : (s.modPly k f).keys = s.keys := by
  unfold State.modPly; split <;> rfl
@[simp] theorem State.modPly_nextKey (s : State) (k : Nat) (f : Ply → Ply) : (s.modPly k f).nextKey = s.nextKey := by
  unfold State.modPly; split <;> rfl
@[simp] theorem State.modPly_spaceGens (s : State) (k : Nat) (f : Ply → Ply) : (s.modPly k f).spaceGens = s.spaceGens := by
  unfold State.modPly; split <;> rfl
@[simp] theorem State.modPly_tlbs (s : State) (k : Nat) (f : Ply → Ply) : (s.modPly k f).tlbs = s.tlbs := by
  unfold State.modPly; split <;> rfl
@[simp] theorem State.modPly_merges (s : State) (k : Nat) (f : Ply → Ply) : (s.modPly k f).merges = s.merges := by
  unfold State.modPly; split <;> rfl
@[simp] theorem State.modPly_heldMisses (s : State) (k : Nat) (f : Ply → Ply) : (s.modPly k f).heldMisses = s.heldMisses := by
  unfold State.modPly; split <;> rfl
@[simp] theorem State.modPly_l2 (s : State) (k : Nat) (f : Ply → Ply) : (s.modPly k f).l2 = s.l2 := by
  unfold State.modPly; split <;> rfl
@[simp] theorem State.modPly_disabledWays (s : State) (k : Nat) (f : Ply → Ply) : (s.modPly k f).disabledWays = s.disabledWays := by
  unfold State.modPly; split <;> rfl
@[simp] theorem State.modPly_queues (s : State) (k : Nat) (f : Ply → Ply) : (s.modPly k f).queues = s.queues := by
  unfold State.modPly; split <;> rfl
@[simp] theorem State.modPly_windows (s : State) (k : Nat) (f : Ply → Ply) : (s.modPly k f).windows = s.windows := by
  unfold State.modPly; split <;> rfl
@[simp] theorem State.modPly_unsent (s : State) (k : Nat) (f : Ply → Ply) : (s.modPly k f).unsent = s.unsent := by
  unfold State.modPly; split <;> rfl
@[simp] theorem State.modPly_latches (s : State) (k : Nat) (f : Ply → Ply) : (s.modPly k f).latches = s.latches := by
  unfold State.modPly; split <;> rfl
@[simp] theorem State.modPly_wakes (s : State) (k : Nat) (f : Ply → Ply) : (s.modPly k f).wakes = s.wakes := by
  unfold State.modPly; split <;> rfl
@[simp] theorem State.modPly_hyp (s : State) (k : Nat) (f : Ply → Ply) : (s.modPly k f).hyp = s.hyp := by
  unfold State.modPly; split <;> rfl
@[simp] theorem State.modPly_rel (s : State) (k : Nat) (f : Ply → Ply) : (s.modPly k f).rel = s.rel := by
  unfold State.modPly; split <;> rfl
@[simp] theorem State.modPly_io (s : State) (k : Nat) (f : Ply → Ply) : (s.modPly k f).io = s.io := by
  unfold State.modPly; split <;> rfl
@[simp] theorem State.modPly_deadLinks (s : State) (k : Nat) (f : Ply → Ply) : (s.modPly k f).deadLinks = s.deadLinks := by
  unfold State.modPly; split <;> rfl
@[simp] theorem State.modPly_lost (s : State) (k : Nat) (f : Ply → Ply) : (s.modPly k f).lost = s.lost := by
  unfold State.modPly; split <;> rfl
@[simp] theorem State.modPly_outbox (s : State) (k : Nat) (f : Ply → Ply) : (s.modPly k f).outbox = s.outbox := by
  unfold State.modPly; split <;> rfl
@[simp] theorem State.modCore_cur (s : State) (c : Nat) (f : Core → Core) : (s.modCore c f).cur = s.cur := rfl
@[simp] theorem State.modCore_agenda (s : State) (c : Nat) (f : Core → Core) : (s.modCore c f).agenda = s.agenda := rfl
@[simp] theorem State.modCore_lapse (s : State) (c : Nat) (f : Core → Core) : (s.modCore c f).lapse = s.lapse := rfl
@[simp] theorem State.modCore_cycle (s : State) (c : Nat) (f : Core → Core) : (s.modCore c f).cycle = s.cycle := rfl
@[simp] theorem State.modCore_coreReset (s : State) (c : Nat) (f : Core → Core) : (s.modCore c f).coreReset = s.coreReset := rfl
@[simp] theorem State.modCore_fresh (s : State) (c : Nat) (f : Core → Core) : (s.modCore c f).fresh = s.fresh := rfl
@[simp] theorem State.modCore_seq (s : State) (c : Nat) (f : Core → Core) : (s.modCore c f).seq = s.seq := rfl
@[simp] theorem State.modCore_plies (s : State) (c : Nat) (f : Core → Core) : (s.modCore c f).plies = s.plies := rfl
@[simp] theorem State.modCore_teams (s : State) (c : Nat) (f : Core → Core) : (s.modCore c f).teams = s.teams := rfl
@[simp] theorem State.modCore_runs (s : State) (c : Nat) (f : Core → Core) : (s.modCore c f).runs = s.runs := rfl
@[simp] theorem State.modCore_nextRun (s : State) (c : Nat) (f : Core → Core) : (s.modCore c f).nextRun = s.nextRun := rfl
@[simp] theorem State.modCore_mem (s : State) (c : Nat) (f : Core → Core) : (s.modCore c f).mem = s.mem := rfl
@[simp] theorem State.modCore_poison (s : State) (c : Nat) (f : Core → Core) : (s.modCore c f).poison = s.poison := rfl
@[simp] theorem State.modCore_latent (s : State) (c : Nat) (f : Core → Core) : (s.modCore c f).latent = s.latent := rfl
@[simp] theorem State.modCore_keyOf (s : State) (c : Nat) (f : Core → Core) : (s.modCore c f).keyOf = s.keyOf := rfl
@[simp] theorem State.modCore_frames (s : State) (c : Nat) (f : Core → Core) : (s.modCore c f).frames = s.frames := rfl
@[simp] theorem State.modCore_retirePending (s : State) (c : Nat) (f : Core → Core) : (s.modCore c f).retirePending = s.retirePending := rfl
@[simp] theorem State.modCore_retiredFrames (s : State) (c : Nat) (f : Core → Core) : (s.modCore c f).retiredFrames = s.retiredFrames := rfl
@[simp] theorem State.modCore_jobs (s : State) (c : Nat) (f : Core → Core) : (s.modCore c f).jobs = s.jobs := rfl
@[simp] theorem State.modCore_keys (s : State) (c : Nat) (f : Core → Core) : (s.modCore c f).keys = s.keys := rfl
@[simp] theorem State.modCore_nextKey (s : State) (c : Nat) (f : Core → Core) : (s.modCore c f).nextKey = s.nextKey := rfl
@[simp] theorem State.modCore_spaceGens (s : State) (c : Nat) (f : Core → Core) : (s.modCore c f).spaceGens = s.spaceGens := rfl
@[simp] theorem State.modCore_tlbs (s : State) (c : Nat) (f : Core → Core) : (s.modCore c f).tlbs = s.tlbs := rfl
@[simp] theorem State.modCore_merges (s : State) (c : Nat) (f : Core → Core) : (s.modCore c f).merges = s.merges := rfl
@[simp] theorem State.modCore_heldMisses (s : State) (c : Nat) (f : Core → Core) : (s.modCore c f).heldMisses = s.heldMisses := rfl
@[simp] theorem State.modCore_l2 (s : State) (c : Nat) (f : Core → Core) : (s.modCore c f).l2 = s.l2 := rfl
@[simp] theorem State.modCore_disabledWays (s : State) (c : Nat) (f : Core → Core) : (s.modCore c f).disabledWays = s.disabledWays := rfl
@[simp] theorem State.modCore_queues (s : State) (c : Nat) (f : Core → Core) : (s.modCore c f).queues = s.queues := rfl
@[simp] theorem State.modCore_windows (s : State) (c : Nat) (f : Core → Core) : (s.modCore c f).windows = s.windows := rfl
@[simp] theorem State.modCore_unsent (s : State) (c : Nat) (f : Core → Core) : (s.modCore c f).unsent = s.unsent := rfl
@[simp] theorem State.modCore_latches (s : State) (c : Nat) (f : Core → Core) : (s.modCore c f).latches = s.latches := rfl
@[simp] theorem State.modCore_wakes (s : State) (c : Nat) (f : Core → Core) : (s.modCore c f).wakes = s.wakes := rfl
@[simp] theorem State.modCore_hyp (s : State) (c : Nat) (f : Core → Core) : (s.modCore c f).hyp = s.hyp := rfl
@[simp] theorem State.modCore_rel (s : State) (c : Nat) (f : Core → Core) : (s.modCore c f).rel = s.rel := rfl
@[simp] theorem State.modCore_io (s : State) (c : Nat) (f : Core → Core) : (s.modCore c f).io = s.io := rfl
@[simp] theorem State.modCore_deadLinks (s : State) (c : Nat) (f : Core → Core) : (s.modCore c f).deadLinks = s.deadLinks := rfl
@[simp] theorem State.modCore_lost (s : State) (c : Nat) (f : Core → Core) : (s.modCore c f).lost = s.lost := rfl
@[simp] theorem State.modCore_outbox (s : State) (c : Nat) (f : Core → Core) : (s.modCore c f).outbox = s.outbox := rfl

@[simp] theorem State.ply_setPly (s : State) (k : Nat) (p : Ply) : (s.setPly k p).ply k = some p := Map.find_put_same ..
theorem State.ply_setPly_other (s : State) {k j : Nat} (p : Ply) (h : j ≠ k) : (s.setPly k p).ply j = s.ply j := Map.find_put_other _ _ h
@[simp] theorem State.setPly_setPly (s : State) (k : Nat) (p q : Ply) : (s.setPly k p).setPly k q = s.setPly k q := by
  simp [State.setPly]
@[simp] theorem State.modPly_setPly (s : State) (k : Nat) (p : Ply) (f : Ply → Ply) : (s.setPly k p).modPly k f = s.setPly k (f p) := by
  simp [State.modPly, State.setPly]
theorem State.modPly_eq (s : State) {k : Nat} {p : Ply} (f : Ply → Ply) (h : s.ply k = some p) : s.modPly k f = s.setPly k (f p) := by
  have h : s.plies.find k = some p := h
  simp [State.modPly, h]
theorem State.ply_modPly (s : State) {k : Nat} {p : Ply} (f : Ply → Ply) (h : s.ply k = some p) : (s.modPly k f).ply k = some (f p) := by
  rw [s.modPly_eq f h]; simp
theorem State.ply_modPly_other (s : State) {k j : Nat} (f : Ply → Ply) (h : j ≠ k) : (s.modPly k f).ply j = s.ply j := by
  unfold State.modPly; split
  · exact State.ply_setPly_other s _ h
  · rfl
@[simp] theorem State.ply_setCore (s : State) (c : Nat) (x : Core) (k : Nat) : (s.setCore c x).ply k = s.ply k := rfl
@[simp] theorem State.ply_modCore (s : State) (c : Nat) (f : Core → Core) (k : Nat) : (s.modCore c f).ply k = s.ply k := rfl
@[simp] theorem State.ply_bump (s : State) (k : Nat) : s.bump.ply k = s.ply k := rfl
@[simp] theorem State.core_setCore (s : State) (c : Nat) (x : Core) : (s.setCore c x).core c = x := by
  simp [State.core, State.setCore, Map.getD]
theorem State.core_setCore_other (s : State) {c d : Nat} (x : Core) (h : d ≠ c) : (s.setCore c x).core d = s.core d := by
  simp [State.core, State.setCore, Map.getD, Map.find_put_other _ _ h]
@[simp] theorem State.core_modCore (s : State) (c : Nat) (f : Core → Core) : (s.modCore c f).core c = f (s.core c) := by
  simp [State.modCore]
@[simp] theorem State.core_setPly (s : State) (k : Nat) (p : Ply) (c : Nat) : (s.setPly k p).core c = s.core c := rfl
@[simp] theorem State.core_modPly (s : State) (k : Nat) (f : Ply → Ply) (c : Nat) : (s.modPly k f).core c = s.core c := by
  unfold State.modPly; split <;> rfl

/-! ## Updates of a ply -/

@[simp] theorem Ply.setS_uid (p : Ply) (r : SReg) (v : DWord) : (p.setS r v).uid = p.uid := rfl
@[simp] theorem Ply.setS_width (p : Ply) (r : SReg) (v : DWord) : (p.setS r v).width = p.width := rfl
@[simp] theorem Ply.setS_state (p : Ply) (r : SReg) (v : DWord) : (p.setS r v).state = p.state := rfl
@[simp] theorem Ply.setS_wait (p : Ply) (r : SReg) (v : DWord) : (p.setS r v).wait = p.wait := rfl
@[simp] theorem Ply.setS_words (p : Ply) (r : SReg) (v : DWord) : (p.setS r v).words = p.words := rfl
@[simp] theorem Ply.setS_mode (p : Ply) (r : SReg) (v : DWord) : (p.setS r v).mode = p.mode := rfl
@[simp] theorem Ply.setS_held (p : Ply) (r : SReg) (v : DWord) : (p.setS r v).held = p.held := rfl
@[simp] theorem Ply.setS_region (p : Ply) (r : SReg) (v : DWord) : (p.setS r v).region = p.region := rfl
@[simp] theorem Ply.setS_retry (p : Ply) (r : SReg) (v : DWord) : (p.setS r v).retry = p.retry := rfl
@[simp] theorem Ply.setS_regEm (p : Ply) (r : SReg) (v : DWord) : (p.setS r v).regEm = p.regEm := rfl
@[simp] theorem Ply.setS_regSig (p : Ply) (r : SReg) (v : DWord) : (p.setS r v).regSig = p.regSig := rfl
@[simp] theorem Ply.setS_regMask (p : Ply) (r : SReg) (v : DWord) : (p.setS r v).regMask = p.regMask := rfl
@[simp] theorem Ply.setS_hintdrop (p : Ply) (r : SReg) (v : DWord) : (p.setS r v).hintdrop = p.hintdrop := rfl
@[simp] theorem Ply.setS_scopestat (p : Ply) (r : SReg) (v : DWord) : (p.setS r v).scopestat = p.scopestat := rfl
@[simp] theorem Ply.setS_uicause (p : Ply) (r : SReg) (v : DWord) : (p.setS r v).uicause = p.uicause := rfl
@[simp] theorem Ply.setS_uisrc (p : Ply) (r : SReg) (v : DWord) : (p.setS r v).uisrc = p.uisrc := rfl
@[simp] theorem Ply.setS_uicix (p : Ply) (r : SReg) (v : DWord) : (p.setS r v).uicix = p.uicix := rfl
@[simp] theorem Ply.setS_uiepc (p : Ply) (r : SReg) (v : DWord) : (p.setS r v).uiepc = p.uiepc := rfl
@[simp] theorem Ply.setS_uiem (p : Ply) (r : SReg) (v : DWord) : (p.setS r v).uiem = p.uiem := rfl
@[simp] theorem Ply.setS_inUi (p : Ply) (r : SReg) (v : DWord) : (p.setS r v).inUi = p.inUi := rfl
@[simp] theorem Ply.setS_uiDepth (p : Ply) (r : SReg) (v : DWord) : (p.setS r v).uiDepth = p.uiDepth := rfl
@[simp] theorem Ply.setS_pendLwake (p : Ply) (r : SReg) (v : DWord) : (p.setS r v).pendLwake = p.pendLwake := rfl
@[simp] theorem Ply.setS_pendQueue (p : Ply) (r : SReg) (v : DWord) : (p.setS r v).pendQueue = p.pendQueue := rfl
@[simp] theorem Ply.setS_pendTrap (p : Ply) (r : SReg) (v : DWord) : (p.setS r v).pendTrap = p.pendTrap := rfl
@[simp] theorem Ply.setS_pendCopy (p : Ply) (r : SReg) (v : DWord) : (p.setS r v).pendCopy = p.pendCopy := rfl
@[simp] theorem Ply.setS_ident (p : Ply) (r : SReg) (v : DWord) : (p.setS r v).ident = p.ident := rfl
@[simp] theorem Ply.setS_watched (p : Ply) (r : SReg) (v : DWord) : (p.setS r v).watched = p.watched := rfl
@[simp] theorem Ply.setS_armed (p : Ply) (r : SReg) (v : DWord) : (p.setS r v).armed = p.armed := rfl
@[simp] theorem Ply.setS_barMark (p : Ply) (r : SReg) (v : DWord) : (p.setS r v).barMark = p.barMark := rfl
@[simp] theorem Ply.setS_halt (p : Ply) (r : SReg) (v : DWord) : (p.setS r v).halt = p.halt := rfl
@[simp] theorem Ply.setS_unfinished (p : Ply) (r : SReg) (v : DWord) : (p.setS r v).unfinished = p.unfinished := rfl
@[simp] theorem Ply.setS_deferred (p : Ply) (r : SReg) (v : DWord) : (p.setS r v).deferred = p.deferred := rfl
@[simp] theorem Ply.setS_fullEm (p : Ply) (r : SReg) (v : DWord) : (p.setS r v).fullEm = p.fullEm := rfl
@[simp] theorem Ply.setS_stale (p : Ply) (r : SReg) (v : DWord) : (p.setS r v).stale = p.stale := rfl
@[simp] theorem Ply.setS_staleFetch (p : Ply) (r : SReg) (v : DWord) : (p.setS r v).staleFetch = p.staleFetch := rfl
@[simp] theorem Ply.setS_passLane (p : Ply) (r : SReg) (v : DWord) : (p.setS r v).passLane = p.passLane := rfl
@[simp] theorem Ply.setS_passUniform (p : Ply) (r : SReg) (v : DWord) : (p.setS r v).passUniform = p.passUniform := rfl
@[simp] theorem Ply.setS_stalled (p : Ply) (r : SReg) (v : DWord) : (p.setS r v).stalled = p.stalled := rfl
@[simp] theorem Ply.setS_item (p : Ply) (r : SReg) (v : DWord) : (p.setS r v).item = p.item := rfl
@[simp] theorem Ply.setS_kept (p : Ply) (r : SReg) (v : DWord) : (p.setS r v).kept = p.kept := rfl
@[simp] theorem Ply.setS_above (p : Ply) (r : SReg) (v : DWord) : (p.setS r v).above = p.above := rfl
@[simp] theorem Ply.setS_priv (p : Ply) (r : SReg) (v : DWord) : (p.setS r v).priv = p.priv := rfl
@[simp] theorem Ply.setS_a_pc (p : Ply) (r : SReg) (v : DWord) : (p.setS r v).a.pc = p.a.pc := rfl
@[simp] theorem Ply.setS_a_em (p : Ply) (r : SReg) (v : DWord) : (p.setS r v).a.em = p.a.em := rfl
@[simp] theorem Ply.setS_a_knuckles (p : Ply) (r : SReg) (v : DWord) : (p.setS r v).a.knuckles = p.a.knuckles := rfl
@[simp] theorem Ply.setS_a_pins (p : Ply) (r : SReg) (v : DWord) : (p.setS r v).a.pins = p.a.pins := rfl
@[simp] theorem Ply.setS_a_p (p : Ply) (r : SReg) (v : DWord) : (p.setS r v).a.p = p.a.p := rfl
@[simp] theorem Ply.setS_a_q (p : Ply) (r : SReg) (v : DWord) : (p.setS r v).a.q = p.a.q := rfl
@[simp] theorem Ply.setS_a_c (p : Ply) (r : SReg) (v : DWord) : (p.setS r v).a.c = p.a.c := rfl
@[simp] theorem Ply.setS_a_rows (p : Ply) (r : SReg) (v : DWord) : (p.setS r v).a.rows = p.a.rows := rfl
@[simp] theorem Ply.setS_a_t (p : Ply) (r : SReg) (v : DWord) : (p.setS r v).a.t = p.a.t := rfl
@[simp] theorem Ply.setS_a_cb (p : Ply) (r : SReg) (v : DWord) : (p.setS r v).a.cb = p.a.cb := rfl
@[simp] theorem Ply.setS_a_fpmode (p : Ply) (r : SReg) (v : DWord) : (p.setS r v).a.fpmode = p.a.fpmode := rfl
@[simp] theorem Ply.setS_a_fpflags (p : Ply) (r : SReg) (v : DWord) : (p.setS r v).a.fpflags = p.a.fpflags := rfl
@[simp] theorem Ply.setS_a_rnsctl (p : Ply) (r : SReg) (v : DWord) : (p.setS r v).a.rnsctl = p.a.rnsctl := rfl
@[simp] theorem Ply.setS_a_rnsLoc (p : Ply) (r : SReg) (v : DWord) : (p.setS r v).a.rnsLoc = p.a.rnsLoc := rfl
@[simp] theorem Ply.setS_a_rnsMcnt (p : Ply) (r : SReg) (v : DWord) : (p.setS r v).a.rnsMcnt = p.a.rnsMcnt := rfl
@[simp] theorem Ply.setS_a_rnsUnc (p : Ply) (r : SReg) (v : DWord) : (p.setS r v).a.rnsUnc = p.a.rnsUnc := rfl
@[simp] theorem Ply.setS_a_resbase (p : Ply) (r : SReg) (v : DWord) : (p.setS r v).a.resbase = p.a.resbase := rfl
@[simp] theorem Ply.setS_a_qbackoff (p : Ply) (r : SReg) (v : DWord) : (p.setS r v).a.qbackoff = p.a.qbackoff := rfl
@[simp] theorem Ply.setS_a_uivec (p : Ply) (r : SReg) (v : DWord) : (p.setS r v).a.uivec = p.a.uivec := rfl
@[simp] theorem Ply.setS_a_uictl (p : Ply) (r : SReg) (v : DWord) : (p.setS r v).a.uictl = p.a.uictl := rfl
@[simp] theorem Ply.setS_a_wmsig (p : Ply) (r : SReg) (v : DWord) : (p.setS r v).a.wmsig = p.a.wmsig := rfl
@[simp] theorem Ply.setS_a_wmmask (p : Ply) (r : SReg) (v : DWord) : (p.setS r v).a.wmmask = p.a.wmmask := rfl
@[simp] theorem Ply.setS_a_wix (p : Ply) (r : SReg) (v : DWord) : (p.setS r v).a.wix = p.a.wix := rfl
@[simp] theorem Ply.setS_a_sibix (p : Ply) (r : SReg) (v : DWord) : (p.setS r v).a.sibix = p.a.sibix := rfl
@[simp] theorem Ply.setS_a_role (p : Ply) (r : SReg) (v : DWord) : (p.setS r v).a.role = p.a.role := rfl
@[simp] theorem Ply.setS_a_ticket (p : Ply) (r : SReg) (v : DWord) : (p.setS r v).a.ticket = p.a.ticket := rfl
@[simp] theorem Ply.setS_a_slotIx (p : Ply) (r : SReg) (v : DWord) : (p.setS r v).a.slotIx = p.a.slotIx := rfl
@[simp] theorem Ply.setS_a_phase (p : Ply) (r : SReg) (v : DWord) : (p.setS r v).a.phase = p.a.phase := rfl
@[simp] theorem Ply.setC_uid (p : Ply) (r : CReg) (v : DWord) : (p.setC r v).uid = p.uid := rfl
@[simp] theorem Ply.setC_width (p : Ply) (r : CReg) (v : DWord) : (p.setC r v).width = p.width := rfl
@[simp] theorem Ply.setC_state (p : Ply) (r : CReg) (v : DWord) : (p.setC r v).state = p.state := rfl
@[simp] theorem Ply.setC_wait (p : Ply) (r : CReg) (v : DWord) : (p.setC r v).wait = p.wait := rfl
@[simp] theorem Ply.setC_words (p : Ply) (r : CReg) (v : DWord) : (p.setC r v).words = p.words := rfl
@[simp] theorem Ply.setC_mode (p : Ply) (r : CReg) (v : DWord) : (p.setC r v).mode = p.mode := rfl
@[simp] theorem Ply.setC_held (p : Ply) (r : CReg) (v : DWord) : (p.setC r v).held = p.held := rfl
@[simp] theorem Ply.setC_region (p : Ply) (r : CReg) (v : DWord) : (p.setC r v).region = p.region := rfl
@[simp] theorem Ply.setC_retry (p : Ply) (r : CReg) (v : DWord) : (p.setC r v).retry = p.retry := rfl
@[simp] theorem Ply.setC_regEm (p : Ply) (r : CReg) (v : DWord) : (p.setC r v).regEm = p.regEm := rfl
@[simp] theorem Ply.setC_regSig (p : Ply) (r : CReg) (v : DWord) : (p.setC r v).regSig = p.regSig := rfl
@[simp] theorem Ply.setC_regMask (p : Ply) (r : CReg) (v : DWord) : (p.setC r v).regMask = p.regMask := rfl
@[simp] theorem Ply.setC_hintdrop (p : Ply) (r : CReg) (v : DWord) : (p.setC r v).hintdrop = p.hintdrop := rfl
@[simp] theorem Ply.setC_scopestat (p : Ply) (r : CReg) (v : DWord) : (p.setC r v).scopestat = p.scopestat := rfl
@[simp] theorem Ply.setC_uicause (p : Ply) (r : CReg) (v : DWord) : (p.setC r v).uicause = p.uicause := rfl
@[simp] theorem Ply.setC_uisrc (p : Ply) (r : CReg) (v : DWord) : (p.setC r v).uisrc = p.uisrc := rfl
@[simp] theorem Ply.setC_uicix (p : Ply) (r : CReg) (v : DWord) : (p.setC r v).uicix = p.uicix := rfl
@[simp] theorem Ply.setC_uiepc (p : Ply) (r : CReg) (v : DWord) : (p.setC r v).uiepc = p.uiepc := rfl
@[simp] theorem Ply.setC_uiem (p : Ply) (r : CReg) (v : DWord) : (p.setC r v).uiem = p.uiem := rfl
@[simp] theorem Ply.setC_inUi (p : Ply) (r : CReg) (v : DWord) : (p.setC r v).inUi = p.inUi := rfl
@[simp] theorem Ply.setC_uiDepth (p : Ply) (r : CReg) (v : DWord) : (p.setC r v).uiDepth = p.uiDepth := rfl
@[simp] theorem Ply.setC_pendLwake (p : Ply) (r : CReg) (v : DWord) : (p.setC r v).pendLwake = p.pendLwake := rfl
@[simp] theorem Ply.setC_pendQueue (p : Ply) (r : CReg) (v : DWord) : (p.setC r v).pendQueue = p.pendQueue := rfl
@[simp] theorem Ply.setC_pendTrap (p : Ply) (r : CReg) (v : DWord) : (p.setC r v).pendTrap = p.pendTrap := rfl
@[simp] theorem Ply.setC_pendCopy (p : Ply) (r : CReg) (v : DWord) : (p.setC r v).pendCopy = p.pendCopy := rfl
@[simp] theorem Ply.setC_ident (p : Ply) (r : CReg) (v : DWord) : (p.setC r v).ident = p.ident := rfl
@[simp] theorem Ply.setC_watched (p : Ply) (r : CReg) (v : DWord) : (p.setC r v).watched = p.watched := rfl
@[simp] theorem Ply.setC_armed (p : Ply) (r : CReg) (v : DWord) : (p.setC r v).armed = p.armed := rfl
@[simp] theorem Ply.setC_barMark (p : Ply) (r : CReg) (v : DWord) : (p.setC r v).barMark = p.barMark := rfl
@[simp] theorem Ply.setC_halt (p : Ply) (r : CReg) (v : DWord) : (p.setC r v).halt = p.halt := rfl
@[simp] theorem Ply.setC_unfinished (p : Ply) (r : CReg) (v : DWord) : (p.setC r v).unfinished = p.unfinished := rfl
@[simp] theorem Ply.setC_deferred (p : Ply) (r : CReg) (v : DWord) : (p.setC r v).deferred = p.deferred := rfl
@[simp] theorem Ply.setC_fullEm (p : Ply) (r : CReg) (v : DWord) : (p.setC r v).fullEm = p.fullEm := rfl
@[simp] theorem Ply.setC_stale (p : Ply) (r : CReg) (v : DWord) : (p.setC r v).stale = p.stale := rfl
@[simp] theorem Ply.setC_staleFetch (p : Ply) (r : CReg) (v : DWord) : (p.setC r v).staleFetch = p.staleFetch := rfl
@[simp] theorem Ply.setC_passLane (p : Ply) (r : CReg) (v : DWord) : (p.setC r v).passLane = p.passLane := rfl
@[simp] theorem Ply.setC_passUniform (p : Ply) (r : CReg) (v : DWord) : (p.setC r v).passUniform = p.passUniform := rfl
@[simp] theorem Ply.setC_stalled (p : Ply) (r : CReg) (v : DWord) : (p.setC r v).stalled = p.stalled := rfl
@[simp] theorem Ply.setC_item (p : Ply) (r : CReg) (v : DWord) : (p.setC r v).item = p.item := rfl
@[simp] theorem Ply.setC_kept (p : Ply) (r : CReg) (v : DWord) : (p.setC r v).kept = p.kept := rfl
@[simp] theorem Ply.setC_above (p : Ply) (r : CReg) (v : DWord) : (p.setC r v).above = p.above := rfl
@[simp] theorem Ply.setC_priv (p : Ply) (r : CReg) (v : DWord) : (p.setC r v).priv = p.priv := rfl
@[simp] theorem Ply.setC_a_pc (p : Ply) (r : CReg) (v : DWord) : (p.setC r v).a.pc = p.a.pc := rfl
@[simp] theorem Ply.setC_a_em (p : Ply) (r : CReg) (v : DWord) : (p.setC r v).a.em = p.a.em := rfl
@[simp] theorem Ply.setC_a_knuckles (p : Ply) (r : CReg) (v : DWord) : (p.setC r v).a.knuckles = p.a.knuckles := rfl
@[simp] theorem Ply.setC_a_pins (p : Ply) (r : CReg) (v : DWord) : (p.setC r v).a.pins = p.a.pins := rfl
@[simp] theorem Ply.setC_a_s (p : Ply) (r : CReg) (v : DWord) : (p.setC r v).a.s = p.a.s := rfl
@[simp] theorem Ply.setC_a_p (p : Ply) (r : CReg) (v : DWord) : (p.setC r v).a.p = p.a.p := rfl
@[simp] theorem Ply.setC_a_q (p : Ply) (r : CReg) (v : DWord) : (p.setC r v).a.q = p.a.q := rfl
@[simp] theorem Ply.setC_a_rows (p : Ply) (r : CReg) (v : DWord) : (p.setC r v).a.rows = p.a.rows := rfl
@[simp] theorem Ply.setC_a_t (p : Ply) (r : CReg) (v : DWord) : (p.setC r v).a.t = p.a.t := rfl
@[simp] theorem Ply.setC_a_cb (p : Ply) (r : CReg) (v : DWord) : (p.setC r v).a.cb = p.a.cb := rfl
@[simp] theorem Ply.setC_a_fpmode (p : Ply) (r : CReg) (v : DWord) : (p.setC r v).a.fpmode = p.a.fpmode := rfl
@[simp] theorem Ply.setC_a_fpflags (p : Ply) (r : CReg) (v : DWord) : (p.setC r v).a.fpflags = p.a.fpflags := rfl
@[simp] theorem Ply.setC_a_rnsctl (p : Ply) (r : CReg) (v : DWord) : (p.setC r v).a.rnsctl = p.a.rnsctl := rfl
@[simp] theorem Ply.setC_a_rnsLoc (p : Ply) (r : CReg) (v : DWord) : (p.setC r v).a.rnsLoc = p.a.rnsLoc := rfl
@[simp] theorem Ply.setC_a_rnsMcnt (p : Ply) (r : CReg) (v : DWord) : (p.setC r v).a.rnsMcnt = p.a.rnsMcnt := rfl
@[simp] theorem Ply.setC_a_rnsUnc (p : Ply) (r : CReg) (v : DWord) : (p.setC r v).a.rnsUnc = p.a.rnsUnc := rfl
@[simp] theorem Ply.setC_a_resbase (p : Ply) (r : CReg) (v : DWord) : (p.setC r v).a.resbase = p.a.resbase := rfl
@[simp] theorem Ply.setC_a_qbackoff (p : Ply) (r : CReg) (v : DWord) : (p.setC r v).a.qbackoff = p.a.qbackoff := rfl
@[simp] theorem Ply.setC_a_uivec (p : Ply) (r : CReg) (v : DWord) : (p.setC r v).a.uivec = p.a.uivec := rfl
@[simp] theorem Ply.setC_a_uictl (p : Ply) (r : CReg) (v : DWord) : (p.setC r v).a.uictl = p.a.uictl := rfl
@[simp] theorem Ply.setC_a_wmsig (p : Ply) (r : CReg) (v : DWord) : (p.setC r v).a.wmsig = p.a.wmsig := rfl
@[simp] theorem Ply.setC_a_wmmask (p : Ply) (r : CReg) (v : DWord) : (p.setC r v).a.wmmask = p.a.wmmask := rfl
@[simp] theorem Ply.setC_a_wix (p : Ply) (r : CReg) (v : DWord) : (p.setC r v).a.wix = p.a.wix := rfl
@[simp] theorem Ply.setC_a_sibix (p : Ply) (r : CReg) (v : DWord) : (p.setC r v).a.sibix = p.a.sibix := rfl
@[simp] theorem Ply.setC_a_role (p : Ply) (r : CReg) (v : DWord) : (p.setC r v).a.role = p.a.role := rfl
@[simp] theorem Ply.setC_a_ticket (p : Ply) (r : CReg) (v : DWord) : (p.setC r v).a.ticket = p.a.ticket := rfl
@[simp] theorem Ply.setC_a_slotIx (p : Ply) (r : CReg) (v : DWord) : (p.setC r v).a.slotIx = p.a.slotIx := rfl
@[simp] theorem Ply.setC_a_phase (p : Ply) (r : CReg) (v : DWord) : (p.setC r v).a.phase = p.a.phase := rfl
@[simp] theorem Ply.setEm_uid (p : Ply) (e : DWord) : (p.setEm e).uid = p.uid := rfl
@[simp] theorem Ply.setEm_width (p : Ply) (e : DWord) : (p.setEm e).width = p.width := rfl
@[simp] theorem Ply.setEm_state (p : Ply) (e : DWord) : (p.setEm e).state = p.state := rfl
@[simp] theorem Ply.setEm_wait (p : Ply) (e : DWord) : (p.setEm e).wait = p.wait := rfl
@[simp] theorem Ply.setEm_words (p : Ply) (e : DWord) : (p.setEm e).words = p.words := rfl
@[simp] theorem Ply.setEm_mode (p : Ply) (e : DWord) : (p.setEm e).mode = p.mode := rfl
@[simp] theorem Ply.setEm_held (p : Ply) (e : DWord) : (p.setEm e).held = p.held := rfl
@[simp] theorem Ply.setEm_region (p : Ply) (e : DWord) : (p.setEm e).region = p.region := rfl
@[simp] theorem Ply.setEm_retry (p : Ply) (e : DWord) : (p.setEm e).retry = p.retry := rfl
@[simp] theorem Ply.setEm_regEm (p : Ply) (e : DWord) : (p.setEm e).regEm = p.regEm := rfl
@[simp] theorem Ply.setEm_regSig (p : Ply) (e : DWord) : (p.setEm e).regSig = p.regSig := rfl
@[simp] theorem Ply.setEm_regMask (p : Ply) (e : DWord) : (p.setEm e).regMask = p.regMask := rfl
@[simp] theorem Ply.setEm_hintdrop (p : Ply) (e : DWord) : (p.setEm e).hintdrop = p.hintdrop := rfl
@[simp] theorem Ply.setEm_scopestat (p : Ply) (e : DWord) : (p.setEm e).scopestat = p.scopestat := rfl
@[simp] theorem Ply.setEm_uicause (p : Ply) (e : DWord) : (p.setEm e).uicause = p.uicause := rfl
@[simp] theorem Ply.setEm_uisrc (p : Ply) (e : DWord) : (p.setEm e).uisrc = p.uisrc := rfl
@[simp] theorem Ply.setEm_uicix (p : Ply) (e : DWord) : (p.setEm e).uicix = p.uicix := rfl
@[simp] theorem Ply.setEm_uiepc (p : Ply) (e : DWord) : (p.setEm e).uiepc = p.uiepc := rfl
@[simp] theorem Ply.setEm_uiem (p : Ply) (e : DWord) : (p.setEm e).uiem = p.uiem := rfl
@[simp] theorem Ply.setEm_inUi (p : Ply) (e : DWord) : (p.setEm e).inUi = p.inUi := rfl
@[simp] theorem Ply.setEm_uiDepth (p : Ply) (e : DWord) : (p.setEm e).uiDepth = p.uiDepth := rfl
@[simp] theorem Ply.setEm_pendLwake (p : Ply) (e : DWord) : (p.setEm e).pendLwake = p.pendLwake := rfl
@[simp] theorem Ply.setEm_pendQueue (p : Ply) (e : DWord) : (p.setEm e).pendQueue = p.pendQueue := rfl
@[simp] theorem Ply.setEm_pendTrap (p : Ply) (e : DWord) : (p.setEm e).pendTrap = p.pendTrap := rfl
@[simp] theorem Ply.setEm_pendCopy (p : Ply) (e : DWord) : (p.setEm e).pendCopy = p.pendCopy := rfl
@[simp] theorem Ply.setEm_ident (p : Ply) (e : DWord) : (p.setEm e).ident = p.ident := rfl
@[simp] theorem Ply.setEm_watched (p : Ply) (e : DWord) : (p.setEm e).watched = p.watched := rfl
@[simp] theorem Ply.setEm_armed (p : Ply) (e : DWord) : (p.setEm e).armed = p.armed := rfl
@[simp] theorem Ply.setEm_barMark (p : Ply) (e : DWord) : (p.setEm e).barMark = p.barMark := rfl
@[simp] theorem Ply.setEm_halt (p : Ply) (e : DWord) : (p.setEm e).halt = p.halt := rfl
@[simp] theorem Ply.setEm_unfinished (p : Ply) (e : DWord) : (p.setEm e).unfinished = p.unfinished := rfl
@[simp] theorem Ply.setEm_deferred (p : Ply) (e : DWord) : (p.setEm e).deferred = p.deferred := rfl
@[simp] theorem Ply.setEm_fullEm (p : Ply) (e : DWord) : (p.setEm e).fullEm = p.fullEm := rfl
@[simp] theorem Ply.setEm_stale (p : Ply) (e : DWord) : (p.setEm e).stale = p.stale := rfl
@[simp] theorem Ply.setEm_staleFetch (p : Ply) (e : DWord) : (p.setEm e).staleFetch = p.staleFetch := rfl
@[simp] theorem Ply.setEm_passLane (p : Ply) (e : DWord) : (p.setEm e).passLane = p.passLane := rfl
@[simp] theorem Ply.setEm_passUniform (p : Ply) (e : DWord) : (p.setEm e).passUniform = p.passUniform := rfl
@[simp] theorem Ply.setEm_stalled (p : Ply) (e : DWord) : (p.setEm e).stalled = p.stalled := rfl
@[simp] theorem Ply.setEm_item (p : Ply) (e : DWord) : (p.setEm e).item = p.item := rfl
@[simp] theorem Ply.setEm_kept (p : Ply) (e : DWord) : (p.setEm e).kept = p.kept := rfl
@[simp] theorem Ply.setEm_above (p : Ply) (e : DWord) : (p.setEm e).above = p.above := rfl
@[simp] theorem Ply.setEm_priv (p : Ply) (e : DWord) : (p.setEm e).priv = p.priv := rfl
@[simp] theorem Ply.setEm_a_pc (p : Ply) (e : DWord) : (p.setEm e).a.pc = p.a.pc := rfl
@[simp] theorem Ply.setEm_a_knuckles (p : Ply) (e : DWord) : (p.setEm e).a.knuckles = p.a.knuckles := rfl
@[simp] theorem Ply.setEm_a_pins (p : Ply) (e : DWord) : (p.setEm e).a.pins = p.a.pins := rfl
@[simp] theorem Ply.setEm_a_s (p : Ply) (e : DWord) : (p.setEm e).a.s = p.a.s := rfl
@[simp] theorem Ply.setEm_a_p (p : Ply) (e : DWord) : (p.setEm e).a.p = p.a.p := rfl
@[simp] theorem Ply.setEm_a_q (p : Ply) (e : DWord) : (p.setEm e).a.q = p.a.q := rfl
@[simp] theorem Ply.setEm_a_c (p : Ply) (e : DWord) : (p.setEm e).a.c = p.a.c := rfl
@[simp] theorem Ply.setEm_a_rows (p : Ply) (e : DWord) : (p.setEm e).a.rows = p.a.rows := rfl
@[simp] theorem Ply.setEm_a_t (p : Ply) (e : DWord) : (p.setEm e).a.t = p.a.t := rfl
@[simp] theorem Ply.setEm_a_cb (p : Ply) (e : DWord) : (p.setEm e).a.cb = p.a.cb := rfl
@[simp] theorem Ply.setEm_a_fpmode (p : Ply) (e : DWord) : (p.setEm e).a.fpmode = p.a.fpmode := rfl
@[simp] theorem Ply.setEm_a_fpflags (p : Ply) (e : DWord) : (p.setEm e).a.fpflags = p.a.fpflags := rfl
@[simp] theorem Ply.setEm_a_rnsctl (p : Ply) (e : DWord) : (p.setEm e).a.rnsctl = p.a.rnsctl := rfl
@[simp] theorem Ply.setEm_a_rnsLoc (p : Ply) (e : DWord) : (p.setEm e).a.rnsLoc = p.a.rnsLoc := rfl
@[simp] theorem Ply.setEm_a_rnsMcnt (p : Ply) (e : DWord) : (p.setEm e).a.rnsMcnt = p.a.rnsMcnt := rfl
@[simp] theorem Ply.setEm_a_rnsUnc (p : Ply) (e : DWord) : (p.setEm e).a.rnsUnc = p.a.rnsUnc := rfl
@[simp] theorem Ply.setEm_a_resbase (p : Ply) (e : DWord) : (p.setEm e).a.resbase = p.a.resbase := rfl
@[simp] theorem Ply.setEm_a_qbackoff (p : Ply) (e : DWord) : (p.setEm e).a.qbackoff = p.a.qbackoff := rfl
@[simp] theorem Ply.setEm_a_uivec (p : Ply) (e : DWord) : (p.setEm e).a.uivec = p.a.uivec := rfl
@[simp] theorem Ply.setEm_a_uictl (p : Ply) (e : DWord) : (p.setEm e).a.uictl = p.a.uictl := rfl
@[simp] theorem Ply.setEm_a_wmsig (p : Ply) (e : DWord) : (p.setEm e).a.wmsig = p.a.wmsig := rfl
@[simp] theorem Ply.setEm_a_wmmask (p : Ply) (e : DWord) : (p.setEm e).a.wmmask = p.a.wmmask := rfl
@[simp] theorem Ply.setEm_a_wix (p : Ply) (e : DWord) : (p.setEm e).a.wix = p.a.wix := rfl
@[simp] theorem Ply.setEm_a_sibix (p : Ply) (e : DWord) : (p.setEm e).a.sibix = p.a.sibix := rfl
@[simp] theorem Ply.setEm_a_role (p : Ply) (e : DWord) : (p.setEm e).a.role = p.a.role := rfl
@[simp] theorem Ply.setEm_a_ticket (p : Ply) (e : DWord) : (p.setEm e).a.ticket = p.a.ticket := rfl
@[simp] theorem Ply.setEm_a_slotIx (p : Ply) (e : DWord) : (p.setEm e).a.slotIx = p.a.slotIx := rfl
@[simp] theorem Ply.setEm_a_phase (p : Ply) (e : DWord) : (p.setEm e).a.phase = p.a.phase := rfl
@[simp] theorem Ply.setPc_uid (p : Ply) (pc : Pc) : (p.setPc pc).uid = p.uid := rfl
@[simp] theorem Ply.setPc_width (p : Ply) (pc : Pc) : (p.setPc pc).width = p.width := rfl
@[simp] theorem Ply.setPc_state (p : Ply) (pc : Pc) : (p.setPc pc).state = p.state := rfl
@[simp] theorem Ply.setPc_wait (p : Ply) (pc : Pc) : (p.setPc pc).wait = p.wait := rfl
@[simp] theorem Ply.setPc_words (p : Ply) (pc : Pc) : (p.setPc pc).words = p.words := rfl
@[simp] theorem Ply.setPc_mode (p : Ply) (pc : Pc) : (p.setPc pc).mode = p.mode := rfl
@[simp] theorem Ply.setPc_held (p : Ply) (pc : Pc) : (p.setPc pc).held = p.held := rfl
@[simp] theorem Ply.setPc_region (p : Ply) (pc : Pc) : (p.setPc pc).region = p.region := rfl
@[simp] theorem Ply.setPc_retry (p : Ply) (pc : Pc) : (p.setPc pc).retry = p.retry := rfl
@[simp] theorem Ply.setPc_regEm (p : Ply) (pc : Pc) : (p.setPc pc).regEm = p.regEm := rfl
@[simp] theorem Ply.setPc_regSig (p : Ply) (pc : Pc) : (p.setPc pc).regSig = p.regSig := rfl
@[simp] theorem Ply.setPc_regMask (p : Ply) (pc : Pc) : (p.setPc pc).regMask = p.regMask := rfl
@[simp] theorem Ply.setPc_hintdrop (p : Ply) (pc : Pc) : (p.setPc pc).hintdrop = p.hintdrop := rfl
@[simp] theorem Ply.setPc_scopestat (p : Ply) (pc : Pc) : (p.setPc pc).scopestat = p.scopestat := rfl
@[simp] theorem Ply.setPc_uicause (p : Ply) (pc : Pc) : (p.setPc pc).uicause = p.uicause := rfl
@[simp] theorem Ply.setPc_uisrc (p : Ply) (pc : Pc) : (p.setPc pc).uisrc = p.uisrc := rfl
@[simp] theorem Ply.setPc_uicix (p : Ply) (pc : Pc) : (p.setPc pc).uicix = p.uicix := rfl
@[simp] theorem Ply.setPc_uiepc (p : Ply) (pc : Pc) : (p.setPc pc).uiepc = p.uiepc := rfl
@[simp] theorem Ply.setPc_uiem (p : Ply) (pc : Pc) : (p.setPc pc).uiem = p.uiem := rfl
@[simp] theorem Ply.setPc_inUi (p : Ply) (pc : Pc) : (p.setPc pc).inUi = p.inUi := rfl
@[simp] theorem Ply.setPc_uiDepth (p : Ply) (pc : Pc) : (p.setPc pc).uiDepth = p.uiDepth := rfl
@[simp] theorem Ply.setPc_pendLwake (p : Ply) (pc : Pc) : (p.setPc pc).pendLwake = p.pendLwake := rfl
@[simp] theorem Ply.setPc_pendQueue (p : Ply) (pc : Pc) : (p.setPc pc).pendQueue = p.pendQueue := rfl
@[simp] theorem Ply.setPc_pendTrap (p : Ply) (pc : Pc) : (p.setPc pc).pendTrap = p.pendTrap := rfl
@[simp] theorem Ply.setPc_pendCopy (p : Ply) (pc : Pc) : (p.setPc pc).pendCopy = p.pendCopy := rfl
@[simp] theorem Ply.setPc_ident (p : Ply) (pc : Pc) : (p.setPc pc).ident = p.ident := rfl
@[simp] theorem Ply.setPc_watched (p : Ply) (pc : Pc) : (p.setPc pc).watched = p.watched := rfl
@[simp] theorem Ply.setPc_armed (p : Ply) (pc : Pc) : (p.setPc pc).armed = p.armed := rfl
@[simp] theorem Ply.setPc_barMark (p : Ply) (pc : Pc) : (p.setPc pc).barMark = p.barMark := rfl
@[simp] theorem Ply.setPc_halt (p : Ply) (pc : Pc) : (p.setPc pc).halt = p.halt := rfl
@[simp] theorem Ply.setPc_unfinished (p : Ply) (pc : Pc) : (p.setPc pc).unfinished = p.unfinished := rfl
@[simp] theorem Ply.setPc_deferred (p : Ply) (pc : Pc) : (p.setPc pc).deferred = p.deferred := rfl
@[simp] theorem Ply.setPc_fullEm (p : Ply) (pc : Pc) : (p.setPc pc).fullEm = p.fullEm := rfl
@[simp] theorem Ply.setPc_stale (p : Ply) (pc : Pc) : (p.setPc pc).stale = p.stale := rfl
@[simp] theorem Ply.setPc_staleFetch (p : Ply) (pc : Pc) : (p.setPc pc).staleFetch = p.staleFetch := rfl
@[simp] theorem Ply.setPc_passLane (p : Ply) (pc : Pc) : (p.setPc pc).passLane = p.passLane := rfl
@[simp] theorem Ply.setPc_passUniform (p : Ply) (pc : Pc) : (p.setPc pc).passUniform = p.passUniform := rfl
@[simp] theorem Ply.setPc_stalled (p : Ply) (pc : Pc) : (p.setPc pc).stalled = p.stalled := rfl
@[simp] theorem Ply.setPc_item (p : Ply) (pc : Pc) : (p.setPc pc).item = p.item := rfl
@[simp] theorem Ply.setPc_kept (p : Ply) (pc : Pc) : (p.setPc pc).kept = p.kept := rfl
@[simp] theorem Ply.setPc_above (p : Ply) (pc : Pc) : (p.setPc pc).above = p.above := rfl
@[simp] theorem Ply.setPc_priv (p : Ply) (pc : Pc) : (p.setPc pc).priv = p.priv := rfl
@[simp] theorem Ply.setPc_a_em (p : Ply) (pc : Pc) : (p.setPc pc).a.em = p.a.em := rfl
@[simp] theorem Ply.setPc_a_knuckles (p : Ply) (pc : Pc) : (p.setPc pc).a.knuckles = p.a.knuckles := rfl
@[simp] theorem Ply.setPc_a_pins (p : Ply) (pc : Pc) : (p.setPc pc).a.pins = p.a.pins := rfl
@[simp] theorem Ply.setPc_a_s (p : Ply) (pc : Pc) : (p.setPc pc).a.s = p.a.s := rfl
@[simp] theorem Ply.setPc_a_p (p : Ply) (pc : Pc) : (p.setPc pc).a.p = p.a.p := rfl
@[simp] theorem Ply.setPc_a_q (p : Ply) (pc : Pc) : (p.setPc pc).a.q = p.a.q := rfl
@[simp] theorem Ply.setPc_a_c (p : Ply) (pc : Pc) : (p.setPc pc).a.c = p.a.c := rfl
@[simp] theorem Ply.setPc_a_rows (p : Ply) (pc : Pc) : (p.setPc pc).a.rows = p.a.rows := rfl
@[simp] theorem Ply.setPc_a_t (p : Ply) (pc : Pc) : (p.setPc pc).a.t = p.a.t := rfl
@[simp] theorem Ply.setPc_a_cb (p : Ply) (pc : Pc) : (p.setPc pc).a.cb = p.a.cb := rfl
@[simp] theorem Ply.setPc_a_fpmode (p : Ply) (pc : Pc) : (p.setPc pc).a.fpmode = p.a.fpmode := rfl
@[simp] theorem Ply.setPc_a_fpflags (p : Ply) (pc : Pc) : (p.setPc pc).a.fpflags = p.a.fpflags := rfl
@[simp] theorem Ply.setPc_a_rnsctl (p : Ply) (pc : Pc) : (p.setPc pc).a.rnsctl = p.a.rnsctl := rfl
@[simp] theorem Ply.setPc_a_rnsLoc (p : Ply) (pc : Pc) : (p.setPc pc).a.rnsLoc = p.a.rnsLoc := rfl
@[simp] theorem Ply.setPc_a_rnsMcnt (p : Ply) (pc : Pc) : (p.setPc pc).a.rnsMcnt = p.a.rnsMcnt := rfl
@[simp] theorem Ply.setPc_a_rnsUnc (p : Ply) (pc : Pc) : (p.setPc pc).a.rnsUnc = p.a.rnsUnc := rfl
@[simp] theorem Ply.setPc_a_resbase (p : Ply) (pc : Pc) : (p.setPc pc).a.resbase = p.a.resbase := rfl
@[simp] theorem Ply.setPc_a_qbackoff (p : Ply) (pc : Pc) : (p.setPc pc).a.qbackoff = p.a.qbackoff := rfl
@[simp] theorem Ply.setPc_a_uivec (p : Ply) (pc : Pc) : (p.setPc pc).a.uivec = p.a.uivec := rfl
@[simp] theorem Ply.setPc_a_uictl (p : Ply) (pc : Pc) : (p.setPc pc).a.uictl = p.a.uictl := rfl
@[simp] theorem Ply.setPc_a_wmsig (p : Ply) (pc : Pc) : (p.setPc pc).a.wmsig = p.a.wmsig := rfl
@[simp] theorem Ply.setPc_a_wmmask (p : Ply) (pc : Pc) : (p.setPc pc).a.wmmask = p.a.wmmask := rfl
@[simp] theorem Ply.setPc_a_wix (p : Ply) (pc : Pc) : (p.setPc pc).a.wix = p.a.wix := rfl
@[simp] theorem Ply.setPc_a_sibix (p : Ply) (pc : Pc) : (p.setPc pc).a.sibix = p.a.sibix := rfl
@[simp] theorem Ply.setPc_a_role (p : Ply) (pc : Pc) : (p.setPc pc).a.role = p.a.role := rfl
@[simp] theorem Ply.setPc_a_ticket (p : Ply) (pc : Pc) : (p.setPc pc).a.ticket = p.a.ticket := rfl
@[simp] theorem Ply.setPc_a_slotIx (p : Ply) (pc : Pc) : (p.setPc pc).a.slotIx = p.a.slotIx := rfl
@[simp] theorem Ply.setPc_a_phase (p : Ply) (pc : Pc) : (p.setPc pc).a.phase = p.a.phase := rfl
@[simp] theorem Ply.setEntry_uid (p : Ply) (r : VReg) (e : RowEntry) : (p.setEntry r e).uid = p.uid := rfl
@[simp] theorem Ply.setEntry_width (p : Ply) (r : VReg) (e : RowEntry) : (p.setEntry r e).width = p.width := rfl
@[simp] theorem Ply.setEntry_state (p : Ply) (r : VReg) (e : RowEntry) : (p.setEntry r e).state = p.state := rfl
@[simp] theorem Ply.setEntry_wait (p : Ply) (r : VReg) (e : RowEntry) : (p.setEntry r e).wait = p.wait := rfl
@[simp] theorem Ply.setEntry_words (p : Ply) (r : VReg) (e : RowEntry) : (p.setEntry r e).words = p.words := rfl
@[simp] theorem Ply.setEntry_mode (p : Ply) (r : VReg) (e : RowEntry) : (p.setEntry r e).mode = p.mode := rfl
@[simp] theorem Ply.setEntry_held (p : Ply) (r : VReg) (e : RowEntry) : (p.setEntry r e).held = p.held := rfl
@[simp] theorem Ply.setEntry_region (p : Ply) (r : VReg) (e : RowEntry) : (p.setEntry r e).region = p.region := rfl
@[simp] theorem Ply.setEntry_retry (p : Ply) (r : VReg) (e : RowEntry) : (p.setEntry r e).retry = p.retry := rfl
@[simp] theorem Ply.setEntry_regEm (p : Ply) (r : VReg) (e : RowEntry) : (p.setEntry r e).regEm = p.regEm := rfl
@[simp] theorem Ply.setEntry_regSig (p : Ply) (r : VReg) (e : RowEntry) : (p.setEntry r e).regSig = p.regSig := rfl
@[simp] theorem Ply.setEntry_regMask (p : Ply) (r : VReg) (e : RowEntry) : (p.setEntry r e).regMask = p.regMask := rfl
@[simp] theorem Ply.setEntry_hintdrop (p : Ply) (r : VReg) (e : RowEntry) : (p.setEntry r e).hintdrop = p.hintdrop := rfl
@[simp] theorem Ply.setEntry_scopestat (p : Ply) (r : VReg) (e : RowEntry) : (p.setEntry r e).scopestat = p.scopestat := rfl
@[simp] theorem Ply.setEntry_uicause (p : Ply) (r : VReg) (e : RowEntry) : (p.setEntry r e).uicause = p.uicause := rfl
@[simp] theorem Ply.setEntry_uisrc (p : Ply) (r : VReg) (e : RowEntry) : (p.setEntry r e).uisrc = p.uisrc := rfl
@[simp] theorem Ply.setEntry_uicix (p : Ply) (r : VReg) (e : RowEntry) : (p.setEntry r e).uicix = p.uicix := rfl
@[simp] theorem Ply.setEntry_uiepc (p : Ply) (r : VReg) (e : RowEntry) : (p.setEntry r e).uiepc = p.uiepc := rfl
@[simp] theorem Ply.setEntry_uiem (p : Ply) (r : VReg) (e : RowEntry) : (p.setEntry r e).uiem = p.uiem := rfl
@[simp] theorem Ply.setEntry_inUi (p : Ply) (r : VReg) (e : RowEntry) : (p.setEntry r e).inUi = p.inUi := rfl
@[simp] theorem Ply.setEntry_uiDepth (p : Ply) (r : VReg) (e : RowEntry) : (p.setEntry r e).uiDepth = p.uiDepth := rfl
@[simp] theorem Ply.setEntry_pendLwake (p : Ply) (r : VReg) (e : RowEntry) : (p.setEntry r e).pendLwake = p.pendLwake := rfl
@[simp] theorem Ply.setEntry_pendQueue (p : Ply) (r : VReg) (e : RowEntry) : (p.setEntry r e).pendQueue = p.pendQueue := rfl
@[simp] theorem Ply.setEntry_pendTrap (p : Ply) (r : VReg) (e : RowEntry) : (p.setEntry r e).pendTrap = p.pendTrap := rfl
@[simp] theorem Ply.setEntry_pendCopy (p : Ply) (r : VReg) (e : RowEntry) : (p.setEntry r e).pendCopy = p.pendCopy := rfl
@[simp] theorem Ply.setEntry_ident (p : Ply) (r : VReg) (e : RowEntry) : (p.setEntry r e).ident = p.ident := rfl
@[simp] theorem Ply.setEntry_watched (p : Ply) (r : VReg) (e : RowEntry) : (p.setEntry r e).watched = p.watched := rfl
@[simp] theorem Ply.setEntry_armed (p : Ply) (r : VReg) (e : RowEntry) : (p.setEntry r e).armed = p.armed := rfl
@[simp] theorem Ply.setEntry_barMark (p : Ply) (r : VReg) (e : RowEntry) : (p.setEntry r e).barMark = p.barMark := rfl
@[simp] theorem Ply.setEntry_halt (p : Ply) (r : VReg) (e : RowEntry) : (p.setEntry r e).halt = p.halt := rfl
@[simp] theorem Ply.setEntry_unfinished (p : Ply) (r : VReg) (e : RowEntry) : (p.setEntry r e).unfinished = p.unfinished := rfl
@[simp] theorem Ply.setEntry_deferred (p : Ply) (r : VReg) (e : RowEntry) : (p.setEntry r e).deferred = p.deferred := rfl
@[simp] theorem Ply.setEntry_fullEm (p : Ply) (r : VReg) (e : RowEntry) : (p.setEntry r e).fullEm = p.fullEm := rfl
@[simp] theorem Ply.setEntry_stale (p : Ply) (r : VReg) (e : RowEntry) : (p.setEntry r e).stale = p.stale := rfl
@[simp] theorem Ply.setEntry_staleFetch (p : Ply) (r : VReg) (e : RowEntry) : (p.setEntry r e).staleFetch = p.staleFetch := rfl
@[simp] theorem Ply.setEntry_passLane (p : Ply) (r : VReg) (e : RowEntry) : (p.setEntry r e).passLane = p.passLane := rfl
@[simp] theorem Ply.setEntry_passUniform (p : Ply) (r : VReg) (e : RowEntry) : (p.setEntry r e).passUniform = p.passUniform := rfl
@[simp] theorem Ply.setEntry_stalled (p : Ply) (r : VReg) (e : RowEntry) : (p.setEntry r e).stalled = p.stalled := rfl
@[simp] theorem Ply.setEntry_item (p : Ply) (r : VReg) (e : RowEntry) : (p.setEntry r e).item = p.item := rfl
@[simp] theorem Ply.setEntry_kept (p : Ply) (r : VReg) (e : RowEntry) : (p.setEntry r e).kept = p.kept := rfl
@[simp] theorem Ply.setEntry_above (p : Ply) (r : VReg) (e : RowEntry) : (p.setEntry r e).above = p.above := rfl
@[simp] theorem Ply.setEntry_priv (p : Ply) (r : VReg) (e : RowEntry) : (p.setEntry r e).priv = p.priv := rfl
@[simp] theorem Ply.setEntry_a_pc (p : Ply) (r : VReg) (e : RowEntry) : (p.setEntry r e).a.pc = p.a.pc := rfl
@[simp] theorem Ply.setEntry_a_em (p : Ply) (r : VReg) (e : RowEntry) : (p.setEntry r e).a.em = p.a.em := rfl
@[simp] theorem Ply.setEntry_a_knuckles (p : Ply) (r : VReg) (e : RowEntry) : (p.setEntry r e).a.knuckles = p.a.knuckles := rfl
@[simp] theorem Ply.setEntry_a_pins (p : Ply) (r : VReg) (e : RowEntry) : (p.setEntry r e).a.pins = p.a.pins := rfl
@[simp] theorem Ply.setEntry_a_s (p : Ply) (r : VReg) (e : RowEntry) : (p.setEntry r e).a.s = p.a.s := rfl
@[simp] theorem Ply.setEntry_a_p (p : Ply) (r : VReg) (e : RowEntry) : (p.setEntry r e).a.p = p.a.p := rfl
@[simp] theorem Ply.setEntry_a_q (p : Ply) (r : VReg) (e : RowEntry) : (p.setEntry r e).a.q = p.a.q := rfl
@[simp] theorem Ply.setEntry_a_c (p : Ply) (r : VReg) (e : RowEntry) : (p.setEntry r e).a.c = p.a.c := rfl
@[simp] theorem Ply.setEntry_a_t (p : Ply) (r : VReg) (e : RowEntry) : (p.setEntry r e).a.t = p.a.t := rfl
@[simp] theorem Ply.setEntry_a_cb (p : Ply) (r : VReg) (e : RowEntry) : (p.setEntry r e).a.cb = p.a.cb := rfl
@[simp] theorem Ply.setEntry_a_fpmode (p : Ply) (r : VReg) (e : RowEntry) : (p.setEntry r e).a.fpmode = p.a.fpmode := rfl
@[simp] theorem Ply.setEntry_a_fpflags (p : Ply) (r : VReg) (e : RowEntry) : (p.setEntry r e).a.fpflags = p.a.fpflags := rfl
@[simp] theorem Ply.setEntry_a_rnsctl (p : Ply) (r : VReg) (e : RowEntry) : (p.setEntry r e).a.rnsctl = p.a.rnsctl := rfl
@[simp] theorem Ply.setEntry_a_rnsLoc (p : Ply) (r : VReg) (e : RowEntry) : (p.setEntry r e).a.rnsLoc = p.a.rnsLoc := rfl
@[simp] theorem Ply.setEntry_a_rnsMcnt (p : Ply) (r : VReg) (e : RowEntry) : (p.setEntry r e).a.rnsMcnt = p.a.rnsMcnt := rfl
@[simp] theorem Ply.setEntry_a_rnsUnc (p : Ply) (r : VReg) (e : RowEntry) : (p.setEntry r e).a.rnsUnc = p.a.rnsUnc := rfl
@[simp] theorem Ply.setEntry_a_resbase (p : Ply) (r : VReg) (e : RowEntry) : (p.setEntry r e).a.resbase = p.a.resbase := rfl
@[simp] theorem Ply.setEntry_a_qbackoff (p : Ply) (r : VReg) (e : RowEntry) : (p.setEntry r e).a.qbackoff = p.a.qbackoff := rfl
@[simp] theorem Ply.setEntry_a_uivec (p : Ply) (r : VReg) (e : RowEntry) : (p.setEntry r e).a.uivec = p.a.uivec := rfl
@[simp] theorem Ply.setEntry_a_uictl (p : Ply) (r : VReg) (e : RowEntry) : (p.setEntry r e).a.uictl = p.a.uictl := rfl
@[simp] theorem Ply.setEntry_a_wmsig (p : Ply) (r : VReg) (e : RowEntry) : (p.setEntry r e).a.wmsig = p.a.wmsig := rfl
@[simp] theorem Ply.setEntry_a_wmmask (p : Ply) (r : VReg) (e : RowEntry) : (p.setEntry r e).a.wmmask = p.a.wmmask := rfl
@[simp] theorem Ply.setEntry_a_wix (p : Ply) (r : VReg) (e : RowEntry) : (p.setEntry r e).a.wix = p.a.wix := rfl
@[simp] theorem Ply.setEntry_a_sibix (p : Ply) (r : VReg) (e : RowEntry) : (p.setEntry r e).a.sibix = p.a.sibix := rfl
@[simp] theorem Ply.setEntry_a_role (p : Ply) (r : VReg) (e : RowEntry) : (p.setEntry r e).a.role = p.a.role := rfl
@[simp] theorem Ply.setEntry_a_ticket (p : Ply) (r : VReg) (e : RowEntry) : (p.setEntry r e).a.ticket = p.a.ticket := rfl
@[simp] theorem Ply.setEntry_a_slotIx (p : Ply) (r : VReg) (e : RowEntry) : (p.setEntry r e).a.slotIx = p.a.slotIx := rfl
@[simp] theorem Ply.setEntry_a_phase (p : Ply) (r : VReg) (e : RowEntry) : (p.setEntry r e).a.phase = p.a.phase := rfl
@[simp] theorem Ply.setPin_uid (p : Ply) (k : KReg) (x : Pin) : (p.setPin k x).uid = p.uid := rfl
@[simp] theorem Ply.setPin_width (p : Ply) (k : KReg) (x : Pin) : (p.setPin k x).width = p.width := rfl
@[simp] theorem Ply.setPin_state (p : Ply) (k : KReg) (x : Pin) : (p.setPin k x).state = p.state := rfl
@[simp] theorem Ply.setPin_wait (p : Ply) (k : KReg) (x : Pin) : (p.setPin k x).wait = p.wait := rfl
@[simp] theorem Ply.setPin_words (p : Ply) (k : KReg) (x : Pin) : (p.setPin k x).words = p.words := rfl
@[simp] theorem Ply.setPin_mode (p : Ply) (k : KReg) (x : Pin) : (p.setPin k x).mode = p.mode := rfl
@[simp] theorem Ply.setPin_held (p : Ply) (k : KReg) (x : Pin) : (p.setPin k x).held = p.held := rfl
@[simp] theorem Ply.setPin_region (p : Ply) (k : KReg) (x : Pin) : (p.setPin k x).region = p.region := rfl
@[simp] theorem Ply.setPin_retry (p : Ply) (k : KReg) (x : Pin) : (p.setPin k x).retry = p.retry := rfl
@[simp] theorem Ply.setPin_regEm (p : Ply) (k : KReg) (x : Pin) : (p.setPin k x).regEm = p.regEm := rfl
@[simp] theorem Ply.setPin_regSig (p : Ply) (k : KReg) (x : Pin) : (p.setPin k x).regSig = p.regSig := rfl
@[simp] theorem Ply.setPin_regMask (p : Ply) (k : KReg) (x : Pin) : (p.setPin k x).regMask = p.regMask := rfl
@[simp] theorem Ply.setPin_hintdrop (p : Ply) (k : KReg) (x : Pin) : (p.setPin k x).hintdrop = p.hintdrop := rfl
@[simp] theorem Ply.setPin_scopestat (p : Ply) (k : KReg) (x : Pin) : (p.setPin k x).scopestat = p.scopestat := rfl
@[simp] theorem Ply.setPin_uicause (p : Ply) (k : KReg) (x : Pin) : (p.setPin k x).uicause = p.uicause := rfl
@[simp] theorem Ply.setPin_uisrc (p : Ply) (k : KReg) (x : Pin) : (p.setPin k x).uisrc = p.uisrc := rfl
@[simp] theorem Ply.setPin_uicix (p : Ply) (k : KReg) (x : Pin) : (p.setPin k x).uicix = p.uicix := rfl
@[simp] theorem Ply.setPin_uiepc (p : Ply) (k : KReg) (x : Pin) : (p.setPin k x).uiepc = p.uiepc := rfl
@[simp] theorem Ply.setPin_uiem (p : Ply) (k : KReg) (x : Pin) : (p.setPin k x).uiem = p.uiem := rfl
@[simp] theorem Ply.setPin_inUi (p : Ply) (k : KReg) (x : Pin) : (p.setPin k x).inUi = p.inUi := rfl
@[simp] theorem Ply.setPin_uiDepth (p : Ply) (k : KReg) (x : Pin) : (p.setPin k x).uiDepth = p.uiDepth := rfl
@[simp] theorem Ply.setPin_pendLwake (p : Ply) (k : KReg) (x : Pin) : (p.setPin k x).pendLwake = p.pendLwake := rfl
@[simp] theorem Ply.setPin_pendQueue (p : Ply) (k : KReg) (x : Pin) : (p.setPin k x).pendQueue = p.pendQueue := rfl
@[simp] theorem Ply.setPin_pendTrap (p : Ply) (k : KReg) (x : Pin) : (p.setPin k x).pendTrap = p.pendTrap := rfl
@[simp] theorem Ply.setPin_pendCopy (p : Ply) (k : KReg) (x : Pin) : (p.setPin k x).pendCopy = p.pendCopy := rfl
@[simp] theorem Ply.setPin_ident (p : Ply) (k : KReg) (x : Pin) : (p.setPin k x).ident = p.ident := rfl
@[simp] theorem Ply.setPin_watched (p : Ply) (k : KReg) (x : Pin) : (p.setPin k x).watched = p.watched := rfl
@[simp] theorem Ply.setPin_armed (p : Ply) (k : KReg) (x : Pin) : (p.setPin k x).armed = p.armed := rfl
@[simp] theorem Ply.setPin_barMark (p : Ply) (k : KReg) (x : Pin) : (p.setPin k x).barMark = p.barMark := rfl
@[simp] theorem Ply.setPin_halt (p : Ply) (k : KReg) (x : Pin) : (p.setPin k x).halt = p.halt := rfl
@[simp] theorem Ply.setPin_unfinished (p : Ply) (k : KReg) (x : Pin) : (p.setPin k x).unfinished = p.unfinished := rfl
@[simp] theorem Ply.setPin_deferred (p : Ply) (k : KReg) (x : Pin) : (p.setPin k x).deferred = p.deferred := rfl
@[simp] theorem Ply.setPin_fullEm (p : Ply) (k : KReg) (x : Pin) : (p.setPin k x).fullEm = p.fullEm := rfl
@[simp] theorem Ply.setPin_stale (p : Ply) (k : KReg) (x : Pin) : (p.setPin k x).stale = p.stale := rfl
@[simp] theorem Ply.setPin_staleFetch (p : Ply) (k : KReg) (x : Pin) : (p.setPin k x).staleFetch = p.staleFetch := rfl
@[simp] theorem Ply.setPin_passLane (p : Ply) (k : KReg) (x : Pin) : (p.setPin k x).passLane = p.passLane := rfl
@[simp] theorem Ply.setPin_passUniform (p : Ply) (k : KReg) (x : Pin) : (p.setPin k x).passUniform = p.passUniform := rfl
@[simp] theorem Ply.setPin_stalled (p : Ply) (k : KReg) (x : Pin) : (p.setPin k x).stalled = p.stalled := rfl
@[simp] theorem Ply.setPin_item (p : Ply) (k : KReg) (x : Pin) : (p.setPin k x).item = p.item := rfl
@[simp] theorem Ply.setPin_kept (p : Ply) (k : KReg) (x : Pin) : (p.setPin k x).kept = p.kept := rfl
@[simp] theorem Ply.setPin_above (p : Ply) (k : KReg) (x : Pin) : (p.setPin k x).above = p.above := rfl
@[simp] theorem Ply.setPin_priv (p : Ply) (k : KReg) (x : Pin) : (p.setPin k x).priv = p.priv := rfl
@[simp] theorem Ply.setPin_a_pc (p : Ply) (k : KReg) (x : Pin) : (p.setPin k x).a.pc = p.a.pc := rfl
@[simp] theorem Ply.setPin_a_em (p : Ply) (k : KReg) (x : Pin) : (p.setPin k x).a.em = p.a.em := rfl
@[simp] theorem Ply.setPin_a_knuckles (p : Ply) (k : KReg) (x : Pin) : (p.setPin k x).a.knuckles = p.a.knuckles := rfl
@[simp] theorem Ply.setPin_a_s (p : Ply) (k : KReg) (x : Pin) : (p.setPin k x).a.s = p.a.s := rfl
@[simp] theorem Ply.setPin_a_p (p : Ply) (k : KReg) (x : Pin) : (p.setPin k x).a.p = p.a.p := rfl
@[simp] theorem Ply.setPin_a_q (p : Ply) (k : KReg) (x : Pin) : (p.setPin k x).a.q = p.a.q := rfl
@[simp] theorem Ply.setPin_a_c (p : Ply) (k : KReg) (x : Pin) : (p.setPin k x).a.c = p.a.c := rfl
@[simp] theorem Ply.setPin_a_rows (p : Ply) (k : KReg) (x : Pin) : (p.setPin k x).a.rows = p.a.rows := rfl
@[simp] theorem Ply.setPin_a_t (p : Ply) (k : KReg) (x : Pin) : (p.setPin k x).a.t = p.a.t := rfl
@[simp] theorem Ply.setPin_a_cb (p : Ply) (k : KReg) (x : Pin) : (p.setPin k x).a.cb = p.a.cb := rfl
@[simp] theorem Ply.setPin_a_fpmode (p : Ply) (k : KReg) (x : Pin) : (p.setPin k x).a.fpmode = p.a.fpmode := rfl
@[simp] theorem Ply.setPin_a_fpflags (p : Ply) (k : KReg) (x : Pin) : (p.setPin k x).a.fpflags = p.a.fpflags := rfl
@[simp] theorem Ply.setPin_a_rnsctl (p : Ply) (k : KReg) (x : Pin) : (p.setPin k x).a.rnsctl = p.a.rnsctl := rfl
@[simp] theorem Ply.setPin_a_rnsLoc (p : Ply) (k : KReg) (x : Pin) : (p.setPin k x).a.rnsLoc = p.a.rnsLoc := rfl
@[simp] theorem Ply.setPin_a_rnsMcnt (p : Ply) (k : KReg) (x : Pin) : (p.setPin k x).a.rnsMcnt = p.a.rnsMcnt := rfl
@[simp] theorem Ply.setPin_a_rnsUnc (p : Ply) (k : KReg) (x : Pin) : (p.setPin k x).a.rnsUnc = p.a.rnsUnc := rfl
@[simp] theorem Ply.setPin_a_resbase (p : Ply) (k : KReg) (x : Pin) : (p.setPin k x).a.resbase = p.a.resbase := rfl
@[simp] theorem Ply.setPin_a_qbackoff (p : Ply) (k : KReg) (x : Pin) : (p.setPin k x).a.qbackoff = p.a.qbackoff := rfl
@[simp] theorem Ply.setPin_a_uivec (p : Ply) (k : KReg) (x : Pin) : (p.setPin k x).a.uivec = p.a.uivec := rfl
@[simp] theorem Ply.setPin_a_uictl (p : Ply) (k : KReg) (x : Pin) : (p.setPin k x).a.uictl = p.a.uictl := rfl
@[simp] theorem Ply.setPin_a_wmsig (p : Ply) (k : KReg) (x : Pin) : (p.setPin k x).a.wmsig = p.a.wmsig := rfl
@[simp] theorem Ply.setPin_a_wmmask (p : Ply) (k : KReg) (x : Pin) : (p.setPin k x).a.wmmask = p.a.wmmask := rfl
@[simp] theorem Ply.setPin_a_wix (p : Ply) (k : KReg) (x : Pin) : (p.setPin k x).a.wix = p.a.wix := rfl
@[simp] theorem Ply.setPin_a_sibix (p : Ply) (k : KReg) (x : Pin) : (p.setPin k x).a.sibix = p.a.sibix := rfl
@[simp] theorem Ply.setPin_a_role (p : Ply) (k : KReg) (x : Pin) : (p.setPin k x).a.role = p.a.role := rfl
@[simp] theorem Ply.setPin_a_ticket (p : Ply) (k : KReg) (x : Pin) : (p.setPin k x).a.ticket = p.a.ticket := rfl
@[simp] theorem Ply.setPin_a_slotIx (p : Ply) (k : KReg) (x : Pin) : (p.setPin k x).a.slotIx = p.a.slotIx := rfl
@[simp] theorem Ply.setPin_a_phase (p : Ply) (k : KReg) (x : Pin) : (p.setPin k x).a.phase = p.a.phase := rfl
@[simp] theorem Ply.setP_uid (p : Ply) (r : PReg) (m v : DWord) : (p.setP r m v).uid = p.uid := by unfold Ply.setP; split <;> rfl
@[simp] theorem Ply.setP_width (p : Ply) (r : PReg) (m v : DWord) : (p.setP r m v).width = p.width := by unfold Ply.setP; split <;> rfl
@[simp] theorem Ply.setP_state (p : Ply) (r : PReg) (m v : DWord) : (p.setP r m v).state = p.state := by unfold Ply.setP; split <;> rfl
@[simp] theorem Ply.setP_wait (p : Ply) (r : PReg) (m v : DWord) : (p.setP r m v).wait = p.wait := by unfold Ply.setP; split <;> rfl
@[simp] theorem Ply.setP_words (p : Ply) (r : PReg) (m v : DWord) : (p.setP r m v).words = p.words := by unfold Ply.setP; split <;> rfl
@[simp] theorem Ply.setP_mode (p : Ply) (r : PReg) (m v : DWord) : (p.setP r m v).mode = p.mode := by unfold Ply.setP; split <;> rfl
@[simp] theorem Ply.setP_held (p : Ply) (r : PReg) (m v : DWord) : (p.setP r m v).held = p.held := by unfold Ply.setP; split <;> rfl
@[simp] theorem Ply.setP_region (p : Ply) (r : PReg) (m v : DWord) : (p.setP r m v).region = p.region := by unfold Ply.setP; split <;> rfl
@[simp] theorem Ply.setP_retry (p : Ply) (r : PReg) (m v : DWord) : (p.setP r m v).retry = p.retry := by unfold Ply.setP; split <;> rfl
@[simp] theorem Ply.setP_regEm (p : Ply) (r : PReg) (m v : DWord) : (p.setP r m v).regEm = p.regEm := by unfold Ply.setP; split <;> rfl
@[simp] theorem Ply.setP_regSig (p : Ply) (r : PReg) (m v : DWord) : (p.setP r m v).regSig = p.regSig := by unfold Ply.setP; split <;> rfl
@[simp] theorem Ply.setP_regMask (p : Ply) (r : PReg) (m v : DWord) : (p.setP r m v).regMask = p.regMask := by unfold Ply.setP; split <;> rfl
@[simp] theorem Ply.setP_hintdrop (p : Ply) (r : PReg) (m v : DWord) : (p.setP r m v).hintdrop = p.hintdrop := by unfold Ply.setP; split <;> rfl
@[simp] theorem Ply.setP_scopestat (p : Ply) (r : PReg) (m v : DWord) : (p.setP r m v).scopestat = p.scopestat := by unfold Ply.setP; split <;> rfl
@[simp] theorem Ply.setP_uicause (p : Ply) (r : PReg) (m v : DWord) : (p.setP r m v).uicause = p.uicause := by unfold Ply.setP; split <;> rfl
@[simp] theorem Ply.setP_uisrc (p : Ply) (r : PReg) (m v : DWord) : (p.setP r m v).uisrc = p.uisrc := by unfold Ply.setP; split <;> rfl
@[simp] theorem Ply.setP_uicix (p : Ply) (r : PReg) (m v : DWord) : (p.setP r m v).uicix = p.uicix := by unfold Ply.setP; split <;> rfl
@[simp] theorem Ply.setP_uiepc (p : Ply) (r : PReg) (m v : DWord) : (p.setP r m v).uiepc = p.uiepc := by unfold Ply.setP; split <;> rfl
@[simp] theorem Ply.setP_uiem (p : Ply) (r : PReg) (m v : DWord) : (p.setP r m v).uiem = p.uiem := by unfold Ply.setP; split <;> rfl
@[simp] theorem Ply.setP_inUi (p : Ply) (r : PReg) (m v : DWord) : (p.setP r m v).inUi = p.inUi := by unfold Ply.setP; split <;> rfl
@[simp] theorem Ply.setP_uiDepth (p : Ply) (r : PReg) (m v : DWord) : (p.setP r m v).uiDepth = p.uiDepth := by unfold Ply.setP; split <;> rfl
@[simp] theorem Ply.setP_pendLwake (p : Ply) (r : PReg) (m v : DWord) : (p.setP r m v).pendLwake = p.pendLwake := by unfold Ply.setP; split <;> rfl
@[simp] theorem Ply.setP_pendQueue (p : Ply) (r : PReg) (m v : DWord) : (p.setP r m v).pendQueue = p.pendQueue := by unfold Ply.setP; split <;> rfl
@[simp] theorem Ply.setP_pendTrap (p : Ply) (r : PReg) (m v : DWord) : (p.setP r m v).pendTrap = p.pendTrap := by unfold Ply.setP; split <;> rfl
@[simp] theorem Ply.setP_pendCopy (p : Ply) (r : PReg) (m v : DWord) : (p.setP r m v).pendCopy = p.pendCopy := by unfold Ply.setP; split <;> rfl
@[simp] theorem Ply.setP_ident (p : Ply) (r : PReg) (m v : DWord) : (p.setP r m v).ident = p.ident := by unfold Ply.setP; split <;> rfl
@[simp] theorem Ply.setP_watched (p : Ply) (r : PReg) (m v : DWord) : (p.setP r m v).watched = p.watched := by unfold Ply.setP; split <;> rfl
@[simp] theorem Ply.setP_armed (p : Ply) (r : PReg) (m v : DWord) : (p.setP r m v).armed = p.armed := by unfold Ply.setP; split <;> rfl
@[simp] theorem Ply.setP_barMark (p : Ply) (r : PReg) (m v : DWord) : (p.setP r m v).barMark = p.barMark := by unfold Ply.setP; split <;> rfl
@[simp] theorem Ply.setP_halt (p : Ply) (r : PReg) (m v : DWord) : (p.setP r m v).halt = p.halt := by unfold Ply.setP; split <;> rfl
@[simp] theorem Ply.setP_unfinished (p : Ply) (r : PReg) (m v : DWord) : (p.setP r m v).unfinished = p.unfinished := by unfold Ply.setP; split <;> rfl
@[simp] theorem Ply.setP_deferred (p : Ply) (r : PReg) (m v : DWord) : (p.setP r m v).deferred = p.deferred := by unfold Ply.setP; split <;> rfl
@[simp] theorem Ply.setP_fullEm (p : Ply) (r : PReg) (m v : DWord) : (p.setP r m v).fullEm = p.fullEm := by unfold Ply.setP; split <;> rfl
@[simp] theorem Ply.setP_stale (p : Ply) (r : PReg) (m v : DWord) : (p.setP r m v).stale = p.stale := by unfold Ply.setP; split <;> rfl
@[simp] theorem Ply.setP_staleFetch (p : Ply) (r : PReg) (m v : DWord) : (p.setP r m v).staleFetch = p.staleFetch := by unfold Ply.setP; split <;> rfl
@[simp] theorem Ply.setP_passLane (p : Ply) (r : PReg) (m v : DWord) : (p.setP r m v).passLane = p.passLane := by unfold Ply.setP; split <;> rfl
@[simp] theorem Ply.setP_passUniform (p : Ply) (r : PReg) (m v : DWord) : (p.setP r m v).passUniform = p.passUniform := by unfold Ply.setP; split <;> rfl
@[simp] theorem Ply.setP_stalled (p : Ply) (r : PReg) (m v : DWord) : (p.setP r m v).stalled = p.stalled := by unfold Ply.setP; split <;> rfl
@[simp] theorem Ply.setP_item (p : Ply) (r : PReg) (m v : DWord) : (p.setP r m v).item = p.item := by unfold Ply.setP; split <;> rfl
@[simp] theorem Ply.setP_kept (p : Ply) (r : PReg) (m v : DWord) : (p.setP r m v).kept = p.kept := by unfold Ply.setP; split <;> rfl
@[simp] theorem Ply.setP_above (p : Ply) (r : PReg) (m v : DWord) : (p.setP r m v).above = p.above := by unfold Ply.setP; split <;> rfl
@[simp] theorem Ply.setP_priv (p : Ply) (r : PReg) (m v : DWord) : (p.setP r m v).priv = p.priv := by unfold Ply.setP; split <;> rfl
@[simp] theorem Ply.setP_a_pc (p : Ply) (r : PReg) (m v : DWord) : (p.setP r m v).a.pc = p.a.pc := by unfold Ply.setP; split <;> rfl
@[simp] theorem Ply.setP_a_em (p : Ply) (r : PReg) (m v : DWord) : (p.setP r m v).a.em = p.a.em := by unfold Ply.setP; split <;> rfl
@[simp] theorem Ply.setP_a_knuckles (p : Ply) (r : PReg) (m v : DWord) : (p.setP r m v).a.knuckles = p.a.knuckles := by unfold Ply.setP; split <;> rfl
@[simp] theorem Ply.setP_a_pins (p : Ply) (r : PReg) (m v : DWord) : (p.setP r m v).a.pins = p.a.pins := by unfold Ply.setP; split <;> rfl
@[simp] theorem Ply.setP_a_s (p : Ply) (r : PReg) (m v : DWord) : (p.setP r m v).a.s = p.a.s := by unfold Ply.setP; split <;> rfl
@[simp] theorem Ply.setP_a_q (p : Ply) (r : PReg) (m v : DWord) : (p.setP r m v).a.q = p.a.q := by unfold Ply.setP; split <;> rfl
@[simp] theorem Ply.setP_a_c (p : Ply) (r : PReg) (m v : DWord) : (p.setP r m v).a.c = p.a.c := by unfold Ply.setP; split <;> rfl
@[simp] theorem Ply.setP_a_rows (p : Ply) (r : PReg) (m v : DWord) : (p.setP r m v).a.rows = p.a.rows := by unfold Ply.setP; split <;> rfl
@[simp] theorem Ply.setP_a_t (p : Ply) (r : PReg) (m v : DWord) : (p.setP r m v).a.t = p.a.t := by unfold Ply.setP; split <;> rfl
@[simp] theorem Ply.setP_a_cb (p : Ply) (r : PReg) (m v : DWord) : (p.setP r m v).a.cb = p.a.cb := by unfold Ply.setP; split <;> rfl
@[simp] theorem Ply.setP_a_fpmode (p : Ply) (r : PReg) (m v : DWord) : (p.setP r m v).a.fpmode = p.a.fpmode := by unfold Ply.setP; split <;> rfl
@[simp] theorem Ply.setP_a_fpflags (p : Ply) (r : PReg) (m v : DWord) : (p.setP r m v).a.fpflags = p.a.fpflags := by unfold Ply.setP; split <;> rfl
@[simp] theorem Ply.setP_a_rnsctl (p : Ply) (r : PReg) (m v : DWord) : (p.setP r m v).a.rnsctl = p.a.rnsctl := by unfold Ply.setP; split <;> rfl
@[simp] theorem Ply.setP_a_rnsLoc (p : Ply) (r : PReg) (m v : DWord) : (p.setP r m v).a.rnsLoc = p.a.rnsLoc := by unfold Ply.setP; split <;> rfl
@[simp] theorem Ply.setP_a_rnsMcnt (p : Ply) (r : PReg) (m v : DWord) : (p.setP r m v).a.rnsMcnt = p.a.rnsMcnt := by unfold Ply.setP; split <;> rfl
@[simp] theorem Ply.setP_a_rnsUnc (p : Ply) (r : PReg) (m v : DWord) : (p.setP r m v).a.rnsUnc = p.a.rnsUnc := by unfold Ply.setP; split <;> rfl
@[simp] theorem Ply.setP_a_resbase (p : Ply) (r : PReg) (m v : DWord) : (p.setP r m v).a.resbase = p.a.resbase := by unfold Ply.setP; split <;> rfl
@[simp] theorem Ply.setP_a_qbackoff (p : Ply) (r : PReg) (m v : DWord) : (p.setP r m v).a.qbackoff = p.a.qbackoff := by unfold Ply.setP; split <;> rfl
@[simp] theorem Ply.setP_a_uivec (p : Ply) (r : PReg) (m v : DWord) : (p.setP r m v).a.uivec = p.a.uivec := by unfold Ply.setP; split <;> rfl
@[simp] theorem Ply.setP_a_uictl (p : Ply) (r : PReg) (m v : DWord) : (p.setP r m v).a.uictl = p.a.uictl := by unfold Ply.setP; split <;> rfl
@[simp] theorem Ply.setP_a_wmsig (p : Ply) (r : PReg) (m v : DWord) : (p.setP r m v).a.wmsig = p.a.wmsig := by unfold Ply.setP; split <;> rfl
@[simp] theorem Ply.setP_a_wmmask (p : Ply) (r : PReg) (m v : DWord) : (p.setP r m v).a.wmmask = p.a.wmmask := by unfold Ply.setP; split <;> rfl
@[simp] theorem Ply.setP_a_wix (p : Ply) (r : PReg) (m v : DWord) : (p.setP r m v).a.wix = p.a.wix := by unfold Ply.setP; split <;> rfl
@[simp] theorem Ply.setP_a_sibix (p : Ply) (r : PReg) (m v : DWord) : (p.setP r m v).a.sibix = p.a.sibix := by unfold Ply.setP; split <;> rfl
@[simp] theorem Ply.setP_a_role (p : Ply) (r : PReg) (m v : DWord) : (p.setP r m v).a.role = p.a.role := by unfold Ply.setP; split <;> rfl
@[simp] theorem Ply.setP_a_ticket (p : Ply) (r : PReg) (m v : DWord) : (p.setP r m v).a.ticket = p.a.ticket := by unfold Ply.setP; split <;> rfl
@[simp] theorem Ply.setP_a_slotIx (p : Ply) (r : PReg) (m v : DWord) : (p.setP r m v).a.slotIx = p.a.slotIx := by unfold Ply.setP; split <;> rfl
@[simp] theorem Ply.setP_a_phase (p : Ply) (r : PReg) (m v : DWord) : (p.setP r m v).a.phase = p.a.phase := by unfold Ply.setP; split <;> rfl
@[simp] theorem Ply.setQ_uid (p : Ply) (r : QReg) (b : Bool) : (p.setQ r b).uid = p.uid := by unfold Ply.setQ; split <;> rfl
@[simp] theorem Ply.setQ_width (p : Ply) (r : QReg) (b : Bool) : (p.setQ r b).width = p.width := by unfold Ply.setQ; split <;> rfl
@[simp] theorem Ply.setQ_state (p : Ply) (r : QReg) (b : Bool) : (p.setQ r b).state = p.state := by unfold Ply.setQ; split <;> rfl
@[simp] theorem Ply.setQ_wait (p : Ply) (r : QReg) (b : Bool) : (p.setQ r b).wait = p.wait := by unfold Ply.setQ; split <;> rfl
@[simp] theorem Ply.setQ_words (p : Ply) (r : QReg) (b : Bool) : (p.setQ r b).words = p.words := by unfold Ply.setQ; split <;> rfl
@[simp] theorem Ply.setQ_mode (p : Ply) (r : QReg) (b : Bool) : (p.setQ r b).mode = p.mode := by unfold Ply.setQ; split <;> rfl
@[simp] theorem Ply.setQ_held (p : Ply) (r : QReg) (b : Bool) : (p.setQ r b).held = p.held := by unfold Ply.setQ; split <;> rfl
@[simp] theorem Ply.setQ_region (p : Ply) (r : QReg) (b : Bool) : (p.setQ r b).region = p.region := by unfold Ply.setQ; split <;> rfl
@[simp] theorem Ply.setQ_retry (p : Ply) (r : QReg) (b : Bool) : (p.setQ r b).retry = p.retry := by unfold Ply.setQ; split <;> rfl
@[simp] theorem Ply.setQ_regEm (p : Ply) (r : QReg) (b : Bool) : (p.setQ r b).regEm = p.regEm := by unfold Ply.setQ; split <;> rfl
@[simp] theorem Ply.setQ_regSig (p : Ply) (r : QReg) (b : Bool) : (p.setQ r b).regSig = p.regSig := by unfold Ply.setQ; split <;> rfl
@[simp] theorem Ply.setQ_regMask (p : Ply) (r : QReg) (b : Bool) : (p.setQ r b).regMask = p.regMask := by unfold Ply.setQ; split <;> rfl
@[simp] theorem Ply.setQ_hintdrop (p : Ply) (r : QReg) (b : Bool) : (p.setQ r b).hintdrop = p.hintdrop := by unfold Ply.setQ; split <;> rfl
@[simp] theorem Ply.setQ_scopestat (p : Ply) (r : QReg) (b : Bool) : (p.setQ r b).scopestat = p.scopestat := by unfold Ply.setQ; split <;> rfl
@[simp] theorem Ply.setQ_uicause (p : Ply) (r : QReg) (b : Bool) : (p.setQ r b).uicause = p.uicause := by unfold Ply.setQ; split <;> rfl
@[simp] theorem Ply.setQ_uisrc (p : Ply) (r : QReg) (b : Bool) : (p.setQ r b).uisrc = p.uisrc := by unfold Ply.setQ; split <;> rfl
@[simp] theorem Ply.setQ_uicix (p : Ply) (r : QReg) (b : Bool) : (p.setQ r b).uicix = p.uicix := by unfold Ply.setQ; split <;> rfl
@[simp] theorem Ply.setQ_uiepc (p : Ply) (r : QReg) (b : Bool) : (p.setQ r b).uiepc = p.uiepc := by unfold Ply.setQ; split <;> rfl
@[simp] theorem Ply.setQ_uiem (p : Ply) (r : QReg) (b : Bool) : (p.setQ r b).uiem = p.uiem := by unfold Ply.setQ; split <;> rfl
@[simp] theorem Ply.setQ_inUi (p : Ply) (r : QReg) (b : Bool) : (p.setQ r b).inUi = p.inUi := by unfold Ply.setQ; split <;> rfl
@[simp] theorem Ply.setQ_uiDepth (p : Ply) (r : QReg) (b : Bool) : (p.setQ r b).uiDepth = p.uiDepth := by unfold Ply.setQ; split <;> rfl
@[simp] theorem Ply.setQ_pendLwake (p : Ply) (r : QReg) (b : Bool) : (p.setQ r b).pendLwake = p.pendLwake := by unfold Ply.setQ; split <;> rfl
@[simp] theorem Ply.setQ_pendQueue (p : Ply) (r : QReg) (b : Bool) : (p.setQ r b).pendQueue = p.pendQueue := by unfold Ply.setQ; split <;> rfl
@[simp] theorem Ply.setQ_pendTrap (p : Ply) (r : QReg) (b : Bool) : (p.setQ r b).pendTrap = p.pendTrap := by unfold Ply.setQ; split <;> rfl
@[simp] theorem Ply.setQ_pendCopy (p : Ply) (r : QReg) (b : Bool) : (p.setQ r b).pendCopy = p.pendCopy := by unfold Ply.setQ; split <;> rfl
@[simp] theorem Ply.setQ_ident (p : Ply) (r : QReg) (b : Bool) : (p.setQ r b).ident = p.ident := by unfold Ply.setQ; split <;> rfl
@[simp] theorem Ply.setQ_watched (p : Ply) (r : QReg) (b : Bool) : (p.setQ r b).watched = p.watched := by unfold Ply.setQ; split <;> rfl
@[simp] theorem Ply.setQ_armed (p : Ply) (r : QReg) (b : Bool) : (p.setQ r b).armed = p.armed := by unfold Ply.setQ; split <;> rfl
@[simp] theorem Ply.setQ_barMark (p : Ply) (r : QReg) (b : Bool) : (p.setQ r b).barMark = p.barMark := by unfold Ply.setQ; split <;> rfl
@[simp] theorem Ply.setQ_halt (p : Ply) (r : QReg) (b : Bool) : (p.setQ r b).halt = p.halt := by unfold Ply.setQ; split <;> rfl
@[simp] theorem Ply.setQ_unfinished (p : Ply) (r : QReg) (b : Bool) : (p.setQ r b).unfinished = p.unfinished := by unfold Ply.setQ; split <;> rfl
@[simp] theorem Ply.setQ_deferred (p : Ply) (r : QReg) (b : Bool) : (p.setQ r b).deferred = p.deferred := by unfold Ply.setQ; split <;> rfl
@[simp] theorem Ply.setQ_fullEm (p : Ply) (r : QReg) (b : Bool) : (p.setQ r b).fullEm = p.fullEm := by unfold Ply.setQ; split <;> rfl
@[simp] theorem Ply.setQ_stale (p : Ply) (r : QReg) (b : Bool) : (p.setQ r b).stale = p.stale := by unfold Ply.setQ; split <;> rfl
@[simp] theorem Ply.setQ_staleFetch (p : Ply) (r : QReg) (b : Bool) : (p.setQ r b).staleFetch = p.staleFetch := by unfold Ply.setQ; split <;> rfl
@[simp] theorem Ply.setQ_passLane (p : Ply) (r : QReg) (b : Bool) : (p.setQ r b).passLane = p.passLane := by unfold Ply.setQ; split <;> rfl
@[simp] theorem Ply.setQ_passUniform (p : Ply) (r : QReg) (b : Bool) : (p.setQ r b).passUniform = p.passUniform := by unfold Ply.setQ; split <;> rfl
@[simp] theorem Ply.setQ_stalled (p : Ply) (r : QReg) (b : Bool) : (p.setQ r b).stalled = p.stalled := by unfold Ply.setQ; split <;> rfl
@[simp] theorem Ply.setQ_item (p : Ply) (r : QReg) (b : Bool) : (p.setQ r b).item = p.item := by unfold Ply.setQ; split <;> rfl
@[simp] theorem Ply.setQ_kept (p : Ply) (r : QReg) (b : Bool) : (p.setQ r b).kept = p.kept := by unfold Ply.setQ; split <;> rfl
@[simp] theorem Ply.setQ_above (p : Ply) (r : QReg) (b : Bool) : (p.setQ r b).above = p.above := by unfold Ply.setQ; split <;> rfl
@[simp] theorem Ply.setQ_priv (p : Ply) (r : QReg) (b : Bool) : (p.setQ r b).priv = p.priv := by unfold Ply.setQ; split <;> rfl
@[simp] theorem Ply.setQ_a_pc (p : Ply) (r : QReg) (b : Bool) : (p.setQ r b).a.pc = p.a.pc := by unfold Ply.setQ; split <;> rfl
@[simp] theorem Ply.setQ_a_em (p : Ply) (r : QReg) (b : Bool) : (p.setQ r b).a.em = p.a.em := by unfold Ply.setQ; split <;> rfl
@[simp] theorem Ply.setQ_a_knuckles (p : Ply) (r : QReg) (b : Bool) : (p.setQ r b).a.knuckles = p.a.knuckles := by unfold Ply.setQ; split <;> rfl
@[simp] theorem Ply.setQ_a_pins (p : Ply) (r : QReg) (b : Bool) : (p.setQ r b).a.pins = p.a.pins := by unfold Ply.setQ; split <;> rfl
@[simp] theorem Ply.setQ_a_s (p : Ply) (r : QReg) (b : Bool) : (p.setQ r b).a.s = p.a.s := by unfold Ply.setQ; split <;> rfl
@[simp] theorem Ply.setQ_a_p (p : Ply) (r : QReg) (b : Bool) : (p.setQ r b).a.p = p.a.p := by unfold Ply.setQ; split <;> rfl
@[simp] theorem Ply.setQ_a_c (p : Ply) (r : QReg) (b : Bool) : (p.setQ r b).a.c = p.a.c := by unfold Ply.setQ; split <;> rfl
@[simp] theorem Ply.setQ_a_rows (p : Ply) (r : QReg) (b : Bool) : (p.setQ r b).a.rows = p.a.rows := by unfold Ply.setQ; split <;> rfl
@[simp] theorem Ply.setQ_a_t (p : Ply) (r : QReg) (b : Bool) : (p.setQ r b).a.t = p.a.t := by unfold Ply.setQ; split <;> rfl
@[simp] theorem Ply.setQ_a_cb (p : Ply) (r : QReg) (b : Bool) : (p.setQ r b).a.cb = p.a.cb := by unfold Ply.setQ; split <;> rfl
@[simp] theorem Ply.setQ_a_fpmode (p : Ply) (r : QReg) (b : Bool) : (p.setQ r b).a.fpmode = p.a.fpmode := by unfold Ply.setQ; split <;> rfl
@[simp] theorem Ply.setQ_a_fpflags (p : Ply) (r : QReg) (b : Bool) : (p.setQ r b).a.fpflags = p.a.fpflags := by unfold Ply.setQ; split <;> rfl
@[simp] theorem Ply.setQ_a_rnsctl (p : Ply) (r : QReg) (b : Bool) : (p.setQ r b).a.rnsctl = p.a.rnsctl := by unfold Ply.setQ; split <;> rfl
@[simp] theorem Ply.setQ_a_rnsLoc (p : Ply) (r : QReg) (b : Bool) : (p.setQ r b).a.rnsLoc = p.a.rnsLoc := by unfold Ply.setQ; split <;> rfl
@[simp] theorem Ply.setQ_a_rnsMcnt (p : Ply) (r : QReg) (b : Bool) : (p.setQ r b).a.rnsMcnt = p.a.rnsMcnt := by unfold Ply.setQ; split <;> rfl
@[simp] theorem Ply.setQ_a_rnsUnc (p : Ply) (r : QReg) (b : Bool) : (p.setQ r b).a.rnsUnc = p.a.rnsUnc := by unfold Ply.setQ; split <;> rfl
@[simp] theorem Ply.setQ_a_resbase (p : Ply) (r : QReg) (b : Bool) : (p.setQ r b).a.resbase = p.a.resbase := by unfold Ply.setQ; split <;> rfl
@[simp] theorem Ply.setQ_a_qbackoff (p : Ply) (r : QReg) (b : Bool) : (p.setQ r b).a.qbackoff = p.a.qbackoff := by unfold Ply.setQ; split <;> rfl
@[simp] theorem Ply.setQ_a_uivec (p : Ply) (r : QReg) (b : Bool) : (p.setQ r b).a.uivec = p.a.uivec := by unfold Ply.setQ; split <;> rfl
@[simp] theorem Ply.setQ_a_uictl (p : Ply) (r : QReg) (b : Bool) : (p.setQ r b).a.uictl = p.a.uictl := by unfold Ply.setQ; split <;> rfl
@[simp] theorem Ply.setQ_a_wmsig (p : Ply) (r : QReg) (b : Bool) : (p.setQ r b).a.wmsig = p.a.wmsig := by unfold Ply.setQ; split <;> rfl
@[simp] theorem Ply.setQ_a_wmmask (p : Ply) (r : QReg) (b : Bool) : (p.setQ r b).a.wmmask = p.a.wmmask := by unfold Ply.setQ; split <;> rfl
@[simp] theorem Ply.setQ_a_wix (p : Ply) (r : QReg) (b : Bool) : (p.setQ r b).a.wix = p.a.wix := by unfold Ply.setQ; split <;> rfl
@[simp] theorem Ply.setQ_a_sibix (p : Ply) (r : QReg) (b : Bool) : (p.setQ r b).a.sibix = p.a.sibix := by unfold Ply.setQ; split <;> rfl
@[simp] theorem Ply.setQ_a_role (p : Ply) (r : QReg) (b : Bool) : (p.setQ r b).a.role = p.a.role := by unfold Ply.setQ; split <;> rfl
@[simp] theorem Ply.setQ_a_ticket (p : Ply) (r : QReg) (b : Bool) : (p.setQ r b).a.ticket = p.a.ticket := by unfold Ply.setQ; split <;> rfl
@[simp] theorem Ply.setQ_a_slotIx (p : Ply) (r : QReg) (b : Bool) : (p.setQ r b).a.slotIx = p.a.slotIx := by unfold Ply.setQ; split <;> rfl
@[simp] theorem Ply.setQ_a_phase (p : Ply) (r : QReg) (b : Bool) : (p.setQ r b).a.phase = p.a.phase := by unfold Ply.setQ; split <;> rfl
@[simp] theorem Ply.setPc_a_pc (p : Ply) (pc : Pc) : (p.setPc pc).a.pc = pc := rfl
@[simp] theorem Ply.setEm_a_em (p : Ply) (e : DWord) : (p.setEm e).a.em = e &&& allLanes p.width := rfl

/-! ## What a read gives after a write (R43) -/

@[simp] theorem Ply.sreg_setS (p : Ply) (r : SReg) (v : DWord) : (p.setS r v).sreg r = v := by simp [Ply.sreg, Ply.setS]
theorem Ply.sreg_setS_other (p : Ply) {r t : SReg} (v : DWord) (h : t ≠ r) : (p.setS r v).sreg t = p.sreg t := by
  have : r.toNat ≠ t.toNat := fun e => h (BitVec.eq_of_toNat_eq e.symm)
  simp [Ply.sreg, Ply.setS, Vector.getElem_set_ne, this]
@[simp] theorem Ply.creg_setC (p : Ply) (r : CReg) (v : DWord) : (p.setC r v).creg r = v := by simp [Ply.creg, Ply.setC]
theorem Ply.creg_setC_other (p : Ply) {r t : CReg} (v : DWord) (h : t ≠ r) : (p.setC r v).creg t = p.creg t := by
  have : r.toNat ≠ t.toNat := fun e => h (BitVec.eq_of_toNat_eq e.symm)
  simp [Ply.creg, Ply.setC, Vector.getElem_set_ne, this]
@[simp] theorem Ply.entry_setEntry (p : Ply) (r : VReg) (e : RowEntry) : (p.setEntry r e).entry r = e := by simp [Ply.entry, Ply.setEntry]
theorem Ply.entry_setEntry_other (p : Ply) {r t : VReg} (e : RowEntry) (h : t ≠ r) : (p.setEntry r e).entry t = p.entry t := by
  have : r.toNat ≠ t.toNat := fun e => h (BitVec.eq_of_toNat_eq e.symm)
  simp [Ply.entry, Ply.setEntry, Vector.getElem_set_ne, this]
@[simp] theorem Ply.pin_setPin (p : Ply) (k : KReg) (x : Pin) : (p.setPin k x).pin k = x := by simp [Ply.pin, Ply.setPin]
/-- p7 reads 1 in every lane and discards a write (R43). -/
@[simp] theorem Ply.preg_seven (p : Ply) : p.preg 7 = allLanes p.width := rfl
@[simp] theorem Ply.setP_seven (p : Ply) (m v : DWord) : p.setP 7 m v = p := rfl
/-- q7 reads 1 and discards a write (R43). -/
@[simp] theorem Ply.qreg_seven (p : Ply) : p.qreg 7 = true := rfl
@[simp] theorem Ply.setQ_seven (p : Ply) (b : Bool) : p.setQ 7 b = p := rfl
theorem Ply.preg_setP (p : Ply) {r : PReg} (m v : DWord) (h : r ≠ 7) : (p.setP r m v).preg r = (p.preg r &&& ~~~m) ||| (v &&& m) := by
  simp only [Ply.preg, Ply.setP, if_neg h, Vector.getElem_set_self]
theorem Ply.setBitTo_getLsbD {n : Nat} (x : BitVec n) (i : Nat) (b : Bool) (h : i < n) : (setBitTo x i b).getLsbD i = b := by
  cases b <;> simp [setBitTo, h]
theorem Ply.qreg_setQ (p : Ply) {r : QReg} (b : Bool) (h : r ≠ 7) : (p.setQ r b).qreg r = b := by
  have : (r == 7) = false := beq_eq_false_iff_ne.mpr h
  simp only [Ply.qreg, Ply.setQ, if_neg h, this, Bool.false_or, Ply.setBitTo_getLsbD _ _ _ r.isLt]

@[simp] theorem Ply.preg_setS (p : Ply) (r : SReg) (v : DWord) (t : PReg) : (p.setS r v).preg t = p.preg t := rfl
@[simp] theorem Ply.qreg_setS (p : Ply) (r : SReg) (v : DWord) (t : QReg) : (p.setS r v).qreg t = p.qreg t := rfl
@[simp] theorem Ply.creg_setS (p : Ply) (r : SReg) (v : DWord) (t : CReg) : (p.setS r v).creg t = p.creg t := rfl
@[simp] theorem Ply.entry_setS (p : Ply) (r : SReg) (v : DWord) (t : VReg) : (p.setS r v).entry t = p.entry t := rfl
@[simp] theorem Ply.pin_setS (p : Ply) (r : SReg) (v : DWord) (t : KReg) : (p.setS r v).pin t = p.pin t := rfl
@[simp] theorem Ply.sreg_setC (p : Ply) (r : CReg) (v : DWord) (t : SReg) : (p.setC r v).sreg t = p.sreg t := rfl
@[simp] theorem Ply.preg_setC (p : Ply) (r : CReg) (v : DWord) (t : PReg) : (p.setC r v).preg t = p.preg t := rfl
@[simp] theorem Ply.qreg_setC (p : Ply) (r : CReg) (v : DWord) (t : QReg) : (p.setC r v).qreg t = p.qreg t := rfl
@[simp] theorem Ply.entry_setC (p : Ply) (r : CReg) (v : DWord) (t : VReg) : (p.setC r v).entry t = p.entry t := rfl
@[simp] theorem Ply.pin_setC (p : Ply) (r : CReg) (v : DWord) (t : KReg) : (p.setC r v).pin t = p.pin t := rfl
@[simp] theorem Ply.sreg_setEm (p : Ply) (e : DWord) (t : SReg) : (p.setEm e).sreg t = p.sreg t := rfl
@[simp] theorem Ply.preg_setEm (p : Ply) (e : DWord) (t : PReg) : (p.setEm e).preg t = p.preg t := rfl
@[simp] theorem Ply.qreg_setEm (p : Ply) (e : DWord) (t : QReg) : (p.setEm e).qreg t = p.qreg t := rfl
@[simp] theorem Ply.creg_setEm (p : Ply) (e : DWord) (t : CReg) : (p.setEm e).creg t = p.creg t := rfl
@[simp] theorem Ply.entry_setEm (p : Ply) (e : DWord) (t : VReg) : (p.setEm e).entry t = p.entry t := rfl
@[simp] theorem Ply.pin_setEm (p : Ply) (e : DWord) (t : KReg) : (p.setEm e).pin t = p.pin t := rfl
@[simp] theorem Ply.sreg_setPc (p : Ply) (pc : Pc) (t : SReg) : (p.setPc pc).sreg t = p.sreg t := rfl
@[simp] theorem Ply.preg_setPc (p : Ply) (pc : Pc) (t : PReg) : (p.setPc pc).preg t = p.preg t := rfl
@[simp] theorem Ply.qreg_setPc (p : Ply) (pc : Pc) (t : QReg) : (p.setPc pc).qreg t = p.qreg t := rfl
@[simp] theorem Ply.creg_setPc (p : Ply) (pc : Pc) (t : CReg) : (p.setPc pc).creg t = p.creg t := rfl
@[simp] theorem Ply.entry_setPc (p : Ply) (pc : Pc) (t : VReg) : (p.setPc pc).entry t = p.entry t := rfl
@[simp] theorem Ply.pin_setPc (p : Ply) (pc : Pc) (t : KReg) : (p.setPc pc).pin t = p.pin t := rfl
@[simp] theorem Ply.sreg_setEntry (p : Ply) (r : VReg) (e : RowEntry) (t : SReg) : (p.setEntry r e).sreg t = p.sreg t := rfl
@[simp] theorem Ply.preg_setEntry (p : Ply) (r : VReg) (e : RowEntry) (t : PReg) : (p.setEntry r e).preg t = p.preg t := rfl
@[simp] theorem Ply.qreg_setEntry (p : Ply) (r : VReg) (e : RowEntry) (t : QReg) : (p.setEntry r e).qreg t = p.qreg t := rfl
@[simp] theorem Ply.creg_setEntry (p : Ply) (r : VReg) (e : RowEntry) (t : CReg) : (p.setEntry r e).creg t = p.creg t := rfl
@[simp] theorem Ply.pin_setEntry (p : Ply) (r : VReg) (e : RowEntry) (t : KReg) : (p.setEntry r e).pin t = p.pin t := rfl
@[simp] theorem Ply.sreg_setPin (p : Ply) (k : KReg) (x : Pin) (t : SReg) : (p.setPin k x).sreg t = p.sreg t := rfl
@[simp] theorem Ply.preg_setPin (p : Ply) (k : KReg) (x : Pin) (t : PReg) : (p.setPin k x).preg t = p.preg t := rfl
@[simp] theorem Ply.qreg_setPin (p : Ply) (k : KReg) (x : Pin) (t : QReg) : (p.setPin k x).qreg t = p.qreg t := rfl
@[simp] theorem Ply.creg_setPin (p : Ply) (k : KReg) (x : Pin) (t : CReg) : (p.setPin k x).creg t = p.creg t := rfl
@[simp] theorem Ply.entry_setPin (p : Ply) (k : KReg) (x : Pin) (t : VReg) : (p.setPin k x).entry t = p.entry t := rfl
@[simp] theorem Ply.sreg_setP (p : Ply) (r : PReg) (m v : DWord) (t : SReg) : (p.setP r m v).sreg t = p.sreg t := by unfold Ply.setP; split <;> rfl
@[simp] theorem Ply.qreg_setP (p : Ply) (r : PReg) (m v : DWord) (t : QReg) : (p.setP r m v).qreg t = p.qreg t := by unfold Ply.setP; split <;> rfl
@[simp] theorem Ply.creg_setP (p : Ply) (r : PReg) (m v : DWord) (t : CReg) : (p.setP r m v).creg t = p.creg t := by unfold Ply.setP; split <;> rfl
@[simp] theorem Ply.entry_setP (p : Ply) (r : PReg) (m v : DWord) (t : VReg) : (p.setP r m v).entry t = p.entry t := by unfold Ply.setP; split <;> rfl
@[simp] theorem Ply.pin_setP (p : Ply) (r : PReg) (m v : DWord) (t : KReg) : (p.setP r m v).pin t = p.pin t := by unfold Ply.setP; split <;> rfl
@[simp] theorem Ply.sreg_setQ (p : Ply) (r : QReg) (b : Bool) (t : SReg) : (p.setQ r b).sreg t = p.sreg t := by unfold Ply.setQ; split <;> rfl
@[simp] theorem Ply.preg_setQ (p : Ply) (r : QReg) (b : Bool) (t : PReg) : (p.setQ r b).preg t = p.preg t := by unfold Ply.setQ; split <;> rfl
@[simp] theorem Ply.creg_setQ (p : Ply) (r : QReg) (b : Bool) (t : CReg) : (p.setQ r b).creg t = p.creg t := by unfold Ply.setQ; split <;> rfl
@[simp] theorem Ply.entry_setQ (p : Ply) (r : QReg) (b : Bool) (t : VReg) : (p.setQ r b).entry t = p.entry t := by unfold Ply.setQ; split <;> rfl
@[simp] theorem Ply.pin_setQ (p : Ply) (r : QReg) (b : Bool) (t : KReg) : (p.setQ r b).pin t = p.pin t := by unfold Ply.setQ; split <;> rfl

/-! ## Completion -/

@[simp] theorem Ply.complete_uid (p : Ply) (kd : WordKind) (ws : List (BitVec 32)) (pc : Pc) : (p.complete kd ws pc).uid = p.uid := by
  unfold Ply.complete Ply.closedBy Ply.fedBy; split <;> split <;> rfl
@[simp] theorem Ply.complete_width (p : Ply) (kd : WordKind) (ws : List (BitVec 32)) (pc : Pc) : (p.complete kd ws pc).width = p.width := by
  unfold Ply.complete Ply.closedBy Ply.fedBy; split <;> split <;> rfl
@[simp] theorem Ply.complete_state (p : Ply) (kd : WordKind) (ws : List (BitVec 32)) (pc : Pc) : (p.complete kd ws pc).state = p.state := by
  unfold Ply.complete Ply.closedBy Ply.fedBy; split <;> split <;> rfl
@[simp] theorem Ply.complete_mode (p : Ply) (kd : WordKind) (ws : List (BitVec 32)) (pc : Pc) : (p.complete kd ws pc).mode = p.mode := by
  unfold Ply.complete Ply.closedBy Ply.fedBy; split <;> split <;> rfl
@[simp] theorem Ply.complete_held (p : Ply) (kd : WordKind) (ws : List (BitVec 32)) (pc : Pc) : (p.complete kd ws pc).held = p.held := by
  unfold Ply.complete Ply.closedBy Ply.fedBy; split <;> split <;> rfl
@[simp] theorem Ply.complete_retry (p : Ply) (kd : WordKind) (ws : List (BitVec 32)) (pc : Pc) : (p.complete kd ws pc).retry = p.retry := by
  unfold Ply.complete Ply.closedBy Ply.fedBy; split <;> split <;> rfl
@[simp] theorem Ply.complete_regEm (p : Ply) (kd : WordKind) (ws : List (BitVec 32)) (pc : Pc) : (p.complete kd ws pc).regEm = p.regEm := by
  unfold Ply.complete Ply.closedBy Ply.fedBy; split <;> split <;> rfl
@[simp] theorem Ply.complete_regSig (p : Ply) (kd : WordKind) (ws : List (BitVec 32)) (pc : Pc) : (p.complete kd ws pc).regSig = p.regSig := by
  unfold Ply.complete Ply.closedBy Ply.fedBy; split <;> split <;> rfl
@[simp] theorem Ply.complete_regMask (p : Ply) (kd : WordKind) (ws : List (BitVec 32)) (pc : Pc) : (p.complete kd ws pc).regMask = p.regMask := by
  unfold Ply.complete Ply.closedBy Ply.fedBy; split <;> split <;> rfl
@[simp] theorem Ply.complete_hintdrop (p : Ply) (kd : WordKind) (ws : List (BitVec 32)) (pc : Pc) : (p.complete kd ws pc).hintdrop = p.hintdrop := by
  unfold Ply.complete Ply.closedBy Ply.fedBy; split <;> split <;> rfl
@[simp] theorem Ply.complete_scopestat (p : Ply) (kd : WordKind) (ws : List (BitVec 32)) (pc : Pc) : (p.complete kd ws pc).scopestat = p.scopestat := by
  unfold Ply.complete Ply.closedBy Ply.fedBy; split <;> split <;> rfl
@[simp] theorem Ply.complete_uicause (p : Ply) (kd : WordKind) (ws : List (BitVec 32)) (pc : Pc) : (p.complete kd ws pc).uicause = p.uicause := by
  unfold Ply.complete Ply.closedBy Ply.fedBy; split <;> split <;> rfl
@[simp] theorem Ply.complete_uisrc (p : Ply) (kd : WordKind) (ws : List (BitVec 32)) (pc : Pc) : (p.complete kd ws pc).uisrc = p.uisrc := by
  unfold Ply.complete Ply.closedBy Ply.fedBy; split <;> split <;> rfl
@[simp] theorem Ply.complete_uicix (p : Ply) (kd : WordKind) (ws : List (BitVec 32)) (pc : Pc) : (p.complete kd ws pc).uicix = p.uicix := by
  unfold Ply.complete Ply.closedBy Ply.fedBy; split <;> split <;> rfl
@[simp] theorem Ply.complete_uiepc (p : Ply) (kd : WordKind) (ws : List (BitVec 32)) (pc : Pc) : (p.complete kd ws pc).uiepc = p.uiepc := by
  unfold Ply.complete Ply.closedBy Ply.fedBy; split <;> split <;> rfl
@[simp] theorem Ply.complete_uiem (p : Ply) (kd : WordKind) (ws : List (BitVec 32)) (pc : Pc) : (p.complete kd ws pc).uiem = p.uiem := by
  unfold Ply.complete Ply.closedBy Ply.fedBy; split <;> split <;> rfl
@[simp] theorem Ply.complete_inUi (p : Ply) (kd : WordKind) (ws : List (BitVec 32)) (pc : Pc) : (p.complete kd ws pc).inUi = p.inUi := by
  unfold Ply.complete Ply.closedBy Ply.fedBy; split <;> split <;> rfl
@[simp] theorem Ply.complete_uiDepth (p : Ply) (kd : WordKind) (ws : List (BitVec 32)) (pc : Pc) : (p.complete kd ws pc).uiDepth = p.uiDepth := by
  unfold Ply.complete Ply.closedBy Ply.fedBy; split <;> split <;> rfl
@[simp] theorem Ply.complete_pendLwake (p : Ply) (kd : WordKind) (ws : List (BitVec 32)) (pc : Pc) : (p.complete kd ws pc).pendLwake = p.pendLwake := by
  unfold Ply.complete Ply.closedBy Ply.fedBy; split <;> split <;> rfl
@[simp] theorem Ply.complete_pendQueue (p : Ply) (kd : WordKind) (ws : List (BitVec 32)) (pc : Pc) : (p.complete kd ws pc).pendQueue = p.pendQueue := by
  unfold Ply.complete Ply.closedBy Ply.fedBy; split <;> split <;> rfl
@[simp] theorem Ply.complete_pendTrap (p : Ply) (kd : WordKind) (ws : List (BitVec 32)) (pc : Pc) : (p.complete kd ws pc).pendTrap = p.pendTrap := by
  unfold Ply.complete Ply.closedBy Ply.fedBy; split <;> split <;> rfl
@[simp] theorem Ply.complete_pendCopy (p : Ply) (kd : WordKind) (ws : List (BitVec 32)) (pc : Pc) : (p.complete kd ws pc).pendCopy = p.pendCopy := by
  unfold Ply.complete Ply.closedBy Ply.fedBy; split <;> split <;> rfl
@[simp] theorem Ply.complete_ident (p : Ply) (kd : WordKind) (ws : List (BitVec 32)) (pc : Pc) : (p.complete kd ws pc).ident = p.ident := by
  unfold Ply.complete Ply.closedBy Ply.fedBy; split <;> split <;> rfl
@[simp] theorem Ply.complete_watched (p : Ply) (kd : WordKind) (ws : List (BitVec 32)) (pc : Pc) : (p.complete kd ws pc).watched = p.watched := by
  unfold Ply.complete Ply.closedBy Ply.fedBy; split <;> split <;> rfl
@[simp] theorem Ply.complete_armed (p : Ply) (kd : WordKind) (ws : List (BitVec 32)) (pc : Pc) : (p.complete kd ws pc).armed = p.armed := by
  unfold Ply.complete Ply.closedBy Ply.fedBy; split <;> split <;> rfl
@[simp] theorem Ply.complete_barMark (p : Ply) (kd : WordKind) (ws : List (BitVec 32)) (pc : Pc) : (p.complete kd ws pc).barMark = p.barMark := by
  unfold Ply.complete Ply.closedBy Ply.fedBy; split <;> split <;> rfl
@[simp] theorem Ply.complete_halt (p : Ply) (kd : WordKind) (ws : List (BitVec 32)) (pc : Pc) : (p.complete kd ws pc).halt = p.halt := by
  unfold Ply.complete Ply.closedBy Ply.fedBy; split <;> split <;> rfl
@[simp] theorem Ply.complete_deferred (p : Ply) (kd : WordKind) (ws : List (BitVec 32)) (pc : Pc) : (p.complete kd ws pc).deferred = p.deferred := by
  unfold Ply.complete Ply.closedBy Ply.fedBy; split <;> split <;> rfl
@[simp] theorem Ply.complete_passLane (p : Ply) (kd : WordKind) (ws : List (BitVec 32)) (pc : Pc) : (p.complete kd ws pc).passLane = p.passLane := by
  unfold Ply.complete Ply.closedBy Ply.fedBy; split <;> split <;> rfl
@[simp] theorem Ply.complete_passUniform (p : Ply) (kd : WordKind) (ws : List (BitVec 32)) (pc : Pc) : (p.complete kd ws pc).passUniform = p.passUniform := by
  unfold Ply.complete Ply.closedBy Ply.fedBy; split <;> split <;> rfl
@[simp] theorem Ply.complete_item (p : Ply) (kd : WordKind) (ws : List (BitVec 32)) (pc : Pc) : (p.complete kd ws pc).item = p.item := by
  unfold Ply.complete Ply.closedBy Ply.fedBy; split <;> split <;> rfl
@[simp] theorem Ply.complete_kept (p : Ply) (kd : WordKind) (ws : List (BitVec 32)) (pc : Pc) : (p.complete kd ws pc).kept = p.kept := by
  unfold Ply.complete Ply.closedBy Ply.fedBy; split <;> split <;> rfl
@[simp] theorem Ply.complete_above (p : Ply) (kd : WordKind) (ws : List (BitVec 32)) (pc : Pc) : (p.complete kd ws pc).above = p.above := by
  unfold Ply.complete Ply.closedBy Ply.fedBy; split <;> split <;> rfl
@[simp] theorem Ply.complete_priv (p : Ply) (kd : WordKind) (ws : List (BitVec 32)) (pc : Pc) : (p.complete kd ws pc).priv = p.priv := by
  unfold Ply.complete Ply.closedBy Ply.fedBy; split <;> split <;> rfl
@[simp] theorem Ply.complete_a_knuckles (p : Ply) (kd : WordKind) (ws : List (BitVec 32)) (pc : Pc) : (p.complete kd ws pc).a.knuckles = p.a.knuckles := by
  unfold Ply.complete Ply.closedBy Ply.fedBy; split <;> split <;> rfl
@[simp] theorem Ply.complete_a_pins (p : Ply) (kd : WordKind) (ws : List (BitVec 32)) (pc : Pc) : (p.complete kd ws pc).a.pins = p.a.pins := by
  unfold Ply.complete Ply.closedBy Ply.fedBy; split <;> split <;> rfl
@[simp] theorem Ply.complete_a_s (p : Ply) (kd : WordKind) (ws : List (BitVec 32)) (pc : Pc) : (p.complete kd ws pc).a.s = p.a.s := by
  unfold Ply.complete Ply.closedBy Ply.fedBy; split <;> split <;> rfl
@[simp] theorem Ply.complete_a_p (p : Ply) (kd : WordKind) (ws : List (BitVec 32)) (pc : Pc) : (p.complete kd ws pc).a.p = p.a.p := by
  unfold Ply.complete Ply.closedBy Ply.fedBy; split <;> split <;> rfl
@[simp] theorem Ply.complete_a_q (p : Ply) (kd : WordKind) (ws : List (BitVec 32)) (pc : Pc) : (p.complete kd ws pc).a.q = p.a.q := by
  unfold Ply.complete Ply.closedBy Ply.fedBy; split <;> split <;> rfl
@[simp] theorem Ply.complete_a_c (p : Ply) (kd : WordKind) (ws : List (BitVec 32)) (pc : Pc) : (p.complete kd ws pc).a.c = p.a.c := by
  unfold Ply.complete Ply.closedBy Ply.fedBy; split <;> split <;> rfl
@[simp] theorem Ply.complete_a_rows (p : Ply) (kd : WordKind) (ws : List (BitVec 32)) (pc : Pc) : (p.complete kd ws pc).a.rows = p.a.rows := by
  unfold Ply.complete Ply.closedBy Ply.fedBy; split <;> split <;> rfl
@[simp] theorem Ply.complete_a_t (p : Ply) (kd : WordKind) (ws : List (BitVec 32)) (pc : Pc) : (p.complete kd ws pc).a.t = p.a.t := by
  unfold Ply.complete Ply.closedBy Ply.fedBy; split <;> split <;> rfl
@[simp] theorem Ply.complete_a_cb (p : Ply) (kd : WordKind) (ws : List (BitVec 32)) (pc : Pc) : (p.complete kd ws pc).a.cb = p.a.cb := by
  unfold Ply.complete Ply.closedBy Ply.fedBy; split <;> split <;> rfl
@[simp] theorem Ply.complete_a_fpmode (p : Ply) (kd : WordKind) (ws : List (BitVec 32)) (pc : Pc) : (p.complete kd ws pc).a.fpmode = p.a.fpmode := by
  unfold Ply.complete Ply.closedBy Ply.fedBy; split <;> split <;> rfl
@[simp] theorem Ply.complete_a_fpflags (p : Ply) (kd : WordKind) (ws : List (BitVec 32)) (pc : Pc) : (p.complete kd ws pc).a.fpflags = p.a.fpflags := by
  unfold Ply.complete Ply.closedBy Ply.fedBy; split <;> split <;> rfl
@[simp] theorem Ply.complete_a_rnsctl (p : Ply) (kd : WordKind) (ws : List (BitVec 32)) (pc : Pc) : (p.complete kd ws pc).a.rnsctl = p.a.rnsctl := by
  unfold Ply.complete Ply.closedBy Ply.fedBy; split <;> split <;> rfl
@[simp] theorem Ply.complete_a_rnsLoc (p : Ply) (kd : WordKind) (ws : List (BitVec 32)) (pc : Pc) : (p.complete kd ws pc).a.rnsLoc = p.a.rnsLoc := by
  unfold Ply.complete Ply.closedBy Ply.fedBy; split <;> split <;> rfl
@[simp] theorem Ply.complete_a_rnsMcnt (p : Ply) (kd : WordKind) (ws : List (BitVec 32)) (pc : Pc) : (p.complete kd ws pc).a.rnsMcnt = p.a.rnsMcnt := by
  unfold Ply.complete Ply.closedBy Ply.fedBy; split <;> split <;> rfl
@[simp] theorem Ply.complete_a_rnsUnc (p : Ply) (kd : WordKind) (ws : List (BitVec 32)) (pc : Pc) : (p.complete kd ws pc).a.rnsUnc = p.a.rnsUnc := by
  unfold Ply.complete Ply.closedBy Ply.fedBy; split <;> split <;> rfl
@[simp] theorem Ply.complete_a_resbase (p : Ply) (kd : WordKind) (ws : List (BitVec 32)) (pc : Pc) : (p.complete kd ws pc).a.resbase = p.a.resbase := by
  unfold Ply.complete Ply.closedBy Ply.fedBy; split <;> split <;> rfl
@[simp] theorem Ply.complete_a_qbackoff (p : Ply) (kd : WordKind) (ws : List (BitVec 32)) (pc : Pc) : (p.complete kd ws pc).a.qbackoff = p.a.qbackoff := by
  unfold Ply.complete Ply.closedBy Ply.fedBy; split <;> split <;> rfl
@[simp] theorem Ply.complete_a_uivec (p : Ply) (kd : WordKind) (ws : List (BitVec 32)) (pc : Pc) : (p.complete kd ws pc).a.uivec = p.a.uivec := by
  unfold Ply.complete Ply.closedBy Ply.fedBy; split <;> split <;> rfl
@[simp] theorem Ply.complete_a_uictl (p : Ply) (kd : WordKind) (ws : List (BitVec 32)) (pc : Pc) : (p.complete kd ws pc).a.uictl = p.a.uictl := by
  unfold Ply.complete Ply.closedBy Ply.fedBy; split <;> split <;> rfl
@[simp] theorem Ply.complete_a_wmmask (p : Ply) (kd : WordKind) (ws : List (BitVec 32)) (pc : Pc) : (p.complete kd ws pc).a.wmmask = p.a.wmmask := by
  unfold Ply.complete Ply.closedBy Ply.fedBy; split <;> split <;> rfl
@[simp] theorem Ply.complete_a_wix (p : Ply) (kd : WordKind) (ws : List (BitVec 32)) (pc : Pc) : (p.complete kd ws pc).a.wix = p.a.wix := by
  unfold Ply.complete Ply.closedBy Ply.fedBy; split <;> split <;> rfl
@[simp] theorem Ply.complete_a_sibix (p : Ply) (kd : WordKind) (ws : List (BitVec 32)) (pc : Pc) : (p.complete kd ws pc).a.sibix = p.a.sibix := by
  unfold Ply.complete Ply.closedBy Ply.fedBy; split <;> split <;> rfl
@[simp] theorem Ply.complete_a_role (p : Ply) (kd : WordKind) (ws : List (BitVec 32)) (pc : Pc) : (p.complete kd ws pc).a.role = p.a.role := by
  unfold Ply.complete Ply.closedBy Ply.fedBy; split <;> split <;> rfl
@[simp] theorem Ply.complete_a_ticket (p : Ply) (kd : WordKind) (ws : List (BitVec 32)) (pc : Pc) : (p.complete kd ws pc).a.ticket = p.a.ticket := by
  unfold Ply.complete Ply.closedBy Ply.fedBy; split <;> split <;> rfl
@[simp] theorem Ply.complete_a_slotIx (p : Ply) (kd : WordKind) (ws : List (BitVec 32)) (pc : Pc) : (p.complete kd ws pc).a.slotIx = p.a.slotIx := by
  unfold Ply.complete Ply.closedBy Ply.fedBy; split <;> split <;> rfl
@[simp] theorem Ply.complete_a_phase (p : Ply) (kd : WordKind) (ws : List (BitVec 32)) (pc : Pc) : (p.complete kd ws pc).a.phase = p.a.phase := by
  unfold Ply.complete Ply.closedBy Ply.fedBy; split <;> split <;> rfl
@[simp] theorem Ply.complete_fullEm (p : Ply) (kd : WordKind) (ws : List (BitVec 32)) (pc : Pc) : (p.complete kd ws pc).fullEm = none := rfl
@[simp] theorem Ply.complete_stale (p : Ply) (kd : WordKind) (ws : List (BitVec 32)) (pc : Pc) : (p.complete kd ws pc).stale = 0 := rfl
@[simp] theorem Ply.complete_staleFetch (p : Ply) (kd : WordKind) (ws : List (BitVec 32)) (pc : Pc) : (p.complete kd ws pc).staleFetch = 0 := rfl
@[simp] theorem Ply.complete_a_em (p : Ply) (kd : WordKind) (ws : List (BitVec 32)) (pc : Pc) : (p.complete kd ws pc).a.em = p.wholeEm := by
  unfold Ply.complete Ply.closedBy Ply.fedBy; split <;> split <;> rfl
@[simp] theorem Ply.complete_a_pc (p : Ply) (kd : WordKind) (ws : List (BitVec 32)) (pc : Pc) : (p.complete kd ws pc).a.pc = pc := by
  unfold Ply.complete Ply.closedBy Ply.fedBy; split <;> split <;> rfl
theorem Ply.complete_a_wmsig (p : Ply) (kd : WordKind) (ws : List (BitVec 32)) (pc : Pc) :
    (p.complete kd ws pc).a.wmsig = if kd.fed then p.fedSig ws else p.a.wmsig := by
  unfold Ply.complete Ply.closedBy Ply.fedBy; split <;> split <;> rfl
theorem Ply.complete_region (p : Ply) (kd : WordKind) (ws : List (BitVec 32)) (pc : Pc) :
    (p.complete kd ws pc).region = if kd.closes then 0 else p.region := by
  unfold Ply.complete Ply.closedBy Ply.fedBy; split <;> split <;> rfl
@[simp] theorem Ply.complete_wait (p : Ply) (kd : WordKind) (ws : List (BitVec 32)) (pc : Pc) : (p.complete kd ws pc).wait = .none := rfl
@[simp] theorem Ply.complete_stalled (p : Ply) (kd : WordKind) (ws : List (BitVec 32)) (pc : Pc) : (p.complete kd ws pc).stalled = false := rfl
@[simp] theorem Ply.complete_unfinished (p : Ply) (kd : WordKind) (ws : List (BitVec 32)) (pc : Pc) : (p.complete kd ws pc).unfinished = none := rfl

end Sys2Proof.Machine
end

