-- ==== Sys2Proof/Laws/Acting.lean ====
section
/-! SUPPORT. Laws/Acting.lean: what the operations leave of the acting ply's key: reading, writing, translating and reporting do
not change which ply acts. -/
namespace Sys2Proof.Machine

theorem foldl_cur {α : Type} (g : State → α → State) (h : ∀ s x, (g s x).cur = s.cur) (l : List α) (s : State) :
    (l.foldl g s).cur = s.cur := by
  induction l generalizing s with
  | nil => rfl
  | cons x l ih => rw [List.foldl_cons, ih, h]

@[simp] theorem State.modRun_cur (s : State) (r : Nat) (f : Run → Run) : (State.modRun s r f).cur = s.cur := by
  unfold State.modRun; split <;> rfl
@[simp] theorem wakeIdle_cur (k : Nat) (s : State) : (wakeIdle k s).cur = s.cur := by
  unfold wakeIdle; (repeat' split) <;> rfl
@[simp] theorem setPevt_cur (k n : Nat) (s : State) : (setPevt k n s).cur = s.cur := by
  simp [setPevt]
@[simp] theorem windowPush_cur (sender die ply run : Nat) (who : Viewer) (desc : Nat) (kind : QueueKind) (data : List DWord) (s : State) : (windowPush sender die ply run who desc kind data s).cur = s.cur := by
  unfold windowPush; rfl
@[simp] theorem sendOrHold_cur (u : Unsent) (s : State) : (sendOrHold u s).cur = s.cur := by
  unfold sendOrHold; split <;> simp
@[simp] theorem ringSend_cur (sender k : Nat) (data : List DWord) (s : State) : (ringSend sender k data s).cur = s.cur := by
  simp [ringSend]
@[simp] theorem record_cur (d : Nat) (e : ErrorRec) (s : State) : (record d e s).cur = s.cur := by
  unfold record; dsimp only; (repeat' split) <;> simp
@[simp] theorem leaveWay_cur (lines : List Nat) (s : State) : (leaveWay lines s).cur = s.cur := by
  unfold leaveWay; dsimp only; rw [foldl_cur _ (by simp)]
@[simp] theorem retire_cur (d : Nat) (r : Resource) (at_ : Nat) (s : State) : (retire d r at_ s).cur = s.cur := by
  unfold retire; dsimp only; (repeat' split) <;> simp
@[simp] theorem countEvent_cur (d : Nat) (r : Resource) (at_ : Nat) (s : State) : (countEvent d r at_ s).cur = s.cur := by
  unfold countEvent; dsimp only; (repeat' split) <;> simp
@[simp] theorem errorEvent_cur (d : Nat) (e : ErrorRec) (r : Option Resource) (at_ : Nat) (s : State) : (errorEvent d e r at_ s).cur = s.cur := by
  unfold errorEvent; (repeat' split) <;> simp
@[simp] theorem State.releaseMap_cur (s : State) (c : Nat) (m : Vector RowEntry 64) : (State.releaseMap s c m).cur = s.cur := by
  simp [State.releaseMap, foldl_cur]
@[simp] theorem admitHost_cur (s : State) (i : Nat) : (admitHost s i).cur = s.cur := by
  unfold admitHost joinLatch; dsimp only; (repeat' split) <;> rfl
@[simp] theorem admitWake_cur (s : State) (key : Nat) : (admitWake s key).cur = s.cur := by
  unfold admitWake; (repeat' split) <;> rfl
@[simp] theorem admitWaiting_cur (s : State) : (admitWaiting s).cur = s.cur := by
  unfold admitWaiting; rw [foldl_cur _ admitHost_cur, foldl_cur _ admitWake_cur]
@[simp] theorem State.putLatch_cur (s : State) (key : Nat) (l : Latch) : (State.putLatch s key l).cur = s.cur := by
  unfold State.putLatch; split <;> simp
@[simp] theorem unwaitLatch_cur (key k : Nat) (s : State) : (unwaitLatch key k s).cur = s.cur := by
  unfold unwaitLatch; split <;> simp
@[simp] theorem disarm_cur (k : Nat) (s : State) : (disarm k s).cur = s.cur := by
  unfold disarm; split <;> simp
@[simp] theorem unwaitMerges_cur (k uid : Nat) (s : State) : (unwaitMerges k uid s).cur = s.cur := by
  unfold unwaitMerges; rfl
@[simp] theorem withdraw_cur (k : Nat) (s : State) : (withdraw k s).cur = s.cur := by
  unfold withdraw; (repeat' split) <;> simp
@[simp] theorem haltPly_cur (k : Nat) (c : BitVec 7) (after : Bool) (pc : Pc) (addr umask : DWord) (s : State) : (haltPly k c after pc addr umask s).cur = s.cur := by
  simp [haltPly]
@[simp] theorem checkRecord_cur (k : Nat) (p : Ply) (src aux : Nat) (res : DWord) (s : State) : (checkRecord k p src aux res s).cur = s.cur := by
  simp [checkRecord]
@[simp] theorem settleUnfinished_cur (k : Nat) (s : State) : (settleUnfinished k s).cur = s.cur := by
  unfold settleUnfinished; (repeat' split) <;> rfl
@[simp] theorem routeCause_cur (k : Nat) (c : Cause) (pc : Pc) (addr umask : DWord) (s : State) : (routeCause k c pc addr umask s).cur = s.cur := by
  unfold routeCause; (repeat' split) <;> simp
@[simp] theorem settleCause_cur (k : Nat) (c : Cause) (pc : Pc) (addr umask : DWord) (s : State) : (settleCause k c pc addr umask s).cur = s.cur := by
  unfold settleCause; (repeat' split) <;> simp
@[simp] theorem takeCause_cur (k : Nat) (c : Cause) (pc : Pc) (addr umask : DWord) (s : State) : (takeCause k c pc addr umask s).cur = s.cur := by
  unfold takeCause; (repeat' split) <;> simp
@[simp] theorem stallPly_cur (k : Nat) (s : State) : (stallPly k s).cur = s.cur := by
  simp [stallPly]
@[simp] theorem testMonitors_cur (line : Nat) (s : State) : (testMonitors line s).cur = s.cur := by
  unfold testMonitors; split <;> rfl
@[simp] theorem writeHome_cur (a : Nat) (bs : List Byte) (poison : Option Mark) (s : State) : (writeHome a bs poison s).cur = s.cur := by
  unfold writeHome; dsimp only; (repeat' split) <;> simp
@[simp] theorem writeAt_cur (x : Nat) (bs : List Byte) (poison : Option Mark) (s : State) : (writeAt x bs poison s).cur = s.cur := by
  unfold writeAt; split <;> simp
@[simp] theorem noteWrote_cur (team x n : Nat) (s : State) : (noteWrote team x n s).cur = s.cur := by
  unfold noteWrote; (repeat' split) <;> rfl
@[simp] theorem noteWrites_cur (k x n : Nat) (s : State) : (noteWrites k x n s).cur = s.cur := by
  unfold noteWrites; (repeat' split) <;> simp
@[simp] theorem pushLine_cur (c line : Nat) (s : State) : (pushLine c line s).cur = s.cur := by
  unfold pushLine; dsimp only; (repeat' split) <;> simp [foldl_cur]
@[simp] theorem dropL1_cur (c line : Nat) (s : State) : (dropL1 c line s).cur = s.cur := by
  unfold dropL1; split <;> rfl
@[simp] theorem findError_cur (s : State) (x : Nat) : (findError s x).cur = s.cur := by
  unfold findError; split <;> simp
@[simp] theorem logLatent_cur (s : State) (x : Nat) : (logLatent s x).cur = s.cur := by
  unfold logLatent; dsimp only; split <;> simp
@[simp] theorem correctWords_cur (ws : List Nat) (s : State) : (correctWords ws s).cur = s.cur := by
  unfold correctWords; try dsimp only
  (repeat' split) <;> first | rfl | (simp [foldl_cur]; done) | simp_all (maxDischargeDepth := 12) [foldl_cur]
@[simp] theorem evictL2_cur (lines : List Nat) (s : State) : (evictL2 lines s).cur = s.cur := by
  unfold evictL2; exact foldl_cur _ (by simp) _ _
@[simp] theorem touchL2_cur (want : L2Prio) (a : Nat) (s : State) : (touchL2 want a s).cur = s.cur := by
  unfold touchL2; dsimp only; (repeat' split) <;> simp
@[simp] theorem touchPlace_cur (want : L2Prio) (x : Nat) (s : State) : (touchPlace want x s).cur = s.cur := by
  unfold touchPlace; split <;> simp
@[simp] theorem landLoads_cur (k : Nat) (s : State) : (landLoads k s).cur = s.cur := by
  unfold landLoads; dsimp only; (repeat' split) <;> simp
@[simp] theorem landEarlier_cur (k : Nat) (lines : List Nat) (s : State) : (landEarlier k lines s).cur = s.cur := by
  unfold landEarlier; dsimp only; (repeat' split) <;> simp
@[simp] theorem useL2_cur (a : Nat) (s : State) : (useL2 a s).cur = s.cur := by
  unfold useL2; (repeat' split) <;> simp
@[simp] theorem applyPartial_cur (s : State) (p : Partial) : (applyPartial s p).cur = s.cur := by
  unfold applyPartial; dsimp only; split <;> simp [foldl_cur]
@[simp] theorem combineCore_cur (line : Nat) (s : State) (c : Nat) : (combineCore line s c).cur = s.cur := by
  unfold combineCore; dsimp only; (repeat' split) <;> simp [foldl_cur]
@[simp] theorem combineLine_cur (line : Nat) (s : State) : (combineLine line s).cur = s.cur := by
  unfold combineLine; dsimp only; (repeat' split) <;> simp [foldl_cur]
@[simp] theorem performWrite_cur (c : Nat) (s : State) (w : HomeWrite) : (performWrite c s w).cur = s.cur := by
  unfold performWrite; split <;> simp
@[simp] theorem pushCore_cur (c : Nat) (s : State) : (pushCore c s).cur = s.cur := by
  simp [pushCore, foldl_cur]
@[simp] theorem dropL1All_cur (c : Nat) (s : State) : (dropL1All c s).cur = s.cur := by
  unfold dropL1All; split <;> rfl
@[simp] theorem release_cur (k : Nat) (e : Scope) (s : State) : (release k e s).cur = s.cur := by
  unfold release; split <;> simp
@[simp] theorem acquire_cur (c : Nat) (e : Scope) (s : State) : (acquire c e s).cur = s.cur := by
  unfold acquire; split <;> simp
@[simp] theorem injectInto_cur (mode : BitVec 2) (mask : BitVec 8) (inj : BitVec 2) (word byte : Nat) (i : Image) (s : State) : (injectInto mode mask inj word byte i s).2.cur = s.cur := by
  unfold injectInto; split <;> simp
@[simp] theorem oneShot_cur (i : Image) (s : State) : (oneShot i s).2.cur = s.cur := by
  unfold oneShot; (repeat' split) <;> simp
@[simp] theorem seeded_cur (tenant : Option (BitVec 4)) (i : Image) (s : State) : (seeded tenant i s).2.cur = s.cur := by
  unfold seeded; dsimp only; (repeat' split) <;> simp
@[simp] theorem fetchHome_cur (tenant : Option (BitVec 4)) (lay : Image → Image) (a n : Nat) (s : State) : (fetchHome tenant lay a n s).2.cur = s.cur := by
  simp [fetchHome]
@[simp] theorem outsideRead_cur (x n : Nat) (s : State) : (outsideRead x n s).2.cur = s.cur := by
  unfold outsideRead; rfl
@[simp] theorem fetchLine_cur (tenant : Option (BitVec 4)) (lay : Image → Image) (a n : Nat) (s : State) : (fetchLine tenant lay a n s).2.cur = s.cur := by
  unfold fetchLine; rw [foldl_cur _ logLatent_cur]; simp
@[simp] theorem coreEvent_cur (core src kind : Nat) (res : DWord) (r : Option Resource) (s : State) : (coreEvent core src kind res r s).cur = s.cur := by
  simp [coreEvent]
@[simp] theorem checkL1_cur (c line : Nat) (s : State) : (checkL1 c line s).cur = s.cur := by
  unfold checkL1; (repeat' split) <;> simp
@[simp] theorem outsideOverlaid_cur (c x n : Nat) (s : State) : (outsideOverlaid c x n s).2.cur = s.cur := by
  simp [outsideOverlaid]
theorem throughL1_cur (c : Nat) (u : L1Use) (a n : Nat) (beyond line : State → Image × State) (s : State)
    (hb : ∀ t, (beyond t).2.cur = t.cur) (hl : ∀ t, (line t).2.cur = t.cur) : (throughL1 c u a n beyond line s).2.cur = s.cur := by
  unfold throughL1; dsimp only; (repeat' split) <;> simp [hb, hl]
@[simp] theorem plainRead_cur (c : Nat) (tenant : Option (BitVec 4)) (x n : Nat) (u : L1Use) (s : State) : (plainRead c tenant x n u s).2.cur = s.cur := by
  unfold plainRead
  split
  · rw [throughL1_cur] <;> simp
  · rfl
  · rw [throughL1_cur] <;> simp
@[simp] theorem homeRead_cur (c : Nat) (tenant : Option (BitVec 4)) (x n : Nat) (s : State) : (homeRead c tenant x n s).2.cur = s.cur := by
  unfold homeRead; split <;> simp
@[simp] theorem touchL1_cur (c : Nat) (w : HomeWrite) (s : State) : (touchL1 c w s).cur = s.cur := by
  unfold touchL1; split <;> rfl
@[simp] theorem homeWrite_cur (c : Nat) (w : HomeWrite) (s : State) : (homeWrite c w s).cur = s.cur := by
  simp [homeWrite]
@[simp] theorem consumeRecord_cur (i : Image) (who : DWord) (s : State) : (consumeRecord i who s).cur = s.cur := by
  unfold consumeRecord; split <;> simp
@[simp] theorem tlbInstall_cur (id : Nat) (e : TlbEntry) (s : State) : (tlbInstall id e s).cur = s.cur := by
  unfold tlbInstall; rfl
theorem walkRead_cur {reader : Option (BitVec 4)} {pa n : Nat} {i : Image} {s t : State}
    (h : walkRead reader pa n s = .ok (i, t)) : t.cur = s.cur := by
  unfold walkRead at h
  (repeat' split at h) <;> first | (simp only [Except.ok.injEq] at h; rw [← show _ = t from congrArg Prod.snd h]; simp) | simp at h
@[simp] theorem walkFrom_cur (reader : Option (BitVec 4)) (t : BitVec 4) (space va level table : Nat) (s : State) : (walkFrom reader t space va level table s).2.cur = s.cur := by
  induction level generalizing table s with
  | zero => rfl
  | succ n ih =>
    unfold walkFrom; dsimp only
    split
    · rfl
    · rename_i hr
      have := walkRead_cur hr
      (repeat' split) <;> simp [ih, this]
@[simp] theorem walk_cur (tenant : Option (BitVec 4)) (space va : Nat) (s : State) : (walk tenant space va s).2.cur = s.cur := by
  unfold walk; dsimp only
  split
  · rfl
  · rename_i hr
    have := walkRead_cur hr
    (repeat' split) <;> simp [this]
@[simp] theorem lookup_cur (first die : Nat) (t : Option (BitVec 4)) (space va : Nat) (need : Need) (s : State) :
    (lookup first die t space va need s).2.cur = s.cur := by
  have h := walk_cur t space va s
  unfold lookup
  (repeat' split) <;> simp_all
@[simp] theorem translate_cur (v : Viewer) (va : DWord) (need : Need) (s : State) : (translate v va need s).2.cur = s.cur := by
  unfold translate
  (repeat' split) <;> simp
@[simp] theorem mergeMiss_cur (d space vpage level : Nat) (kind : BitVec 3) (who : DWord) (tenant : Option (BitVec 4)) (gen : BitVec 16) (w : Waiter) (s : State) : (mergeMiss d space vpage level kind who tenant gen w s).cur = s.cur := by
  unfold mergeMiss; dsimp only; (repeat' split) <;> simp
@[simp] theorem parkOnPages_cur (k : Nat) (need : Need) (pages : List (DWord × Nat)) (u : Unfinished) (s : State) : (parkOnPages k need pages u s).cur = s.cur := by
  unfold parkOnPages; dsimp only; (repeat' split) <;> simp [foldl_cur]
@[simp] theorem startAgent_cur (k : Nat) (pr : Priv) (s : State) : (startAgent k pr s).cur = s.cur := by
  unfold startAgent; dsimp only; split <;> simp
@[simp] theorem startService_cur (s : State) (n : Nat) : (startService s n).cur = s.cur := by
  unfold startService; split <;> simp
@[simp] theorem restartAgent_cur (by_ core : Nat) (s : State) : (restartAgent by_ core s).cur = s.cur := by
  unfold restartAgent; dsimp only; (repeat' split) <;> simp
@[simp] theorem State.setLease_cur (s : State) (k : Nat) (l : Lease) : (State.setLease s k l).cur = s.cur := by
  unfold State.setLease; rfl
@[simp] theorem placeRead_cur (tenant : Option (BitVec 4)) (x n : Nat) (s : State) : (placeRead tenant x n s).2.cur = s.cur := by
  unfold placeRead; split <;> simp
@[simp] theorem ioTranslate_cur (tenant : Option (BitVec 4)) (space va : Nat) (need : Need) (s : State) : (ioTranslate tenant space va need s).2.cur = s.cur := by
  have h := walk_cur tenant space va s
  unfold ioTranslate
  (repeat' split) <;> simp_all
@[simp] theorem unitTranslate_cur (v : Viewer) (va : Nat) (need : Need) (s : State) : (unitTranslate v va need s).2.cur = s.cur := by
  unfold unitTranslate
  (repeat' split) <;> simp
@[simp] theorem unitPlace_cur (v : Viewer) (va : Nat) (need : Need) (s : State) : (unitPlace v va need s).2.cur = s.cur := by
  have h := unitTranslate_cur v va need s
  unfold unitPlace
  (repeat' split) <;> simp_all
@[simp] theorem unitRead_cur (v : Viewer) (fuel va n : Nat) (s : State) : (unitRead v fuel va n s).2.cur = s.cur := by
  induction fuel generalizing va n s with
  | zero => rfl
  | succ fuel ih =>
    unfold unitRead
    split
    · rfl
    · have h := unitPlace_cur v va .read s
      dsimp only
      split
      · rename_i u e; rw [e] at h; exact h
      · rename_i x u e
        rw [e] at h
        split
        · simp [show u.cur = s.cur from h]
        · split <;> rename_i e2
          all_goals
            have h2 := ih (va + min n (128 - va % 128)) (n - min n (128 - va % 128)) (placeRead none x (min n (128 - va % 128)) u).2
            rw [e2] at h2
            simpa [show u.cur = s.cur from h] using h2
@[simp] theorem failingEntry_cur (l : Lease) (n i : Nat) (s : State) : (failingEntry l n i s).2.cur = s.cur := by
  induction n generalizing i s with
  | zero => rfl
  | succ n ih =>
    unfold failingEntry
    have h := unitRead_cur (ioViewer l.tenant l.aspace.toNat) 2 ((Config.sqBase l.drive l.sqid).toNat + 64 * i) 64 s
    split <;> rename_i e <;> rw [e] at h
    · exact h
    · dsimp only; split
      · exact h
      · rw [ih]; exact h
@[simp] theorem sqTail_cur (k : Nat) (tail : BitVec 32) (s : State) : (sqTail k tail s).cur = s.cur := by
  unfold sqTail; dsimp only
  split
  · rfl
  · split <;> rename_i e
    all_goals
      have h := congrArg (fun x => x.2.cur) e
      simp only [failingEntry_cur] at h
      simp [h]
@[simp] theorem cqHead_cur (k : Nat) (head : BitVec 32) (s : State) : (cqHead k head s).cur = s.cur := by
  unfold cqHead; dsimp only; split <;> simp
@[simp] theorem noteDrives_cur (s : State) : (noteDrives s).cur = s.cur := by
  unfold noteDrives; rfl
@[simp] theorem noteClamp_cur (k : Nat) (e : Scope) (s : State) : (noteClamp k e s).cur = s.cur := by
  unfold noteClamp; (repeat' split) <;> rfl
@[simp] theorem hintL2_cur (h : Hint) (x : Spot) (s : State) : (hintL2 h x s).cur = s.cur := by
  unfold hintL2; (repeat' split) <;> simp
@[simp] theorem enterStore_cur (c : Nat) (f : Flight) (s : State) : (enterStore c f s).cur = s.cur := by
  unfold enterStore; rfl
@[simp] theorem modStore_cur (c seq : Nat) (f : Flight → Flight) (s : State) : (modStore c seq f s).cur = s.cur := by
  unfold modStore; rfl
@[simp] theorem plainWrite_cur (c seq : Nat) (w : HomeWrite) (s : State) : (plainWrite c seq w s).cur = s.cur := by
  unfold plainWrite; split <;> simp
@[simp] theorem readOne_cur (c : Nat) (tenant : Option (BitVec 4)) (e : Option Scope) (x n : Nat) (u : L1Use) (s : State) : (readOne c tenant e x n u s).2.cur = s.cur := by
  unfold readOne; split <;> simp
@[simp] theorem takeRows_cur (k : Nat) (p : Ply) (s : State) : (takeRows k p s).cur = s.cur := by
  simp [takeRows]
@[simp] theorem storeFlight_cur (s : State) (k : Nat) (p : Ply) (old : Option Unfinished) : (storeFlight s k p old).2.cur = s.cur := by
  unfold storeFlight; split <;> rfl
@[simp] theorem landIn_cur (k seq : Nat) (vals : List (Nat × List Word)) (s : State) : (landIn k seq vals s).cur = s.cur := by
  unfold landIn; rfl
@[simp] theorem applyPref_cur (kind : PrefKind) (c : Nat) (tenant : Option (BitVec 4)) (x : Nat) (s : State) : (applyPref kind c tenant x s).cur = s.cur := by
  unfold applyPref; dsimp only; (repeat' split) <;> simp
@[simp] theorem dropHint_cur (k : Nat) (s : State) : (dropHint k s).cur = s.cur := by
  simp [dropHint]
@[simp] theorem State.modTeam_cur (s : State) (t : Nat) (f : Team → Team) : (State.modTeam s t f).cur = s.cur := by
  unfold State.modTeam; split <;> rfl
@[simp] theorem State.setTile_cur (s : State) (t h : Nat) (x : Tile) : (State.setTile s t h x).cur = s.cur := by
  simp [State.setTile]
@[simp] theorem State.modTile_cur (s : State) (t h : Nat) (f : Tile → Tile) : (State.modTile s t h f).cur = s.cur := by
  unfold State.modTile; split <;> simp
@[simp] theorem tileRecord_cur (t : Nat) (x : Tile) (i : Image) (who : DWord) (s : State) : (tileRecord t x i who s).cur = s.cur := by
  unfold tileRecord; split <;> simp
@[simp] theorem loadQueue_cur (core : Option Nat) (tenant : Option (BitVec 4)) (x : Nat) (kind : QueueKind) (s : State) : (loadQueue core tenant x kind s).2.cur = s.cur := by
  unfold loadQueue; dsimp only; (repeat' split) <;> simp
@[simp] theorem putQueue_cur (x : Nat) (q : Queue) (s : State) : (putQueue x q s).cur = s.cur := by
  unfold putQueue; rfl
@[simp] theorem handOver_cur (k : Nat) (d : SReg) (mbox : Bool) (data : List DWord) (s : State) : (handOver k d mbox data s).cur = s.cur := by
  simp [handOver]
@[simp] theorem endWatches_cur (x : Nat) (s : State) : (endWatches x s).cur = s.cur := by
  unfold endWatches; rfl
@[simp] theorem notifyRing_cur (kind : QueueKind) (sender : Nat) (q : Queue) (s : State) : (notifyRing kind sender q s).cur = s.cur := by
  unfold notifyRing; (repeat' split) <;> simp
@[simp] theorem storePlace_cur (who : Viewer) (q : Queue) (s : State) : (storePlace who q s).2.cur = s.cur := by
  have h := translate_cur who (q.entryVa q.tail) .write s
  unfold storePlace
  split
  · rfl
  · generalize translate who (q.entryVa q.tail) .write s = r at h ⊢
    obtain ⟨x, u⟩ := r
    (repeat' split) <;> simp_all
    split <;> exact h
@[simp] theorem setWindow_cur (w : Window) (s : State) : (setWindow w s).cur = s.cur := by
  unfold setWindow; rfl
@[simp] theorem dropWindow_cur (w : Window) (s : State) : (dropWindow w s).cur = s.cur := by
  unfold dropWindow; rfl

end Sys2Proof.Machine
end

