-- ==== Sys2Proof/Laws/Perform.lean ====
section
/-! SUPPORT. Laws/Perform.lean: what the operations shared by the meanings answer, each said once: running an unguarded and
a guarded word, the gate of the lane registers, and the shapes of the lane and uniform instructions. -/
namespace Sys2Proof.Machine

variable {kd : WordKind} {ws : List (BitVec 32)} {s s' : State} {p : Ply} {g : Guard} {body : Ply → Res}

/-! ## Running a word -/

/-- A word whose meaning completes goes on at the next word. -/
theorem perform_next (h : s.ply s.cur = some p) (hb : body p = .next s') :
    perform kd ws s body = .next (s'.modPly s.cur fun q => q.complete kd ws (p.a.pc + lengthOf ws)) := by
  simp [perform, h, hb, finish]
/-- A word that jumps goes on at its target. -/
theorem perform_jump {pc : Pc} (h : s.ply s.cur = some p) (hb : body p = .jump s' pc) :
    perform kd ws s body = .next (s'.modPly s.cur fun q => q.complete kd ws pc) := by
  simp [perform, h, hb, finish]
/-- A word whose meaning settled the PC itself. -/
theorem perform_stay (h : s.ply s.cur = some p) (hb : body p = .stay s') :
    perform kd ws s body = .next (s'.modPly s.cur fun q => { (q.keepWords kd ws).closedBy kd with stalled := false }) := by
  simp [perform, h, hb, finish]
/-- A before cause is taken with the word's own PC; the word has issued, and closes the region if it does so, but for 0x05. -/
theorem perform_before {c : Cause} {addr umask : DWord} (h : s.ply s.cur = some p) (hb : body p = .before s' c addr umask) :
    perform kd ws s body = .next (takeCause s.cur c p.a.pc addr umask (s'.modPly s.cur fun q =>
      let q := q.keepWords kd ws
      if c = .role then q else q.closedBy kd)) := by
  simp [perform, h, hb, finish]
/-- An after cause is taken with the PC of the next word, when the word has completed. -/
theorem perform_after {c : Cause} (h : s.ply s.cur = some p) (hb : body p = .after s' c) :
    perform kd ws s body = .next (takeCause s.cur c (p.a.pc + lengthOf ws) 0 0
      (s'.modPly s.cur fun q => q.complete kd ws (p.a.pc + lengthOf ws))) := by
  simp [perform, h, hb, finish]
/-- A word that waits parks its ply. -/
theorem perform_park {st : SlotState} {w : Wait} (h : s.ply s.cur = some p) (hb : body p = .park s' st w) :
    perform kd ws s body = .next (s'.modPly s.cur fun q =>
      { q.closedBy kd with state := st, wait := w, words := if kd.fed then ws else [], stalled := false }) := by
  simp [perform, h, hb, finish]
/-- A word that first has to find something out starts again in the state that it then leaves. -/
theorem perform_again (h : s.ply s.cur = some p) (hb : body p = .again s') : perform kd ws s body = .next s' := by
  simp [perform, h, hb, finish]
/-- A word that cannot issue yet has no effect. -/
theorem perform_stall (h : s.ply s.cur = some p) (hb : body p = .stall) :
    perform kd ws s body = .next (stallPly s.cur s) := by
  simp [perform, h, hb]
/-- A word whose meaning faults. -/
theorem perform_fault {f : Fault} (h : s.ply s.cur = some p) (hb : body p = .fault f) :
    perform kd ws s body = .fault f := by
  simp [perform, h, hb, finish]

/-- A guard that holds runs the word. -/
theorem guarded_holds (h : s.ply s.cur = some p) (hg : guardHolds g p = true) :
    guarded kd ws g s body = perform kd ws s body := by
  simp [guarded, h, hg]
/-- A guard that fails passes the word over (R120). -/
theorem guarded_fails (h : s.ply s.cur = some p) (hg : guardHolds g p = false) :
    guarded kd ws g s body =
      .next (s.modPly s.cur fun q => q.complete { kd with closes := false } ws (p.a.pc + lengthOf ws)) := by
  simp [guarded, h, hg, finish]

/-! ## The shapes of uniform instructions -/

variable {i : Instr} {d : SReg} {qd : QReg}

theorem uniform_holds {f : Ply → DWord} (h : s.ply s.cur = some p) (hg : guardHolds g p = true) :
    uniform i g d f s = .next (s.setPly s.cur ((p.setS d (f p)).complete {} (encode i) (p.a.pc + lengthOf (encode i)))) := by
  rw [uniform, guarded_holds h hg, perform_next h rfl, State.modPly_setPly]
theorem uniformQ_holds {f : Ply → Bool} (h : s.ply s.cur = some p) (hg : guardHolds g p = true) :
    uniformQ i g qd f s = .next (s.setPly s.cur ((p.setQ qd (f p)).complete {} (encode i) (p.a.pc + lengthOf (encode i)))) := by
  rw [uniformQ, guarded_holds h hg, perform_next h rfl, State.modPly_setPly]

/-! ## The gate of the lane registers (R46, R50, R55, R161) -/

variable {reads writes : List RegUse} {go : Core → Res}

/-- With nothing in the way, an instruction goes on with the core's rows. -/
theorem gated_open (h : laneGate (s.core (coreOf s.cur)) p reads writes = none) :
    gated s p reads writes go = go (s.core (coreOf s.cur)) := by
  simp [gated, h]
/-- A Given register raises 0x34. -/
theorem gated_given (h : laneGate (s.core (coreOf s.cur)) p reads writes = some .given) :
    gated s p reads writes go = .before s .givenReg 0 0 := by
  simp [gated, h]
/-- A pending or locked row holds the instruction back. -/
theorem gated_stall (h : laneGate (s.core (coreOf s.cur)) p reads writes = some .stall) :
    gated s p reads writes go = .stall := by
  simp [gated, h]
/-- A poisoned word raises 0x52. -/
theorem gated_poison {row : Nat} (h : laneGate (s.core (coreOf s.cur)) p reads writes = some (.poison row)) :
    gated s p reads writes go = poisonCause s p row 0 := by
  simp [gated, h]
/-- A row with bit errors that it would read or copy is first found to hold them. -/
theorem gated_error (h : laneGate (s.core (coreOf s.cur)) p reads writes = some .error) :
    gated s p reads writes go = .again (findRowErrors s p reads writes) := by
  simp [gated, h]
/-- What the gate lets through: nothing Given, nothing pending, no bit error to find and no poisoned word. -/
theorem laneGate_eq_none_iff (c : Core) (p : Ply) (reads writes : List RegUse) :
    laneGate c p reads writes = none ↔
      anyGiven p (reads ++ writes) = false ∧ readStalls c p reads = false ∧ errorRead c p reads writes = false ∧
        poisonRead c p reads = none ∧ writeStalls c p writes = false := by
  unfold laneGate
  cases anyGiven p (reads ++ writes) <;> cases readStalls c p reads <;> cases errorRead c p reads writes <;>
    cases poisonRead c p reads <;> cases writeStalls c p writes <;> simp
/-- An instruction that names no lane is never held back by its registers. -/
theorem laneGate_no_lanes (c : Core) (p : Ply) (reads writes : List RegUse) (hr : ∀ u ∈ reads, u.2 = [])
    (hw : ∀ u ∈ writes, u.2 = []) : laneGate c p reads writes = none := by
  rw [laneGate_eq_none_iff]
  have rows : ∀ us : List RegUse, (∀ u ∈ us, u.2 = []) → rowsUsed p us = [] := by
    intro us hu
    have : (us.flatMap fun x => rowsOf (p.entry x.1) x.2) = [] := by
      rw [List.flatMap_eq_nil_iff]; intro u h; simp [hu u h, rowsOf]
    unfold rowsUsed; rw [this]; rfl
  refine ⟨?_, ?_, ?_, ?_, ?_⟩
  · simp only [anyGiven, List.any_append, Bool.or_eq_false_iff, List.any_eq_false, Bool.and_eq_true, not_and]
    exact ⟨fun u hu h => by simp [hr u hu] at h, fun u hu h => by simp [hw u hu] at h⟩
  · simp only [readStalls, List.any_eq_false]
    intro u hu
    simp [hr u hu, rowsOf]
  · simp [errorRead, rowsCopied, rows _ hr, rows _ hw]
  · simp only [poisonRead, List.findSome?_eq_none_iff]
    intro l _ u hu
    simp [hr u hu]
  · simp only [writeStalls, List.any_eq_false]
    intro u hu
    simp [hw u hu, rowsOf]

/-! ## The shapes of lane instructions -/

variable {c' : Core} {p' : Ply} {vd : VReg}

/-- Lane writes land when the pool has the rows they need. -/
theorem writeLanes_some {ws : List (VReg × List LaneVal)} {upd : Ply → Ply}
    (h : writeRegs (s.core (coreOf s.cur)) p ws = some (c', p')) :
    writeLanes s p ws upd = .next ((s.setCore (coreOf s.cur) c').setPly s.cur (upd p')) := by
  simp [writeLanes, h]
/-- Without the rows they need, the ply parks on rows (R48). -/
theorem writeLanes_none {ws : List (VReg × List LaneVal)} {upd : Ply → Ply}
    (h : writeRegs (s.core (coreOf s.cur)) p ws = none) : writeLanes s p ws upd = rowWait s p := by
  simp [writeLanes, h]
/-- One lane register written from what the rows hold. -/
theorem laneWrite_some {f : Core → Nat → Word} (h : laneGate (s.core (coreOf s.cur)) p reads [(vd, p.lanes)] = none)
    (hw : writeReg (s.core (coreOf s.cur)) p vd (laneVals p (f (s.core (coreOf s.cur)))) = some (c', p')) :
    laneWrite s p vd reads f = .next ((s.setCore (coreOf s.cur) c').setPly s.cur p') := by
  rw [laneWrite, gated_open h, writeLanes_some (c' := c') (p' := p') (by simp [writeRegs, hw])]
  rfl
/-- One predicate written from what the rows hold. -/
theorem lanePred_open {pd : PReg} {f : Core → Nat → Bool} (h : laneGate (s.core (coreOf s.cur)) p reads [] = none) :
    lanePred s p pd reads f =
      .next (s.setPly s.cur (p.setP pd p.a.em (maskOf (p.lanes.filter (f (s.core (coreOf s.cur))))))) := by
  rw [lanePred, gated_open h]
/-- One lane register written with conditions none of which is enabled. -/
theorem fpWrite_some {f : Core → Nat → Word × Conds} {cs : Conds}
    (h : laneGate (s.core (coreOf s.cur)) p reads [(vd, p.lanes)] = none)
    (hc : cs = allConds p.lanes fun l => (f (s.core (coreOf s.cur)) l).2) (ht : cs &&& p.enables = 0)
    (hw : writeReg (s.core (coreOf s.cur)) (p.raise cs) vd
      (laneVals (p.raise cs) fun l => (f (s.core (coreOf s.cur)) l).1) = some (c', p')) :
    fpWrite s p vd reads f = .next ((s.setCore (coreOf s.cur) c').setPly s.cur p') := by
  subst hc
  rw [fpWrite, gated_open h, fpSettle, if_pos ht, writeLanes_some (c' := c') (p' := p') (by simp only [writeRegs, hw])]
  rfl
/-- An enabled condition is a before cause and writes nothing (R70). -/
theorem fpWrite_trap {f : Core → Nat → Word × Conds} {cs : Conds}
    (h : laneGate (s.core (coreOf s.cur)) p reads [(vd, p.lanes)] = none)
    (hc : cs = allConds p.lanes fun l => (f (s.core (coreOf s.cur)) l).2) (ht : cs &&& p.enables ≠ 0) :
    fpWrite s p vd reads f = .before s (condCause (cs &&& p.enables)) 0 0 := by
  subst hc
  rw [fpWrite, gated_open h, fpSettle, if_neg ht]

end Sys2Proof.Machine
end

