-- ==== Sys2Proof/Laws/Claims.lean ====
section
/-! SUPPORT. Laws/Claims.lean: the words of the statements in terms of the model's operations: what completing, jumping and
trapping come to for a word whose meaning is known. -/
namespace Sys2Proof.Machine
open Sys2Proof.Claim

variable {i : Instr} {g : Guard} {s s' : State} {p p' : Ply} {kd : WordKind} {body : Ply → Res}

theorem complete_eq_went (kd : WordKind) (i : Instr) (p : Ply) (pc : Pc) : p.complete kd (encode i) pc = went kd i p pc := by
  cases kd with
  | mk f c =>
    cases f <;> cases c <;> cases hu : p.inUi <;>
      simp [Ply.complete, went, Ply.fedBy, Ply.closedBy, Ply.feed, Ply.fedSig, Ply.setPc, Ply.widen, Ply.wholeEm, hu]
/-- A write to a lane register changes only the row map of the ply. -/
theorem writeReg_ply {c c' : Core} {r : VReg} {vals : List LaneVal} (h : writeReg c p r vals = some (c', p')) :
    ∃ e, p' = p.setEntry r e := by
  unfold writeReg at h
  split at h
  · simp only [Option.some.injEq, Prod.mk.injEq] at h; exact ⟨_, h.2.symm⟩
  · simp at h
theorem writeReg_pc {c c' : Core} {r : VReg} {vals : List LaneVal} (h : writeReg c p r vals = some (c', p')) :
    p'.a.pc = p.a.pc := by
  obtain ⟨e, rfl⟩ := writeReg_ply h; rfl

/-- A word whose meaning leaves the acting ply as `p'` completes with it. -/
theorem perform_past (h : Acts s p) (hb : body p = .next (s'.setPly s.cur p')) (hpc : p'.a.pc = p.a.pc) :
    perform kd (encode i) s body = .next (s'.setPly s.cur (went kd i p' (nextPc i p'))) := by
  rw [perform_next h hb, State.modPly_setPly, complete_eq_went, nextPc, hpc]; rfl
/-- The same for a guarded word whose guard holds. -/
theorem guarded_past (h : Acts s p) (hg : guardHolds g p = true) (hb : body p = .next (s'.setPly s.cur p'))
    (hpc : p'.a.pc = p.a.pc) : guarded kd (encode i) g s body = .next (s'.setPly s.cur (went kd i p' (nextPc i p'))) := by
  rw [guarded_holds h hg, perform_past h hb hpc]
/-- A word whose meaning leaves the state alone completes with the acting ply as it was. -/
theorem perform_same (h : Acts s p) (hb : body p = .next s) :
    perform kd (encode i) s body = .next (s.setPly s.cur (went kd i p (nextPc i p))) := by
  rw [perform_next h hb, State.modPly_eq _ _ h, complete_eq_went]; rfl
theorem guarded_same (h : Acts s p) (hg : guardHolds g p = true) (hb : body p = .next s) :
    guarded kd (encode i) g s body = .next (s.setPly s.cur (went kd i p (nextPc i p))) := by
  rw [guarded_holds h hg, perform_same h hb]
/-- A word that jumps leaves the acting ply at its target. -/
theorem perform_goes {pc : Pc} (h : Acts s p) (hb : body p = .jump (s'.setPly s.cur p') pc) :
    perform kd (encode i) s body = .next (s'.setPly s.cur (went kd i p' pc)) := by
  rw [perform_jump h hb, State.modPly_setPly, complete_eq_went]
theorem perform_goes_same {pc : Pc} (h : Acts s p) (hb : body p = .jump s pc) :
    perform kd (encode i) s body = .next (s.setPly s.cur (went kd i p pc)) := by
  rw [perform_jump h hb, State.modPly_eq _ _ h, complete_eq_went]

theorem uniform_gives {d : SReg} {f v : Ply → DWord} (he : ∀ s, exec i s = uniform i g d f s) (hv : ∀ p, f p = v p) :
    UniformGives i g d v := by
  intro s p hp hg
  rw [he, uniform, guarded_past (p' := p.setS d (f p)) hp hg rfl rfl, hv]; rfl
theorem uniform_tests {d : QReg} {f v : Ply → Bool} (he : ∀ s, exec i s = uniformQ i g d f s) (hv : ∀ p, f p = v p) :
    UniformTests i g d v := by
  intro s p hp hg
  rw [he, uniformQ, guarded_past (p' := p.setQ d (f p)) hp hg rfl (by simp), hv]; rfl
theorem lane_gives {d : VReg} {reads : List Nat → List RegUse} {f : Ply → Core → Nat → Word} {v : State → Ply → Nat → Word}
    (he : ∀ s, exec i s = perform {} (encode i) s fun p => laneWrite s p d (reads p.lanes) (f p))
    (hv : ∀ s p l, f p (here s) l = v s p l) : LaneGives i d reads v := by
  intro s p c' p' hp ho hw
  have hb := laneWrite_some (f := f p) ho (c' := c') (p' := p') (by
    rw [← hw]; congr 1; unfold laneVals; congr 1; funext l; rw [← hv]; rfl)
  rw [he, perform_past hp hb (writeReg_pc hw)]; rfl
theorem lane_tests {pd : PReg} {reads : List Nat → List RegUse} {f : Ply → Core → Nat → Bool} {v : State → Ply → Nat → Bool}
    (he : ∀ s, exec i s = perform {} (encode i) s fun p => lanePred s p pd (reads p.lanes) (f p))
    (hv : ∀ s p l, f p (here s) l = v s p l) : LaneTests i pd reads v := by
  intro s p hp ho
  rw [he, perform_past hp (lanePred_open ho) (by simp)]
  rw [show f p (s.core (coreOf s.cur)) = v s p from funext fun l => hv s p l]; rfl
theorem floats {d : VReg} {reads : List Nat → List RegUse} {f : Ply → Core → Nat → Word × Conds}
    {v : State → Ply → Nat → Word × Conds}
    (he : ∀ s, exec i s = perform {} (encode i) s fun p => fpWrite s p d (reads p.lanes) (f p))
    (hv : ∀ s p l, f p (here s) l = v s p l) : Floats i d reads v := by
  have hf : ∀ s p, f p (s.core (coreOf s.cur)) = v s p := fun s p => funext fun l => hv s p l
  constructor
  · intro s p c' p' hp ho ht hw
    have hb := fpWrite_some (f := f p) ho rfl (by rw [hf]; exact ht) (c' := c') (p' := p') (by rw [hf]; exact hw)
    rw [he, perform_past hp hb (by rw [writeReg_pc hw]; rfl)]; rfl
  · intro s p hp ho ht
    have hb := fpWrite_trap (f := f p) ho rfl (by rw [hf]; exact ht)
    unfold Raises
    rw [he, perform_before hp hb, hf]; rfl

/-! ## From a meaning's result to the words of the statements -/

theorem completes_perform {t : State} (h : Acts s p) (he : exec i s = perform kd (encode i) s body) (hb : body p = .next t) :
    Completes kd i s p t id := by
  unfold Completes; rw [he, perform_next h hb]; congr 2; funext q; rw [complete_eq_went]; rfl
theorem completes_guarded {t : State} (h : Acts s p) (hg : guardHolds g p = true) (he : exec i s = guarded kd (encode i) g s body)
    (hb : body p = .next t) : Completes kd i s p t id := by
  rw [guarded_holds h hg] at he; exact completes_perform h he hb
/-- The change of the acting ply may stand in the statement. -/
theorem completes_change {t : State} {f : Ply → Ply} (h : Completes kd i s p (t.modPly s.cur f) id) : Completes kd i s p t f := by
  unfold Completes at h ⊢
  rw [h]; congr 1
  unfold State.modPly
  cases hf : t.plies.find s.cur with
  | none => simp [hf]
  | some q => simp [State.setPly]
theorem raises_perform {t : State} {c : Cause} {addr m : DWord} (h : Acts s p) (he : exec i s = perform kd (encode i) s body)
    (hb : body p = .before t c addr m) : Raises kd i s p t c addr m := by
  unfold Raises; rw [he, perform_before h hb]
theorem raises_guarded {t : State} {c : Cause} {addr m : DWord} (h : Acts s p) (hg : guardHolds g p = true)
    (he : exec i s = guarded kd (encode i) g s body) (hb : body p = .before t c addr m) : Raises kd i s p t c addr m := by
  rw [guarded_holds h hg] at he; exact raises_perform h he hb
theorem standsBack_perform (h : Acts s p) (he : exec i s = perform kd (encode i) s body) (hb : body p = .stall) : StandsBack i s := by
  unfold StandsBack; rw [he, perform_stall h hb]; rfl
theorem standsBack_guarded (h : Acts s p) (hg : guardHolds g p = true) (he : exec i s = guarded kd (encode i) g s body)
    (hb : body p = .stall) : StandsBack i s := by
  rw [guarded_holds h hg] at he; exact standsBack_perform h he hb
theorem parks_perform {t : State} {st : SlotState} {w : Wait} (h : Acts s p) (he : exec i s = perform kd (encode i) s body)
    (hb : body p = .park t st w) : Parks kd i s t st w := by
  unfold Parks; rw [he, perform_park h hb]; congr 2; funext q; unfold Ply.closedBy; cases kd.closes <;> rfl
theorem parks_guarded {t : State} {st : SlotState} {w : Wait} (h : Acts s p) (hg : guardHolds g p = true)
    (he : exec i s = guarded kd (encode i) g s body) (hb : body p = .park t st w) : Parks kd i s t st w := by
  rw [guarded_holds h hg] at he; exact parks_perform h he hb
theorem becomes_perform {p' : Ply} (h : Acts s p) (hpc : p'.a.pc = p.a.pc) (he : exec i s = perform {} (encode i) s body)
    (hb : body p = .next (s.setPly s.cur p')) : Becomes i s p' := by
  unfold Becomes; rw [he, perform_past h hb hpc]; rfl
theorem becomes_guarded {p' : Ply} (h : Acts s p) (hg : guardHolds g p = true) (hpc : p'.a.pc = p.a.pc)
    (he : exec i s = guarded {} (encode i) g s body) (hb : body p = .next (s.setPly s.cur p')) : Becomes i s p' := by
  rw [guarded_holds h hg] at he; exact becomes_perform h hpc he hb
theorem writes_perform {c' : Core} {p' : Ply} (h : Acts s p) (hpc : p'.a.pc = p.a.pc) (he : exec i s = perform {} (encode i) s body)
    (hb : body p = .next ((s.setCore (coreOf s.cur) c').setPly s.cur p')) : Writes i s c' p' := by
  unfold Writes; rw [he, perform_past h hb hpc]; rfl
theorem becomesClosing_perform {p' : Ply} (h : Acts s p) (hpc : p'.a.pc = p.a.pc)
    (he : exec i s = perform { closes := true } (encode i) s body) (hb : body p = .next (s.setPly s.cur p')) :
    BecomesClosing i s p' := by
  have hc := completes_perform h he hb
  unfold Completes at hc
  unfold BecomesClosing pastClosing nextPc
  rw [hc, hpc]; simp [nextPc, State.modPly, State.setPly]
theorem becomesClosing_guarded {p' : Ply} (h : Acts s p) (hg : guardHolds g p = true) (hpc : p'.a.pc = p.a.pc)
    (he : exec i s = guarded { closes := true } (encode i) g s body) (hb : body p = .next (s.setPly s.cur p')) :
    BecomesClosing i s p' := by
  rw [guarded_holds h hg] at he; exact becomesClosing_perform h hpc he hb
/-- A word that changes nothing. -/
theorem becomes_same (h : Acts s p) (hg : guardHolds g p = true) (he : exec i s = guarded {} (encode i) g s body)
    (hb : body p = .next s) : Becomes i s p := by
  unfold Becomes; rw [he, guarded_same h hg hb]; rfl
theorem becomesClosing_same (h : Acts s p) (hg : guardHolds g p = true)
    (he : exec i s = guarded { closes := true } (encode i) g s body) (hb : body p = .next s) : BecomesClosing i s p := by
  unfold BecomesClosing; rw [he, guarded_same h hg hb]; rfl
/-- An unfed word that jumps, or that goes on behind itself. -/
theorem goes_jump {pc : Pc} (h : Acts s p) (hg : guardHolds g p = true) (he : exec i s = guarded unfed (encode i) g s body)
    (hb : body p = .jump (s.setPly s.cur p') pc) : Goes i s p' pc := by
  unfold Goes; rw [he, guarded_holds h hg, perform_goes h hb]
theorem goes_jump_same {pc : Pc} (h : Acts s p) (hg : guardHolds g p = true) (he : exec i s = guarded unfed (encode i) g s body)
    (hb : body p = .jump s pc) : Goes i s p pc := by
  unfold Goes; rw [he, guarded_holds h hg, perform_goes_same h hb]
theorem goes_next (h : Acts s p) (hg : guardHolds g p = true) (he : exec i s = guarded unfed (encode i) g s body)
    (hpc : p'.a.pc = p.a.pc) (hb : body p = .next (s.setPly s.cur p')) : Goes i s p' (nextPc i p) := by
  unfold Goes; rw [he, guarded_past h hg hb hpc, show nextPc i p' = nextPc i p from by unfold nextPc; rw [hpc]]
theorem goes_same (h : Acts s p) (hg : guardHolds g p = true) (he : exec i s = guarded unfed (encode i) g s body)
    (hb : body p = .next s) : Goes i s p (nextPc i p) := by
  unfold Goes; rw [he, guarded_same h hg hb]
/-- A word that completes with a cause after itself. -/
theorem completesThenRaises_guarded {c : Cause} {t : State} (h : Acts s p) (hg : guardHolds g p = true)
    (he : exec i s = guarded kd (encode i) g s body) (hb : body p = .after t c) : CompletesThenRaises kd i s p t c := by
  unfold CompletesThenRaises; rw [he, guarded_holds h hg, perform_after h hb]; simp only [complete_eq_went]; rfl
theorem writeRegs_pc {c' : Core} {p' : Ply} {ws : List (VReg × List LaneVal)} {c : Core} {q : Ply}
    (h : writeRegs c q ws = some (c', p')) : p'.a.pc = q.a.pc := by
  induction ws generalizing c q with
  | nil => simp [writeRegs] at h; rw [← h.2]
  | cons x xs ih =>
    obtain ⟨r, vals⟩ := x
    simp only [writeRegs] at h
    split at h
    · rename_i c1 p1 h1; rw [ih h, writeReg_pc h1]
    · simp at h
/-- The registers let a store issue. -/
theorem gatedData_open {a : VReg} {rs : List VReg} {go : Core → Res} (h : StoreOpen s p a rs) : gatedData s p a rs go = go (here s) := by
  unfold StoreOpen at h
  unfold gatedData
  by_cases hm : p.mode = 0
  · simp only [hm, if_true] at h ⊢; exact gated_open h
  · simp only [hm, if_false] at h ⊢
    obtain ⟨h1, h2, h4, h3⟩ := h
    rw [if_neg (by rw [h1]; simp)]
    have h2' : readStalls (s.core (coreOf s.cur)) p (rs.map fun r => (r, p.lanes)) = false := h2
    have h4' : (rowsUsed p (rs.map fun r => (r, p.lanes))).any (s.core (coreOf s.cur)).rowErrors = false := by
      simp only [errorRead, Bool.or_eq_false_iff] at h4; exact h4.1
    rw [if_neg (by rw [h2']; simp), if_neg (by rw [h4']; simp)]
    exact gated_open h3

/-! ## Accesses that land -/

/-- A check that fails in no place of several lanes fails in none of them. -/
theorem laneCheck_none {v : State} {r : Requester} {x : Shape} {gos : List LaneGo}
    (h : firstCheck v r x.reach x.bytes (gos.flatMap (·.spots)) = none) :
    (gos.map fun g => Placed.ok g.req g.spots).findSome? (laneCheck v r x false) = none := by
  rw [List.findSome?_eq_none_iff]
  intro y hy
  obtain ⟨g, hg, rfl⟩ := List.mem_map.mp hy
  have : firstCheck v r x.reach x.bytes g.spots = none := by
    unfold firstCheck at h ⊢
    rw [List.findSome?_eq_none_iff] at h ⊢
    exact fun z hz => h z (List.mem_flatMap.mpr ⟨g, hg, hz⟩)
  simp [laneCheck, this]
/-- With every access placed, the checks go on with all of them and leave nothing over. -/
theorem reachLanes_lands {x : Shape} {reqs : List LaneReq} {gos : List LaneGo} {t : State} {m : DWord}
    {go : State → List LaneGo → List LaneReq → List (DWord × Nat) → Res} (h : Lands s p x reqs gos t) :
    reachLanes s p x reqs m go = (go t gos [] []).unclamp t.cur p.scopestat (maskOf (reqs.map (·.lane))) gos.isEmpty := by
  obtain ⟨h1, u, h2, h3, h5, h4, rfl⟩ := h
  have e1 : (gos.map fun g => Placed.ok g.req g.spots).filterMap goOf = gos := by
    rw [List.filterMap_map]; exact List.filterMap_some
  have e2 : ∀ b, present b (gos.map fun g => Placed.ok g.req g.spots) = gos := by
    have ht : ∀ l : List LaneGo, (l.map fun g => Placed.ok g.req g.spots).takeWhile (fun x => (goOf x).isSome) =
        l.map fun g => Placed.ok g.req g.spots := by
      intro l; induction l with
      | nil => rfl
      | cons g l ih => exact congrArg (Placed.ok g.req g.spots :: ·) ih
    intro b; cases b
    · exact e1
    · show (List.takeWhile _ _).filterMap goOf = gos
      rw [ht, e1]
  have e3 : ∀ b, leftover b (gos.map fun g => Placed.ok g.req g.spots) = [] := by
    have ht : ∀ l : List LaneGo, (l.map fun g => Placed.ok g.req g.spots).dropWhile (fun x => (goOf x).isSome) = [] := by
      intro l; induction l with
      | nil => rfl
      | cons g l ih => exact ih
    intro b; cases b
    · simp [leftover, List.filterMap_map, leftOf, Function.comp_def]
    · show (List.dropWhile _ _).filterMap _ = []
      rw [ht] <;> rfl
  have e5 : (gos.map fun g => Placed.ok g.req g.spots).flatMap pagesOf = [] := by simp [pagesOf]
  have e6 : p.returned = false := by simp [Ply.returned, h5]
  unfold reachLanes
  simp only [h1, h2, e6, laneCheck_none h3, h4, e2, e3, e5, Bool.false_eq_true, if_false]
  all_goals rfl
/-- The same where what it goes on with completes. -/
theorem reachLanes_next {x : Shape} {reqs : List LaneReq} {gos : List LaneGo} {t v : State} {m : DWord}
    {go : State → List LaneGo → List LaneReq → List (DWord × Nat) → Res} (h : Lands s p x reqs gos t)
    (hg : go t gos [] [] = .next v) : reachLanes s p x reqs m go = .next v := by
  rw [reachLanes_lands h, hg]; rfl
/-- An address that needs no translation to raise its cause. -/
theorem reachLanes_addr {x : Shape} {reqs : List LaneReq} {m va : DWord} {c : Cause}
    {go : State → List LaneGo → List LaneReq → List (DWord × Nat) → Res}
    (h : (reqs.findSome? fun r => addrCause x.bytes (x.addrs r)) = some (c, va)) :
    reachLanes s p x reqs m go = .before s c va m := by
  unfold reachLanes; simp only [h]
theorem reachOne_lands {x : Shape} {va : DWord} {spot : Spot} {t : State} {go : State → Spot → Res}
    (h : LandsAt s p x va spot t) : reachOne s p x va go = (go t spot).unclamp t.cur p.scopestat 1 false := by
  unfold reachOne; rw [reachLanes_lands h]
  show Res.unclamp t.cur p.scopestat (maskOf [0]) false (go t spot) = _
  rw [show maskOf [0] = 1 from by decide]
theorem reachOne_next {x : Shape} {va : DWord} {spot : Spot} {t v : State} {go : State → Spot → Res}
    (h : LandsAt s p x va spot t) (hg : go t spot = .next v) : reachOne s p x va go = .next v := by
  rw [reachOne_lands h, hg]; rfl
theorem reachOne_addr {x : Shape} {va va' : DWord} {c : Cause} {go : State → Spot → Res} (hx : x.residual = false)
    (h : addrCause x.bytes [va] = some (c, va')) : reachOne s p x va go = .before s c va' 0 := by
  unfold reachOne; rw [reachLanes_addr (c := c) (va := va')]
  simp [Shape.addrs, hx, h]

end Sys2Proof.Machine
end

