-- ==== Sys2Proof/Laws/Dispatch.lean ====
section
/-! SUPPORT. Laws/Dispatch.lean: what `exec` does with each constructor: it calls that instruction's meaning. -/
namespace Sys2Proof.Machine

@[simp] theorem exec_iadd d a b h (s : State) : exec (.iadd d a b h) s = execIadd d a b h s := rfl
@[simp] theorem exec_isub d a b h (s : State) : exec (.isub d a b h) s = execIsub d a b h s := rfl
@[simp] theorem exec_imul d a b h (s : State) : exec (.imul d a b h) s = execImul d a b h s := rfl
@[simp] theorem exec_imulhi d a b h (s : State) : exec (.imulhi d a b h) s = execImulhi d a b h s := rfl
@[simp] theorem exec_imulhu d a b h (s : State) : exec (.imulhu d a b h) s = execImulhu d a b h s := rfl
@[simp] theorem exec_imin d a b h (s : State) : exec (.imin d a b h) s = execImin d a b h s := rfl
@[simp] theorem exec_imax d a b h (s : State) : exec (.imax d a b h) s = execImax d a b h s := rfl
@[simp] theorem exec_iminu d a b h (s : State) : exec (.iminu d a b h) s = execIminu d a b h s := rfl
@[simp] theorem exec_imaxu d a b h (s : State) : exec (.imaxu d a b h) s = execImaxu d a b h s := rfl
@[simp] theorem exec_iaddsat d a b h (s : State) : exec (.iaddsat d a b h) s = execIaddsat d a b h s := rfl
@[simp] theorem exec_isubsat d a b h (s : State) : exec (.isubsat d a b h) s = execIsubsat d a b h s := rfl
@[simp] theorem exec_iaddusat d a b h (s : State) : exec (.iaddusat d a b h) s = execIaddusat d a b h s := rfl
@[simp] theorem exec_isubusat d a b h (s : State) : exec (.isubusat d a b h) s = execIsubusat d a b h s := rfl
@[simp] theorem exec_iabsd d a b h (s : State) : exec (.iabsd d a b h) s = execIabsd d a b h s := rfl
@[simp] theorem exec_andB d a b h (s : State) : exec (.andB d a b h) s = execAndB d a b h s := rfl
@[simp] theorem exec_orB d a b h (s : State) : exec (.orB d a b h) s = execOrB d a b h s := rfl
@[simp] theorem exec_xorB d a b h (s : State) : exec (.xorB d a b h) s = execXorB d a b h s := rfl
@[simp] theorem exec_andn d a b h (s : State) : exec (.andn d a b h) s = execAndn d a b h s := rfl
@[simp] theorem exec_orn d a b h (s : State) : exec (.orn d a b h) s = execOrn d a b h s := rfl
@[simp] theorem exec_xnor d a b h (s : State) : exec (.xnor d a b h) s = execXnor d a b h s := rfl
@[simp] theorem exec_shl d a b h (s : State) : exec (.shl d a b h) s = execShl d a b h s := rfl
@[simp] theorem exec_shr d a b h (s : State) : exec (.shr d a b h) s = execShr d a b h s := rfl
@[simp] theorem exec_sar d a b h (s : State) : exec (.sar d a b h) s = execSar d a b h s := rfl
@[simp] theorem exec_rotl d a b h (s : State) : exec (.rotl d a b h) s = execRotl d a b h s := rfl
@[simp] theorem exec_rotr d a b h (s : State) : exec (.rotr d a b h) s = execRotr d a b h s := rfl
@[simp] theorem exec_popc d a h (s : State) : exec (.popc d a h) s = execPopc d a h s := rfl
@[simp] theorem exec_clz d a h (s : State) : exec (.clz d a h) s = execClz d a h s := rfl
@[simp] theorem exec_brev d a h (s : State) : exec (.brev d a h) s = execBrev d a h s := rfl
@[simp] theorem exec_bfx d a b h (s : State) : exec (.bfx d a b h) s = execBfx d a b h s := rfl
@[simp] theorem exec_bfxs d a b h (s : State) : exec (.bfxs d a b h) s = execBfxs d a b h s := rfl
@[simp] theorem exec_iaddi d a imm (s : State) : exec (.iaddi d a imm) s = execIaddi d a imm s := rfl
@[simp] theorem exec_imuli d a imm (s : State) : exec (.imuli d a imm) s = execImuli d a imm s := rfl
@[simp] theorem exec_andi d a imm (s : State) : exec (.andi d a imm) s = execAndi d a imm s := rfl
@[simp] theorem exec_ori d a imm (s : State) : exec (.ori d a imm) s = execOri d a imm s := rfl
@[simp] theorem exec_xori d a imm (s : State) : exec (.xori d a imm) s = execXori d a imm s := rfl
@[simp] theorem exec_shli d a n (s : State) : exec (.shli d a n) s = execShli d a n s := rfl
@[simp] theorem exec_shri d a n (s : State) : exec (.shri d a n) s = execShri d a n s := rfl
@[simp] theorem exec_sari d a n (s : State) : exec (.sari d a n) s = execSari d a n s := rfl
@[simp] theorem exec_movi d imm (s : State) : exec (.movi d imm) s = execMovi d imm s := rfl
@[simp] theorem exec_icmp pd m a b c ps (s : State) : exec (.icmp pd m a b c ps) s = execIcmp pd m a b c ps s := rfl
@[simp] theorem exec_fcmp pd m a b c ps (s : State) : exec (.fcmp pd m a b c ps) s = execFcmp pd m a b c ps s := rfl
@[simp] theorem exec_sel d a b c (s : State) : exec (.sel d a b c) s = execSel d a b c s := rfl
@[simp] theorem exec_bfi d a b c (s : State) : exec (.bfi d a b c) s = execBfi d a b c s := rfl
@[simp] theorem exec_fadd d a b h (s : State) : exec (.fadd d a b h) s = execFadd d a b h s := rfl
@[simp] theorem exec_fsub d a b h (s : State) : exec (.fsub d a b h) s = execFsub d a b h s := rfl
@[simp] theorem exec_fmul d a b h (s : State) : exec (.fmul d a b h) s = execFmul d a b h s := rfl
@[simp] theorem exec_fmin d a b h (s : State) : exec (.fmin d a b h) s = execFmin d a b h s := rfl
@[simp] theorem exec_fmax d a b h (s : State) : exec (.fmax d a b h) s = execFmax d a b h s := rfl
@[simp] theorem exec_fcopysign d a b h (s : State) : exec (.fcopysign d a b h) s = execFcopysign d a b h s := rfl
@[simp] theorem exec_fminm d a b h (s : State) : exec (.fminm d a b h) s = execFminm d a b h s := rfl
@[simp] theorem exec_fmaxm d a b h (s : State) : exec (.fmaxm d a b h) s = execFmaxm d a b h s := rfl
@[simp] theorem exec_frcp d a h (s : State) : exec (.frcp d a h) s = execFrcp d a h s := rfl
@[simp] theorem exec_fsqrt d a h (s : State) : exec (.fsqrt d a h) s = execFsqrt d a h s := rfl
@[simp] theorem exec_frsq d a h (s : State) : exec (.frsq d a h) s = execFrsq d a h s := rfl
@[simp] theorem exec_fexp2 d a h (s : State) : exec (.fexp2 d a h) s = execFexp2 d a h s := rfl
@[simp] theorem exec_flog2 d a h (s : State) : exec (.flog2 d a h) s = execFlog2 d a h s := rfl
@[simp] theorem exec_ffloor d a h (s : State) : exec (.ffloor d a h) s = execFfloor d a h s := rfl
@[simp] theorem exec_fceil d a h (s : State) : exec (.fceil d a h) s = execFceil d a h s := rfl
@[simp] theorem exec_ftrunc d a h (s : State) : exec (.ftrunc d a h) s = execFtrunc d a h s := rfl
@[simp] theorem exec_frint d a h (s : State) : exec (.frint d a h) s = execFrint d a h s := rfl
@[simp] theorem exec_fclass d a h (s : State) : exec (.fclass d a h) s = execFclass d a h s := rfl
@[simp] theorem exec_fscale d a b h (s : State) : exec (.fscale d a b h) s = execFscale d a b h s := rfl
@[simp] theorem exec_ffma d a b c (s : State) : exec (.ffma d a b c) s = execFfma d a b c s := rfl
@[simp] theorem exec_ffms d a b c (s : State) : exec (.ffms d a b c) s = execFfms d a b c s := rfl
@[simp] theorem exec_badd2 d a b h (s : State) : exec (.badd2 d a b h) s = execBadd2 d a b h s := rfl
@[simp] theorem exec_bmul2 d a b h (s : State) : exec (.bmul2 d a b h) s = execBmul2 d a b h s := rfl
@[simp] theorem exec_bmin2 d a b h (s : State) : exec (.bmin2 d a b h) s = execBmin2 d a b h s := rfl
@[simp] theorem exec_bmax2 d a b h (s : State) : exec (.bmax2 d a b h) s = execBmax2 d a b h s := rfl
@[simp] theorem exec_bfma2 d a b c (s : State) : exec (.bfma2 d a b c) s = execBfma2 d a b c s := rfl
@[simp] theorem exec_bfms2 d a b c (s : State) : exec (.bfms2 d a b c) s = execBfms2 d a b c s := rfl
@[simp] theorem exec_cvt d a k sat r c (s : State) : exec (.cvt d a k sat r c) s = execCvt d a k sat r c s := rfl
@[simp] theorem exec_mov d a h (s : State) : exec (.mov d a h) s = execMov d a h s := rfl
@[simp] theorem exec_ptov d a h (s : State) : exec (.ptov d a h) s = execPtov d a h s := rfl
@[simp] theorem exec_vtop d a h (s : State) : exec (.vtop d a h) s = execVtop d a h s := rfl
@[simp] theorem exec_pand d a b (s : State) : exec (.pand d a b) s = execPand d a b s := rfl
@[simp] theorem exec_por d a b (s : State) : exec (.por d a b) s = execPor d a b s := rfl
@[simp] theorem exec_pxor d a b (s : State) : exec (.pxor d a b) s = execPxor d a b s := rfl
@[simp] theorem exec_pandn d a b (s : State) : exec (.pandn d a b) s = execPandn d a b s := rfl
@[simp] theorem exec_shfl d a b h (s : State) : exec (.shfl d a b h) s = execShfl d a b h s := rfl
@[simp] theorem exec_shflx d a b h (s : State) : exec (.shflx d a b h) s = execShflx d a b h s := rfl
@[simp] theorem exec_shflup d a b h (s : State) : exec (.shflup d a b h) s = execShflup d a b h s := rfl
@[simp] theorem exec_shfldn d a b h (s : State) : exec (.shfldn d a b h) s = execShfldn d a b h s := rfl
@[simp] theorem exec_iscan d a h (s : State) : exec (.iscan d a h) s = execIscan d a h s := rfl
@[simp] theorem exec_lsr d c (s : State) : exec (.lsr d c) s = execLsr d c s := rfl
@[simp] theorem exec_ld d a sb z c h x (s : State) : exec (.ld d a sb z c h x) s = execLd d a sb z c h x s := rfl
@[simp] theorem exec_st d a sb z c h (s : State) : exec (.st d a sb z c h) s = execSt d a sb z c h s := rfl
@[simp] theorem exec_lda d a sb wide e (s : State) : exec (.lda d a sb wide e) s = execLda d a sb wide e s := rfl
@[simp] theorem exec_str d a sb wide e (s : State) : exec (.str d a sb wide e) s = execStr d a sb wide e s := rfl
@[simp] theorem exec_atom d a sb op e (s : State) : exec (.atom d a sb op e) s = execAtom d a sb op e s := rfl
@[simp] theorem exec_atomar d a sb op e (s : State) : exec (.atomar d a sb op e) s = execAtomar d a sb op e s := rfl
@[simp] theorem exec_cas d a sb e wide ord (s : State) : exec (.cas d a sb e wide ord) s = execCas d a sb e wide ord s := rfl
@[simp] theorem exec_red d a sb op e (s : State) : exec (.red d a sb op e) s = execRed d a sb op e s := rfl
@[simp] theorem exec_redq d a sb q e (s : State) : exec (.redq d a sb q e) s = execRedq d a sb q e s := rfl
@[simp] theorem exec_ldrep d a sb t (s : State) : exec (.ldrep d a sb t) s = execLdrep d a sb t s := rfl
@[simp] theorem exec_pref k a sb (s : State) : exec (.pref k a sb) s = execPref k a sb s := rfl
@[simp] theorem exec_tld d a h z x (s : State) : exec (.tld d a h z x) s = execTld d a h z x s := rfl
@[simp] theorem exec_tst d a h z (s : State) : exec (.tst d a h z) s = execTst d a h z s := rfl
@[simp] theorem exec_mma d a f shp n (s : State) : exec (.mma d a f shp n) s = execMma d a f shp n s := rfl
@[simp] theorem exec_mmai d a f shp n (s : State) : exec (.mmai d a f shp n) s = execMmai d a f shp n s := rfl
@[simp] theorem exec_mstate d w (s : State) : exec (.mstate d w) s = execMstate d w s := rfl
@[simp] theorem exec_mfill a w (s : State) : exec (.mfill a w) s = execMfill a w s := rfl
@[simp] theorem exec_rnsf d a h (s : State) : exec (.rnsf d a h) s = execRnsf d a h s := rfl
@[simp] theorem exec_rnsfw d a h (s : State) : exec (.rnsfw d a h) s = execRnsfw d a h s := rfl
@[simp] theorem exec_rnsadd d a b h (s : State) : exec (.rnsadd d a b h) s = execRnsadd d a b h s := rfl
@[simp] theorem exec_rnsmul d a b h (s : State) : exec (.rnsmul d a b h) s = execRnsmul d a b h s := rfl
@[simp] theorem exec_rnsaddw d a b h (s : State) : exec (.rnsaddw d a b h) s = execRnsaddw d a b h s := rfl
@[simp] theorem exec_rnsmulw d a b h (s : State) : exec (.rnsmulw d a b h) s = execRnsmulw d a b h s := rfl
@[simp] theorem exec_rnsneg d a h (s : State) : exec (.rnsneg d a h) s = execRnsneg d a h s := rfl
@[simp] theorem exec_rnsnegw d a h (s : State) : exec (.rnsnegw d a h) s = execRnsnegw d a h s := rfl
@[simp] theorem exec_rnsr d a h (s : State) : exec (.rnsr d a h) s = execRnsr d a h s := rfl
@[simp] theorem exec_rnsrw d a h (s : State) : exec (.rnsrw d a h) s = execRnsrw d a h s := rfl
@[simp] theorem exec_rnschk d a h (s : State) : exec (.rnschk d a h) s = execRnschk d a h s := rfl
@[simp] theorem exec_rnschkw d a h (s : State) : exec (.rnschkw d a h) s = execRnschkw d a h s := rfl
@[simp] theorem exec_uadd d a b g (s : State) : exec (.uadd d a b g) s = execUadd d a b g s := rfl
@[simp] theorem exec_usub d a b g (s : State) : exec (.usub d a b g) s = execUsub d a b g s := rfl
@[simp] theorem exec_umul d a b g (s : State) : exec (.umul d a b g) s = execUmul d a b g s := rfl
@[simp] theorem exec_umulhi d a b g (s : State) : exec (.umulhi d a b g) s = execUmulhi d a b g s := rfl
@[simp] theorem exec_umulhu d a b g (s : State) : exec (.umulhu d a b g) s = execUmulhu d a b g s := rfl
@[simp] theorem exec_umin d a b g (s : State) : exec (.umin d a b g) s = execUmin d a b g s := rfl
@[simp] theorem exec_umax d a b g (s : State) : exec (.umax d a b g) s = execUmax d a b g s := rfl
@[simp] theorem exec_uminu d a b g (s : State) : exec (.uminu d a b g) s = execUminu d a b g s := rfl
@[simp] theorem exec_uand d a b g (s : State) : exec (.uand d a b g) s = execUand d a b g s := rfl
@[simp] theorem exec_uor d a b g (s : State) : exec (.uor d a b g) s = execUor d a b g s := rfl
@[simp] theorem exec_uxor d a b g (s : State) : exec (.uxor d a b g) s = execUxor d a b g s := rfl
@[simp] theorem exec_uandn d a b g (s : State) : exec (.uandn d a b g) s = execUandn d a b g s := rfl
@[simp] theorem exec_ushl d a b g (s : State) : exec (.ushl d a b g) s = execUshl d a b g s := rfl
@[simp] theorem exec_ushr d a b g (s : State) : exec (.ushr d a b g) s = execUshr d a b g s := rfl
@[simp] theorem exec_usar d a b g (s : State) : exec (.usar d a b g) s = execUsar d a b g s := rfl
@[simp] theorem exec_umaxu d a b g (s : State) : exec (.umaxu d a b g) s = execUmaxu d a b g s := rfl
@[simp] theorem exec_upopc d a g (s : State) : exec (.upopc d a g) s = execUpopc d a g s := rfl
@[simp] theorem exec_uclz d a g (s : State) : exec (.uclz d a g) s = execUclz d a g s := rfl
@[simp] theorem exec_uctz d a g (s : State) : exec (.uctz d a g) s = execUctz d a g s := rfl
@[simp] theorem exec_ubfx d a b g (s : State) : exec (.ubfx d a b g) s = execUbfx d a b g s := rfl
@[simp] theorem exec_udivu d a b g (s : State) : exec (.udivu d a b g) s = execUdivu d a b g s := rfl
@[simp] theorem exec_uremu d a b g (s : State) : exec (.uremu d a b g) s = execUremu d a b g s := rfl
@[simp] theorem exec_uaddi d imm g (s : State) : exec (.uaddi d imm g) s = execUaddi d imm g s := rfl
@[simp] theorem exec_uandi d imm g (s : State) : exec (.uandi d imm g) s = execUandi d imm g s := rfl
@[simp] theorem exec_uori d imm g (s : State) : exec (.uori d imm g) s = execUori d imm g s := rfl
@[simp] theorem exec_uxori d imm g (s : State) : exec (.uxori d imm g) s = execUxori d imm g s := rfl
@[simp] theorem exec_ushli d n g (s : State) : exec (.ushli d n g) s = execUshli d n g s := rfl
@[simp] theorem exec_ushri d n g (s : State) : exec (.ushri d n g) s = execUshri d n g s := rfl
@[simp] theorem exec_usari d n g (s : State) : exec (.usari d n g) s = execUsari d n g s := rfl
@[simp] theorem exec_umovi d imm g (s : State) : exec (.umovi d imm g) s = execUmovi d imm g s := rfl
@[simp] theorem exec_umuli d imm g (s : State) : exec (.umuli d imm g) s = execUmuli d imm g s := rfl
@[simp] theorem exec_ulit d lit g (s : State) : exec (.ulit d lit g) s = execUlit d lit g s := rfl
@[simp] theorem exec_ulitS d lit g (s : State) : exec (.ulitS d lit g) s = execUlitS d lit g s := rfl
@[simp] theorem exec_ulitHi d lit g (s : State) : exec (.ulitHi d lit g) s = execUlitHi d lit g s := rfl
@[simp] theorem exec_ucmp c q a b g (s : State) : exec (.ucmp c q a b g) s = execUcmp c q a b g s := rfl
@[simp] theorem exec_ucmpi c q a imm g (s : State) : exec (.ucmpi c q a imm g) s = execUcmpi c q a imm g s := rfl
@[simp] theorem exec_qand d a b g (s : State) : exec (.qand d a b g) s = execQand d a b g s := rfl
@[simp] theorem exec_qor d a b g (s : State) : exec (.qor d a b g) s = execQor d a b g s := rfl
@[simp] theorem exec_qxor d a b g (s : State) : exec (.qxor d a b g) s = execQxor d a b g s := rfl
@[simp] theorem exec_qandn d a b g (s : State) : exec (.qandn d a b g) s = execQandn d a b g s := rfl
@[simp] theorem exec_bra o g (s : State) : exec (.bra o g) s = execBra o g s := rfl
@[simp] theorem exec_call o g (s : State) : exec (.call o g) s = execCall o g s := rfl
@[simp] theorem exec_brx a g (s : State) : exec (.brx a g) s = execBrx a g s := rfl
@[simp] theorem exec_callx a g (s : State) : exec (.callx a g) s = execCallx a g s := rfl
@[simp] theorem exec_ret a g (s : State) : exec (.ret a g) s = execRet a g s := rfl
@[simp] theorem exec_brv o n p (s : State) : exec (.brv o n p) s = execBrv o n p s := rfl
@[simp] theorem exec_kpin k o g (s : State) : exec (.kpin k o g) s = execKpin k o g s := rfl
@[simp] theorem exec_kmeet k g (s : State) : exec (.kmeet k g) s = execKmeet k g s := rfl
@[simp] theorem exec_emrd d g (s : State) : exec (.emrd d g) s = execEmrd d g s := rfl
@[simp] theorem exec_emwr a g (s : State) : exec (.emwr a g) s = execEmwr a g s := rfl
@[simp] theorem exec_emandp a g (s : State) : exec (.emandp a g) s = execEmandp a g s := rfl
@[simp] theorem exec_vote d a g (s : State) : exec (.vote d a g) s = execVote d a g s := rfl
@[simp] theorem exec_v2s d a g (s : State) : exec (.v2s d a g) s = execV2s d a g s := rfl
@[simp] theorem exec_v2s64 d a g (s : State) : exec (.v2s64 d a g) s = execV2s64 d a g s := rfl
@[simp] theorem exec_s2v d a g (s : State) : exec (.s2v d a g) s = execS2v d a g s := rfl
@[simp] theorem exec_empop d g (s : State) : exec (.empop d g) s = execEmpop d g s := rfl
@[simp] theorem exec_redu d a f g (s : State) : exec (.redu d a f g) s = execRedu d a f g s := rfl
@[simp] theorem exec_uld d sb imm z g (s : State) : exec (.uld d sb imm z g) s = execUld d sb imm z g s := rfl
@[simp] theorem exec_ust d sb imm z g (s : State) : exec (.ust d sb imm z g) s = execUst d sb imm z g s := rfl
@[simp] theorem exec_ulda d sb e wide g (s : State) : exec (.ulda d sb e wide g) s = execUlda d sb e wide g s := rfl
@[simp] theorem exec_ustr d sb e wide g (s : State) : exec (.ustr d sb e wide g) s = execUstr d sb e wide g s := rfl
@[simp] theorem exec_uatom d sb e wide op g (s : State) : exec (.uatom d sb e wide op g) s = execUatom d sb e wide op g s := rfl
@[simp] theorem exec_ucas d sb e wide ord g (s : State) : exec (.ucas d sb e wide ord g) s = execUcas d sb e wide ord g s := rfl
@[simp] theorem exec_fence e g (s : State) : exec (.fence e g) s = execFence e g s := rfl
@[simp] theorem exec_fenceAcq e g (s : State) : exec (.fenceAcq e g) s = execFenceAcq e g s := rfl
@[simp] theorem exec_fenceRel e g (s : State) : exec (.fenceRel e g) s = execFenceRel e g s := rfl
@[simp] theorem exec_waitc d sb e wide c g (s : State) : exec (.waitc d sb e wide c g) s = execWaitc d sb e wide c g s := rfl
@[simp] theorem exec_waitn l st c m g (s : State) : exec (.waitn l st c m g) s = execWaitn l st c m g s := rfl
@[simp] theorem exec_srd d n g (s : State) : exec (.srd d n g) s = execSrd d n g s := rfl
@[simp] theorem exec_swr d n g (s : State) : exec (.swr d n g) s = execSwr d n g s := rfl
@[simp] theorem exec_emWrite v (s : State) : exec (.emWrite v) s = execEmWrite v s := rfl
@[simp] theorem exec_cadd c v (s : State) : exec (.cadd c v) s = execCadd c v s := rfl
@[simp] theorem exec_rnsstatWrite v (s : State) : exec (.rnsstatWrite v) s = execRnsstatWrite v s := rfl
@[simp] theorem exec_registerWrite n v (s : State) : exec (.registerWrite n v) s = execRegisterWrite n v s := rfl
@[simp] theorem exec_talloc a g (s : State) : exec (.talloc a g) s = execTalloc a g s := rfl
@[simp] theorem exec_talloct d a g (s : State) : exec (.talloct d a g) s = execTalloct d a g s := rfl
@[simp] theorem exec_tfree a g (s : State) : exec (.tfree a g) s = execTfree a g s := rfl
@[simp] theorem exec_cpyin h t cb cr y (s : State) : exec (.cpyin h t cb cr y) s = execCpyin h t cb cr y s := rfl
@[simp] theorem exec_cpyout h t cb cr y (s : State) : exec (.cpyout h t cb cr y) s = execCpyout h t cb cr y s := rfl
@[simp] theorem exec_cpytt h cb cr y (s : State) : exec (.cpytt h cb cr y) s = execCpytt h cb cr y s := rfl
@[simp] theorem exec_cpyfill h cb cr y (s : State) : exec (.cpyfill h cb cr y) s = execCpyfill h cb cr y s := rfl
@[simp] theorem exec_tbind d a g (s : State) : exec (.tbind d a g) s = execTbind d a g s := rfl
@[simp] theorem exec_cbld d a g (s : State) : exec (.cbld d a g) s = execCbld d a g s := rfl
@[simp] theorem exec_bshr d a b g (s : State) : exec (.bshr d a b g) s = execBshr d a b g s := rfl
@[simp] theorem exec_frz d g (s : State) : exec (.frz d g) s = execFrz d g s := rfl
@[simp] theorem exec_rstr a g (s : State) : exec (.rstr a g) s = execRstr a g s := rfl
@[simp] theorem exec_cast d a b g (s : State) : exec (.cast d a b g) s = execCast d a b g s := rfl
@[simp] theorem exec_drop a g (s : State) : exec (.drop a g) s = execDrop a g s := rfl
@[simp] theorem exec_minfo d a g (s : State) : exec (.minfo d a g) s = execMinfo d a g s := rfl
@[simp] theorem exec_stamp d a b g (s : State) : exec (.stamp d a b g) s = execStamp d a b g s := rfl
@[simp] theorem exec_pbind n a g (s : State) : exec (.pbind n a g) s = execPbind n a g s := rfl
@[simp] theorem exec_ptkt n g (s : State) : exec (.ptkt n g) s = execPtkt n g s := rfl
@[simp] theorem exec_pdone n g (s : State) : exec (.pdone n g) s = execPdone n g s := rfl
@[simp] theorem exec_pwait n g (s : State) : exec (.pwait n g) s = execPwait n g s := rfl
@[simp] theorem exec_pquit n g (s : State) : exec (.pquit n g) s = execPquit n g s := rfl
@[simp] theorem exec_give d g (s : State) : exec (.give d g) s = execGive d g s := rfl
@[simp] theorem exec_claim d g (s : State) : exec (.claim d g) s = execClaim d g s := rfl
@[simp] theorem exec_qpop d a g (s : State) : exec (.qpop d a g) s = execQpop d a g s := rfl
@[simp] theorem exec_qpopt d a g (s : State) : exec (.qpopt d a g) s = execQpopt d a g s := rfl
@[simp] theorem exec_qpopl d a b g (s : State) : exec (.qpopl d a b g) s = execQpopl d a b g s := rfl
@[simp] theorem exec_qpush d a g (s : State) : exec (.qpush d a g) s = execQpush d a g s := rfl
@[simp] theorem exec_qpushl d a b g (s : State) : exec (.qpushl d a b g) s = execQpushl d a b g s := rfl
@[simp] theorem exec_qcnt d a g (s : State) : exec (.qcnt d a g) s = execQcnt d a g s := rfl
@[simp] theorem exec_bara id e a d g (s : State) : exec (.bara id e a d g) s = execBara id e a d g s := rfl
@[simp] theorem exec_baraw id e a d g (s : State) : exec (.baraw id e a d g) s = execBaraw id e a d g s := rfl
@[simp] theorem exec_barw id e d g (s : State) : exec (.barw id e d g) s = execBarw id e d g s := rfl
@[simp] theorem exec_lwait a g (s : State) : exec (.lwait a g) s = execLwait a g s := rfl
@[simp] theorem exec_lwaitArm a g (s : State) : exec (.lwaitArm a g) s = execLwaitArm a g s := rfl
@[simp] theorem exec_lwake a g (s : State) : exec (.lwake a g) s = execLwake a g s := rfl
@[simp] theorem exec_lwakeInt a g (s : State) : exec (.lwakeInt a g) s = execLwakeInt a g s := rfl
@[simp] theorem exec_nop g (s : State) : exec (.nop g) s = execNop g s := rfl
@[simp] theorem exec_exit g (s : State) : exec (.exit g) s = execExit g s := rfl
@[simp] theorem exec_yld c g (s : State) : exec (.yld c g) s = execYld c g s := rfl
@[simp] theorem exec_trap n g (s : State) : exec (.trap n g) s = execTrap n g s := rfl
@[simp] theorem exec_sysc g (s : State) : exec (.sysc g) s = execSysc g s := rfl
@[simp] theorem exec_iret g (s : State) : exec (.iret g) s = execIret g s := rfl
@[simp] theorem exec_brk g (s : State) : exec (.brk g) s = execBrk g s := rfl
@[simp] theorem exec_wmk sig g (s : State) : exec (.wmk sig g) s = execWmk sig g s := rfl
@[simp] theorem exec_ireg g (s : State) : exec (.ireg g) s = execIreg g s := rfl
@[simp] theorem exec_iregClose g (s : State) : exec (.iregClose g) s = execIregClose g s := rfl
@[simp] theorem exec_xrdv d a g (s : State) : exec (.xrdv d a g) s = execXrdv d a g s := rfl
@[simp] theorem exec_xwrv d a g (s : State) : exec (.xwrv d a g) s = execXwrv d a g s := rfl
@[simp] theorem exec_xrds d a g (s : State) : exec (.xrds d a g) s = execXrds d a g s := rfl
@[simp] theorem exec_xwrs d a g (s : State) : exec (.xwrs d a g) s = execXwrs d a g s := rfl
@[simp] theorem exec_xrdsp d n g (s : State) : exec (.xrdsp d n g) s = execXrdsp d n g s := rfl
@[simp] theorem exec_xwrsp d n g (s : State) : exec (.xwrsp d n g) s = execXwrsp d n g s := rfl
@[simp] theorem exec_xrpk d a g (s : State) : exec (.xrpk d a g) s = execXrpk d a g s := rfl
@[simp] theorem exec_xwpk d a g (s : State) : exec (.xwpk d a g) s = execXwpk d a g s := rfl
@[simp] theorem exec_idle d g (s : State) : exec (.idle d g) s = execIdle d g s := rfl
@[simp] theorem exec_rfeResume a g (s : State) : exec (.rfeResume a g) s = execRfeResume a g s := rfl
@[simp] theorem exec_rfeDeliver a g (s : State) : exec (.rfeDeliver a g) s = execRfeDeliver a g s := rfl
@[simp] theorem exec_rfeKill a g (s : State) : exec (.rfeKill a g) s = execRfeKill a g s := rfl
@[simp] theorem exec_rfeResumeNoReplay a g (s : State) : exec (.rfeResumeNoReplay a g) s = execRfeResumeNoReplay a g s := rfl
@[simp] theorem exec_rfeReturn a g (s : State) : exec (.rfeReturn a g) s = execRfeReturn a g s := rfl
@[simp] theorem exec_psrd d n g (s : State) : exec (.psrd d n g) s = execPsrd d n g s := rfl
@[simp] theorem exec_pswr d n g (s : State) : exec (.pswr d n g) s = execPswr d n g s := rfl
@[simp] theorem exec_tlbiPage d a g (s : State) : exec (.tlbiPage d a g) s = execTlbiPage d a g s := rfl
@[simp] theorem exec_tlbiRange d a b g (s : State) : exec (.tlbiRange d a b g) s = execTlbiRange d a b g s := rfl
@[simp] theorem exec_tlbiAs d g (s : State) : exec (.tlbiAs d g) s = execTlbiAs d g s := rfl
@[simp] theorem exec_tlbiAll g (s : State) : exec (.tlbiAll g) s = execTlbiAll g s := rfl
@[simp] theorem exec_genb d a g (s : State) : exec (.genb d a g) s = execGenb d a g s := rfl
@[simp] theorem exec_scrbStart d a b g (s : State) : exec (.scrbStart d a b g) s = execScrbStart d a b g s := rfl
@[simp] theorem exec_scrbQuery d a g (s : State) : exec (.scrbQuery d a g) s = execScrbQuery d a g s := rfl
@[simp] theorem exec_scrbAbort a g (s : State) : exec (.scrbAbort a g) s = execScrbAbort a g s := rfl
@[simp] theorem exec_kzro a g (s : State) : exec (.kzro a g) s = execKzro a g s := rfl
@[simp] theorem exec_mboxSend d a g (s : State) : exec (.mboxSend d a g) s = execMboxSend d a g s := rfl
@[simp] theorem exec_mboxRecv d a g (s : State) : exec (.mboxRecv d a g) s = execMboxRecv d a g s := rfl
@[simp] theorem exec_mboxPeek d a g (s : State) : exec (.mboxPeek d a g) s = execMboxPeek d a g s := rfl
@[simp] theorem exec_bind d a b g (s : State) : exec (.bind d a b g) s = execBind d a b g s := rfl
@[simp] theorem exec_unbind d a b g (s : State) : exec (.unbind d a b g) s = execUnbind d a b g s := rfl
@[simp] theorem exec_loadLanding seq (s : State) : exec (.loadLanding seq) s = execLoadLanding seq s := rfl
@[simp] theorem exec_storeAck seq (s : State) : exec (.storeAck seq) s = execStoreAck seq s := rfl
@[simp] theorem exec_monitorWake ply (s : State) : exec (.monitorWake ply) s = execMonitorWake ply s := rfl
@[simp] theorem exec_copyBlockLand seq block (s : State) : exec (.copyBlockLand seq block) s = execCopyBlockLand seq block s := rfl
@[simp] theorem exec_copyStop seq c (s : State) : exec (.copyStop seq c) s = execCopyStop seq c s := rfl
@[simp] theorem exec_deferredCause ply (s : State) : exec (.deferredCause ply) s = execDeferredCause ply s := rfl
@[simp] theorem exec_mmaComplete seq octet (s : State) : exec (.mmaComplete seq octet) s = execMmaComplete seq octet s := rfl
@[simp] theorem exec_engineThaw core (s : State) : exec (.engineThaw core) s = execEngineThaw core s := rfl
@[simp] theorem exec_pageWalk core seq ahead (s : State) : exec (.pageWalk core seq ahead) s = execPageWalk core seq ahead s := rfl
@[simp] theorem exec_faultEntryTaken die (s : State) : exec (.faultEntryTaken die) s = execFaultEntryTaken die s := rfl
@[simp] theorem exec_faultReply die (s : State) : exec (.faultReply die) s = execFaultReply die s := rfl
@[simp] theorem exec_staleAccessReturn a (s : State) : exec (.staleAccessReturn a) s = execStaleAccessReturn a s := rfl
@[simp] theorem exec_queueEntryArrival ply desc (s : State) : exec (.queueEntryArrival ply desc) s = execQueueEntryArrival ply desc s := rfl
@[simp] theorem exec_queueNack ply desc (s : State) : exec (.queueNack ply desc) s = execQueueNack ply desc s := rfl
@[simp] theorem exec_queueBackoff ply desc (s : State) : exec (.queueBackoff ply desc) s = execQueueBackoff ply desc s := rfl
@[simp] theorem exec_queueAck ply desc (s : State) : exec (.queueAck ply desc) s = execQueueAck ply desc s := rfl
@[simp] theorem exec_userInterruptDelivery ply (s : State) : exec (.userInterruptDelivery ply) s = execUserInterruptDelivery ply s := rfl
@[simp] theorem exec_regionRetry ply (s : State) : exec (.regionRetry ply) s = execRegionRetry ply s := rfl
@[simp] theorem exec_waitnComplete ply (s : State) : exec (.waitnComplete ply) s = execWaitnComplete ply s := rfl
@[simp] theorem exec_genbComplete ply (s : State) : exec (.genbComplete ply) s = execGenbComplete ply s := rfl
@[simp] theorem exec_rowWaitRetry ply (s : State) : exec (.rowWaitRetry ply) s = execRowWaitRetry ply s := rfl
@[simp] theorem exec_rowStarvation core (s : State) : exec (.rowStarvation core) s = execRowStarvation core s := rfl
@[simp] theorem exec_stampQueuePlace run (s : State) : exec (.stampQueuePlace run) s = execStampQueuePlace run s := rfl
@[simp] theorem exec_exportComplete core entry (s : State) : exec (.exportComplete core entry) s = execExportComplete core entry s := rfl
@[simp] theorem exec_runAccept tenant (s : State) : exec (.runAccept tenant) s = execRunAccept tenant s := rfl
@[simp] theorem exec_runAging run (s : State) : exec (.runAging run) s = execRunAging run s := rfl
@[simp] theorem exec_gangReserve (s : State) : exec (.gangReserve) s = execGangReserve s := rfl
@[simp] theorem exec_teamRetire run team (s : State) : exec (.teamRetire run team) s = execTeamRetire run team s := rfl
@[simp] theorem exec_runEnd run (s : State) : exec (.runEnd run) s = execRunEnd run s := rfl
@[simp] theorem exec_dieLinkLoss dieA dieB (s : State) : exec (.dieLinkLoss dieA dieB) s = execDieLinkLoss dieA dieB s := rfl
@[simp] theorem exec_prePreempt tenant (s : State) : exec (.prePreempt tenant) s = execPrePreempt tenant s := rfl
@[simp] theorem exec_preRestore tenant (s : State) : exec (.preRestore tenant) s = execPreRestore tenant s := rfl
@[simp] theorem exec_tcfgWrite tenant v (s : State) : exec (.tcfgWrite tenant v) s = execTcfgWrite tenant v s := rfl
@[simp] theorem exec_sweepEnd tenant (s : State) : exec (.sweepEnd tenant) s = execSweepEnd tenant s := rfl
@[simp] theorem exec_kwayWrite port v (s : State) : exec (.kwayWrite port v) s = execKwayWrite port v s := rfl
@[simp] theorem exec_subqWrite tenant v (s : State) : exec (.subqWrite tenant v) s = execSubqWrite tenant v s := rfl
@[simp] theorem exec_mbtabWrite v (s : State) : exec (.mbtabWrite v) s = execMbtabWrite v s := rfl
@[simp] theorem exec_csplitWrite v (s : State) : exec (.csplitWrite v) s = execCsplitWrite v s := rfl
@[simp] theorem exec_carveOutApply core (s : State) : exec (.carveOutApply core) s = execCarveOutApply core s := rfl
@[simp] theorem exec_keyctlLoad slot (s : State) : exec (.keyctlLoad slot) s = execKeyctlLoad slot s := rfl
@[simp] theorem exec_keyctlLoadDone (s : State) : exec (.keyctlLoadDone) s = execKeyctlLoadDone s := rfl
@[simp] theorem exec_injctlArm v (s : State) : exec (.injctlArm v) s = execInjctlArm v s := rfl
@[simp] theorem exec_patrolScrub pa (s : State) : exec (.patrolScrub pa) s = execPatrolScrub pa s := rfl
@[simp] theorem exec_scrubJobProgress job (s : State) : exec (.scrubJobProgress job) s = execScrubJobProgress job s := rfl
@[simp] theorem exec_scrubDeferral stack on (s : State) : exec (.scrubDeferral stack on) s = execScrubDeferral stack on s := rfl
@[simp] theorem exec_coldReset (s : State) : exec (.coldReset) s = execColdReset s := rfl
@[simp] theorem exec_functionReset (s : State) : exec (.functionReset) s = execFunctionReset s := rfl
@[simp] theorem exec_restartFr (s : State) : exec (.restartFr) s = execRestartFr s := rfl
@[simp] theorem exec_restartCp core (s : State) : exec (.restartCp core) s = execRestartCp core s := rfl
@[simp] theorem exec_firmwareVerify img (s : State) : exec (.firmwareVerify img) s = execFirmwareVerify img s := rfl
@[simp] theorem exec_attreqWrite pa (s : State) : exec (.attreqWrite pa) s = execAttreqWrite pa s := rfl
@[simp] theorem exec_thermalThrottle monitor v (s : State) : exec (.thermalThrottle monitor v) s = execThermalThrottle monitor v s := rfl
@[simp] theorem exec_thermalTrip monitor v (s : State) : exec (.thermalTrip monitor v) s = execThermalTrip monitor v s := rfl
@[simp] theorem exec_pushPortWrite port data (s : State) : exec (.pushPortWrite port data) s = execPushPortWrite port data s := rfl
@[simp] theorem exec_bar2Access bar off r relaxed (s : State) : exec (.bar2Access bar off r relaxed) s = execBar2Access bar off r relaxed s := rfl
@[simp] theorem exec_orderingPointForward n (s : State) : exec (.orderingPointForward n) s = execOrderingPointForward n s := rfl
@[simp] theorem exec_latchWake vf k (s : State) : exec (.latchWake vf k) s = execLatchWake vf k s := rfl
@[simp] theorem exec_latchKey vf n k (s : State) : exec (.latchKey vf n k) s = execLatchKey vf n k s := rfl
@[simp] theorem exec_latchStatus vf n (s : State) : exec (.latchStatus vf n) s = execLatchStatus vf n s := rfl
@[simp] theorem exec_sqTailDoorbell lease tail (s : State) : exec (.sqTailDoorbell lease tail) s = execSqTailDoorbell lease tail s := rfl
@[simp] theorem exec_cqHeadDoorbell lease head (s : State) : exec (.cqHeadDoorbell lease head) s = execCqHeadDoorbell lease head s := rfl
@[simp] theorem exec_nvmeDma queue va r (s : State) : exec (.nvmeDma queue va r) s = execNvmeDma queue va r s := rfl
@[simp] theorem exec_nvmeCompletionInterrupt lease (s : State) : exec (.nvmeCompletionInterrupt lease) s = execNvmeCompletionInterrupt lease s := rfl
@[simp] theorem exec_aktumRequest port tenant pa r (s : State) : exec (.aktumRequest port tenant pa r) s = execAktumRequest port tenant pa r s := rfl
@[simp] theorem exec_aktumFlit port crcOk (s : State) : exec (.aktumFlit port crcOk) s = execAktumFlit port crcOk s := rfl
@[simp] theorem exec_aktumRetrain port (s : State) : exec (.aktumRetrain port) s = execAktumRetrain port s := rfl
@[simp] theorem exec_illegalInstruction c (s : State) : exec (.illegalInstruction c) s = execIllegalInstruction c s := rfl
@[simp] theorem exec_storageError e (s : State) : exec (.storageError e) s = execStorageError e s := rfl
@[simp] theorem exec_aktumPortDown port (s : State) : exec (.aktumPortDown port) s = execAktumPortDown port s := rfl
@[simp] theorem exec_aktumPortUp port (s : State) : exec (.aktumPortUp port) s = execAktumPortUp port s := rfl
@[simp] theorem exec_hbmStackTrained stack (s : State) : exec (.hbmStackTrained stack) s = execHbmStackTrained stack s := rfl
@[simp] theorem exec_hostPortTrained (s : State) : exec (.hostPortTrained) s = execHostPortTrained s := rfl
@[simp] theorem exec_nvmeLinkUp port (s : State) : exec (.nvmeLinkUp port) s = execNvmeLinkUp port s := rfl
@[simp] theorem exec_podBarrierMessage run id m (s : State) : exec (.podBarrierMessage run id m) s = execPodBarrierMessage run id m s := rfl

end Sys2Proof.Machine
end

