-- ==== Sys2Proof/Laws/Memory.lean ====
section
/-! SUPPORT. Laws/Memory.lean: the laws of memory as bytes: every operation keeps the canonical form, a read after a write
gives the byte written, and every other byte reads as before. -/
namespace Sys2Proof.Machine

theorem Memory.wf_iff (m : List Host.Cell) :
    Memory.wf m = true ↔ Map.sortedFrom 0 m = true ∧ m.all (fun c => c.2 != 0) = true := by
  simp [Memory.wf]

/-- The empty memory is in canonical form. -/
@[simp] theorem Memory.wf_nil : Memory.wf [] = true := rfl

/-- A write of one byte keeps the canonical form. -/
theorem Memory.wf_write (m : List Host.Cell) (a : Nat) (b : Byte) (h : Memory.wf m = true) :
    Memory.wf (Memory.write m a b) = true := by
  rw [Memory.wf_iff] at h ⊢
  unfold Memory.write Map.setD
  split
  · exact ⟨Map.sortedFrom_drop _ _ _ h.1, Map.all_drop _ _ _ h.2⟩
  · rename_i hb
    exact ⟨Map.sortedFrom_put _ _ _ _ h.1 (Nat.zero_le _), Map.all_put _ _ _ _ h.2 (by simpa using hb)⟩

/-- A write of bytes keeps the canonical form. -/
theorem Memory.wf_writeBytes (bs : List Byte) : ∀ (m : List Host.Cell) (a : Nat), Memory.wf m = true →
    Memory.wf (Memory.writeBytes m a bs) = true := by
  induction bs with
  | nil => intro m a h; exact h
  | cons b bs ih => intro m a h; exact ih _ _ (Memory.wf_write m a b h)

/-- Forgetting the bytes that meet a test keeps the canonical form. -/
theorem Memory.wf_filter (m : List Host.Cell) (f : Host.Cell → Bool) (h : Memory.wf m = true) :
    Memory.wf (m.filter f) = true := by
  rw [Memory.wf_iff] at h ⊢
  refine ⟨Map.sortedFrom_filter _ _ _ h.1, ?_⟩
  simp only [List.all_eq_true, List.mem_filter] at h ⊢
  exact fun c hc => h.2 c hc.1

/-- The byte written is the byte read. -/
theorem Memory.read_write_same (m : List Host.Cell) (a : Nat) (b : Byte) : Memory.read (Memory.write m a b) a = b := by
  unfold Memory.read Memory.write Map.getD Map.setD
  split
  · rename_i hb; simp [Map.find_drop_same, hb]
  · simp

/-- Every other byte reads as before. -/
theorem Memory.read_write_other (m : List Host.Cell) {a x : Nat} (b : Byte) (h : x ≠ a) :
    Memory.read (Memory.write m a b) x = Memory.read m x := by
  unfold Memory.read Memory.write Map.getD Map.setD
  split
  · rw [Map.find_drop_other _ h]
  · rw [Map.find_put_other _ _ h]

/-- Every byte outside the written ones reads as before. -/
theorem Memory.read_writeBytes_outside (bs : List Byte) : ∀ (m : List Host.Cell) (a x : Nat), (x < a ∨ a + bs.length ≤ x) →
    Memory.read (Memory.writeBytes m a bs) x = Memory.read m x := by
  induction bs with
  | nil => intros; rfl
  | cons b bs ih =>
    intro m a x h
    simp only [List.length_cons] at h
    show Memory.read (Memory.writeBytes (Memory.write m a b) (a + 1) bs) x = _
    rw [ih _ _ _ (by omega), Memory.read_write_other _ _ (by omega)]

/-- A written byte reads as it was written. -/
theorem Memory.read_writeBytes_inside (bs : List Byte) : ∀ (m : List Host.Cell) (a i : Nat) (h : i < bs.length),
    Memory.read (Memory.writeBytes m a bs) (a + i) = bs[i] := by
  induction bs with
  | nil => intro m a i h; exact absurd h (Nat.not_lt_zero _)
  | cons b bs ih =>
    intro m a i h
    show Memory.read (Memory.writeBytes (Memory.write m a b) (a + 1) bs) (a + i) = _
    cases i with
    | zero => rw [Memory.read_writeBytes_outside _ _ _ _ (by omega)]; exact Memory.read_write_same m a b
    | succ i =>
      rw [show a + (i + 1) = a + 1 + i by omega, ih _ _ i (by simpa using h)]
      rfl

/-- Bytes read back as they were written. -/
theorem Memory.readBytes_writeBytes (bs : List Byte) (m : List Host.Cell) (a : Nat) :
    Memory.readBytes (Memory.writeBytes m a bs) a bs.length = bs := by
  apply List.ext_getElem
  · simp [Memory.readBytes]
  · intro i h1 h2
    simp [Memory.readBytes, Memory.read_writeBytes_inside bs m a i h2]

/-- Equal reads make equal memories: the canonical form is the only one. -/
theorem Memory.ext_read {m n : List Host.Cell} (hm : Memory.wf m = true) (hn : Memory.wf n = true)
    (h : ∀ a, Memory.read m a = Memory.read n a) : m = n := by
  suffices H : ∀ (m n : List Host.Cell) (w : Nat), Map.sortedFrom w m = true → m.all (fun c => c.2 != 0) = true →
      Map.sortedFrom w n = true → n.all (fun c => c.2 != 0) = true → (∀ a, Map.getD m a 0 = Map.getD n a 0) → m = n by
    rw [Memory.wf_iff] at hm hn
    exact H m n 0 hm.1 hm.2 hn.1 hn.2 h
  intro m
  induction m with
  | nil =>
    intro n w _ _ hn1 hn2 h
    cases n with
    | nil => rfl
    | cons c n =>
      obtain ⟨k, b⟩ := c
      have := h k
      simp [Map.getD, Map.find] at this
      simp [← this] at hn2
  | cons c m ih =>
    obtain ⟨k, b⟩ := c
    intro n w hm1 hm2 hn1 hn2 h
    simp only [Map.sortedFrom, List.all_cons, Bool.and_eq_true, decide_eq_true_eq, bne_iff_ne, ne_eq] at hm1 hm2
    cases n with
    | nil => have := h k; simp [Map.getD, Map.find] at this; exact absurd this hm2.1
    | cons d n =>
      obtain ⟨j, x⟩ := d
      simp only [Map.sortedFrom, List.all_cons, Bool.and_eq_true, decide_eq_true_eq, bne_iff_ne, ne_eq] at hn1 hn2
      have hkj : k = j := by
        rcases Nat.lt_trichotomy k j with hlt | heq | hgt
        · have h1 := h k
          have h2 : Map.find n k = none := Map.find_below n (j + 1) k hn1.2 (by omega)
          simp [Map.getD, Map.find, h2, Nat.ne_of_lt hlt] at h1
          exact absurd h1 hm2.1
        · exact heq
        · have h1 := h j
          have h2 : Map.find m j = none := Map.find_below m (k + 1) j hm1.2 (by omega)
          simp [Map.getD, Map.find, h2, Nat.ne_of_lt hgt] at h1
          exact absurd h1.symm hn2.1
      subst hkj
      have hb : b = x := by simpa [Map.getD, Map.find] using h k
      subst hb
      congr 1
      refine ih n (k + 1) hm1.2 hm2.2 hn1.2 hn2.2 fun a => ?_
      by_cases ha : a = k
      · subst ha
        simp [Map.getD, Map.find_below m (a + 1) a hm1.2 (by omega), Map.find_below n (a + 1) a hn1.2 (by omega)]
      · simpa [Map.getD, Map.find, ha] using h a

end Sys2Proof.Machine
end

