-- ==== Sys2Proof/Laws/PerInstr.lean ====
section
/-! SUPPORT. Laws/PerInstr.lean: the family RoundTrip, one lemma per instruction: decoding the words that the encoder gives a
well-formed instruction answers that instruction. First the bits of a word's fields, then the forms, then the instructions. -/
namespace Sys2Proof.Laws.RoundTrip
open Sys2Proof

/-- What the family says of an instruction. -/
def Statement (i : Instr) : Prop :=
  i.wellFormed = true → decodeWords ⟨true, false, false⟩ (encode i) = .ok i.asDecoded

/-! ## The fields of a word -/

theorem take_low {n m lo k : Nat} (x : BitVec n) (y : BitVec m) (h : lo + k ≤ m) :
    (x ++ y).extractLsb' lo k = y.extractLsb' lo k := by
  apply BitVec.eq_of_getLsbD_eq
  intro i hi
  simp only [BitVec.getLsbD_extractLsb', BitVec.getLsbD_append, hi, decide_true, Bool.true_and]
  exact if_pos (by omega)
theorem take_high {n m lo k : Nat} (x : BitVec n) (y : BitVec m) (h : m ≤ lo) :
    (x ++ y).extractLsb' lo k = x.extractLsb' (lo - m) k := by
  apply BitVec.eq_of_getLsbD_eq
  intro i hi
  simp only [BitVec.getLsbD_extractLsb', BitVec.getLsbD_append, hi, decide_true, Bool.true_and]
  rw [if_neg (by omega), show lo + i - m = lo - m + i by omega]
theorem take_all {n : Nat} (x : BitVec n) : x.extractLsb' 0 n = x := by simp
/-- A field that spans both halves is zero when its parts are. -/
theorem zero_both {n m lo k : Nat} (x : BitVec n) (y : BitVec m) (h : lo < m ∧ m < lo + k) (hx : x.extractLsb' 0 (lo + k - m) = 0)
    (hy : y.extractLsb' lo (m - lo) = 0) : (x ++ y).extractLsb' lo k = 0 := by
  apply BitVec.eq_of_getLsbD_eq
  intro i hi
  simp only [BitVec.getLsbD_extractLsb', BitVec.getLsbD_append, hi, decide_true, Bool.true_and]
  by_cases hm : lo + i < m
  · have := congrArg (·.getLsbD i) hy
    simp only [BitVec.getLsbD_extractLsb', show i < m - lo by omega, decide_true, Bool.true_and] at this
    rw [if_pos hm]; simpa using this
  · have := congrArg (·.getLsbD (lo + i - m)) hx
    simp only [BitVec.getLsbD_extractLsb', show lo + i - m < lo + k - m by omega, decide_true, Bool.true_and, Nat.zero_add] at this
    rw [if_neg hm]; simpa using this

theorem low_3_3 (x : BitVec 3) (y : BitVec 3) (lo k : Nat) (h : lo + k ≤ 3) :
    BitVec.extractLsb' (n := 6) lo k (x ++ y) = y.extractLsb' lo k := take_low x y h
theorem high_3_3 (x : BitVec 3) (y : BitVec 3) (lo k : Nat) (h : 3 ≤ lo) :
    BitVec.extractLsb' (n := 6) lo k (x ++ y) = x.extractLsb' (lo - 3) k := take_high x y h
theorem low_4_3 (x : BitVec 4) (y : BitVec 3) (lo k : Nat) (h : lo + k ≤ 3) :
    BitVec.extractLsb' (n := 7) lo k (x ++ y) = y.extractLsb' lo k := take_low x y h
theorem high_4_3 (x : BitVec 4) (y : BitVec 3) (lo k : Nat) (h : 3 ≤ lo) :
    BitVec.extractLsb' (n := 7) lo k (x ++ y) = x.extractLsb' (lo - 3) k := take_high x y h
theorem low_1_6 (x : BitVec 1) (y : BitVec 6) (lo k : Nat) (h : lo + k ≤ 6) :
    BitVec.extractLsb' (n := 7) lo k (x ++ y) = y.extractLsb' lo k := take_low x y h
theorem high_1_6 (x : BitVec 1) (y : BitVec 6) (lo k : Nat) (h : 6 ≤ lo) :
    BitVec.extractLsb' (n := 7) lo k (x ++ y) = x.extractLsb' (lo - 6) k := take_high x y h
theorem low_8_5 (x : BitVec 8) (y : BitVec 5) (lo k : Nat) (h : lo + k ≤ 5) :
    BitVec.extractLsb' (n := 13) lo k (x ++ y) = y.extractLsb' lo k := take_low x y h
theorem high_8_5 (x : BitVec 8) (y : BitVec 5) (lo k : Nat) (h : 5 ≤ lo) :
    BitVec.extractLsb' (n := 13) lo k (x ++ y) = x.extractLsb' (lo - 5) k := take_high x y h
theorem low_9_6 (x : BitVec 9) (y : BitVec 6) (lo k : Nat) (h : lo + k ≤ 6) :
    BitVec.extractLsb' (n := 15) lo k (x ++ y) = y.extractLsb' lo k := take_low x y h
theorem high_9_6 (x : BitVec 9) (y : BitVec 6) (lo k : Nat) (h : 6 ≤ lo) :
    BitVec.extractLsb' (n := 15) lo k (x ++ y) = x.extractLsb' (lo - 6) k := take_high x y h
theorem low_11_2 (x : BitVec 11) (y : BitVec 2) (lo k : Nat) (h : lo + k ≤ 2) :
    BitVec.extractLsb' (n := 13) lo k (x ++ y) = y.extractLsb' lo k := take_low x y h
theorem high_11_2 (x : BitVec 11) (y : BitVec 2) (lo k : Nat) (h : 2 ≤ lo) :
    BitVec.extractLsb' (n := 13) lo k (x ++ y) = x.extractLsb' (lo - 2) k := take_high x y h
theorem low_5_8 (x : BitVec 5) (y : BitVec 8) (lo k : Nat) (h : lo + k ≤ 8) :
    BitVec.extractLsb' (n := 13) lo k (x ++ y) = y.extractLsb' lo k := take_low x y h
theorem high_5_8 (x : BitVec 5) (y : BitVec 8) (lo k : Nat) (h : 8 ≤ lo) :
    BitVec.extractLsb' (n := 13) lo k (x ++ y) = x.extractLsb' (lo - 8) k := take_high x y h
theorem low_2_4 (x : BitVec 2) (y : BitVec 4) (lo k : Nat) (h : lo + k ≤ 4) :
    BitVec.extractLsb' (n := 6) lo k (x ++ y) = y.extractLsb' lo k := take_low x y h
theorem high_2_4 (x : BitVec 2) (y : BitVec 4) (lo k : Nat) (h : 4 ≤ lo) :
    BitVec.extractLsb' (n := 6) lo k (x ++ y) = x.extractLsb' (lo - 4) k := take_high x y h
theorem low_1_3 (x : BitVec 1) (y : BitVec 3) (lo k : Nat) (h : lo + k ≤ 3) :
    BitVec.extractLsb' (n := 4) lo k (x ++ y) = y.extractLsb' lo k := take_low x y h
theorem high_1_3 (x : BitVec 1) (y : BitVec 3) (lo k : Nat) (h : 3 ≤ lo) :
    BitVec.extractLsb' (n := 4) lo k (x ++ y) = x.extractLsb' (lo - 3) k := take_high x y h
theorem low_3_1 (x : BitVec 3) (y : BitVec 1) (lo k : Nat) (h : lo + k ≤ 1) :
    BitVec.extractLsb' (n := 4) lo k (x ++ y) = y.extractLsb' lo k := take_low x y h
theorem high_3_1 (x : BitVec 3) (y : BitVec 1) (lo k : Nat) (h : 1 ≤ lo) :
    BitVec.extractLsb' (n := 4) lo k (x ++ y) = x.extractLsb' (lo - 1) k := take_high x y h
theorem low_3_18 (x : BitVec 3) (y : BitVec 18) (lo k : Nat) (h : lo + k ≤ 18) :
    BitVec.extractLsb' (n := 21) lo k (x ++ y) = y.extractLsb' lo k := take_low x y h
theorem high_3_18 (x : BitVec 3) (y : BitVec 18) (lo k : Nat) (h : 18 ≤ lo) :
    BitVec.extractLsb' (n := 21) lo k (x ++ y) = x.extractLsb' (lo - 18) k := take_high x y h
theorem low_7_6 (x : BitVec 7) (y : BitVec 6) (lo k : Nat) (h : lo + k ≤ 6) :
    BitVec.extractLsb' (n := 13) lo k (x ++ y) = y.extractLsb' lo k := take_low x y h
theorem high_7_6 (x : BitVec 7) (y : BitVec 6) (lo k : Nat) (h : 6 ≤ lo) :
    BitVec.extractLsb' (n := 13) lo k (x ++ y) = x.extractLsb' (lo - 6) k := take_high x y h
theorem low_3_2 (x : BitVec 3) (y : BitVec 2) (lo k : Nat) (h : lo + k ≤ 2) :
    BitVec.extractLsb' (n := 5) lo k (x ++ y) = y.extractLsb' lo k := take_low x y h
theorem high_3_2 (x : BitVec 3) (y : BitVec 2) (lo k : Nat) (h : 2 ≤ lo) :
    BitVec.extractLsb' (n := 5) lo k (x ++ y) = x.extractLsb' (lo - 2) k := take_high x y h

/-! ## The codes of the fields -/

theorem bit_eq (b : Bool) : (Bool.bit b = 1) = (b = true) := by cases b <;> simp [Bool.bit]
theorem bit_flag (b : Bool) : (Bool.bit b == 1) = b := by cases b <;> rfl
theorem wide_code (b : Bool) : (match ((1#1 ++ Bool.bit b : BitVec 2)).toNat with | 2 => some false | 3 => some true | _ => none) = some b := by
  cases b <;> rfl
theorem guard_bits (g : Guard) : Guard.ofBits g.bits = g := by
  rcases g with ⟨n, q⟩
  simp (disch := decide) only [Guard.ofBits, Guard.bits, low_1_3, high_1_3, take_all, Nat.reduceSub, bit_eq, Bool.decide_eq_true]
theorem laneSrc_bits (b : LaneSrc) : LaneSrc.ofBits b.bits = b := by
  cases b <;> simp (disch := decide) only [LaneSrc.ofBits, LaneSrc.bits, low_1_6, high_1_6, take_all, Nat.reduceSub] <;> rfl
theorem hold_bits (h : Hold) : Hold.ofBits h.bits = h := by cases h <;> rfl
theorem size_bits (z : Size) : Size.ofBits z.bits = z := by cases z <;> rfl
theorem scope_bits (e : Scope) : Scope.ofBits e.bits = some e := by cases e <;> rfl
theorem hint_bits (h : Hint) : Hint.ofBits h.bits = h := by cases h <;> rfl
theorem atomOp_bits (o : AtomOp) : AtomOp.ofBits o.bits = some o := by cases o <;> rfl
theorem cond_bits (c : Cond) : Cond.ofBits c.bits = c := by cases c <;> rfl
theorem fcond_bits (c : FCond) : FCond.ofBits c.bits = c := by cases c <;> rfl
theorem waitCond_bits (c : WaitCond) : WaitCond.ofBits c.bits = c := by cases c <;> rfl
theorem cmb_bits (m : Cmb) : Cmb.ofBits m.bits = some m := by cases m <;> rfl
theorem rnd_bits (r : Rnd) : Rnd.ofBits r.bits = some r := by
  cases r with
  | dyn => rfl
  | mode m => cases m <;> rfl
theorem cvtCode_bits (c : CvtCode) : CvtCode.ofBits c.bits = some c := by cases c <;> rfl
theorem reduOp_bits (o : ReduOp) : ReduOp.ofBits o.bits = o := by cases o <;> rfl
theorem qfmt_bits (q : QFmt) : QFmt.ofBits q.bits = some q := by cases q <;> rfl
theorem repTy_bits (t : RepTy) : RepTy.ofBits t.bits = some t := by cases t <;> rfl
theorem prefKind_bits (k : PrefKind) : PrefKind.ofBits k.bits = some k := by cases k <;> rfl
theorem matFn_bits (n : MatFn) : MatFn.ofBits n.bits = some n := by cases n <;> rfl


/-! ## What decoding a word asks -/

theorem cause_none {i : Instr} (h1 : i.illegalCode = false) (h2 : i.reservedUse = false) (h3 : i.badPair = false)
    (h4 : i.badBase = false) : i.operandCause = none := by
  simp [Instr.operandCause, h1, h2, h3, h4]
theorem guard_used {g : Guard} (h : g.ok = true) : (g.bits == 0xF) = false := by
  have : ∀ (n : Bool) (q : BitVec 3), Guard.ok ⟨n, q⟩ = true → (Guard.bits ⟨n, q⟩ == 0xF) = false := by decide
  exact this g.neg g.q h
theorem guarded_not_ones {w : BitVec 32} {g : Guard} (hw : fld w 0 4 = g.bits) (h : g.ok = true) : w ≠ 0xFFFFFFFF := by
  rintro rfl
  have := guard_used h
  rw [← hw] at this
  exact absurd this (by decide)
theorem major_not_ones {w : BitVec 32} {maj : Nat} (hw : (fld w 25 6).toNat = maj) (h : maj ≠ 0x3F) : w ≠ 0xFFFFFFFF := by
  rintro rfl
  exact h (hw ▸ by decide)
theorem uniform_trip {i : Instr} {w : BitVec 32} {rest : List (BitVec 32)} {maj fn : Nat} (he : encode i = w :: rest)
    (hu : fld w 31 1 = 1) (hm : (fld w 25 6).toNat = maj) (hn : (fld w 4 3).toNat = fn)
    (ha : assignedMajor true maj = true) (hf : i.wellFormed = true → w ≠ 0xFFFFFFFF)
    (hp : i.wellFormed = true → parseUniform maj fn w (rest.getD 0 0) = .ok i.asDecoded)
    (hc : i.wellFormed = true → i.asDecoded.operandCause = none) : Statement i := by
  intro h
  subst hm hn
  have hl : (encode i).getD 1 0 = rest.getD 0 0 := by rw [he]; rfl
  have hw : (w == 0xFFFFFFFF) = false := by simpa using hf h
  have hd : fFlag w 31 = true := by simp [fFlag, hu]
  rw [decodeWords, hl, he]
  simp only [List.getD_cons_zero, decodeWord, hw, hd, ha, hp h, hc h, excluded, Bool.not_true, Bool.false_eq_true,
    Bool.and_false, Bool.false_and, if_false, if_true]
theorem lane_trip {i : Instr} {w : BitVec 32} {maj fn : Nat} (he : encode i = [w])
    (hu : fld w 31 1 = 0) (hm : (fld w 25 6).toNat = maj) (hn : (fld w 3 3).toNat = fn)
    (ha : assignedMajor false maj = true) (hp : parseLane maj fn w = .ok i.asDecoded)
    (hc : i.wellFormed = true → i.asDecoded.operandCause = none) : Statement i := by
  intro h
  subst hm hn
  have hd : fFlag w 31 = false := by simp [fFlag, hu]
  have hw : (w == 0xFFFFFFFF) = false := by
    refine beq_eq_false_iff_ne.mpr ?_
    rintro rfl
    exact absurd hu (by decide)
  rw [decodeWords, he]
  simp only [List.getD_cons_zero, decodeWord, hw, hd, ha, hp, hc h, excluded, Bool.not_true, Bool.false_eq_true,
    Bool.and_false, Bool.false_and, if_false]
/-- A step that is no word is not well-formed. -/
theorem no_word {i : Instr} (h : i.wellFormed = false) : Statement i := fun h' => absurd (h.symm.trans h') (by decide)

/-! ## The forms of uniform words -/

theorem uWord_trip {i : Instr} {maj d a b : BitVec 6} {fd : BitVec 3} {g : Guard} {rest : List (BitVec 32)} (fn : Nat) (he : encode i = uWord maj d a b fd g :: rest)
    (hn : (fld (uWord maj d a b fd g) 4 3).toNat = fn) (ha : assignedMajor true maj.toNat = true) (hg : i.wellFormed = true → g.ok = true)
    (hp : i.wellFormed = true → parseUniform maj.toNat fn (uWord maj d a b fd g) (rest.getD 0 0) = .ok i.asDecoded)
    (hc : i.wellFormed = true → i.asDecoded.operandCause = none) : Statement i := by
  refine uniform_trip he ?_ ?_ hn ha (fun h => guarded_not_ones (g := g) ?_ (hg h)) hp hc <;>
    simp (disch := decide) only [fld, uWord, take_low, take_high, take_all, Nat.reduceSub] <;> rfl
theorem uiWord_trip {i : Instr} {maj d : BitVec 6} {n : BitVec 15} {g : Guard} {rest : List (BitVec 32)} (fn : Nat) (he : encode i = uiWord maj d n g :: rest)
    (hn : (fld (uiWord maj d n g) 4 3).toNat = fn) (ha : assignedMajor true maj.toNat = true) (hg : i.wellFormed = true → g.ok = true)
    (hp : i.wellFormed = true → parseUniform maj.toNat fn (uiWord maj d n g) (rest.getD 0 0) = .ok i.asDecoded)
    (hc : i.wellFormed = true → i.asDecoded.operandCause = none) : Statement i := by
  refine uniform_trip he ?_ ?_ hn ha (fun h => guarded_not_ones (g := g) ?_ (hg h)) hp hc <;>
    simp (disch := decide) only [fld, uiWord, take_low, take_high, take_all, Nat.reduceSub] <;> rfl
theorem ucmpiWord_trip {i : Instr} {maj a : BitVec 6} {q : BitVec 3} {n : BitVec 9} {c : Cond} {g : Guard} {rest : List (BitVec 32)} (fn : Nat) (he : encode i = ucmpiWord maj c q a n g :: rest)
    (hn : (fld (ucmpiWord maj c q a n g) 4 3).toNat = fn) (ha : assignedMajor true maj.toNat = true) (hg : i.wellFormed = true → g.ok = true)
    (hp : i.wellFormed = true → parseUniform maj.toNat fn (ucmpiWord maj c q a n g) (rest.getD 0 0) = .ok i.asDecoded)
    (hc : i.wellFormed = true → i.asDecoded.operandCause = none) : Statement i := by
  refine uniform_trip he ?_ ?_ hn ha (fun h => guarded_not_ones (g := g) ?_ (hg h)) hp hc <;>
    simp (disch := decide) only [fld, ucmpiWord, take_low, take_high, take_all, Nat.reduceSub] <;> rfl
theorem umWord_trip {i : Instr} {maj d sb : BitVec 6} {n : BitVec 7} {z : Size} {g : Guard} {rest : List (BitVec 32)} (fn : Nat) (he : encode i = umWord maj d sb n z g :: rest)
    (hn : (fld (umWord maj d sb n z g) 4 3).toNat = fn) (ha : assignedMajor true maj.toNat = true) (hg : i.wellFormed = true → g.ok = true)
    (hp : i.wellFormed = true → parseUniform maj.toNat fn (umWord maj d sb n z g) (rest.getD 0 0) = .ok i.asDecoded)
    (hc : i.wellFormed = true → i.asDecoded.operandCause = none) : Statement i := by
  refine uniform_trip he ?_ ?_ hn ha (fun h => guarded_not_ones (g := g) ?_ (hg h)) hp hc <;>
    simp (disch := decide) only [fld, umWord, take_low, take_high, take_all, Nat.reduceSub] <;> rfl
theorem umoWord_trip {i : Instr} {maj d sb : BitVec 6} {e : Scope} {wide : Bool} {op : BitVec 4} {g : Guard} {rest : List (BitVec 32)} (fn : Nat) (he : encode i = umoWord maj d sb e wide op g :: rest)
    (hn : (fld (umoWord maj d sb e wide op g) 4 3).toNat = fn) (ha : assignedMajor true maj.toNat = true) (hg : i.wellFormed = true → g.ok = true)
    (hp : i.wellFormed = true → parseUniform maj.toNat fn (umoWord maj d sb e wide op g) (rest.getD 0 0) = .ok i.asDecoded)
    (hc : i.wellFormed = true → i.asDecoded.operandCause = none) : Statement i := by
  refine uniform_trip he ?_ ?_ hn ha (fun h => guarded_not_ones (g := g) ?_ (hg h)) hp hc <;>
    simp (disch := decide) only [fld, umoWord, take_low, take_high, take_all, Nat.reduceSub] <;> rfl
theorem uwWord_trip {i : Instr} {maj l st : BitVec 6} {c : BitVec 5} {m : BitVec 4} {g : Guard} {rest : List (BitVec 32)} (fn : Nat) (he : encode i = uwWord maj l st c m g :: rest)
    (hn : (fld (uwWord maj l st c m g) 4 3).toNat = fn) (ha : assignedMajor true maj.toNat = true) (hg : i.wellFormed = true → g.ok = true)
    (hp : i.wellFormed = true → parseUniform maj.toNat fn (uwWord maj l st c m g) (rest.getD 0 0) = .ok i.asDecoded)
    (hc : i.wellFormed = true → i.asDecoded.operandCause = none) : Statement i := by
  refine uniform_trip he ?_ ?_ hn ha (fun h => guarded_not_ones (g := g) ?_ (hg h)) hp hc <;>
    simp (disch := decide) only [fld, uwWord, take_low, take_high, take_all, Nat.reduceSub] <;> rfl
theorem srWord_trip {i : Instr} {maj d : BitVec 6} {n : BitVec 12} {fd : BitVec 3} {g : Guard} {rest : List (BitVec 32)} (fn : Nat) (he : encode i = srWord maj d n fd g :: rest)
    (hn : (fld (srWord maj d n fd g) 4 3).toNat = fn) (ha : assignedMajor true maj.toNat = true) (hg : i.wellFormed = true → g.ok = true)
    (hp : i.wellFormed = true → parseUniform maj.toNat fn (srWord maj d n fd g) (rest.getD 0 0) = .ok i.asDecoded)
    (hc : i.wellFormed = true → i.asDecoded.operandCause = none) : Statement i := by
  refine uniform_trip he ?_ ?_ hn ha (fun h => guarded_not_ones (g := g) ?_ (hg h)) hp hc <;>
    simp (disch := decide) only [fld, srWord, take_low, take_high, take_all, Nat.reduceSub] <;> rfl
theorem ubarWord_trip {i : Instr} {maj a d : BitVec 6} {id : BitVec 4} {kind : BitVec 2} {e : Scope} {g : Guard} {rest : List (BitVec 32)} (fn : Nat) (he : encode i = ubarWord maj id e kind a d g :: rest)
    (hn : (fld (ubarWord maj id e kind a d g) 4 3).toNat = fn) (ha : assignedMajor true maj.toNat = true) (hg : i.wellFormed = true → g.ok = true)
    (hp : i.wellFormed = true → parseUniform maj.toNat fn (ubarWord maj id e kind a d g) (rest.getD 0 0) = .ok i.asDecoded)
    (hc : i.wellFormed = true → i.asDecoded.operandCause = none) : Statement i := by
  refine uniform_trip he ?_ ?_ hn ha (fun h => guarded_not_ones (g := g) ?_ (hg h)) hp hc <;>
    simp (disch := decide) only [fld, ubarWord, take_low, take_high, take_all, Nat.reduceSub] <;> rfl
theorem uwmkWord_trip {i : Instr} {maj : BitVec 6} {sig : BitVec 16} {g : Guard} {rest : List (BitVec 32)} (fn : Nat) (he : encode i = uwmkWord maj sig g :: rest)
    (hn : (fld (uwmkWord maj sig g) 4 3).toNat = fn) (ha : assignedMajor true maj.toNat = true) (hg : i.wellFormed = true → g.ok = true)
    (hp : i.wellFormed = true → parseUniform maj.toNat fn (uwmkWord maj sig g) (rest.getD 0 0) = .ok i.asDecoded)
    (hc : i.wellFormed = true → i.asDecoded.operandCause = none) : Statement i := by
  refine uniform_trip he ?_ ?_ hn ha (fun h => guarded_not_ones (g := g) ?_ (hg h)) hp hc <;>
    simp (disch := decide) only [fld, uwmkWord, take_low, take_high, take_all, Nat.reduceSub] <;> rfl
theorem ubWord_trip {i : Instr} {maj : BitVec 6} {o : BitVec 21} {low : BitVec 4} {rest : List (BitVec 32)} (he : encode i = ubWord maj o low :: rest)
    (ha : assignedMajor true maj.toNat = true) (hn : maj.toNat ≠ 0x3F)
    (hp : ∀ fn, parseUniform maj.toNat fn (ubWord maj o low) (rest.getD 0 0) = .ok i.asDecoded)
    (hc : i.wellFormed = true → i.asDecoded.operandCause = none) : Statement i := by
  have hm : (fld (ubWord maj o low) 25 6).toNat = maj.toNat := by
    simp (disch := decide) only [fld, ubWord, take_low, take_high, take_all, Nat.reduceSub]
  refine uniform_trip he ?_ hm rfl ha (fun _ => major_not_ones hm hn) (fun _ => hp _) hc
  simp (disch := decide) only [fld, ubWord, take_high, take_all, Nat.reduceSub] <;> rfl
theorem ucpyWord_trip {i : Instr} {maj cb : BitVec 6} {h : BitVec 8} {t : BitVec 4} {fd : BitVec 2} {cr : BitVec 3} {y : Bool} {rest : List (BitVec 32)}
    (he : encode i = ucpyWord maj h t cb fd cr y :: rest)
    (ha : assignedMajor true maj.toNat = true) (hn : maj.toNat ≠ 0x3F)
    (hp : ∀ fn, parseUniform maj.toNat fn (ucpyWord maj h t cb fd cr y) (rest.getD 0 0) = .ok i.asDecoded)
    (hc : i.wellFormed = true → i.asDecoded.operandCause = none) : Statement i := by
  have hm : (fld (ucpyWord maj h t cb fd cr y) 25 6).toNat = maj.toNat := by
    simp (disch := decide) only [fld, ucpyWord, take_low, take_high, take_all, Nat.reduceSub]
  refine uniform_trip he ?_ hm rfl ha (fun _ => major_not_ones hm hn) (fun _ => hp _) hc
  simp (disch := decide) only [fld, ucpyWord, take_high, take_all, Nat.reduceSub] <;> rfl

/-! ## The forms of lane words -/

theorem laWord_trip {i : Instr} {maj d a : BitVec 6} {b : BitVec 7} {fd : BitVec 3} {hd : Hold} (fn : Nat) (he : encode i = [laWord maj d a b fd hd])
    (hn : (fld (laWord maj d a b fd hd) 3 3).toNat = fn) (ha : assignedMajor false maj.toNat = true)
    (hp : parseLane maj.toNat fn (laWord maj d a b fd hd) = .ok i.asDecoded)
    (hc : i.wellFormed = true → i.asDecoded.operandCause = none) : Statement i := by
  refine lane_trip he ?_ ?_ hn ha hp hc <;>
    simp (disch := decide) only [fld, laWord, take_low, take_high, take_all, Nat.reduceSub] <;> rfl
theorem liWord_trip {i : Instr} {maj d a : BitVec 6} {n : BitVec 13} (fn : Nat) (he : encode i = [liWord maj d a n])
    (hn : (fld (liWord maj d a n) 3 3).toNat = fn) (ha : assignedMajor false maj.toNat = true)
    (hp : parseLane maj.toNat fn (liWord maj d a n) = .ok i.asDecoded)
    (hc : i.wellFormed = true → i.asDecoded.operandCause = none) : Statement i := by
  refine lane_trip he ?_ ?_ hn ha hp hc <;>
    simp (disch := decide) only [fld, liWord, take_low, take_high, take_all, Nat.reduceSub] <;> rfl
theorem ltWord_trip {i : Instr} {maj d a b c : BitVec 6} {fd : BitVec 1} (fn : Nat) (he : encode i = [ltWord maj d a b c fd])
    (hn : (fld (ltWord maj d a b c fd) 3 3).toNat = fn) (ha : assignedMajor false maj.toNat = true)
    (hp : parseLane maj.toNat fn (ltWord maj d a b c fd) = .ok i.asDecoded)
    (hc : i.wellFormed = true → i.asDecoded.operandCause = none) : Statement i := by
  refine lane_trip he ?_ ?_ hn ha hp hc <;>
    simp (disch := decide) only [fld, ltWord, take_low, take_high, take_all, Nat.reduceSub] <;> rfl
theorem lcWord_trip {i : Instr} {maj a : BitVec 6} {pd c ps : BitVec 3} {b : LaneSrc} {m : Cmb} (fn : Nat) (he : encode i = [lcWord maj pd m a b c ps])
    (hn : (fld (lcWord maj pd m a b c ps) 3 3).toNat = fn) (ha : assignedMajor false maj.toNat = true)
    (hp : parseLane maj.toNat fn (lcWord maj pd m a b c ps) = .ok i.asDecoded)
    (hc : i.wellFormed = true → i.asDecoded.operandCause = none) : Statement i := by
  refine lane_trip he ?_ ?_ hn ha hp hc <;>
    simp (disch := decide) only [fld, lcWord, take_low, take_high, take_all, Nat.reduceSub] <;> rfl
theorem lmWord_trip {i : Instr} {maj d a sb : BitVec 6} {z : Size} {c : BitVec 2} {ht : Hint} {x : Bool} (fn : Nat) (he : encode i = [lmWord maj d a sb z c ht x])
    (hn : (fld (lmWord maj d a sb z c ht x) 3 3).toNat = fn) (ha : assignedMajor false maj.toNat = true)
    (hp : parseLane maj.toNat fn (lmWord maj d a sb z c ht x) = .ok i.asDecoded)
    (hc : i.wellFormed = true → i.asDecoded.operandCause = none) : Statement i := by
  refine lane_trip he ?_ ?_ hn ha hp hc <;>
    simp (disch := decide) only [fld, lmWord, take_low, take_high, take_all, Nat.reduceSub] <;> rfl
theorem lmoWord_trip {i : Instr} {maj d a sb : BitVec 6} {wide : Bool} {e : Scope} (fn : Nat) (he : encode i = [lmoWord maj d a sb wide e])
    (hn : (fld (lmoWord maj d a sb wide e) 3 3).toNat = fn) (ha : assignedMajor false maj.toNat = true)
    (hp : parseLane maj.toNat fn (lmoWord maj d a sb wide e) = .ok i.asDecoded)
    (hc : i.wellFormed = true → i.asDecoded.operandCause = none) : Statement i := by
  refine lane_trip he ?_ ?_ hn ha hp hc <;>
    simp (disch := decide) only [fld, lmoWord, take_low, take_high, take_all, Nat.reduceSub] <;> rfl
theorem lmaWord_trip {i : Instr} {maj d a sb : BitVec 6} {op : AtomOp} {e : Scope} (fn : Nat) (he : encode i = [lmaWord maj d a sb op e])
    (hn : (fld (lmaWord maj d a sb op e) 3 3).toNat = fn) (ha : assignedMajor false maj.toNat = true)
    (hp : parseLane maj.toNat fn (lmaWord maj d a sb op e) = .ok i.asDecoded)
    (hc : i.wellFormed = true → i.asDecoded.operandCause = none) : Statement i := by
  refine lane_trip he ?_ ?_ hn ha hp hc <;>
    simp (disch := decide) only [fld, lmaWord, take_low, take_high, take_all, Nat.reduceSub] <;> rfl
theorem lcasWord_trip {i : Instr} {maj d a sb : BitVec 6} {e : Scope} {wide ord : Bool} (fn : Nat) (he : encode i = [lcasWord maj d a sb e wide ord])
    (hn : (fld (lcasWord maj d a sb e wide ord) 3 3).toNat = fn) (ha : assignedMajor false maj.toNat = true)
    (hp : parseLane maj.toNat fn (lcasWord maj d a sb e wide ord) = .ok i.asDecoded)
    (hc : i.wellFormed = true → i.asDecoded.operandCause = none) : Statement i := by
  refine lane_trip he ?_ ?_ hn ha hp hc <;>
    simp (disch := decide) only [fld, lcasWord, take_low, take_high, take_all, Nat.reduceSub] <;> rfl
theorem lqWord_trip {i : Instr} {maj d a sb : BitVec 6} {f : BitVec 2} {r : BitVec 5} (fn : Nat) (he : encode i = [lqWord maj d a sb f r])
    (hn : (fld (lqWord maj d a sb f r) 3 3).toNat = fn) (ha : assignedMajor false maj.toNat = true)
    (hp : parseLane maj.toNat fn (lqWord maj d a sb f r) = .ok i.asDecoded)
    (hc : i.wellFormed = true → i.asDecoded.operandCause = none) : Statement i := by
  refine lane_trip he ?_ ?_ hn ha hp hc <;>
    simp (disch := decide) only [fld, lqWord, take_low, take_high, take_all, Nat.reduceSub] <;> rfl
theorem ltlWord_trip {i : Instr} {maj d a : BitVec 6} {h : BitVec 8} {z : Size} {x : Bool} (fn : Nat) (he : encode i = [ltlWord maj d a h z x])
    (hn : (fld (ltlWord maj d a h z x) 3 3).toNat = fn) (ha : assignedMajor false maj.toNat = true)
    (hp : parseLane maj.toNat fn (ltlWord maj d a h z x) = .ok i.asDecoded)
    (hc : i.wellFormed = true → i.asDecoded.operandCause = none) : Statement i := by
  refine lane_trip he ?_ ?_ hn ha hp hc <;>
    simp (disch := decide) only [fld, ltlWord, take_low, take_high, take_all, Nat.reduceSub] <;> rfl
theorem lxWord_trip {i : Instr} {maj d a f : BitVec 6} {shp : BitVec 5} {n : MatFn} (fn : Nat) (he : encode i = [lxWord maj d a f shp n])
    (hn : (fld (lxWord maj d a f shp n) 3 3).toNat = fn) (ha : assignedMajor false maj.toNat = true)
    (hp : parseLane maj.toNat fn (lxWord maj d a f shp n) = .ok i.asDecoded)
    (hc : i.wellFormed = true → i.asDecoded.operandCause = none) : Statement i := by
  refine lane_trip he ?_ ?_ hn ha hp hc <;>
    simp (disch := decide) only [fld, lxWord, take_low, take_high, take_all, Nat.reduceSub] <;> rfl
theorem word_fn {maj d a b : BitVec 6} {fd : BitVec 3} {g : Guard} : (fld (uWord maj d a b fd g) 4 3).toNat = fd.toNat := by
  simp (disch := decide) only [fld, uWord, take_low, take_high, take_all, Nat.reduceSub]
theorem sr_fn {maj d : BitVec 6} {n : BitVec 12} {fd : BitVec 3} {g : Guard} : (fld (srWord maj d n fd g) 4 3).toNat = fd.toNat := by
  simp (disch := decide) only [fld, srWord, take_low, take_high, take_all, Nat.reduceSub]
theorem la_fn {maj d a : BitVec 6} {b : BitVec 7} {fd : BitVec 3} {hd : Hold} : (fld (laWord maj d a b fd hd) 3 3).toNat = fd.toNat := by
  simp (disch := decide) only [fld, laWord, take_low, take_high, take_all, Nat.reduceSub]

/-! ## Parsing the forms -/

theorem zeros_7_12 {maj d : BitVec 6} {fd : BitVec 3} {g : Guard} : zero (uWord maj d 0 0 fd g) 7 12 = true := by
  simp (disch := decide) only [zero, fld, uWord, take_high, Nat.reduceSub]
  exact beq_iff_eq.mpr (zero_both _ _ (by decide) ((take_low _ _ (by decide)).trans (take_all _)) (take_all _))
theorem zeros_7_18 {maj : BitVec 6} {fd : BitVec 3} {g : Guard} : zero (uWord maj 0 0 0 fd g) 7 18 = true := by
  simp (disch := decide) only [zero, fld, uWord, take_high, Nat.reduceSub]
  exact beq_iff_eq.mpr (zero_both _ _ (by decide)
    (zero_both _ _ (by decide) ((take_low _ _ (by decide)).trans (take_all _)) (take_all _)) (take_all _))
theorem zeros_11_14 {maj : BitVec 6} {n : BitVec 4} {fd : BitVec 3} {g : Guard} :
    zero (uWord maj 0 0 (0#2 ++ n) fd g) 11 14 = true := by
  simp (disch := decide) only [zero, fld, uWord, take_high, Nat.reduceSub]
  exact beq_iff_eq.mpr (zero_both _ _ (by decide)
    (zero_both _ _ (by decide) ((take_low _ _ (by decide)).trans (take_all _)) (take_all _)) (by
      simp (disch := decide) only [high_2_4, take_all, Nat.reduceSub] <;> rfl))

theorem ua3_word (maj d a b fd g mk) : ua3 (uWord maj d a b fd g) mk = .ok (mk d a b g) := by
  simp (disch := decide) only [ua3, uWord, fD, fA, fB, fG, fld, take_low, take_high, take_all, Nat.reduceSub, guard_bits]
theorem ua2_word (maj d a fd g mk) : ua2 (uWord maj d a 0 fd g) mk = .ok (mk d a g) := by
  simp (disch := decide) only [ua2, uWord, need, zero, fD, fA, fG, fld, take_low, take_high, take_all, Nat.reduceSub, guard_bits] <;> rfl
theorem uaA_word (maj a fd g mk) : uaA (uWord maj 0 a 0 fd g) mk = .ok (mk a g) := by
  simp (disch := decide) only [uaA, uWord, need, zero, fA, fG, fld, take_low, take_high, take_all, Nat.reduceSub, guard_bits] <;> rfl
theorem latch0_word (maj a fd g mk0 mk1) : latch (uWord maj 0 a 0 fd g) mk0 mk1 = .ok (mk0 a g) := by
  simp (disch := decide) only [latch, uWord, need, zero, fA, fG, fFlag, fld, take_low, take_high, take_all, Nat.reduceSub, guard_bits] <;> rfl
theorem latch1_word (maj a fd g mk0 mk1) : latch (uWord maj 0 a 1 fd g) mk0 mk1 = .ok (mk1 a g) := by
  simp (disch := decide) only [latch, uWord, need, zero, fA, fG, fFlag, fld, take_low, take_high, take_all, Nat.reduceSub, guard_bits] <;> rfl
theorem uaD_word (maj d fd g mk) : uaD (uWord maj d 0 0 fd g) mk = .ok (mk d g) := by
  simp only [uaD, zeros_7_12]
  simp (disch := decide) only [uWord, need, fD, fG, fld, take_low, take_high, take_all, Nat.reduceSub, guard_bits] <;> rfl
theorem ua0_word (maj fd g mk) : ua0 (uWord maj 0 0 0 fd g) mk = .ok (mk g) := by
  simp only [ua0, zeros_7_18]
  simp (disch := decide) only [uWord, need, fG, fld, take_low, take_all, guard_bits] <;> rfl
theorem uaK3_word (maj n fd g mk) : uaK3 (uWord maj (0#3 ++ n) 0 0 fd g) mk = .ok (mk n g) := by
  simp only [uaK3, zeros_7_12]
  simp (disch := decide) only [uWord, need, zero, fG, fld, take_low, take_high, take_all, Nat.reduceSub, low_3_3, high_3_3, guard_bits] <;> rfl
theorem uaK_word3 (maj n a fd g mk) : uaK (uWord maj (0#3 ++ n) a 0 fd g) 3 mk = .ok (mk n a g) := by
  simp (disch := decide) only [uaK, uWord, need, zero, fA, fG, fld, take_low, take_high, take_all, Nat.reduceSub, low_3_3, high_3_3, guard_bits] <;> rfl
theorem uaK_word4 (maj n a fd g mk) : uaK (uWord maj (0#2 ++ n) a 0 fd g) 4 mk = .ok (mk n a g) := by
  simp (disch := decide) only [uaK, uWord, need, zero, fA, fG, fld, take_low, take_high, take_all, Nat.reduceSub, low_2_4, high_2_4, guard_bits] <;> rfl
theorem queueLane_word (maj d a p fd g mk) : queueLane (uWord maj d a (0#3 ++ p) fd g) mk = .ok (mk d a p g) := by
  simp (disch := decide) only [queueLane, uWord, need, zero, fD, fA, fG, fld, take_low, take_high, take_all, Nat.reduceSub, low_3_3, high_3_3, guard_bits] <;> rfl
theorem qlog_word (maj d a b fd g mk) : qlog (uWord maj (0#3 ++ d) (0#3 ++ a) (0#3 ++ b) fd g) mk = .ok (mk d a b g) := by
  simp (disch := decide) only [qlog, uWord, need, zero, fG, fld, take_low, take_high, take_all, Nat.reduceSub, low_3_3, high_3_3, guard_bits] <;> rfl
theorem ulit_word (maj d lit fd g mk) : ulitForm (uWord maj d 0 0 fd g) lit mk = .ok (mk d lit g) := by
  simp only [ulitForm, zeros_7_12]
  simp (disch := decide) only [uWord, need, fD, fG, fld, take_low, take_high, take_all, Nat.reduceSub, guard_bits] <;> rfl
theorem redu_word (maj d a fd g f) : redu (uWord maj d a 0 fd g) f = .ok (.redu d a f g) := by
  simp (disch := decide) only [redu, uWord, need, zero, fD, fA, fG, fld, take_low, take_high, take_all, Nat.reduceSub, guard_bits] <;> rfl
theorem fence_word (maj e fd g mk) : fence (uWord maj 0 (0#3 ++ Scope.bits e) 0 fd g) mk = .ok (mk e g) := by
  simp (disch := decide) only [fence, uWord, need, code, zero, fG, fSc, fld, take_low, take_high, take_all, Nat.reduceSub, guard_bits, scope_bits] <;> rfl
theorem ui_word (maj d n g mk) : ui (uiWord maj d n g) mk = .ok (mk d n g) := by
  simp (disch := decide) only [ui, uiWord, fD, fG, fld, take_low, take_high, take_all, Nat.reduceSub, guard_bits]
theorem uiShift_word (maj d n g mk) : uiShift (uiWord maj d (0#9 ++ n) g) mk = .ok (mk d n g) := by
  simp (disch := decide) only [uiShift, uiWord, need, zero, fD, fG, fld, take_low, take_high, take_all, Nat.reduceSub, low_9_6, high_9_6, guard_bits] <;> rfl
theorem sr_word (maj d n fd g mk) : specialReg (srWord maj d n fd g) mk = .ok (mk d n g) := by
  simp (disch := decide) only [specialReg, srWord, fD, fG, fld, take_low, take_high, take_all, Nat.reduceSub, guard_bits]
theorem wide_field {w : BitVec 32} {lo : Nat} {wide : Bool} (h : fld w lo 2 = 1#1 ++ Bool.bit wide) : fWide w lo = some wide := by
  rw [fWide, h]
  exact wide_code wide
theorem take_join {n m k : Nat} (x : BitVec n) (y : BitVec m) (z : BitVec k) : (x ++ y ++ z).extractLsb' 0 (m + k) = y ++ z := by
  apply BitVec.eq_of_getLsbD_eq
  intro i hi
  simp only [BitVec.getLsbD_extractLsb', BitVec.getLsbD_append, hi, decide_true, Bool.true_and, Nat.zero_add]
  by_cases hk : i < k
  · rw [if_pos hk, if_pos hk]
  · rw [if_neg hk, if_neg hk, if_pos (by omega)]
theorem two_bits {n : Nat} (x : BitVec n) (p q : BitVec 1) : (x ++ p ++ q).extractLsb' 0 2 = (p ++ q : BitVec 2) := take_join x p q
theorem zeros_0_3 {maj d a : BitVec 6} {b : BitVec 7} {fd : BitVec 3} : zero (laWord maj d a b fd .none) 0 3 = true := by
  have h : (0#1 ++ maj ++ d ++ a ++ b ++ fd ++ Hold.none.bits ++ 0#1).extractLsb' 0 3 = (Hold.none.bits ++ 0#1 : BitVec 3) :=
    take_join (0#1 ++ maj ++ d ++ a ++ b ++ fd) Hold.none.bits 0#1
  exact beq_iff_eq.mpr (h.trans (by decide))
theorem umo_wide {maj d sb : BitVec 6} {e : Scope} {wide : Bool} {op : BitVec 4} {g : Guard} :
    fWide (umoWord maj d sb e wide op g) 8 = some wide := by
  refine wide_field ?_
  simp (disch := decide) only [fld, umoWord, take_high, Nat.reduceSub]
  exact two_bits ..
theorem lmo_wide {maj d a sb : BitVec 6} {wide : Bool} {e : Scope} : fWide (lmoWord maj d a sb wide e) 5 = some wide := by
  refine wide_field ?_
  simp (disch := decide) only [fld, lmoWord, take_high, Nat.reduceSub]
  exact two_bits ..

theorem umo_word (maj d sb e wide g mk) : umo (umoWord maj d sb e wide 0 g) mk = .ok (mk d sb e wide g) := by
  simp only [umo, umo_wide]
  simp (disch := decide) only [umoWord, need, code, zero, fD, fA, fG, fSc, fld, take_low, take_high, take_all, Nat.reduceSub, guard_bits, scope_bits] <;> rfl
theorem copy_word (maj h t cb fd cr y mk) : copy (ucpyWord maj h t cb fd cr y) mk = .ok (mk h t cb cr y) := by
  simp (disch := decide) only [copy, ucpyWord, need, zero, fB, fFlag, fld, take_low, take_high, take_all, Nat.reduceSub, bit_flag] <;> rfl
theorem copyTile_word (maj h cb fd cr y mk) : copyTile (ucpyWord maj h 0 cb fd cr y) mk = .ok (mk h cb cr y) := by
  simp (disch := decide) only [copyTile, ucpyWord, need, zero, fB, fFlag, fld, take_low, take_high, take_all, Nat.reduceSub, bit_flag] <;> rfl
theorem la3_word (maj d a b fd h mk) : la3 (laWord maj d a (LaneSrc.bits b) fd h) mk = .ok (mk d a b h) := by
  simp (disch := decide) only [la3, laWord, need, zero, fD, fA, fB7, fH, fld, take_low, take_high, take_all, Nat.reduceSub, laneSrc_bits, hold_bits] <;> rfl
theorem la3w_word (maj d a b fd h mk) : la3w (laWord maj d a (0#1 ++ b) fd h) mk = .ok (mk d a b h) := by
  simp (disch := decide) only [la3w, laWord, need, zero, fD, fA, fH, fld, take_low, take_high, take_all, Nat.reduceSub, low_1_6, high_1_6, hold_bits] <;> rfl
theorem la2_word (maj d a fd h mk) : la2 (laWord maj d a 0 fd h) mk = .ok (mk d a h) := by
  simp (disch := decide) only [la2, laWord, need, zero, fD, fA, fH, fld, take_low, take_high, take_all, Nat.reduceSub, hold_bits] <;> rfl
theorem laPred_word (maj d a b fd mk) : laPred (laWord maj (0#3 ++ d) (0#3 ++ a) (0#4 ++ b) fd .none) mk = .ok (mk d a b) := by
  simp only [laPred, zeros_0_3]
  simp (disch := decide) only [laWord, need, zero, fld, take_low, take_high, take_all, Nat.reduceSub, low_3_3, high_3_3, low_4_3, high_4_3] <;> rfl
theorem li_word (maj d a n mk) : li (liWord maj d a n) mk = .ok (mk d a n) := by
  simp (disch := decide) only [li, liWord, fD, fA, fld, take_low, take_high, take_all, Nat.reduceSub]
theorem liShift_word (maj d a n mk) : liShift (liWord maj d a (0#8 ++ n)) mk = .ok (mk d a n) := by
  simp (disch := decide) only [liShift, liWord, need, zero, fD, fA, fld, take_low, take_high, take_all, Nat.reduceSub, low_8_5, high_8_5] <;> rfl
theorem lt_word (maj d a b c fd mk) : lt (ltWord maj d a b c fd) mk = .ok (mk d a b c) := by
  simp (disch := decide) only [lt, ltWord, fD, fA, fB, fld, take_low, take_high, take_all, Nat.reduceSub]
theorem lmo_word (maj d a sb wide e mk) : lmo (lmoWord maj d a sb wide e) mk = .ok (mk d a sb wide e) := by
  simp only [lmo, lmo_wide]
  simp (disch := decide) only [lmoWord, need, code, zero, fD, fA, fB, fSc, fld, take_low, take_high, take_all, Nat.reduceSub, scope_bits] <;> rfl
theorem lma_word (maj d a sb op e mk) : lma (lmaWord maj d a sb op e) mk = .ok (mk d a sb op e) := by
  simp (disch := decide) only [lma, lmaWord, code, fD, fA, fB, fSc, fld, take_low, take_high, take_all, Nat.reduceSub, scope_bits, atomOp_bits]
theorem lx_word (maj d a f shp n mk) : lx (lxWord maj d a f shp n) mk = .ok (mk d a f shp n) := by
  simp (disch := decide) only [lx, lxWord, code, fD, fA, fB, fld, take_low, take_high, take_all, Nat.reduceSub, matFn_bits]

/-! ## The instructions -/

theorem iadd (d a : VReg) (b : LaneSrc) (h : Hold) : Statement (.iadd d a b h) :=
  laWord_trip _ rfl la_fn (by decide) (la3_word ..) fun _ => cause_none rfl rfl rfl rfl
theorem isub (d a : VReg) (b : LaneSrc) (h : Hold) : Statement (.isub d a b h) :=
  laWord_trip _ rfl la_fn (by decide) (la3_word ..) fun _ => cause_none rfl rfl rfl rfl
theorem imul (d a : VReg) (b : LaneSrc) (h : Hold) : Statement (.imul d a b h) :=
  laWord_trip _ rfl la_fn (by decide) (la3_word ..) fun _ => cause_none rfl rfl rfl rfl
theorem imulhi (d a : VReg) (b : LaneSrc) (h : Hold) : Statement (.imulhi d a b h) :=
  laWord_trip _ rfl la_fn (by decide) (la3_word ..) fun _ => cause_none rfl rfl rfl rfl
theorem imulhu (d a : VReg) (b : LaneSrc) (h : Hold) : Statement (.imulhu d a b h) :=
  laWord_trip _ rfl la_fn (by decide) (la3_word ..) fun _ => cause_none rfl rfl rfl rfl
theorem imin (d a : VReg) (b : LaneSrc) (h : Hold) : Statement (.imin d a b h) :=
  laWord_trip _ rfl la_fn (by decide) (la3_word ..) fun _ => cause_none rfl rfl rfl rfl
theorem imax (d a : VReg) (b : LaneSrc) (h : Hold) : Statement (.imax d a b h) :=
  laWord_trip _ rfl la_fn (by decide) (la3_word ..) fun _ => cause_none rfl rfl rfl rfl
theorem iminu (d a : VReg) (b : LaneSrc) (h : Hold) : Statement (.iminu d a b h) :=
  laWord_trip _ rfl la_fn (by decide) (la3_word ..) fun _ => cause_none rfl rfl rfl rfl
theorem imaxu (d a : VReg) (b : LaneSrc) (h : Hold) : Statement (.imaxu d a b h) :=
  laWord_trip _ rfl la_fn (by decide) (la3_word ..) fun _ => cause_none rfl rfl rfl rfl
theorem iaddsat (d a : VReg) (b : LaneSrc) (h : Hold) : Statement (.iaddsat d a b h) :=
  laWord_trip _ rfl la_fn (by decide) (la3_word ..) fun _ => cause_none rfl rfl rfl rfl
theorem isubsat (d a : VReg) (b : LaneSrc) (h : Hold) : Statement (.isubsat d a b h) :=
  laWord_trip _ rfl la_fn (by decide) (la3_word ..) fun _ => cause_none rfl rfl rfl rfl
theorem iaddusat (d a : VReg) (b : LaneSrc) (h : Hold) : Statement (.iaddusat d a b h) :=
  laWord_trip _ rfl la_fn (by decide) (la3_word ..) fun _ => cause_none rfl rfl rfl rfl
theorem isubusat (d a : VReg) (b : LaneSrc) (h : Hold) : Statement (.isubusat d a b h) :=
  laWord_trip _ rfl la_fn (by decide) (la3_word ..) fun _ => cause_none rfl rfl rfl rfl
theorem iabsd (d a : VReg) (b : LaneSrc) (h : Hold) : Statement (.iabsd d a b h) :=
  laWord_trip _ rfl la_fn (by decide) (la3_word ..) fun _ => cause_none rfl rfl rfl rfl
theorem andB (d a : VReg) (b : LaneSrc) (h : Hold) : Statement (.andB d a b h) :=
  laWord_trip _ rfl la_fn (by decide) (la3_word ..) fun _ => cause_none rfl rfl rfl rfl
theorem orB (d a : VReg) (b : LaneSrc) (h : Hold) : Statement (.orB d a b h) :=
  laWord_trip _ rfl la_fn (by decide) (la3_word ..) fun _ => cause_none rfl rfl rfl rfl
theorem xorB (d a : VReg) (b : LaneSrc) (h : Hold) : Statement (.xorB d a b h) :=
  laWord_trip _ rfl la_fn (by decide) (la3_word ..) fun _ => cause_none rfl rfl rfl rfl
theorem andn (d a : VReg) (b : LaneSrc) (h : Hold) : Statement (.andn d a b h) :=
  laWord_trip _ rfl la_fn (by decide) (la3_word ..) fun _ => cause_none rfl rfl rfl rfl
theorem orn (d a : VReg) (b : LaneSrc) (h : Hold) : Statement (.orn d a b h) :=
  laWord_trip _ rfl la_fn (by decide) (la3_word ..) fun _ => cause_none rfl rfl rfl rfl
theorem xnor (d a : VReg) (b : LaneSrc) (h : Hold) : Statement (.xnor d a b h) :=
  laWord_trip _ rfl la_fn (by decide) (la3_word ..) fun _ => cause_none rfl rfl rfl rfl
theorem shl (d a : VReg) (b : LaneSrc) (h : Hold) : Statement (.shl d a b h) :=
  laWord_trip _ rfl la_fn (by decide) (la3_word ..) fun _ => cause_none rfl rfl rfl rfl
theorem shr (d a : VReg) (b : LaneSrc) (h : Hold) : Statement (.shr d a b h) :=
  laWord_trip _ rfl la_fn (by decide) (la3_word ..) fun _ => cause_none rfl rfl rfl rfl
theorem sar (d a : VReg) (b : LaneSrc) (h : Hold) : Statement (.sar d a b h) :=
  laWord_trip _ rfl la_fn (by decide) (la3_word ..) fun _ => cause_none rfl rfl rfl rfl
theorem rotl (d a : VReg) (b : LaneSrc) (h : Hold) : Statement (.rotl d a b h) :=
  laWord_trip _ rfl la_fn (by decide) (la3_word ..) fun _ => cause_none rfl rfl rfl rfl
theorem rotr (d a : VReg) (b : LaneSrc) (h : Hold) : Statement (.rotr d a b h) :=
  laWord_trip _ rfl la_fn (by decide) (la3_word ..) fun _ => cause_none rfl rfl rfl rfl
theorem bfx (d a : VReg) (b : LaneSrc) (h : Hold) : Statement (.bfx d a b h) :=
  laWord_trip _ rfl la_fn (by decide) (la3_word ..) fun _ => cause_none rfl rfl rfl rfl
theorem bfxs (d a : VReg) (b : LaneSrc) (h : Hold) : Statement (.bfxs d a b h) :=
  laWord_trip _ rfl la_fn (by decide) (la3_word ..) fun _ => cause_none rfl rfl rfl rfl
theorem iaddi (d a : VReg) (i : BitVec 13) : Statement (.iaddi d a i) :=
  liWord_trip _ rfl rfl (by decide) (li_word ..) fun _ => cause_none rfl rfl rfl rfl
theorem imuli (d a : VReg) (i : BitVec 13) : Statement (.imuli d a i) :=
  liWord_trip _ rfl rfl (by decide) (li_word ..) fun _ => cause_none rfl rfl rfl rfl
theorem andi (d a : VReg) (i : BitVec 13) : Statement (.andi d a i) :=
  liWord_trip _ rfl rfl (by decide) (li_word ..) fun _ => cause_none rfl rfl rfl rfl
theorem ori (d a : VReg) (i : BitVec 13) : Statement (.ori d a i) :=
  liWord_trip _ rfl rfl (by decide) (li_word ..) fun _ => cause_none rfl rfl rfl rfl
theorem xori (d a : VReg) (i : BitVec 13) : Statement (.xori d a i) :=
  liWord_trip _ rfl rfl (by decide) (li_word ..) fun _ => cause_none rfl rfl rfl rfl
theorem shli (d a : VReg) (n : BitVec 5) : Statement (.shli d a n) :=
  liWord_trip _ rfl rfl (by decide) (liShift_word ..) fun _ => cause_none rfl rfl rfl rfl
theorem shri (d a : VReg) (n : BitVec 5) : Statement (.shri d a n) :=
  liWord_trip _ rfl rfl (by decide) (liShift_word ..) fun _ => cause_none rfl rfl rfl rfl
theorem sari (d a : VReg) (n : BitVec 5) : Statement (.sari d a n) :=
  liWord_trip _ rfl rfl (by decide) (liShift_word ..) fun _ => cause_none rfl rfl rfl rfl
theorem fadd (d a : VReg) (b : LaneSrc) (h : Hold) : Statement (.fadd d a b h) :=
  laWord_trip _ rfl la_fn (by decide) (la3_word ..) fun _ => cause_none rfl rfl rfl rfl
theorem fsub (d a : VReg) (b : LaneSrc) (h : Hold) : Statement (.fsub d a b h) :=
  laWord_trip _ rfl la_fn (by decide) (la3_word ..) fun _ => cause_none rfl rfl rfl rfl
theorem fmul (d a : VReg) (b : LaneSrc) (h : Hold) : Statement (.fmul d a b h) :=
  laWord_trip _ rfl la_fn (by decide) (la3_word ..) fun _ => cause_none rfl rfl rfl rfl
theorem fmin (d a : VReg) (b : LaneSrc) (h : Hold) : Statement (.fmin d a b h) :=
  laWord_trip _ rfl la_fn (by decide) (la3_word ..) fun _ => cause_none rfl rfl rfl rfl
theorem fmax (d a : VReg) (b : LaneSrc) (h : Hold) : Statement (.fmax d a b h) :=
  laWord_trip _ rfl la_fn (by decide) (la3_word ..) fun _ => cause_none rfl rfl rfl rfl
theorem fcopysign (d a : VReg) (b : LaneSrc) (h : Hold) : Statement (.fcopysign d a b h) :=
  laWord_trip _ rfl la_fn (by decide) (la3_word ..) fun _ => cause_none rfl rfl rfl rfl
theorem fminm (d a : VReg) (b : LaneSrc) (h : Hold) : Statement (.fminm d a b h) :=
  laWord_trip _ rfl la_fn (by decide) (la3_word ..) fun _ => cause_none rfl rfl rfl rfl
theorem fmaxm (d a : VReg) (b : LaneSrc) (h : Hold) : Statement (.fmaxm d a b h) :=
  laWord_trip _ rfl la_fn (by decide) (la3_word ..) fun _ => cause_none rfl rfl rfl rfl
theorem fscale (d a : VReg) (b : LaneSrc) (h : Hold) : Statement (.fscale d a b h) :=
  laWord_trip _ rfl la_fn (by decide) (la3_word ..) fun _ => cause_none rfl rfl rfl rfl
theorem badd2 (d a : VReg) (b : LaneSrc) (h : Hold) : Statement (.badd2 d a b h) :=
  laWord_trip _ rfl la_fn (by decide) (la3_word ..) fun _ => cause_none rfl rfl rfl rfl
theorem bmul2 (d a : VReg) (b : LaneSrc) (h : Hold) : Statement (.bmul2 d a b h) :=
  laWord_trip _ rfl la_fn (by decide) (la3_word ..) fun _ => cause_none rfl rfl rfl rfl
theorem bmin2 (d a : VReg) (b : LaneSrc) (h : Hold) : Statement (.bmin2 d a b h) :=
  laWord_trip _ rfl la_fn (by decide) (la3_word ..) fun _ => cause_none rfl rfl rfl rfl
theorem bmax2 (d a : VReg) (b : LaneSrc) (h : Hold) : Statement (.bmax2 d a b h) :=
  laWord_trip _ rfl la_fn (by decide) (la3_word ..) fun _ => cause_none rfl rfl rfl rfl
theorem pand (d a b : PReg) : Statement (.pand d a b) :=
  laWord_trip _ rfl la_fn (by decide) (laPred_word ..) fun _ => cause_none rfl rfl rfl rfl
theorem por (d a b : PReg) : Statement (.por d a b) :=
  laWord_trip _ rfl la_fn (by decide) (laPred_word ..) fun _ => cause_none rfl rfl rfl rfl
theorem pxor (d a b : PReg) : Statement (.pxor d a b) :=
  laWord_trip _ rfl la_fn (by decide) (laPred_word ..) fun _ => cause_none rfl rfl rfl rfl
theorem pandn (d a b : PReg) : Statement (.pandn d a b) :=
  laWord_trip _ rfl la_fn (by decide) (laPred_word ..) fun _ => cause_none rfl rfl rfl rfl
theorem shfl (d a : VReg) (b : LaneSrc) (h : Hold) : Statement (.shfl d a b h) :=
  laWord_trip _ rfl la_fn (by decide) (la3_word ..) fun _ => cause_none rfl rfl rfl rfl
theorem shflx (d a : VReg) (b : LaneSrc) (h : Hold) : Statement (.shflx d a b h) :=
  laWord_trip _ rfl la_fn (by decide) (la3_word ..) fun _ => cause_none rfl rfl rfl rfl
theorem shflup (d a : VReg) (b : LaneSrc) (h : Hold) : Statement (.shflup d a b h) :=
  laWord_trip _ rfl la_fn (by decide) (la3_word ..) fun _ => cause_none rfl rfl rfl rfl
theorem shfldn (d a : VReg) (b : LaneSrc) (h : Hold) : Statement (.shfldn d a b h) :=
  laWord_trip _ rfl la_fn (by decide) (la3_word ..) fun _ => cause_none rfl rfl rfl rfl
theorem uadd (d a b : SReg) (g : Guard) : Statement (.uadd d a b g) :=
  uWord_trip _ rfl word_fn (by decide) id (fun _ => ua3_word ..) fun h => cause_none rfl ((Bool.or_false _).trans (guard_used h)) rfl rfl
theorem usub (d a b : SReg) (g : Guard) : Statement (.usub d a b g) :=
  uWord_trip _ rfl word_fn (by decide) id (fun _ => ua3_word ..) fun h => cause_none rfl ((Bool.or_false _).trans (guard_used h)) rfl rfl
theorem umul (d a b : SReg) (g : Guard) : Statement (.umul d a b g) :=
  uWord_trip _ rfl word_fn (by decide) id (fun _ => ua3_word ..) fun h => cause_none rfl ((Bool.or_false _).trans (guard_used h)) rfl rfl
theorem umulhi (d a b : SReg) (g : Guard) : Statement (.umulhi d a b g) :=
  uWord_trip _ rfl word_fn (by decide) id (fun _ => ua3_word ..) fun h => cause_none rfl ((Bool.or_false _).trans (guard_used h)) rfl rfl
theorem umulhu (d a b : SReg) (g : Guard) : Statement (.umulhu d a b g) :=
  uWord_trip _ rfl word_fn (by decide) id (fun _ => ua3_word ..) fun h => cause_none rfl ((Bool.or_false _).trans (guard_used h)) rfl rfl
theorem umin (d a b : SReg) (g : Guard) : Statement (.umin d a b g) :=
  uWord_trip _ rfl word_fn (by decide) id (fun _ => ua3_word ..) fun h => cause_none rfl ((Bool.or_false _).trans (guard_used h)) rfl rfl
theorem umax (d a b : SReg) (g : Guard) : Statement (.umax d a b g) :=
  uWord_trip _ rfl word_fn (by decide) id (fun _ => ua3_word ..) fun h => cause_none rfl ((Bool.or_false _).trans (guard_used h)) rfl rfl
theorem uminu (d a b : SReg) (g : Guard) : Statement (.uminu d a b g) :=
  uWord_trip _ rfl word_fn (by decide) id (fun _ => ua3_word ..) fun h => cause_none rfl ((Bool.or_false _).trans (guard_used h)) rfl rfl
theorem uand (d a b : SReg) (g : Guard) : Statement (.uand d a b g) :=
  uWord_trip _ rfl word_fn (by decide) id (fun _ => ua3_word ..) fun h => cause_none rfl ((Bool.or_false _).trans (guard_used h)) rfl rfl
theorem uor (d a b : SReg) (g : Guard) : Statement (.uor d a b g) :=
  uWord_trip _ rfl word_fn (by decide) id (fun _ => ua3_word ..) fun h => cause_none rfl ((Bool.or_false _).trans (guard_used h)) rfl rfl
theorem uxor (d a b : SReg) (g : Guard) : Statement (.uxor d a b g) :=
  uWord_trip _ rfl word_fn (by decide) id (fun _ => ua3_word ..) fun h => cause_none rfl ((Bool.or_false _).trans (guard_used h)) rfl rfl
theorem uandn (d a b : SReg) (g : Guard) : Statement (.uandn d a b g) :=
  uWord_trip _ rfl word_fn (by decide) id (fun _ => ua3_word ..) fun h => cause_none rfl ((Bool.or_false _).trans (guard_used h)) rfl rfl
theorem ushl (d a b : SReg) (g : Guard) : Statement (.ushl d a b g) :=
  uWord_trip _ rfl word_fn (by decide) id (fun _ => ua3_word ..) fun h => cause_none rfl ((Bool.or_false _).trans (guard_used h)) rfl rfl
theorem ushr (d a b : SReg) (g : Guard) : Statement (.ushr d a b g) :=
  uWord_trip _ rfl word_fn (by decide) id (fun _ => ua3_word ..) fun h => cause_none rfl ((Bool.or_false _).trans (guard_used h)) rfl rfl
theorem usar (d a b : SReg) (g : Guard) : Statement (.usar d a b g) :=
  uWord_trip _ rfl word_fn (by decide) id (fun _ => ua3_word ..) fun h => cause_none rfl ((Bool.or_false _).trans (guard_used h)) rfl rfl
theorem umaxu (d a b : SReg) (g : Guard) : Statement (.umaxu d a b g) :=
  uWord_trip _ rfl word_fn (by decide) id (fun _ => ua3_word ..) fun h => cause_none rfl ((Bool.or_false _).trans (guard_used h)) rfl rfl
theorem upopc (d a : SReg) (g : Guard) : Statement (.upopc d a g) :=
  uWord_trip _ rfl word_fn (by decide) id (fun _ => ua2_word ..) fun h => cause_none rfl ((Bool.or_false _).trans (guard_used h)) rfl rfl
theorem uclz (d a : SReg) (g : Guard) : Statement (.uclz d a g) :=
  uWord_trip _ rfl word_fn (by decide) id (fun _ => ua2_word ..) fun h => cause_none rfl ((Bool.or_false _).trans (guard_used h)) rfl rfl
theorem uctz (d a : SReg) (g : Guard) : Statement (.uctz d a g) :=
  uWord_trip _ rfl word_fn (by decide) id (fun _ => ua2_word ..) fun h => cause_none rfl ((Bool.or_false _).trans (guard_used h)) rfl rfl
theorem ubfx (d a b : SReg) (g : Guard) : Statement (.ubfx d a b g) :=
  uWord_trip _ rfl word_fn (by decide) id (fun _ => ua3_word ..) fun h => cause_none rfl ((Bool.or_false _).trans (guard_used h)) rfl rfl
theorem udivu (d a b : SReg) (g : Guard) : Statement (.udivu d a b g) :=
  uWord_trip _ rfl word_fn (by decide) id (fun _ => ua3_word ..) fun h => cause_none rfl ((Bool.or_false _).trans (guard_used h)) rfl rfl
theorem uremu (d a b : SReg) (g : Guard) : Statement (.uremu d a b g) :=
  uWord_trip _ rfl word_fn (by decide) id (fun _ => ua3_word ..) fun h => cause_none rfl ((Bool.or_false _).trans (guard_used h)) rfl rfl
theorem uaddi (d : SReg) (i : BitVec 15) (g : Guard) : Statement (.uaddi d i g) :=
  uiWord_trip _ rfl rfl (by decide) id (fun _ => ui_word ..) fun h => cause_none rfl ((Bool.or_false _).trans (guard_used h)) rfl rfl
theorem uandi (d : SReg) (i : BitVec 15) (g : Guard) : Statement (.uandi d i g) :=
  uiWord_trip _ rfl rfl (by decide) id (fun _ => ui_word ..) fun h => cause_none rfl ((Bool.or_false _).trans (guard_used h)) rfl rfl
theorem uori (d : SReg) (i : BitVec 15) (g : Guard) : Statement (.uori d i g) :=
  uiWord_trip _ rfl rfl (by decide) id (fun _ => ui_word ..) fun h => cause_none rfl ((Bool.or_false _).trans (guard_used h)) rfl rfl
theorem uxori (d : SReg) (i : BitVec 15) (g : Guard) : Statement (.uxori d i g) :=
  uiWord_trip _ rfl rfl (by decide) id (fun _ => ui_word ..) fun h => cause_none rfl ((Bool.or_false _).trans (guard_used h)) rfl rfl
theorem ushli (d : SReg) (n : BitVec 6) (g : Guard) : Statement (.ushli d n g) :=
  uiWord_trip _ rfl rfl (by decide) id (fun _ => uiShift_word ..) fun h => cause_none rfl ((Bool.or_false _).trans (guard_used h)) rfl rfl
theorem ushri (d : SReg) (n : BitVec 6) (g : Guard) : Statement (.ushri d n g) :=
  uiWord_trip _ rfl rfl (by decide) id (fun _ => uiShift_word ..) fun h => cause_none rfl ((Bool.or_false _).trans (guard_used h)) rfl rfl
theorem usari (d : SReg) (n : BitVec 6) (g : Guard) : Statement (.usari d n g) :=
  uiWord_trip _ rfl rfl (by decide) id (fun _ => uiShift_word ..) fun h => cause_none rfl ((Bool.or_false _).trans (guard_used h)) rfl rfl
theorem umovi (d : SReg) (i : BitVec 15) (g : Guard) : Statement (.umovi d i g) :=
  uiWord_trip _ rfl rfl (by decide) id (fun _ => ui_word ..) fun h => cause_none rfl ((Bool.or_false _).trans (guard_used h)) rfl rfl
theorem umuli (d : SReg) (i : BitVec 15) (g : Guard) : Statement (.umuli d i g) :=
  uiWord_trip _ rfl rfl (by decide) id (fun _ => ui_word ..) fun h => cause_none rfl ((Bool.or_false _).trans (guard_used h)) rfl rfl
theorem ulit (d : SReg) (lit : BitVec 32) (g : Guard) : Statement (.ulit d lit g) :=
  uWord_trip _ rfl word_fn (by decide) id (fun _ => ulit_word ..) fun h => cause_none rfl ((Bool.or_false _).trans (guard_used h)) rfl rfl
theorem ulitS (d : SReg) (lit : BitVec 32) (g : Guard) : Statement (.ulitS d lit g) :=
  uWord_trip _ rfl word_fn (by decide) id (fun _ => ulit_word ..) fun h => cause_none rfl ((Bool.or_false _).trans (guard_used h)) rfl rfl
theorem ulitHi (d : SReg) (lit : BitVec 32) (g : Guard) : Statement (.ulitHi d lit g) :=
  uWord_trip _ rfl word_fn (by decide) id (fun _ => ulit_word ..) fun h => cause_none rfl ((Bool.or_false _).trans (guard_used h)) rfl rfl
theorem qand (d a b : QReg) (g : Guard) : Statement (.qand d a b g) :=
  uWord_trip _ rfl word_fn (by decide) id (fun _ => qlog_word ..) fun h => cause_none rfl ((Bool.or_false _).trans (guard_used h)) rfl rfl
theorem qor (d a b : QReg) (g : Guard) : Statement (.qor d a b g) :=
  uWord_trip _ rfl word_fn (by decide) id (fun _ => qlog_word ..) fun h => cause_none rfl ((Bool.or_false _).trans (guard_used h)) rfl rfl
theorem qxor (d a b : QReg) (g : Guard) : Statement (.qxor d a b g) :=
  uWord_trip _ rfl word_fn (by decide) id (fun _ => qlog_word ..) fun h => cause_none rfl ((Bool.or_false _).trans (guard_used h)) rfl rfl
theorem qandn (d a b : QReg) (g : Guard) : Statement (.qandn d a b g) :=
  uWord_trip _ rfl word_fn (by decide) id (fun _ => qlog_word ..) fun h => cause_none rfl ((Bool.or_false _).trans (guard_used h)) rfl rfl
theorem brx (a : SReg) (g : Guard) : Statement (.brx a g) :=
  uWord_trip _ rfl word_fn (by decide) id (fun _ => uaA_word ..) fun h => cause_none rfl ((Bool.or_false _).trans (guard_used h)) rfl rfl
theorem callx (a : SReg) (g : Guard) : Statement (.callx a g) :=
  uWord_trip _ rfl word_fn (by decide) id (fun _ => uaA_word ..) fun h => cause_none rfl ((Bool.or_false _).trans (guard_used h)) rfl rfl
theorem ret (a : SReg) (g : Guard) : Statement (.ret a g) :=
  uWord_trip _ rfl word_fn (by decide) id (fun _ => uaA_word ..) fun h => cause_none rfl ((Bool.or_false _).trans (guard_used h)) rfl rfl
theorem kmeet (k : KReg) (g : Guard) : Statement (.kmeet k g) :=
  uWord_trip _ rfl word_fn (by decide) id (fun _ => uaK3_word ..) fun h => cause_none rfl ((Bool.or_false _).trans (guard_used h)) rfl rfl
theorem emrd (d : SReg) (g : Guard) : Statement (.emrd d g) :=
  uWord_trip _ rfl word_fn (by decide) id (fun _ => uaD_word ..) fun h => cause_none rfl ((Bool.or_false _).trans (guard_used h)) rfl rfl
theorem emwr (a : VReg) (g : Guard) : Statement (.emwr a g) :=
  uWord_trip _ rfl word_fn (by decide) id (fun _ => uaA_word ..) fun h => cause_none rfl ((Bool.or_false _).trans (guard_used h)) rfl rfl
theorem v2s (d : SReg) (a : VReg) (g : Guard) : Statement (.v2s d a g) :=
  uWord_trip _ rfl word_fn (by decide) id (fun _ => ua2_word ..) fun h => cause_none rfl ((Bool.or_false _).trans (guard_used h)) rfl rfl
theorem s2v (d : VReg) (a : SReg) (g : Guard) : Statement (.s2v d a g) :=
  uWord_trip _ rfl word_fn (by decide) id (fun _ => ua2_word ..) fun h => cause_none rfl ((Bool.or_false _).trans (guard_used h)) rfl rfl
theorem empop (d : SReg) (g : Guard) : Statement (.empop d g) :=
  uWord_trip _ rfl word_fn (by decide) id (fun _ => uaD_word ..) fun h => cause_none rfl ((Bool.or_false _).trans (guard_used h)) rfl rfl
theorem ulda (d sb : SReg) (e : Scope) (wide : Bool) (g : Guard) : Statement (.ulda d sb e wide g) :=
  umoWord_trip _ rfl rfl (by decide) id (fun _ => umo_word ..) fun h => cause_none rfl ((Bool.or_false _).trans (guard_used h)) rfl rfl
theorem ustr (d sb : SReg) (e : Scope) (wide : Bool) (g : Guard) : Statement (.ustr d sb e wide g) :=
  umoWord_trip _ rfl rfl (by decide) id (fun _ => umo_word ..) fun h => cause_none rfl ((Bool.or_false _).trans (guard_used h)) rfl rfl
theorem fence (e : Scope) (g : Guard) : Statement (.fence e g) :=
  uWord_trip _ rfl word_fn (by decide) id (fun _ => fence_word ..) fun h => cause_none rfl ((Bool.or_false _).trans (guard_used h)) rfl rfl
theorem fenceAcq (e : Scope) (g : Guard) : Statement (.fenceAcq e g) :=
  uWord_trip _ rfl word_fn (by decide) id (fun _ => fence_word ..) fun h => cause_none rfl ((Bool.or_false _).trans (guard_used h)) rfl rfl
theorem fenceRel (e : Scope) (g : Guard) : Statement (.fenceRel e g) :=
  uWord_trip _ rfl word_fn (by decide) id (fun _ => fence_word ..) fun h => cause_none rfl ((Bool.or_false _).trans (guard_used h)) rfl rfl
theorem srd (d : SReg) (n : BitVec 12) (g : Guard) : Statement (.srd d n g) :=
  srWord_trip _ rfl sr_fn (by decide) id (fun _ => sr_word ..) fun h => cause_none rfl ((Bool.or_false _).trans (guard_used h)) rfl rfl
theorem swr (d : SReg) (n : BitVec 12) (g : Guard) : Statement (.swr d n g) :=
  srWord_trip _ rfl sr_fn (by decide) id (fun _ => sr_word ..) fun h => cause_none rfl ((Bool.or_false _).trans (guard_used h)) rfl rfl
theorem emWrite (v : BitVec 64) : Statement (.emWrite v) := no_word rfl
theorem cadd (c : CReg) (v : BitVec 64) : Statement (.cadd c v) := no_word rfl
theorem rnsstatWrite (v : BitVec 64) : Statement (.rnsstatWrite v) := no_word rfl
theorem registerWrite (n : BitVec 12) (v : BitVec 64) : Statement (.registerWrite n v) := no_word rfl
theorem talloc (a : SReg) (g : Guard) : Statement (.talloc a g) :=
  uWord_trip _ rfl word_fn (by decide) id (fun _ => uaA_word ..) fun h => cause_none rfl ((Bool.or_false _).trans (guard_used h)) rfl rfl
theorem talloct (d a : SReg) (g : Guard) : Statement (.talloct d a g) :=
  uWord_trip _ rfl word_fn (by decide) id (fun _ => ua2_word ..) fun h => cause_none rfl ((Bool.or_false _).trans (guard_used h)) rfl rfl
theorem tfree (a : SReg) (g : Guard) : Statement (.tfree a g) :=
  uWord_trip _ rfl word_fn (by decide) id (fun _ => uaA_word ..) fun h => cause_none rfl ((Bool.or_false _).trans (guard_used h)) rfl rfl
theorem tbind (d : TReg) (a : SReg) (g : Guard) : Statement (.tbind d a g) :=
  uWord_trip _ rfl word_fn (by decide) id (fun _ => uaK_word4 ..) fun h => cause_none rfl ((Bool.or_false _).trans (guard_used h)) rfl rfl
theorem cbld (d : CbReg) (a : SReg) (g : Guard) : Statement (.cbld d a g) :=
  uWord_trip _ rfl word_fn (by decide) id (fun _ => uaK_word3 ..) fun h => cause_none rfl ((Bool.or_false _).trans (guard_used h)) rfl rfl
theorem frz (d : SReg) (g : Guard) : Statement (.frz d g) :=
  uWord_trip _ rfl word_fn (by decide) id (fun _ => uaD_word ..) fun h => cause_none rfl ((Bool.or_false _).trans (guard_used h)) rfl rfl
theorem rstr (a : SReg) (g : Guard) : Statement (.rstr a g) :=
  uWord_trip _ rfl word_fn (by decide) id (fun _ => uaA_word ..) fun h => cause_none rfl ((Bool.or_false _).trans (guard_used h)) rfl rfl
theorem cast (d a b : SReg) (g : Guard) : Statement (.cast d a b g) :=
  uWord_trip _ rfl word_fn (by decide) id (fun _ => ua3_word ..) fun h => cause_none rfl ((Bool.or_false _).trans (guard_used h)) rfl rfl
theorem drop (a : SReg) (g : Guard) : Statement (.drop a g) :=
  uWord_trip _ rfl word_fn (by decide) id (fun _ => uaA_word ..) fun h => cause_none rfl ((Bool.or_false _).trans (guard_used h)) rfl rfl
theorem minfo (d a : SReg) (g : Guard) : Statement (.minfo d a g) :=
  uWord_trip _ rfl word_fn (by decide) id (fun _ => ua2_word ..) fun h => cause_none rfl ((Bool.or_false _).trans (guard_used h)) rfl rfl
theorem stamp (d a b : SReg) (g : Guard) : Statement (.stamp d a b g) :=
  uWord_trip _ rfl word_fn (by decide) id (fun _ => ua3_word ..) fun h => cause_none rfl ((Bool.or_false _).trans (guard_used h)) rfl rfl
theorem pbind (n : BitVec 3) (a : SReg) (g : Guard) : Statement (.pbind n a g) :=
  uWord_trip _ rfl word_fn (by decide) id (fun _ => uaK_word3 ..) fun h => cause_none rfl ((Bool.or_false _).trans (guard_used h)) rfl rfl
theorem ptkt (n : BitVec 3) (g : Guard) : Statement (.ptkt n g) :=
  uWord_trip _ rfl word_fn (by decide) id (fun _ => uaK3_word ..) fun h => cause_none rfl ((Bool.or_false _).trans (guard_used h)) rfl rfl
theorem pdone (n : BitVec 3) (g : Guard) : Statement (.pdone n g) :=
  uWord_trip _ rfl word_fn (by decide) id (fun _ => uaK3_word ..) fun h => cause_none rfl ((Bool.or_false _).trans (guard_used h)) rfl rfl
theorem pwait (n : BitVec 3) (g : Guard) : Statement (.pwait n g) :=
  uWord_trip _ rfl word_fn (by decide) id (fun _ => uaK3_word ..) fun h => cause_none rfl ((Bool.or_false _).trans (guard_used h)) rfl rfl
theorem pquit (n : BitVec 3) (g : Guard) : Statement (.pquit n g) :=
  uWord_trip _ rfl word_fn (by decide) id (fun _ => uaK3_word ..) fun h => cause_none rfl ((Bool.or_false _).trans (guard_used h)) rfl rfl
theorem give (d : VReg) (g : Guard) : Statement (.give d g) :=
  uWord_trip _ rfl word_fn (by decide) id (fun _ => uaD_word ..) fun h => cause_none rfl ((Bool.or_false _).trans (guard_used h)) rfl rfl
theorem claim (d : VReg) (g : Guard) : Statement (.claim d g) :=
  uWord_trip _ rfl word_fn (by decide) id (fun _ => uaD_word ..) fun h => cause_none rfl ((Bool.or_false _).trans (guard_used h)) rfl rfl
theorem qcnt (d a : SReg) (g : Guard) : Statement (.qcnt d a g) :=
  uWord_trip _ rfl word_fn (by decide) id (fun _ => ua2_word ..) fun h => cause_none rfl ((Bool.or_false _).trans (guard_used h)) rfl rfl
theorem lwait (a : SReg) (g : Guard) : Statement (.lwait a g) :=
  uWord_trip _ rfl word_fn (by decide) id (fun _ => latch0_word ..) fun h => cause_none rfl ((Bool.or_false _).trans (guard_used h)) rfl rfl
theorem lwaitArm (a : SReg) (g : Guard) : Statement (.lwaitArm a g) :=
  uWord_trip _ rfl word_fn (by decide) id (fun _ => latch1_word ..) fun h => cause_none rfl ((Bool.or_false _).trans (guard_used h)) rfl rfl
theorem lwake (a : SReg) (g : Guard) : Statement (.lwake a g) :=
  uWord_trip _ rfl word_fn (by decide) id (fun _ => latch0_word ..) fun h => cause_none rfl ((Bool.or_false _).trans (guard_used h)) rfl rfl
theorem lwakeInt (a : SReg) (g : Guard) : Statement (.lwakeInt a g) :=
  uWord_trip _ rfl word_fn (by decide) id (fun _ => latch1_word ..) fun h => cause_none rfl ((Bool.or_false _).trans (guard_used h)) rfl rfl
theorem nop (g : Guard) : Statement (.nop g) :=
  uWord_trip _ rfl word_fn (by decide) id (fun _ => ua0_word ..) fun h => cause_none rfl ((Bool.or_false _).trans (guard_used h)) rfl rfl
theorem exit (g : Guard) : Statement (.exit g) :=
  uWord_trip _ rfl word_fn (by decide) id (fun _ => ua0_word ..) fun h => cause_none rfl ((Bool.or_false _).trans (guard_used h)) rfl rfl
theorem yld (c : CReg) (g : Guard) : Statement (.yld c g) :=
  uWord_trip _ rfl word_fn (by decide) id (fun _ => uaK3_word ..) fun h => cause_none rfl ((Bool.or_false _).trans (guard_used h)) rfl rfl
theorem sysc (g : Guard) : Statement (.sysc g) :=
  uWord_trip _ rfl word_fn (by decide) id (fun _ => ua0_word ..) fun h => cause_none rfl ((Bool.or_false _).trans (guard_used h)) rfl rfl
theorem iret (g : Guard) : Statement (.iret g) :=
  uWord_trip _ rfl word_fn (by decide) id (fun _ => ua0_word ..) fun h => cause_none rfl ((Bool.or_false _).trans (guard_used h)) rfl rfl
theorem brk (g : Guard) : Statement (.brk g) :=
  uWord_trip _ rfl word_fn (by decide) id (fun _ => ua0_word ..) fun h => cause_none rfl ((Bool.or_false _).trans (guard_used h)) rfl rfl
theorem xrdv (d a : VReg) (g : Guard) : Statement (.xrdv d a g) :=
  uWord_trip _ rfl word_fn (by decide) id (fun _ => ua2_word ..) fun h => cause_none rfl ((Bool.or_false _).trans (guard_used h)) rfl rfl
theorem xwrv (d a : VReg) (g : Guard) : Statement (.xwrv d a g) :=
  uWord_trip _ rfl word_fn (by decide) id (fun _ => ua2_word ..) fun h => cause_none rfl ((Bool.or_false _).trans (guard_used h)) rfl rfl
theorem xrds (d a : SReg) (g : Guard) : Statement (.xrds d a g) :=
  uWord_trip _ rfl word_fn (by decide) id (fun _ => ua2_word ..) fun h => cause_none rfl ((Bool.or_false _).trans (guard_used h)) rfl rfl
theorem xwrs (d a : SReg) (g : Guard) : Statement (.xwrs d a g) :=
  uWord_trip _ rfl word_fn (by decide) id (fun _ => ua2_word ..) fun h => cause_none rfl ((Bool.or_false _).trans (guard_used h)) rfl rfl
theorem xrdsp (d : SReg) (n : BitVec 12) (g : Guard) : Statement (.xrdsp d n g) :=
  srWord_trip _ rfl sr_fn (by decide) id (fun _ => sr_word ..) fun h => cause_none rfl ((Bool.or_false _).trans (guard_used h)) rfl rfl
theorem xwrsp (d : SReg) (n : BitVec 12) (g : Guard) : Statement (.xwrsp d n g) :=
  srWord_trip _ rfl sr_fn (by decide) id (fun _ => sr_word ..) fun h => cause_none rfl ((Bool.or_false _).trans (guard_used h)) rfl rfl
theorem xrpk (d a : SReg) (g : Guard) : Statement (.xrpk d a g) :=
  uWord_trip _ rfl word_fn (by decide) id (fun _ => ua2_word ..) fun h => cause_none rfl ((Bool.or_false _).trans (guard_used h)) rfl rfl
theorem xwpk (d a : SReg) (g : Guard) : Statement (.xwpk d a g) :=
  uWord_trip _ rfl word_fn (by decide) id (fun _ => ua2_word ..) fun h => cause_none rfl ((Bool.or_false _).trans (guard_used h)) rfl rfl
theorem idle (d : SReg) (g : Guard) : Statement (.idle d g) :=
  uWord_trip _ rfl word_fn (by decide) id (fun _ => uaD_word ..) fun h => cause_none rfl ((Bool.or_false _).trans (guard_used h)) rfl rfl
theorem rfeResume (a : SReg) (g : Guard) : Statement (.rfeResume a g) :=
  uWord_trip _ rfl word_fn (by decide) id (fun _ => uaA_word ..) fun h => cause_none rfl ((Bool.or_false _).trans (guard_used h)) rfl rfl
theorem rfeDeliver (a : SReg) (g : Guard) : Statement (.rfeDeliver a g) :=
  uWord_trip _ rfl word_fn (by decide) id (fun _ => uaA_word ..) fun h => cause_none rfl ((Bool.or_false _).trans (guard_used h)) rfl rfl
theorem rfeKill (a : SReg) (g : Guard) : Statement (.rfeKill a g) :=
  uWord_trip _ rfl word_fn (by decide) id (fun _ => uaA_word ..) fun h => cause_none rfl ((Bool.or_false _).trans (guard_used h)) rfl rfl
theorem rfeResumeNoReplay (a : SReg) (g : Guard) : Statement (.rfeResumeNoReplay a g) :=
  uWord_trip _ rfl word_fn (by decide) id (fun _ => uaA_word ..) fun h => cause_none rfl ((Bool.or_false _).trans (guard_used h)) rfl rfl
theorem rfeReturn (a : SReg) (g : Guard) : Statement (.rfeReturn a g) :=
  uWord_trip _ rfl word_fn (by decide) id (fun _ => uaA_word ..) fun h => cause_none rfl ((Bool.or_false _).trans (guard_used h)) rfl rfl
theorem psrd (d : SReg) (n : BitVec 12) (g : Guard) : Statement (.psrd d n g) :=
  srWord_trip _ rfl sr_fn (by decide) id (fun _ => sr_word ..) fun h => cause_none rfl ((Bool.or_false _).trans (guard_used h)) rfl rfl
theorem pswr (d : SReg) (n : BitVec 12) (g : Guard) : Statement (.pswr d n g) :=
  srWord_trip _ rfl sr_fn (by decide) id (fun _ => sr_word ..) fun h => cause_none rfl ((Bool.or_false _).trans (guard_used h)) rfl rfl
theorem tlbiPage (d a : SReg) (g : Guard) : Statement (.tlbiPage d a g) :=
  uWord_trip _ rfl word_fn (by decide) id (fun _ => ua2_word ..) fun h => cause_none rfl ((Bool.or_false _).trans (guard_used h)) rfl rfl
theorem tlbiRange (d a b : SReg) (g : Guard) : Statement (.tlbiRange d a b g) :=
  uWord_trip _ rfl word_fn (by decide) id (fun _ => ua3_word ..) fun h => cause_none rfl ((Bool.or_false _).trans (guard_used h)) rfl rfl
theorem tlbiAs (d : SReg) (g : Guard) : Statement (.tlbiAs d g) :=
  uWord_trip _ rfl word_fn (by decide) id (fun _ => uaD_word ..) fun h => cause_none rfl ((Bool.or_false _).trans (guard_used h)) rfl rfl
theorem tlbiAll (g : Guard) : Statement (.tlbiAll g) :=
  uWord_trip _ rfl word_fn (by decide) id (fun _ => ua0_word ..) fun h => cause_none rfl ((Bool.or_false _).trans (guard_used h)) rfl rfl
theorem genb (d a : SReg) (g : Guard) : Statement (.genb d a g) :=
  uWord_trip _ rfl word_fn (by decide) id (fun _ => ua2_word ..) fun h => cause_none rfl ((Bool.or_false _).trans (guard_used h)) rfl rfl
theorem scrbStart (d a b : SReg) (g : Guard) : Statement (.scrbStart d a b g) :=
  uWord_trip _ rfl word_fn (by decide) id (fun _ => ua3_word ..) fun h => cause_none rfl ((Bool.or_false _).trans (guard_used h)) rfl rfl
theorem scrbQuery (d a : SReg) (g : Guard) : Statement (.scrbQuery d a g) :=
  uWord_trip _ rfl word_fn (by decide) id (fun _ => ua2_word ..) fun h => cause_none rfl ((Bool.or_false _).trans (guard_used h)) rfl rfl
theorem scrbAbort (a : SReg) (g : Guard) : Statement (.scrbAbort a g) :=
  uWord_trip _ rfl word_fn (by decide) id (fun _ => uaA_word ..) fun h => cause_none rfl ((Bool.or_false _).trans (guard_used h)) rfl rfl
theorem kzro (a : SReg) (g : Guard) : Statement (.kzro a g) :=
  uWord_trip _ rfl word_fn (by decide) id (fun _ => uaA_word ..) fun h => cause_none rfl ((Bool.or_false _).trans (guard_used h)) rfl rfl
theorem bind (d a b : SReg) (g : Guard) : Statement (.bind d a b g) :=
  uWord_trip _ rfl word_fn (by decide) id (fun _ => ua3_word ..) fun h => cause_none rfl ((Bool.or_false _).trans (guard_used h)) rfl rfl
theorem unbind (d a b : SReg) (g : Guard) : Statement (.unbind d a b g) :=
  uWord_trip _ rfl word_fn (by decide) id (fun _ => ua3_word ..) fun h => cause_none rfl ((Bool.or_false _).trans (guard_used h)) rfl rfl
theorem loadLanding (seq : Nat) : Statement (.loadLanding seq) := no_word rfl
theorem storeAck (seq : Nat) : Statement (.storeAck seq) := no_word rfl
theorem monitorWake (ply : Nat) : Statement (.monitorWake ply) := no_word rfl
theorem copyBlockLand (seq block : Nat) : Statement (.copyBlockLand seq block) := no_word rfl
theorem copyStop (seq : Nat) (c : Cause) : Statement (.copyStop seq c) := no_word rfl
theorem deferredCause (ply : Nat) : Statement (.deferredCause ply) := no_word rfl
theorem mmaComplete (seq octet : Nat) : Statement (.mmaComplete seq octet) := no_word rfl
theorem engineThaw (core : Nat) : Statement (.engineThaw core) := no_word rfl
theorem pageWalk (core seq ahead : Nat) : Statement (.pageWalk core seq ahead) := no_word rfl
theorem faultEntryTaken (die : Nat) : Statement (.faultEntryTaken die) := no_word rfl
theorem faultReply (die : Nat) : Statement (.faultReply die) := no_word rfl
theorem staleAccessReturn (a : StaleAccess) : Statement (.staleAccessReturn a) := no_word rfl
theorem queueEntryArrival (ply desc : Nat) : Statement (.queueEntryArrival ply desc) := no_word rfl
theorem queueNack (ply desc : Nat) : Statement (.queueNack ply desc) := no_word rfl
theorem queueBackoff (ply desc : Nat) : Statement (.queueBackoff ply desc) := no_word rfl
theorem queueAck (ply desc : Nat) : Statement (.queueAck ply desc) := no_word rfl
theorem userInterruptDelivery (ply : Nat) : Statement (.userInterruptDelivery ply) := no_word rfl
theorem regionRetry (ply : Nat) : Statement (.regionRetry ply) := no_word rfl
theorem waitnComplete (ply : Nat) : Statement (.waitnComplete ply) := no_word rfl
theorem genbComplete (ply : Nat) : Statement (.genbComplete ply) := no_word rfl
theorem rowWaitRetry (ply : Nat) : Statement (.rowWaitRetry ply) := no_word rfl
theorem rowStarvation (core : Nat) : Statement (.rowStarvation core) := no_word rfl
theorem stampQueuePlace (run : Nat) : Statement (.stampQueuePlace run) := no_word rfl
theorem exportComplete (core entry : Nat) : Statement (.exportComplete core entry) := no_word rfl
theorem runAccept (tenant : Nat) : Statement (.runAccept tenant) := no_word rfl
theorem runAging (run : Nat) : Statement (.runAging run) := no_word rfl
theorem gangReserve : Statement (.gangReserve) := no_word rfl
theorem teamRetire (run team : Nat) : Statement (.teamRetire run team) := no_word rfl
theorem runEnd (run : Nat) : Statement (.runEnd run) := no_word rfl
theorem dieLinkLoss (dieA dieB : Nat) : Statement (.dieLinkLoss dieA dieB) := no_word rfl
theorem prePreempt (tenant : Nat) : Statement (.prePreempt tenant) := no_word rfl
theorem preRestore (tenant : Nat) : Statement (.preRestore tenant) := no_word rfl
theorem tcfgWrite (tenant : Nat) (v : BitVec 64) : Statement (.tcfgWrite tenant v) := no_word rfl
theorem sweepEnd (tenant : Nat) : Statement (.sweepEnd tenant) := no_word rfl
theorem kwayWrite (port : Nat) (v : BitVec 64) : Statement (.kwayWrite port v) := no_word rfl
theorem subqWrite (tenant : Nat) (v : BitVec 64) : Statement (.subqWrite tenant v) := no_word rfl
theorem mbtabWrite (v : BitVec 64) : Statement (.mbtabWrite v) := no_word rfl
theorem csplitWrite (v : BitVec 64) : Statement (.csplitWrite v) := no_word rfl
theorem carveOutApply (core : Nat) : Statement (.carveOutApply core) := no_word rfl
theorem keyctlLoad (slot : Nat) : Statement (.keyctlLoad slot) := no_word rfl
theorem keyctlLoadDone : Statement (.keyctlLoadDone) := no_word rfl
theorem injctlArm (v : BitVec 64) : Statement (.injctlArm v) := no_word rfl
theorem patrolScrub (pa : Nat) : Statement (.patrolScrub pa) := no_word rfl
theorem scrubJobProgress (job : Nat) : Statement (.scrubJobProgress job) := no_word rfl
theorem scrubDeferral (stack : Nat) (on : Bool) : Statement (.scrubDeferral stack on) := no_word rfl
theorem coldReset : Statement (.coldReset) := no_word rfl
theorem functionReset : Statement (.functionReset) := no_word rfl
theorem restartFr : Statement (.restartFr) := no_word rfl
theorem restartCp (core : Nat) : Statement (.restartCp core) := no_word rfl
theorem firmwareVerify (img : FirmwareImage) : Statement (.firmwareVerify img) := no_word rfl
theorem attreqWrite (pa : Nat) : Statement (.attreqWrite pa) := no_word rfl
theorem thermalThrottle (monitor : Nat) (v : Int) : Statement (.thermalThrottle monitor v) := no_word rfl
theorem thermalTrip (monitor : Nat) (v : Int) : Statement (.thermalTrip monitor v) := no_word rfl
theorem pushPortWrite (port : PushPort) (bytes : List (BitVec 8)) : Statement (.pushPortWrite port bytes) := no_word rfl
theorem bar2Access (bar : HostBar) (off : Nat) (r : BusRequest) (relaxed : Bool) : Statement (.bar2Access bar off r relaxed) := no_word rfl
theorem orderingPointForward (n : Nat) : Statement (.orderingPointForward n) := no_word rfl
theorem latchWake (vf : Nat) (k : BitVec 64) : Statement (.latchWake vf k) := no_word rfl
theorem latchKey (vf n : Nat) (k : BitVec 64) : Statement (.latchKey vf n k) := no_word rfl
theorem latchStatus (vf n : Nat) : Statement (.latchStatus vf n) := no_word rfl
theorem sqTailDoorbell (lease : Nat) (tail : BitVec 32) : Statement (.sqTailDoorbell lease tail) := no_word rfl
theorem cqHeadDoorbell (lease : Nat) (head : BitVec 32) : Statement (.cqHeadDoorbell lease head) := no_word rfl
theorem nvmeDma (queue : DmaQueue) (va : Nat) (r : DmaRequest) : Statement (.nvmeDma queue va r) := no_word rfl
theorem nvmeCompletionInterrupt (lease : Nat) : Statement (.nvmeCompletionInterrupt lease) := no_word rfl
theorem aktumRequest (port : Nat) (tenant : Nat) (pa : Nat) (r : BusRequest) : Statement (.aktumRequest port tenant pa r) := no_word rfl
theorem aktumFlit (port : Nat) (crcOk : Bool) : Statement (.aktumFlit port crcOk) := no_word rfl
theorem aktumRetrain (port : Nat) : Statement (.aktumRetrain port) := no_word rfl
theorem illegalInstruction (c : DecodeCause) : Statement (.illegalInstruction c) := no_word rfl
theorem storageError (e : ArrayError) : Statement (.storageError e) := no_word rfl
theorem aktumPortDown (port : Nat) : Statement (.aktumPortDown port) := no_word rfl
theorem aktumPortUp (port : AktumPort) : Statement (.aktumPortUp port) := no_word rfl
theorem hbmStackTrained (stack : Nat) : Statement (.hbmStackTrained stack) := no_word rfl
theorem hostPortTrained : Statement (.hostPortTrained) := no_word rfl
theorem nvmeLinkUp (port : Nat) : Statement (.nvmeLinkUp port) := no_word rfl
theorem podBarrierMessage (run : Nat) (id : BitVec 4) (m : PodBarrier) : Statement (.podBarrierMessage run id m) := no_word rfl

/-! ### The instructions whose operands are checked, or whose form is their own -/

theorem lt_flag {maj d a b c : BitVec 6} {x : BitVec 1} : fld (ltWord maj d a b c x) 0 1 = x := by
  simp (disch := decide) only [fld, ltWord, take_low, take_all]
theorem lt_one {maj d a b c : BitVec 6} : fFlag (ltWord maj d a b c 1) 0 = true := by rw [fFlag, lt_flag]; rfl
theorem lt_zero {maj d a b c : BitVec 6} : ¬ fFlag (ltWord maj d a b c 0) 0 = true := by rw [fFlag, lt_flag]; decide
theorem lq_zeros {maj d a sb : BitVec 6} : zero (lqWord maj d a sb 0 0) 0 7 = true := by
  have h : (0#1 ++ maj ++ d ++ a ++ sb ++ 0#2 ++ 0#5).extractLsb' 0 7 = (0#2 ++ 0#5 : BitVec 7) :=
    take_join (0#1 ++ maj ++ d ++ a ++ sb) 0#2 0#5
  exact beq_iff_eq.mpr (h.trans (by decide))
theorem ltl_zeros {maj d a : BitVec 6} {h : BitVec 8} {z : Size} : zero (ltlWord maj d a h z false) 0 3 = true := by
  have h : (0#1 ++ maj ++ d ++ a ++ h ++ z.bits ++ Bool.bit false ++ 0#2).extractLsb' 0 3 = (Bool.bit false ++ 0#2 : BitVec 3) :=
    take_join (0#1 ++ maj ++ d ++ a ++ h ++ z.bits) (Bool.bit false) 0#2
  exact beq_iff_eq.mpr (h.trans (by decide))
theorem not_odd (r : BitVec 6) : evenReg r = !oddReg r := by
  rcases Nat.mod_two_eq_zero_or_one r.toNat with h | h <;> simp [evenReg, oddReg, h]
theorem not_past (r : VReg) (k : Nat) : fits63 r k = !passes63 r k := by
  by_cases h : r.toNat + k ≤ 64
  · simp [fits63, passes63, h]
  · simp [fits63, passes63, h]; omega
theorem not_bad (h : Hold) : h.unaryOk = !h.badUnary := by cases h <;> rfl
theorem guard_ones {g : Guard} : g.ok = !(g.bits == 0xF) := by
  have : ∀ (n : Bool) (q : BitVec 3), Guard.ok ⟨n, q⟩ = !(Guard.bits ⟨n, q⟩ == 0xF) := by decide
  exact this g.neg g.q
theorem copy_fn {maj cb : BitVec 6} {h : BitVec 8} {t : BitVec 4} {fd : BitVec 2} {cr : BitVec 3} {y : Bool} :
    (fld (ucpyWord maj h t cb fd cr y) 5 2).toNat = fd.toNat := by
  simp (disch := decide) only [fld, ucpyWord, take_low, take_high, take_all, Nat.reduceSub]
theorem copy_parse {fn : Nat} {w lit : BitVec 32} {n : Nat} (hn : (fld w 5 2).toNat = n) : parseUniform 0x25 fn w lit =
    (match (generalizing := false) n with | 0 => copy w .cpyin | 1 => copy w .cpyout | 2 => copyTile w .cpytt | _ => copyTile w .cpyfill) := by
  subst hn; rfl
theorem bar_fn {maj a d : BitVec 6} {id : BitVec 4} {kind : BitVec 2} {e : Scope} {g : Guard} :
    (fld (ubarWord maj id e kind a d g) 16 2).toNat = kind.toNat := by
  simp (disch := decide) only [fld, ubarWord, take_low, take_high, take_all, Nat.reduceSub]
theorem bar_parse {fn : Nat} {w lit : BitVec 32} {n : Nat} (hn : (fld w 16 2).toNat = n) : parseUniform 0x2C fn w lit =
    (match (generalizing := false) n with
     | 0 => barrier w fun e => .ok (.bara (fld w 21 4) e (fld w 10 6) (fld w 4 6) (fG w))
     | 1 => barrier w fun e => .ok (.baraw (fld w 21 4) e (fld w 10 6) (fld w 4 6) (fG w))
     | 2 => barrier w fun e => need (zero w 10 6) .reserved (.ok (.barw (fld w 21 4) e (fld w 4 6) (fG w)))
     | _ => .error .illegal) := by
  subst hn; rfl
theorem fn_field {maj d a b : BitVec 6} {fd : BitVec 3} {g : Guard} : fld (uWord maj d a b fd g) 4 3 = fd := by
  simp (disch := decide) only [fld, uWord, take_low, take_high, take_all, Nat.reduceSub]
theorem hold_unary {h : Hold} (ok : h.unaryOk = true) : h.badUnary = false := by cases h <;> first | rfl | cases ok

theorem cvt_used {d a : VReg} {k : BitVec 2} {sat : Bool} {r : Rnd} {c : CvtCode} (h : CvtCode.operandsOk a k sat c = true) :
    (Instr.cvt d a k sat r c).reservedUse = false := by
  simp only [Instr.reservedUse, Instr.guard?]
  cases c <;> simp_all [CvtCode.operandsOk, not_past]

theorem popc (d a : VReg) (h : Hold) : Statement (.popc d a h) :=
  laWord_trip _ rfl la_fn (by decide) (la2_word ..) fun h => cause_none rfl (hold_unary h) rfl rfl
theorem clz (d a : VReg) (h : Hold) : Statement (.clz d a h) :=
  laWord_trip _ rfl la_fn (by decide) (la2_word ..) fun h => cause_none rfl (hold_unary h) rfl rfl
theorem brev (d a : VReg) (h : Hold) : Statement (.brev d a h) :=
  laWord_trip _ rfl la_fn (by decide) (la2_word ..) fun h => cause_none rfl (hold_unary h) rfl rfl
theorem movi (d : VReg) (i : BitVec 13) : Statement (.movi d i) :=
  liWord_trip _ rfl rfl (by decide) (by
    change need _ _ _ = _
    simp (disch := decide) only [need, zero, fD, fld, take_low, take_high, take_all, Nat.reduceSub, liWord, Instr.asDecoded] <;>
    (try simp only [Nat.reduceAdd, Nat.reduceSub, take_all, guard_bits, laneSrc_bits, hold_bits, size_bits, scope_bits, hint_bits, atomOp_bits, cond_bits, fcond_bits, waitCond_bits, cmb_bits, rnd_bits, cvtCode_bits, reduOp_bits, qfmt_bits, repTy_bits, prefKind_bits, matFn_bits, bit_flag]) <;> rfl) fun _ => cause_none rfl rfl rfl rfl
theorem icmp (pd : PReg) (m : Cmb) (a : VReg) (b : LaneSrc) (c : Cond) (ps : PReg) : Statement (.icmp pd m a b c ps) :=
  lcWord_trip _ rfl rfl (by decide) (by
    change code _ _ = _
    simp (disch := decide) only [code, fA, fB7, fld, take_low, take_high, take_all, Nat.reduceSub, laneSrc_bits, cond_bits, cmb_bits, lcWord, Instr.asDecoded] <;>
    (try simp only [Nat.reduceAdd, Nat.reduceSub, take_all, guard_bits, laneSrc_bits, hold_bits, size_bits, scope_bits, hint_bits, atomOp_bits, cond_bits, fcond_bits, waitCond_bits, cmb_bits, rnd_bits, cvtCode_bits, reduOp_bits, qfmt_bits, repTy_bits, prefKind_bits, matFn_bits, bit_flag]) <;> rfl) fun hw => cause_none rfl (by
      have hw : ((m != .replace || ps == 0)) = true := hw
      change (m == .replace && ps != 0) = false
      cases m <;> simp_all) rfl rfl
theorem fcmp (pd : PReg) (m : Cmb) (a : VReg) (b : LaneSrc) (c : FCond) (ps : PReg) : Statement (.fcmp pd m a b c ps) :=
  lcWord_trip _ rfl rfl (by decide) (by
    change code _ _ = _
    simp (disch := decide) only [code, fA, fB7, fld, take_low, take_high, take_all, Nat.reduceSub, laneSrc_bits, fcond_bits, cmb_bits, lcWord, Instr.asDecoded] <;>
    (try simp only [Nat.reduceAdd, Nat.reduceSub, take_all, guard_bits, laneSrc_bits, hold_bits, size_bits, scope_bits, hint_bits, atomOp_bits, cond_bits, fcond_bits, waitCond_bits, cmb_bits, rnd_bits, cvtCode_bits, reduOp_bits, qfmt_bits, repTy_bits, prefKind_bits, matFn_bits, bit_flag]) <;> rfl) fun hw => cause_none rfl (by
      have hw : ((m != .replace || ps == 0)) = true := hw
      change (m == .replace && ps != 0) = false
      cases m <;> simp_all) rfl rfl
theorem sel (d a b : VReg) (c : PReg) : Statement (.sel d a b c) :=
  ltWord_trip _ rfl rfl (by decide) (by
    change ite _ _ _ = _
    simp (disch := decide) only [need, zero, fD, fA, fB, fFlag, fld, take_low, take_high, take_all, Nat.reduceSub, ltWord, Instr.asDecoded] <;>
    (try simp only [Nat.reduceAdd, Nat.reduceSub, take_all]) <;> rfl) fun _ => cause_none rfl rfl rfl rfl
theorem frcp (d a : VReg) (h : Hold) : Statement (.frcp d a h) :=
  laWord_trip _ rfl la_fn (by decide) (la2_word ..) fun h => cause_none rfl (hold_unary h) rfl rfl
theorem fsqrt (d a : VReg) (h : Hold) : Statement (.fsqrt d a h) :=
  laWord_trip _ rfl la_fn (by decide) (la2_word ..) fun h => cause_none rfl (hold_unary h) rfl rfl
theorem frsq (d a : VReg) (h : Hold) : Statement (.frsq d a h) :=
  laWord_trip _ rfl la_fn (by decide) (la2_word ..) fun h => cause_none rfl (hold_unary h) rfl rfl
theorem fexp2 (d a : VReg) (h : Hold) : Statement (.fexp2 d a h) :=
  laWord_trip _ rfl la_fn (by decide) (la2_word ..) fun h => cause_none rfl (hold_unary h) rfl rfl
theorem flog2 (d a : VReg) (h : Hold) : Statement (.flog2 d a h) :=
  laWord_trip _ rfl la_fn (by decide) (la2_word ..) fun h => cause_none rfl (hold_unary h) rfl rfl
theorem ffloor (d a : VReg) (h : Hold) : Statement (.ffloor d a h) :=
  laWord_trip _ rfl la_fn (by decide) (la2_word ..) fun h => cause_none rfl (hold_unary h) rfl rfl
theorem fceil (d a : VReg) (h : Hold) : Statement (.fceil d a h) :=
  laWord_trip _ rfl la_fn (by decide) (la2_word ..) fun h => cause_none rfl (hold_unary h) rfl rfl
theorem ftrunc (d a : VReg) (h : Hold) : Statement (.ftrunc d a h) :=
  laWord_trip _ rfl la_fn (by decide) (la2_word ..) fun h => cause_none rfl (hold_unary h) rfl rfl
theorem frint (d a : VReg) (h : Hold) : Statement (.frint d a h) :=
  laWord_trip _ rfl la_fn (by decide) (la2_word ..) fun h => cause_none rfl (hold_unary h) rfl rfl
theorem fclass (d a : VReg) (h : Hold) : Statement (.fclass d a h) :=
  laWord_trip _ rfl la_fn (by decide) (la2_word ..) fun h => cause_none rfl (hold_unary h) rfl rfl
theorem cvt (d a : VReg) (k : BitVec 2) (sat : Bool) (r : Rnd) (c : CvtCode) : Statement (.cvt d a k sat r c) :=
  liWord_trip _ rfl rfl (by decide) (by
    change code _ _ = _
    simp (disch := decide) only [need, code, zero, fD, fA, fFlag, fld, take_low, take_high, take_all, Nat.reduceSub, rnd_bits, cvtCode_bits, bit_flag, liWord, Instr.asDecoded] <;>
    (try simp only [Nat.reduceAdd, Nat.reduceSub, take_all]) <;> rfl) fun hw => cause_none rfl (cvt_used hw) rfl rfl
theorem mov (d a : VReg) (h : Hold) : Statement (.mov d a h) :=
  laWord_trip _ rfl la_fn (by decide) (la2_word ..) fun h => cause_none rfl (hold_unary h) rfl rfl
theorem ptov (d : VReg) (a : PReg) (h : Hold) : Statement (.ptov d a h) :=
  laWord_trip _ rfl la_fn (by decide) (by
    change need _ _ _ = _
    simp (disch := decide) only [need, zero, fD, fH, fld, take_low, take_high, take_all, Nat.reduceSub, hold_bits, laWord, Instr.asDecoded] <;>
    (try simp only [Nat.reduceAdd, Nat.reduceSub, take_all]) <;> rfl) fun hw => cause_none rfl (by
      have hw : ((h == .none || h == .d)) = true := hw
      change (h == .a || h == .b) = false
      cases h <;> simp_all) rfl rfl
theorem vtop (d : PReg) (a : VReg) (h : Hold) : Statement (.vtop d a h) :=
  laWord_trip _ rfl la_fn (by decide) (by
    change need _ _ _ = _
    simp (disch := decide) only [need, zero, fA, fH, fld, take_low, take_high, take_all, Nat.reduceSub, hold_bits, laWord, Instr.asDecoded] <;>
    (try simp only [Nat.reduceAdd, Nat.reduceSub, take_all, guard_bits, laneSrc_bits, hold_bits, size_bits, scope_bits, hint_bits, atomOp_bits, cond_bits, fcond_bits, waitCond_bits, cmb_bits, rnd_bits, cvtCode_bits, reduOp_bits, qfmt_bits, repTy_bits, prefKind_bits, matFn_bits, bit_flag]) <;> rfl) fun hw => cause_none rfl (by
      have hw : ((h == .none || h == .a)) = true := hw
      change (h == .b || h == .d) = false
      cases h <;> simp_all) rfl rfl
theorem iscan (d a : VReg) (h : Hold) : Statement (.iscan d a h) :=
  laWord_trip _ rfl la_fn (by decide) (la2_word ..) fun h => cause_none rfl (hold_unary h) rfl rfl
theorem lsr (d : VReg) (c : BitVec 2) : Statement (.lsr d c) :=
  liWord_trip _ rfl rfl (by decide) (by
    change need _ _ _ = _
    simp (disch := decide) only [need, zero, fD, fld, take_low, take_high, take_all, Nat.reduceSub, liWord, Instr.asDecoded] <;>
    (try simp only [Nat.reduceAdd, Nat.reduceSub, take_all]) <;> rfl) fun _ => cause_none rfl rfl rfl rfl
theorem ld (d a : VReg) (sb : SReg) (z : Size) (c : BitVec 2) (h : Hint) (x : Bool) : Statement (.ld d a sb z c h x) :=
  lmWord_trip _ rfl rfl (by decide) (by
    change Except.ok _ = _
    simp (disch := decide) only [fD, fA, fB, fSz, fFlag, fld, take_low, take_high, take_all, Nat.reduceSub, size_bits, hint_bits, bit_flag, lmWord, Instr.asDecoded] <;>
    (try simp only [Nat.reduceAdd, Nat.reduceSub, take_all, guard_bits, laneSrc_bits, hold_bits, size_bits, scope_bits, hint_bits, atomOp_bits, cond_bits, fcond_bits, waitCond_bits, cmb_bits, rnd_bits, cvtCode_bits, reduOp_bits, qfmt_bits, repTy_bits, prefKind_bits, matFn_bits, bit_flag]) <;> rfl) fun hw => cause_none rfl (by
      have hw : ((z != .b64 || evenReg d) && (!x || z == .b8 || z == .b16)) = true := hw
      change (x && (z == .b32 || z == .b64)) = false
      cases z <;> simp_all [not_odd]) (by
      have hw : ((z != .b64 || evenReg d) && (!x || z == .b8 || z == .b16)) = true := hw
      change (z == .b64 && oddReg d) = false
      cases z <;> simp_all [not_odd]) rfl
theorem st (d a : VReg) (sb : SReg) (z : Size) (c : BitVec 2) (h : Hint) : Statement (.st d a sb z c h) :=
  lmWord_trip _ rfl rfl (by decide) (by
    change need _ _ _ = _
    simp (disch := decide) only [need, zero, fD, fA, fB, fSz, fld, take_low, take_high, take_all, Nat.reduceSub, size_bits, hint_bits, lmWord, Instr.asDecoded] <;>
    (try simp only [Nat.reduceAdd, Nat.reduceSub, take_all, guard_bits, laneSrc_bits, hold_bits, size_bits, scope_bits, hint_bits, atomOp_bits, cond_bits, fcond_bits, waitCond_bits, cmb_bits, rnd_bits, cvtCode_bits, reduOp_bits, qfmt_bits, repTy_bits, prefKind_bits, matFn_bits, bit_flag]) <;> rfl) fun hw => cause_none rfl rfl (by
      have hw : ((z != .b64 || evenReg d)) = true := hw
      change (z == .b64 && oddReg d) = false
      cases z <;> simp_all [not_odd]) rfl
theorem lda (d a : VReg) (sb : SReg) (wide : Bool) (e : Scope) : Statement (.lda d a sb wide e) :=
  lmoWord_trip _ rfl rfl (by decide) (lmo_word ..) fun hw => cause_none rfl rfl (by
      have hw : ((!wide || evenReg d)) = true := hw
      change (wide && oddReg d) = false
      cases wide <;> simp_all [not_odd]) rfl
theorem str (d a : VReg) (sb : SReg) (wide : Bool) (e : Scope) : Statement (.str d a sb wide e) :=
  lmoWord_trip _ rfl rfl (by decide) (lmo_word ..) fun hw => cause_none rfl rfl (by
      have hw : ((!wide || evenReg d)) = true := hw
      change (wide && oddReg d) = false
      cases wide <;> simp_all [not_odd]) rfl
theorem atom (d a : VReg) (sb : SReg) (op : AtomOp) (e : Scope) : Statement (.atom d a sb op e) :=
  lmaWord_trip _ rfl rfl (by decide) (lma_word ..) fun hw => cause_none rfl rfl (by
      have hw : ((!op.pair || evenReg d)) = true := hw
      change ((op == .add64 || op == .xchg64 || op == .min64 || op == .max64) && oddReg d) = false
      cases op <;> simp_all [not_odd, AtomOp.pair]) rfl
theorem atomar (d a : VReg) (sb : SReg) (op : AtomOp) (e : Scope) : Statement (.atomar d a sb op e) :=
  lmaWord_trip _ rfl rfl (by decide) (lma_word ..) fun hw => cause_none rfl rfl (by
      have hw : ((!op.pair || evenReg d)) = true := hw
      change ((op == .add64 || op == .xchg64 || op == .min64 || op == .max64) && oddReg d) = false
      cases op <;> simp_all [not_odd, AtomOp.pair]) rfl
theorem cas (d a : VReg) (sb : SReg) (e : Scope) (wide : Bool) (ord : Bool) : Statement (.cas d a sb e wide ord) :=
  lcasWord_trip _ rfl rfl (by decide) (by
    change code _ _ = _
    simp (disch := decide) only [need, code, zero, fD, fA, fB, fSc, fFlag, fld, take_low, take_high, take_all, Nat.reduceSub, scope_bits, bit_flag, lcasWord, Instr.asDecoded] <;>
    (try simp only [Nat.reduceAdd, Nat.reduceSub, take_all, guard_bits, laneSrc_bits, hold_bits, size_bits, scope_bits, hint_bits, atomOp_bits, cond_bits, fcond_bits, waitCond_bits, cmb_bits, rnd_bits, cvtCode_bits, reduOp_bits, qfmt_bits, repTy_bits, prefKind_bits, matFn_bits, bit_flag]) <;> rfl) fun hw => cause_none rfl rfl (by
      have hw : ((if wide then d.toNat % 4 == 0 else evenReg d)) = true := hw
      change (if wide then d.toNat % 4 != 0 else oddReg d) = false
      cases wide <;> simp_all [not_odd]) rfl
theorem red (d a : VReg) (sb : SReg) (op : AtomOp) (e : Scope) : Statement (.red d a sb op e) :=
  lmaWord_trip _ rfl rfl (by decide) (lma_word ..) fun hw => cause_none (by
      have hw : (op != .xchg && op != .xchg64 && (!op.pair || evenReg d)) = true := hw
      change (op == .xchg || op == .xchg64) = false
      simp_all) rfl (by
      have hw : (op != .xchg && op != .xchg64 && (!op.pair || evenReg d)) = true := hw
      change ((op == .add64 || op == .xchg64 || op == .min64 || op == .max64) && oddReg d) = false
      cases op <;> simp_all [not_odd, AtomOp.pair]) rfl
theorem redq (d a : VReg) (sb : SReg) (q : QFmt) (e : Scope) : Statement (.redq d a sb q e) :=
  lqWord_trip _ rfl rfl (by decide) (by
    change code _ _ = _
    simp (disch := decide) only [need, code, zero, fD, fA, fB, fSc, fld, take_low, take_high, take_all, Nat.reduceSub, scope_bits, lqWord, Instr.asDecoded] <;>
    (try simp only [Nat.reduceAdd, Nat.reduceSub, take_all, qfmt_bits]) <;> rfl) fun _ => cause_none rfl rfl rfl rfl
theorem ldrep (d a : VReg) (sb : SReg) (t : RepTy) : Statement (.ldrep d a sb t) :=
  lqWord_trip _ rfl rfl (by decide) (by
    change code _ _ = _
    simp (disch := decide) only [need, code, zero, fD, fA, fB, fld, take_low, take_high, take_all, Nat.reduceSub, repTy_bits, lqWord, Instr.asDecoded] <;>
    (try simp only [Nat.reduceAdd, Nat.reduceSub, take_all, guard_bits, laneSrc_bits, hold_bits, size_bits, scope_bits, hint_bits, atomOp_bits, cond_bits, fcond_bits, waitCond_bits, cmb_bits, rnd_bits, cvtCode_bits, reduOp_bits, qfmt_bits, repTy_bits, prefKind_bits, matFn_bits, bit_flag]) <;> rfl) fun hw => cause_none rfl rfl (by
      have hw : ((t != .s64 || evenReg d)) = true := hw
      change (t == .s64 && oddReg d) = false
      cases t <;> simp_all [not_odd]) rfl
theorem pref (k : PrefKind) (a : VReg) (sb : SReg) : Statement (.pref k a sb) :=
  lqWord_trip _ rfl rfl (by decide) (by
    change code _ _ = _
    simp only [lq_zeros]
    simp (disch := decide) only [need, code, fD, fA, fB, fld, take_low, take_high, take_all, Nat.reduceSub, prefKind_bits, lqWord, Instr.asDecoded] <;>
    (try simp only [Nat.reduceAdd, Nat.reduceSub, take_all, guard_bits, laneSrc_bits, hold_bits, size_bits, scope_bits, hint_bits, atomOp_bits, cond_bits, fcond_bits, waitCond_bits, cmb_bits, rnd_bits, cvtCode_bits, reduOp_bits, qfmt_bits, repTy_bits, prefKind_bits, matFn_bits, bit_flag]) <;> rfl) fun _ => cause_none rfl rfl rfl rfl
theorem tld (d a : VReg) (h : BitVec 8) (z : Size) (x : Bool) : Statement (.tld d a h z x) :=
  ltlWord_trip _ rfl rfl (by decide) (by
    change need _ _ _ = _
    simp (disch := decide) only [need, zero, fD, fA, fSz, fFlag, fld, take_low, take_high, take_all, Nat.reduceSub, size_bits, bit_flag, ltlWord, Instr.asDecoded] <;>
    (try simp only [Nat.reduceAdd, Nat.reduceSub, take_all, guard_bits, laneSrc_bits, hold_bits, size_bits, scope_bits, hint_bits, atomOp_bits, cond_bits, fcond_bits, waitCond_bits, cmb_bits, rnd_bits, cvtCode_bits, reduOp_bits, qfmt_bits, repTy_bits, prefKind_bits, matFn_bits, bit_flag]) <;> rfl) fun hw => cause_none rfl (by
      have hw : ((z != .b64 || evenReg d) && (!x || z == .b8 || z == .b16)) = true := hw
      change (x && (z == .b32 || z == .b64)) = false
      cases z <;> simp_all [not_odd]) (by
      have hw : ((z != .b64 || evenReg d) && (!x || z == .b8 || z == .b16)) = true := hw
      change (z == .b64 && oddReg d) = false
      cases z <;> simp_all [not_odd]) rfl
theorem tst (d a : VReg) (h : BitVec 8) (z : Size) : Statement (.tst d a h z) :=
  ltlWord_trip _ rfl rfl (by decide) (by
    change need _ _ _ = _
    simp only [ltl_zeros]
    simp (disch := decide) only [need, fD, fA, fSz, fld, take_low, take_high, take_all, Nat.reduceSub, size_bits, ltlWord, Instr.asDecoded] <;>
    (try simp only [Nat.reduceAdd, Nat.reduceSub, take_all, guard_bits, laneSrc_bits, hold_bits, size_bits, scope_bits, hint_bits, atomOp_bits, cond_bits, fcond_bits, waitCond_bits, cmb_bits, rnd_bits, cvtCode_bits, reduOp_bits, qfmt_bits, repTy_bits, prefKind_bits, matFn_bits, bit_flag]) <;> rfl) fun hw => cause_none rfl rfl (by
      have hw : ((z != .b64 || evenReg d)) = true := hw
      change (z == .b64 && oddReg d) = false
      cases z <;> simp_all [not_odd]) rfl
theorem mma (d a : VReg) (f : SReg) (shp : BitVec 5) (n : MatFn) : Statement (.mma d a f shp n) :=
  lxWord_trip _ rfl rfl (by decide) (lx_word ..) fun hw => cause_none rfl rfl rfl (by
      have hw : (f.toNat % 4 == 0) = true := hw
      change (f.toNat % 4 != 0) = false
      simp_all)
theorem mmai (d a : VReg) (f : SReg) (shp : BitVec 5) (n : MatFn) : Statement (.mmai d a f shp n) :=
  lxWord_trip _ rfl rfl (by decide) (lx_word ..) fun hw => cause_none rfl rfl rfl (by
      have hw : (f.toNat % 4 == 0) = true := hw
      change (f.toNat % 4 != 0) = false
      simp_all)
theorem mstate (d : VReg) (w : BitVec 8) : Statement (.mstate d w) :=
  liWord_trip _ rfl rfl (by decide) (by
    change need _ _ _ = _
    simp (disch := decide) only [need, zero, fD, fld, take_low, take_high, take_all, Nat.reduceSub, liWord, Instr.asDecoded] <;>
    (try simp only [Nat.reduceAdd, Nat.reduceSub, take_all]) <;> rfl) fun _ => cause_none rfl rfl rfl rfl
theorem mfill (a : VReg) (w : BitVec 8) : Statement (.mfill a w) :=
  liWord_trip _ rfl rfl (by decide) (by
    change need _ _ _ = _
    simp (disch := decide) only [need, zero, fA, fld, take_low, take_high, take_all, Nat.reduceSub, liWord, Instr.asDecoded] <;>
    (try simp only [Nat.reduceAdd, Nat.reduceSub, take_all]) <;> rfl) fun _ => cause_none rfl rfl rfl rfl
theorem rnsf (d a : VReg) (h : Hold) : Statement (.rnsf d a h) :=
  laWord_trip _ rfl la_fn (by decide) (la2_word ..) fun hw => cause_none rfl (by
      have hw : (h.unaryOk && evenReg d) = true := hw
      change h.badUnary = false
      simp_all [not_odd, not_bad]) (by
      have hw : (h.unaryOk && evenReg d) = true := hw
      change oddReg d = false
      simp_all [not_odd, not_bad]) rfl
theorem rnsfw (d a : VReg) (h : Hold) : Statement (.rnsfw d a h) :=
  laWord_trip _ rfl la_fn (by decide) (la2_word ..) fun hw => cause_none rfl (by
      have hw : (h.unaryOk && evenReg a && fits63 d 3) = true := hw
      change (h.badUnary || passes63 d 3) = false
      simp_all [not_odd, not_past, not_bad]) (by
      have hw : (h.unaryOk && evenReg a && fits63 d 3) = true := hw
      change oddReg a = false
      simp_all [not_odd, not_past, not_bad]) rfl
theorem rnsadd (d a : VReg) (b : LaneSrc) (h : Hold) : Statement (.rnsadd d a b h) :=
  laWord_trip _ rfl la_fn (by decide) (la3_word ..) fun hw => cause_none rfl rfl (by
      have hw : (evenReg d && evenReg a && (match (generalizing := false) b with | .v r => evenReg r | .s _ => true)) = true := hw
      change (oddReg d || oddReg a || (match (generalizing := false) b with | .v r => oddReg r | .s _ => false)) = false
      cases b <;> simp_all [not_odd]) rfl
theorem rnsmul (d a : VReg) (b : LaneSrc) (h : Hold) : Statement (.rnsmul d a b h) :=
  laWord_trip _ rfl la_fn (by decide) (la3_word ..) fun hw => cause_none rfl rfl (by
      have hw : (evenReg d && evenReg a && (match (generalizing := false) b with | .v r => evenReg r | .s _ => true)) = true := hw
      change (oddReg d || oddReg a || (match (generalizing := false) b with | .v r => oddReg r | .s _ => false)) = false
      cases b <;> simp_all [not_odd]) rfl
theorem rnsaddw (d a b : VReg) (h : Hold) : Statement (.rnsaddw d a b h) :=
  laWord_trip _ rfl la_fn (by decide) (la3w_word ..) fun hw => cause_none rfl (by
      have hw : (fits63 d 3 && fits63 a 3 && fits63 b 3) = true := hw
      change (passes63 d 3 || passes63 a 3 || passes63 b 3) = false
      simp_all [not_past]) rfl rfl
theorem rnsmulw (d a b : VReg) (h : Hold) : Statement (.rnsmulw d a b h) :=
  laWord_trip _ rfl la_fn (by decide) (la3w_word ..) fun hw => cause_none rfl (by
      have hw : (fits63 d 3 && fits63 a 3 && fits63 b 3) = true := hw
      change (passes63 d 3 || passes63 a 3 || passes63 b 3) = false
      simp_all [not_past]) rfl rfl
theorem rnsneg (d a : VReg) (h : Hold) : Statement (.rnsneg d a h) :=
  laWord_trip _ rfl la_fn (by decide) (la2_word ..) fun hw => cause_none rfl (by
      have hw : (h.unaryOk && evenReg d && evenReg a) = true := hw
      change h.badUnary = false
      simp_all [not_odd, not_bad]) (by
      have hw : (h.unaryOk && evenReg d && evenReg a) = true := hw
      change (oddReg d || oddReg a) = false
      simp_all [not_odd, not_bad]) rfl
theorem rnsnegw (d a : VReg) (h : Hold) : Statement (.rnsnegw d a h) :=
  laWord_trip _ rfl la_fn (by decide) (la2_word ..) fun hw => cause_none rfl (by
      have hw : (h.unaryOk && fits63 d 3 && fits63 a 3) = true := hw
      change (h.badUnary || passes63 d 3 || passes63 a 3) = false
      simp_all [not_past, not_bad]) rfl rfl
theorem rnsr (d a : VReg) (h : Hold) : Statement (.rnsr d a h) :=
  laWord_trip _ rfl la_fn (by decide) (la2_word ..) fun hw => cause_none rfl (by
      have hw : (h.unaryOk && evenReg a) = true := hw
      change h.badUnary = false
      simp_all [not_odd, not_bad]) (by
      have hw : (h.unaryOk && evenReg a) = true := hw
      change oddReg a = false
      simp_all [not_odd, not_bad]) rfl
theorem rnsrw (d a : VReg) (h : Hold) : Statement (.rnsrw d a h) :=
  laWord_trip _ rfl la_fn (by decide) (la2_word ..) fun hw => cause_none rfl (by
      have hw : (h.unaryOk && evenReg d && fits63 a 3) = true := hw
      change (h.badUnary || passes63 a 3) = false
      simp_all [not_odd, not_past, not_bad]) (by
      have hw : (h.unaryOk && evenReg d && fits63 a 3) = true := hw
      change oddReg d = false
      simp_all [not_odd, not_past, not_bad]) rfl
theorem rnschk (d a : VReg) (h : Hold) : Statement (.rnschk d a h) :=
  laWord_trip _ rfl la_fn (by decide) (la2_word ..) fun hw => cause_none rfl (by
      have hw : (h.unaryOk && evenReg d && evenReg a) = true := hw
      change h.badUnary = false
      simp_all [not_odd, not_bad]) (by
      have hw : (h.unaryOk && evenReg d && evenReg a) = true := hw
      change (oddReg d || oddReg a) = false
      simp_all [not_odd, not_bad]) rfl
theorem rnschkw (d a : VReg) (h : Hold) : Statement (.rnschkw d a h) :=
  laWord_trip _ rfl la_fn (by decide) (la2_word ..) fun hw => cause_none rfl (by
      have hw : (h.unaryOk && fits63 d 3 && fits63 a 3) = true := hw
      change (h.badUnary || passes63 d 3 || passes63 a 3) = false
      simp_all [not_past, not_bad]) rfl rfl
theorem ucmp (c : Cond) (q : QReg) (a b : SReg) (g : Guard) : Statement (.ucmp c q a b g) :=
  uWord_trip _ rfl word_fn (by decide) id (fun h => (by
    change Except.ok _ = _
    simp (disch := decide) only [fA, fB, fG, fld, take_low, take_high, take_all, Nat.reduceSub, guard_bits, cond_bits, uWord, Instr.asDecoded] <;>
    (try simp only [Nat.reduceAdd, Nat.reduceSub, take_all, guard_bits, laneSrc_bits, hold_bits, size_bits, scope_bits, hint_bits, atomOp_bits, cond_bits, fcond_bits, waitCond_bits, cmb_bits, rnd_bits, cvtCode_bits, reduOp_bits, qfmt_bits, repTy_bits, prefKind_bits, matFn_bits, bit_flag]) <;> rfl)) fun h => cause_none rfl ((Bool.or_false _).trans (guard_used h)) rfl rfl
theorem ucmpi (c : Cond) (q : QReg) (a : SReg) (i : BitVec 9) (g : Guard) : Statement (.ucmpi c q a i g) :=
  ucmpiWord_trip _ rfl rfl (by decide) id (fun h => (by
    change Except.ok _ = _
    simp (disch := decide) only [fA, fG, fld, take_low, take_high, take_all, Nat.reduceSub, guard_bits, cond_bits, ucmpiWord, Instr.asDecoded] <;>
    (try simp only [Nat.reduceAdd, Nat.reduceSub, take_all, guard_bits, laneSrc_bits, hold_bits, size_bits, scope_bits, hint_bits, atomOp_bits, cond_bits, fcond_bits, waitCond_bits, cmb_bits, rnd_bits, cvtCode_bits, reduOp_bits, qfmt_bits, repTy_bits, prefKind_bits, matFn_bits, bit_flag]) <;> rfl)) fun h => cause_none rfl ((Bool.or_false _).trans (guard_used h)) rfl rfl
theorem bra (o : BitVec 21) (g : Guard) : Statement (.bra o g) :=
  ubWord_trip rfl (by decide) (by decide) (fun fn => (by
    change Except.ok _ = _
    simp (disch := decide) only [fG, fld, take_low, take_high, take_all, Nat.reduceSub, guard_bits, ubWord, Instr.asDecoded] <;>
    (try simp only [Nat.reduceAdd, Nat.reduceSub, take_all, guard_bits, laneSrc_bits, hold_bits, size_bits, scope_bits, hint_bits, atomOp_bits, cond_bits, fcond_bits, waitCond_bits, cmb_bits, rnd_bits, cvtCode_bits, reduOp_bits, qfmt_bits, repTy_bits, prefKind_bits, matFn_bits, bit_flag]) <;> rfl)) fun h => cause_none rfl ((Bool.or_false _).trans (guard_used h)) rfl rfl
theorem call (o : BitVec 21) (g : Guard) : Statement (.call o g) :=
  ubWord_trip rfl (by decide) (by decide) (fun fn => (by
    change Except.ok _ = _
    simp (disch := decide) only [fG, fld, take_low, take_high, take_all, Nat.reduceSub, guard_bits, ubWord, Instr.asDecoded] <;>
    (try simp only [Nat.reduceAdd, Nat.reduceSub, take_all, guard_bits, laneSrc_bits, hold_bits, size_bits, scope_bits, hint_bits, atomOp_bits, cond_bits, fcond_bits, waitCond_bits, cmb_bits, rnd_bits, cvtCode_bits, reduOp_bits, qfmt_bits, repTy_bits, prefKind_bits, matFn_bits, bit_flag]) <;> rfl)) fun h => cause_none rfl ((Bool.or_false _).trans (guard_used h)) rfl rfl
theorem brv (o : BitVec 21) (n : Bool) (p : PReg) : Statement (.brv o n p) :=
  ubWord_trip rfl (by decide) (by decide) (fun fn => (by
    change Except.ok _ = _
    simp (disch := decide) only [fFlag, fld, take_low, take_high, take_all, Nat.reduceSub, bit_flag, ubWord, Instr.asDecoded] <;>
    (try simp only [Nat.reduceAdd, Nat.reduceSub, take_all]) <;> rfl)) fun _ => cause_none rfl rfl rfl rfl
theorem kpin (k : KReg) (o : BitVec 18) (g : Guard) : Statement (.kpin k o g) :=
  ubWord_trip rfl (by decide) (by decide) (fun fn => (by
    change Except.ok _ = _
    simp (disch := decide) only [fG, fld, take_low, take_high, take_all, Nat.reduceSub, guard_bits, ubWord, Instr.asDecoded] <;>
    (try simp only [Nat.reduceAdd, Nat.reduceSub, take_all, guard_bits, laneSrc_bits, hold_bits, size_bits, scope_bits, hint_bits, atomOp_bits, cond_bits, fcond_bits, waitCond_bits, cmb_bits, rnd_bits, cvtCode_bits, reduOp_bits, qfmt_bits, repTy_bits, prefKind_bits, matFn_bits, bit_flag]) <;> rfl)) fun h => cause_none rfl ((Bool.or_false _).trans (guard_used h)) rfl rfl
theorem emandp (a : PReg) (g : Guard) : Statement (.emandp a g) :=
  uWord_trip _ rfl word_fn (by decide) id (fun h => (by
    change need _ _ _ = _
    simp (disch := decide) only [need, zero, fG, fld, take_low, take_high, take_all, Nat.reduceSub, guard_bits, uWord, Instr.asDecoded] <;>
    (try simp only [Nat.reduceAdd, Nat.reduceSub, take_all]) <;> rfl)) fun h => cause_none rfl ((Bool.or_false _).trans (guard_used h)) rfl rfl
theorem vote (d : SReg) (a : PReg) (g : Guard) : Statement (.vote d a g) :=
  uWord_trip _ rfl word_fn (by decide) id (fun h => (by
    change need _ _ _ = _
    simp (disch := decide) only [need, zero, fD, fG, fld, take_low, take_high, take_all, Nat.reduceSub, guard_bits, uWord, Instr.asDecoded] <;>
    (try simp only [Nat.reduceAdd, Nat.reduceSub, take_all]) <;> rfl)) fun h => cause_none rfl ((Bool.or_false _).trans (guard_used h)) rfl rfl
theorem v2s64 (d : SReg) (a : VReg) (g : Guard) : Statement (.v2s64 d a g) :=
  uWord_trip _ rfl word_fn (by decide) (fun h => by simp [Instr.wellFormed] at h; simp [h]) (fun h => (ua2_word ..)) fun hw => cause_none rfl (by
      have hw : (g.ok && evenReg a) = true := hw
      change (g.bits == 0xF || false) = false
      simp_all [not_odd, guard_ones]) (by
      have hw : (g.ok && evenReg a) = true := hw
      change oddReg a = false
      simp_all [not_odd, guard_ones]) rfl
theorem redu (d : SReg) (a : VReg) (f : ReduOp) (g : Guard) : Statement (.redu d a f g) :=
  uWord_trip _ rfl word_fn (by decide) id (fun h => (show Sys2Proof.redu _ (ReduOp.ofBits (fld _ 4 3)) = _ by rw [fn_field, reduOp_bits]; exact redu_word ..)) fun h => cause_none rfl ((Bool.or_false _).trans (guard_used h)) rfl rfl
theorem uld (d sb : SReg) (i : BitVec 7) (z : Size) (g : Guard) : Statement (.uld d sb i z g) :=
  umWord_trip _ rfl rfl (by decide) id (fun h => (by
    change Except.ok _ = _
    simp (disch := decide) only [fD, fA, fG, fSz, fld, take_low, take_high, take_all, Nat.reduceSub, guard_bits, size_bits, umWord, Instr.asDecoded] <;>
    (try simp only [Nat.reduceAdd, Nat.reduceSub, take_all, guard_bits, laneSrc_bits, hold_bits, size_bits, scope_bits, hint_bits, atomOp_bits, cond_bits, fcond_bits, waitCond_bits, cmb_bits, rnd_bits, cvtCode_bits, reduOp_bits, qfmt_bits, repTy_bits, prefKind_bits, matFn_bits, bit_flag]) <;> rfl)) fun h => cause_none rfl ((Bool.or_false _).trans (guard_used h)) rfl rfl
theorem ust (d sb : SReg) (i : BitVec 7) (z : Size) (g : Guard) : Statement (.ust d sb i z g) :=
  umWord_trip _ rfl rfl (by decide) id (fun h => (by
    change Except.ok _ = _
    simp (disch := decide) only [fD, fA, fG, fSz, fld, take_low, take_high, take_all, Nat.reduceSub, guard_bits, size_bits, umWord, Instr.asDecoded] <;>
    (try simp only [Nat.reduceAdd, Nat.reduceSub, take_all, guard_bits, laneSrc_bits, hold_bits, size_bits, scope_bits, hint_bits, atomOp_bits, cond_bits, fcond_bits, waitCond_bits, cmb_bits, rnd_bits, cvtCode_bits, reduOp_bits, qfmt_bits, repTy_bits, prefKind_bits, matFn_bits, bit_flag]) <;> rfl)) fun h => cause_none rfl ((Bool.or_false _).trans (guard_used h)) rfl rfl
theorem uatom (d sb : SReg) (e : Scope) (wide : Bool) (op : AtomOp) (g : Guard) : Statement (.uatom d sb e wide op g) :=
  umoWord_trip _ rfl rfl (by decide) (fun h => by simp [Instr.wellFormed] at h; simp [h]) (fun h => (by
    change code _ _ = _
    simp only [umo_wide]
    simp (disch := decide) only [code, fD, fA, fG, fSc, fld, take_low, take_high, take_all, Nat.reduceSub, guard_bits, scope_bits, atomOp_bits, umoWord, Instr.asDecoded] <;>
    (try simp only [Nat.reduceAdd, Nat.reduceSub, take_all, guard_bits, laneSrc_bits, hold_bits, size_bits, scope_bits, hint_bits, atomOp_bits, cond_bits, fcond_bits, waitCond_bits, cmb_bits, rnd_bits, cvtCode_bits, reduOp_bits, qfmt_bits, repTy_bits, prefKind_bits, matFn_bits, bit_flag]) <;> rfl)) fun hw => cause_none (by
      have hw : (g.ok && !op.pair && !(wide && op == .fadd)) = true := hw
      change (op == .add64 || op == .xchg64 || op == .min64 || op == .max64 || (wide && op == .fadd)) = false
      cases op <;> simp_all [AtomOp.pair]) (by
      have hw : (g.ok && !op.pair && !(wide && op == .fadd)) = true := hw
      change (g.bits == 0xF || false) = false
      simp_all [guard_ones, AtomOp.pair]) rfl rfl
theorem ucas (d sb : SReg) (e : Scope) (wide : Bool) (ord : Bool) (g : Guard) : Statement (.ucas d sb e wide ord g) :=
  umoWord_trip _ rfl rfl (by decide) (fun h => by simp [Instr.wellFormed] at h; simp [h]) (fun h => (by
    change code _ _ = _
    simp only [umo_wide]
    simp (disch := decide) only [need, code, zero, fD, fA, fG, fSc, fFlag, fld, take_low, take_high, take_all, Nat.reduceSub, guard_bits, bit_flag, umoWord, Instr.asDecoded] <;>
    (try simp only [Nat.reduceAdd, Nat.reduceSub, take_all, scope_bits]) <;> rfl)) fun hw => cause_none rfl (by
      have hw : (g.ok && evenReg d) = true := hw
      change (g.bits == 0xF || false) = false
      simp_all [not_odd, guard_ones]) (by
      have hw : (g.ok && evenReg d) = true := hw
      change oddReg d = false
      simp_all [not_odd, guard_ones]) rfl
theorem waitc (d sb : SReg) (e : Scope) (wide : Bool) (c : WaitCond) (g : Guard) : Statement (.waitc d sb e wide c g) :=
  umoWord_trip _ rfl rfl (by decide) id (fun h => (by
    change code _ _ = _
    simp only [umo_wide]
    simp (disch := decide) only [need, code, zero, fD, fA, fG, fSc, fld, take_low, take_high, take_all, Nat.reduceSub, guard_bits, waitCond_bits, umoWord, Instr.asDecoded] <;>
    (try simp only [Nat.reduceAdd, Nat.reduceSub, take_all, scope_bits]) <;> rfl)) fun h => cause_none rfl ((Bool.or_false _).trans (guard_used h)) rfl rfl
theorem waitn (l st : BitVec 6) (c : BitVec 5) (m : BitVec 4) (g : Guard) : Statement (.waitn l st c m g) :=
  uwWord_trip _ rfl rfl (by decide) id (fun h => (by
    change Except.ok _ = _
    simp (disch := decide) only [fD, fA, fG, fld, take_low, take_high, take_all, Nat.reduceSub, guard_bits, uwWord, Instr.asDecoded] <;>
    (try simp only [Nat.reduceAdd, Nat.reduceSub, take_all, guard_bits, laneSrc_bits, hold_bits, size_bits, scope_bits, hint_bits, atomOp_bits, cond_bits, fcond_bits, waitCond_bits, cmb_bits, rnd_bits, cvtCode_bits, reduOp_bits, qfmt_bits, repTy_bits, prefKind_bits, matFn_bits, bit_flag]) <;> rfl)) fun h => cause_none rfl ((Bool.or_false _).trans (guard_used h)) rfl rfl
theorem cpyin (h : BitVec 8) (t : TReg) (cb : SReg) (cr : CReg) (y : Bool) : Statement (.cpyin h t cb cr y) :=
  ucpyWord_trip rfl (by decide) (by decide) (fun fn => ((copy_parse copy_fn).trans (copy_word ..))) fun _ => cause_none rfl rfl rfl rfl
theorem cpyout (h : BitVec 8) (t : TReg) (cb : SReg) (cr : CReg) (y : Bool) : Statement (.cpyout h t cb cr y) :=
  ucpyWord_trip rfl (by decide) (by decide) (fun fn => ((copy_parse copy_fn).trans (copy_word ..))) fun _ => cause_none rfl rfl rfl rfl
theorem cpytt (h : BitVec 8) (cb : SReg) (cr : CReg) (y : Bool) : Statement (.cpytt h cb cr y) :=
  ucpyWord_trip rfl (by decide) (by decide) (fun fn => ((copy_parse copy_fn).trans (copyTile_word ..))) fun _ => cause_none rfl rfl rfl rfl
theorem cpyfill (h : BitVec 8) (cb : SReg) (cr : CReg) (y : Bool) : Statement (.cpyfill h cb cr y) :=
  ucpyWord_trip rfl (by decide) (by decide) (fun fn => ((copy_parse copy_fn).trans (copyTile_word ..))) fun _ => cause_none rfl rfl rfl rfl
theorem bshr (d : BitVec 4) (a b : SReg) (g : Guard) : Statement (.bshr d a b g) :=
  uWord_trip _ rfl word_fn (by decide) id (fun h => (by
    change need _ _ _ = _
    simp (disch := decide) only [need, zero, fA, fB, fG, fld, take_low, take_high, take_all, Nat.reduceSub, guard_bits, uWord, Instr.asDecoded] <;>
    (try simp only [Nat.reduceAdd, Nat.reduceSub, take_all, guard_bits, laneSrc_bits, hold_bits, size_bits, scope_bits, hint_bits, atomOp_bits, cond_bits, fcond_bits, waitCond_bits, cmb_bits, rnd_bits, cvtCode_bits, reduOp_bits, qfmt_bits, repTy_bits, prefKind_bits, matFn_bits, bit_flag]) <;> rfl)) fun h => cause_none rfl ((Bool.or_false _).trans (guard_used h)) rfl rfl
theorem qpop (d a : SReg) (g : Guard) : Statement (.qpop d a g) :=
  uWord_trip _ rfl word_fn (by decide) (fun h => by simp [Instr.wellFormed] at h; simp [h]) (fun h => (ua2_word ..)) fun hw => cause_none rfl (by
      have hw : (g.ok && d.toNat ≤ 60) = true := hw
      change (g.bits == 0xF || d.toNat + 3 > 63) = false
      simp only [Bool.and_eq_true, decide_eq_true_eq, guard_ones] at hw
      simp at hw ⊢; exact ⟨hw.1, by omega⟩) rfl rfl
theorem qpopt (d a : SReg) (g : Guard) : Statement (.qpopt d a g) :=
  uWord_trip _ rfl word_fn (by decide) (fun h => by simp [Instr.wellFormed] at h; simp [h]) (fun h => (ua2_word ..)) fun hw => cause_none rfl (by
      have hw : (g.ok && d.toNat ≤ 60) = true := hw
      change (g.bits == 0xF || d.toNat + 3 > 63) = false
      simp only [Bool.and_eq_true, decide_eq_true_eq, guard_ones] at hw
      simp at hw ⊢; exact ⟨hw.1, by omega⟩) rfl rfl
theorem qpopl (d : VReg) (a : SReg) (b : PReg) (g : Guard) : Statement (.qpopl d a b g) :=
  uWord_trip _ rfl word_fn (by decide) (fun h => by simp [Instr.wellFormed] at h; simp [h]) (fun h => (queueLane_word ..)) fun hw => cause_none rfl (by
      have hw : (g.ok && fits63 d 8) = true := hw
      change (g.bits == 0xF || passes63 d 8) = false
      simp_all [not_past, guard_ones]) rfl rfl
theorem qpush (d a : SReg) (g : Guard) : Statement (.qpush d a g) :=
  uWord_trip _ rfl word_fn (by decide) (fun h => by simp [Instr.wellFormed] at h; simp [h]) (fun h => (ua2_word ..)) fun hw => cause_none rfl (by
      have hw : (g.ok && d.toNat ≤ 60) = true := hw
      change (g.bits == 0xF || d.toNat + 3 > 63) = false
      simp only [Bool.and_eq_true, decide_eq_true_eq, guard_ones] at hw
      simp at hw ⊢; exact ⟨hw.1, by omega⟩) rfl rfl
theorem qpushl (d : VReg) (a : SReg) (b : PReg) (g : Guard) : Statement (.qpushl d a b g) :=
  uWord_trip _ rfl word_fn (by decide) (fun h => by simp [Instr.wellFormed] at h; simp [h]) (fun h => (queueLane_word ..)) fun hw => cause_none rfl (by
      have hw : (g.ok && fits63 d 8) = true := hw
      change (g.bits == 0xF || passes63 d 8) = false
      simp_all [not_past, guard_ones]) rfl rfl
theorem bara (id : BitVec 4) (e : Scope) (a d : SReg) (g : Guard) : Statement (.bara id e a d g) :=
  ubarWord_trip _ rfl rfl (by decide) (fun h => by simp [Instr.wellFormed] at h; simp [h]) (fun h => (by
    refine (bar_parse bar_fn).trans ?_
    have he : (e != .system && e != .tenant) = true := (Bool.and_eq_true _ _ ▸ h).2
    have hb : (e == .system || e == .tenant) = false := by cases e <;> simp_all
    change barrier _ _ = _
    simp (disch := decide) only [barrier, code, fG, fSc, fld, take_low, take_high, take_all, Nat.reduceSub, guard_bits, scope_bits, ubarWord, Instr.asDecoded, hb] <;> rfl)) fun hw => cause_none rfl (by
      have hw : (g.ok && (e != .system && e != .tenant)) = true := hw
      change (g.bits == 0xF || false) = false
      simp_all [guard_ones]) rfl rfl
theorem baraw (id : BitVec 4) (e : Scope) (a d : SReg) (g : Guard) : Statement (.baraw id e a d g) :=
  ubarWord_trip _ rfl rfl (by decide) (fun h => by simp [Instr.wellFormed] at h; simp [h]) (fun h => (by
    refine (bar_parse bar_fn).trans ?_
    have he : (e != .system && e != .tenant) = true := (Bool.and_eq_true _ _ ▸ h).2
    have hb : (e == .system || e == .tenant) = false := by cases e <;> simp_all
    change barrier _ _ = _
    simp (disch := decide) only [barrier, code, fG, fSc, fld, take_low, take_high, take_all, Nat.reduceSub, guard_bits, scope_bits, ubarWord, Instr.asDecoded, hb] <;> rfl)) fun hw => cause_none rfl (by
      have hw : (g.ok && (e != .system && e != .tenant)) = true := hw
      change (g.bits == 0xF || false) = false
      simp_all [guard_ones]) rfl rfl
theorem barw (id : BitVec 4) (e : Scope) (d : SReg) (g : Guard) : Statement (.barw id e d g) :=
  ubarWord_trip _ rfl rfl (by decide) (fun h => by simp [Instr.wellFormed] at h; simp [h]) (fun h => (by
    refine (bar_parse bar_fn).trans ?_
    have he : (e != .system && e != .tenant) = true := (Bool.and_eq_true _ _ ▸ h).2
    have hb : (e == .system || e == .tenant) = false := by cases e <;> simp_all
    change barrier _ _ = _
    simp (disch := decide) only [barrier, need, code, zero, fG, fSc, fld, take_low, take_high, take_all, Nat.reduceSub, guard_bits, scope_bits, ubarWord, Instr.asDecoded, hb] <;> rfl)) fun hw => cause_none rfl (by
      have hw : (g.ok && (e != .system && e != .tenant)) = true := hw
      change (g.bits == 0xF || false) = false
      simp_all [guard_ones]) rfl rfl
theorem trap (n : BitVec 4) (g : Guard) : Statement (.trap n g) :=
  uWord_trip _ rfl word_fn (by decide) id (fun h => (by
    change need _ _ _ = _
    simp only [zeros_11_14]
    simp (disch := decide) only [need, fG, fld, take_low, take_high, take_all, Nat.reduceSub, guard_bits, uWord, Instr.asDecoded] <;>
    (try simp only [Nat.reduceAdd, Nat.reduceSub, take_all, guard_bits, laneSrc_bits, hold_bits, size_bits, scope_bits, hint_bits, atomOp_bits, cond_bits, fcond_bits, waitCond_bits, cmb_bits, rnd_bits, cvtCode_bits, reduOp_bits, qfmt_bits, repTy_bits, prefKind_bits, matFn_bits, bit_flag]) <;> rfl)) fun h => cause_none rfl ((Bool.or_false _).trans (guard_used h)) rfl rfl
theorem wmk (sig : BitVec 16) (g : Guard) : Statement (.wmk sig g) :=
  uwmkWord_trip _ rfl rfl (by decide) id (fun h => (by
    change need _ _ _ = _
    simp (disch := decide) only [need, zero, fG, fld, take_low, take_high, take_all, Nat.reduceSub, guard_bits, uwmkWord, Instr.asDecoded] <;>
    (try simp only [Nat.reduceAdd, Nat.reduceSub, take_all, guard_bits, laneSrc_bits, hold_bits, size_bits, scope_bits, hint_bits, atomOp_bits, cond_bits, fcond_bits, waitCond_bits, cmb_bits, rnd_bits, cvtCode_bits, reduOp_bits, qfmt_bits, repTy_bits, prefKind_bits, matFn_bits, bit_flag]) <;> rfl)) fun h => cause_none rfl ((Bool.or_false _).trans (guard_used h)) rfl rfl
theorem ireg (g : Guard) : Statement (.ireg g) :=
  uWord_trip _ rfl word_fn (by decide) id (fun h => (by
    change need _ _ _ = _
    simp only [zeros_7_12]
    simp (disch := decide) only [need, zero, fG, fFlag, fld, take_low, take_high, take_all, Nat.reduceSub, guard_bits, uWord, Instr.asDecoded] <;>
    (try simp only [Nat.reduceAdd, Nat.reduceSub, take_all, guard_bits, laneSrc_bits, hold_bits, size_bits, scope_bits, hint_bits, atomOp_bits, cond_bits, fcond_bits, waitCond_bits, cmb_bits, rnd_bits, cvtCode_bits, reduOp_bits, qfmt_bits, repTy_bits, prefKind_bits, matFn_bits, bit_flag]) <;> rfl)) fun h => cause_none rfl ((Bool.or_false _).trans (guard_used h)) rfl rfl
theorem iregClose (g : Guard) : Statement (.iregClose g) :=
  uWord_trip _ rfl word_fn (by decide) id (fun h => (by
    change need _ _ _ = _
    simp only [zeros_7_12]
    simp (disch := decide) only [need, zero, fG, fFlag, fld, take_low, take_high, take_all, Nat.reduceSub, guard_bits, uWord, Instr.asDecoded] <;>
    (try simp only [Nat.reduceAdd, Nat.reduceSub, take_all, guard_bits, laneSrc_bits, hold_bits, size_bits, scope_bits, hint_bits, atomOp_bits, cond_bits, fcond_bits, waitCond_bits, cmb_bits, rnd_bits, cvtCode_bits, reduOp_bits, qfmt_bits, repTy_bits, prefKind_bits, matFn_bits, bit_flag]) <;> rfl)) fun h => cause_none rfl ((Bool.or_false _).trans (guard_used h)) rfl rfl
theorem mboxSend (d a : SReg) (g : Guard) : Statement (.mboxSend d a g) :=
  uWord_trip _ rfl word_fn (by decide) (fun h => by simp [Instr.wellFormed] at h; simp [h]) (fun h => (ua2_word ..)) fun hw => cause_none rfl (by
      have hw : (g.ok && d.toNat ≤ 60) = true := hw
      change (g.bits == 0xF || d.toNat + 3 > 63) = false
      simp only [Bool.and_eq_true, decide_eq_true_eq, guard_ones] at hw
      simp at hw ⊢; exact ⟨hw.1, by omega⟩) rfl rfl
theorem mboxRecv (d a : SReg) (g : Guard) : Statement (.mboxRecv d a g) :=
  uWord_trip _ rfl word_fn (by decide) (fun h => by simp [Instr.wellFormed] at h; simp [h]) (fun h => (ua2_word ..)) fun hw => cause_none rfl (by
      have hw : (g.ok && d.toNat ≤ 60) = true := hw
      change (g.bits == 0xF || d.toNat + 3 > 63) = false
      simp only [Bool.and_eq_true, decide_eq_true_eq, guard_ones] at hw
      simp at hw ⊢; exact ⟨hw.1, by omega⟩) rfl rfl
theorem mboxPeek (d a : SReg) (g : Guard) : Statement (.mboxPeek d a g) :=
  uWord_trip _ rfl word_fn (by decide) (fun h => by simp [Instr.wellFormed] at h; simp [h]) (fun h => (ua2_word ..)) fun hw => cause_none rfl (by
      have hw : (g.ok && d.toNat ≤ 60) = true := hw
      change (g.bits == 0xF || d.toNat + 3 > 63) = false
      simp only [Bool.and_eq_true, decide_eq_true_eq, guard_ones] at hw
      simp at hw ⊢; exact ⟨hw.1, by omega⟩) rfl rfl
theorem bfi (d a b c : VReg) : Statement (.bfi d a b c) :=
  ltWord_trip _ rfl rfl (by decide) ((if_pos lt_one).trans (lt_word ..)) fun _ => cause_none rfl rfl rfl rfl
theorem ffma (d a b c : VReg) : Statement (.ffma d a b c) :=
  ltWord_trip _ rfl rfl (by decide) ((if_neg lt_zero).trans (lt_word ..)) fun _ => cause_none rfl rfl rfl rfl
theorem ffms (d a b c : VReg) : Statement (.ffms d a b c) :=
  ltWord_trip _ rfl rfl (by decide) ((if_pos lt_one).trans (lt_word ..)) fun _ => cause_none rfl rfl rfl rfl
theorem bfma2 (d a b c : VReg) : Statement (.bfma2 d a b c) :=
  ltWord_trip _ rfl rfl (by decide) ((if_neg lt_zero).trans (lt_word ..)) fun _ => cause_none rfl rfl rfl rfl
theorem bfms2 (d a b c : VReg) : Statement (.bfms2 d a b c) :=
  ltWord_trip _ rfl rfl (by decide) ((if_pos lt_one).trans (lt_word ..)) fun _ => cause_none rfl rfl rfl rfl
end Sys2Proof.Laws.RoundTrip
end

