-- ==== Sys2Proof/Tests/Slice0.lean ====
section
/-! SUPPORT. The tests of this model: instruction words written out from the encodings of the spec, the checks of WellFormed
and what each refuses, one step of instructions whose results the spec's examples or tables give, the engines' arithmetic on
the spec's examples, and for every obligation with hypotheses a state and operands that meet them. -/

open Sys2Proof Sys2Proof.Machine
namespace Sys2Proof.Tests

-- One theorem after another: with some eighty kernel evaluations waiting at once, Lean asks for more threads than memory.
set_option Elab.async false

/-! ## Decoding -/

/-- A user ply, a context ply and a service ply decode. -/
def user : DecodeCtx := ⟨false, false, true⟩
def privileged : DecodeCtx := ⟨true, false, true⟩
def service : DecodeCtx := ⟨true, true, false⟩
/-- What a word and the word after it decode to. -/
noncomputable def decodes (l : List (BitVec 32 × BitVec 32)) : List Parsed := l.map fun (w, x) => decodeWord ⟨true, false, false⟩ w x
/-- Every word is refused with this cause. -/
noncomputable def refuses (ctx : DecodeCtx) (c : DecodeCause) (l : List (BitVec 32)) : Bool :=
  l.all fun w => match decodeWord ctx w 0 with | .error x => x == c | .ok _ => false

theorem test_decode_brv_to_iret : decodes [
    (0xA75A5C3B, 0), (0xA9AA5C3B, 0), (0xAA30000B, 0), (0xD428001B, 0), (0xD428002B, 0), (0xD428003B, 0), (0xD428004B, 0),
    (0xDC00005B, 0)] = [
    .ok (.brv 0x15a5c3 true 3), .ok (.kpin 6 0x2a5c3 ⟨true, 3⟩), .ok (.kmeet 6 ⟨true, 3⟩), .ok (.ptkt 5 ⟨true, 3⟩),
    .ok (.pdone 5 ⟨true, 3⟩), .ok (.pwait 5 ⟨true, 3⟩), .ok (.pquit 5 ⟨true, 3⟩), .ok (.iret ⟨true, 3⟩)] := rfl
theorem test_decode_uadd_to_umaxu : decodes [
    (0x8162530B, 0), (0x8162531B, 0), (0x8162532B, 0), (0x8162533B, 0), (0x8162534B, 0), (0x8162535B, 0), (0x8162536B, 0),
    (0x8162537B, 0), (0x8362530B, 0), (0x8362531B, 0), (0x8362532B, 0), (0x8362533B, 0), (0x8362534B, 0), (0x8362535B, 0),
    (0x8362536B, 0), (0x8362537B, 0)] = [
    .ok (.uadd 44 18 38 ⟨true, 3⟩), .ok (.usub 44 18 38 ⟨true, 3⟩), .ok (.umul 44 18 38 ⟨true, 3⟩),
    .ok (.umulhi 44 18 38 ⟨true, 3⟩), .ok (.umulhu 44 18 38 ⟨true, 3⟩), .ok (.umin 44 18 38 ⟨true, 3⟩),
    .ok (.umax 44 18 38 ⟨true, 3⟩), .ok (.uminu 44 18 38 ⟨true, 3⟩), .ok (.uand 44 18 38 ⟨true, 3⟩),
    .ok (.uor 44 18 38 ⟨true, 3⟩), .ok (.uxor 44 18 38 ⟨true, 3⟩), .ok (.uandn 44 18 38 ⟨true, 3⟩),
    .ok (.ushl 44 18 38 ⟨true, 3⟩), .ok (.ushr 44 18 38 ⟨true, 3⟩), .ok (.usar 44 18 38 ⟨true, 3⟩),
    .ok (.umaxu 44 18 38 ⟨true, 3⟩)] := rfl
theorem test_decode_upopc_to_ucmp : decodes [
    (0x85624005, 0), (0x8562401B, 0), (0x85624025, 0), (0x85625335, 0), (0x85625345, 0), (0x85625355, 0), (0x8765A3CB, 0),
    (0x8965A3C5, 0), (0x8B65A3CB, 0), (0x8D65A3C5, 0), (0x8F60025B, 0), (0x91600255, 0), (0x9360025B, 0), (0x9565A3C5, 0),
    (0x9765A3CB, 0), (0x9B625305, 0)] = [
    .ok (.upopc 44 18 ⟨false, 5⟩), .ok (.uclz 44 18 ⟨true, 3⟩), .ok (.uctz 44 18 ⟨false, 5⟩),
    .ok (.ubfx 44 18 38 ⟨false, 5⟩), .ok (.udivu 44 18 38 ⟨false, 5⟩), .ok (.uremu 44 18 38 ⟨false, 5⟩),
    .ok (.uaddi 44 0x5a3c ⟨true, 3⟩), .ok (.uandi 44 0x5a3c ⟨false, 5⟩), .ok (.uori 44 0x5a3c ⟨true, 3⟩),
    .ok (.uxori 44 0x5a3c ⟨false, 5⟩), .ok (.ushli 44 37 ⟨true, 3⟩), .ok (.ushri 44 37 ⟨false, 5⟩),
    .ok (.usari 44 37 ⟨true, 3⟩), .ok (.umovi 44 0x5a3c ⟨false, 5⟩), .ok (.umuli 44 0x5a3c ⟨true, 3⟩),
    .ok (.ucmp .ge 4 18 38 ⟨false, 5⟩)] := rfl
theorem test_decode_ucmpi_to_v2s64 : decodes [
    (0x9CA2555B, 0), (0x9E30628B, 0), (0x9E30629B, 0), (0x9E3062AB, 0), (0x9E3062BB, 0), (0xA15A5C3B, 0), (0xA35A5C3B, 0),
    (0xA402400B, 0), (0xA402401B, 0), (0xA402402B, 0), (0xAD60000B, 0), (0xAC02401B, 0), (0xAC00602B, 0), (0xAD606035, 0),
    (0xAD62404B, 0), (0xAD624055, 0)] = [
    .ok (.ucmpi .lt 4 18 0x155 ⟨true, 3⟩), .ok (.qand 6 3 5 ⟨true, 3⟩), .ok (.qor 6 3 5 ⟨true, 3⟩),
    .ok (.qxor 6 3 5 ⟨true, 3⟩), .ok (.qandn 6 3 5 ⟨true, 3⟩), .ok (.bra 0x15a5c3 ⟨true, 3⟩), .ok (.call 0x15a5c3 ⟨true, 3⟩),
    .ok (.brx 18 ⟨true, 3⟩), .ok (.callx 18 ⟨true, 3⟩), .ok (.ret 18 ⟨true, 3⟩), .ok (.emrd 44 ⟨true, 3⟩),
    .ok (.emwr 18 ⟨true, 3⟩), .ok (.emandp 3 ⟨true, 3⟩), .ok (.vote 44 3 ⟨false, 5⟩), .ok (.v2s 44 18 ⟨true, 3⟩),
    .ok (.v2s64 44 18 ⟨false, 5⟩)] := rfl
theorem test_decode_s2v_to_swr : decodes [
    (0xAD62406B, 0), (0xAD60007B, 0), (0xAF62407B, 0), (0xB1647575, 0), (0xB364757B, 0), (0xB5647705, 0), (0xB7646F0B, 0),
    (0xB964675B, 0), (0xBB64631B, 0), (0xBC00C00B, 0), (0xBC00C01B, 0), (0xBC00202B, 0), (0xBF64773B, 0), (0xC1F433B5, 0),
    (0xC364E98B, 0), (0xC564E985, 0)] = [
    .ok (.s2v 44 18 ⟨true, 3⟩), .ok (.empop 44 ⟨true, 3⟩), .ok (.redu 44 18 .xor ⟨true, 3⟩),
    .ok (.uld 44 35 0x55 .b64 ⟨false, 5⟩), .ok (.ust 44 35 0x55 .b64 ⟨true, 3⟩), .ok (.ulda 44 35 .system true ⟨false, 5⟩),
    .ok (.ustr 44 35 .package true ⟨true, 3⟩), .ok (.uatom 44 35 .quad true .maxu ⟨true, 3⟩),
    .ok (.ucas 44 35 .core true true ⟨true, 3⟩), .ok (.fence .tenant ⟨true, 3⟩), .ok (.fenceAcq .tenant ⟨true, 3⟩),
    .ok (.fenceRel .quad ⟨true, 3⟩), .ok (.waitc 44 35 .system true .ltu ⟨true, 3⟩), .ok (.waitn 62 33 0x13 11 ⟨false, 5⟩),
    .ok (.srd 44 0x9d3 ⟨true, 3⟩), .ok (.swr 44 0x9d3 ⟨false, 5⟩)] := rfl
theorem test_decode_ulit_to_ulitHi : decodes [
    (0x9960000B, 0x89ABCDEF), (0x99600015, 0x89ABCDEF), (0x9960002B, 0x89ABCDEF)] = [
    .ok (.ulit 44 0x89ABCDEF ⟨true, 3⟩), .ok (.ulitS 44 0x89ABCDEF ⟨false, 5⟩), .ok (.ulitHi 44 0x89ABCDEF ⟨true, 3⟩)] := rfl
theorem test_decode_iadd_to_orB : decodes [
    (0x03625186, 0), (0x0362518E, 0), (0x03625196, 0), (0x0362519E, 0), (0x036251A6, 0), (0x036251AE, 0), (0x036251B6, 0),
    (0x036251BE, 0), (0x05625186, 0), (0x0562518E, 0), (0x05625196, 0), (0x0562519E, 0), (0x056251A6, 0), (0x056251AE, 0),
    (0x07625186, 0), (0x0762518E, 0)] = [
    .ok (.iadd 44 18 (.s 6) .d), .ok (.isub 44 18 (.s 6) .d), .ok (.imul 44 18 (.s 6) .d), .ok (.imulhi 44 18 (.s 6) .d),
    .ok (.imulhu 44 18 (.s 6) .d), .ok (.imin 44 18 (.s 6) .d), .ok (.imax 44 18 (.s 6) .d), .ok (.iminu 44 18 (.s 6) .d),
    .ok (.imaxu 44 18 (.s 6) .d), .ok (.iaddsat 44 18 (.s 6) .d), .ok (.isubsat 44 18 (.s 6) .d),
    .ok (.iaddusat 44 18 (.s 6) .d), .ok (.isubusat 44 18 (.s 6) .d), .ok (.iabsd 44 18 (.s 6) .d),
    .ok (.andB 44 18 (.s 6) .d), .ok (.orB 44 18 (.s 6) .d)] := rfl
theorem test_decode_xorB_to_imuli : decodes [
    (0x07625196, 0), (0x0762519E, 0), (0x076251A6, 0), (0x076251AE, 0), (0x076251B6, 0), (0x076251BE, 0), (0x09625186, 0),
    (0x0962518E, 0), (0x09625196, 0), (0x0962401E, 0), (0x09624026, 0), (0x0962402E, 0), (0x096248B6, 0), (0x096248BE, 0),
    (0x0B62555A, 0), (0x0D62555A, 0)] = [
    .ok (.xorB 44 18 (.s 6) .d), .ok (.andn 44 18 (.s 6) .d), .ok (.orn 44 18 (.s 6) .d), .ok (.xnor 44 18 (.s 6) .d),
    .ok (.shl 44 18 (.s 6) .d), .ok (.shr 44 18 (.s 6) .d), .ok (.sar 44 18 (.s 6) .d), .ok (.rotl 44 18 (.s 6) .d),
    .ok (.rotr 44 18 (.s 6) .d), .ok (.popc 44 18 .d), .ok (.clz 44 18 .d), .ok (.brev 44 18 .d),
    .ok (.bfx 44 18 (.v 34) .d), .ok (.bfxs 44 18 (.v 34) .d), .ok (.iaddi 44 18 0x155a), .ok (.imuli 44 18 0x155a)] := rfl
theorem test_decode_andi_to_pxor : decodes [
    (0x0F62555A, 0), (0x1162555A, 0), (0x1362555A, 0), (0x15624013, 0), (0x17624013, 0), (0x19624013, 0), (0x1B60155A, 0),
    (0x1D4A51A0, 0), (0x2162530C, 0), (0x21625365, 0), (0x31624006, 0), (0x3160600E, 0), (0x30324012, 0), (0x30306158, 0),
    (0x30306160, 0), (0x30306168, 0)] = [
    .ok (.andi 44 18 0x155a), .ok (.ori 44 18 0x155a), .ok (.xori 44 18 0x155a), .ok (.shli 44 18 0x13),
    .ok (.shri 44 18 0x13), .ok (.sari 44 18 0x13), .ok (.movi 44 0x155a), .ok (.icmp 5 .and 18 (.s 6) .gt 0),
    .ok (.sel 44 18 38 6), .ok (.bfi 44 18 38 50), .ok (.mov 44 18 .d), .ok (.ptov 44 3 .d), .ok (.vtop 6 18 .a),
    .ok (.pand 6 3 5), .ok (.por 6 3 5), .ok (.pxor 6 3 5)] := rfl
theorem test_decode_pandn_to_lsr : decodes [
    (0x30306170, 0), (0x33625186, 0), (0x3362518E, 0), (0x33625196, 0), (0x3362519E, 0), (0x33624026, 0), (0x35600002, 0)] = [
    .ok (.pandn 6 3 5), .ok (.shfl 44 18 (.s 6) .d), .ok (.shflx 44 18 (.s 6) .d), .ok (.shflup 44 18 (.s 6) .d),
    .ok (.shfldn 44 18 (.s 6) .d), .ok (.iscan 44 18 .d), .ok (.lsr 44 2)] := rfl
theorem test_decode_fcmp_to_fceil : decodes [
    (0x1F4A5190, 0), (0x23624886, 0), (0x2362488E, 0), (0x23624896, 0), (0x2362489E, 0), (0x236248A6, 0), (0x236248AE, 0),
    (0x236248B6, 0), (0x236248BE, 0), (0x25624006, 0), (0x2562400E, 0), (0x25624016, 0), (0x2562401E, 0), (0x25624026, 0),
    (0x2562402E, 0), (0x25624036, 0)] = [
    .ok (.fcmp 5 .and 18 (.s 6) .lt 0), .ok (.fadd 44 18 (.v 34) .d), .ok (.fsub 44 18 (.v 34) .d),
    .ok (.fmul 44 18 (.v 34) .d), .ok (.fmin 44 18 (.v 34) .d), .ok (.fmax 44 18 (.v 34) .d),
    .ok (.fcopysign 44 18 (.v 34) .d), .ok (.fminm 44 18 (.v 34) .d), .ok (.fmaxm 44 18 (.v 34) .d), .ok (.frcp 44 18 .d),
    .ok (.fsqrt 44 18 .d), .ok (.frsq 44 18 .d), .ok (.fexp2 44 18 .d), .ok (.flog2 44 18 .d), .ok (.ffloor 44 18 .d),
    .ok (.fceil 44 18 .d)] := rfl
theorem test_decode_ftrunc_to_rnsadd : decodes [
    (0x2562403E, 0), (0x27624006, 0), (0x2762400E, 0), (0x27624896, 0), (0x29625364, 0), (0x29625365, 0), (0x2B624886, 0),
    (0x2B62488E, 0), (0x2B624896, 0), (0x2B62489E, 0), (0x2D625364, 0), (0x2D625365, 0), (0x2F624303, 0), (0x59624006, 0),
    (0x5962400E, 0), (0x59625196, 0)] = [
    .ok (.ftrunc 44 18 .d), .ok (.frint 44 18 .d), .ok (.fclass 44 18 .d), .ok (.fscale 44 18 (.v 34) .d),
    .ok (.ffma 44 18 38 50), .ok (.ffms 44 18 38 50), .ok (.badd2 44 18 (.v 34) .d), .ok (.bmul2 44 18 (.v 34) .d),
    .ok (.bmin2 44 18 (.v 34) .d), .ok (.bmax2 44 18 (.v 34) .d), .ok (.bfma2 44 18 38 50), .ok (.bfms2 44 18 38 50),
    .ok (.cvt 44 18 0 true (.mode .rna) .u32F32), .ok (.rnsf 44 18 .d), .ok (.rnsfw 44 18 .d), .ok (.rnsadd 44 18 (.s 6) .d)] := rfl
theorem test_decode_rnsmul_to_rnschkw : decodes [
    (0x5962519E, 0), (0x596FA1E6, 0), (0x596FA1EE, 0), (0x59624036, 0), (0x5962403E, 0), (0x5B624006, 0), (0x5B62400E, 0),
    (0x5B624016, 0), (0x5B62401E, 0)] = [
    .ok (.rnsmul 44 18 (.s 6) .d), .ok (.rnsaddw 45 61 7 .d), .ok (.rnsmulw 45 61 7 .d), .ok (.rnsneg 44 18 .d),
    .ok (.rnsnegw 44 18 .d), .ok (.rnsr 44 18 .d), .ok (.rnsrw 44 18 .d), .ok (.rnschk 44 18 .d), .ok (.rnschkw 44 18 .d)] := rfl
theorem test_decode_ld_to_tst : decodes [
    (0x376251B7, 0), (0x396251F4, 0), (0x3B6251F4, 0), (0x3D6251EC, 0), (0x3F6251D1, 0), (0x416251F6, 0), (0x436251BC, 0),
    (0x456251EB, 0), (0x47625184, 0), (0x496251C0, 0), (0x4A1A5180, 0), (0x4D6254EC, 0), (0x4F6254F8, 0)] = [
    .ok (.ld 44 18 35 .b16 2 .noAllocate true), .ok (.st 44 18 35 .b64 2 .evictLast), .ok (.lda 44 18 35 true .system),
    .ok (.str 44 18 35 true .package), .ok (.atom 44 18 35 .add64 .quad), .ok (.atomar 44 18 35 .max64 .tenant),
    .ok (.cas 44 18 35 .package true true), .ok (.red 44 18 35 .min64 .package), .ok (.redq 44 18 35 .bf16 .quad),
    .ok (.ldrep 44 18 35 .f32), .ok (.pref .demote 18 35), .ok (.tld 44 18 0xa7 .b16 true), .ok (.tst 44 18 0xa7 .b64)] := rfl
theorem test_decode_mma_to_mfill : decodes [
    (0x51625E4D, 0), (0x53625E4C, 0), (0x556000A7, 0), (0x560240A7, 0)] = [
    .ok (.mma 44 18 60 0x13 .overwrite), .ok (.mmai 44 18 60 0x13 .acc), .ok (.mstate 44 0xa7), .ok (.mfill 18 0xa7)] := rfl
theorem test_decode_talloc_to_qpopl : decodes [
    (0xC6024005, 0), (0xC762401B, 0), (0xC802400B, 0), (0xCB4F7496, 0), (0xCB4F74B6, 0), (0xCB4E14D6, 0), (0xCB4E14F6, 0),
    (0xCC5A4005, 0), (0xCE32400B, 0), (0xD05A530B, 0), (0xD42A400B, 0), (0xD560005B, 0), (0xD560006B, 0), (0xD7624005, 0),
    (0xD762401B, 0), (0xD7C242AB, 0)] = [
    .ok (.talloc 18 ⟨false, 5⟩), .ok (.talloct 44 18 ⟨true, 3⟩), .ok (.tfree 18 ⟨true, 3⟩), .ok (.cpyin 0xa7 11 41 5 true),
    .ok (.cpyout 0xa7 11 41 5 true), .ok (.cpytt 0xa7 41 5 true), .ok (.cpyfill 0xa7 41 5 true),
    .ok (.tbind 11 18 ⟨false, 5⟩), .ok (.cbld 6 18 ⟨true, 3⟩), .ok (.bshr 11 18 38 ⟨true, 3⟩), .ok (.pbind 5 18 ⟨true, 3⟩),
    .ok (.give 44 ⟨true, 3⟩), .ok (.claim 44 ⟨true, 3⟩), .ok (.qpop 44 18 ⟨false, 5⟩), .ok (.qpopt 44 18 ⟨true, 3⟩),
    .ok (.qpopl 56 18 5 ⟨true, 3⟩)] := rfl
theorem test_decode_qpush_to_sysc : decodes [
    (0xD7624035, 0), (0xD7C242C5, 0), (0xD762405B, 0), (0xD9704AC5, 0), (0xD9714ACB, 0), (0xD97202CB, 0), (0xDA02400B, 0),
    (0xDA02408B, 0), (0xDA02401B, 0), (0xDA02409B, 0), (0xDC000005, 0), (0xDC30002B, 0), (0xDC0005BB, 0), (0xDC000065, 0),
    (0xDC00001B, 0), (0xDC000045, 0)] = [
    .ok (.qpush 44 18 ⟨false, 5⟩), .ok (.qpushl 56 18 5 ⟨false, 5⟩), .ok (.qcnt 44 18 ⟨true, 3⟩),
    .ok (.bara 11 .pod 18 44 ⟨false, 5⟩), .ok (.baraw 11 .pod 18 44 ⟨true, 3⟩), .ok (.barw 11 .pod 44 ⟨true, 3⟩),
    .ok (.lwait 18 ⟨true, 3⟩), .ok (.lwaitArm 18 ⟨true, 3⟩), .ok (.lwake 18 ⟨true, 3⟩), .ok (.lwakeInt 18 ⟨true, 3⟩),
    .ok (.nop ⟨false, 5⟩), .ok (.yld 6 ⟨true, 3⟩), .ok (.trap 11 ⟨true, 3⟩), .ok (.brk ⟨false, 5⟩), .ok (.exit ⟨true, 3⟩),
    .ok (.sysc ⟨false, 5⟩)] := rfl
theorem test_decode_frz_to_iregClose : decodes [
    (0xD360000B, 0), (0xD202401B, 0), (0xD362532B, 0), (0xD202403B, 0), (0xD3624045, 0), (0xD3625355, 0), (0xDE0C35A5, 0),
    (0xE000000B, 0), (0xE0080005, 0)] = [
    .ok (.frz 44 ⟨true, 3⟩), .ok (.rstr 18 ⟨true, 3⟩), .ok (.cast 44 18 38 ⟨true, 3⟩), .ok (.drop 18 ⟨true, 3⟩),
    .ok (.minfo 44 18 ⟨false, 5⟩), .ok (.stamp 44 18 38 ⟨false, 5⟩), .ok (.wmk 0xc35a ⟨false, 5⟩), .ok (.ireg ⟨true, 3⟩),
    .ok (.iregClose ⟨false, 5⟩)] := rfl
theorem test_decode_xrdv_to_tlbiAll : decodes [
    (0xE362400B, 0), (0xE3624015, 0), (0xE362402B, 0), (0xE3624035, 0), (0xE364E9CB, 0), (0xE364E9D5, 0), (0xE362406B, 0),
    (0xE3624075, 0), (0xED600005, 0), (0xEE024005, 0), (0xF164E98B, 0), (0xF364E985, 0), (0xF562400B, 0), (0xF562531B, 0),
    (0xF560002B, 0), (0xF4000035, 0)] = [
    .ok (.xrdv 44 18 ⟨true, 3⟩), .ok (.xwrv 44 18 ⟨false, 5⟩), .ok (.xrds 44 18 ⟨true, 3⟩), .ok (.xwrs 44 18 ⟨false, 5⟩),
    .ok (.xrdsp 44 0x9d3 ⟨true, 3⟩), .ok (.xwrsp 44 0x9d3 ⟨false, 5⟩), .ok (.xrpk 44 18 ⟨true, 3⟩),
    .ok (.xwpk 44 18 ⟨false, 5⟩), .ok (.idle 44 ⟨false, 5⟩), .ok (.rfeResume 18 ⟨false, 5⟩), .ok (.psrd 44 0x9d3 ⟨true, 3⟩),
    .ok (.pswr 44 0x9d3 ⟨false, 5⟩), .ok (.tlbiPage 44 18 ⟨true, 3⟩), .ok (.tlbiRange 44 18 38 ⟨true, 3⟩),
    .ok (.tlbiAs 44 ⟨true, 3⟩), .ok (.tlbiAll ⟨false, 5⟩)] := rfl
theorem test_decode_genb_to_unbind : decodes [
    (0xF762400B, 0), (0xF962530B, 0), (0xF9624015, 0), (0xF8024025, 0), (0xFA024005, 0), (0xFD62400B, 0), (0xFD624015, 0),
    (0xFD62402B, 0), (0xFF62530B, 0), (0xFF62531B, 0)] = [
    .ok (.genb 44 18 ⟨true, 3⟩), .ok (.scrbStart 44 18 38 ⟨true, 3⟩), .ok (.scrbQuery 44 18 ⟨false, 5⟩),
    .ok (.scrbAbort 18 ⟨false, 5⟩), .ok (.kzro 18 ⟨false, 5⟩), .ok (.mboxSend 44 18 ⟨true, 3⟩),
    .ok (.mboxRecv 44 18 ⟨false, 5⟩), .ok (.mboxPeek 44 18 ⟨true, 3⟩), .ok (.bind 44 18 38 ⟨true, 3⟩),
    .ok (.unbind 44 18 38 ⟨true, 3⟩)] := rfl

/-! ## What the decoder refuses -/

/-- R134, order 1: the word of all ones is 0x01 in every mode. -/
theorem test_refuse_all_ones : refuses user .reserved [
    0xFFFFFFFF] = true := rfl
/-- R126, R127: an unassigned major, and an unassigned FN, FN1 or KIND of an assigned one, is 0x00. -/
theorem test_refuse_majors : refuses privileged .illegal [
    0x00000000, 0x7E000000, 0x04000030, 0x26000018, 0x2A000020, 0x30000038, 0x32000028, 0x5A000020, 0x84000067, 0x9A000017,
    0xAA000017, 0x9E000047, 0x98280037, 0xBC000037, 0xD8030007] = true := rfl
/-- Table 7-14, R129, R131, R152: a code that its field does not assign, or that the row does not take, is 0x00. -/
theorem test_refuse_codes : refuses privileged .illegal [
    0x1C180000, 0x1E380000, 0x3E000078, 0x44000048, 0x44000058, 0xB80002A7, 0xB80003B7, 0xB80002D7, 0xB80003E7, 0xB80003C7,
    0xB80002F7, 0x46000060, 0x48000060, 0x4A280000, 0x2E000012, 0x2E00003F, 0x50000003, 0x3A000000, 0x3A000020, 0xB4000107,
    0xB6000007, 0xBA000107, 0xBE000007] = true := rfl
/-- R8, R9: scope 7 of any word, and scopes 5 to 7 of a barrier, are 0x00. -/
theorem test_refuse_scopes : refuses privileged .illegal [
    0x3A00005C, 0x3E000007, 0x42000070, 0x4600001C, 0xB4001E07, 0xBE001E07, 0xBC00E007, 0xD8140007, 0xD8190007, 0xD81E0007] = true := rfl
/-- R128, R286: a word of the privileged majors is 0x02 in user mode. -/
theorem test_refuse_privileged : refuses user .privileged [
    0xF0000007, 0xF4000037, 0xE2000027, 0xEE000007, 0xF6000007, 0xFE000007] = true := rfl
/-- R128: a service core has no matrix engine and no tile store. -/
theorem test_refuse_service : refuses service .illegal [
    0x50000000, 0x52000000, 0x4C000000, 0x4E000000, 0x54000000, 0xC6000007, 0xCA000000] = true := rfl
/-- R128: a lane word of a ply wider than 8 lanes of a service core is 0x00. -/
theorem test_refuse_wide_service : refuses (⟨true, true, true⟩ : DecodeCtx) .illegal [
    0x02000000, 0x36000040] = true := rfl
/-- R120, R123, R131, R162, R166, Table 7-14: a reserved field, and a value that the form does not take, is 0x01. -/
theorem test_refuse_reserved : refuses privileged .reserved [
    0x02000001, 0x08000058, 0x0800001C, 0x30000004, 0x30010008, 0x3000000A, 0x30000014, 0x30000016, 0x1C000001, 0x1E000005,
    0x2E000140, 0x2E000191, 0x2E000200, 0x2E000402, 0x2E000810, 0x2E07E006, 0x2E07A00A, 0x36000041, 0x36000061, 0x38000001,
    0x4C00001C, 0x8000000F, 0xA000000F, 0xDE00000F, 0x8E004007, 0xB4000287, 0xBA000227] = true := rfl
/-- R182, R234 to R236, R289: a group of registers that would pass v63 or s63 is 0x01. -/
theorem test_refuse_groups : refuses privileged .reserved [
    0x59F00008, 0x58000FA0, 0x5807C028, 0x5A07C008, 0xD7E80007, 0xD7F00037, 0xD7C80027, 0xD7C80047, 0xFDE80007] = true := rfl
/-- R45, R122, R125, R148, R182: a pair or a group that starts at the wrong register is 0x06. -/
theorem test_refuse_pairs : refuses privileged .pair [
    0x36080060, 0x38080060, 0x3A280060, 0x3C280060, 0x3E080050, 0x40080070, 0x44080068, 0x42080000, 0x42100008, 0x48080020,
    0x4C080018, 0x4E080018, 0xBA080207, 0xAC002057, 0x58080000, 0x58002008, 0x5A002000, 0x5A080008, 0x58002030, 0x5A080010,
    0x58000050, 0x58080018] = true := rfl
/-- Table 7-14: a format block that does not start at a multiple of 4 is 0x04. -/
theorem test_refuse_format_base : refuses privileged .formatBase [
    0x50000080, 0x52000100] = true := rfl

/-! ## WellFormed -/

/-- The checks of WellFormed each refuse an instruction that breaks them, and take its neighbour that does not. -/
noncomputable def illFormed (l : List Instr) : Bool := l.all fun i => !i.wellFormed
noncomputable def formed (l : List Instr) : Bool := l.all fun i => i.wellFormed
theorem test_ill_formed_guard : illFormed [.uadd 0 0 0 ⟨true, 7⟩, .nop ⟨true, 7⟩, .psrd 0 0 ⟨true, 7⟩] = true := rfl
theorem test_formed_guard : formed [.uadd 0 0 0 ⟨false, 7⟩, .nop ⟨true, 6⟩, .psrd 0 0 ⟨false, 0⟩] = true := rfl
theorem test_ill_formed_holds : illFormed [.popc 0 0 .b, .mov 0 0 .b, .rnsneg 0 0 .b, .ptov 0 0 .a, .ptov 0 0 .b, .vtop 0 0 .b,
    .vtop 0 0 .d, .icmp 0 .replace 0 (.v 0) .eq 1, .fcmp 0 .replace 0 (.v 0) .un 7] = true := rfl
theorem test_formed_holds : formed [.popc 0 0 .a, .mov 0 0 .d, .rnsneg 0 0 .none, .ptov 0 0 .d, .vtop 0 0 .a,
    .icmp 0 .and 0 (.v 0) .eq 1, .fcmp 0 .replace 0 (.v 0) .un 0] = true := rfl
theorem test_ill_formed_cvt : illFormed [.cvt 0 0 1 false .dyn .s32F32, .cvt 0 63 0 false .dyn .bf16x2F32,
    .cvt 0 61 0 false .dyn .e4m3x4F32, .cvt 0 0 0 true .dyn .f32E4m3, .cvt 0 0 2 false .dyn .f32S16, .cvt 0 0 0 true .dyn .f32S32,
    .cvt 0 0 1 false .dyn .s8F32] = true := rfl
theorem test_formed_cvt : formed [.cvt 0 0 0 true .dyn .s32F32, .cvt 0 62 0 true .dyn .bf16x2F32, .cvt 0 60 0 true .dyn .e4m3x4F32,
    .cvt 0 0 3 false .dyn .f32E4m3, .cvt 0 0 1 false .dyn .f32S16, .cvt 0 0 0 false .dyn .s8F32] = true := rfl
theorem test_ill_formed_pairs : illFormed [.ld 1 0 0 .b64 0 .normal false, .st 1 0 0 .b64 0 .normal, .lda 1 0 0 true .core, .str 1 0 0 true .core,
    .atom 1 0 0 .add64 .core, .atomar 1 0 0 .max64 .core, .red 1 0 0 .min64 .core, .cas 1 0 0 .core false false, .cas 2 0 0 .core true false,
    .ldrep 1 0 0 .s64, .tld 1 0 0 .b64 false, .tst 1 0 0 .b64, .v2s64 0 1 ⟨false, 7⟩, .ucas 1 0 .core false false ⟨false, 7⟩] = true := rfl
theorem test_formed_pairs : formed [.ld 2 0 0 .b64 0 .normal false, .ld 1 0 0 .b32 0 .normal false, .atom 2 0 0 .add64 .core,
    .atom 1 0 0 .xchg .core, .cas 2 0 0 .core false false, .cas 4 0 0 .core true false, .ldrep 1 0 0 .s32, .tst 1 0 0 .b32] = true := rfl
theorem test_ill_formed_codes : illFormed [.ld 0 0 0 .b32 0 .normal true, .tld 0 0 0 .b64 true, .red 0 0 0 .xchg .core, .red 0 0 0 .xchg64 .core,
    .uatom 0 0 .core true .add64 ⟨false, 7⟩, .uatom 0 0 .core true .fadd ⟨false, 7⟩, .mma 0 0 1 0 .acc, .mmai 0 0 2 0 .acc,
    .bara 0 .system 0 0 ⟨false, 7⟩, .baraw 0 .tenant 0 0 ⟨false, 7⟩, .barw 0 .system 0 ⟨false, 7⟩] = true := rfl
theorem test_formed_codes : formed [.ld 0 0 0 .b8 0 .normal true, .tld 0 0 0 .b16 true, .uatom 0 0 .core false .fadd ⟨false, 7⟩,
    .mma 0 0 60 0 .acc, .bara 0 .pod 0 0 ⟨false, 7⟩] = true := rfl
theorem test_ill_formed_groups : illFormed [.rnsf 1 0 .none, .rnsfw 0 1 .none, .rnsfw 62 0 .none, .rnsadd 0 0 (.v 1) .none, .rnsadd 0 1 (.s 1) .none,
    .rnsmul 1 0 (.v 0) .none, .rnsaddw 0 0 62 .none, .rnsmulw 62 0 0 .none, .rnsneg 0 1 .none, .rnsnegw 0 62 .none, .rnsr 0 1 .none,
    .rnsrw 1 0 .none, .rnsrw 0 62 .none, .rnschk 1 0 .none, .rnschkw 62 0 .none, .qpop 61 0 ⟨false, 7⟩, .qpopt 61 0 ⟨false, 7⟩,
    .qpopl 57 0 0 ⟨false, 7⟩, .qpush 61 0 ⟨false, 7⟩, .qpushl 57 0 0 ⟨false, 7⟩, .mboxSend 61 0 ⟨false, 7⟩, .mboxRecv 62 0 ⟨false, 7⟩,
    .mboxPeek 63 0 ⟨false, 7⟩] = true := rfl
theorem test_formed_groups : formed [.rnsfw 61 0 .none, .rnsadd 0 0 (.s 1) .none, .rnsaddw 61 1 7 .none, .rnsrw 0 61 .none,
    .qpop 60 0 ⟨false, 7⟩, .qpopl 56 0 0 ⟨false, 7⟩, .mboxPeek 60 0 ⟨false, 7⟩] = true := rfl
theorem test_ill_formed_steps : illFormed [.loadLanding 0, .coldReset, .emWrite 0, .illegalInstruction .illegal] = true := rfl

/-! ## One step from the word in memory -/

/-- After reset, with the word `w` placed before the context ply of core 0 (log entry 2): the ply is 8 wide with EM = `em`,
v0, v1, ... hold the lists of lane words, and `f` is done to it. -/
def before (w : Nat) (em : DWord) (regs : List (List Nat)) (f : Ply → Ply) : State :=
  ((State.reset.withFetchWord 64 w).setCore 0 { Core.empty with rows := regs.zipIdx.map fun (ws, n) =>
    (n, ⟨Vector.ofFn fun i => BitVec.ofNat 32 (ws.getD i 0), 1, 0, 0, 0, false⟩) }).modPly 63 fun p => f { p with
      width := 8
      a := { p.a with em := em, rows := Vector.ofFn fun r => if r < regs.length then .mapped [r] else .zero } }
/-- The state one step later. -/
noncomputable def after (w : Nat) (em : DWord) (regs : List (List Nat)) (f : Ply → Ply) : State :=
  match step (before w em regs f) with | .next s => s | _ => State.reset
/-- The ply one step later. -/
noncomputable def plyAfter (w : Nat) (em : DWord) (regs : List (List Nat)) (f : Ply → Ply) : Ply :=
  ((after w em regs f).ply 63).getD (bootPly Io.reset)
/-- The words of v[r] in lanes 0 to 7 one step later. -/
noncomputable def lanesAfter (w : Nat) (em : DWord) (regs : List (List Nat)) (f : Ply → Ply) (r : VReg) : List Nat :=
  (List.range 8).map fun l => (Claim.word (after w em regs f) (plyAfter w em regs f) r l).toNat
/-- A ply with its uniform registers as the list says. -/
def withS (l : List (SReg × DWord)) (p : Ply) : Ply := l.foldl (fun p x => p.setS x.1 x.2) p
def same (p : Ply) : Ply := p
/-- What a step left of the PC, as an offset from the placed word. -/
def pcStep (p : Ply) : Int := (p.a.pc.toNat : Int) - 0x1000

-- R163's examples: iaddsat v1, v2, v3 and iabsd v1, v2, v3.
theorem test_iaddsat : (lanesAfter 0x040840C8 1 [[], [], [0x7FFFFFF0], [0x20]] same 1).headD 0 = 0x7FFFFFFF := rfl
theorem test_iabsd : (lanesAfter 0x040840E8 1 [[], [], [0x80000000], [0x7FFFFFFF]] same 1).headD 0 = 0xFFFFFFFF := rfl
-- R163: sums wrap, and an inactive lane keeps its word.
theorem test_iadd_wraps : lanesAfter 0x02080040 0x0D [[0xFFFFFFFF, 7, 1, 3], [1, 1, 2, 4]] same 1 = [0, 1, 3, 7, 0, 0, 0, 0] := rfl
-- The divisibility table of chapter 09: 391 * inv and 247 * inv modulo 2^32 for d = 13.
theorem test_imul : (lanesAfter 0x02100050 3 [[391, 247], [0xC4EC4EC5, 0xC4EC4EC5]] same 2).take 2 = [0xC4EC4EE3, 19] := rfl
-- The quotient recipe of chapter 09: IMULHU by 0xCCCCCCCD and a shift by 3 divides by 10.
theorem test_imulhu : (lanesAfter 0x02100060 1 [[1230], [0xCCCCCCCD]] same 2).headD 0 / 8 = 123 := rfl
-- R164's example.
theorem test_bfx : (lanesAfter 0x08100070 1 [[0xF80], [0x507]] same 2).headD 0 = 0x1F := rfl
theorem test_bfxs : (lanesAfter 0x08100078 1 [[0xF80], [0x507]] same 2).headD 0 = 0xFFFFFFFF := rfl
-- R167: SAR copies the sign, by the low five bits of the control word.
theorem test_sar : (lanesAfter 0x08100040 1 [[0x80000000], [0x24]] same 2).headD 0 = 0xF8000000 := rfl
-- Chapter 08's worked example: imuli v2, v1, 3 and icmp.gt p1, v2, s5 with s5 = 10.
theorem test_imuli : lanesAfter 0x0C102003 0xFF [[], [0, 1, 2, 3, 4, 5, 6, 7]] same 2 = [0, 3, 6, 9, 12, 15, 18, 21] := rfl
theorem test_icmp : (plyAfter 0x1C405160 0xFF [[], [], [0, 3, 6, 9, 12, 15, 18, 21]] (withS [(5, 10)])).preg 1 = 0xF0 := rfl
-- The same table: vote, empop, redu.add, redu.max with the upper lanes inactive, v2s of the lowest active lane.
theorem test_vote : (plyAfter 0xAC302037 0xFF [] (fun p => p.setP 1 0xFF 0xF0)).sreg 6 = 0xF0 := rfl
theorem test_empop : (plyAfter 0xAC380077 0xFF [] same).sreg 7 = 8 := rfl
theorem test_redu_add : (plyAfter 0xAE404007 0xFF [[], [], [0, 3, 6, 9, 12, 15, 18, 21]] same).sreg 8 = 84 := rfl
theorem test_redu_max : (plyAfter 0xAE484027 0x0F [[], [], [0, 3, 6, 9, 12, 15, 18, 21]] same).sreg 9 = 9 := rfl
theorem test_v2s : (plyAfter 0xAC504047 0xF0 [[], [], [0, 3, 6, 9, 12, 15, 18, 21]] same).sreg 10 = 12 := rfl
-- Its brv p1, big: the target's lanes run, and the others are pushed with the next PC.
theorem test_brv : (plyAfter 0xA6000031 0xFF [] (fun p => p.setP 1 0xFF 0xF0)).a.em = 0xF0 := rfl
theorem test_brv_pushes : ((plyAfter 0xA6000031 0xFF [] (fun p => p.setP 1 0xFF 0xF0)).a.knuckles.map fun x =>
    (x.mask, x.pc)) = [(0x0F, 0x1004)] := rfl
-- Its last kmeet k0: AM = RM, so EM is restored and the PC goes to the join.
theorem test_kmeet : ((plyAfter 0xAA000007 0x0F [] (fun p => p.setPin 0 ⟨true, false, 0xFF, 0x1040, 0xF0, 0⟩)).a.em,
    pcStep (plyAfter 0xAA000007 0x0F [] (fun p => p.setPin 0 ⟨true, false, 0xFF, 0x1040, 0xF0, 0⟩))) = (0xFF, 0x40) := rfl
-- R27: a KMEET on a pin that is not valid raises 0x44 before itself.
theorem test_kmeet_invalid : ((plyAfter 0xAA000007 0x0F [] same).priv.pcause, (plyAfter 0xAA000007 0x0F [] same).priv.ppc) = (0x44, 0x1000) := rfl
-- Table 9-9: shuffles and the scan with half the lanes active.
theorem test_shflx : lanesAfter 0x32283088 0x0F [[], [10, 11, 12, 13, 14, 15, 16, 17]] (withS [(2, 4)]) 5 = [14, 15, 16, 17, 0, 0, 0, 0] := rfl
theorem test_shflup : lanesAfter 0x32303090 0x0F [[], [10, 11, 12, 13, 14, 15, 16, 17]] (withS [(2, 4)]) 6 = [10, 11, 12, 13, 0, 0, 0, 0] := rfl
theorem test_shfldn : lanesAfter 0x32383098 0x0F [[], [10, 11, 12, 13, 14, 15, 16, 17]] (withS [(2, 4)]) 7 = [14, 15, 16, 17, 0, 0, 0, 0] := rfl
theorem test_iscan : lanesAfter 0x32402020 0x0F [[], [10, 11, 12, 13, 14, 15, 16, 17]] same 8 = [10, 21, 33, 46, 0, 0, 0, 0] := rfl
-- R171 with R11: slot 63 of width 8 has home lane base 56.
theorem test_lsr : (lanesAfter 0x34080001 0xFF [] same 1).take 2 = [56, 57] := rfl
theorem test_lsr_octet : (lanesAfter 0x34080002 0xFF [] same 1).take 2 = [7, 7] := rfl

-- R70's example: FMUL overflows in lane 3 and is inexact in lane 6.
def mulA : List Nat := [0, 0, 0, 0x7F7FFFFF, 0, 0, 0x3F800001, 0]
def mulB : List Nat := [0, 0, 0, 0x40000000, 0, 0, 0x3F800001, 0]
theorem test_fmul_flags : (plyAfter 0x22100050 0xFF [mulA, mulB] same).a.fpflags = 0b10100 := rfl
theorem test_fmul_traps : (plyAfter 0x22100050 0xFF [mulA, mulB]
    (fun p => { p with a := { p.a with fpmode := 0b010000000 } })).priv.pcause = 0x14 := rfl
-- Chapter 10: ffms keeps the tail of the exact product, which fmul rounds away.
theorem test_ffms : (lanesAfter 0x28100003 1 [[0x3F800800], [0x3F800000]] same 2).headD 0 = 0x3A000400 := rfl
theorem test_ffms_flags : (plyAfter 0x28100003 1 [[0x3F800800], [0x3F800000]] same).a.fpflags = 0 := rfl
-- Chapter 10: cvt.e4m3x4.f32 of 1.0, 300.0, 500.0 and -0.001, and its saturating form.
def cvtIn : List (List Nat) := [[], [], [], [], [0x3F800000], [0x43960000], [0x43FA0000], [0xBA83126F]]
theorem test_cvt : (lanesAfter 0x2E4081CA 1 cvtIn same 8).headD 0 = 0x817F7938 := rfl
theorem test_cvt_sat : (lanesAfter 0x2E4083CA 1 cvtIn same 8).headD 0 = 0x817E7938 := rfl
theorem test_cvt_flags : (plyAfter 0x2E4081CA 1 cvtIn same).a.fpflags = 0b11100 := rfl
-- Table of code 3: -0.7 converts to 0 under RTZ, inexact; a NaN gives 0xFFFFFFFF, invalid.
theorem test_cvt_u32 : lanesAfter 0x2E080043 3 [[0xBF333333, 0x7FC00000]] same 1 = [0, 0xFFFFFFFF, 0, 0, 0, 0, 0, 0] := rfl

-- R183's example: rnsf of -192 under a full map, and under a map with ch1 failed.
theorem test_rnsf : ((lanesAfter 0x58204000 1 [[], [], [0xFFFFFF40]] same 4).headD 0, (lanesAfter 0x58204000 1 [[], [], [0xFFFFFF40]] same 5).headD 0) =
    (0x25292F31, 0x3B40) := rfl
theorem test_rnsf_degraded : (lanesAfter 0x58204000 1 [[], [], [0xFFFFFF40]]
    (fun p => { p with ident := { p.ident with rnsmap := 2 } }) 4).headD 0 = 0x25290031 := rfl
-- Table 10-11: rnsr of a right and of a wrong ch1, under TCOR: both lanes are written, and 0x50 follows with the next PC.
def rnsrIn : List (List Nat) := [[], [], [], [], [0x25292F31, 0x25292B31], [0x3B40, 0x3B40]]
def tcor (p : Ply) : Ply := { p with a := { p.a with rnsctl := 1 } }
theorem test_rnsr : (lanesAfter 0x5A508000 3 rnsrIn tcor 10).take 3 = [0xFFFFFF40, 0xFFFFFF40, 0] := by decide +kernel
theorem test_rnsr_status : (fun p : Ply => (p.a.rnsLoc, p.a.rnsMcnt, p.a.rnsUnc, p.priv.pcause, p.priv.ppc)) (plyAfter 0x5A508000 3 rnsrIn tcor) =
    (1, 1, false, 0x50, 0x1004) := by decide +kernel
theorem test_rnschk : (lanesAfter 0x5A208010 3 rnsrIn tcor 4).take 2 = [0x25292F31, 0x25292F31] := by decide +kernel

-- R137 to R142: a wrapping sum, a shift amount taken modulo 64, and a division by 0 (0x16).
theorem test_uadd : (plyAfter 0x80182107 0xFF [] (withS [(1, 0xFFFFFFFFFFFFFFFF), (2, 2)])).sreg 3 = 1 := rfl
theorem test_usar : (plyAfter 0x82182167 0xFF [] (withS [(1, 0x8000000000000000), (2, 68)])).sreg 3 = 0xF800000000000000 := rfl
theorem test_udivu_zero : (plyAfter 0x84182147 0xFF [] (withS [(1, 5)])).priv.pcause = 0x16 := rfl
theorem test_umulhi : (plyAfter 0x80182137 0xFF [] (withS [(1, 0xFFFFFFFFFFFFFFFF), (2, 5)])).sreg 3 = 0xFFFFFFFFFFFFFFFF := rfl
-- R118: ULIT takes the next word as its literal, and the PC passes both.
theorem test_ulit : (fun p : Ply => (p.sreg 5, pcStep p)) (plyAfter 0xFEDCBA9898280017 0xFF [] same) = (0xFFFFFFFFFEDCBA98, 8) := rfl
-- R120: a guard that fails leaves only the next PC, and its word feeds the watermark.
theorem test_guard_fails : (fun p : Ply => (p.sreg 3, pcStep p)) (plyAfter 0x80182100 0xFF [] (withS [(1, 1), (2, 2)])) = (0, 4) := rfl
-- R115, Table 7-24: a branch 12 bytes back from its own address; CALL links.
theorem test_bra : pcStep (plyAfter 0xA1FFFFD7 0xFF [] same) = -12 := rfl
theorem test_call : (fun p : Ply => (pcStep p, p.sreg 63)) (plyAfter 0xA2000107 0xFF [] same) = (64, 0x1004) := rfl
-- R116: a register target that is not a multiple of 4 is 0x22, and one beyond the space 0x21, before the branch.
theorem test_brx_misaligned : (fun p : Ply => (p.priv.pcause, p.priv.ppc)) (plyAfter 0xA4002007 0xFF [] (withS [(1, 0x2002)])) = (0x22, 0x1000) := rfl
theorem test_brx_beyond : (plyAfter 0xA4002007 0xFF [] (withS [(1, 0x200000000000000)])).priv.pcause = 0x21 := rfl
-- R245: TRAP 3 reports 0x73 after itself, BRK 0x08 before itself.
theorem test_trap : (fun p : Ply => (p.priv.pcause, p.priv.ppc)) (plyAfter 0xDC0001B7 0xFF [] same) = (0x73, 0x1004) := rfl
theorem test_brk : (fun p : Ply => (p.priv.pcause, p.priv.ppc)) (plyAfter 0xDC000067 0xFF [] same) = (0x08, 0x1000) := rfl
-- R285: the entry of a context ply's own handler saves EM and the mode, opens every lane and sets PINH.
theorem test_own_handler : (fun p : Ply => (p.priv.pem, p.priv.pmode, p.priv.pinh, p.a.em, p.a.pc)) (plyAfter 0xDC000067 0x3C [] (fun p =>
    { p with priv := { p.priv with pvec := 0x4000 } })) = (0x3C, 1, true, 0xFF, 0x4000) := rfl
-- Table 14-10: the control hash of one NOP, and the WMK that agrees with it.
theorem test_nop_watermark : (plyAfter 0xDC000007 0xFF [] same).a.wmsig = 0xDF1C := by decide +kernel
theorem test_wmk : (fun p : Ply => (p.a.wmsig, pcStep p)) (plyAfter 0xDE0DF1C7 0xFF [] (fun p =>
    { p with a := { p.a with wmsig := 0xDF1C } })) = (0xFFFF, 4) := rfl
theorem test_wmk_differs : (plyAfter 0xDE0DF1C7 0xFF [] same).priv.pcause = 0x51 := rfl
-- R57, R12: reading EM, writing an unlisted register, writing FPMODE's unassigned rounding code.
theorem test_srd_em : (plyAfter 0xC2200007 0x5A [] same).sreg 4 = 0x5A := rfl
theorem test_swr_unlisted : (plyAfter (0xC4200007 + 0xFFF * 128) 0xFF [] same).priv.pcause = 0x09 := rfl
theorem test_swr_fpmode : (plyAfter (0xC4200007 + 0x009 * 128) 0xFF [] (withS [(4, 5)])).priv.pcause = 0x09 := rfl
-- R56, R160: CADD's register and the doubling read of c2.
theorem test_swr_cadd : ((plyAfter (0xC4200007 + 0x052 * 128) 0xFF [] (fun p => (withS [(4, 5)] p).setC 2 7)).creg 2) = 12 := rfl
-- R155: a word that memory holds, read little-endian and zero-extended: the placed word's own two low bytes.
theorem test_uld : (plyAfter 0xB0202017 0xFF [] (withS [(1, 0x1000)])).sreg 4 = 0xB0202017 % 65536 := rfl
theorem test_uld_misaligned : (plyAfter 0xB0202017 0xFF [] (withS [(1, 0x1001)])).priv.pcause = 0x22 := rfl
-- R190: a store's bytes, low byte first, in the flight on its way home.
theorem test_ust : ((after 0xB2202027 0xFF [] (withS [(1, 0x2000), (4, 0x0123456789ABCDEF)])).core 0).stores.map (fun f =>
    f.writes.map fun x => (x.pa, x.bytes)) = [[(0x2000, [0xEF, 0xCD, 0xAB, 0x89])]] := rfl
-- Table 11-6, step 1: the atomic's lanes in ascending order, each with the old value it met.
theorem test_atom : ((after 0x3E100200 0x5B [[], [], [1, 1, 1, 1, 1, 1, 1, 1]] (withS [(4, 0x2000)])).core 0).stores.map (fun f =>
    f.pieces.map fun x => (x.lane, x.word)) = [[(0, 0), (1, 1), (3, 2), (4, 3), (6, 4)]] := rfl
-- R192: a misaligned lane is 0x22, and lane 1 is reported with every active lane unfinished.
theorem test_ld_misaligned : (plyAfter 0x36100240 0x02 [[0, 6]] (withS [(4, 0x2000)])).priv.pcause = 0x22 := rfl
-- R241: LWAKE of a latch that nobody waits for raises COUNT, and LWAIT of one with a count takes it.
theorem test_lwake : ((after 0xDA002017 0xFF [] (withS [(1, 0x3000)])).latches.map fun x => x.2.count) = [1] := rfl
theorem test_lwait_parks : (plyAfter 0xDA002007 0xFF [] (withS [(1, 0x3000)])).state = .parked := rfl
-- R291, R288: PSRD of PMODE's neighbour PINH's registers, and 0x02 for a hypervisor register outside hypervisor mode.
theorem test_pswr_pvec : (plyAfter (0xF2200007 + 0x110 * 128) 0xFF [] (withS [(4, 0x4444)])).priv.pvec = 0x4444 := rfl
theorem test_pswr_hypervisor : (plyAfter (0xF2200007 + 0x2C2 * 128) 0xFF [] (withS [(4, 7)])).priv.pcause = 0x02 := rfl
theorem test_idle_parks : (plyAfter 0xEC200007 0xFF [] same).state = .parked := rfl
-- R134: the all-zero word is 0x00, the word of all ones 0x01.
theorem test_zero_word : (plyAfter 0 0xFF [] same).priv.pcause = 0x00 := rfl
theorem test_ones_word : (plyAfter 0xFFFFFFFF 0xFF [] same).priv.pcause = 0x01 := rfl

/-! ## The worked examples of the chapters that no single word shows -/

-- R7's example: core 137 is core 41 of die 2, in quad 10 of the die; R11's: slots 0 and 4 of width 16 share a home lane base.
theorem test_core_137 : (dieOfCore 137, quadOf 137 - 12 * 2, 137 - 48 * 2) = (2, 10, 41) := rfl
theorem test_home_lane : (homeLane 0 16, homeLane 4 16, homeLane 5 16) = (0, 0, 16) := rfl
-- R246's example handle.
theorem test_mould_handle : mouldHandle 137 17 5 0x2A = 0x00892A0005000011 := rfl
-- R72's example: two chunks of a row of ones against 2^24, 1, 1 give 0x4B800000.
def bf (x : Nat) : FVal := bf16.decode x
def chunkOf (xs : List Nat) : Nat := chunk false ((List.range 16).map fun i => [one, one, bf 0x3F80, bf (xs.getD i 0)])
theorem test_matrix_chunks : accAdd (accAdd 0x80000000 (chunkOf [0x4B80, 0x3F80])) (chunkOf [0x3F80]) = 0x4B800000 := rfl
-- Table 4-7: -192 with 43 in ch1 is located, and with two wrong channels uncorrectable.
def fullNarrow : Basis := ⟨primaries false, [8, 9]⟩
theorem test_located : rnsDecode fullNarrow (residuesOf false [0x25292B31, 0x3B40]) = .located 1 (-192) := rfl
theorem test_decoded : rnsDecode fullNarrow (residuesOf false [0x25292F31, 0x3B40]) = .ok (-192) := rfl
-- R78: one failed primary takes ch9 into the primaries; two failed channels leave no basis.
theorem test_degraded_basis : (liveBasis false 2).map (fun b => (b.p, b.c)) = some ([0, 2, 3, 9], [8]) := rfl
theorem test_no_basis : liveBasis false 3 = none := rfl
-- Chapter 24's example: tenant 3 with K = 1 and SBASE 1 holds sets 128 to 255, and K = 2 with SBASE 2 leaves it 128 to 191.
theorem test_sets : (heldSets 0x13, heldSets 0x25, heldSets 0x35) = ((128, 128), (128, 64), (192, 64)) := rfl
-- Chapter 18's press descriptor, and one whose N is 0, which R230 refuses.
def pressWord (w n : Nat) : List Byte := bytesLE w 4 ++ bytesLE n 4 ++ List.replicate 56 0
theorem test_press : (parsePress (pressWord 0x390203 4) 7).map (fun x => (x.nst, x.depth, x.roles, x.n)) = some (3, 2, [1, 2, 3], 4) := rfl
theorem test_press_empty : parsePress (pressWord 0x390203 0) 7 = none := rfl
-- Chapter 05's record: BF16, two dimensions of 4,096 and 384 elements, row stride 8,192; and one of rank 0, which Table 5-3 refuses.
def recordBytes (w : Nat) : List Byte :=
  bytesLE 0x0000010040000000 8 ++ bytesLE w 4 ++ bytesLE 4095 2 ++ bytesLE 383 2 ++ List.replicate 8 0 ++ bytesLE 8192 8 ++ List.replicate 32 0
theorem test_record : (parseRecord (recordBytes 0x20)).map (fun r => (r.fmt, r.rank, r.dimm1.toList, r.stride.toList)) =
    some (0, 2, [4095, 383, 0, 0, 0], [8192, 0, 0, 0]) := rfl
theorem test_record_rank : parseRecord (recordBytes 0x00) = none := rfl
-- Chapter 15's shape word: handle 2 names 8 rows of 64 bytes.
theorem test_shape_word : (shapeTile 0x00100702 true).toOption.map Tile.size = some 512 := rfl
-- Table 12-2's example block: CB4 weights under a loaded codebook are legal, and the same word without one is not.
def blockPly (cb : Bool) : Ply :=
  let p := withS [(8, 0x05904740), (9, 0), (11, 0x5)] (Ply.start 0 8 0 (Arch.start 0 0xFF) bareIdent)
  if cb then { p with a := { p.a with cb := p.a.cb.set 0 (some (Vector.replicate 16 0)) } } else p
theorem test_block : (badBlock (blockPly true) false 8 false, badBlock (blockPly false) false 8 false) = (false, true) := rfl
theorem test_admits : (shapeAdmits 4 0 4, shapeAdmits 20 5 5) = (true, false) := rfl
-- Chapter 25's example: row 17 of core 4 is lasting at 15,500,000 and not before.
def rowEvents (ts : List Nat) : State := ts.foldl (fun s t => countEvent 0 (.row 4 17) 0 { s with cycle := t }) State.reset
theorem test_row_not_lasting : ((rowEvents [1000000, 9000000, 14000000]).core 4).retiredRows = [] := rfl
theorem test_row_lasting : ((rowEvents [1000000, 9000000, 14000000, 15500000]).core 4).retiredRows = [17] := rfl
-- Chapter 23's example address, whose page indices are 0, 4, 0, 0 and 1: the entries at offsets 32 and 8 lead to its leaf.
def entries : List (Nat × Nat) :=
  [(0x40040, 0x50001), (0x40048, 3), (0x50000, 0x51001), (0x51020, 0x52001), (0x52000, 0x53001), (0x53000, 0x54001), (0x54008, 0x9900F)]
def tables : State :=
  { State.reset with
    hyp := { Hyp.reset with astbase := 0x40000 }
    mem := entries.foldl (fun m x => Memory.writeBytes m x.1 (bytesLE x.2 8)) [] }
theorem test_walk : (walk (some 3) 1 0x0000020000001234 tables).1 =
    .leaf ⟨1, 0x0000020000001000, 12, 0x99000, true, true, false, 0, 0, 0, 3⟩ := by decide +kernel
theorem test_walk_tenant : (walk (some 2) 1 0x0000020000001234 tables).1 = .bad := by decide +kernel
theorem test_walk_absent : (walk (some 3) 1 0x0000020000000234 tables).1 = .absent 0 := by decide +kernel

/-! ## Single steps of a user ply -/

/-- A ply of a user program: 8 wide, lanes 0 to 3 active, at 0x2000. -/
def userPly : Ply := Ply.start 1 8 0 (Arch.start 0x2000 0xF) bareIdent
/-- The machine after reset with one ply acting, in slot 0 of core 0. -/
def acting (p : Ply) : State := { State.reset with plies := [(0, p)] }
/-- The same for the context ply of core 0. -/
def actingContext (p : Ply) : State := { State.reset with cur := 63, plies := [(63, p)] }
def contextPly : Ply := Ply.start 1 64 1 (Arch.start 0x2000 0xF) bareIdent
def always : Guard := ⟨false, 7⟩
noncomputable def did (i : Instr) (s : State) : State := match exec i s with | .next t => t | _ => State.reset
noncomputable def plyDid (i : Instr) (s : State) : Ply := ((did i s).ply s.cur).getD userPly
-- R39, R40: a trap of a user ply halts it, with the next PC and EM, and without a handler of its own.
theorem test_user_trap_halts : (fun p : Ply => (p.state, p.halt.cause, p.halt.after, p.halt.pc, p.halt.em))
    (plyDid (.trap 2 always) (acting userPly)) = (.halted, 0x72, true, 0x2004, 0xF) := rfl
-- R36: with UDEL and the trap enable of UICTL the user handler takes it.
def delegating : Ply := { userPly with
  ident := { bareIdent with udel := true }, a := { userPly.a with uictl := 4, uivec := 0x3000 } }
theorem test_user_trap_delegated : (fun p : Ply => (p.state, p.inUi, p.uicause, p.uiepc, p.a.pc, p.a.em))
    (plyDid (.trap 2 always) (acting delegating)) = (.ready, true, 0x72, 0x2004, 0x3000, 0xFF) := rfl
theorem test_iret : (fun p : Ply => (p.inUi, p.a.pc, p.a.em)) (plyDid (.iret always) (acting
    { delegating with inUi := true, uiepc := 0x2008, uiem := 0x3 })) = (false, 0x2008, 0x3) := rfl
-- R239: the first of two arrivals at a core barrier counts, and the second completes the phase.
def teamState (b : Barrier) (p : Ply) : State :=
  { acting { p with ident := { p.ident with team := 1 } } with
    teams := [(1, ⟨0, 0, 0, [0], [], [(3, b)], [], [], 0, false, []⟩)] }
def barAfter (s : State) : Option Barrier := (s.team 1).bind fun t => t.bars.find 3
theorem test_bara_counts : barAfter (did (.bara 3 .core 9 8 always) (teamState ⟨5, 0, 0⟩ (userPly.setS 9 2))) = some ⟨5, 1, 2⟩ := rfl
theorem test_bara_completes : barAfter (did (.bara 3 .core 9 8 always) (teamState ⟨5, 1, 2⟩ (userPly.setS 9 2))) = some ⟨6, 0, 2⟩ := rfl
theorem test_bara_disagrees : (plyDid (.bara 3 .core 9 8 always) (teamState ⟨5, 1, 2⟩ (userPly.setS 9 3))).halt.cause = 0x43 := rfl
-- R30: with every stage ready the dispatcher prefers store, then compute, then load; a press whose ring is full draws no load.
def somePress (ts : List Nat) : Press :=
  { nst := 3, depth := 2, roles := [1, 2, 3], n := 4, tumblers := ts, phases := [[false, false], [false, false], [false, false]]
    brokenSlots := [], back := [[], [], []], binding := 1 }
theorem test_press_first_draw : (somePress [0, 0, 0]).choice = some 0 := rfl
-- R221: TALLOC of the shape word takes the lowest granules, and a second tile the next ones.
def tileState : State := teamState ⟨0, 0, 0⟩ (userPly.setS 1 0x00100702) |>.modCore 0 fun c => { c with ncur := 1 }
theorem test_talloc : (fun s : State => ((s.team 1).map fun t => t.tiles.map fun x => (x.1, x.2.base, x.2.size), (s.ply 0).map fun p => p.qreg 0))
    (did (.talloc 1 always) tileState) = (some [(2, 0, 512)], some true) := by decide +kernel
-- R363, R359: a read of BAR2 by a function that is not usable is answered with all ones.
theorem test_bar2_unusable : (did (.bar2Access (.bar2 3) 0x100 (.read 2) false) { State.reset with io := { Io.reset with readyHost := true } }).outbox =
    [.hostRead 3 [0xFF, 0xFF]] := rfl
-- R374: the ROM loads a verified image and STAGE reads 3, and one whose header is ill-formed stops at stage 15 with reason 1.
def image (good : Bool) : FirmwareImage := ⟨good, 5, [], [], [], [7], 0x8000, 0x9000, 0x8000, [1, 2]⟩
/-- The boot ROM with that image in its hands at a stage. -/
def atStage (n : Nat) (good : Bool) : State := { State.reset with io := { Io.reset with stage := n, image := some (image good) } }
theorem test_firmware_loads : (fun s : State => (s.io.stage, Memory.read s.mem 0x8001))
    (did (.firmwareVerify (image true)) (atStage 2 true)) = (3, 2) := by decide +kernel
/-- The value is SHAKE256 of 64 zero bytes and the bytes of 5, from a FIPS 202 implementation outside the model. -/
theorem test_extend_meas : extendMeas 0 [5] = 0xf2859a18f416db9990f6500618e814baed83a89e5ec41dfc8fc41607670d93fe696bcf4c37ce3182cd6ba8014f2a4f4b5dcaa0528fe72a79c16acfe23973a45c := by decide +kernel
theorem test_firmware_fails : (fun s : State => (s.io.stage, s.io.fail, s.io.readyRom)) (did (.firmwareVerify (image false)) (atStage 1 false)) = (15, 1, false) := rfl

/-! ## Witnesses: states and operands that meet the hypotheses of the obligations -/

/-! ## Witnesses: a concrete state and operands that meet the hypotheses of each statement -/

/-- A user ply whose registers are all Zero but v1, which holds rows 0, and whose lanes 0 to 3 are active. -/
def lanePly : Ply := { userPly with a := { userPly.a with rows := userPly.a.rows.set 1 (.mapped [0]) } }
/-- The machine with that ply, and 1, 2, ... in row 0. -/
def laneState (p : Ply) : State :=
  (acting p).setCore 0 { Core.empty with rows := [(0, ⟨Vector.ofFn fun i => BitVec.ofNat 32 (i + 1), 1, 0, 0, 0, false⟩)] }
/-- What a lane instruction asks of its state: its ply acts, its registers let it issue, and the row store has the rows. -/
def LaneReady (s : State) (p : Ply) (reads : List RegUse) (d : VReg) (v : Nat → Word) : Prop :=
  Claim.Acts s p ∧ Claim.Open s p reads [(d, p.lanes)] ∧
  ∃ c' p', writeReg (Claim.here s) p d (p.lanes.map fun l => ⟨l, v l, false⟩) = some (c', p')
def allOff (p : Ply) : Ply := { p with a := { p.a with em := 0 } }
def split (p : Ply) : Ply := { p with a := { p.a with knuckles := [⟨0xF0, 0x2010⟩] } }

theorem witness_UniformArithmetic : (Claim.Acts (acting (userPly.setS 2 1)) (userPly.setS 2 1) ∧ guardHolds always (userPly.setS 2 1) = true ∧
    (userPly.setS 2 1).sreg 2 ≠ 0) ∧ Claim.Acts (acting userPly) userPly ∧ guardHolds always userPly = true ∧ userPly.sreg 2 = 0 :=
  ⟨⟨rfl, rfl, by decide⟩, rfl, rfl, rfl⟩
theorem witness_ZeroCounts : leadingZeros (1#8) < 8 ∧ 8 - leadingZeros (1#8) ≤ 1 ∧ trailingZeros (0x80#8) < 8 ∧ 6 < trailingZeros (0x80#8) := by decide
theorem witness_EmFamily_diverged : Claim.Acts (acting (split userPly)) (split userPly) ∧ guardHolds always (split userPly) = true ∧
    (split userPly).diverged = true := ⟨rfl, rfl, rfl⟩
theorem witness_EmFamily_lowest : Claim.Acts (laneState lanePly) lanePly ∧ guardHolds always lanePly = true ∧ lanePly.diverged = false ∧
    lowestLane lanePly.a.em = some 0 ∧ Claim.Open (laneState lanePly) lanePly [(1, [0])] [] ∧
    Claim.Open (laneState lanePly) lanePly [(nthReg 0 0, [0]), (nthReg 0 1, [0])] [] := ⟨rfl, rfl, rfl, rfl, rfl, rfl⟩
theorem witness_EmFamily_off : Claim.Acts (acting (allOff userPly)) (allOff userPly) ∧ guardHolds always (allOff userPly) = true ∧
    (allOff userPly).a.em = 0 ∧ (allOff userPly).diverged = false := ⟨rfl, rfl, rfl, rfl⟩
theorem witness_EmFamily_s2v : LaneReady (laneState lanePly) lanePly [] 2 (fun _ => 7) := ⟨rfl, rfl, _, _, rfl⟩
theorem witness_Reductions : Claim.Acts (laneState lanePly) lanePly ∧ guardHolds always lanePly = true ∧
    Claim.Open (laneState lanePly) lanePly [(1, lanePly.lanes)] [] := ⟨rfl, rfl, rfl⟩
theorem witness_Reductions_off : Claim.Acts (acting (allOff userPly)) (allOff userPly) ∧ guardHolds always (allOff userPly) = true ∧
    (allOff userPly).lanes = [] := ⟨rfl, rfl, rfl⟩
theorem witness_BranchesAndCalls (v : DWord) : Claim.Acts (acting (userPly.setS 1 v)) (userPly.setS 1 v) ∧
    guardHolds always (userPly.setS 1 v) = true ∧ (userPly.setS 1 v).sreg 1 = v := ⟨rfl, rfl, rfl⟩
theorem witness_BranchesAndCalls_targets : (0x1FFFFFFFFFFFFFC#64).toNat % 4 = 0 ∧ (0x1FFFFFFFFFFFFFC#64).toNat < 2 ^ 57 ∧
    (0x200000000000001#64).toNat % 4 ≠ 0 ∧ (0x200000000000000#64).toNat % 4 = 0 ∧ 2 ^ 57 ≤ (0x200000000000000#64).toNat := by decide
/-- BRV: lanes 0 and 1 of 0 to 3 have p1 set, with a stack of n entries. -/
def brvPly (n : Nat) (m : DWord) : Ply :=
  let p := userPly.setP 1 0xFF m
  { p with a := { p.a with knuckles := List.replicate n ⟨0x10, 0x2000⟩ } }
theorem witness_Divergence_brv : Claim.Acts (acting (brvPly 15 3)) (brvPly 15 3) ∧
    (brvPly 15 3).a.em &&& (brvPly 15 3).preg 1 ≠ 0 ∧ (brvPly 15 3).a.em &&& ~~~(brvPly 15 3).preg 1 ≠ 0 ∧ (brvPly 15 3).a.knuckles.length < 16 ∧
    (brvPly 16 3).a.em &&& (brvPly 16 3).preg 1 ≠ 0 ∧ (brvPly 16 3).a.em &&& ~~~(brvPly 16 3).preg 1 ≠ 0 ∧ 16 ≤ (brvPly 16 3).a.knuckles.length ∧
    (brvPly 0 15).a.em &&& (brvPly 0 15).preg 1 ≠ 0 ∧ (brvPly 0 15).a.em &&& ~~~(brvPly 0 15).preg 1 = 0 ∧
    (brvPly 0 0).a.em &&& (brvPly 0 0).preg 1 = 0 := ⟨rfl, by decide, by decide, by decide, by decide, by decide, by decide, by decide, by decide, by decide⟩
def pinned (n : Nat) (x : Pin) : Ply := (brvPly n 0).setPin 2 x
theorem witness_Divergence_kmeet : Claim.Acts (acting (pinned 1 ⟨true, false, 0xFF, 0x2020, 0xF0, 0⟩)) (pinned 1 ⟨true, false, 0xFF, 0x2020, 0xF0, 0⟩) ∧
    ((pinned 1 ⟨true, false, 0xFF, 0x2020, 0xF0, 0⟩).pin 2).valid = true ∧ ((pinned 1 ⟨true, false, 0xFF, 0x2020, 0xF0, 0⟩).pin 2).outer = false ∧
    (∃ top rest, (pinned 1 ⟨true, false, 0xFF, 0x2020, 0xF0, 0⟩).a.knuckles = top :: rest) ∧
    ((pinned 1 ⟨true, false, 0xFF, 0x2020, 0xF0, 0⟩).pin 2).sd.toNat < (pinned 1 ⟨true, false, 0xFF, 0x2020, 0xF0, 0⟩).a.knuckles.length :=
  ⟨rfl, rfl, rfl, ⟨_, _, rfl⟩, by decide⟩
theorem witness_Divergence_kmeet_last :
    (pinned 1 ⟨true, false, 0xFF, 0x2020, 0xF0, 1⟩).a.knuckles.length ≤ ((pinned 1 ⟨true, false, 0xFF, 0x2020, 0xF0, 1⟩).pin 2).sd.toNat ∧
    ((pinned 1 ⟨true, false, 0xFF, 0x2020, 0xF0, 1⟩).pin 2).am ||| (pinned 1 ⟨true, false, 0xFF, 0x2020, 0xF0, 1⟩).a.em =
      ((pinned 1 ⟨true, false, 0xFF, 0x2020, 0xF0, 1⟩).pin 2).rm ∧
    ((pinned 1 ⟨true, false, 0xFF, 0x2020, 0x70, 1⟩).pin 2).am ||| (pinned 1 ⟨true, false, 0xFF, 0x2020, 0x70, 1⟩).a.em ≠
      ((pinned 1 ⟨true, false, 0xFF, 0x2020, 0x70, 1⟩).pin 2).rm ∧
    ((userPly.pin 2).valid = false ∨ (userPly.pin 2).outer = true) := by decide

theorem witness_LaneArithmetic : LaneReady (laneState lanePly) lanePly ((1, lanePly.lanes) :: srcUse (.v 1) lanePly.lanes) 2 (fun _ => 0) ∧
    LaneReady (laneState lanePly) lanePly ((1, lanePly.lanes) :: srcUse (.s 1) lanePly.lanes) 1 (fun _ => 0) ∧
    LaneReady (laneState lanePly) lanePly [(1, lanePly.lanes)] 2 (fun _ => 0) ∧ LaneReady (laneState lanePly) lanePly [] 2 (fun _ => 0) :=
  ⟨⟨rfl, rfl, _, _, rfl⟩, ⟨rfl, rfl, _, _, rfl⟩, ⟨rfl, rfl, _, _, rfl⟩, rfl, rfl, _, _, rfl⟩
theorem witness_LaneLogic : LaneReady (laneState lanePly) lanePly [(1, lanePly.lanes), (0, lanePly.lanes), (1, lanePly.lanes)] 2 (fun _ => 0) :=
  ⟨rfl, rfl, _, _, rfl⟩
theorem witness_LanePredicates : Claim.Acts (laneState lanePly) lanePly ∧ Claim.Open (laneState lanePly) lanePly (Claim.lanes2 1 (.s 1) lanePly.lanes) [] ∧
    Claim.Open (laneState lanePly) lanePly (Claim.lanes1 1 lanePly.lanes) [] ∧
    LaneReady (laneState lanePly) lanePly [(1, lanePly.lanes), (3, lanePly.lanes)] 2 (fun _ => 0) := ⟨rfl, rfl, rfl, rfl, rfl, _, _, rfl⟩
theorem witness_CrossLane : LaneReady (laneState lanePly) lanePly (srcUse (.v 1) lanePly.lanes ++
    [(1, lanePly.lanes.map fun l => (Claim.operand (laneState lanePly) lanePly (.v 1) l).toNat % lanePly.width)]) 2 (fun _ => 0) := ⟨rfl, rfl, _, _, rfl⟩
theorem witness_RoundingModes : (-1 : Int) < 0 := by decide
/-- FP32 numbers, both infinities and a NaN as operands, in the format's own value and under FTZ. -/
def nearest (ftz : Bool) : FEnv := ⟨.rne, ftz⟩
theorem witness_FloatValues_operands : Claim.taken fp32 (nearest false) 0x3F800000 = .fin false (2 ^ 23) (-23) ∧
    Claim.taken bf16 (nearest true) 0x8001 = .fin true 0 (-133) ∧ Claim.taken fp32 (nearest false) 0xFF800000 = .inf true ∧
    Claim.taken fp32 (nearest false) 0x7F800000 = .inf false ∧ (Claim.taken bf16 (nearest false) 0x7FC1).isNan = true ∧
    (Claim.taken fp32 (nearest false) 0x3F800000).isNan = false ∧
    mulVal (Claim.taken fp32 (nearest false) 0x3F800000) (Claim.taken fp32 (nearest false) 0xFF800000) = some (.inf true) := by decide +kernel
theorem witness_FloatValues_order : Claim.Below (Claim.taken fp32 (nearest false) 0x80000000) (Claim.taken fp32 (nearest false) 0) ∧
    ¬Claim.Below (Claim.taken fp32 (nearest false) 0) (Claim.taken fp32 (nearest false) 0) :=
  ⟨.inr (by decide +kernel), fun h => h.elim (fun h => absurd h (by decide +kernel)) fun h => absurd h (by decide +kernel)⟩
-- Every class of exponent, and a number that is delivered, one that overflows and one that is tiny.
theorem witness_FloatValues_classes : (0 < 2 ^ fp16.ebits ∧ 1 < 2 ^ fp16.fbits) ∧ (15 ≠ 2 ^ e4m3.ebits - 1 ∨ (6 : Nat) ≠ 7) ∧
    (31 = 2 ^ e5m2.ebits - 1 ∧ e5m2 ≠ e4m3) ∧ 2 ^ 3 ≤ 9 ∧ 9 < 2 ^ (3 + 1) ∧ ¬((⟨false, 9, 0, false⟩ : Exact).more = true) := by decide
theorem witness_LaneFloat_values : Claim.taken fp32 (nearest false) 0x40800000 = .fin false (2 ^ 23) (-21) ∧ Claim.mag (2 ^ 23) (-21) = 2 ^ (2 : Int) ∧
    Claim.mag (2 ^ 23) (-21) = ((4 : Nat) : Rat) ∧ 4 < 256 := by decide +kernel
theorem witness_LaneFloat : LaneReady (laneState lanePly) lanePly (Claim.lanes2 1 (.v 1) lanePly.lanes) 2 (fun _ => 0) ∧
    Claim.conds lanePly (fun l => Claim.asWord (fAdd fp32 lanePly.fenv (Claim.word (laneState lanePly) lanePly 1 l).toNat
      (Claim.operand (laneState lanePly) lanePly (.v 1) l).toNat)) &&& lanePly.enables = 0 := ⟨⟨rfl, rfl, _, _, rfl⟩, by decide +kernel⟩
def trapPly : Ply := { lanePly with a := { lanePly.a with fpmode := 0xF8 } }
-- In lane 0 the square of the least subnormal underflows.
theorem witness_LaneFloat_traps : Claim.Acts (laneState trapPly) trapPly ∧
    Claim.Open (laneState trapPly) trapPly (Claim.lanes2 1 (.v 1) trapPly.lanes) [(2, trapPly.lanes)] ∧
    Claim.conds trapPly (fun l => Claim.asWord (fMul fp32 trapPly.fenv (Claim.word (laneState trapPly) trapPly 1 l).toNat
      (Claim.operand (laneState trapPly) trapPly (.v 1) l).toNat)) &&& trapPly.enables ≠ 0 := ⟨rfl, rfl, by decide +kernel⟩
/-- The conditions of a compare of v[1] with itself or with s[2]. -/
def compareConds (s : State) (p : Ply) (c : FCond) : Conds := p.lanes.foldl (fun x l =>
  x ||| (fCompare p.ftz c (Claim.word s p 1 l).toNat (Claim.operand s p (.s 2) l).toNat).2) 0
def nanPly (p : Ply) : Ply := p.setS 2 0x7FC00000
theorem witness_FloatCompareConvert : Claim.Acts (laneState lanePly) lanePly ∧ Claim.Open (laneState lanePly) lanePly (Claim.lanes2 1 (.s 2) lanePly.lanes) [] ∧
    compareConds (laneState lanePly) lanePly .lt &&& lanePly.enables = 0 ∧ Claim.Acts (laneState (nanPly trapPly)) (nanPly trapPly) ∧
    Claim.Open (laneState (nanPly trapPly)) (nanPly trapPly) (Claim.lanes2 1 (.s 2) lanePly.lanes) [] ∧
    compareConds (laneState (nanPly trapPly)) (nanPly trapPly) .lt &&& (nanPly trapPly).enables ≠ 0 :=
  ⟨rfl, rfl, by decide +kernel, rfl, rfl, by decide +kernel⟩

theorem witness_ResidueNumbers : (∃ b, liveBasis false 0 = some b ∧ 2 * (-192 : Int).natAbs < prodOf b.p) ∧
    (∃ b, liveBasis true 0x008 = some b ∧ 2 * (5 : Int).natAbs < prodOf b.p) := ⟨⟨_, rfl, by decide⟩, _, rfl, by decide⟩
theorem witness_ResidueWrites : Claim.Acts (laneState lanePly) lanePly ∧ (∃ b, liveBasis true lanePly.ident.rnsmap = some b) ∧
    Claim.Open (laneState lanePly) lanePly (groupUse 1 3 lanePly.lanes ++ groupUse 4 3 lanePly.lanes) (groupUse 8 (groupSize true) lanePly.lanes) ∧
    ∃ c' p', writeRegs (Claim.here (laneState lanePly)) lanePly ((List.range (groupSize true)).map fun j =>
      (nthReg 8 j, lanePly.lanes.map fun l => ⟨l, BitVec.ofNat 32 j, false⟩)) = some (c', p') := ⟨rfl, ⟨_, rfl⟩, rfl, _, _, rfl⟩
/-- v4 and v5 of lanes 0 to 2: right residues of -192, one wrong channel, and two. -/
def resPly (em : DWord) (ctl : BitVec 2) : Ply := { userPly with a := { userPly.a with
  em := em, rnsctl := ctl, rows := (userPly.a.rows.set 4 (.mapped [0])).set 5 (.mapped [1]) } }
def resState (p : Ply) : State := (acting p).setCore 0 { Core.empty with rows :=
  [(0, ⟨#v[0x25292F31, 0x25292B31, 0x25002B31, 0, 0, 0, 0, 0], 1, 0, 0, 0, false⟩), (1, ⟨Vector.replicate 8 0x3B40, 1, 0, 0, 0, false⟩)] }
def lanesDecoded (p : Ply) : List Decoded := p.lanes.map fun l =>
  rnsDecode fullNarrow (residuesOf false ((List.range (groupSize false)).map fun j => Claim.word (resState p) p (nthReg 4 j) l))
theorem witness_ResidueDecodes (em : DWord) (ctl : BitVec 2) : Claim.Acts (resState (resPly em ctl)) (resPly em ctl) ∧
    liveBasis false (resPly em ctl).ident.rnsmap = some fullNarrow :=
  ⟨rfl, show liveBasis false 0 = some fullNarrow from rfl⟩
theorem witness_ResidueDecodes_open : Claim.Open (resState (resPly 7 3)) (resPly 7 3) (groupUse 4 (groupSize false) (resPly 7 3).lanes) (groupUse 8 2 (resPly 7 3).lanes) ∧
    ∃ c' p', writeRegs (Claim.here (resState (resPly 7 0))) (resPly 7 0) ((List.range 2).map fun j =>
      (nthReg 8 j, (resPly 7 0).lanes.map fun l => ⟨l, 0, false⟩)) = some (c', p') := ⟨rfl, _, _, rfl⟩
theorem witness_ResidueDecodes_lanes : lanesDecoded (resPly 1 0) = [.ok (-192)] ∧ lanesDecoded (resPly 2 1) = [.located 1 (-192)] ∧
    (lanesDecoded (resPly 4 2)).any (fun x => match x with | .uncorrectable _ => true | _ => false) = true ∧ (resPly 4 2).a.rnsctl.getLsbD 1 = true ∧
    (resPly 2 1).a.rnsctl.getLsbD 0 = true := by decide +kernel

theorem witness_SpecialRegisters : Claim.Acts (acting (split userPly)) (split userPly) ∧ guardHolds always (split userPly) = true ∧
    (∃ x, readSpecial (acting userPly) 0 userPly 0x000 = some x) ∧ readSpecial (acting userPly) 0 userPly 0xFFF = none ∧
    (∃ q, writeSpecial userPly 0x009 4 = .done q ∧ q.a.pc = userPly.a.pc) ∧ (∃ x, writeSpecial userPly 0x009 5 = .cause x) ∧
    (4#64).toNat % 8 < 5 ∧ 5 ≤ (5#64).toNat % 8 ∧ (split userPly).diverged = true ∧ userPly.diverged = false :=
  ⟨rfl, rfl, ⟨_, rfl⟩, rfl, ⟨_, rfl, rfl⟩, ⟨_, rfl⟩, by decide, by decide, rfl, rfl⟩

/-- The context ply of core 0, with physical addresses (log entry 2): s1 holds an aligned one. -/
def physPly : Ply := { contextPly.setS 1 0x8000 with a := { (contextPly.setS 1 0x8000).a with rows := contextPly.a.rows.set 1 (.mapped (List.range 8)) } }
/-- Its state: v1 holds 4 times the lane in lanes 0 to 7. -/
def physState (p : Ply) : State := (actingContext p).setCore 0 { Core.empty with rows := (List.range 8).map fun n =>
  (n, ⟨Vector.ofFn fun i => BitVec.ofNat 32 (4 * i), 1, 0, 0, 0, false⟩) }
def readShape (e : Option Scope) (n : Nat) : Shape := { need := .read, bytes := n, scope := e }
theorem witness_UniformMemory_reads : Claim.Acts (physState physPly) physPly ∧ guardHolds always physPly = true ∧
    ∃ spot t, Claim.LandsAt (physState physPly) physPly (readShape none 8) 0x8000 spot t ∧
      (readOne 0 none none spot.at_ 8 .allocate (hintL2 .normal spot t)).1.error = none :=
  ⟨rfl, rfl, ⟨0x8000, 0, 0x8000, 0⟩, physState physPly, ⟨rfl, _, rfl, rfl, by decide, rfl, rfl⟩, by decide +kernel⟩
theorem witness_UniformMemory_acquires : ∃ spot t, Claim.LandsAt (physState physPly) physPly (readShape (some .die) 4) 0x8004 spot t ∧
      (readOne 0 none (some .die) spot.at_ 4 .allocate (hintL2 .normal spot t)).1.error = none :=
  ⟨⟨0x8004, 0, 0x8004, 0⟩, physState physPly, ⟨rfl, _, rfl, rfl, by decide, rfl, rfl⟩, by decide +kernel⟩
theorem witness_UniformMemory_writes : ∃ spot t, Claim.LandsAt (physState physPly) physPly { need := .write, bytes := 1, scope := none } 0x8001 spot t :=
  ⟨⟨0x8001, 0, 0x8001, 0⟩, _, rfl, _, rfl, rfl, by decide, rfl, rfl⟩
theorem witness_UniformMemory_atomics : ∃ spot t,
    Claim.LandsAt (physState physPly) physPly { need := .both, bytes := 8, reach := .atomic, scope := some .core } (physPly.sreg 1) spot t ∧
    (atomicOne 63 t.seq none .core true spot (.cas true 0 5) (enterStore 0 (Flight.issue t 63 physPly true) t)).1.error = none :=
  ⟨⟨0x8000, 0, 0x8000, 0⟩, physState physPly, ⟨rfl, _, rfl, rfl, by decide, rfl, rfl⟩, by decide +kernel⟩
theorem witness_UniformMemory_addresses : (0x8001#64).toNat % Size.bytes .b16 ≠ 0 ∧ (0x200000000000000#64).toNat % Size.bytes .b64 = 0 ∧
    2 ^ 57 ≤ (0x200000000000000#64).toNat ∧ ((physPly.setS 1 0x8004).sreg 1).toNat % wideBytes true ≠ 0 := by decide
def capped (p : Ply) : Ply := { p with ident := { p.ident with cap := true, ctrap := true } }
theorem witness_FencesAndWaits_scopes : Claim.Acts (physState physPly) physPly ∧ guardHolds always physPly = true ∧ clampTraps physPly .system = false ∧
    Claim.Acts (physState (capped physPly)) (capped physPly) ∧ clampTraps (capped physPly) .system = true := ⟨rfl, rfl, rfl, rfl, rfl⟩
theorem witness_FencesAndWaits_waitc : ∃ spot t,
    Claim.LandsAt (physState physPly) physPly { need := .both, bytes := wideBytes true, reach := .atomic, scope := some .die } (physPly.sreg 1) spot t ∧
    (homeRead 0 (viewer 63 physPly).tenant spot.at_ (wideBytes true) t).1.error = none ∧
    waitHolds .eq 64 (homeRead 0 (viewer 63 physPly).tenant spot.at_ (wideBytes true) t).1.value 0 = true ∧
    waitHolds .ne 64 (homeRead 0 (viewer 63 physPly).tenant spot.at_ (wideBytes true) t).1.value 0 = false :=
  ⟨⟨0x8000, 0, 0x8000, 0⟩, physState physPly, ⟨rfl, _, rfl, rfl, by decide, rfl, rfl⟩, by decide +kernel, by decide +kernel, by decide +kernel⟩
-- No limit and the limit 0 with nothing out; a load out against the limit 0.
def loadOut (p : Ply) : State := (acting p).setCore 0 { Core.empty with loads := [{ Flight.issue (acting p) 0 p true with seq := 9 }] }
theorem witness_FencesAndWaits_waitn : loadsOut (acting userPly) 0 userPly = 0 ∧ storesOut (acting userPly) 0 userPly = 0 ∧
    copiesOut (acting userPly) 0 userPly = 0 ∧ tilesOut (acting userPly) 0 userPly = 0 ∧ ¬(0 = 2 ^ 6 - 1 ∨ loadsOut (loadOut userPly) 0 userPly ≤ 0) := by
  decide +kernel

/-- The accesses of v1's lanes 0 to 3 from s1, of 4 bytes. -/
def physReqs (data : List VReg) : List LaneReq := laneReqs (Claim.here (physState physPly)) physPly 1 1 0 data
def physGos (data : List VReg) : List LaneGo := (physReqs data).map fun r => ⟨r, [⟨r.ea, r.lane, r.ea.toNat, 0⟩]⟩
def loadForm : LoadForm := { bytes := 4, words := loadWords .b32 false, hint := .normal }
theorem witness_LaneMemory : Claim.Acts (physState physPly) physPly ∧ physPly.replays = none ∧ physPly.lanes ≠ [] ∧
    Claim.Open (physState physPly) physPly [(1, physPly.lanes)] [(2, physPly.lanes)] ∧ loadsOut (physState physPly) 63 physPly < 63 ∧
    (prepareRegs (Claim.here (physState physPly)) physPly physPly.lanes [2]).isSome = true := ⟨rfl, rfl, by decide, rfl, by decide, rfl⟩
theorem witness_LaneMemory_loads : Claim.Lands (physState physPly) physPly loadForm.shape (physReqs []) (physGos []) (physState physPly) ∧
    (readLanes 0 none loadForm (physGos []) (physState physPly)).1.1 = none ∧
    ∃ y p', prepareRegs ((readLanes 0 none loadForm (physGos []) (physState physPly)).2.core 0) physPly physPly.lanes [2] = some (y, p') :=
  ⟨⟨rfl, _, rfl, rfl, by decide, rfl, rfl⟩, by decide +kernel, _, _, rfl⟩
theorem witness_LaneMemory_stores : Claim.Acts (physState physPly) physPly ∧ Claim.StoreOpen (physState physPly) physPly 1 [3] ∧
    Claim.Lands (physState physPly) physPly { need := .write, bytes := 4 } (physReqs [3]) (physGos [3]) (physState physPly) :=
  ⟨rfl, ⟨rfl, rfl, rfl, rfl⟩, rfl, _, rfl, rfl, by decide, rfl, rfl⟩
theorem witness_LaneMemory_atomics : Claim.Open (physState physPly) physPly [(1, physPly.lanes), (2, physPly.lanes)] [(2, physPly.lanes)] ∧
    Claim.Lands (physState physPly) physPly (Claim.atomicShape 4 .die) (physReqs [2]) (physGos [2]) (physState physPly) ∧
    (∃ y p', prepareRegs ((physState physPly).core 0) physPly physPly.lanes [2] = some (y, p')) ∧
    (atomLanes 63 1024 none .die false 4 (atomRequest .add) (physGos [2]) (enterStore 0 (Flight.issue (physState physPly) 63 physPly true) (physState physPly))).1.1 =
      none := ⟨rfl, ⟨rfl, _, rfl, rfl, by decide, rfl, rfl⟩, ⟨_, _, rfl⟩, by decide +kernel⟩
theorem witness_LaneMemory_reductions : Claim.Open (physState physPly) physPly [(1, physPly.lanes), (2, physPly.lanes)] [] ∧
    (redLanes 63 1024 (fun g s' => (none, reduceOne 63 1024 .add g.main 5 s')) (physGos [2])
      (enterStore 0 (Flight.issue (physState physPly) 63 physPly true) (physState physPly))).1 = none := ⟨rfl, by decide +kernel⟩
theorem witness_LaneMemory_off : Claim.Acts (physState (allOff physPly)) (allOff physPly) ∧ (allOff physPly).lanes = [] ∧
    Claim.Open (physState (allOff physPly)) (allOff physPly) [(1, [])] [(2, [])] := ⟨rfl, rfl, rfl⟩

/-- A user ply of team 1, whose v1 holds 0, 1, 32 and 600 in lanes 0 to 3. -/
def tilePly (em : DWord) : Ply := { userPly with
  ident := { bareIdent with team := 1 }, a := { userPly.a with em := em, rows := userPly.a.rows.set 1 (.mapped [0]) } }
/-- A tile of 512 bytes in 8 rows, with what is in flight on it. -/
def someTile (eops : Nat) : Tile := ⟨false, decide (eops ≠ 0), eops, 0, 7, 1, [], [], []⟩
/-- A team with these tiles, barriers and presses. -/
def someTeam (tiles : Map Tile) (bars : Map Barrier) (presses : Map Press) : Team := ⟨1, 0, 0, [0], tiles, bars, presses, [], 1, false, []⟩
def tilesState (x : Tile) (p : Ply) : State :=
  { acting p with
    cores := [(0, { Core.empty with ncur := 4, rows := [(0, ⟨#v[0, 1, 32, 600, 0, 0, 0, 0], 1, 0, 0, 0, false⟩)] })]
    teams := [(1, someTeam [(2, x)] [] [])] }
theorem witness_TileAccess : Claim.Acts (tilesState (someTile 0) (tilePly 5)) (tilePly 5) ∧ (tilePly 5).lanes ≠ [] ∧
    tileTeam (tilesState (someTile 0) (tilePly 5)) 0 (tilePly 5) = some 1 ∧
    teamTile (tilesState (someTile 0) (tilePly 5)) (some 1) 2 = some (someTile 0) ∧
    (∀ l ∈ (tilePly 5).lanes, (Claim.word (tilesState (someTile 0) (tilePly 5)) (tilePly 5) 1 l).toNat % 4 = 0 ∧
      (Claim.word (tilesState (someTile 0) (tilePly 5)) (tilePly 5) 1 l).toNat + 4 ≤ (someTile 0).size ∧
      ((someTile 0).read (Claim.word (tilesState (someTile 0) (tilePly 5)) (tilePly 5) 1 l).toNat 4).tileError = none) ∧
    haspWaits (tilesState (someTile 0) (tilePly 5)) 0 (tilePly 5) 1 2 (someTile 0) = false :=
  ⟨rfl, by decide, rfl, rfl, by decide +kernel, rfl⟩
theorem witness_TileAccess_open : Claim.Open (tilesState (someTile 0) (tilePly 5)) (tilePly 5) [(1, (tilePly 5).lanes)] [(3, (tilePly 5).lanes)] ∧
    Claim.StoreOpen (tilesState (someTile 0) (tilePly 5)) (tilePly 5) 1 [3] ∧
    ∃ c' p', writeRegs (Claim.here (tilesState (someTile 0) (tilePly 5))) (tilePly 5) [(3, (tilePly 5).lanes.map fun l => ⟨l, 0, false⟩)] = some (c', p') :=
  ⟨rfl, rfl, _, _, rfl⟩
theorem witness_TileAccess_waits : haspWaits (tilesState (someTile 1) (tilePly 5)) 0 (tilePly 5) 1 2 (someTile 1) = true := rfl
-- Lane 1's offset 1 is misaligned for 4 bytes, lane 3's 600 lies beyond; lane 0's fits both times.
theorem witness_TileAccess_causes : (tilePly 3).lanes = [0] ++ 1 :: [] ∧ (tilePly 9).lanes = [0] ++ 3 :: [] ∧
    (Claim.word (tilesState (someTile 0) (tilePly 3)) (tilePly 3) 1 1).toNat % 4 ≠ 0 ∧
    (Claim.word (tilesState (someTile 0) (tilePly 9)) (tilePly 9) 1 3).toNat % 4 = 0 ∧
    (someTile 0).size < (Claim.word (tilesState (someTile 0) (tilePly 9)) (tilePly 9) 1 3).toNat + 4 ∧
    teamTile (tilesState (someTile 0) (tilePly 3)) (tileTeam (tilesState (someTile 0) (tilePly 3)) 0 (tilePly 3)) 9 = none := by decide +kernel
theorem witness_TilePlacement : placeTile (tilesState (someTile 0) (tilePly 5)) 0 (someTile 0) = some 1 ∧
    placeTile (acting userPly) 0 (someTile 0) = none := by decide +kernel
def shaped (w : DWord) : Ply := (tilePly 5).setS 1 w
theorem witness_TileTable : Claim.Acts (tilesState (someTile 0) (shaped 0x00100703)) (shaped 0x00100703) ∧ guardHolds always (shaped 0x00100703) = true ∧
    tileTeam (tilesState (someTile 0) (shaped 0x00100703)) 0 (shaped 0x00100703) = some 1 ∧
    (tilesState (someTile 0) (shaped 0x00100703)).team 1 = some (someTeam [(2, someTile 0)] [] []) := ⟨rfl, rfl, rfl, rfl⟩
-- Handle 3 is free and handle 2 is not; level 0 is granted and level 1 is not; PITCH 8 is the last and 9 a reserved one.
theorem witness_TileTable_words : (someTeam [(2, someTile 0)] [] []).tiles.find (field 0x00100703#64 0 8) = none ∧
    (someTeam [(2, someTile 0)] [] []).tiles.find (field 0x00100702#64 0 8) = some (someTile 0) ∧ field 0x00800003#64 20 4 ≤ 8 ∧
    field 0x00100703#64 27 37 = 0 ∧ field 0x00100703#64 24 3 = 0 ∧ field 0x01100703#64 24 3 = 1 ∧
    teamShared (tilesState (someTile 0) (shaped 0x00100703)) 1 = false ∧ ¬field 0x00900003#64 20 4 ≤ 8 ∧ field 0x00100700#64 0 8 = 0 ∧
    lowestFree (someTeam [(2, someTile 0)] [] []).tiles.keys 256 = some 0 ∧ field 2#64 8 56 = 0 ∧ field 0x100#64 8 56 ≠ 0 ∧
    haspWaits (tilesState (someTile 0) (shaped 2)) 0 (shaped 2) 1 2 (someTile 0) = false ∧
    haspWaits (tilesState (someTile 1) (shaped 2)) 0 (shaped 2) 1 2 (someTile 1) = true := by decide +kernel
theorem witness_TileTable_room : placeTile (tilesState (someTile 0) (shaped 3)) 0 (someTile 0) = some 1 ∧
    placeTile ((tilesState (someTile 0) (shaped 3)).modCore 0 fun c => { c with ncur := 0 }) 0 (someTile 0) = none := by decide +kernel

/-- A ply of a role, with a record of 512 rows of 32 elements in t2 and 5 bytes expected in c3. -/
def copyPly (role : BitVec 2) : Ply :=
  let p := (tilePly 5).setC 3 5
  { p with a := { p.a with role := role, t := p.a.t.set 2 (parseRecord (recordBytes 0x20)) } }
theorem witness_CopiesIssue (role : BitVec 2) : Claim.Acts (tilesState (someTile 0) (copyPly role)) (copyPly role) ∧
    tileTeam (tilesState (someTile 0) (copyPly role)) 0 (copyPly role) = some 1 ∧
    teamTile (tilesState (someTile 0) (copyPly role)) (some 1) 2 = some (someTile 0) ∧ (copyPly role).a.role = role := ⟨rfl, rfl, rfl, rfl⟩
theorem witness_CopiesIssue_may : copiesOut (tilesState (someTile 0) (copyPly 1)) 0 (copyPly 1) < 31 ∧
    tensorCause ((copyPly 1).a.t[2]'(by decide)) ((copyPly 1).sreg 4) (someTile 0) = none ∧ eopsFull (tilesState (someTile 0) (copyPly 1)) 0 false 1 [2] = false ∧
    0 < ((copyPly 1).creg 3).toInt ∧ ((copyPly 1).creg 4).toInt ≤ 0 := by decide +kernel
/-- CPYTT within a team of two tiles. -/
def twoTiles : State := { acting (copyPly 0) with teams := [(1, someTeam [(2, someTile 0), (5, someTile 0)] [] [])] }
theorem witness_CopiesIssue_cpytt : Claim.Acts twoTiles (copyPly 0) ∧ teamTile twoTiles (some 1) (field 5#64 0 8) = some (someTile 0) ∧ field 5#64 8 24 = 0 ∧
    field 5#64 0 8 ≠ 2 ∧ field 5#64 32 32 + (someTile 0).size ≤ (someTile 0).size := ⟨rfl, rfl, rfl, by decide, by decide⟩
theorem witness_CopiesIssue_cpyfill : (copyPly 0).a.role = 0 ∧ field 0xFFFFFFFF#64 32 32 = 0 := ⟨rfl, by decide⟩

def someCopy (left : List Nat) : Copy := { newCopy (acting (copyPly 0)) (copyPly 0) .fill 1 2 3 with left := left, fillWord := 7 }
def copyState (left : List Nat) : State :=
  (tilesState (someTile 1) (copyPly 0)).modCore 0 fun c => { c with copies := [someCopy left] }
theorem witness_CopiesRun : findCopy (copyState [0, 128]) 1024 = some (0, someCopy [0, 128]) ∧ (someCopy [0, 128]).held = false ∧
    (someCopy [0, 128]).left.contains 128 = true ∧ tileHeld (copyState [0, 128]) 0 1024 false (copyUses (copyState [0, 128]) (someCopy [0, 128])) = false ∧
    teamTile (copyState [0, 128]) (some 1) 2 = some (someTile 1) := ⟨rfl, rfl, rfl, by decide +kernel, rfl⟩
theorem witness_CopiesRun_lands : ∃ u, landBlock 0 (someCopy [0, 128]) (someTile 1) (someTile 1) 128 (blockLen (someCopy [0, 128]) (someTile 1) (someTile 1) 128)
    (copyState [0, 128]) = .landed u := ⟨_, rfl⟩
-- A CPYIN of space 0 stops with 0x20's like when its record lies where nothing is mapped: the directory entry is not valid.
def badCopy : Copy := { newCopy (acting (copyPly 0)) (copyPly 0) .cpyin 1 2 3 with left := [0], record := parseRecord (recordBytes 0x20) }
theorem witness_CopiesRun_stops : (blockStop ((tilesState (someTile 1) (copyPly 0)).modCore 0 fun c => { c with copies := [badCopy] }) 0 badCopy .protection 0).isSome =
    true := by decide +kernel
theorem witness_CopiesRun_counts : (acting (copyPly 0)).ply 0 = some (copyPly 0) ∧ ((copyPly 0).creg 4).toInt ≤ 0 ∧
    0 < ((copyPly 0).creg 3 - BitVec.ofNat 64 4).toInt ∧ 0 < ((copyPly 0).creg 3).toInt ∧ ((copyPly 0).creg 3 - BitVec.ofNat 64 5).toInt ≤ 0 := by
  decide +kernel

/-- Memory at 0x8000 that holds some bytes, for the loads of records. -/
def loaded (bs : List Byte) (p : Ply) : State := { physState p with mem := Memory.writeBytes [] 0x8000 bs }
theorem witness_EngineLoads : Claim.Acts (loaded (recordBytes 0x20) physPly) physPly ∧ guardHolds always physPly = true ∧
    ∃ spot, Claim.LandsAt (loaded (recordBytes 0x20) physPly) physPly (readShape none 64) (physPly.sreg 1) spot (loaded (recordBytes 0x20) physPly) ∧
      (plainRead 0 none spot.at_ 64 .allocate (hintL2 .normal spot (loaded (recordBytes 0x20) physPly))).1.error = none ∧
      (parseRecord (plainRead 0 none spot.at_ 64 .allocate (hintL2 .normal spot (loaded (recordBytes 0x20) physPly))).1.bytes).isSome = true ∧
      ownTeam (loaded (recordBytes 0x20) physPly) physPly = none :=
  ⟨rfl, rfl, ⟨0x8000, 0, 0x8000, 0⟩, ⟨rfl, _, rfl, rfl, by decide, rfl, rfl⟩, by decide +kernel, by decide +kernel, rfl⟩
theorem witness_EngineLoads_bad : parseRecord (plainRead 0 none 0x8000 64 .allocate (loaded (recordBytes 0x00) physPly)).1.bytes = none := by decide +kernel
theorem witness_EngineLoads_cbld : ∃ spot, Claim.LandsAt (loaded [] physPly) physPly (readShape none 32) (physPly.sreg 1) spot (loaded [] physPly) ∧
      (plainRead 0 none spot.at_ 32 .allocate (hintL2 .normal spot (loaded [] physPly))).1.error = none := ⟨⟨0x8000, 0, 0x8000, 0⟩, ⟨rfl, _, rfl, rfl, by decide, rfl, rfl⟩, by decide +kernel⟩

/-- A user ply of team 1 whose page at 0x8000 is in the TLB of core 0, and a press record there: two stages, four deep, four tickets. -/
def bindState (p : Ply) : State :=
  { physState p with
    cur := 0, plies := [(0, p)], teams := [(1, someTeam [] [] [])], frames := [(8, .bound 0 0)], keys := [(0, 0)], tlbs := [(0, [⟨0, 0x8000, 12, 0x8000, true, true, true, 0, 0, 0, 0⟩])]
    hyp := { Hyp.reset with kway := (List.range 64).map fun n => (n, 0xFFFFFFFFFFFFFFFF) }
    mem := Memory.writeBytes [] 0x8000 (bytesLE 0x090402 4 ++ bytesLE 4 4) }
def bindPly : Ply := (tilePly 0).setS 1 0x8000
theorem witness_EngineLoads_pbind : Claim.Acts (bindState bindPly) bindPly ∧ ownTeam (bindState bindPly) bindPly = some (someTeam [] [] []) ∧
    ∃ spot t, Claim.LandsAt (bindState bindPly) bindPly (readShape none 64) 0x8000 spot t ∧ (plainRead 0 (some 0) spot.at_ 64 .allocate (hintL2 .normal spot t)).1.error = none ∧
      (parsePress (plainRead 0 (some 0) spot.at_ 64 .allocate (hintL2 .normal spot t)).1.bytes 1).isSome = true :=
  ⟨rfl, rfl, ⟨0x8000, 0, 0x8000, 0⟩, bindState bindPly, ⟨rfl, _, rfl, rfl, by decide, rfl, rfl⟩, by decide +kernel, by decide +kernel⟩

/-- A BF16 MMA of shape 0 from tile 2, in an octet of four active lanes: s8 is its format block (Table 12-2). -/
def matPly (role : BitVec 2) : Ply := withS [(8, 0x02800700)] { tilePly 15 with a := { (tilePly 15).a with role := role } }
def wideTile (eops : Nat) : Tile := ⟨false, decide (eops ≠ 0), eops, 0, 255, 3, [], [], []⟩
def matState (p : Ply) : State := tilesState (wideTile 0) p
theorem witness_MatrixIssue : Claim.Acts (matState (matPly 2)) (matPly 2) ∧ (matPly 2).lanes ≠ [] ∧
    (matCall false 16 2 8 0 .acc (matState (matPly 2)) (matPly 2)).cause (matState (matPly 2)) (matPly 2) = none ∧
    (matCall false 16 2 8 0 .acc (matState (matPly 2)) (matPly 2)).stalls (matState (matPly 2)) (matPly 2) = false ∧
    ∃ c' p', prepareRegs (Claim.here (matState (matPly 2))) (matPly 2) (matPly 2).lanes
      (matCall false 16 2 8 0 .acc (matState (matPly 2)) (matPly 2)).dRegs = some (c', p') :=
  ⟨rfl, by decide, by decide +kernel, by decide +kernel, _, _, rfl⟩
theorem witness_MatrixIssue_cause : (matCall false 16 2 8 0 .acc (matState (matPly 1)) (matPly 1)).cause (matState (matPly 1)) (matPly 1) = some .role := by
  decide +kernel
def frozenState (p : Ply) : State := (matState p).modCore 0 fun c => { c with frozen := true }
theorem witness_MatrixIssue_stalls : (matCall false 16 2 8 0 .acc (frozenState (matPly 2)) (matPly 2)).cause (frozenState (matPly 2)) (matPly 2) = none ∧
    (matCall false 16 2 8 0 .acc (frozenState (matPly 2)) (matPly 2)).stalls (frozenState (matPly 2)) (matPly 2) = true := by decide +kernel
theorem witness_MatrixIssue_off : Claim.Acts (matState (allOff (matPly 2))) (allOff (matPly 2)) ∧ (allOff (matPly 2)).lanes = [] := ⟨rfl, rfl⟩
def givenA (p : Ply) : Ply := { p with a := { p.a with rows := p.a.rows.set 2 .given } }
theorem witness_MatrixIssue_given : (givenA (matPly 2)).entry 2 = .given := rfl

/-- The machine with that operation entered. -/
noncomputable def matEntered : State := did (.mma 16 2 8 0 .acc) (matState (matPly 2))
/-- The operation that octet 0 of its engine holds. -/
noncomputable def someOp (bad : Bool) : MatOp :=
  { (matCall false 16 2 8 0 .acc (matState (matPly 2)) (matPly 2)).op (matState (matPly 2)) (matPly 2) (matPly 2) 0 with badRow := if bad then some 0 else none }
noncomputable def opState (bad : Bool) : State := (matState (matPly 2)).modCore 0 fun c => { c with mats := [someOp bad] }
theorem witness_MatrixEngine (bad : Bool) : ((opState bad).cores.findSome? fun (c, x) =>
    (x.mats.find? fun y => y.seq == 1024 && y.octet == 0).map fun y => (c, y)) = some (0, someOp bad) := by cases bad <;> rfl
theorem witness_MatrixEngine_reads : matHeld (opState false) 0 (someOp false) = false ∧ (someOp false).badRow = none ∧
    accBadRow ((opState false).core 0) (someOp false) = none ∧ ((matReads (opState false) (someOp false)).all fun x => x.2.tileError.isNone) = true ∧
    matHeld (opState true) 0 (someOp true) = false ∧ (someOp true).badRow.isSome = true := by decide +kernel
theorem witness_MatrixEngine_thaw : ((frozenState (matPly 2)).core 0).frozen = true ∧ ((frozenState (matPly 2)).core 0).freezeHeld = false ∧
    ((frozenOps ((frozenState (matPly 2)).core 0)).all fun m => !preempted (frozenState (matPly 2)) m.ply m.uid) = true := by decide +kernel
def frozenContext (p : Ply) : State := (physState p).modCore 0 fun c => { c with frozen := true }
theorem witness_MatrixEngine_context : Claim.Acts (frozenContext physPly) physPly ∧ physPly.lanes ≠ [] ∧ isContext (frozenContext physPly).cur = true ∧
    physPly.mode ≠ 0 ∧ (Claim.here (frozenContext physPly)).frozen = true ∧ (Claim.here (physState physPly)).frozen = false ∧
    Claim.Open (frozenContext physPly) physPly [] [(2, physPly.lanes)] ∧ Claim.Open (frozenContext physPly) physPly [(1, physPly.lanes)] [] :=
  ⟨rfl, by decide, rfl, by decide, rfl, rfl, rfl, rfl⟩
theorem witness_MatrixEngine_mstate : ∃ c' p', writeReg (Claim.here (frozenContext physPly)) physPly 2 (physPly.lanes.map fun l =>
    ⟨l, frameWordAt (Claim.here (frozenContext physPly)) (l / 8) 0 (l % 8), false⟩) = some (c', p') := ⟨_, _, rfl⟩
theorem witness_MatrixEngine_refused : Claim.Acts (acting userPly) userPly ∧ userPly.lanes ≠ [] ∧ isContext (acting userPly).cur = false := ⟨rfl, by decide, rfl⟩

/-- A run of two teams, and its first team in slots 0, 1 and 2 of core 0. -/
def someDesc : RunDesc :=
  { entry := 0x2000, width := 8, plies := 2, template := false, udel := false, prio := 1, tenant := 3, aspace := 0, teams := 2, gang := 1, slim := 4
    crec := 0, retmap := 0, skipmap := 0, wakekey := 0, dies := 15, args := Vector.replicate 8 0 }
def someRun : Run :=
  { desc := someDesc, runid := 9, tag := some 4, accepted := 0, aged := 0, nextTeam := 2, reserved := [], skip := [], retired := [], stampq := [], bars := []
    cap := false, ctrap := false, rnsmap := 0, cause := 0, causePly := 0, causePc := 0, killed := false, bound := [] }
def runTeam : Team := { someTeam [(2, someTile 0)] [(3, ⟨5, 0, 0⟩)] [(1, somePress [0, 0, 0])] with slots := [0, 1, 2] }
/-- A ply of that run, whose handle in s1 names entry 0 of core 0, and 2 in s2. -/
def runPly : Ply := withS [(1, mouldHandle 0 0 1 4), (2, 2)] { userPly with ident := { bareIdent with run := 1, team := 1, rtag := 4, tenant := some 3 } }
def someMould (w : Nat) : Mould :=
  { gen := 1, rtag := 4, run := 1, maker := 0, slot := 0, width := w, dropped := false, exported := false, complete := true
    image := Arch.start 0x2100 0xFF, held := none }
def runState (r : Run) (m : Map Mould) (p : Ply) : State :=
  { acting p with runs := [(1, r)], teams := [(1, runTeam)], cores := [(0, { Core.empty with moulds := m, ncur := 4 })] }
theorem witness_Moulds : Claim.Acts (runState someRun [] runPly) runPly ∧ guardHolds always runPly = true ∧
    storesOut (runState someRun [] runPly) 0 runPly = 0 ∧ copiesOut (runState someRun [] runPly) 0 runPly = 0 ∧
    tilesOut (runState someRun [] runPly) 0 runPly = 0 ∧ (∀ t, runPly.wait ≠ .rows t) ∧ freeEntry (runState someRun [] runPly) 0 = some 0 ∧
    (Claim.here (runState someRun [] runPly)).shareStalls runPly.a.rows = false ∧
    ∃ rows c', (Claim.here (runState someRun [] runPly)).shareMap runPly.a.rows = some (rows, c') :=
  ⟨rfl, rfl, rfl, rfl, rfl, fun _ h => Wait.noConfusion h, by decide +kernel, rfl, _, _, rfl⟩
theorem lowestFreeFrom_full (used : List Nat) (n k : Nat) (h : ∀ j, k ≤ j → j < k + n → j ∈ used) : lowestFreeFrom used n k = none := by
  induction n generalizing k with
  | zero => rfl
  | succ n ih =>
    have hk : used.contains k = true := by simpa using h k (Nat.le_refl k) (by omega)
    simp only [lowestFreeFrom, hk, if_true]
    exact ih (k + 1) fun j h1 h2 => h j (by omega) (by omega)
@[irreducible] def fullTable : Map Mould := (List.range 1024).map fun e => (e, { someMould 8 with slot := e, gen := 2 })
theorem full_core (s : State) (c : Nat) (h : (s.core c).moulds = fullTable) : freeEntry s c = none := by
  refine lowestFreeFrom_full _ _ _ fun j _ hj => List.mem_append_left _ ?_
  rw [h]
  unfold fullTable Map.keys
  exact List.mem_map.2 ⟨_, List.mem_map.2 ⟨j, List.mem_range.2 (by omega), rfl⟩, rfl⟩
theorem witness_Moulds_full : freeEntry (runState someRun fullTable runPly) 0 = none := full_core _ _ rfl
theorem witness_Moulds_busy : storesOut ((runState someRun [] runPly).modCore 0 fun c => { c with
    stores := [Flight.issue (runState someRun [] runPly) 0 runPly true] }) 0 runPly ≠ 0 := by decide +kernel
theorem witness_Moulds_drop : validMould (runState someRun [(0, someMould 8)] runPly) 0 runPly (runPly.sreg 1) = some (0, someMould 8) ∧
    (someMould 8).maker = 0 ∧ validMould (runState someRun [] runPly) 0 runPly (runPly.sreg 1) = none := by decide +kernel
/-- The same state with a ply of another core, for which the mould is an export. -/
theorem witness_MouldsRun : Claim.Acts (runState someRun [(0, someMould 8)] runPly) runPly ∧ guardHolds always runPly = true ∧
    validMould (runState someRun [(0, someMould 8)] runPly) 0 runPly (runPly.sreg 1) = some (0, someMould 8) ∧ (someMould 8).width = runPly.width ∧
    runPly.held.isSome = false ∧ drained (runState someRun [(0, someMould 8)] runPly) 0 runPly = true ∧
    (((runState someRun [(0, someMould 8)] runPly).releaseMap 0 runPly.a.rows).core 0).shareStalls (someMould 8).image.rows = false ∧
    ∃ rows c', (((runState someRun [(0, someMould 8)] runPly).releaseMap 0 runPly.a.rows).core 0).shareMap (someMould 8).image.rows = some (rows, c') :=
  ⟨rfl, rfl, by decide +kernel, rfl, rfl, by decide +kernel, rfl, _, _, rfl⟩
def holding (p : Ply) : Ply := { p with held := some ⟨1, 1, 0, 0, 1⟩ }
theorem witness_MouldsRun_refused : validMould (runState someRun [] runPly) 0 runPly (runPly.sreg 1) = none ∧ (someMould 16).width ≠ runPly.width ∧
    validMould (runState someRun [(0, someMould 16)] runPly) 0 runPly (runPly.sreg 1) = some (0, someMould 16) ∧
    (holding runPly).held.isSome = true ∧ sameTicket (holding runPly) (someMould 8) = false ∧
    drained ((runState someRun [(0, someMould 8)] runPly).modCore 0 fun c => { c with
      loads := [Flight.issue (runState someRun [] runPly) 0 runPly true] }) 0 runPly = false := by decide +kernel
theorem witness_MouldsRun_cast : runPly.mode = 0 ∧ (runState someRun [(0, someMould 8)] runPly).run 1 = some someRun ∧ someRun.stampq = [] ∧
    freeSlots (runState someRun [(0, someMould 8)] runPly) 1 = [1, 2] ∧
    ∃ u, startImage (runState someRun [(0, someMould 8)] runPly) (agentKey 0 1) (someMould 8) runPly.ident none (fun i => { i with sibix := runPly.sreg 2 }) =
      some u := ⟨rfl, rfl, rfl, by decide, _, rfl⟩
theorem witness_MouldsRun_stamp : makerOf (runState someRun [(0, someMould 8)] runPly) 1 (runPly.sreg 1) = some (someMould 8) ∧ (runPly.sreg 3).toNat = 0 ∧
    0 < (runPly.sreg 2).toNat ∧
    ((coresLacking (runState someRun [(0, someMould 8)] runPly) 1 (runPly.sreg 1)).any fun c =>
      (freeEntry (runState someRun [(0, someMould 8)] runPly) c).isNone) = false ∧
    ¬someRun.stampq.length + (2 - (stampSlots (runState someRun [(0, someMould 8)] runPly) 1 1).length) > someRun.desc.slim ∧
    someRun.stampq.length + (7 - (stampSlots (runState someRun [(0, someMould 8)] runPly) 1 1).length) > someRun.desc.slim := by decide +kernel
/-- A second team on core 1, all of whose mould entries are held. -/
def twoTeams : State :=
  { acting runPly with
    runs := [(1, someRun)], teams := [(1, runTeam), (2, { runTeam with number := 1, core := 1 })]
    cores := [(0, { Core.empty with moulds := [(0, someMould 8)] }), (1, { Core.empty with moulds := fullTable })] }
theorem witness_MouldsRun_full : ((coresLacking twoTeams 1 (runPly.sreg 1)).any fun c => (freeEntry twoTeams c).isNone) = true := by
  have h : coresLacking twoTeams 1 (runPly.sreg 1) = [1] := by decide +kernel
  rw [h]
  show ((freeEntry twoTeams 1).isNone || false) = true
  rw [full_core twoTeams 1 rfl]
  rfl

def pressState (x : Press) (p : Ply) : State :=
  { acting p with teams := [(1, { runTeam with presses := [(1, x)] })] }
def pressPly : Ply := { userPly with ident := { bareIdent with team := 1 } }
theorem witness_Tickets_choice : (somePress [0, 0, 0]).choice = some 0 ∧ (somePress [0, 0, 0]).ready 0 = true ∧ (somePress [0, 0, 0]).handedBack 0 = [] ∧
    0 < (somePress [0, 0, 0]).tumblers.length ∧ (somePress [4, 4, 4]).choice = none ∧
    ({ somePress [1, 0, 0] with back := [[0], [], []] } : Press).handedBack 0 = 0 :: [] ∧ 0 < (somePress [1, 0, 0]).back.length := by decide
-- The last two: no stage is ready and the press is not finished, which no run reaches.
theorem witness_Tickets : Claim.Acts (pressState (somePress [0, 0, 0]) pressPly) pressPly ∧ guardHolds always pressPly = true ∧
    pressOf (pressState (somePress [0, 0, 0]) pressPly) pressPly 1 = some (somePress [0, 0, 0]) ∧
    pressOf (pressState (somePress [0, 0, 0]) pressPly) pressPly 2 = none ∧ pressPly.held = none ∧ (holding pressPly).held.isSome = true ∧
    (somePress [0, 0, 0]).broken = false ∧ (somePress [0, 0, 0]).finished = false ∧ (somePress [4, 4, 4]).finished = true ∧
    ({ somePress [0, 0, 0] with brokenSlots := [0] } : Press).broken = true ∧ (somePress [5, 5, 5]).choice = none ∧
    (somePress [5, 5, 5]).finished = false := ⟨rfl, rfl, rfl, rfl, rfl, rfl, rfl, rfl, rfl, rfl, rfl, rfl⟩
theorem witness_Tickets_held : heldOf (holding pressPly) 1 (somePress [1, 0, 0]) = some ⟨1, 1, 0, 0, 1⟩ ∧ heldOf pressPly 1 (somePress [1, 0, 0]) = none ∧
    ({ somePress [1, 0, 0] with brokenSlots := [0] } : Press).brokenSlots.contains (0 % 2) = true ∧
    (somePress [1, 0, 0]).brokenSlots.contains (0 % 2) = false ∧ (somePress [1, 0, 0]).waited ⟨1, 1, 0, 0, 1⟩ = some true ∧
    (somePress [3, 0, 0]).waited ⟨1, 1, 0, 2, 1⟩ = none := by decide

def givePly (e : RowEntry) : Ply := { userPly with a := { userPly.a with rows := (userPly.a.rows.set 60 (.mapped [0])).set 62 e } }
theorem witness_GiveAndClaim : Claim.Acts (laneState (givePly .given)) (givePly .given) ∧ guardHolds always (givePly .given) = true ∧
    (((List.range (64 - 60)).map fun j => (60 : VReg) + BitVec.ofNat 6 j).any fun r => (entryRows ((givePly .given).entry r)).any fun n =>
      (Claim.here (laneState (givePly .given))).pending n || (Claim.here (laneState (givePly .given))).locked n) = false ∧
    ∃ c q, claimAll (Claim.here (laneState (givePly .given))) (givePly .given)
      (((List.range (64 - 60)).map fun j => (60 : VReg) + BitVec.ofNat 6 j).filter fun r => (givePly .given).entry r == .given) = some (c, q) :=
  ⟨rfl, rfl, by decide +kernel, _, _, rfl⟩
def pendingState : State := (laneState (givePly .zero)).modCore 0 fun c => { c with
  loads := [{ Flight.issue (acting userPly) 0 userPly true with rows := [0] }] }
theorem witness_GiveAndClaim_waits : (((List.range (64 - 60)).map fun j => (60 : VReg) + BitVec.ofNat 6 j).any fun r =>
    (entryRows ((givePly .zero).entry r)).any fun n => (Claim.here pendingState).pending n || (Claim.here pendingState).locked n) = true := by decide +kernel

/-- With no load out, none lands before an access. -/
theorem landEarlier_idle {k : Nat} {ls : List Nat} {s : State} (hk : k = 63) (h : (s.core 0).loads = []) : landEarlier k ls s = s := by
  have h' : (s.core (coreOf k)).loads = [] := by rw [show coreOf k = 0 from congrArg coreOf hk]; exact h
  unfold landEarlier; split <;> simp [h']
/-- A queue of 4 entries at 0x8000 whose ring is at 0x9000, with h and t entries taken and stored. -/
def someQueue (kind : QueueKind) (h t : DWord) : Queue := ⟨kind, 0x9000, 2, h, t, [], [], 0, []⟩
def queueState (q : Queue) (p : Ply) : State := { physState p with queues := [(0x8000, q)] }
def queueShape : Shape := { need := .read, bytes := 64, reach := .atomic }
def entryShape : Shape := { need := .read, bytes := 32, reach := .atomic }
theorem witness_QueuePops (q : Queue) : Claim.Acts (queueState q physPly) physPly ∧ guardHolds always physPly = true ∧
    (∃ spot, Claim.LandsAt (queueState q physPly) physPly queueShape (physPly.sreg 1) spot (queueState q physPly) ∧
      (queueState q physPly).queues.find spot.at_ = some q) :=
  ⟨rfl, rfl, ⟨0x8000, 0, 0x8000, 0⟩, ⟨rfl, queueState q physPly, rfl, rfl, by decide, rfl, (landEarlier_idle rfl rfl).symm⟩, rfl⟩
theorem witness_QueuePops_counts : ((someQueue .user 5 5).tail - (someQueue .user 5 5).head).toNat = 0 ∧
    ((someQueue .user 0xFFFFFFFFFFFFFFFF 0).tail - (someQueue .user 0xFFFFFFFFFFFFFFFF 0).head).toNat = 1 ∧ (someQueue .user 5 6).kind = .user := by decide
def popState : State := putQueue 0x8000 (someQueue .user 5 6) (queueState (someQueue .user 5 6) physPly)
theorem witness_QueuePops_entry : Claim.EntriesLand physPly (someQueue .user 5 6) .read 1 5 popState [0x9020] popState ∧
    (homeRead 0 (viewer 63 physPly).tenant 0x9020 32 popState).1.error = none :=
  ⟨⟨0x9020, [], popState, rfl, ⟨rfl, rfl⟩, (⟨⟨0x9020, 0, 0x9020, 0⟩, rfl, rfl, _, rfl, rfl, by decide, rfl, rfl⟩ :
    ∃ spot, spot.at_ = 0x9020 ∧ Claim.LandsAt popState physPly entryShape ((someQueue .user 5 6).entryVa 5) spot popState)⟩, by decide +kernel⟩
/-- The same queue with two entries, for two lanes, and a ring of a submission queue, which is physical. -/
theorem witness_QueuePops_lands : Claim.EntriesLand physPly (someQueue .user 5 7) .read ([1, 2].take 2).length 5 popState [0x9020, 0x9040] popState ∧
    Claim.EntriesLand physPly (someQueue (.submission 3) 5 7) .read 1 6 popState [0x9040] popState ∧
    (readEntries 0 none [0x9020, 0x9040] popState).1.map (·.error) = [none, none] ∧
    ∃ y p', prepareRegs ((readEntries 0 none [0x9020, 0x9040] popState).2.core 0) physPly [1, 2] (regList 8 8) = some (y, p') :=
  ⟨⟨0x9020, [0x9040], popState, rfl, ⟨0x9040, [], popState, rfl, ⟨rfl, rfl⟩, (⟨⟨0x9040, 0, 0x9040, 0⟩, rfl, rfl, _, rfl, rfl, by decide, rfl, rfl⟩ :
      ∃ spot, spot.at_ = 0x9040 ∧ Claim.LandsAt popState physPly entryShape ((someQueue .user 5 7).entryVa 6) spot popState)⟩,
    (⟨⟨0x9020, 0, 0x9020, 0⟩, rfl, rfl, _, rfl, rfl, by decide, rfl, rfl⟩ :
      ∃ spot, spot.at_ = 0x9020 ∧ Claim.LandsAt popState physPly entryShape ((someQueue .user 5 7).entryVa 5) spot popState)⟩,
   ⟨0x9040, [], popState, rfl, ⟨rfl, rfl⟩, (⟨rfl, rfl⟩ : 0x9040 = placeOf popState.io ((someQueue (.submission 3) 5 7).entryVa 6).toNat ∧ popState = popState)⟩,
   by decide +kernel, _, _, rfl⟩
def predPly : Ply := physPly.setP 2 0xF 2
theorem witness_QueuePops_lanes : lanesOf (predPly.a.em &&& predPly.preg 2) = 1 :: [] ∧ lanesOf (predPly.a.em &&& predPly.preg 3) = [] ∧
    Claim.Open (queueState (someQueue .user 5 6) predPly) predPly [] ((regList 8 8).map fun r => (r, [1])) ∧ (([1] : List Nat).take 1).length = 1 ∧
    ∃ c' p', writeRegs ((queueState (someQueue .user 5 6) predPly).core 0) predPly ((regList 8 8).zipIdx.map fun (x, _) => (x, [⟨1, 0, false⟩])) = some (c', p') :=
  ⟨rfl, rfl, rfl, rfl, _, _, rfl⟩
theorem witness_QueuePushes : windowRoom popState physPly.uid (dieOfPa 0x8000) ≠ 0 ∧
    (∃ spot, Claim.LandsAt popState physPly { need := .write, bytes := 32, reach := .atomic }
      ((someQueue .user 5 6).entryVa ((someQueue .user 5 6).tail + BitVec.ofNat 64 (sentTo popState physPly.uid 0x8000))) spot popState) ∧
    windowRoom (release 0 .package popState) physPly.uid (dieOfPa 0x8000) ≠ 0 :=
  ⟨by decide, ⟨⟨0x9040, 0, 0x9040, 0⟩, rfl, _, rfl, rfl, by decide, rfl, rfl⟩, by decide +kernel⟩
/-- A window of sender 1 towards die 0 with these entries. -/
def someWindow (es : List Pending) : Window := ⟨1, 0, 0, 0, ⟨0, none, true, 0⟩, 9, es, none, false⟩
def pendingEntry (n : Nat) (flying taken dropped : Bool) : Pending := ⟨n, 0x8000, .user, [1, 2, 3, 4], flying, taken, dropped⟩
theorem witness_QueuePushes_full : windowRoom { popState with windows := [someWindow ((List.range 8).map fun n => pendingEntry n true false false)] }
    physPly.uid (dieOfPa 0x8000) = 0 := by decide
theorem witness_QueuePushes_lanes : Claim.Open (physState predPly) predPly ((regList 8 8).map fun r => (r, predPly.lanes)) [] ∧
    lanesOf (predPly.a.em &&& predPly.preg 3) = [] ∧ 64 ≤ ((physPly.setS 1 64).sreg 1).toNat := ⟨rfl, rfl, by decide⟩
/-- Mailbox ring 63, whose descriptors lie from 0x4000. -/
def ringState (h t : DWord) (ws : List Window) : State :=
  let s := { physState (physPly.setS 1 63) with hyp := { Hyp.reset with mbtab := 0x4000 }, windows := ws }
  { s with queues := [(ringPlace s 63, someQueue (.ring 63) h t)] }
theorem witness_QueuePushes_ring : ((physPly.setS 1 63).sreg 1).toNat < 64 ∧
    (ringState 5 5 []).queues.find (ringPlace (ringState 5 5 []) 63) = some (someQueue (.ring 63) 5 5) ∧
    (someQueue (.ring 63) 5 5).kind = .ring 63 ∧ windowRoom (ringState 5 5 []) physPly.uid (dieOfPa (ringPlace (ringState 5 5 []) 63)) ≠ 0 ∧
    windowRoom (release 0 .package (ringState 5 5 [])) physPly.uid (dieOfPa (ringPlace (ringState 5 5 []) 63)) ≠ 0 ∧
    (someQueue (.ring 63) 5 5).count = 0 ∧ (someQueue (.ring 63) 5 6).count ≠ 0 ∧
    (homeRead 0 (viewer 63 physPly).tenant (placeOf (ringState 5 6 []).io ((someQueue (.ring 63) 5 6).entryVa 5).toNat) 32 (ringState 5 6 [])).1.error = none := by
  decide +kernel
theorem witness_QueuePushes_ring_full :
    windowRoom (ringState 5 5 [someWindow ((List.range 8).map fun n => pendingEntry n true false false)]) physPly.uid
      (dieOfPa (ringPlace (ringState 5 5 []) 63)) = 0 := by decide +kernel

def windowState (q : Queue) (w : Window) : State := { queueState q physPly with windows := [w] }
def sent : Window := someWindow [pendingEntry 3 true false false]
theorem witness_QueueEngine : findWindow (windowState (someQueue .user 5 6) sent) 1 (dieOfPa 0x8000) = some sent ∧
    sent.entries.find? (·.flying) = some (pendingEntry 3 true false false) ∧ sent.awaited.any (· != 3) = false ∧
    ({ sent with awaited := some 2 } : Window).awaited.any (· != 3) = true ∧
    pendingPlace (windowState (someQueue .user 5 6) sent) 1 (pendingEntry 3 true false false) = some (0x8000, .user) ∧
    QueueKind.unset .user (windowState (someQueue .user 5 6) sent) = false ∧
    (windowState (someQueue .user 5 6) sent).queues.find 0x8000 = some (someQueue .user 5 6) ∧
    oldestWaiter (windowState (someQueue .user 5 6) sent) 0x8000 [] = none ∧ (someQueue .user 5 6).count < 2 ^ (someQueue .user 5 6).logd ∧
    2 ^ (someQueue .user 5 9).logd ≤ (someQueue .user 5 9).count := by decide +kernel
theorem witness_QueueEngine_place : ∃ a u, storePlace sent.who (someQueue .user 5 6) (windowState (someQueue .user 5 6) sent) = (some a, u) := ⟨_, _, rfl⟩
/-- The context ply parks on the queue. -/
def popWaiter : Ply := { physPly with state := .parked, wait := .queue 0x8000 16 false }
theorem witness_QueueEngine_waiter : oldestWaiter { windowState (someQueue .user 5 5) sent with plies := [(63, popWaiter)] } 0x8000 [⟨63, 1⟩] = some (63, 16, false) := by
  decide +kernel
theorem witness_QueueEngine_ends : (someWindow [pendingEntry 3 false false true]).entries.any (·.dropped) = true ∧
    ({ sent with backoff := true } : Window).backoff = true ∧ (pendingEntry 3 false true false).taken = true ∧
    (someWindow [pendingEntry 3 false true false, pendingEntry 4 true false false]).entries = pendingEntry 3 false true false :: [pendingEntry 4 true false false] := by decide

/-- A team with barrier 3 at b, and s9 the count. -/
def barPly (n : DWord) (mark : BarMark) : Ply :=
  { runPly.setS 9 n with barMark := mark }
def barState (b : Barrier) (p : Ply) : State := { runState someRun [] p with teams := [(1, { runTeam with bars := [(3, b)] })] }
theorem witness_Barriers (n : DWord) (mark : BarMark) (b : Barrier) : Claim.Acts (barState b (barPly n mark)) (barPly n mark) ∧
    guardHolds always (barPly n mark) = true ∧ getBar (barState b (barPly n mark)) (barPly n mark) 0 3 .core = some b ∧ (barPly n mark).inUi = false :=
  ⟨rfl, rfl, rfl, rfl⟩
-- Counts at both ends of 1 to 65,535 and beyond them; the default count of the run's teams; phases just passed, and 2^31 + 1 ago.
theorem witness_Barriers_counts : ((barPly 1 .none).sreg 9).toNat = 1 ∧ ((barPly 65535 .none).sreg 9).toNat = 65535 ∧ ((barPly 0 .none).sreg 9).toNat = 0 ∧
    65535 < ((barPly 65536 .none).sreg 9).toNat ∧ ((barState ⟨5, 0, 0⟩ (barPly 1 .none)).run 1).map (·.desc.plies) = some 2 ∧
    1 ≤ (6#32 - 5).toNat ∧ (6#32 - 5).toNat ≤ 2 ^ 31 ∧ ¬1 ≤ (5#32 - 5).toNat ∧ ¬(0x80000006#32 - 5).toNat ≤ 2 ^ 31 ∧
    (barPly 1 ⟨true, 3, 0, 5, false⟩).barMark.inUi = (barPly 1 ⟨true, 3, 0, 5, false⟩).inUi ∧ (barPly 1 ⟨true, 3, 0, 5, false⟩).barMark.scope = Scope.bits .core ∧
    (barPly 1 .none).barMark.valid = false := by decide
def podState : State := { runState { someRun with bars := [(67, ⟨5, 1, 2⟩)] } [] runPly with io := { Io.reset with podOn := true } }
theorem witness_Barriers_pod : podState.run 1 = some { someRun with bars := [(67, ⟨5, 1, 2⟩)] } ∧ podState.io.podOn = true ∧
    (((someRun.bars.getD 67 ⟨0, 0, 0⟩) : Barrier).cnt = 0) ∧ ((Map.getD [(67, ⟨5, 1, 2⟩)] (3 + 64) ⟨0, 0, 0⟩ : Barrier).cnt ≠ 0) := ⟨rfl, rfl, rfl, by decide⟩

def latchState (l : Latch) (p : Ply) : State := { physState p with latches := [(16 * 2 ^ 57 + 0x8000, l)] }
theorem witness_Latches : Claim.Acts (latchState ⟨2, [], []⟩ physPly) physPly ∧ guardHolds always physPly = true ∧ (physPly.sreg 1).toNat % 8 = 0 ∧
    (physPly.sreg 1).toNat < 2 ^ 57 ∧ clampTraps physPly .system = false ∧
    latchFull (latchState ⟨2, [], []⟩ physPly) (latchKeyOf physPly.ident.tenant (physPly.sreg 1)) = false ∧
    ((latchState ⟨2, [], []⟩ physPly).latch (latchKeyOf physPly.ident.tenant (physPly.sreg 1))).count ≠ 0 ∧
    ((physState physPly).latch (latchKeyOf physPly.ident.tenant (physPly.sreg 1))).count = 0 := ⟨rfl, by decide +kernel⟩
theorem witness_Latches_addresses : (0x8004#64).toNat % 8 ≠ 0 ∧ (0x200000000000000#64).toNat % 8 = 0 ∧ 2 ^ 57 ≤ (0x200000000000000#64).toNat ∧
    clampTraps (capped physPly) .system = true := by decide
def fullLatches : State := { physState physPly with latches := (List.range 4096).map fun n => (n, ⟨1, [], []⟩) }
theorem witness_Latches_full : latchFull fullLatches (latchKeyOf physPly.ident.tenant (physPly.sreg 1)) = true := by decide +kernel
theorem witness_Latches_wakes : ((latchState ⟨0, [.ply 63, .host 1 2], []⟩ physPly).latch (16 * 2 ^ 57 + 0x8000)).waiters = .ply 63 :: [.host 1 2] ∧
    armedPly (latchState ⟨0, [], [63]⟩ physPly) [63] = none ∧
    armedPly (latchState ⟨0, [], [63]⟩ { physPly with a := { physPly.a with uictl := 1 } }) [63] = some 63 := by decide +kernel
/-- A usable function 5 of tenant 3, with an aperture waiter. -/
def hostState (w : HostWaiter) (ls : Map Latch) : State :=
  { State.reset with
    hyp := { Hyp.reset with vfpol := [(5, 0x13)], tport := [(3, 1 <<< 48)] }, latches := ls
    io := { Io.reset with readyHost := true, vfwin := [(5, 0x1000)], waiters := [(5 * 64 + 2, w)] } }
theorem witness_Latches_function : (hostState ⟨0, 0⟩ []).io.readyHost = true ∧ inboundAhead (hostState ⟨0, 0⟩ []) 5 = false ∧
    functionTenant (hostState ⟨0, 0⟩ []) 5 = some 3 ∧ functionTenant (hostState ⟨0, 0⟩ []) 6 = none ∧
    (waiterOf (hostState ⟨0, 0⟩ []) 5 2).status = 0 ∧ (waiterOf (hostState ⟨7, 1⟩ []) 5 2).status = 1 ∧
    (0x8001#64).toNat % 8 < 2 ∧ latchFull (hostState ⟨0, 0⟩ []) (latchKeyOf (some 3) 0x8000) = false ∧
    (hostState ⟨7, 1⟩ [(7, ⟨0, [.host 5 2], []⟩)]).latches.find (waiterOf (hostState ⟨7, 1⟩ []) 5 2).key.toNat = some ⟨0, [.host 5 2], []⟩ := by decide +kernel

def uiPly : Ply := { userPly with inUi := true, uiDepth := 0 }
theorem witness_ControlWords : Claim.Acts (acting (userPly.setC 3 5)) (userPly.setC 3 5) ∧ guardHolds always (userPly.setC 3 5) = true ∧
    0 < ((userPly.setC 3 5).creg 3).toInt ∧ ((userPly.setC 3 5).creg 4).toInt ≤ 0 ∧ loadsOut (acting userPly) 0 userPly = 0 ∧
    tilesOut (acting userPly) 0 userPly = 0 ∧ loadsOut (loadOut userPly) 0 userPly ≠ 0 ∧ userPly.inUi = false ∧ uiPly.inUi = true ∧
    uiPly.a.knuckles.length = uiPly.uiDepth := ⟨rfl, rfl, by decide, by decide, rfl, rfl, by decide +kernel, rfl, rfl, rfl⟩
theorem witness_Regions : Claim.Acts (acting (split userPly)) (split userPly) ∧ guardHolds always (split userPly) = true ∧ (split userPly).diverged = true ∧
    userPly.diverged = false ∧ uiPly.inUi = true ∧ userPly.inUi = false ∧ userPly.a.wmsig = 0xFFFF ∧ userPly.a.wmsig ≠ 0xDF1C := ⟨rfl, rfl, rfl, rfl, rfl, rfl, rfl, by decide⟩
def retryPly : Ply := { userPly with region := 0x2040, wait := .retry .memError }
theorem witness_Regions_retry : (acting retryPly).ply 0 = some retryPly ∧ retryPly.wait = .retry .memError ∧ drained (acting retryPly) 0 retryPly = true := ⟨rfl, rfl, rfl⟩

/-- Slot 0 of core 0 holds a halted ply, and HSLOT of the context ply names it. -/
def haltedPly (c : BitVec 7) (um : DWord) : Ply :=
  { delegating with state := .halted, halt := ⟨c, false, 0x2000, 0xF, um, 0⟩, a := { delegating.a with rows := delegating.a.rows.set 1 (.mapped [8]) } }
def haltedState (t : Ply) (p : Ply) : State :=
  { (physState p).modCore 0 fun c => { c with rows := c.rows ++ [(8, Row.fresh)] } with plies := [(0, t), (63, p)] }
theorem witness_HaltedPlies : Claim.Acts (haltedState (haltedPly 0x72 0) physPly) physPly ∧ guardHolds always physPly = true ∧
    isContext (haltedState (haltedPly 0x72 0) physPly).cur = true ∧
    hslotPly (haltedState (haltedPly 0x72 0) physPly) 63 physPly = some (haltedPly 0x72 0) ∧ (haltedPly 0x72 0).state = .halted ∧
    (∃ x, readSpecial (haltedState (haltedPly 0x72 0) physPly) 0 (haltedPly 0x72 0) 0x000 = some x) ∧
    readSpecial (haltedState (haltedPly 0x72 0) physPly) 0 (haltedPly 0x72 0) 0xFFF = none ∧
    (∃ q, foreignWrite (haltedPly 0x72 0) 0x003 5 = .done q) ∧ (∃ x, foreignWrite (haltedPly 0x72 0) 0xFFF 5 = .cause x) :=
  ⟨rfl, rfl, rfl, rfl, rfl, ⟨_, rfl⟩, rfl, ⟨_, rfl⟩, _, rfl⟩
theorem witness_HaltedPlies_words : field 67#64 0 7 < 68 ∧ field 68#64 0 7 = 68 ∧ field 69#64 0 7 = 69 ∧ field 70#64 0 7 = 70 ∧ 71 ≤ field 71#64 0 7 ∧
    10 ≤ 41 ∧ 41 < 42 := by decide
theorem witness_HaltedPlies_sets : (∃ x, packedArm 0 (haltedPly 0x72 0) 0x8000 (haltedState (haltedPly 0x72 0) physPly) = some x) ∧
    ∃ x, packedGive 0 (haltedPly 0x72 0) 2 (haltedState (haltedPly 0x72 0) physPly) = some x := ⟨⟨_, rfl⟩, _, rfl⟩
theorem witness_HaltedPlies_xrdv : anyGiven physPly [(2, (reachedLanes 0 physPly (haltedPly 0x72 0)).map (· + 0))] = false ∧
    (rowsOf ((haltedPly 0x72 0).entry 1) (reachedLanes 0 physPly (haltedPly 0x72 0))).any ((haltedState (haltedPly 0x72 0) physPly).core 0).livePending = false ∧
    (rowsOf ((haltedPly 0x72 0).entry 1) (reachedLanes 0 physPly (haltedPly 0x72 0))).any ((haltedState (haltedPly 0x72 0) physPly).core 0).lockedAcc = false ∧
    writeStalls ((haltedState (haltedPly 0x72 0) physPly).core 0) physPly [(2, (reachedLanes 0 physPly (haltedPly 0x72 0)).map (· + 0))] = false ∧
    ∃ c' p', writeReg ((haltedState (haltedPly 0x72 0) physPly).core 0) physPly 2 ((reachedLanes 0 physPly (haltedPly 0x72 0)).map fun l => ⟨0 + l, 0, false⟩) =
      some (c', p') := ⟨rfl, rfl, rfl, rfl, _, _, rfl⟩
theorem witness_HaltedPlies_xwrv : (haltedPly 0x72 0).entry 1 ≠ .given ∧
    (entryRows ((haltedPly 0x72 0).entry 1)).any ((haltedState (haltedPly 0x72 0) physPly).core 0).replayPending = false ∧
    anyGiven physPly [(1, (reachedLanes 0 physPly (haltedPly 0x72 0)).map (· + 0))] = false ∧
    readStalls ((haltedState (haltedPly 0x72 0) physPly).core 0) physPly [(1, (reachedLanes 0 physPly (haltedPly 0x72 0)).map (· + 0))] = false ∧
    (rowsOf ((haltedPly 0x72 0).entry 1) (reachedLanes 0 physPly (haltedPly 0x72 0))).any ((haltedState (haltedPly 0x72 0) physPly).core 0).writeWaits = false ∧
    (∃ c' t', writeReg ((haltedState (haltedPly 0x72 0) physPly).core 0) (haltedPly 0x72 0) 1
      ((reachedLanes 0 physPly (haltedPly 0x72 0)).map fun l => ⟨l, 0, false⟩) = some (c', t')) ∧ (givePly .given).entry 62 = .given :=
  ⟨by decide, rfl, rfl, rfl, rfl, ⟨_, _, rfl⟩, rfl⟩
theorem witness_HaltedPlies_refused : isContext (acting userPly).cur = false ∧ Claim.Acts (acting userPly) userPly := ⟨rfl, rfl⟩

theorem witness_Returns (c : BitVec 7) (um : DWord) : Claim.Acts (haltedState (haltedPly c um) physPly) physPly ∧ guardHolds always physPly = true ∧
    isContext (haltedState (haltedPly c um) physPly).cur = true ∧ hslotPly (haltedState (haltedPly c um) physPly) 63 physPly = some (haltedPly c um) ∧
    (haltedPly c um).state = .halted ∧ (haltedPly c um).inUi = false ∧ (haltedPly c um).ident.udel = true ∧ (haltedPly c um).a.uictl.getLsbD 2 = true ∧
    (haltedPly c um).halt.umask = um :=
  ⟨rfl, rfl, show isContext 63 = true from rfl, rfl, rfl, rfl, rfl, show (4#24).getLsbD 2 = true from rfl, rfl⟩
theorem witness_Returns_codes : (8#64).toNat % 8 = 0 ∧ (3#64).toNat % 8 = 3 ∧ (4#64).toNat % 8 = 4 ∧ 4 < (5#64).toNat % 8 ∧ delegableCode 0x72 = true ∧
    delegableCode 0x20 = false ∧ (0#64) = 0 ∧ (3#64) ≠ 0 := by decide
theorem witness_Returns_pinh : ({ physPly with priv := { physPly.priv with pinh := true } } : Ply).priv.pinh = true ∧ physPly.priv.pinh = false := ⟨rfl, rfl⟩
theorem witness_PrivilegedRegisters : Claim.Acts (physState physPly) physPly ∧ guardHolds always physPly = true ∧ pevtOf (physState physPly) 63 physPly = 0 ∧
    pevtOf (haltedState (haltedPly 0x72 0) physPly) 63 physPly ≠ 0 ∧ (∃ x, readSpecial (physState physPly) 63 physPly 0x000 = some x) ∧
    (∃ x, privRead (physState physPly) 63 physPly 0x110 = some x) ∧ privRead (physState physPly) 63 physPly 0x1FF = none ∧
    (∃ x, hypRead (physState physPly) 0x200 = some x) ∧ physPly.mode ≠ 2 ∧ isService 63 = false ∧
    (∃ u, privWrite (physState physPly) 63 physPly 0x1FE 5 = .cause u) ∧ (∃ u, privWrite (physState physPly) 63 physPly 0x110 5 = .done u) :=
  ⟨rfl, rfl, rfl, by decide +kernel, ⟨_, rfl⟩, ⟨_, rfl⟩, rfl, ⟨_, rfl⟩, by decide, rfl, ⟨_, rfl⟩, _, rfl⟩
theorem witness_PrivilegedRegisters_ranges : (0x0FF#12).toNat < 0x100 ∧ 0x100 ≤ (0x100#12).toNat ∧ (0x1FF#12).toNat < 0x200 ∧ ¬((0x200#12).toNat < 0x200) ∧
    ¬(0x300 ≤ (0x2FF#12).toNat) ∧ 0x300 ≤ (0x300#12).toNat ∧ (1#64).toNat % 4 = 1 ∧ (2#64).toNat % 4 = 2 ∧ (3#64).toNat % 4 = 3 ∧ (4#64).toNat % 4 = 0 := by decide
theorem witness_PrivilegedRegisters_waits : hypWrite 0x2C0 5 { physState physPly with hyp := { Hyp.reset with preGo := true } } = .wait := rfl

theorem witness_Translation : Claim.Acts (physState physPly) physPly ∧ guardHolds always physPly = true ∧ (4095#64).toNat < 4096 ∧ 4096 ≤ (4096#64).toNat ∧
    (4096#64).toNat ≠ 0 ∧ (4096#64).toNat % 4096 = 0 ∧ (4097#64).toNat % 4096 ≠ 0 ∧ genbBusy (physState physPly) 5 = false ∧ oldAccess (physState physPly) 5 = false := by
  refine ⟨rfl, ?_⟩; decide +kernel
def genbPly : Ply := { physPly with wait := .genb 4 5 }
theorem witness_Translation_waits : genbBusy (physState genbPly) 5 = true ∧ genbPly.wait = .genb 4 5 ∧
    oldAccess ((physState physPly).modCore 0 fun c => { c with loads := [{ Flight.issue (physState physPly) 63 physPly true with
      space := 5, phys := false, gen := 7, load := some (.nop always, []) }] }) 5 = true := by decide +kernel

def framesState (f : FrameState) : State := { physState physPly with frames := [(9, f)] }
theorem witness_FramesAndKeys : Claim.Acts (framesState .free) physPly ∧ guardHolds always physPly = true ∧ frameRange (framesState .free).io 0x9000 0x1000 = some (9, 1) ∧
    frameRange (framesState .free).io 0x9001 0x1000 = none ∧ freeJob (framesState .free) = some 0 ∧
    ((framesFrom 9 1).any fun f => ((framesState .free).frame f).isBound || ((framesState .free).frame f).isScrubbing) = false ∧
    ((framesFrom 9 1).any fun f => ((framesState (.scrubbing 3)).frame f).isBound || ((framesState (.scrubbing 3)).frame f).isScrubbing) = true ∧
    ((framesFrom 9 1).any fun f => ((framesState .free).frame f).isBound) = false ∧ ((framesFrom 9 1).any fun f => (framesState .free).frame f != .free) = false ∧
    ((framesFrom 9 1).any fun f => ((framesState (.bound 3 1)).frame f).isBound) = true ∧
    ((framesFrom 9 1).any fun f => (framesState .quarantined).frame f != .free) = true := by refine ⟨rfl, ?_⟩; decide +kernel
theorem witness_FramesAndKeys_words : field 0x103#64 4 4 = 0 ∧ field 0x103#64 14 50 = 0 ∧ field 0x13#64 4 4 ≠ 0 ∧ (15#64).toNat < 16 ∧ 16 ≤ (16#64).toNat ∧
    ((framesFrom 9 1).any fun f => !(match (framesState (.bound 3 1)).frame f with | .bound t _ => t == (3#64).setWidth 4 | _ => false)) = false ∧
    ((framesFrom 9 1).any fun f => !(match (framesState (.bound 3 1)).frame f with | .bound t _ => t == (4#64).setWidth 4 | _ => false)) = true := by decide +kernel
def storeTo (a : Nat) (s : State) : State :=
  s.modCore 0 fun c => { c with stores := [{ Flight.issue s 63 physPly true with writes := [⟨BitVec.ofNat 64 a, 0, a, [1], none⟩] }] }
theorem witness_FramesAndKeys_busy : (writesRemain (storeTo 0x9000 (framesState (.bound 3 1))) fun x => 4096 * 9 ≤ x && x < 4096 * (9 + 1)) = true ∧
    (writesRemain (framesState (.bound 3 1)) fun x => 4096 * 9 ≤ x && x < 4096 * (9 + 1)) = false ∧
    (writesRemain (storeTo 0x9000 (framesState (.bound 3 1))) (carriesSlot (storeTo 0x9000 (framesState (.bound 3 1))) 1)) = true ∧
    (63#64).toNat < 64 ∧ 64 ≤ (64#64).toNat := by decide +kernel
def someJob : ScrubJob := ⟨9, 2, 0, false, false, none, 5⟩
def jobState (j : ScrubJob) : State := { framesState (.scrubbing 2) with jobs := [(2, j)] }
theorem witness_FramesAndKeys_jobs : jobOf (jobState someJob) (jobHandle 2 5) = some (2, someJob) ∧ someJob.ended = false ∧
    jobOf (framesState .free) (jobHandle 2 5) = none ∧ (jobState someJob).jobs.find 2 = some someJob ∧ ({ someJob with ended := true } : ScrubJob).ended = true := by decide +kernel
-- No stack defers its scrub.
theorem witness_FramesAndKeys_deferred (a f : Nat) : scrubDeferred (jobState someJob) a = false ∧ frameDeferred (jobState someJob) f = false := by
  have h : ∀ a, scrubDeferred (jobState someJob) a = false := fun a => show (0#8).getLsbD (stackOfPa a) = false by simp
  exact ⟨h a, by simp [frameDeferred, h]⟩
theorem witness_FramesAndKeys_errors : target (physState physPly).io 0x8000 = .memory 0x8000 ∧ (physState physPly).rel.scrcfg ≠ 0 ∧
    (∃ r, ((physState physPly).core 0).rows.find 3 = some r) ∧ tileAtGranule (tilesState (someTile 0) (tilePly 5)) 0 0 = some (1, 2, 0) ∧
    (physState physPly).ply 63 = some physPly := ⟨rfl, by decide, ⟨_, rfl⟩, by decide +kernel, rfl⟩

theorem witness_CausesTaken : (acting userPly).ply 0 = some userPly ∧ userPly.mode = 0 ∧ userPly.region = 0 ∧ retryPly.region ≠ 0 ∧ retryPly.retry ≠ 3 ∧
    ({ retryPly with retry := 3 } : Ply).retry = 3 ∧ Cause.memError.consumed = true ∧ Cause.brk.consumed = false ∧ contextPly.mode ≠ 0 ∧
    contextPly.priv.pinh = false ∧ Claim.Acts (acting userPly) userPly := ⟨rfl, rfl, rfl, by decide, by decide, rfl, rfl, rfl, by decide, rfl, rfl⟩
theorem witness_CausesTaken_delegated : 0x10 ≤ (Cause.fpInvalid).code.toNat ∧ (Cause.intDivZero).code.toNat ≤ 0x16 ∧ 0x70 ≤ (Cause.trap 0).code.toNat ∧
    (Cause.residueLocated).code = 0x50 ∧ delegating.ident.udel = true ∧ delegating.a.uictl.getLsbD 2 = true ∧ delegating.inUi = false ∧
    0x20 ≤ (Cause.pageFault).code.toNat ∧ (Cause.replicated).code.toNat ≤ 0x27 := by decide
def deferredPly : Ply := { userPly with deferred := [⟨.tileError, 0x2000, 0, 0, false⟩] }
theorem witness_CausesTaken_deferred : (acting deferredPly).ply 0 = some deferredPly ∧ deferredPly.deferred = ⟨.tileError, 0x2000, 0, 0, false⟩ :: [] ∧
    deferredPly.atBoundary = true := ⟨rfl, rfl, rfl⟩
def interruptedPly (lwake queue : Bool) (copy : BitVec 8) : Ply :=
  { userPly with a := { userPly.a with uictl := 0xFF0007 }, pendLwake := lwake, pendQueue := queue, pendCopy := copy }
theorem witness_CausesTaken_interrupts : (interruptedPly true false 0).interruptible = true ∧ (interruptedPly false true 0).interruptible = true ∧
    (interruptedPly false false 0x80).interruptible = true ∧ ({ interruptedPly false false 0 with pendTrap := true } : Ply).interruptible = true := by decide

def pieceFlight (waiting packet : Bool) (bad : Bool) : Flight :=
  { Flight.issue (physState physPly) 63 physPly true with seq := 9, rows := [3], pieces := [⟨3, 1, 7, bad⟩], waiting := waiting, packet := packet }
def flightState (f : Flight) : State := (physState physPly).modCore 0 fun c => { c with loads := [f], stores := [{ f with writes := [⟨0x8000, 0, 0x8000, [1], none⟩] }] }
theorem witness_Landings (w p b : Bool) : findFlight (flightState (pieceFlight w p b)) Core.loads 9 = some (0, pieceFlight w p b) ∧
    findFlight (flightState (pieceFlight w p b)) Core.stores 9 = some (0, { pieceFlight w p b with writes := [⟨0x8000, 0, 0x8000, [1], none⟩] }) ∧
    (pieceFlight w p b).waiting = w ∧ (pieceFlight w p b).packet = p := ⟨rfl, rfl, rfl, rfl⟩
theorem witness_Landings_ready : (pieceFlight true false false).ready ≠ [] := by decide
theorem witness_Landings_piece : ∃ r, ((physState physPly).core 0).rows.find 3 = some r := ⟨_, rfl⟩
def monitorPly (hit : Bool) : Ply := { userPly with wait := .monitor ⟨0x8000, false, .eq, 1, .die, hit⟩, state := .parked }
theorem witness_Landings_waits : (acting (monitorPly true)).ply 0 = some (monitorPly true) ∧
    (monitorPly true).wait = .monitor ⟨0x8000, false, .eq, 1, .die, true⟩ ∧ countsWithin (acting userPly) 0 userPly (some 0) none (some 0) none = true ∧
    ((acting userPly).core 0).freeRow ≠ none := ⟨rfl, rfl, by decide +kernel, by decide +kernel⟩
def rowsPly : Ply := { userPly with wait := .rows 0, state := .parked }
def starvedState : State := { (acting rowsPly).setCore 0 { Core.empty with starved := some 5 } with cycle := 65541 }
theorem witness_Landings_starved : starvedState.ply 0 = some rowsPly ∧ (starvedState.core 0).starved = some 5 ∧ longestOnRows starvedState 0 = some 0 ∧
    5 + 65536 ≤ starvedState.cycle := by refine ⟨rfl, rfl, ?_⟩; decide +kernel

theorem witness_FaultUnits_walks : (match (walk none 1 0x0000020000001000 tables).1 with | .leaf _ => true | _ => false) = true ∧
    (match (walk none 1 0x0000020000000000 tables).1 with | .absent _ => true | _ => false) = true ∧
    (match (walk none 4095 (2 ^ 57 - 1) tables).1 with | .bad => true | _ => false) = true := by decide +kernel
def heldOne : HeldMiss := ⟨1, 5, .ply 0 1, none, 0, 0, 0, 0⟩
def faultState (reply : List Byte) (m : Map MergeEntry) : State :=
  let s := { physState physPly with hyp := { Hyp.reset with mbtab := 0x4000 }, heldMisses := [(0, [heldOne])], merges := [(0, m)] }
  { s with queues := [(ringPlace s 60, someQueue (.ring 60) 5 6)], mem := Memory.writeBytes [] 0x9020 reply }
theorem witness_FaultUnits_held : (faultState [] []).heldMisses.getD 0 [] = heldOne :: [] ∧ mergeRoom (faultState [] []) 0 heldOne = true := by
  refine ⟨rfl, ?_⟩; decide +kernel
theorem witness_FaultUnits_replies : (faultState (bytesLE 511 8) [(511, ⟨1, 5, []⟩)]).queues.find (ringPlace (faultState [] []) (60 + 0)) = some (someQueue (.ring 60) 5 6) ∧
    (someQueue (.ring 60) 5 6).count ≠ 0 ∧
    (placeRead none (placeOf (faultState [] []).io ((someQueue (.ring 60) 5 6).entryVa 5).toNat) 32 (faultState (bytesLE 511 8) [])).1.error = none ∧
    parseReply (placeRead none (placeOf (faultState [] []).io ((someQueue (.ring 60) 5 6).entryVa 5).toNat) 32 (faultState (bytesLE 511 8) [])).1.bytes = some (511, none) ∧
    parseReply (bytesLE 512 32) = none := by decide +kernel
theorem witness_FaultUnits_entries : (faultState [] [(511, ⟨1, 5, []⟩)]).merges.getD 0 [] = [(511, ⟨1, 5, []⟩)] ∧
    (Map.find [(511, (⟨1, 5, []⟩ : MergeEntry))] 511) = some ⟨1, 5, []⟩ ∧ (Map.find [(511, (⟨1, 5, []⟩ : MergeEntry))] 0) = none := ⟨rfl, rfl, rfl⟩
/-- A ply of space 0 while a GENB of that space waits. -/
def staleState (n : Nat) : State := { acting { userPly with stale := n } with plies := [(0, { userPly with stale := n }), (63, { contextPly with wait := .genb 4 0 })] }
theorem witness_FaultUnits_stale (n : Nat) : (staleState n).ply 0 = some { userPly with stale := n } ∧ ({ userPly with stale := n } : Ply).state = .ready ∧
    ({ userPly with stale := n } : Ply).wait = .none ∧ (viewer 0 { userPly with stale := n }).phys = false ∧ genbBusy (staleState n) 0 = true ∧
    ({ userPly with stale := n } : Ply).unfinished = none := ⟨rfl, rfl, rfl, rfl, rfl, rfl⟩

/-- Tenant 15 has a submission queue at 0x8000. -/
def subqState (q : Queue) : State :=
  { physState physPly with hyp := { Hyp.reset with subq := [(15, 0x8000)] }, io := { Io.reset with readyDie := 1 }, queues := [(0x8000, q)] }
theorem witness_Runs_accept : (subqState (someQueue (.submission 15) 5 6)).hyp.subq.getD 15 0 ≠ 0 ∧ (subqState (someQueue (.submission 15) 5 6)).io.readyDie ≠ 0 ∧
    (subqState (someQueue (.submission 15) 5 6)).queues.find (placeOf Io.reset (0x8000#64).toNat) = some (someQueue (.submission 15) 5 6) ∧
    (someQueue (.submission 15) 5 6).count ≠ 0 ∧
    (placeRead none (placeOf Io.reset ((someQueue (.submission 15) 5 6).entryVa 5).toNat) 32 (subqState (someQueue (.submission 15) 5 6))).1.error = none := by decide +kernel
-- A pusher with physical addresses reads the descriptor at 0; one whose space maps nothing does not. The tenant's own read needs a page.
theorem witness_Runs_reads : (∃ bs u, unitRead ⟨0, none, true, 192⟩ 3 0 128 (subqState (someQueue (.submission 15) 5 6)) = (some bs, u)) ∧
    (∃ u, unitRead (ioViewer 15 0) 3 0 128 (subqState (someQueue (.submission 15) 5 6)) = (none, u)) :=
  ⟨⟨_, _, rfl⟩, _, rfl⟩
/-- A state whose directory gives space 5 to tenant 15, and whose one page maps 0 to 0x99000. -/
def pagedState : State :=
  { subqState (someQueue (.submission 15) 5 6) with
    hyp := { Hyp.reset with subq := [(15, 0x8000)], astbase := 0x40000, kway := [(55, 0xFFFFFFFFFFFFFFFF), (53, 0xFFFFFFFFFFFFFFFF)] }
    frames := [(0x99, .bound 15 0)], keys := [(0, 1)]
    mem := [(0x40140, 0x50001), (0x40148, 15), (0x50000, 0x51001), (0x51000, 0x52001), (0x52000, 0x53001), (0x53000, 0x54001), (0x54000, 0x9900F)].foldl
      (fun m x => Memory.writeBytes m x.1 (bytesLE x.2 8)) [] }
theorem witness_Runs_pages : ∃ bs u, unitRead (ioViewer 15 5) 3 0 128 pagedState = (some bs, u) := ⟨_, _, rfl⟩
def placingRun (aged : Nat) : Run := { someRun with nextTeam := 1, aged := aged }
def placingState (aged cycle : Nat) : State :=
  { runState (placingRun aged) [] runPly with cycle := cycle, io := { Io.reset with readyDie := 1 }, hyp := { Hyp.reset with tcfg := [(3, 1)], tport := [(3, 0xFFFFFFFFFFFF)] } }
theorem witness_Runs_aging : (placingState 1 2097152).run 1 = some (placingRun 1) ∧ (placingRun 1).nextTeam < (placingRun 1).desc.teams ∧
    (placingRun 1).desc.prio.toNat + (placingRun 1).aged < 3 ∧ (placingRun 1).accepted + 1048576 * ((placingRun 1).aged + 1) ≤ (placingState 1 2097152).cycle := by
  refine ⟨rfl, ?_⟩; decide
theorem witness_Runs_reserve : firstRun (placingState 0 0) = some (1, placingRun 0) ∧ (gangTeams (placingRun 0))[(placingRun 0).reserved.length]? = some 1 ∧
    (reserveTeam (placingState 0 0) (placingRun 0) 1).isSome = true := by refine ⟨rfl, ?_⟩; decide +kernel
def idleState (r : Run) : State := { runState r [] runPly with plies := [] }
theorem witness_Runs_retire : (idleState someRun).run 1 = some someRun ∧ ((idleState someRun).teams.find? fun (_, y) => y.run == 1 && y.number == 0) = some (1, runTeam) ∧
    runTeam.retired = false ∧ teamBusy (idleState someRun) runTeam = false ∧ someRun.stampq = [] ∧
    workLeft (idleState someRun) 1 0 runTeam.slots.contains = false ∧ someRun.desc.teams ≤ someRun.nextTeam ∧
    ((idleState someRun).teams.filter fun (_, t) => t.run == 1).any (fun (_, t) => teamBusy (idleState someRun) t) = false ∧
    ((idleState someRun).teams.filter fun (_, t) => t.run == 1).any (fun (_, t) => workLeft (idleState someRun) 1 t.core fun _ => true) = false ∧
    (idleState someRun).windows.any (·.run == 1) = false ∧
    (idleState someRun).unsent.any (fun u => decide (1024 ≤ u.sender) && u.run == 1) = false := by refine ⟨rfl, rfl, ?_⟩; decide +kernel
def itemFor : StampItem := ⟨mouldHandle 0 0 1 4, 7⟩
def stampState (bound : List (Nat × StampItem)) (q : List StampItem) : State := runState { someRun with bound := bound, stampq := q } [(0, someMould 8)] runPly
theorem witness_Runs_items : (∃ u, startItem 1 1 itemFor (stampState [(1, itemFor)] []) = some u) ∧
    ([] : List (Nat × StampItem)).findSome? (fun (k, x) => startItem 1 k x (stampState [] [itemFor])) = none ∧
    slotsFor (stampState [] [itemFor]) 1 none = 1 :: [2] := ⟨⟨_, rfl⟩, rfl, by decide⟩
def exportState : State :=
  { runState someRun [(0, { someMould 8 with exported := true })] runPly with cores :=
    [(0, { Core.empty with moulds := [(0, { someMould 8 with exported := true })] }), (1, { Core.empty with moulds := [(4, { someMould 8 with exported := true, complete := false })] })] }
theorem witness_Runs_exports : ∃ u m, completeExport 1 4 exportState = some u ∧ (u.core 1).moulds.find 4 = some m := ⟨_, _, rfl, rfl⟩
theorem witness_Runs_links : 0 ≠ 3 ∧ linkDown State.reset 0 3 = false := by decide

def hypPly : Ply := { physPly with mode := 2 }
theorem witness_HypervisorSteps : Claim.Acts (physState physPly) physPly ∧ physPly.mode ≠ 2 ∧ Claim.Acts (physState hypPly) hypPly ∧ hypPly.mode = 2 ∧
    (∃ u, hypWrite (0x240 + 55) 5 (physState hypPly) = .done u) ∧ (∃ c, hypWrite (0x210 + 15) 1 (physState hypPly) = .cause c) ∧
    (∃ u, writeInjctl (0 ||| 1) (physState hypPly) = .done u) := ⟨rfl, by decide, rfl, rfl, ⟨_, rfl⟩, ⟨_, rfl⟩, _, rfl⟩
theorem witness_HypervisorSteps_values : (191#64).toNat % 256 < 192 ∧ 192 ≤ (192#64).toNat % 256 ∧ (1#64).toNat % 64 ≠ 0 ∧ (6#64).toNat / 2 % 4 = 3 ∧
    (physState hypPly).hyp.preGo = false := by decide
def preState (restore : Bool) : State := { physState hypPly with hyp := { Hyp.reset with preGo := true, preTen := 3, preRestore := restore } }
theorem witness_HypervisorSteps_pre : (preState false).hyp.preGo = true ∧ (preState false).hyp.preRestore = false ∧ (preState false).hyp.preTen.toNat = 3 ∧
    haltDrained (preState false) 3 = true ∧ (preState true).hyp.preRestore = true := by decide +kernel
theorem witness_HypervisorSteps_ends : ({ Hyp.reset with sweepOld := [(3, 0x13)] } : Hyp).sweepOld.mem 3 = true ∧
    ((physState hypPly).teams.any fun (_, x) => x.core == 5) = false ∧
    min (((physState hypPly).modCore 5 fun c => { c with nreq := 64 }).core 5).nreq (tsLimit ((physState hypPly).modCore 5 fun c => { c with nreq := 64 }) 5) ≠
      (((physState hypPly).modCore 5 fun c => { c with nreq := 64 }).core 5).ncur ∧ ({ Hyp.reset with keyLoad := true } : Hyp).keyLoad = true := by decide +kernel

def stoppedAgent : Ply := { contextPly with priv := { contextPly.priv with stopped := true, pinh := true } }
theorem witness_ResetsAndBoot : isService ({ State.reset with cur := 192 * 64 }).cur = true ∧ (actingContext stoppedAgent).ply (contextKey 0) = some stoppedAgent ∧
    stoppedAgent.priv.stopped = true ∧ State.reset.io.readyRom = false ∧ (1000 : Int) ≤ 1000 ∧ (841 : Int) > 840 ∧ (799 : Int) < 800 := by
  refine ⟨rfl, rfl, rfl, rfl, ?_⟩; decide
theorem witness_HostSteps : functionTenant (hostState ⟨0, 0⟩ []) 5 = some 3 ∧ functionTenant (hostState ⟨0, 0⟩ []) 63 = none ∧
    (hostState ⟨0, 0⟩ []).io.readyHost = true ∧ ((hostState ⟨0, 0⟩ []).io.inbound.filter Inbound.isWrite).length < 256 ∧
    (2 ^ 36 - 4) + BusRequest.length (.write [1, 2, 3, 4]) ≤ 2 ^ 36 ∧ BusRequest.isWrite (.write [1]) = true := by decide +kernel
def heldRequest (r : BusRequest) (relaxed : Bool) : Inbound := ⟨5, relaxed, 3, 0, 0x100, 0, r, .page⟩
theorem witness_HostSteps_point : [heldRequest (.write [1]) true, heldRequest (.write [2]) true][1]? = some (heldRequest (.write [2]) true) ∧
    ([heldRequest (.write [1]) true, heldRequest (.write [2]) true].take 1).any (·.blocks (heldRequest (.write [2]) true)) = false := by decide
theorem witness_HostSteps_pushes : (List.replicate 32 (0 : Byte)).length = 32 ∧ (8 : DWord) ≠ 0 ∧ windowRoom (hostState ⟨0, 0⟩ []) 5 (dieOfPa 0x8000) ≠ 0 ∧
    inboundAhead (hostState ⟨0, 0⟩ []) 5 = false := by decide
def leaseState (up : Bool) : State :=
  { State.reset with
    hyp := { Hyp.reset with tport := [(3, 0xFFFFFFFFFFFFFF)] }
    io := { Io.reset with leases := [(6, { Lease.empty with en := true, drive := 1, tenant := 3, qkey := 0x8000 })], nvmeLink := if up then 15 else 0, readyNvme := if up then 15 else 0 } }
theorem witness_HostSteps_leases : ((leaseState true).lease 6).en = true ∧ leasePort (leaseState true) ((leaseState true).lease 6) = true ∧
    inboundAhead (leaseState true) (64 + 1) = false ∧ ((leaseState true).lease 6).qkey ≠ 0 ∧ Lease.empty.qkey = 0 ∧
    leasePort { leaseState true with hyp := Hyp.reset } ((leaseState true).lease 6) = false ∧ latchFull (leaseState true) (latchKeyOf (some 3) 0x8000) = false := by
  decide +kernel
def aktumState : State := { State.reset with io := { Io.reset with akUp := 2 } }
/-- Frame 8 is quarantined: a tenant's access stops, wherever the keyway says the byte's port lies. -/
theorem aktum_refused : ¬accessCheck aktumState ⟨some 3, 53, dieOfPa 0x8000, false⟩ 0x8000 8 = .ok := by
  have : ∀ b : Bool, ¬(if !b then Check.cause .partition else .cause .partition) = Check.ok := by decide
  exact this _
theorem witness_HostSteps_aktum : aktumState.io.akUp.getLsbD 1 = true ∧ (2 ^ 39 - 8) + BusRequest.length (.read 8) ≤ 2 ^ 39 ∧
    (∀ x ∈ linesIn 0x8000 8, accessCheck aktumState ⟨none, 53, dieOfPa x.1, false⟩ x.1 x.2 = .ok) ∧
    ¬(∀ x ∈ linesIn 0x8000 8, accessCheck aktumState ⟨some 3, 53, dieOfPa x.1, false⟩ x.1 x.2 = .ok) ∧
    (∃ d u, readPlaces none (linesIn 0x8000 8) aktumState = (d, u)) := ⟨rfl, by decide, by decide +kernel, fun h => aktum_refused (h (0x8000, 8) (by decide)), _, _, rfl⟩

/-- The state in which the first step after reset turns to its ply. -/
noncomputable def turned (w : Nat) : State := { tick (State.reset.withFetchWord 64 w) with agenda := [] }
theorem witness_StepRunsDecoded (w : Nat) : (State.reset.withFetchWord 64 w).agenda = .ply 63 :: [] ∧ (turned w).ply 63 = some (bootPly Io.reset) ∧
    (bootPly Io.reset).canIssue 63 (turned w) = true ∧ (bootPly Io.reset).deferred = [] ∧ (bootPly Io.reset).interruptible = false ∧
    hasPackets 63 (bootPly Io.reset) (turned w) = false := ⟨rfl, rfl, rfl, rfl, rfl, rfl⟩
theorem witness_StepRunsDecoded_turn : turnOf 63 (turned 0xDC000007) = 63 ∧ turnOf 63 (turned 0xFEDCBA9898280017) = 63 := ⟨rfl, rfl⟩
def bootCtx : DecodeCtx := ⟨true, false, true⟩
theorem witness_StepRunsDecoded_word : (∃ u, fetchWord 63 (bootPly Io.reset) (bootPly Io.reset).a.pc
    (turned 0xDC000007) = (.word 0xDC000007, u)) ∧
    (0xDC000007#32).toNat / 2 ^ 25 ≠ 0x4C ∧ decodeWord bootCtx 0xDC000007 0 = .ok (.nop always) ∧ decodeWord bootCtx 0 0 = .error .illegal :=
  ⟨⟨_, rfl⟩, by decide, rfl, rfl⟩
theorem witness_StepRunsDecoded_ulit : (0x98280017#32).toNat / 2 ^ 25 = 0x4C ∧ decodeWord bootCtx 0x98280017 0 = .ok (.ulitS 5 0 always) ∧
    decodeWord bootCtx 0x98280017 0xFEDCBA98 = .ok (.ulitS 5 0xFEDCBA98 always) ∧
    ∃ u v, fetchWord 63 (bootPly Io.reset) (bootPly Io.reset).a.pc (turned 0xFEDCBA9898280017) = (.word 0x98280017, u) ∧ fetchWord 63 (bootPly Io.reset) ((bootPly Io.reset).a.pc + 4) u = (.word 0xFEDCBA98, v) :=
  ⟨by decide, rfl, rfl, _, _, rfl, rfl⟩
/-- 63 loads of the acting ply are out. -/
def fullLoads (p : Ply) : State := (physState p).modCore 0 fun c => { c with loads := List.replicate 63 (Flight.issue (physState p) 63 p true) }
theorem witness_UniformMemory_full : Claim.Acts (fullLoads physPly) physPly ∧ guardHolds always physPly = true ∧
    63 ≤ loadsOut (fullLoads physPly) (fullLoads physPly).cur physPly := ⟨rfl, rfl, by decide⟩
theorem witness_TileAccess_poison : (((someTile 0).write 0 [1, 2, 3, 4] (some .memory)).read 0 4).tileError.isSome = true ∧
    (((someTile 0).write 8 [1, 2, 3, 4] (some .memory)).read 0 4).tileError = none ∧ (tilePly 3).lanes = [] ++ 0 :: [1] := by decide +kernel
theorem witness_CopiesIssue_full : eopsFull (tilesState (someTile 255) (copyPly 0)) 0 ((copyPly 0).mode != 0) 1 [2] = true ∧
    eopsFull twoTiles 0 ((copyPly 0).mode != 0) 1 [2, 5] = false := by decide +kernel
/-- Four plies of the team in slots 0, 2, 4 and 6, whose home lanes begin the four parts of a share. -/
def shareState : State := { matState (matPly 2) with plies := [0, 2, 4, 6].map fun k => (k, matPly 2) }
theorem witness_EngineLoads_share : shareOf (matState (matPly 2)) 0 (matPly 2) 0xFFFFFFFFFFFFFFFF 0 = none ∧
    (shareOf shareState 0 (matPly 2) 0x06040200 0).isSome = true := by decide +kernel
/-- v2 of an A operand mapped to a row with a bit error, whose lane 0 is soft. -/
def softState : State := (matState (givenA (matPly 2))).modCore 0 fun c => { c with rows := c.rows.put 7 ⟨Vector.replicate 8 5, 1, 0, 1, 0, false⟩ }
def softPly : Ply := { matPly 2 with a := { (matPly 2).a with rows := (matPly 2).a.rows.set 2 (.mapped [7]) } }
theorem witness_MatrixIssue_errors : ((matCall false 16 2 8 0 .acc softState softPly).findErrors softState softPly).isSome = true ∧
    (matCall false 16 2 8 0 .acc softState softPly).cause softState softPly = none ∧
    (matCall false 16 2 8 0 .acc softState softPly).stalls softState softPly = false := by decide +kernel
/-- The cause of an MMA or MMAI from a format block, for a register, a shape and a state of the tiles. -/
def causeOf (mmai : Bool) (w : DWord) (d : VReg) (shp : BitVec 5) (t : Tile) : Option Cause :=
  (matCall mmai d 2 8 shp .acc (tilesState t ((matPly 2).setS 8 w)) ((matPly 2).setS 8 w)).cause
    (tilesState t ((matPly 2).setS 8 w)) ((matPly 2).setS 8 w)
theorem witness_MatrixIssue_causes : causeOf false 0x102800700 16 0 (wideTile 0) = some .formatBlock ∧ causeOf false 0x02800700 16 8 (wideTile 0) = some .shape ∧
    causeOf false 0x02800700 63 0 (wideTile 0) = some .reserved ∧ causeOf false 0x02800700 16 0 ⟨false, false, 0, 0, 0, 0, [], [], []⟩ = some .tileBounds ∧
    causeOf true 0x02A00855 16 16 (wideTile 0) = none ∧ causeOf true 0x02A00855 17 16 (wideTile 0) = some .pair ∧
    causeOf false 0x09800700 16 0 (wideTile 0) = some .tileHandle := by
  decide +kernel
def pushShape : Shape := { need := .write, bytes := 32, reach := .atomic }
theorem witness_QueuePushes_lands : sentTo popState physPly.uid 0x8000 = 0 ∧ parkedOn popState 0x8000 (someQueue .user 5 6) = 0 ∧
    Claim.EntriesLand physPly (someQueue .user 5 6) .write (0 + 2 - max 0 0) ((someQueue .user 5 6).tail + BitVec.ofNat 64 (max 0 0)) popState
      [0x9040, 0x9060] popState :=
  ⟨rfl, rfl, 0x9040, [0x9060], popState, rfl, ⟨0x9060, [], popState, rfl, ⟨rfl, rfl⟩, (⟨⟨0x9060, 0, 0x9060, 0⟩, rfl, rfl, _, rfl, rfl, by decide, rfl, rfl⟩ :
      ∃ spot, spot.at_ = 0x9060 ∧ Claim.LandsAt popState physPly pushShape ((someQueue .user 5 6).entryVa 7) spot popState)⟩,
    (⟨⟨0x9040, 0, 0x9040, 0⟩, rfl, rfl, _, rfl, rfl, by decide, rfl, rfl⟩ :
      ∃ spot, spot.at_ = 0x9040 ∧ Claim.LandsAt popState physPly pushShape ((someQueue .user 5 6).entryVa 6) spot popState)⟩
theorem witness_QueuePushes_handed : Claim.EntriesLand physPly (someQueue .user 5 5) .write (0 + 1 - max 0 1) 6 popState [] popState := ⟨rfl, rfl⟩
-- Two lanes with room for both, and with room for one.
theorem witness_QueuePushes_room : lanesOf (predPly.a.em &&& (physPly.setP 2 0xF 6).preg 2) = [1, 2] ∧
    2 ≤ windowRoom (release 0 .package popState) physPly.uid (dieOfPa 0x8000) ∧
    windowRoom (release 0 .package { popState with windows := [someWindow ((List.range 7).map fun n => pendingEntry n true false false)] })
      physPly.uid (dieOfPa 0x8000) < 2 := by decide +kernel
theorem witness_MouldsRun_ticket : ∃ x y, (holding runPly).held = some x ∧ ({ someMould 8 with held := some ⟨1, 1, 2, 0, 1⟩ } : Mould).held = some y ∧
    x.team = y.team ∧ x.press = y.press ∧ x.ticket = y.ticket ∧ x.binding = y.binding := ⟨_, _, rfl, rfl, rfl, rfl, rfl, rfl⟩
-- An export still waiting for rows; a queued item that takes slot 1, leaving slot 2 to CAST; and a team with no slot left.
theorem witness_MouldsRun_waits : ({ someMould 8 with complete := false } : Mould).complete = false ∧
    validMould (runState someRun [(0, { someMould 8 with complete := false })] runPly) 0 runPly (runPly.sreg 1) =
      some (0, { someMould 8 with complete := false }) ∧
    freeSlots (placeQueued 1 (runState { someRun with stampq := [⟨mouldHandle 0 0 1 4, 7⟩] } [(0, someMould 8)] runPly)) 1 = 2 :: [] ∧
    freeSlots { runState someRun [(0, someMould 8)] runPly with teams := [(1, { runTeam with slots := [0] })] } 1 = [] := by decide +kernel
theorem witness_MouldsRun_done : (retireDone 1 (placeQueued 1 (runState someRun [(0, someMould 8)] runPly))).run 1 = some someRun := by decide +kernel
theorem witness_Latches_edges : 2 ≤ (0x8002#64).toNat % 8 ∧ 2 ^ 57 ≤ (0x200000000000000#64).toNat ∧ (0x1FFFFFFFFFFFFF9#64).toNat % 8 < 2 ∧
    (0x1FFFFFFFFFFFFF9#64).toNat < 2 ^ 57 ∧ 62 < 63 ∧ (63 : Nat) < 64 ∧
    latchFull { hostState ⟨0, 0⟩ [] with latches := (List.range 4096).map fun n => (n, ⟨1, [], []⟩) } (latchKeyOf (some 3) 0x8000) = true ∧
    ((hostState ⟨0, 0⟩ [(3 * 2 ^ 57 + 0x8000, ⟨2, [], []⟩)]).latch (latchKeyOf (some 3) 0x8000)).count ≠ 0 ∧
    ((hostState ⟨0, 0⟩ []).latch (latchKeyOf (some 3) 0x8000)).count = 0 := by decide +kernel
/-- The slot's row with a bit error, of each kind. -/
def errorState (soft hard : BitVec 8) : State :=
  { (physState physPly).modCore 0 fun c => { c with rows := c.rows ++ [(8, { Row.fresh with soft := soft, hard := hard })] } with
    plies := [(0, haltedPly 0x72 0), (63, physPly)] }
theorem witness_HaltedPlies_errors : (rowsOf ((haltedPly 0x72 0).entry 1) (reachedLanes 0 physPly (haltedPly 0x72 0))).any ((errorState 1 0).core 0).rowErrors = true ∧
    (rowsOf ((haltedPly 0x72 0).entry 1) (reachedLanes 0 physPly (haltedPly 0x72 0))).any ((errorState 0 2).core 0).rowErrors = true ∧
    (rowsOf ((haltedPly 0x72 0).entry 1) (reachedLanes 0 physPly (haltedPly 0x72 0))).any ((errorState 0 0).core 0).rowErrors = false ∧
    (rowsUsed physPly [(1, (reachedLanes 0 physPly (haltedPly 0x72 0)).map (· + 0))] ++
      rowsCopied ((errorState 0 0).core 0) (haltedPly 0x72 0) [(1, reachedLanes 0 physPly (haltedPly 0x72 0))]).any ((errorState 0 0).core 0).rowErrors = false ∧
    field 73#64 0 7 = 73 ∧ 71 ≤ field 127#64 0 7 ∧ field 73#64 0 7 < 74 ∧ ¬field 74#64 0 7 < 74 := by decide +kernel
/-- The halted ply with two lanes of a load that wait for a replay. -/
def heldPly : Ply := { haltedPly 0x20 3 with unfinished := some ⟨3, [⟨0, 0x9000, 0, [], false⟩, ⟨1, 0x9004, 1, [], false⟩], none, [], 0x9000⟩ }
theorem witness_Returns_lanes : heldPly.takenUp ≠ none ∧ heldPly.halt.umask ≠ 0 ∧ (haltedPly 0x20 3).takenUp = none ∧ (haltedPly 0x20 3).halt.umask ≠ 0 ∧
    (userPly.a.uictl.getLsbD 2 = false) ∧ delegableCode 0x50 = true := by decide +kernel
theorem witness_FramesAndKeys_store : ((physState physPly).core 0).uniBad.contains 5 = false ∧
    ((({ Core.empty with uniBad := [5] } : Core).uniBad.contains 5) = true) ∧ coreOf 63 = 0 ∧ (physState physPly).ply 63 = some physPly :=
  ⟨rfl, by decide +kernel, rfl, rfl⟩
def cachedState : State := (physState physPly).modCore 0 fun c => { c with l1 := [(256, ⟨[], [], false⟩)], icache := [⟨257, 0, 0, [], false⟩] }
theorem witness_FramesAndKeys_lines : ((cachedState.core 0).l1.mem 256 = true) ∧ (cachedState.core 0).icache.any (fun x => x.line == 257) = true ∧
    (({ cachedState with l2 := [⟨256, .normal, 0, 0⟩] } : State).l2.any (fun x => x.line == lineOf 0x8000)) = true := by decide +kernel
theorem witness_FramesAndKeys_pass : ∀ x, (State.reset.rel.passes.find (stackOfPa 0x8000) = some x) → x.lines.contains (lineOf 0x8000) = false :=
  fun x h => absurd h (by rw [show State.reset.rel.passes = [] from rfl]; simp [Map.find])
theorem witness_CausesTaken_masks : ({ userPly with fullEm := some 0xF } : Ply).fullEm.isSome = true ∧ userPly.fullEm.isSome = false ∧ (0 : DWord) = 0 ∧ (5 : DWord) ≠ 0 := by decide
/-- Plies whose engine reported a cause: a ready one, and a parked one with an interrupt pending as well. -/
def reportedPly (again : Bool) : Ply := { userPly with deferred := [⟨.tileError, 0x2000, 0, 0, again⟩] }
def parkedReport : Ply := { reportedPly false with pendLwake := true, state := .parked, wait := .latch 5 }
theorem witness_CausesTaken_reported : ((acting (reportedPly true)).ply 0 = some (reportedPly true) ∧ (reportedPly true).atBoundary = true ∧
    haltsIssue (acting (reportedPly true)) (reportedPly true) = false) ∧ (acting (reportedPly false)).ply 0 = some (reportedPly false) ∧
    (acting parkedReport).ply 0 = some parkedReport ∧ parkedReport.interruptible = true ∧ haltsIssue (acting parkedReport) parkedReport = false ∧
    parkedReport.deferred ≠ [] ∧ parkedReport.state ≠ .ready := ⟨⟨rfl, rfl, rfl⟩, rfl, rfl, rfl, rfl, by decide, by decide⟩
theorem witness_Landings_rest : (pieceFlight true false false).pieces.filter (!·.poison) ≠ [] ∧ (pieceFlight false true false).packet = true ∧
    (pieceFlight true false false).waiting = true := by decide
def outsideMonitor : Ply := { userPly with wait := .monitor ⟨2 ^ 39, false, .eq, 1, .pod, false⟩, state := .parked }
theorem witness_Landings_outside : (acting outsideMonitor).ply 0 = some outsideMonitor ∧ outsideMonitor.wait = .monitor ⟨2 ^ 39, false, .eq, 1, .pod, false⟩ ∧ (acting { userPly with wait := .counts none none (some 0) none }).ply 0 =
      some { userPly with wait := .counts none none (some 0) none } := ⟨rfl, rfl, rfl⟩
-- What the waits look at: memory, READY at 0x0400, which reads 0 at reset, and a place outside the package, where any value is 0 at least.
theorem witness_Landings_places : (targetAt Io.reset 0x8000 = .memory 0x8000) ∧
    targetAt Io.reset (511 * 2 ^ 40 + 0x400 + 2 ^ 52) = .register 0x400 ∧ waitHolds .eq 32 (ofBytesLE (registerRead State.reset 0x400 4)) 0 = true ∧
    (targetAt Io.reset (2 ^ 51 + 2 ^ 52) = .host 0) ∧
    (∃ i u, outsideRead (2 ^ 39) 4 State.reset = (i, u) ∧ waitHolds .geu 32 i.value 0 = true ∧ ¬waitHolds .ltu 32 i.value 0 = true) :=
  ⟨by decide, by decide, by decide +kernel, by decide, _, _, rfl, by simp only [waitHolds, Nat.zero_le, decide_true],
    by simp only [waitHolds]; exact Bool.false_ne_true⟩
/-- A CPYIN of space 0 whose rows lie on pages of their own. -/
def walkCopy : Copy := { badCopy with left := [0, 64, 128, 192, 256, 320, 384, 448] }
def walkState : State := (tilesState (someTile 1) (copyPly 0)).modCore 0 fun c => { c with copies := [walkCopy] }
theorem witness_FaultUnits_ahead : ((walkState.core 0).copies.find? (·.seq == walkCopy.seq)) = some walkCopy ∧ walkCopy.who.phys = false ∧
    teamTile walkState (some walkCopy.team) walkCopy.tile = some (someTile 1) ∧
    (((walkCopy.left.filterMap (blockVa walkCopy (someTile 1))).map fun va => va.toNat / 4096).eraseDups.tail.take 8)[6]? = some 268697614 := by
  refine ⟨rfl, rfl, rfl, ?_⟩; decide +kernel
/-- A GENB of the copy's space waits. -/
def staleCopy (n : Nat) : State :=
  { (tilesState (someTile 1) (copyPly 0)).modCore 0 fun c => { c with copies := [{ walkCopy with stale := [(64, n)] }] } with
    plies := [(0, copyPly 0), (63, { contextPly with wait := .genb 4 0 })] }
theorem witness_FaultUnits_copies (n : Nat) : findCopy (staleCopy n) walkCopy.seq = some (0, { walkCopy with stale := [(64, n)] }) ∧ walkCopy.held = false ∧
    walkCopy.left.contains 64 = true ∧ (blockVa walkCopy (someTile 1) 64).isSome = true ∧ genbBusy (staleCopy n) walkCopy.who.space = true ∧ teamTile (staleCopy n) (some walkCopy.team) walkCopy.tile = some (someTile 1) :=
  ⟨rfl, rfl, rfl, rfl, rfl, rfl⟩
theorem witness_FaultUnits_counts : ({ userPly with stale := 2 } : Ply).stale < 3 ∧ ({ userPly with staleFetch := 1 } : Ply).staleFetch < 2 ∧
    2 ≤ ({ userPly with staleFetch := 2 } : Ply).staleFetch ∧ ({ walkCopy with stale := [(0, 2)] } : Copy).stale.getD 64 0 < 2 ∧ 2 ≤ ({ walkCopy with stale := [(64, 2)] } : Copy).stale.getD 64 0 := by decide
theorem witness_Runs_due : placingRun 0 ≠ someRun ∧ Machine.placingRun (placingState 0 0) = some (1, placingRun 0) ∧
    (placingState 0 0).runs.any (fun (k, y) => endDue (placingState 0 0) k y) = false ∧
    (stampState [] [itemFor]).run 1 = some { someRun with stampq := [itemFor] } := by decide +kernel
/-- A ply of tenant 3 that waits on a latch as a halt of its tenant begins. -/
def leavingPly : Ply := { runPly with state := .parked, wait := .latch 5 }
theorem witness_HypervisorSteps_leaves : (acting leavingPly).ply 0 = some leavingPly ∧ leavingPly.mode = 0 ∧ leavingPly.ident.tenant = some (BitVec.ofNat 4 3) ∧
    leavingPly.state ≠ .halted ∧ leavingPly.wait.leaves = true := ⟨rfl, rfl, rfl, by decide, rfl⟩
theorem witness_HypervisorSteps_numbers : hypRead State.reset 0x202 = none ∧ hypRead State.reset 0x278 = none ∧ hypRead State.reset 0x2C4 = none ∧
    hypRead State.reset 0x2F4 = none ∧ hypRead State.reset 0x2F9 = none ∧ (0x100#64).getLsbD 8 = true ∧ (0x100#64).getLsbD 9 = false ∧
    (0x300#64).getLsbD 9 = true ∧ (State.reset.hyp.preGo = false) := ⟨rfl, rfl, rfl, rfl, rfl, rfl, rfl, rfl, rfl⟩
-- The image of 2 bytes at each stage of its boot, and after a failure with its bytes at ring 48's port.
theorem witness_ResetsAndBoot_stages : (atStage 0 true).io.stage = 0 ∧ (atStage 1 true).io.stage = 1 ∧ (atStage 1 true).io.image = some (image true) ∧
    (atStage 2 true).io.stage = 2 ∧ (atStage 2 true).io.image = some (image true) ∧ (image true).bytes ≠ [] ∧
    ({ Io.reset with stage := 15, upload := (image true).bytes ++ [9] } : Io).upload.take (image true).bytes.length = (image true).bytes ∧
    State.reset.io.readyMem.getLsbD 7 = false ∧ State.reset.io.stage ≠ 15 := by decide
theorem witness_HostSteps_reads : BusRequest.plain (.read 8) = true ∧ BusRequest.length (.read 8) = 8 ∧ (65536 - 8) + 8 ≤ 65536 ∧
    (Inbound.mk 128 false 0 0 0x8008 0 (.read 8) .bar0).aim = .bar0 ∧ (0x103F + 1 ≤ 0x1040) ∧ 0x1048 + 64 * 62 = 0x1FC8 ∧
    (heldRequest (.read 4) false).source = (heldRequest (.write [1]) false).source ∧ pushesAhead (hostState ⟨0, 0⟩ []) 5 = false ∧
    (heldRequest (.write [1]) true).relaxed = true := by decide
theorem witness_HostSteps_drives : unbound (leaseState true) 0x8000 8 = true ∧ writesAhead (leaseState true) (64 + 1) = false ∧ (leaseState true).io.stage ≠ 15 ∧
    ((leaseState true).hyp.tport.getD 3 0).getLsbD (49 + 1) = true ∧ ((Hyp.reset).tport.getD 3 0).getLsbD (49 + 1) = false ∧
    latchFull { leaseState true with latches := (List.range 4096).map fun n => (n, ⟨1, [], []⟩) } (latchKeyOf (some 3) 0x8000) = true := by decide +kernel
theorem witness_HostSteps_combines : 0x8000 % BusRequest.length (.red .add64 5) = 0 ∧ BusRequest.plain (.red .add64 5) = false ∧
    BusRequest.plain (.atom .add true 5) = false ∧ BusRequest.plain (.cas true 1 2) = false ∧
    (∃ i u, placeRead none 0x8000 (BusRequest.length (.red .add64 5)) aktumState = (i, u) ∧ i.error = none) := ⟨rfl, rfl, rfl, rfl, _, _, rfl, rfl⟩
def markedAktum : State := { aktumState with poison := [(0x1000, .memory)] }
theorem witness_HostSteps_consumes : (placeRead none 0x8000 8 markedAktum).1.error ≠ none := by decide +kernel
/-- A load that a GENB waits for, and none. -/
theorem witness_Translation_steps : oldAccess (physState genbPly) 5 = false ∧ (physState genbPly).ply 63 = some genbPly ∧ (4095#64).toNat < 4096 := by
  refine ⟨?_, rfl, ?_⟩ <;> decide +kernel
theorem witness_StepRunsDecoded_skips : guardHolds ⟨false, 0⟩ (bootPly Io.reset) = false ∧
    (∃ i, decodeWord bootCtx 0x98280000 (Config.skippedLiteral 5) = .ok i) ∧ (∃ j, decodeWord bootCtx 0x98280000 0 = .ok j) ∧
    fG 0x98280000#32 = ⟨false, 0⟩ := ⟨rfl, ⟨_, rfl⟩, ⟨_, rfl⟩, rfl⟩
/-- A ULIT as the last word before one that is poisoned. -/
def skipPly : Ply := { physPly with a := { physPly.a with pc := 0x8004 } }
def skipState : State := { loaded ([0, 0, 0, 0] ++ bytesLE 0x98280000 4) skipPly with poison := [(0x1001, .memory)] }
theorem witness_StepRunsDecoded_poison : ∃ u v x, fetchWord 63 skipPly 0x8004 skipState = (.word 0x98280000, u) ∧
    fetchWord 63 skipPly 0x8008 u = (x, v) ∧ ∀ lit, x ≠ .word lit := by
  refine ⟨_, _, _, rfl, rfl, fun lit => ?_⟩
  exact fun h => nomatch h
/-- The same ply with s1 at the end of the space: the addresses of its lanes have bit 57 set. -/
def highPly : Ply := physPly.setS 1 0x200000000000000
theorem witness_LaneMemory_addresses : (∃ r0 r1 post, physReqs [] = [r0] ++ r1 :: post ∧ r0.ea.toNat % 8 = 0 ∧ r0.ea.toNat < 2 ^ 57 ∧ r1.ea.toNat % 8 ≠ 0) ∧
    (∃ r0 post, laneReqs (Claim.here (physState highPly)) highPly 1 1 0 [] = [] ++ r0 :: post ∧ r0.ea.toNat % 4 = 0 ∧ 2 ^ 57 ≤ r0.ea.toNat) ∧
    ({ need := .read, bytes := 8 } : Shape).addrs ⟨0, 5, 7, [], false⟩ = [] ++ 5 :: [] ∧
    ({ Claim.atomicShape 4 .die with residual := true } : Shape).addrs ⟨0, 5, 8, [], false⟩ = [8] ++ 5 :: [] :=
  ⟨⟨_, _, _, rfl, by decide, by decide, by decide⟩, ⟨_, _, rfl, by decide, by decide⟩, rfl, rfl⟩
/-- 31 copies of the ply are in flight. -/
def manyCopies : State := (tilesState (someTile 0) (copyPly 0)).modCore 0 fun c => { c with copies := List.replicate 31 (someCopy [0]) }
theorem witness_CopiesIssue_stands : copiesOut manyCopies 0 (copyPly 0) ≥ 31 := by decide +kernel
theorem witness_CopiesIssue_causes : teamTile twoTiles (some 1) (9 : BitVec 8).toNat = none ∧ tensorCause none 0 (someTile 0) = some .tensorRecord ∧
    teamTile twoTiles (some 1) (field 9#64 0 8) = none ∧ field 0x100#64 8 24 ≠ 0 ∧ (someTile 0).size < field (1#64 <<< 32) 32 32 + (someTile 0).size ∧
    field (1#64 <<< 32) 32 32 ≠ 0 := by decide +kernel
/-- A ring across the link of dies 0 and 3, which is lost. -/
theorem witness_QueuePushes_link : linkDown { State.reset with deadLinks := [3] } 0 3 = true := by decide
/-- A row that 255 entries map, with a single bit error in lane 1: FRZ finds it before it copies the row. -/
def fullRow : Core := { Core.empty with rows := [(0, ⟨Vector.replicate 8 0, 255, 0, 2, 0, false⟩)] }
theorem witness_Moulds_errors : fullRow.shareErrors (userPly.a.rows.set 4 (.mapped [0])) = true ∧ fullRow.shareStalls (userPly.a.rows.set 4 (.mapped [0])) = false ∧
    Core.empty.shareErrors userPly.a.rows = false := by decide +kernel
/-- A store that a GENB has returned stays when its other writes land. -/
theorem witness_Landings_away : ({ pieceFlight false false false with away := [⟨0x8000, 0, 0x8000, [1], none⟩] } : Flight).away ≠ [] ∧
    (pieceFlight false false false).pieces ≠ [] ∧ (pieceFlight false false false).away = [] := by decide
theorem witness_Latches_host : ((latchState ⟨0, [.host 1 2, .ply 63], []⟩ physPly).latch (16 * 2 ^ 57 + 0x8000)).waiters = .host 1 2 :: [.ply 63] := by decide +kernel
theorem witness_HostSteps_opens : portOpens (leaseState true) 48 0x8000 = false ∧
    portOpens { leaseState true with hyp := { Hyp.reset with kway := [(48, 0xFFFFFFFFFFFFFFFF)] } } 48 0x8000 = true :=
  ⟨by simp [portOpens, keywayOpens, leaseState, targetAt, Hyp.reset, Map.getD, Map.find, field], by decide +kernel⟩
theorem unmapped (va : Nat) : (unitPlace (ioViewer 3 0) va .read (leaseState true)).1 = none := by
  have hw : ∃ u, walk (some 3#4) 0 va (leaseState true) = (.bad, u) := ⟨_, rfl⟩
  obtain ⟨u, hw⟩ := hw
  have ht : tlbFind (leaseState true) ioTlb 0 va = none := rfl
  have hi : ∃ u, ioTranslate (some 3#4) 0 va .read (leaseState true) = (.cause .protection, u) := by
    unfold ioTranslate
    split
    · exact ⟨_, rfl⟩
    · rw [ht, hw]
      exact ⟨_, rfl⟩
  obtain ⟨v, hi⟩ := hi
  have hu : unitTranslate (ioViewer 3 0) va .read (leaseState true) = (.cause .protection, v) := hi
  unfold unitPlace
  rw [hu]
/-- No new entry, and one that cannot be read: the space of the lease maps nothing. -/
theorem witness_HostSteps_doorbells : Claim.EntriesChecked Lease.empty 0 0 (leaseState true) none (leaseState true) ∧
    (unitRead (ioViewer 3 0) 2 ((Config.sqBase 1 0).toNat + 64 * 0) 64 (leaseState true)).1 = none ∧
    ((leaseState true).lease 6).stop = false ∧ ((leaseState true).lease 5).en = false := by
  refine ⟨⟨rfl, rfl⟩, ?_, by decide +kernel, by decide +kernel⟩
  have h := unmapped ((Config.sqBase 1 0).toNat + 64 * 0)
  unfold unitRead
  rw [if_neg (by decide)]
  dsimp only
  split
  · rfl
  · rename_i e; rw [e] at h; exact nomatch h
/-- The operation's tile with a poisoned word in B, and a core with an octet whose frame no saved operation matches. -/
noncomputable def poisonedTile : State := { opState false with teams := [(1, someTeam [(2, { wideTile 0 with poison := [(0, .memory)] })] [] [])] }
theorem witness_MatrixEngine_fails : ((someOp true).badRow.or (accBadRow ((opState true).core 0) (someOp true))) = some 0 ∧
    ((someOp false).badRow.or (accBadRow (poisonedTile.core 0) (someOp false))) = none ∧ matHeld poisonedTile 0 (someOp false) = false ∧
    (matReads poisonedTile (someOp false)).map (fun x => (x.1, x.2.tileError.isSome)) = [(2, true)] ∧
    (teamTile poisonedTile (some (someOp false).team) 2).isSome = true := by decide +kernel
theorem witness_MatrixEngine_frames : (frozenState (matPly 2)).cores.map (fun x => x.2.frames.keys) = [[]] := by decide +kernel
/-- Lane 1 of a load or a store is left, in flight 9. -/
def leftPly : Ply := { physPly with unfinished := some ⟨2, [⟨1, 0x8004, 0, [5], false⟩], some 9, [], 0⟩ }
theorem witness_LaneMemory_resumes : Claim.Acts (physState leftPly) leftPly ∧ leftPly.replays = some ⟨2, [⟨1, 0x8004, 0, [5], false⟩], some 9, [], 0⟩ ∧
    Claim.Resumes (physState leftPly) leftPly ⟨2, [⟨1, 0x8004, 0, [5], false⟩], some 9, [], 0⟩ [1, 3] ∧
    Claim.Lands (physState leftPly) leftPly loadForm.shape [⟨1, 0x8004, 0, [5], false⟩] [⟨⟨1, 0x8004, 0, [5], false⟩, [⟨0x8004, 1, 0x8004, 0⟩]⟩] (physState leftPly) ∧
    (readLanes 0 none loadForm [⟨⟨1, 0x8004, 0, [5], false⟩, [⟨0x8004, 1, 0x8004, 0⟩]⟩] (physState leftPly)).1.1 = none :=
  ⟨rfl, rfl, ⟨rfl, rfl⟩, ⟨rfl, _, rfl, rfl, by decide, rfl, rfl⟩, by decide +kernel⟩
theorem witness_RoundTrip : (Instr.cvt 8 60 0 true .dyn .e4m3x4F32).wellFormed = true := rfl
theorem witness_StepKeepsMemoryCanonical : MemoryCanonical (State.reset.withFetchWord 32 0xDC000007) ∧
    ∃ t, step (State.reset.withFetchWord 32 0xDC000007) = .next t := ⟨rfl, _, rfl⟩
theorem witness_MemoryBytes : MemoryCanonical (loaded [1, 2, 3] physPly) ∧ 0x8000 % 128 + ([7, 0, 8] : List Byte).length ≤ 128 ∧
    (∀ k, (loaded [1, 2, 3] physPly).keyOf.find (lineOf 0x8000) = some k → k = (keyFor (loaded [1, 2, 3] physPly) 0x8000).getD 0) := by
  refine ⟨rfl, by decide, fun k h => ?_⟩
  cases h
theorem witness_GuardFails : (Instr.bra 3 ⟨true, 7⟩).guard? = some ⟨true, 7⟩ ∧ (Instr.uadd 1 2 3 ⟨false, 0⟩).guard? = some ⟨false, 0⟩ ∧ Claim.Acts (acting userPly) userPly ∧
    guardHolds ⟨false, 0⟩ userPly = false := ⟨rfl, rfl, rfl, rfl⟩
theorem witness_HardwiredRegisters : (6 : PReg) ≠ 7 ∧ (0 : QReg) ≠ 7 := by decide
theorem witness_StartStates : (0 : Nat) < 8 ∧ 8 ≤ (8 : SReg).toNat ∧ (6 : QReg) ≠ 7 ∧ isService (serviceKey 3) = true ∧ isService (contextKey 3) = false := by decide

end Sys2Proof.Tests
end

section
/-! SUPPORT. The canonical form of memory (R1, R80; log entry 3) is kept by every step. Bytes at home are written in three places:
`writeHome`, the filter of `cleanFrame`, and the empty memory of `coldReset`. Of every function that a step calls, one lemma says
what it does: `f_mem`, that it leaves memory as it was, or `f_canonical`, that the canonical form of its state is that of its
result. The lemmas stand in the order of the model's files; `exec_canonical` puts them together. Smart unfolding is off in this
section, so that the `match` of the model is compared with that of a lemma `of_…` (which splits a result by the cases it matches
on) by the recursor of both. -/
set_option smartUnfolding false
namespace Sys2Proof.Machine

/-- The state that the meaning of an instruction leaves has its memory in canonical form. -/
@[simp] def Res.Canonical : Res → Prop
  | .next s | .jump s _ | .stay s | .before s _ _ _ | .after s _ | .again s | .park s _ _ => MemoryCanonical s
  | .stall | .fault _ => True

/-- The same of a register write. -/
@[simp] def HypWrite.Canonical : HypWrite → Prop
  | .done s => MemoryCanonical s
  | .cause _ | .wait => True

/-- The same of the arrival of a queue entry. -/
@[simp] def Arrival.Canonical : Arrival → Prop
  | .taken s => MemoryCanonical s
  | .full | .waits => True

/-- The same of the landing of a block of a copy. -/
@[simp] def Landing.Canonical : Landing → Prop
  | .landed s | .stop _ _ s | .held _ _ s => MemoryCanonical s
  | .fault _ => True

/-- The same of the outcome of a step. -/
@[simp] def CanonicalOut : Out → Prop
  | .next s => MemoryCanonical s
  | .fault _ | .refused _ => True

theorem MemoryCanonical.of_mem_eq {s t : State} (h : MemoryCanonical s) (e : t.mem = s.mem) : MemoryCanonical t := by
  unfold MemoryCanonical
  rwa [e]

theorem MemoryCanonical.ite {c : Prop} [Decidable c] {s t : State} (hs : MemoryCanonical s) (ht : MemoryCanonical t) :
    MemoryCanonical (if c then s else t) := by
  split
  · exact hs
  · exact ht

theorem foldl_canonical {α : Type} {g : State → α → State} (h : ∀ s x, MemoryCanonical s → MemoryCanonical (g s x)) (l : List α)
    {s : State} (hs : MemoryCanonical s) : MemoryCanonical (l.foldl g s) := by
  induction l generalizing s with
  | nil => exact hs
  | cons x l ih => exact ih (h s x hs)
/-- The state of a result has its memory in canonical form. -/
abbrev SndCanonical {α : Type} (r : α × State) : Prop := MemoryCanonical r.2

/-- A state has the memory of another. -/
abbrev SameMem (s t : State) : Prop := t.mem = s.mem

section Cases
variable {α β ε : Type} {P : α → Prop}

theorem of_ite {c : Prop} [Decidable c] {x y : α} (hx : P x) (hy : P y) : P (if c then x else y) :=
  iteInduction (fun _ => hx) fun _ => hy

theorem of_option {o : Option β} {x : α} {f : β → α} (hx : P x) (hf : ∀ b, P (f b)) :
    P (match o with | none => x | some b => f b) := by
  cases o with
  | none => exact hx
  | some b => exact hf b

theorem of_some {o : Option β} {x : α} {f : β → α} (hf : ∀ b, P (f b)) (hx : P x) :
    P (match o with | some b => f b | _ => x) := by
  cases o with
  | none => exact hx
  | some b => exact hf b

theorem of_except {o : Except ε β} {g : ε → α} {f : β → α} (hg : ∀ e, P (g e)) (hf : ∀ b, P (f b)) :
    P (match o with | .error e => g e | .ok b => f b) := by
  cases o with
  | error e => exact hg e
  | ok b => exact hf b

theorem of_list {l : List β} {x : α} {f : β → List β → α} (hx : P x) (hf : ∀ b l, P (f b l)) :
    P (match l with | [] => x | b :: l => f b l) := by
  cases l with
  | nil => exact hx
  | cons b l => exact hf b l

theorem of_loaded {l : Loaded} {x : α} {f : Queue → α} (hf : ∀ q, P (f q)) (hx : P x) : P (match l with | .ok q => f q | _ => x) := by
  cases l with
  | ok q => exact hf q
  | bad | error => exact hx

theorem of_trans {t : Trans} {f : Nat → Nat → Nat → α} {g : Nat → α} {h : Cause → α} (hf : ∀ a b c, P (f a b c)) (hg : ∀ l, P (g l))
    (hh : ∀ c, P (h c)) : P (match t with | .ok a b c => f a b c | .absent l => g l | .cause c => h c) := by
  cases t with
  | ok a b c => exact hf a b c
  | absent l => exact hg l
  | cause c => exact hh c

theorem of_trans_ok {t : Trans} {f : Nat → Nat → Nat → α} {x : α} (hf : ∀ a b c, P (f a b c)) (hx : P x) :
    P (match t with | .ok a b c => f a b c | _ => x) := by
  cases t with
  | ok a b c => exact hf a b c
  | absent | cause => exact hx

theorem of_walk {w : Walk} {f : TlbEntry → α} {g : Nat → α} {x : α} {h : Cause → α} (hf : ∀ e, P (f e)) (hg : ∀ l, P (g l))
    (hx : P x) (hh : ∀ c, P (h c)) : P (match w with | .leaf e => f e | .absent l => g l | .bad => x | .error c => h c) := by
  cases w with
  | leaf e => exact hf e
  | absent l => exact hg l
  | bad => exact hx
  | error c => exact hh c

theorem of_check {c : Check} {x : α} {f : Cause → α} {g : Fault → α} (hx : P x) (hf : ∀ c, P (f c)) (hg : ∀ e, P (g e)) :
    P (match c with | .ok => x | .cause c => f c | .fault e => g e) := by
  cases c with
  | ok => exact hx
  | cause c => exact hf c
  | fault e => exact hg e

theorem of_option_eq {o : Option β} {x : α} {f : β → α} (hx : P x) (hf : ∀ b, o = some b → P (f b)) :
    P (match (generalizing := false) o with | none => x | some b => f b) := by
  cases o with
  | none => exact hx
  | some b => exact hf b rfl

theorem of_except_eq {o : Except ε β} {g : ε → α} {f : β → α} (hg : ∀ e, P (g e)) (hf : ∀ b, o = .ok b → P (f b)) :
    P (match (generalizing := false) o with | .error e => g e | .ok b => f b) := by
  cases o with
  | error e => exact hg e
  | ok b => exact hf b rfl

theorem of_cons {l : List β} {x : α} {f : β → List β → α} (hf : ∀ b l, P (f b l)) (hx : P x) :
    P (match l with | b :: l => f b l | _ => x) := by
  cases l with
  | nil => exact hx
  | cons b l => exact hf b l

theorem of_register {t : Target} {x : α} {f : Nat → α} (hf : ∀ off, P (f off)) (hx : P x) :
    P (match t with | .register off => f off | _ => x) := by
  cases t with
  | register off => exact hf off
  | memory | package | host | absent => exact hx

theorem of_ite_of {c : Prop} [Decidable c] {s t : State} (hc : MemoryCanonical t → MemoryCanonical s) (ht : MemoryCanonical t) :
    MemoryCanonical (if c then s else t) := of_ite (hc ht) ht

theorem of_dite {c : Prop} [Decidable c] {x : c → α} {y : ¬c → α} (hx : ∀ h, P (x h)) (hy : ∀ h, P (y h)) : P (dite c x y) := by
  by_cases h : c
  · rw [dif_pos h]
    exact hx h
  · rw [dif_neg h]
    exact hy h

theorem of_check_ok {c : Check} {x y : α} (hx : P x) (hy : P y) : P (match c with | .ok => x | _ => y) := by
  cases c with
  | ok => exact hx
  | cause | fault => exact hy

theorem of_ite_mem {c : Prop} [Decidable c] {s t u : State} (ht : t.mem = u.mem) (hu : u.mem = s.mem) :
    (if c then t else u).mem = s.mem := of_ite (P := SameMem s) (ht.trans hu) hu

theorem of_option_mem {o : Option β} {s t : State} {f : β → State} (hf : ∀ b, (f b).mem = t.mem) (ht : t.mem = s.mem) :
    (match o with | none => t | some b => f b).mem = s.mem := of_option (P := SameMem s) ht fun b => (hf b).trans ht

end Cases

theorem foldl_mem {α : Type} {g : State → α → State} (h : ∀ s x, (g s x).mem = s.mem) (l : List α) (s : State) :
    (l.foldl g s).mem = s.mem := by
  induction l generalizing s with
  | nil => rfl
  | cons x l ih => rw [List.foldl_cons, ih, h]

/-! ### Machine/Ops.lean -/

@[simp] theorem State.modRun_mem (s : State) (r : Nat) (f : Run → Run) : (State.modRun s r f).mem = s.mem :=
  of_option (P := SameMem s) rfl fun _ => State.setRun_mem ..

@[simp] theorem wakeIdle_mem (k : Nat) (s : State) : (wakeIdle k s).mem = s.mem := by
  refine of_option (P := SameMem s) rfl fun p => ?_
  cases p.wait with
  | event => exact State.setPly_mem ..
  | _ => rfl

@[simp] theorem setPevt_mem (k n : Nat) (s : State) : (setPevt k n s).mem = s.mem := (wakeIdle_mem ..).trans (State.modPly_mem ..)

@[simp] theorem windowPush_mem (sender die ply run : Nat) (who : Viewer) (desc : Nat) (kind : QueueKind) (data : List DWord)
    (s : State) : (windowPush sender die ply run who desc kind data s).mem = s.mem := rfl

@[simp] theorem sendOrHold_mem (u : Unsent) (s : State) : (sendOrHold u s).mem = s.mem :=
  of_ite (P := SameMem s) rfl (windowPush_mem ..)

@[simp] theorem sendHeld_mem (sender die n : Nat) (s : State) : (sendHeld sender die n s).mem = s.mem := by
  induction n generalizing s with
  | zero => rfl
  | succ n ih => exact of_option (P := SameMem s) rfl fun _ => of_ite (P := SameMem s) rfl ((ih ..).trans (windowPush_mem ..))

@[simp] theorem ringSend_mem (sender k : Nat) (data : List DWord) (s : State) : (ringSend sender k data s).mem = s.mem :=
  sendOrHold_mem ..

@[simp] theorem record_mem (d : Nat) (e : ErrorRec) (s : State) : (record d e s).mem = s.mem :=
  of_ite (P := SameMem s) rfl (of_ite rfl (ringSend_mem ..))

@[simp] theorem leaveWay_mem (lines : List Nat) (s : State) : (leaveWay lines s).mem = s.mem := by
  simp [leaveWay, foldl_mem]

@[simp] theorem retire_mem (d : Nat) (r : Resource) (at_ : Nat) (s : State) : (retire d r at_ s).mem = s.mem := by
  cases r with
  | row =>
    refine of_ite (P := SameMem s) rfl (of_ite (record_mem ..) (of_option ?_ fun _ => State.setCore_mem ..))
    exact (record_mem ..).trans (State.setCore_mem ..)
  | granule => exact of_ite (P := SameMem s) rfl ((record_mem ..).trans (State.modCore_mem ..))
  | way => exact of_ite (P := SameMem s) rfl (of_ite (record_mem ..) ((record_mem ..).trans (leaveWay_mem ..)))
  | frame => rfl
  | channel => exact of_ite (P := SameMem s) rfl (record_mem ..)

@[simp] theorem countEvent_mem (d : Nat) (r : Resource) (at_ : Nat) (s : State) : (countEvent d r at_ s).mem = s.mem := by
  refine of_option (P := SameMem s) (of_ite rfl (of_option rfl fun _ => rfl)) fun _ => ?_
  exact of_option rfl fun _ => of_ite (P := SameMem s) ((retire_mem ..).trans (record_mem ..)) rfl

@[simp] theorem errorEvent_mem (d : Nat) (e : ErrorRec) (r : Option Resource) (at_ : Nat) (s : State) :
    (errorEvent d e r at_ s).mem = s.mem := by
  unfold errorEvent; (repeat' split) <;> simp

@[simp] theorem coreEvent_mem (core src kind : Nat) (res : DWord) (r : Option Resource) (s : State) :
    (coreEvent core src kind res r s).mem = s.mem := errorEvent_mem ..

@[simp] theorem State.releaseMap_mem (s : State) (c : Nat) (m : Vector RowEntry 64) : (State.releaseMap s c m).mem = s.mem :=
  (foldl_mem (fun _ _ => record_mem ..) _ _).trans (State.setCore_mem ..)

@[simp] theorem countLatch_mem (key : Nat) (s : State) : (countLatch key s).mem = s.mem := rfl

@[simp] theorem admitWake_mem (s : State) (key : Nat) : (admitWake s key).mem = s.mem :=
  of_ite (P := SameMem s) rfl (countLatch_mem ..)

@[simp] theorem joinLatch_mem (vf n key : Nat) (s : State) : (joinLatch vf n key s).mem = s.mem := of_ite (P := SameMem s) rfl rfl

@[simp] theorem admitHost_mem (s : State) (i : Nat) : (admitHost s i).mem = s.mem :=
  of_option (P := SameMem s) rfl fun _ => of_ite rfl (joinLatch_mem ..)

@[simp] theorem admitWaiting_mem (s : State) : (admitWaiting s).mem = s.mem :=
  (foldl_mem (fun _ _ => admitHost_mem ..) _ _).trans (foldl_mem (fun _ _ => admitWake_mem ..) _ _)

@[simp] theorem State.putLatch_mem (s : State) (key : Nat) (l : Latch) : (State.putLatch s key l).mem = s.mem :=
  of_ite (P := SameMem s) (admitWaiting_mem ..) rfl

@[simp] theorem unwaitLatch_mem (key k : Nat) (s : State) : (unwaitLatch key k s).mem = s.mem :=
  of_option (P := SameMem s) rfl fun _ => State.putLatch_mem ..

@[simp] theorem disarm_mem (k : Nat) (s : State) : (disarm k s).mem = s.mem :=
  of_option (P := SameMem s) rfl fun _ => State.putLatch_mem ..

@[simp] theorem unwaitWaiter_mem (w : Waiter) (s : State) : (unwaitWaiter w s).mem = s.mem := rfl

@[simp] theorem unwaitMerges_mem (k uid : Nat) (s : State) : (unwaitMerges k uid s).mem = s.mem := rfl

@[simp] theorem withdraw_mem (k : Nat) (s : State) : (withdraw k s).mem = s.mem := by
  refine of_option (P := SameMem s) rfl fun p => ?_
  cases p.wait with
  | queue => exact of_option (P := SameMem s) rfl fun _ => rfl
  | latch => exact unwaitLatch_mem ..
  | page => exact unwaitMerges_mem ..
  | _ => rfl

@[simp] theorem haltPly_mem (k : Nat) (c : BitVec 7) (after : Bool) (pc : Pc) (addr umask : DWord) (s : State) :
    (haltPly k c after pc addr umask s).mem = s.mem := (wakeIdle_mem ..).trans (State.modPly_mem ..)

@[simp] theorem checkRecord_mem (k : Nat) (p : Ply) (src aux : Nat) (res : DWord) (s : State) :
    (checkRecord k p src aux res s).mem = s.mem := record_mem ..

@[simp] theorem settleUnfinished_mem (k : Nat) (s : State) : (settleUnfinished k s).mem = s.mem :=
  of_option (P := SameMem s) rfl fun _ => of_ite (P := SameMem s) rfl ((State.setPly_mem ..).trans (State.modCore_mem ..))

@[simp] theorem routeCause_mem (k : Nat) (c : Cause) (pc : Pc) (addr umask : DWord) (s : State) :
    (routeCause k c pc addr umask s).mem = s.mem := by
  refine of_option (P := SameMem s) rfl fun _ => ?_
  exact of_ite (P := SameMem s)
    (of_ite (P := SameMem s) ((setPevt_mem ..).trans ((State.modPly_mem ..).trans (settleUnfinished_mem ..)))
    ((State.modPly_mem ..).trans (settleUnfinished_mem ..))) (of_ite (P := SameMem s) (State.modPly_mem ..) (haltPly_mem ..))

@[simp] theorem settleCause_mem (k : Nat) (c : Cause) (pc : Pc) (addr umask : DWord) (s : State) :
    (settleCause k c pc addr umask s).mem = s.mem := by
  refine of_option (P := SameMem s) rfl fun _ => ?_
  exact of_ite (P := SameMem s)
    (of_ite (P := SameMem s) ((routeCause_mem ..).trans (checkRecord_mem ..))
    ((State.modPly_mem ..).trans (settleUnfinished_mem ..))) (routeCause_mem ..)

@[simp] theorem takeCause_mem (k : Nat) (c : Cause) (pc : Pc) (addr umask : DWord) (s : State) :
    (takeCause k c pc addr umask s).mem = s.mem :=
  of_option (P := SameMem s) rfl fun _ => (settleCause_mem ..).trans (of_ite (P := SameMem s) (checkRecord_mem ..) rfl)

theorem finish_canonical {kd : WordKind} {ws : List (BitVec 32)} {k : Nat} {pc : Pc} {r : Res} (hr : r.Canonical) :
    CanonicalOut (finish kd ws k pc r) := by
  cases r <;> simp_all [finish, MemoryCanonical]

@[simp] theorem stallPly_mem (k : Nat) (s : State) : (stallPly k s).mem = s.mem := State.modPly_mem ..

/-- An unguarded word keeps memory in its canonical form when its meaning does. -/
theorem perform_canonical {kd : WordKind} {ws : List (BitVec 32)} {s : State} {body : Ply → Res} (hs : MemoryCanonical s)
    (hb : ∀ p, (body p).Canonical) : CanonicalOut (perform kd ws s body) := by
  unfold perform
  split
  · trivial
  · split
    · exact hs.of_mem_eq (stallPly_mem ..)
    · exact finish_canonical (hb _)

theorem guarded_canonical {kd : WordKind} {ws : List (BitVec 32)} {g : Guard} {s : State} {body : Ply → Res}
    (hs : MemoryCanonical s) (hb : ∀ p, (body p).Canonical) : CanonicalOut (guarded kd ws g s body) :=
  of_option trivial fun _ => of_ite (perform_canonical hs (fun _ => hb _)) (finish_canonical hs)

/-! ### Machine/Memory.lean -/

@[simp] theorem testMonitors_mem (line : Nat) (s : State) : (testMonitors line s).mem = s.mem := of_ite (P := SameMem s) rfl rfl

/-- A write at home keeps the canonical form, whatever the key of its line was. -/
theorem writeHome_canonical {a : Nat} {bs : List Byte} {poison : Option Mark} {s : State} (hs : MemoryCanonical s) :
    MemoryCanonical (writeHome a bs poison s) := by
  refine MemoryCanonical.of_mem_eq ?_ (testMonitors_mem ..)
  refine Memory.wf_writeBytes _ _ _ (of_option (P := MemoryCanonical) hs fun _ => of_ite hs ?_)
  unfold MemoryCanonical
  dsimp only
  exact Memory.wf_writeBytes _ _ _ hs

theorem writeAt_canonical {x : Nat} {bs : List Byte} {poison : Option Mark} {s : State} (hs : MemoryCanonical s) :
    MemoryCanonical (writeAt x bs poison s) := by
  unfold writeAt
  repeat' split
  · exact writeHome_canonical hs
  · exact hs
  · exact hs
  · exact hs

@[simp] theorem noteWrote_mem (team x n : Nat) (s : State) : (noteWrote team x n s).mem = s.mem :=
  of_option (P := SameMem s) rfl fun _ => of_ite (P := SameMem s) rfl rfl

@[simp] theorem noteWrites_mem (k x n : Nat) (s : State) : (noteWrites k x n s).mem = s.mem :=
  of_option (P := SameMem s) rfl fun _ => of_ite (P := SameMem s) (noteWrote_mem ..) rfl

@[simp] theorem findError_mem (s : State) (x : Nat) : (findError s x).mem = s.mem := of_ite (P := SameMem s) rfl (errorEvent_mem ..)

@[simp] theorem logLatent_mem (s : State) (x : Nat) : (logLatent s x).mem = s.mem := of_ite (P := SameMem s) (errorEvent_mem ..) rfl

@[simp] theorem correctWords_mem (ws : List Nat) (s : State) : (correctWords ws s).mem = s.mem :=
  of_ite (P := SameMem s) rfl (foldl_mem (fun _ _ => findError_mem ..) _ _)

@[simp] theorem evictL2_mem (lines : List Nat) (s : State) : (evictL2 lines s).mem = s.mem :=
  foldl_mem (fun _ _ => (findError_mem ..).trans (logLatent_mem ..)) _ _

@[simp] theorem touchL2_mem (want : L2Prio) (a : Nat) (s : State) : (touchL2 want a s).mem = s.mem := evictL2_mem ..

@[simp] theorem touchPlace_mem (want : L2Prio) (x : Nat) (s : State) : (touchPlace want x s).mem = s.mem := by
  unfold touchPlace; split <;> simp

@[simp] theorem landLoads_mem (k : Nat) (s : State) : (landLoads k s).mem = s.mem :=
  of_option (P := SameMem s) rfl fun _ => of_ite (P := SameMem s) rfl (State.modCore_mem ..)

@[simp] theorem landEarlier_mem (k : Nat) (lines : List Nat) (s : State) : (landEarlier k lines s).mem = s.mem :=
  of_option (P := SameMem s) rfl fun _ => of_ite (P := SameMem s) rfl (State.modCore_mem ..)

theorem pushLine_canonical {c line : Nat} {s : State} (hs : MemoryCanonical s) : MemoryCanonical (pushLine c line s) :=
  of_ite hs (foldl_canonical (fun _ _ ht => writeAt_canonical ht) _ (hs.of_mem_eq (State.modCore_mem ..)))

@[simp] theorem dropL1_mem (c line : Nat) (s : State) : (dropL1 c line s).mem = s.mem :=
  of_ite (P := SameMem s) (State.modCore_mem ..) rfl

theorem applyPartial_canonical {s : State} {p : Partial} (hs : MemoryCanonical s) : MemoryCanonical (applyPartial s p) := by
  unfold applyPartial
  split
  · exact writeHome_canonical (hs.of_mem_eq (by simp [foldl_mem]))
  · exact hs
  · exact writeAt_canonical hs

theorem combineCore_canonical {line : Nat} {s : State} {c : Nat} (hs : MemoryCanonical s) :
    MemoryCanonical (combineCore line s c) := by
  refine of_ite hs ?_
  exact foldl_canonical (fun _ _ ht => applyPartial_canonical ht) _
    (((pushLine_canonical hs).of_mem_eq (dropL1_mem ..)).of_mem_eq (State.modCore_mem ..))

theorem combineLine_canonical {line : Nat} {s : State} (hs : MemoryCanonical s) : MemoryCanonical (combineLine line s) :=
  of_ite (foldl_canonical (fun _ _ ht => combineCore_canonical ht) _ hs) hs

theorem performWrite_canonical {c : Nat} {s : State} {w : HomeWrite} (hs : MemoryCanonical s) :
    MemoryCanonical (performWrite c s w) := of_ite (combineLine_canonical hs) (pushLine_canonical hs)

theorem pushCore_canonical {c : Nat} {s : State} (hs : MemoryCanonical s) : MemoryCanonical (pushCore c s) :=
  (foldl_canonical (fun _ _ ht => performWrite_canonical ht) _ hs).of_mem_eq (State.modCore_mem ..)

@[simp] theorem dropL1All_mem (c : Nat) (s : State) : (dropL1All c s).mem = s.mem :=
  of_ite (P := SameMem s) rfl (State.modCore_mem ..)

theorem release_canonical {k : Nat} {e : Scope} {s : State} (hs : MemoryCanonical s) : MemoryCanonical (release k e s) :=
  of_ite (hs.of_mem_eq (landLoads_mem ..)) (pushCore_canonical (hs.of_mem_eq (landLoads_mem ..)))

@[simp] theorem acquire_mem (c : Nat) (e : Scope) (s : State) : (acquire c e s).mem = s.mem := by
  unfold acquire; split <;> simp

@[simp] theorem injectInto_mem (mode : BitVec 2) (mask : BitVec 8) (inj : BitVec 2) (word byte : Nat) (i : Image) (s : State) :
    (injectInto mode mask inj word byte i s).2.mem = s.mem := by
  unfold injectInto; split <;> simp

@[simp] theorem oneShot_mem (i : Image) (s : State) : (oneShot i s).2.mem = s.mem := by
  unfold oneShot; (repeat' split) <;> simp

@[simp] theorem seeded_mem (tenant : Option (BitVec 4)) (i : Image) (s : State) : (seeded tenant i s).2.mem = s.mem := by
  unfold seeded; dsimp only; (repeat' split) <;> simp

theorem fetchHome_canonical {tenant : Option (BitVec 4)} {lay : Image → Image} {a n : Nat} {s : State} (hs : MemoryCanonical s) :
    MemoryCanonical (fetchHome tenant lay a n s).2 := by
  unfold fetchHome
  exact (((combineLine_canonical hs).of_mem_eq (correctWords_mem ..)).of_mem_eq (oneShot_mem ..)).of_mem_eq (seeded_mem ..)

theorem fetchLine_canonical {tenant : Option (BitVec 4)} {lay : Image → Image} {a n : Nat} {s : State} (hs : MemoryCanonical s) :
    MemoryCanonical (fetchLine tenant lay a n s).2 :=
  foldl_canonical (fun _ _ ht => ht.of_mem_eq (logLatent_mem ..)) _ (fetchHome_canonical hs)

@[simp] theorem outsideRead_mem (x n : Nat) (s : State) : (outsideRead x n s).2.mem = s.mem := rfl

@[simp] theorem checkL1_mem (c line : Nat) (s : State) : (checkL1 c line s).mem = s.mem :=
  of_option (P := SameMem s) rfl fun _ => of_ite (P := SameMem s) ((coreEvent_mem ..).trans (dropL1_mem ..)) rfl

theorem throughL1_canonical {c a n : Nat} {u : L1Use} {beyond line : State → Image × State} {s : State} (hs : MemoryCanonical s)
    (hb : ∀ t, MemoryCanonical t → MemoryCanonical (beyond t).2) (hl : ∀ t, MemoryCanonical t → MemoryCanonical (line t).2) :
    MemoryCanonical (throughL1 c u a n beyond line s).2 := by
  refine of_option (P := SndCanonical) ?_ fun _ => (hs.of_mem_eq (checkL1_mem ..)).of_mem_eq (State.modCore_mem ..)
  refine of_ite (P := SndCanonical) (hb _ (hs.of_mem_eq (checkL1_mem ..))) ?_
  exact (hl _ (hs.of_mem_eq (checkL1_mem ..))).of_mem_eq (State.modCore_mem ..)

@[simp] theorem outsideOverlaid_mem (c x n : Nat) (s : State) : (outsideOverlaid c x n s).2.mem = s.mem := rfl

theorem plainRead_canonical {c : Nat} {tenant : Option (BitVec 4)} {x n : Nat} {u : L1Use} {s : State} (hs : MemoryCanonical s) :
    MemoryCanonical (plainRead c tenant x n u s).2 := by
  unfold plainRead
  split
  · exact throughL1_canonical (combineLine_canonical hs) (fun _ ht => fetchHome_canonical ht) fun _ ht => fetchLine_canonical ht
  · exact hs
  · exact throughL1_canonical hs (fun _ ht => ht.of_mem_eq (outsideOverlaid_mem ..)) fun _ ht =>
      ht.of_mem_eq (outsideOverlaid_mem ..)

theorem homeRead_canonical {c : Nat} {tenant : Option (BitVec 4)} {x n : Nat} {s : State} (hs : MemoryCanonical s) :
    MemoryCanonical (homeRead c tenant x n s).2 := by
  unfold homeRead
  dsimp only
  repeat' split
  · exact fetchHome_canonical (((pushLine_canonical hs).of_mem_eq (dropL1_mem ..)).of_mem_eq (touchL2_mem ..))
  · exact hs
  · exact (pushLine_canonical (hs.of_mem_eq (outsideRead_mem ..))).of_mem_eq (dropL1_mem ..)

theorem placeRead_canonical {tenant : Option (BitVec 4)} {x n : Nat} {s : State} (hs : MemoryCanonical s) :
    MemoryCanonical (placeRead tenant x n s).2 := by
  unfold placeRead
  repeat' split
  · exact fetchHome_canonical (hs.of_mem_eq (touchL2_mem ..))
  · exact hs
  · exact hs.of_mem_eq (outsideRead_mem ..)

@[simp] theorem touchL1_mem (c : Nat) (w : HomeWrite) (s : State) : (touchL1 c w s).mem = s.mem :=
  of_option (P := SameMem s) rfl fun _ => State.modCore_mem ..

theorem homeWrite_canonical {c : Nat} {w : HomeWrite} {s : State} (hs : MemoryCanonical s) : MemoryCanonical (homeWrite c w s) := by
  unfold homeWrite
  exact (writeAt_canonical (combineLine_canonical (pushLine_canonical hs))).of_mem_eq (touchL1_mem ..)

@[simp] theorem consumeRecord_mem (i : Image) (who : DWord) (s : State) : (consumeRecord i who s).mem = s.mem :=
  of_list (P := SameMem s) rfl fun _ _ => errorEvent_mem ..

@[simp] theorem tlbInstall_mem (id : Nat) (e : TlbEntry) (s : State) : (tlbInstall id e s).mem = s.mem := rfl

theorem walkRead_canonical {tenant : Option (BitVec 4)} {pa n : Nat} {s : State} {r : Image × State} (hs : MemoryCanonical s)
    (h : walkRead tenant pa n s = .ok r) : MemoryCanonical r.2 := by
  revert h
  unfold walkRead
  cases target s.io pa with
  | memory =>
    rintro ⟨⟩
    exact fetchHome_canonical (hs.of_mem_eq (touchL2_mem ..))
  | package =>
    refine of_ite (P := fun x => x = Except.ok r → MemoryCanonical r.2) ?_ ?_
    · rintro ⟨⟩
    · rintro ⟨⟩
      exact hs.of_mem_eq (outsideRead_mem ..)
  | host =>
    rintro ⟨⟩
    exact hs.of_mem_eq (outsideRead_mem ..)
  | register | absent => rintro ⟨⟩

theorem walkFrom_canonical {reader : Option (BitVec 4)} {tenant : BitVec 4} {space va level table : Nat} {s : State}
    (hs : MemoryCanonical s) : MemoryCanonical (walkFrom reader tenant space va level table s).2 := by
  induction level generalizing table s with
  | zero => exact hs
  | succ level ih =>
    refine of_except_eq (P := SndCanonical) (fun _ => hs) fun r hr => ?_
    have ht : MemoryCanonical r.2 := walkRead_canonical hs hr
    refine of_option (P := SndCanonical) ?_ fun _ => ht.of_mem_eq (consumeRecord_mem ..)
    exact of_ite (P := SndCanonical) ht (of_ite ht (of_ite ht (ih ht)))

theorem walk_canonical {tenant : Option (BitVec 4)} {space va : Nat} {s : State} (hs : MemoryCanonical s) :
    MemoryCanonical (walk tenant space va s).2 := by
  refine of_except_eq (P := SndCanonical) (fun _ => hs) fun r hr => ?_
  have ht : MemoryCanonical r.2 := walkRead_canonical hs hr
  refine of_option (P := SndCanonical) ?_ fun _ => ht.of_mem_eq (consumeRecord_mem ..)
  exact of_ite (P := SndCanonical) ht (of_ite ht (walkFrom_canonical ht))

theorem lookup_canonical {first die : Nat} {tenant : Option (BitVec 4)} {space va : Nat} {need : Need} {s : State}
    (hs : MemoryCanonical s) : MemoryCanonical (lookup first die tenant space va need s).2 := by
  refine of_option (P := SndCanonical) ?_ fun _ => hs
  refine of_option (P := SndCanonical) ?_ fun _ => hs.of_mem_eq (tlbInstall_mem ..)
  refine of_walk (P := SndCanonical) (fun _ => ?_) (fun _ => walk_canonical hs) (walk_canonical hs) fun _ => walk_canonical hs
  exact ((walk_canonical hs).of_mem_eq (tlbInstall_mem ..)).of_mem_eq (tlbInstall_mem ..)

theorem translate_canonical {v : Viewer} {va : DWord} {need : Need} {s : State} (hs : MemoryCanonical s) :
    MemoryCanonical (translate v va need s).2 :=
  of_ite (P := SndCanonical) (of_ite (P := SndCanonical) hs hs) (of_ite (P := SndCanonical) hs (lookup_canonical hs))

@[simp] theorem mergeMiss_mem (d space vpage level : Nat) (kind : BitVec 3) (who : DWord) (tenant : Option (BitVec 4))
    (gen : BitVec 16) (w : Waiter) (s : State) : (mergeMiss d space vpage level kind who tenant gen w s).mem = s.mem :=
  of_option (P := SameMem s) (of_option rfl fun _ => ringSend_mem ..) fun _ => of_ite rfl rfl

@[simp] theorem parkOnPages_mem (k : Nat) (need : Need) (pages : List (DWord × Nat)) (u : Unfinished) (s : State) :
    (parkOnPages k need pages u s).mem = s.mem := by
  refine of_option (P := SameMem s) rfl fun _ => of_ite ((takeCause_mem ..).trans (State.setPly_mem ..)) ?_
  refine of_ite ((haltPly_mem ..).trans (State.setPly_mem ..)) ?_
  exact (foldl_mem (fun _ _ => mergeMiss_mem ..) _ _).trans ((State.modPly_mem ..).trans (State.setPly_mem ..))

/-! ### Machine/QueueEngine.lean -/

theorem loadQueue_canonical {core : Option Nat} {tenant : Option (BitVec 4)} {x : Nat} {kind : QueueKind} {s : State}
    (hs : MemoryCanonical s) : MemoryCanonical (loadQueue core tenant x kind s).2 := by
  refine of_option (P := SndCanonical) ?_ fun _ => hs
  refine of_option (P := SndCanonical) ?_ fun _ => ?_
  · refine of_option (P := SndCanonical) ?_ fun _ => ?_
    · exact of_option (P := SndCanonical) (placeRead_canonical hs) fun _ => homeRead_canonical hs
    · exact of_option (P := SndCanonical) (placeRead_canonical hs) fun _ => homeRead_canonical hs
  · exact of_option (P := SndCanonical) (placeRead_canonical hs) fun _ => homeRead_canonical hs

@[simp] theorem putQueue_mem (x : Nat) (q : Queue) (s : State) : (putQueue x q s).mem = s.mem := rfl

@[simp] theorem handOver_mem (k : Nat) (d : SReg) (mbox : Bool) (data : List DWord) (s : State) :
    (handOver k d mbox data s).mem = s.mem := (acquire_mem ..).trans (State.modPly_mem ..)

@[simp] theorem endWatches_mem (x : Nat) (s : State) : (endWatches x s).mem = s.mem := rfl

@[simp] theorem notifyRing_mem (kind : QueueKind) (sender : Nat) (q : Queue) (s : State) :
    (notifyRing kind sender q s).mem = s.mem := by
  unfold notifyRing; (repeat' split) <;> simp

@[simp] theorem noteRecord_mem (kind : QueueKind) (sender : Nat) (q : Queue) (s : State) :
    (noteRecord kind sender q s).mem = s.mem := of_ite (P := SameMem s) (notifyRing_mem ..) rfl

theorem storePlace_canonical {who : Viewer} {q : Queue} {s : State} (hs : MemoryCanonical s) :
    MemoryCanonical (storePlace who q s).2 := by
  refine of_ite (P := SndCanonical) hs ?_
  generalize hr : translate _ _ _ s = r
  have ht : MemoryCanonical r.2 := hr ▸ translate_canonical hs
  obtain ⟨_ | _ | _, t⟩ := r
  · refine of_dite (P := SndCanonical) (fun h => ?_) fun _ => ht
    subst h
    unfold Eq.ndrec_symm
    dsimp only
    exact of_check_ok (P := SndCanonical) ht ht
  all_goals exact ht

theorem accept_canonical {w : Window} {x : Nat} {kind : QueueKind} {data : List DWord} {s : State} (hs : MemoryCanonical s) :
    (accept w x kind data s).Canonical := by
  unfold accept
  generalize hr : loadQueue _ _ _ _ s = r
  have ht : MemoryCanonical r.2 := hr ▸ loadQueue_canonical hs
  obtain ⟨l, t⟩ := r
  refine of_loaded (fun q => of_option (of_ite trivial ?_) fun _ => ?_) trivial
  · generalize hp : storePlace _ _ t = p
    have hu : MemoryCanonical p.2 := hp ▸ storePlace_canonical ht
    refine of_option trivial fun _ => MemoryCanonical.of_mem_eq (writeAt_canonical (combineLine_canonical ?_))
      ((endWatches_mem ..).trans (notifyRing_mem ..))
    exact hu.of_mem_eq ((touchPlace_mem ..).trans (putQueue_mem ..))
  · refine MemoryCanonical.of_mem_eq ht ((endWatches_mem ..).trans ((handOver_mem ..).trans ?_))
    exact (noteRecord_mem ..).trans (putQueue_mem ..)

theorem arrivalOf_canonical {s : State} {w : Window} {e : Pending} (hs : MemoryCanonical s) : (arrivalOf s w e).Canonical :=
  of_option trivial fun _ => of_ite trivial (accept_canonical hs)

@[simp] theorem setWindow_mem (w : Window) (s : State) : (setWindow w s).mem = s.mem := rfl

/-! ### Machine/Units.lean -/

theorem ioTranslate_canonical {tenant : Option (BitVec 4)} {space va : Nat} {need : Need} {s : State} (hs : MemoryCanonical s) :
    MemoryCanonical (ioTranslate tenant space va need s).2 := by
  refine of_ite (P := SndCanonical) hs (of_option (P := SndCanonical) ?_ fun _ => hs)
  refine of_walk (P := SndCanonical) (fun _ => ?_) (fun _ => walk_canonical hs) (walk_canonical hs) fun _ => walk_canonical hs
  exact (walk_canonical hs).of_mem_eq (tlbInstall_mem ..)

theorem unitTranslate_canonical {v : Viewer} {va : Nat} {need : Need} {s : State} (hs : MemoryCanonical s) :
    MemoryCanonical (unitTranslate v va need s).2 :=
  of_ite (P := SndCanonical) (of_ite (P := SndCanonical) hs hs) (ioTranslate_canonical hs)

theorem unitPlace_canonical {v : Viewer} {va : Nat} {need : Need} {s : State} (hs : MemoryCanonical s) :
    MemoryCanonical (unitPlace v va need s).2 :=
  of_trans_ok (P := SndCanonical) (fun _ _ _ => unitTranslate_canonical hs) (unitTranslate_canonical hs)

theorem pagesReach_canonical {v : Viewer} {need : Need} {n page : Nat} {s : State} (hs : MemoryCanonical s) :
    MemoryCanonical (pagesReach v need n page s).2 := by
  induction n generalizing page s with
  | zero => exact hs
  | succ n ih =>
    exact of_option (P := SndCanonical) (unitPlace_canonical hs) fun _ => ih (unitPlace_canonical hs)

theorem rangeReaches_canonical {v : Viewer} {need : Need} {va n : Nat} {s : State} (hs : MemoryCanonical s) :
    MemoryCanonical (rangeReaches v need va n s).2 :=
  pagesReach_canonical hs

theorem unitRead_canonical {v : Viewer} {fuel va n : Nat} {s : State} (hs : MemoryCanonical s) :
    MemoryCanonical (unitRead v fuel va n s).2 := by
  induction fuel generalizing va n s with
  | zero => exact hs
  | succ fuel ih =>
    refine of_ite (P := SndCanonical) hs (of_option (P := SndCanonical) (unitPlace_canonical hs) fun _ => ?_)
    refine of_ite (P := SndCanonical) ?_ ?_
    · exact (placeRead_canonical (unitPlace_canonical hs)).of_mem_eq (consumeRecord_mem ..)
    · refine of_option (P := SndCanonical) ?_ fun _ => ih (placeRead_canonical (unitPlace_canonical hs))
      exact ih (placeRead_canonical (unitPlace_canonical hs))

theorem unitWrite_canonical {v : Viewer} {fuel va : Nat} {bs : List Byte} {s : State} (hs : MemoryCanonical s) :
    MemoryCanonical (unitWrite v fuel va bs s) := by
  induction fuel generalizing va bs s with
  | zero => exact hs
  | succ fuel ih =>
    refine of_ite hs (ih (of_option (unitPlace_canonical hs) fun _ => writeAt_canonical (combineLine_canonical ?_)))
    exact (unitPlace_canonical hs).of_mem_eq (touchPlace_mem ..)

/-! ### Machine/Io.lean -/

@[simp] theorem startAgent_mem (k : Nat) (pr : Priv) (s : State) : (startAgent k pr s).mem = s.mem :=
  (State.setPly_mem ..).trans (of_option (P := SameMem s) rfl fun _ => State.releaseMap_mem ..)

@[simp] theorem startService_mem (s : State) (n : Nat) : (startService s n).mem = s.mem :=
  of_ite (P := SameMem s) (startAgent_mem ..) rfl

@[simp] theorem startDie_mem (s : State) (d : Nat) : (startDie s d).mem = s.mem :=
  of_ite (P := SameMem s) (foldl_mem (fun _ _ => startAgent_mem ..) _ _) rfl

@[simp] theorem startAgents_mem (s : State) : (startAgents s).mem = s.mem :=
  (foldl_mem (fun _ _ => startDie_mem ..) _ _).trans (foldl_mem (fun _ _ => startService_mem ..) _ _)

@[simp] theorem restartAgent_mem (by_ core : Nat) (s : State) : (restartAgent by_ core s).mem = s.mem :=
  of_option (P := SameMem s) rfl fun _ => of_ite (P := SameMem s) rfl (startAgent_mem ..)

theorem coldReset_canonical (s : State) : MemoryCanonical (coldReset s) := Memory.wf_nil

theorem performPushes_canonical {keep : Window → Bool} {s : State} (hs : MemoryCanonical s) :
    MemoryCanonical (performPushes keep s) := by
  refine foldl_canonical (fun t w ht => foldl_canonical (fun u e hu => ?_) _ ht) _ hs
  have ha := arrivalOf_canonical (w := w) (e := e) hu
  split
  · rename_i heq; rwa [heq] at ha
  · exact hu

theorem functionReset_mem (s : State) : (functionReset s).mem =
    (performPushes (fun w => 192 ≤ w.who.core && 1024 ≤ w.sender)
      ((List.range 16).foldl (fun s n => pushCore (192 + n) s) s)).mem := by
  unfold functionReset
  with_reducible rfl

theorem functionReset_canonical {s : State} (hs : MemoryCanonical s) : MemoryCanonical (functionReset s) :=
  (performPushes_canonical (foldl_canonical (fun _ _ ht => pushCore_canonical ht) _ hs)).of_mem_eq (functionReset_mem s)

theorem writeLong_canonical {fuel a : Nat} {bs : List Byte} {s : State} (hs : MemoryCanonical s) :
    MemoryCanonical (writeLong fuel a bs s) := by
  induction fuel generalizing a bs s with
  | zero => exact hs
  | succ fuel ih => exact of_ite hs (ih (writeAt_canonical (combineLine_canonical (hs.of_mem_eq (touchPlace_mem ..)))))

theorem attest_canonical {k pa : Nat} {s : State} (hs : MemoryCanonical s) : MemoryCanonical (attest k pa s) := by
  refine of_option hs fun _ => of_ite hs (MemoryCanonical.of_mem_eq (writeLong_canonical ?_) (setPevt_mem ..))
  exact placeRead_canonical (release_canonical hs)

theorem failingEntry_canonical {l : Lease} {n i : Nat} {s : State} (hs : MemoryCanonical s) :
    MemoryCanonical (failingEntry l n i s).2 := by
  induction n generalizing i s with
  | zero => exact hs
  | succ n ih =>
    unfold failingEntry
    dsimp only
    generalize hr : unitRead _ _ _ _ s = r
    have ht : MemoryCanonical r.2 := hr ▸ unitRead_canonical hs
    obtain ⟨_ | bs, t⟩ := r
    · exact ht
    · exact of_ite (P := SndCanonical) ht (ih ht)

@[simp] theorem State.setLease_mem (s : State) (k : Nat) (l : Lease) : (State.setLease s k l).mem = s.mem := rfl

theorem sqTail_canonical {k : Nat} {tail : BitVec 32} {s : State} (hs : MemoryCanonical s) : MemoryCanonical (sqTail k tail s) :=
  of_ite hs (of_option (failingEntry_canonical hs) fun _ =>
    MemoryCanonical.of_mem_eq (failingEntry_canonical hs) (ringSend_mem ..))

@[simp] theorem cqHead_mem (k : Nat) (head : BitVec 32) (s : State) : (cqHead k head s).mem = s.mem :=
  of_ite (P := SameMem s) rfl rfl

@[simp] theorem noteDrives_mem (s : State) : (noteDrives s).mem = s.mem := rfl

theorem ioWrite_canonical {k off : Nat} {bs : List Byte} {s : State} (hs : MemoryCanonical s) :
    MemoryCanonical (ioWrite k off bs s) := by
  unfold ioWrite
  refine .ite ?_ (.ite hs (.ite hs (.ite hs (.ite hs (.ite ?_ (.ite ?_ (.ite hs (.ite (.ite ?_ (.ite ?_ hs)) hs))))))))
  · exact .ite (sqTail_canonical hs) (.ite (hs.of_mem_eq (cqHead_mem ..)) hs)
  · exact hs.of_mem_eq (noteDrives_mem ..)
  · exact attest_canonical hs
  · exact functionReset_canonical hs
  · exact hs.of_mem_eq (restartAgent_mem ..)

theorem routeWrite_canonical {k x : Nat} {bs : List Byte} {other : State → State} {s : State} (hs : MemoryCanonical s)
    (ho : MemoryCanonical (other s)) : MemoryCanonical (routeWrite k x bs other s) := by
  unfold routeWrite
  split
  · exact ioWrite_canonical hs
  · exact ho

/-! ### Machine/Operands.lean -/

theorem poisonCause_canonical {s : State} {p : Ply} {row : Nat} {umask : DWord} (hs : MemoryCanonical s) :
    (poisonCause s p row umask).Canonical :=
  hs.of_mem_eq (errorEvent_mem ..)

@[simp] theorem findInRow_mem (core : Nat) (read : List Nat) (s : State) (n : Nat) : (findInRow core read s n).mem = s.mem := by
  refine of_option (P := SameMem s) rfl fun _ => ?_
  exact (foldl_mem (fun _ _ => of_ite (P := SameMem _) ((coreEvent_mem ..).trans (of_ite (P := SameMem _) (coreEvent_mem ..) rfl))
    (of_ite (P := SameMem _) (coreEvent_mem ..) rfl)) _ _).trans (State.modCore_mem ..)

@[simp] theorem findRowErrors_mem (s : State) (p : Ply) (reads writes : List RegUse) :
    (findRowErrors s p reads writes).mem = s.mem := foldl_mem (fun _ _ => findInRow_mem ..) _ _

@[simp] theorem findShared_mem (core : Nat) (m : Vector RowEntry 64) (s : State) : (findShared core m s).mem = s.mem :=
  foldl_mem (fun _ _ => findInRow_mem ..) _ _

theorem regated_canonical {s : State} {p : Ply} {u : Unfinished} {regs : List VReg} {go : Res} (hs : MemoryCanonical s)
    (hg : go.Canonical) : (regated s p u regs go).Canonical :=
  of_ite (hs.of_mem_eq (findRowErrors_mem ..)) (of_option hg fun _ => poisonCause_canonical hs)

theorem gated_canonical {s : State} {p : Ply} {reads writes : List RegUse} {go : Core → Res} (hs : MemoryCanonical s)
    (hg : ∀ c, (go c).Canonical) : (gated s p reads writes go).Canonical := by
  unfold gated
  dsimp only
  split
  · exact hs
  · trivial
  · exact hs.of_mem_eq (findRowErrors_mem ..)
  · exact poisonCause_canonical hs
  · exact hg _

theorem rowWait_canonical {s : State} {p : Ply} (hs : MemoryCanonical s) : (rowWait s p).Canonical :=
  hs

theorem writeLanes_canonical {s : State} {p : Ply} {ws : List (VReg × List LaneVal)} {upd : Ply → Ply} (hs : MemoryCanonical s) :
    (writeLanes s p ws upd).Canonical :=
  of_option (rowWait_canonical hs) fun _ => (hs.of_mem_eq (State.setCore_mem ..)).of_mem_eq (State.setPly_mem ..)

theorem laneWrite_canonical {s : State} {p : Ply} {d : VReg} {reads : List RegUse} {f : Core → Nat → Word}
    (hs : MemoryCanonical s) : (laneWrite s p d reads f).Canonical := gated_canonical hs fun _ => writeLanes_canonical hs

theorem lane1_canonical {i : Instr} {d a : VReg} {f : Word → Word} {s : State} (hs : MemoryCanonical s) :
    CanonicalOut (lane1 i d a f s) := perform_canonical hs fun _ => laneWrite_canonical hs

theorem lane2_canonical {i : Instr} {d a : VReg} {b : LaneSrc} {f : Word → Word → Word} {s : State} (hs : MemoryCanonical s) :
    CanonicalOut (lane2 i d a b f s) := perform_canonical hs fun _ => laneWrite_canonical hs

theorem lane3_canonical {i : Instr} {d a b c : VReg} {f : Word → Word → Word → Word} {s : State} (hs : MemoryCanonical s) :
    CanonicalOut (lane3 i d a b c f s) := perform_canonical hs fun _ => laneWrite_canonical hs

theorem lanePred_canonical {s : State} {p : Ply} {pd : PReg} {reads : List RegUse} {f : Core → Nat → Bool}
    (hs : MemoryCanonical s) : (lanePred s p pd reads f).Canonical := gated_canonical hs fun _ => hs.of_mem_eq (State.setPly_mem ..)

theorem uniform_canonical {i : Instr} {g : Guard} {d : SReg} {f : Ply → DWord} {s : State} (hs : MemoryCanonical s) :
    CanonicalOut (uniform i g d f s) :=
  guarded_canonical hs fun _ => hs

theorem uniformQ_canonical {i : Instr} {g : Guard} {d : QReg} {f : Ply → Bool} {s : State} (hs : MemoryCanonical s) :
    CanonicalOut (uniformQ i g d f s) :=
  guarded_canonical hs fun _ => hs

/-! ### Machine/Access.lean -/

theorem translateAll_canonical {v : Viewer} {need : Need} {vas : List DWord} {s : State} (hs : MemoryCanonical s) :
    MemoryCanonical (translateAll v need vas s).2 := by
  induction vas generalizing s with
  | nil => exact hs
  | cons va vas ih => exact ih (translate_canonical hs)

theorem placeLanes_canonical {v : Viewer} {x : Shape} {rs : List LaneReq} {s : State} (hs : MemoryCanonical s) :
    MemoryCanonical (placeLanes v x rs s).2 := by
  induction rs generalizing s with
  | nil => exact hs
  | cons r rs ih => exact ih (translateAll_canonical hs)

@[simp] theorem noteClamp_mem (k : Nat) (e : Scope) (s : State) : (noteClamp k e s).mem = s.mem := by
  unfold noteClamp; (repeat' split) <;> rfl

theorem Res.unclamp_canonical {k : Nat} {old : Bool} {all : DWord} {none : Bool} {r : Res} (hr : r.Canonical) :
    (r.unclamp k old all none).Canonical := by
  cases r with
  | before | stay => exact of_ite (P := MemoryCanonical) (MemoryCanonical.of_mem_eq hr (State.modPly_mem ..)) hr
  | _ => exact hr

/-- An access of the lanes of a form: the checks keep memory in its canonical form, and so does the access when its
continuation does. -/
theorem reachLanes_canonical {s : State} {p : Ply} {x : Shape} {reqs : List LaneReq} {umask : DWord}
    {go : State → List LaneGo → List LaneReq → List (DWord × Nat) → Res} (hs : MemoryCanonical s)
    (hg : ∀ t gos left pages, MemoryCanonical t → (go t gos left pages).Canonical) :
    (reachLanes s p x reqs umask go).Canonical := by
  unfold reachLanes
  split
  · exact hs
  · have hp : MemoryCanonical (placeLanes (viewer s.cur p) x reqs s).2 := placeLanes_canonical hs
    dsimp only
    split
    · split
      · exact hp.of_mem_eq (State.modPly_mem ..)
      · exact hp
    · trivial
    · split
      · exact hp
      · refine Res.unclamp_canonical (hg _ _ _ _ (MemoryCanonical.of_mem_eq ?_ (landEarlier_mem ..)))
        split
        · exact hp.of_mem_eq (noteClamp_mem ..)
        · exact hp

theorem settleLanes_canonical {k : Nat} {need : Need} {left : List LaneReq} {pages : List (DWord × Nat)} {flight : Option Nat}
    {s : State} (hs : MemoryCanonical s) : (settleLanes k need left pages flight s).Canonical :=
  of_ite hs (hs.of_mem_eq (parkOnPages_mem ..))

@[simp] theorem useL2_mem (a : Nat) (s : State) : (useL2 a s).mem = s.mem := of_option (P := SameMem s) rfl fun _ => rfl

@[simp] theorem hintL2_mem (h : Hint) (x : Spot) (s : State) : (hintL2 h x s).mem = s.mem := by
  unfold hintL2; (repeat' split) <;> simp

@[simp] theorem enterStore_mem (c : Nat) (f : Flight) (s : State) : (enterStore c f s).mem = s.mem := rfl

@[simp] theorem modStore_mem (c seq : Nat) (f : Flight → Flight) (s : State) : (modStore c seq f s).mem = s.mem := rfl

theorem plainWrite_canonical {c seq : Nat} {w : HomeWrite} {s : State} (hs : MemoryCanonical s) :
    MemoryCanonical (plainWrite c seq w s) :=
  .of_mem_eq ((of_ite (combineLine_canonical hs) hs).of_mem_eq (touchL1_mem ..)) (modStore_mem ..)

theorem writeOne_canonical {k seq : Nat} {e : Option Scope} {w : HomeWrite} {s : State} (hs : MemoryCanonical s) :
    MemoryCanonical (writeOne k seq e w s) := by
  refine of_register (fun _ => ioWrite_canonical ?_) (of_ite ?_ ?_)
  · exact of_option hs fun _ => release_canonical hs
  · exact plainWrite_canonical (MemoryCanonical.of_mem_eq (of_option hs fun _ => release_canonical hs) (noteWrites_mem ..))
  · exact homeWrite_canonical (MemoryCanonical.of_mem_eq (of_option hs fun _ => release_canonical hs) (noteWrites_mem ..))

theorem readOne_canonical {c : Nat} {tenant : Option (BitVec 4)} {e : Option Scope} {x n : Nat} {u : L1Use} {s : State}
    (hs : MemoryCanonical s) : MemoryCanonical (readOne c tenant e x n u s).2 :=
  of_ite (P := SndCanonical) (plainRead_canonical hs) ((homeRead_canonical hs).of_mem_eq (dropL1All_mem ..))

theorem atomicOne_canonical {k seq : Nat} {tenant : Option (BitVec 4)} {e : Scope} {ordered : Bool} {x : Spot} {r : BusRequest}
    {s : State} (hs : MemoryCanonical s) : MemoryCanonical (atomicOne k seq tenant e ordered x r s).2 := by
  unfold atomicOne
  dsimp only
  have hr : MemoryCanonical (if ordered then release k e s else s) := of_ite (release_canonical hs) hs
  generalize (if ordered then release k e s else s) = t at hr ⊢
  generalize hi : (if e = .core && !elsewhere t x.at_ then plainRead _ _ _ _ _ _ else homeRead _ _ _ _ t) = i
  have hu : MemoryCanonical i.2 := hi ▸ of_ite (P := SndCanonical)
    (plainRead_canonical ((combineLine_canonical hr).of_mem_eq (hintL2_mem ..))) (homeRead_canonical hr)
  obtain ⟨i, u⟩ := i
  refine of_ite_of (fun h => h.of_mem_eq (acquire_mem ..)) ?_
  dsimp only
  cases i.error with
  | some => cases targetAt u.io x.at_ <;> exact hu
  | none =>
    cases BusRequest.update r i.value with
    | none => cases targetAt u.io x.at_ <;> exact hu
    | some =>
      cases targetAt u.io x.at_ with
      | package => exact hu
      | register => exact ioWrite_canonical hu
      | memory | host | absent =>
        have hn := hu.of_mem_eq (noteWrites_mem k x.at_ (BusRequest.length r) u)
        exact of_ite (plainWrite_canonical hn) (homeWrite_canonical hn)

theorem reduceOne_canonical {k seq : Nat} {op : AtomOp} {x : Spot} {v : DWord} {s : State} (hs : MemoryCanonical s) :
    MemoryCanonical (reduceOne k seq op x v s) := by
  unfold reduceOne
  dsimp only
  repeat' split
  · exact combineLine_canonical
      (((combineLine_canonical (hs.of_mem_eq (noteWrites_mem ..))).of_mem_eq (dropL1_mem ..)).of_mem_eq (State.modCore_mem ..))
  · exact (((combineLine_canonical (hs.of_mem_eq (noteWrites_mem ..))).of_mem_eq (dropL1_mem ..)).of_mem_eq
      (State.modCore_mem ..)).of_mem_eq (modStore_mem ..)
  · exact combineLine_canonical (((hs.of_mem_eq (noteWrites_mem ..)).of_mem_eq (dropL1_mem ..)).of_mem_eq (State.modCore_mem ..))
  · exact (((hs.of_mem_eq (noteWrites_mem ..)).of_mem_eq (dropL1_mem ..)).of_mem_eq (State.modCore_mem ..)).of_mem_eq
      (modStore_mem ..)
  · exact ioWrite_canonical hs
  · exact applyPartial_canonical ((pushLine_canonical hs).of_mem_eq (dropL1_mem ..))

theorem reduceRead_canonical {c : Nat} {op : AtomOp} {x : Spot} {s : State} (hs : MemoryCanonical s) :
    MemoryCanonical (reduceRead c op x s).2 := by
  unfold reduceRead
  split
  · exact (pushLine_canonical hs).of_mem_eq (correctWords_mem ..)
  · exact hs

/-! ### Machine/LaneMem.lean -/

theorem readMany_canonical {c : Nat} {tenant : Option (BitVec 4)} {n : Nat} {xs : List Nat} {s : State} (hs : MemoryCanonical s) :
    MemoryCanonical (readMany c tenant n xs s).2 := by
  induction xs generalizing s with
  | nil => exact hs
  | cons x xs ih => exact ih (plainRead_canonical (hs.of_mem_eq (touchPlace_mem ..)))

theorem readForm_canonical {c : Nat} {tenant : Option (BitVec 4)} {f : LoadForm} {x : Spot} {s : State} (hs : MemoryCanonical s) :
    MemoryCanonical (readForm c tenant f x s).2 := by
  refine of_option (P := SndCanonical) (readOne_canonical (hs.of_mem_eq (hintL2_mem ..))) fun _ => ?_
  refine of_ite (P := SndCanonical) (readMany_canonical hs) ?_
  refine of_ite (P := SndCanonical) ?_ (plainRead_canonical (hs.of_mem_eq (hintL2_mem ..)))
  exact plainRead_canonical (hs.of_mem_eq (hintL2_mem ..))

theorem readLanes_canonical {c : Nat} {tenant : Option (BitVec 4)} {f : LoadForm} {gs : List LaneGo} {s : State}
    (hs : MemoryCanonical s) : MemoryCanonical (readLanes c tenant f gs s).2 := by
  induction gs generalizing s with
  | nil => exact hs
  | cons g gs ih =>
    exact of_option (P := SndCanonical) (ih (readForm_canonical hs)) fun _ => readForm_canonical hs

@[simp] theorem takeRows_mem (k : Nat) (p : Ply) (s : State) : (takeRows k p s).mem = s.mem := State.modPly_mem ..

theorem loadLanes_canonical {i : Instr} {f : LoadForm} {rs : List VReg} {s : State} {p : Ply} {reqs : List LaneReq}
    {old : Option Unfinished} (hs : MemoryCanonical s) : (loadLanes i f rs s p reqs old).Canonical := by
  unfold loadLanes
  refine reachLanes_canonical hs fun t gos left pages ht => ?_
  refine of_option ?_ fun _ => (readLanes_canonical ht).of_mem_eq (consumeRecord_mem ..)
  refine of_option ?_ fun _ => ?_
  · refine of_option (rowWait_canonical (readLanes_canonical ht)) fun _ => ?_
    exact settleLanes_canonical ((readLanes_canonical ht).of_mem_eq (takeRows_mem ..))
  · exact settleLanes_canonical ((readLanes_canonical ht).of_mem_eq (State.modCore_mem ..))

theorem laneLoad_canonical {i : Instr} {f : LoadForm} {d a : VReg} {sb : SReg} {scale : Nat} {s : State} (hs : MemoryCanonical s) :
    CanonicalOut (laneLoad i f d a sb scale s) := by
  refine perform_canonical hs fun _ => of_option ?_ fun _ => regated_canonical hs (loadLanes_canonical hs)
  refine gated_canonical hs fun _ => ?_
  exact of_ite hs (of_ite trivial (of_option (rowWait_canonical hs) fun _ => loadLanes_canonical hs))

theorem execLdrep_canonical {d a : VReg} {sb : SReg} {t : RepTy} {s : State} (hs : MemoryCanonical s) :
    CanonicalOut (execLdrep d a sb t s) := by
  unfold execLdrep
  exact laneLoad_canonical hs

theorem gatedData_canonical {s : State} {p : Ply} {a : VReg} {data : List VReg} {go : Core → Res} (hs : MemoryCanonical s)
    (hg : ∀ c, (go c).Canonical) : (gatedData s p a data go).Canonical := by
  refine of_ite (gated_canonical hs (fun _ => hg _)) (of_ite hs ?_)
  refine of_ite trivial ?_
  exact of_ite (foldl_canonical (fun _ _ ht => ht.of_mem_eq (findInRow_mem ..)) _ hs) (gated_canonical hs (fun _ => hg _))

@[simp] theorem storeFlight_mem (s : State) (k : Nat) (p : Ply) (old : Option Unfinished) :
    (storeFlight s k p old).2.mem = s.mem := by
  unfold storeFlight; split <;> rfl

theorem settleStore_canonical {k seq : Nat} {need : Need} {left : List LaneReq} {pages : List (DWord × Nat)} {s : State}
    (hs : MemoryCanonical s) : (settleStore k seq need left pages s).Canonical :=
  settleLanes_canonical hs

theorem storeLanes_canonical {x : Shape} {h : Hint} {s : State} {p : Ply} {reqs : List LaneReq} {old : Option Unfinished}
    (hs : MemoryCanonical s) : (storeLanes x h s p reqs old).Canonical := by
  unfold storeLanes
  refine reachLanes_canonical hs fun t gos left pages ht => ?_
  have hf : MemoryCanonical (storeFlight t s.cur p old).2 := ht.of_mem_eq (storeFlight_mem ..)
  exact settleStore_canonical (foldl_canonical (fun _ _ hu => writeOne_canonical (hu.of_mem_eq (hintL2_mem ..))) _ hf)

theorem laneStore_canonical {i : Instr} {x : Shape} {h : Hint} {d a : VReg} {sb : SReg} {scale : Nat} {s : State}
    (hs : MemoryCanonical s) : CanonicalOut (laneStore i x h d a sb scale s) := by
  refine perform_canonical hs fun _ => of_option ?_ fun _ => regated_canonical hs (storeLanes_canonical hs)
  exact gatedData_canonical hs fun _ => of_ite hs (storeLanes_canonical hs)

theorem atomLanes_canonical {k seq : Nat} {tenant : Option (BitVec 4)} {e : Scope} {ordered : Bool} {n : Nat}
    {f : List Word → BusRequest} {gs : List LaneGo} {s : State} (hs : MemoryCanonical s) :
    MemoryCanonical (atomLanes k seq tenant e ordered n f gs s).2 := by
  induction gs generalizing s with
  | nil => exact hs
  | cons g gs ih =>
    exact of_option (P := SndCanonical) (ih (atomicOne_canonical hs)) fun _ => atomicOne_canonical hs

theorem stopLanes_canonical {k seq : Nat} {im : Image} {c : Cause} {left : List LaneReq} {p : Ply} {s : State}
    (hs : MemoryCanonical s) : (stopLanes k seq im c left p s).Canonical :=
  hs.of_mem_eq (by simp)

@[simp] theorem landIn_mem (k seq : Nat) (vals : List (Nat × List Word)) (s : State) : (landIn k seq vals s).mem = s.mem := rfl

theorem atomicLanes_canonical {x : Shape} {e : Scope} {ordered : Bool} {out : List VReg} {f : List Word → BusRequest} {s : State}
    {p : Ply} {reqs : List LaneReq} {old : Option Unfinished} (hs : MemoryCanonical s) :
    (atomicLanes x e ordered out f s p reqs old).Canonical := by
  unfold atomicLanes
  refine reachLanes_canonical hs fun t gos left pages ht => ?_
  split
  · exact rowWait_canonical ht
  · rename_i y p' _
    have hr : MemoryCanonical (takeRows s.cur p' (t.setCore (coreOf s.cur) y)) := ht.of_mem_eq (takeRows_mem ..)
    have hf := hr.of_mem_eq (storeFlight_mem _ s.cur p old)
    generalize storeFlight _ s.cur p old = u at hf ⊢
    obtain ⟨seq, u⟩ := u
    dsimp only
    generalize hv : atomLanes _ _ _ _ _ _ _ _ _ = v
    have hw : MemoryCanonical v.2 := hv ▸ atomLanes_canonical (of_option (hf.of_mem_eq (modStore_mem ..)) fun _ => hf)
    obtain ⟨⟨_ | _, vals⟩, v⟩ := v
    · exact settleStore_canonical (MemoryCanonical.of_mem_eq hw (landIn_mem ..))
    · exact stopLanes_canonical (MemoryCanonical.of_mem_eq hw (landIn_mem ..))

theorem laneAtomic_canonical {i : Instr} {bytes : Nat} {e : Scope} {ordered : Bool} {d : VReg} {ins : Nat} {a : VReg} {sb : SReg}
    {f : List Word → BusRequest} {s : State} (hs : MemoryCanonical s) :
    CanonicalOut (laneAtomic i bytes e ordered d ins a sb f s) := by
  refine perform_canonical hs fun _ => of_option ?_ fun _ => regated_canonical hs (atomicLanes_canonical hs)
  exact gated_canonical hs fun _ => of_ite hs (of_option (rowWait_canonical hs) fun _ => atomicLanes_canonical hs)

theorem redLanes_canonical {k seq : Nat} {f : LaneGo → State → Option (Image × Cause) × State} {gos : List LaneGo} {s : State}
    (hs : MemoryCanonical s) (hf : ∀ g t, MemoryCanonical t → MemoryCanonical (f g t).2) :
    MemoryCanonical (redLanes k seq f gos s).2 := by
  induction gos generalizing s with
  | nil => exact hs
  | cons g gs ih =>
    exact of_option (P := SndCanonical) (ih (hf _ _ hs)) fun _ => hf _ _ hs

theorem reduceLanes_canonical {x : Shape} {f : Nat → LaneGo → State → Option (Image × Cause) × State} {s : State} {p : Ply}
    {reqs : List LaneReq} {old : Option Unfinished} (hs : MemoryCanonical s)
    (hf : ∀ n g t, MemoryCanonical t → MemoryCanonical (f n g t).2) : (reduceLanes x f s p reqs old).Canonical := by
  unfold reduceLanes
  refine reachLanes_canonical hs fun t gos left pages ht => ?_
  have hr (n : Nat) (u : State) (hu : MemoryCanonical u) : MemoryCanonical (redLanes s.cur n (f n) gos u).2 :=
    redLanes_canonical hu (hf n)
  have hu := ht.of_mem_eq (storeFlight_mem t s.cur p old)
  exact of_option (settleStore_canonical (hr _ _ hu)) fun _ => stopLanes_canonical (hr _ _ hu)

theorem laneReduce_canonical {i : Instr} {x : Shape} {d a : VReg} {reqs : Core → Ply → List VReg → List LaneReq}
    {f : Nat → LaneGo → State → Option (Image × Cause) × State} {s : State} (hs : MemoryCanonical s)
    (hf : ∀ n g t, MemoryCanonical t → MemoryCanonical (f n g t).2) : CanonicalOut (laneReduce i x d a reqs f s) := by
  refine perform_canonical hs fun _ => of_option ?_ fun _ => ?_
  · exact gated_canonical hs fun _ => of_ite hs (reduceLanes_canonical hs (fun _ _ _ ht => hf _ _ _ ht))
  · exact regated_canonical hs (reduceLanes_canonical hs (fun _ _ _ ht => hf _ _ _ ht))

theorem redLane_canonical {k seq : Nat} {op : AtomOp} {x : Spot} {v : DWord} {s : State} (hs : MemoryCanonical s) :
    MemoryCanonical (redLane k seq op x v s).2 :=
  of_option (P := SndCanonical) (reduceOne_canonical (reduceRead_canonical hs)) fun _ => reduceRead_canonical hs

theorem execRed_canonical {d a : VReg} {sb : SReg} {op : AtomOp} {e : Scope} {s : State} (hs : MemoryCanonical s) :
    CanonicalOut (execRed d a sb op e s) := laneReduce_canonical hs fun _ _ _ ht => redLane_canonical ht

theorem redqLane_canonical {k : Nat} {tenant : Option (BitVec 4)} {q : QFmt} {seq : Nat} {g : LaneGo} {s : State}
    (hs : MemoryCanonical s) : MemoryCanonical (redqLane k tenant q seq g s).2 := by
  unfold redqLane
  dsimp only
  repeat' split
  · exact plainRead_canonical (hs.of_mem_eq (hintL2_mem ..))
  · exact reduceRead_canonical (plainRead_canonical (hs.of_mem_eq (hintL2_mem ..)))
  · exact reduceOne_canonical (writeOne_canonical (reduceRead_canonical (plainRead_canonical (hs.of_mem_eq (hintL2_mem ..)))))
  · exact hs

theorem execRedq_canonical {d a : VReg} {sb : SReg} {q : QFmt} {e : Scope} {s : State} (hs : MemoryCanonical s) :
    CanonicalOut (execRedq d a sb q e s) := laneReduce_canonical hs fun _ _ _ ht => redqLane_canonical ht

theorem applyPref_canonical {kind : PrefKind} {c : Nat} {tenant : Option (BitVec 4)} {x : Nat} {s : State}
    (hs : MemoryCanonical s) : MemoryCanonical (applyPref kind c tenant x s) := by
  unfold applyPref
  cases targetAt s.io x with
  | memory =>
    cases kind with
    | l2 => exact of_ite hs (hs.of_mem_eq (touchL2_mem ..))
    | l1 => exact plainRead_canonical (of_ite hs (hs.of_mem_eq (touchL2_mem ..)))
    | keep => exact hs.of_mem_eq (touchL2_mem ..)
    | demote => exact hs.of_mem_eq (dropL1_mem ..)
    | release => exact hs
  | package | host => exact of_ite (plainRead_canonical hs) (of_ite (hs.of_mem_eq (dropL1_mem ..)) hs)
  | register | absent => exact hs

@[simp] theorem dropHint_mem (k : Nat) (s : State) : (dropHint k s).mem = s.mem := State.modPly_mem ..

theorem prefLane_canonical {k : Nat} {p : Ply} {kind : PrefKind} {s : State} {va : DWord} (hs : MemoryCanonical s) :
    MemoryCanonical (prefLane k p kind s va) := by
  unfold prefLane
  dsimp only
  have hd : MemoryCanonical (dropHint k s) := hs.of_mem_eq (dropHint_mem ..)
  generalize hr : translate _ _ _ s = r
  have ht : MemoryCanonical r.2 := hr ▸ translate_canonical hs
  obtain ⟨_ | _ | _, t⟩ := r
  · refine of_dite (fun h => ?_) fun _ => hd
    subst h
    unfold Eq.ndrec_symm
    dsimp only
    exact of_check_ok (applyPref_canonical ht) hd
  all_goals exact hd

theorem execPref_canonical {kind : PrefKind} {a : VReg} {sb : SReg} {s : State} (hs : MemoryCanonical s) :
    CanonicalOut (execPref kind a sb s) :=
  perform_canonical hs fun _ => gated_canonical hs fun _ => foldl_canonical (fun _ _ ht => prefLane_canonical ht) _ hs

theorem reissue_canonical {k fuel : Nat} {s : State} (hs : MemoryCanonical s) : MemoryCanonical (reissue k fuel s) := by
  induction fuel generalizing s with
  | zero => exact hs
  | succ fuel ih =>
    refine of_option hs fun _ => of_option hs fun _ => of_option hs fun _ => ?_
    refine of_option ?_ fun _ => (placeLanes_canonical hs).of_mem_eq (takeCause_mem ..)
    refine of_ite ((placeLanes_canonical hs).of_mem_eq (parkOnPages_mem ..)) ?_
    split
    · exact (placeLanes_canonical hs).of_mem_eq (takeCause_mem ..)
    · refine of_option (ih ((readLanes_canonical (placeLanes_canonical hs)).of_mem_eq (State.modCore_mem ..))) fun _ => ?_
      exact ((readLanes_canonical (placeLanes_canonical hs)).of_mem_eq (consumeRecord_mem ..)).of_mem_eq (takeCause_mem ..)

/-! ### Machine/UniformMem.lean -/

theorem reachOne_canonical {s : State} {p : Ply} {x : Shape} {va : DWord} {go : State → Spot → Res} (hs : MemoryCanonical s)
    (hg : ∀ t y, MemoryCanonical t → (go t y).Canonical) : (reachOne s p x va go).Canonical :=
  reachLanes_canonical hs fun _ _ _ _ ht => of_list (ht.of_mem_eq (parkOnPages_mem ..)) fun _ _ => hg _ _ ht

theorem memPoison_canonical {s : State} {p : Ply} {i : Image} {c : Cause} {va : DWord} (hs : MemoryCanonical s) :
    (memPoison s p i c va).Canonical :=
  hs.of_mem_eq (consumeRecord_mem ..)

theorem uniformRead_canonical {d : SReg} {e : Option Scope} {n : Nat} {va : DWord} {s : State} {p : Ply} (hs : MemoryCanonical s) :
    (uniformRead d e n va s p).Canonical := by
  refine of_ite trivial (reachOne_canonical hs fun _ _ ht => ?_)
  refine of_option ?_ fun _ => memPoison_canonical (readOne_canonical (ht.of_mem_eq (hintL2_mem ..)))
  exact (readOne_canonical (ht.of_mem_eq (hintL2_mem ..))).of_mem_eq (State.modPly_mem ..)

theorem uniformWrite_canonical {d : SReg} {e : Option Scope} {n : Nat} {va : DWord} {s : State} {p : Ply} (hs : MemoryCanonical s) :
    (uniformWrite d e n va s p).Canonical := by
  unfold uniformWrite
  exact reachOne_canonical hs fun _ _ ht => writeOne_canonical (ht.of_mem_eq (by simp))

theorem uniformAtomic_canonical {ws : List (BitVec 32)} {g : Guard} {d sb : SReg} {e : Scope} {ordered : Bool} {n : Nat}
    {f : Ply → BusRequest} {s : State} (hs : MemoryCanonical s) : CanonicalOut (uniformAtomic ws g d sb e ordered n f s) := by
  refine guarded_canonical hs fun _ => reachOne_canonical hs fun _ _ ht => of_option ?_ fun _ => ?_
  · exact (atomicOne_canonical (ht.of_mem_eq (enterStore_mem ..))).of_mem_eq (State.modPly_mem ..)
  · exact memPoison_canonical ((atomicOne_canonical (ht.of_mem_eq (enterStore_mem ..))).of_mem_eq (State.modCore_mem ..))

theorem fenceAt_canonical {i : Instr} {e : Scope} {g : Guard} {rel acq : Bool} {s : State} (hs : MemoryCanonical s) :
    CanonicalOut (fenceAt i e g rel acq s) := by
  refine guarded_canonical hs fun _ => of_ite hs ?_
  exact of_ite ((of_ite (release_canonical (hs.of_mem_eq (noteClamp_mem ..)))
    ((hs.of_mem_eq (noteClamp_mem ..)).of_mem_eq (landLoads_mem ..))).of_mem_eq (acquire_mem ..))
    (of_ite (release_canonical (hs.of_mem_eq (noteClamp_mem ..))) ((hs.of_mem_eq (noteClamp_mem ..)).of_mem_eq (landLoads_mem ..)))

theorem execWaitc_canonical {d sb : SReg} {e : Scope} {wide : Bool} {c : WaitCond} {g : Guard} {s : State}
    (hs : MemoryCanonical s) : CanonicalOut (execWaitc d sb e wide c g s) := by
  refine guarded_canonical hs fun _ => reachOne_canonical hs fun _ _ ht => ?_
  refine of_option ?_ fun _ => memPoison_canonical (homeRead_canonical ht)
  exact of_ite ((homeRead_canonical ht).of_mem_eq (acquire_mem ..)) (homeRead_canonical ht)

theorem execWaitn_canonical {l st : BitVec 6} {c : BitVec 5} {m : BitVec 4} {g : Guard} {s : State} (hs : MemoryCanonical s) :
    CanonicalOut (execWaitn l st c m g s) := guarded_canonical hs fun _ => of_ite hs hs

/-! ### Machine/Tiles.lean -/

@[simp] theorem State.modTeam_mem (s : State) (t : Nat) (f : Team → Team) : (State.modTeam s t f).mem = s.mem :=
  of_option (P := SameMem s) rfl fun _ => State.setTeam_mem ..

@[simp] theorem State.setTile_mem (s : State) (t h : Nat) (x : Tile) : (State.setTile s t h x).mem = s.mem := State.modTeam_mem ..

@[simp] theorem State.modTile_mem (s : State) (t h : Nat) (f : Tile → Tile) : (State.modTile s t h f).mem = s.mem :=
  of_option (P := SameMem s) rfl fun _ => State.setTile_mem ..

theorem allocTile_mem {s t : State} {n h : Nat} {x : Tile} (e : allocTile s n h x = some t) : t.mem = s.mem := by
  unfold allocTile at e
  (repeat' split at e) <;> cases e
  simp

theorem execTalloc_canonical {a : SReg} {g : Guard} {s : State} (hs : MemoryCanonical s) : CanonicalOut (execTalloc a g s) := by
  refine guarded_canonical hs fun _ => of_option hs fun _ => of_except (fun _ => hs) fun _ => ?_
  exact of_option_eq (P := Res.Canonical) hs fun _ h => (hs.of_mem_eq (allocTile_mem h)).of_mem_eq (State.setPly_mem ..)

theorem execTalloct_canonical {d a : SReg} {g : Guard} {s : State} (hs : MemoryCanonical s) :
    CanonicalOut (execTalloct d a g s) := by
  refine guarded_canonical hs fun _ => of_option hs fun _ => of_except (fun _ => hs) fun _ => of_option hs fun _ => ?_
  exact of_option_eq (P := Res.Canonical) hs fun _ h => (hs.of_mem_eq (allocTile_mem h)).of_mem_eq (State.setPly_mem ..)

theorem execTfree_canonical {a : SReg} {g : Guard} {s : State} (hs : MemoryCanonical s) : CanonicalOut (execTfree a g s) := by
  refine guarded_canonical hs fun _ => ?_
  exact of_some (fun _ => of_some (fun _ => of_ite hs (of_ite trivial (hs.of_mem_eq (State.modTeam_mem ..)))) hs) hs

@[simp] theorem correctTile_mem (t h off n : Nat) (s : State) : (correctTile t h off n s).mem = s.mem := by
  unfold correctTile; dsimp only; (repeat' split) <;> simp [foldl_mem]

@[simp] theorem tileRecord_mem (t : Nat) (x : Tile) (i : Image) (who : DWord) (s : State) :
    (tileRecord t x i who s).mem = s.mem := by
  unfold tileRecord; split <;> simp

theorem onTile_canonical {s : State} {p : Ply} {h n : Nat} {offs : List Nat} {go : Nat → Tile → Res} (hs : MemoryCanonical s)
    (hg : ∀ t x, (go t x).Canonical) : (onTile s p h n offs go).Canonical :=
  of_some (fun _ => of_some (fun _ => of_option (of_ite trivial (hg _ _)) fun _ => hs) hs) hs

theorem execTld_canonical {d a : VReg} {h : BitVec 8} {z : Size} {x : Bool} {s : State} (hs : MemoryCanonical s) :
    CanonicalOut (execTld d a h z x s) := by
  refine perform_canonical hs fun _ => gated_canonical hs fun _ => of_ite hs (onTile_canonical hs fun _ _ => ?_)
  refine of_ite (rowWait_canonical hs) (of_option ?_ fun _ => ?_)
  · refine of_option ?_ fun _ => ?_
    · exact rowWait_canonical (foldl_canonical (fun _ _ ht => ht.of_mem_eq (correctTile_mem ..)) _ hs)
    · exact (((foldl_canonical (fun _ _ ht => ht.of_mem_eq (correctTile_mem ..)) _ hs).of_mem_eq (State.setCore_mem ..)).of_mem_eq
        (takeRows_mem ..)).of_mem_eq (State.bump_mem ..)
  · exact (foldl_canonical (fun _ _ ht => ht.of_mem_eq (correctTile_mem ..)) _ hs).of_mem_eq (tileRecord_mem ..)

theorem execTst_canonical {d a : VReg} {h : BitVec 8} {z : Size} {s : State} (hs : MemoryCanonical s) :
    CanonicalOut (execTst d a h z s) := by
  refine perform_canonical hs fun _ => gatedData_canonical hs fun _ => of_ite hs ?_
  exact onTile_canonical hs fun _ _ => (hs.of_mem_eq (State.setTile_mem ..)).of_mem_eq (enterStore_mem ..)

theorem fetchBytes_canonical {s : State} {p : Ply} {n : Nat} {va : DWord} {go : State → List Byte → Res} (hs : MemoryCanonical s)
    (hg : ∀ t bs, MemoryCanonical t → (go t bs).Canonical) : (fetchBytes s p n va go).Canonical := by
  refine of_ite trivial (reachOne_canonical hs fun _ _ ht => ?_)
  refine of_option (hg _ _ (plainRead_canonical (ht.of_mem_eq (hintL2_mem ..)))) fun _ => ?_
  exact memPoison_canonical (plainRead_canonical (ht.of_mem_eq (hintL2_mem ..)))

theorem execTbind_canonical {d : TReg} {a : SReg} {g : Guard} {s : State} (hs : MemoryCanonical s) :
    CanonicalOut (execTbind d a g s) := by
  refine guarded_canonical hs fun _ => ?_
  exact fetchBytes_canonical hs fun _ _ ht => of_option ht fun _ => ht.of_mem_eq (State.modPly_mem ..)

theorem execBshr_canonical {d : BitVec 4} {a b : SReg} {g : Guard} {s : State} (hs : MemoryCanonical s) :
    CanonicalOut (execBshr d a b g s) :=
  guarded_canonical hs fun _ => of_option hs fun _ => of_ite (hs.of_mem_eq (State.modTeam_mem ..)) hs

/-! ### Machine/Engines.lean -/

@[simp] theorem takeTiles_mem (t : Nat) (hs : List Nat) (s : State) : (takeTiles t hs s).mem = s.mem :=
  foldl_mem (fun _ _ => State.modTile_mem ..) _ _

@[simp] theorem releaseTiles_mem (t : Nat) (hs : List Nat) (s : State) : (releaseTiles t hs s).mem = s.mem :=
  foldl_mem (fun _ _ => State.modTile_mem ..) _ _

@[simp] theorem reachZero_mem (k : Nat) (c : CReg) (s : State) : (reachZero k c s).mem = s.mem := State.modPly_mem ..

@[simp] theorem landBytes_mem (k uid : Nat) (c : CReg) (n : Nat) (s : State) : (landBytes k uid c n s).mem = s.mem :=
  of_option (P := SameMem s) rfl fun _ => of_ite (State.setPly_mem ..) ((reachZero_mem ..).trans (State.setPly_mem ..))

@[simp] theorem modCopy_mem (core seq : Nat) (f : Copy → Copy) (s : State) : (modCopy core seq f s).mem = s.mem := rfl

@[simp] theorem endCopy_mem (core : Nat) (x : Copy) (s : State) : (endCopy core x s).mem = s.mem :=
  (releaseTiles_mem ..).trans (State.modCore_mem ..)

@[simp] theorem stopCopy_mem (core : Nat) (x : Copy) (cause : Cause) (va : DWord) (s : State) :
    (stopCopy core x cause va s).mem = s.mem :=
  of_option (P := SameMem s) (endCopy_mem ..) fun _ => (State.setPly_mem ..).trans (endCopy_mem ..)

@[simp] theorem unwaitCopy_mem (core seq : Nat) (s : State) : (unwaitCopy core seq s).mem = s.mem := rfl

theorem translateWalk_canonical {v : Viewer} {va : DWord} {need : Need} {s : State} (hs : MemoryCanonical s) :
    MemoryCanonical (translateWalk v va need s).2 :=
  of_ite (P := SndCanonical) (of_ite (P := SndCanonical) hs hs) (of_ite (P := SndCanonical) hs (lookup_canonical hs))

theorem blockAccess_canonical {x : Copy} {va : DWord} {need : Need} {n : Nat} {s : State} {go : Nat → State → Landing}
    (hs : MemoryCanonical s) (hg : ∀ a t, MemoryCanonical t → (go a t).Canonical) : (blockAccess x va need n s go).Canonical := by
  refine of_trans (fun _ _ _ => ?_) (fun _ => translateWalk_canonical hs) fun _ => translateWalk_canonical hs
  exact of_check (hg _ _ (translateWalk_canonical hs)) (fun _ => translateWalk_canonical hs) fun _ => trivial

theorem landBlock_canonical {core : Nat} {x : Copy} {tile src : Tile} {off n : Nat} {s : State} (hs : MemoryCanonical s) :
    (landBlock core x tile src off n s).Canonical := by
  have hput (o : Nat) (bs : List Byte) (t : State) (ht : MemoryCanonical t) :
      MemoryCanonical (t.modTile x.team x.tile fun t => t.write o bs none) := ht.of_mem_eq (State.modTile_mem ..)
  have hc (team tile off : Nat) : MemoryCanonical (correctTile team tile off n s) := hs.of_mem_eq (correctTile_mem ..)
  unfold landBlock
  dsimp only
  cases x.kind with
  | cpyin =>
    cases x.record with
    | none => exact hput _ _ _ hs
    | some =>
      refine of_ite (blockAccess_canonical hs fun a t ht => ?_) (of_ite (hput _ _ _ hs) hs)
      have hh : MemoryCanonical (homeRead core x.who.tenant a n t).2 := homeRead_canonical ht
      exact of_option (hput _ _ _ hh) fun _ => hh.of_mem_eq (consumeRecord_mem ..)
  | cpyout =>
    cases x.record with
    | none => exact hput _ _ _ hs
    | some =>
      refine of_ite (blockAccess_canonical (hc ..) fun a t ht => ?_) hs
      refine of_option (of_register (P := MemoryCanonical) (fun _ => ioWrite_canonical ht) ?_) fun _ =>
        ht.of_mem_eq (tileRecord_mem ..)
      refine MemoryCanonical.of_mem_eq (homeWrite_canonical (MemoryCanonical.of_mem_eq ?_ (touchPlace_mem ..))) (dropL1_mem ..)
      exact of_ite ht (ht.of_mem_eq (noteWrote_mem ..))
  | tile => exact of_option (hput _ _ _ (hc ..)) fun _ => (hc ..).of_mem_eq (tileRecord_mem ..)
  | _ => exact hput _ _ _ hs

@[simp] theorem holdCopy_mem (core : Nat) (x : Copy) (level : Nat) (va : DWord) (s : State) :
    (holdCopy core x level va s).mem = s.mem :=
  of_ite (P := SameMem s) (stopCopy_mem ..) ((mergeMiss_mem ..).trans (modCopy_mem ..))

theorem copyBlock_canonical {core : Nat} {x : Copy} {off : Nat} {s t : State} (hs : MemoryCanonical s)
    (h : copyBlock core x off s = .ok t) : MemoryCanonical t := by
  revert h
  unfold copyBlock
  cases teamTile s (some x.team) x.tile with
  | none =>
    rintro ⟨⟩
    exact hs.of_mem_eq (stopCopy_mem ..)
  | some =>
    dsimp only
    generalize hr : landBlock _ _ _ _ _ _ s = r
    have hl : r.Canonical := hr ▸ landBlock_canonical hs
    cases r with
    | fault => rintro ⟨⟩
    | stop =>
      rintro ⟨⟩
      exact MemoryCanonical.of_mem_eq hl (stopCopy_mem ..)
    | held =>
      rintro ⟨⟩
      exact MemoryCanonical.of_mem_eq hl (holdCopy_mem ..)
    | landed =>
      rintro ⟨⟩
      refine MemoryCanonical.of_mem_eq (of_ite ?_ ?_) (landBytes_mem ..)
      · exact MemoryCanonical.of_mem_eq hl (endCopy_mem ..)
      · exact MemoryCanonical.of_mem_eq hl (modCopy_mem ..)

theorem issueCopy_canonical {i : Instr} {y : Bool} {s : State} {p : Ply} {x : Copy} {tile src : Tile} (hs : MemoryCanonical s) :
    (issueCopy i y s p x tile src).Canonical := by
  refine of_ite trivial (of_ite ?_ ?_)
  · exact ((((pushCore_canonical (hs.of_mem_eq (landLoads_mem ..))).of_mem_eq (takeTiles_mem ..)).of_mem_eq
      (State.modCore_mem ..)).of_mem_eq (State.bump_mem ..)).of_mem_eq (State.modPly_mem ..)
  · exact (((pushCore_canonical (hs.of_mem_eq (landLoads_mem ..))).of_mem_eq (takeTiles_mem ..)).of_mem_eq
      (State.modCore_mem ..)).of_mem_eq (State.bump_mem ..)

theorem copyForm_canonical {i : Instr} {kind : CopyKind} {h : Nat} {s : State} {go : Ply → Nat → Tile → Res}
    (hs : MemoryCanonical s) (hg : ∀ p t x, (go p t x).Canonical) : CanonicalOut (copyForm i kind h s go) :=
  perform_canonical hs fun _ => of_ite hs (of_some (fun _ => of_some (fun _ => hg _ _ _) hs) hs)

theorem tensorCopy_canonical {i : Instr} {kind : CopyKind} {h : BitVec 8} {t : TReg} {cb : SReg} {cr : CReg} {y : Bool} {s : State}
    (hs : MemoryCanonical s) : CanonicalOut (tensorCopy i kind h t cb cr y s) :=
  copyForm_canonical hs fun _ _ _ => of_option (issueCopy_canonical hs) fun _ => hs

theorem execCpytt_canonical {h : BitVec 8} {cb : SReg} {cr : CReg} {y : Bool} {s : State} (hs : MemoryCanonical s) :
    CanonicalOut (execCpytt h cb cr y s) :=
  copyForm_canonical hs fun _ _ _ => of_option hs fun _ => of_ite hs (of_ite hs (issueCopy_canonical hs))

theorem execCpyfill_canonical {h : BitVec 8} {cb : SReg} {cr : CReg} {y : Bool} {s : State} (hs : MemoryCanonical s) :
    CanonicalOut (execCpyfill h cb cr y s) := copyForm_canonical hs fun _ _ _ => of_ite hs (issueCopy_canonical hs)

theorem execCopyBlockLand_canonical {seq block : Nat} {s : State} (hs : MemoryCanonical s) :
    CanonicalOut (execCopyBlockLand seq block s) :=
  of_option trivial fun _ => of_ite trivial (of_except_eq (fun _ => trivial) fun _ h => copyBlock_canonical hs h)

theorem blockStop_canonical {s t : State} {core : Nat} {x : Copy} {c : Cause} {off : Nat} (hs : MemoryCanonical s)
    (h : blockStop s core x c off = some t) : MemoryCanonical t := by
  revert h
  unfold blockStop
  cases teamTile s (some x.team) x.tile with
  | none => rintro ⟨⟩
  | some =>
    dsimp only
    generalize hr : landBlock _ _ _ _ _ _ s = r
    have hl : r.Canonical := hr ▸ landBlock_canonical hs
    cases r with
    | stop c' va u =>
      refine of_ite (P := fun y => y = some t → MemoryCanonical t) ?_ ?_
      · rintro ⟨⟩
        exact hl
      · rintro ⟨⟩
    | landed | held | fault => rintro ⟨⟩

theorem execPageWalk_canonical {core seq ahead : Nat} {s : State} (hs : MemoryCanonical s) :
    CanonicalOut (execPageWalk core seq ahead s) :=
  of_option trivial fun _ => of_option trivial fun _ => of_ite trivial (translateWalk_canonical hs)

theorem execCopyStop_canonical {seq : Nat} {c : Cause} {s : State} (hs : MemoryCanonical s) :
    CanonicalOut (execCopyStop seq c s) := by
  refine of_option trivial fun y => of_option_eq trivial fun t h => ?_
  have hstop : y.2.left.findSome? (blockStop s y.1 y.2 c) = some t := by
    split at h
    · cases h
    · exact h
  obtain ⟨off, -, hoff⟩ := List.exists_of_findSome?_eq_some hstop
  exact (blockStop_canonical hs hoff).of_mem_eq ((stopCopy_mem ..).trans (unwaitCopy_mem ..))

/-! ### Machine/Press.lean -/

@[simp] theorem State.setPress_mem (s : State) (t n : Nat) (x : Press) : (State.setPress s t n x).mem = s.mem :=
  State.modTeam_mem ..

@[simp] theorem settlePress_mem (t n : Nat) (s : State) : (settlePress t n s).mem = s.mem :=
  of_option (P := SameMem s) rfl fun _ => rfl

@[simp] theorem breakSlot_mem (h : Held) (t : Nat) (s : State) : (breakSlot h t s).mem = s.mem :=
  of_option (P := SameMem s) rfl fun _ => of_ite (P := SameMem s) rfl ((settlePress_mem ..).trans (State.setPress_mem ..))

@[simp] theorem freeSlot_mem (k : Nat) (s : State) : (freeSlot k s).mem = s.mem := by
  refine of_option (P := SameMem s) rfl fun p => ?_
  refine of_option_mem (fun _ => breakSlot_mem ..) (of_ite_mem (State.modTeam_mem ..) ?_)
  refine (State.releaseMap_mem ..).trans ((disarm_mem ..).trans ((withdraw_mem ..).trans ?_))
  cases p.wait with
  | push => exact foldl_mem (fun _ _ => sendOrHold_mem ..) _ _
  | _ => rfl

@[simp] theorem cancelTickets_mem (t n : Nat) (s : State) : (cancelTickets t n s).mem = s.mem := rfl

theorem execPbind_canonical {n : BitVec 3} {a : SReg} {g : Guard} {s : State} (hs : MemoryCanonical s) :
    CanonicalOut (execPbind n a g s) := by
  refine guarded_canonical hs fun _ => fetchBytes_canonical hs fun _ _ ht => of_option ht fun _ => ?_
  refine of_option ht fun _ => ?_
  exact ((ht.of_mem_eq (State.modTeam_mem ..)).of_mem_eq (cancelTickets_mem ..)).of_mem_eq (settlePress_mem ..)

theorem execPtkt_canonical {n : BitVec 3} {g : Guard} {s : State} (hs : MemoryCanonical s) : CanonicalOut (execPtkt n g s) := by
  refine guarded_canonical hs fun p => ?_
  repeat' split
  · exact hs
  · exact hs
  · exact hs.of_mem_eq (State.setPly_mem ..)
  · exact hs.of_mem_eq (State.setPly_mem ..)
  · exact hs
  · exact ((hs.of_mem_eq (State.setPly_mem ..)).of_mem_eq (State.setPress_mem ..)).of_mem_eq (settlePress_mem ..)

theorem heldForm_canonical {ws : List (BitVec 32)} {n : BitVec 3} {g : Guard} {s : State} {go : Ply → Press → Held → Res}
    (hs : MemoryCanonical s) (hg : ∀ p x h, (go p x h).Canonical) : CanonicalOut (heldForm ws n g s go) :=
  guarded_canonical hs fun _ => of_option hs fun _ => of_option hs fun _ => hg _ _ _

theorem execPdone_canonical {n : BitVec 3} {g : Guard} {s : State} (hs : MemoryCanonical s) : CanonicalOut (execPdone n g s) := by
  refine heldForm_canonical hs fun _ _ _ => of_ite hs ?_
  exact (((release_canonical hs).of_mem_eq (State.setPly_mem ..)).of_mem_eq (State.setPress_mem ..)).of_mem_eq (settlePress_mem ..)

theorem execPwait_canonical {n : BitVec 3} {g : Guard} {s : State} (hs : MemoryCanonical s) : CanonicalOut (execPwait n g s) :=
  heldForm_canonical hs fun _ _ _ => of_option hs fun _ => hs.of_mem_eq (State.setPly_mem ..)

theorem execGive_canonical {d : VReg} {g : Guard} {s : State} (hs : MemoryCanonical s) : CanonicalOut (execGive d g s) := by
  refine guarded_canonical hs fun _ => ?_
  exact of_ite trivial ((hs.of_mem_eq (State.releaseMap_mem ..)).of_mem_eq (State.setPly_mem ..))

theorem execClaim_canonical {d : VReg} {g : Guard} {s : State} (hs : MemoryCanonical s) : CanonicalOut (execClaim d g s) := by
  refine guarded_canonical hs fun _ => ?_
  exact of_option (rowWait_canonical hs) fun _ => (hs.of_mem_eq (State.setCore_mem ..)).of_mem_eq (State.setPly_mem ..)

/-! ### Machine/Barrier.lean -/

@[simp] theorem setBar_mem (s : State) (p : Ply) (core : Nat) (id : BitVec 4) (e : Scope) (b : Barrier) :
    (setBar s p core id e b).mem = s.mem := by
  unfold setBar; split <;> simp

@[simp] theorem wakeBar_mem (k : Nat) (e : Scope) (ph : BitVec 32) (d : Option SReg) (s : State) :
    (wakeBar k e ph d s).mem = s.mem := by
  simp [wakeBar]

@[simp] theorem settleBar_mem (run team : Nat) (id : BitVec 4) (e : Scope) (inst : Nat) (ph : BitVec 32) (s : State) :
    (settleBar run team id e inst ph s).mem = s.mem := by
  refine foldl_mem (fun t _ => of_option (P := SameMem t) rfl fun p => ?_) _ _
  cases p.wait with
  | barrier => exact of_ite (P := SameMem t) (wakeBar_mem ..) rfl
  | _ => rfl

theorem arriveBar_canonical {s : State} {p : Ply} {id : BitVec 4} {e : Scope} {a d : SReg} {r : State × BitVec 32 × Bool}
    (hs : MemoryCanonical s) (h : arriveBar s p id e a d = some r) : MemoryCanonical r.1 := by
  revert h
  unfold arriveBar
  dsimp only
  cases getBar s p (coreOf s.cur) id e with
  | none => rintro ⟨⟩
  | some b =>
    cases expected s p e a with
    | none => rintro ⟨⟩
    | some n =>
      dsimp only
      cases b.arrive n with
      | none => rintro ⟨⟩
      | some b' =>
        rintro ⟨⟩
        refine MemoryCanonical.of_mem_eq (of_ite ?_ ?_) (settleBar_mem ..)
        all_goals exact (release_canonical hs).of_mem_eq (setBar_mem ..)

theorem execBara_canonical {id : BitVec 4} {e : Scope} {a d : SReg} {g : Guard} {s : State} (hs : MemoryCanonical s) :
    CanonicalOut (execBara id e a d g s) :=
  guarded_canonical hs fun _ => of_option_eq hs fun _ h => arriveBar_canonical hs h

theorem waitBar_canonical {s : State} {id : BitVec 4} {e : Scope} {phase : BitVec 32} (hs : MemoryCanonical s) :
    (waitBar s id e phase).Canonical :=
  hs.of_mem_eq (State.modPly_mem ..)

theorem doneBar_canonical {s : State} {e : Scope} (hs : MemoryCanonical s) : (doneBar s e).Canonical :=
  hs.of_mem_eq (by simp)

theorem execBaraw_canonical {id : BitVec 4} {e : Scope} {a d : SReg} {g : Guard} {s : State} (hs : MemoryCanonical s) :
    CanonicalOut (execBaraw id e a d g s) := by
  refine guarded_canonical hs fun _ => of_ite ?_ ?_
  · exact of_option hs fun _ => of_ite (doneBar_canonical hs) (waitBar_canonical hs)
  · refine of_option_eq hs fun r h => ?_
    have ht : MemoryCanonical r.1 := arriveBar_canonical hs h
    exact of_ite (doneBar_canonical ht) (waitBar_canonical ht)

theorem execBarw_canonical {id : BitVec 4} {e : Scope} {d : SReg} {g : Guard} {s : State} (hs : MemoryCanonical s) :
    CanonicalOut (execBarw id e d g s) := by
  refine guarded_canonical hs fun _ => of_option hs fun _ => of_ite ?_ (hs.of_mem_eq (State.setPly_mem ..))
  exact ((hs.of_mem_eq (State.setPly_mem ..)).of_mem_eq (State.modPly_mem ..)).of_mem_eq (acquire_mem ..)

theorem execPodBarrierMessage_canonical {run : Nat} {id : BitVec 4} {m : PodBarrier} {s : State} (hs : MemoryCanonical s) :
    CanonicalOut (execPodBarrierMessage run id m s) := by
  refine of_option trivial fun _ => of_ite trivial ?_
  cases m with
  | arrival => exact of_option trivial fun _ => hs.of_mem_eq ((settleBar_mem ..).trans (State.setRun_mem ..))
  | complete => exact of_ite trivial (hs.of_mem_eq ((settleBar_mem ..).trans (State.setRun_mem ..)))

/-! ### Machine/Control.lean -/

theorem branchTo_canonical {s : State} {v : DWord} {p : Ply} (hs : MemoryCanonical s) : (branchTo s v p).Canonical :=
  of_ite hs (of_ite hs (hs.of_mem_eq (State.setPly_mem ..)))

theorem execBrv_canonical {o : BitVec 21} {n : Bool} {pr : PReg} {s : State} (hs : MemoryCanonical s) :
    CanonicalOut (execBrv o n pr s) :=
  perform_canonical hs fun _ => of_ite (of_ite hs (hs.of_mem_eq (State.setPly_mem ..))) (of_ite hs hs)

theorem execKmeet_canonical {k : KReg} {g : Guard} {s : State} (hs : MemoryCanonical s) : CanonicalOut (execKmeet k g s) := by
  refine guarded_canonical hs fun _ => of_ite hs ?_
  exact of_ite (of_list hs fun _ _ => hs.of_mem_eq (State.setPly_mem ..)) (of_ite hs (hs.of_mem_eq (State.setPly_mem ..)))

/-! ### Machine/Queue.lean -/

theorem queueOp_canonical {s : State} {p : Ply} {va : DWord} {go : State → Nat → Queue → Res} (hs : MemoryCanonical s)
    (hg : ∀ t x q, MemoryCanonical t → (go t x q).Canonical) : (queueOp s p va go).Canonical := by
  refine reachOne_canonical hs fun t x ht => ?_
  have hq := loadQueue_canonical (core := some (coreOf t.cur)) (tenant := (viewer t.cur p).tenant) (x := x.at_)
    (kind := queueKind t x.at_) ht
  split
  · rename_i heq; rw [heq] at hq; exact memPoison_canonical hq
  · rename_i heq; rw [heq] at hq; exact hq
  · rename_i heq; rw [heq] at hq; exact hg _ _ _ hq

theorem ringOp_canonical {s : State} {p : Ply} {k : DWord} {go : State → Nat → Queue → Res} (hs : MemoryCanonical s)
    (hg : ∀ t x q, MemoryCanonical t → (go t x q).Canonical) : (ringOp s p k go).Canonical := by
  have hq := loadQueue_canonical (core := some (coreOf s.cur)) (tenant := (viewer s.cur p).tenant) (x := ringPlace s k.toNat)
    (kind := .ring k.toNat) hs
  unfold ringOp
  dsimp only
  split
  · exact hs
  · split
    · exact hs
    · split
      · rename_i heq; rw [heq] at hq; exact memPoison_canonical hq
      · rename_i heq; rw [heq] at hq; exact hq
      · rename_i heq; rw [heq] at hq; exact hg _ _ _ hq

theorem reachEntry_canonical {s : State} {p : Ply} {q : Queue} {need : Need} {i : DWord} {go : State → Nat → Res}
    (hs : MemoryCanonical s) (hg : ∀ t x, MemoryCanonical t → (go t x).Canonical) : (reachEntry s p q need i go).Canonical :=
  of_ite (hg _ _ hs) (reachOne_canonical hs (fun _ _ ht => hg _ _ ht))

theorem reachEntries_canonical {s : State} {p : Ply} {q : Queue} {need : Need} {n : Nat} {i : DWord} {xs : List Nat}
    {go : State → List Nat → Res} (hs : MemoryCanonical s) (hg : ∀ t xs, MemoryCanonical t → (go t xs).Canonical) :
    (reachEntries s p q need n i xs go).Canonical := by
  induction n generalizing s i xs with
  | zero => exact hg _ _ hs
  | succ n ih =>
    unfold reachEntries
    exact reachEntry_canonical hs fun _ _ ht => ih ht

theorem popOne_canonical {s : State} {p : Ply} {x : Nat} {q : Queue} {d : SReg} {upd : Ply → Ply} {drop : Bool}
    (hs : MemoryCanonical s) : (popOne s p x q d upd drop).Canonical := by
  refine reachEntry_canonical hs fun _ _ ht => of_option ?_ fun _ => memPoison_canonical (homeRead_canonical ht)
  exact (of_ite (((homeRead_canonical ht).of_mem_eq (putQueue_mem ..)).of_mem_eq (acquire_mem ..))
    (homeRead_canonical ht)).of_mem_eq (State.modPly_mem ..)

theorem parkOnQueue_canonical {s : State} {p : Ply} {x : Nat} {q : Queue} {d : SReg} {mbox : Bool} (hs : MemoryCanonical s) :
    (parkOnQueue s p x q d mbox).Canonical :=
  hs

theorem execQpop_canonical {d a : SReg} {g : Guard} {s : State} (hs : MemoryCanonical s) : CanonicalOut (execQpop d a g s) := by
  refine guarded_canonical hs fun _ => ?_
  exact queueOp_canonical hs fun _ _ _ ht => of_ite (parkOnQueue_canonical ht) (popOne_canonical ht)

theorem execQpopt_canonical {d a : SReg} {g : Guard} {s : State} (hs : MemoryCanonical s) : CanonicalOut (execQpopt d a g s) := by
  refine guarded_canonical hs fun _ => ?_
  exact queueOp_canonical hs fun _ _ _ ht => of_ite (ht.of_mem_eq (State.modPly_mem ..)) (popOne_canonical ht)

theorem readEntries_canonical {c : Nat} {tenant : Option (BitVec 4)} {xs : List Nat} {s : State} (hs : MemoryCanonical s) :
    MemoryCanonical (readEntries c tenant xs s).2 := by
  induction xs generalizing s with
  | nil => exact hs
  | cons x xs ih => exact ih (homeRead_canonical hs)

theorem execQpopl_canonical {d : VReg} {a : SReg} {b : PReg} {g : Guard} {s : State} (hs : MemoryCanonical s) :
    CanonicalOut (execQpopl d a b g s) := by
  refine guarded_canonical hs fun _ => of_ite hs (gated_canonical hs fun _ => ?_)
  refine queueOp_canonical hs fun _ _ _ ht => of_ite (ht.of_mem_eq (State.modPly_mem ..)) ?_
  refine of_ite (rowWait_canonical hs) (reachEntries_canonical ht fun _ _ ht => ?_)
  refine of_option ?_ fun _ => memPoison_canonical (readEntries_canonical ht)
  refine of_option (rowWait_canonical hs) fun _ => ?_
  exact ((((((readEntries_canonical ht).of_mem_eq (State.setCore_mem ..)).of_mem_eq (takeRows_mem ..)).of_mem_eq
    (State.bump_mem ..)).of_mem_eq (putQueue_mem ..)).of_mem_eq (acquire_mem ..)).of_mem_eq (State.modPly_mem ..)

@[simp] theorem enterAll_mem (sender die ply run : Nat) (who : Viewer) (x : Nat) (kind : QueueKind) (es : List (List DWord))
    (s : State) : (enterAll sender die ply run who x kind es s).2.mem = s.mem := by
  induction es generalizing s with
  | nil => rfl
  | cons e es ih => unfold enterAll; split <;> simp [ih]

theorem pushEntries_canonical {s : State} {p : Ply} {x : Nat} {q : Queue} {es : List (List DWord)} {upd : Ply → Ply}
    (hs : MemoryCanonical s) : (pushEntries s p x q es upd).Canonical := by
  refine of_ite ?_ ?_
  · refine of_ite ?_ ?_
    · exact ((release_canonical hs).of_mem_eq (enterAll_mem ..)).of_mem_eq (State.modPly_mem ..)
    · exact ((release_canonical hs).of_mem_eq (enterAll_mem ..)).of_mem_eq (State.modPly_mem ..)
  · refine reachEntries_canonical hs fun _ _ ht => of_ite ?_ ?_
    · exact ((release_canonical ht).of_mem_eq (enterAll_mem ..)).of_mem_eq (State.modPly_mem ..)
    · exact ((release_canonical ht).of_mem_eq (enterAll_mem ..)).of_mem_eq (State.modPly_mem ..)

theorem execQpush_canonical {d a : SReg} {g : Guard} {s : State} (hs : MemoryCanonical s) : CanonicalOut (execQpush d a g s) :=
  guarded_canonical hs fun _ => queueOp_canonical hs fun _ _ _ ht => of_ite trivial (pushEntries_canonical ht)

theorem execQpushl_canonical {d : VReg} {a : SReg} {b : PReg} {g : Guard} {s : State} (hs : MemoryCanonical s) :
    CanonicalOut (execQpushl d a b g s) := by
  refine guarded_canonical hs fun _ => ?_
  exact gated_canonical hs fun _ => of_ite hs (queueOp_canonical hs (fun _ _ _ ht => pushEntries_canonical ht))

theorem execMboxSend_canonical {d a : SReg} {g : Guard} {s : State} (hs : MemoryCanonical s) :
    CanonicalOut (execMboxSend d a g s) :=
  guarded_canonical hs fun _ => ringOp_canonical hs fun _ _ _ ht => of_ite trivial (pushEntries_canonical ht)

theorem execMboxRecv_canonical {d a : SReg} {g : Guard} {s : State} (hs : MemoryCanonical s) :
    CanonicalOut (execMboxRecv d a g s) := by
  refine guarded_canonical hs fun _ => ?_
  exact ringOp_canonical hs fun _ _ _ ht => of_ite (parkOnQueue_canonical ht) (popOne_canonical ht)

theorem execMboxPeek_canonical {d a : SReg} {g : Guard} {s : State} (hs : MemoryCanonical s) :
    CanonicalOut (execMboxPeek d a g s) := by
  refine guarded_canonical hs fun _ => ?_
  exact ringOp_canonical hs fun _ _ _ ht => of_ite (ht.of_mem_eq (State.modPly_mem ..)) (popOne_canonical ht)

theorem execQueueEntryArrival_canonical {sender desc : Nat} {s : State} (hs : MemoryCanonical s) :
    CanonicalOut (execQueueEntryArrival sender desc s) := by
  refine of_option trivial fun w => of_option trivial fun e => of_ite (hs.of_mem_eq (setWindow_mem ..)) ?_
  have ha : (arrivalOf s w e).Canonical := arrivalOf_canonical hs
  generalize arrivalOf s w e = y at ha ⊢
  cases y with
  | taken => exact MemoryCanonical.of_mem_eq ha (setWindow_mem ..)
  | full => exact hs.of_mem_eq (setWindow_mem ..)
  | waits => trivial

theorem execQueueNack_canonical {sender desc : Nat} {s : State} (hs : MemoryCanonical s) :
    CanonicalOut (execQueueNack sender desc s) := of_option trivial fun _ => of_ite trivial (hs.of_mem_eq (setWindow_mem ..))

theorem execQueueBackoff_canonical {sender desc : Nat} {s : State} (hs : MemoryCanonical s) :
    CanonicalOut (execQueueBackoff sender desc s) := of_option trivial fun _ => of_ite trivial (hs.of_mem_eq (setWindow_mem ..))

@[simp] theorem enterWaiting_mem (k uid : Nat) (s : State) : (enterWaiting k uid s).mem = s.mem := by
  refine of_option (P := SameMem s) rfl fun p => ?_
  cases p.wait with
  | push => exact (State.modPly_mem ..).trans (enterAll_mem ..)
  | _ => rfl

@[simp] theorem dropWindow_mem (w : Window) (s : State) : (dropWindow w s).mem = s.mem := rfl

theorem execQueueAck_canonical {sender desc : Nat} {s : State} (hs : MemoryCanonical s) :
    CanonicalOut (execQueueAck sender desc s) := by
  refine of_option trivial fun _ => of_list trivial fun _ _ => of_ite trivial ?_
  exact ((of_ite (hs.of_mem_eq (dropWindow_mem ..)) (hs.of_mem_eq (setWindow_mem ..))).of_mem_eq (sendHeld_mem ..)).of_mem_eq
    (enterWaiting_mem ..)

/-! ### Machine/Latch.lean -/

@[simp] theorem wakeLatch_mem (key : Nat) (int : Bool) (s : State) : (wakeLatch key int s).mem = s.mem := by
  unfold wakeLatch
  dsimp only
  cases (s.latch key).waiters with
  | nil =>
    exact of_option (P := SameMem s) (countLatch_mem ..) fun _ => (State.modPly_mem ..).trans (State.putLatch_mem ..)
  | cons w =>
    cases w with
    | ply => exact (acquire_mem ..).trans ((State.modPly_mem ..).trans (State.putLatch_mem ..))
    | host => exact State.putLatch_mem s _ _

@[simp] theorem unitWake_mem (key : Nat) (s : State) : (unitWake key s).mem = s.mem :=
  of_ite (P := SameMem s) rfl (wakeLatch_mem ..)

theorem latchForm_canonical {ws : List (BitVec 32)} {a : SReg} {g : Guard} {s : State} {go : State → Ply → Nat → Res}
    (hs : MemoryCanonical s) (hg : ∀ t p n, MemoryCanonical t → (go t p n).Canonical) : CanonicalOut (latchForm ws a g s go) := by
  refine guarded_canonical hs fun _ => ?_
  exact of_option (of_ite hs (of_ite trivial (hg _ _ _ (hs.of_mem_eq (noteClamp_mem ..))))) fun _ => hs

@[simp] theorem takeCount_mem (key : Nat) (s : State) : (takeCount key s).mem = s.mem :=
  (acquire_mem ..).trans (State.putLatch_mem ..)

theorem execLwait_canonical {a : SReg} {g : Guard} {s : State} (hs : MemoryCanonical s) : CanonicalOut (execLwait a g s) :=
  latchForm_canonical hs fun _ _ _ ht => of_ite (ht.of_mem_eq (takeCount_mem ..)) (ht.of_mem_eq (State.putLatch_mem ..))

theorem execLwaitArm_canonical {a : SReg} {g : Guard} {s : State} (hs : MemoryCanonical s) : CanonicalOut (execLwaitArm a g s) := by
  refine latchForm_canonical hs fun _ _ _ ht => ?_
  refine of_ite ((ht.of_mem_eq (takeCount_mem ..)).of_mem_eq (State.modPly_mem ..)) ?_
  exact ((ht.of_mem_eq (disarm_mem ..)).of_mem_eq (State.putLatch_mem ..)).of_mem_eq (State.modPly_mem ..)

theorem lwakeForm_canonical {ws : List (BitVec 32)} {a : SReg} {g : Guard} {int : Bool} {s : State} (hs : MemoryCanonical s) :
    CanonicalOut (lwakeForm ws a g int s) :=
  latchForm_canonical hs fun _ _ _ ht => (release_canonical ht).of_mem_eq (wakeLatch_mem ..)

theorem aperture_canonical {vf : Nat} {s : State} {go : BitVec 4 → Out} (hs : MemoryCanonical s) (hg : ∀ t, CanonicalOut (go t)) :
    CanonicalOut (aperture vf s go) := of_ite trivial (of_option hs fun _ => hg _)

theorem execLatchWake_canonical {vf : Nat} {k : BitVec 64} {s : State} (hs : MemoryCanonical s) :
    CanonicalOut (execLatchWake vf k s) :=
  aperture_canonical hs fun _ => of_ite hs (of_ite trivial (hs.of_mem_eq (wakeLatch_mem ..)))

@[simp] theorem setWaiter_mem (vf n : Nat) (w : HostWaiter) (s : State) : (setWaiter vf n w s).mem = s.mem := rfl

@[simp] theorem joined_mem (s : State) : (joined s).mem = s.mem := of_ite (P := SameMem s) (admitWaiting_mem ..) rfl

theorem execLatchKey_canonical {vf n : Nat} {k : BitVec 64} {s : State} (hs : MemoryCanonical s) :
    CanonicalOut (execLatchKey vf n k s) := by
  refine aperture_canonical hs fun _ => of_ite trivial (of_ite hs (of_ite hs (of_ite hs ?_)))
  exact hs.of_mem_eq ((joined_mem _).trans (joinLatch_mem ..))

theorem execLatchStatus_canonical {vf n : Nat} {s : State} (hs : MemoryCanonical s) : CanonicalOut (execLatchStatus vf n s) := by
  refine aperture_canonical hs fun _ => of_ite trivial (of_ite ?_ (hs.of_mem_eq (setWaiter_mem ..)))
  refine of_option (hs.of_mem_eq (setWaiter_mem ..)) fun _ => ?_
  exact (hs.of_mem_eq (setWaiter_mem ..)).of_mem_eq (State.putLatch_mem ..)

theorem execNop_canonical {g : Guard} {s : State} (hs : MemoryCanonical s) : CanonicalOut (execNop g s) :=
  guarded_canonical hs fun _ => hs

theorem execYld_canonical {c : CReg} {g : Guard} {s : State} (hs : MemoryCanonical s) : CanonicalOut (execYld c g s) :=
  guarded_canonical hs fun _ => of_ite hs hs

theorem execBrk_canonical {g : Guard} {s : State} (hs : MemoryCanonical s) : CanonicalOut (execBrk g s) :=
  guarded_canonical hs fun _ => hs

theorem execIret_canonical {g : Guard} {s : State} (hs : MemoryCanonical s) : CanonicalOut (execIret g s) :=
  guarded_canonical hs fun _ => of_ite hs (hs.of_mem_eq (State.setPly_mem ..))

/-! ### Machine/Host.lean -/

theorem busPlace_canonical {port : Nat} {t : BitVec 4} {space va n : Nat} {need : Need} {s : State} (hs : MemoryCanonical s) :
    MemoryCanonical (busPlace port t space va n need s).2 := by
  refine of_trans (P := SndCanonical) (fun _ _ _ => ?_) (fun _ => ioTranslate_canonical hs) fun _ => ioTranslate_canonical hs
  exact ioTranslate_canonical hs

theorem busPlaces_canonical {port : Nat} {t : BitVec 4} {space : Nat} {need : Need} {ls : List (Nat × Nat)} {s : State}
    (hs : MemoryCanonical s) : MemoryCanonical (busPlaces port t space need ls s).2 := by
  induction ls generalizing s with
  | nil => exact hs
  | cons l ls ih =>
    refine of_except (P := SndCanonical) (fun _ => busPlace_canonical hs) fun _ => ?_
    exact of_except (P := SndCanonical) (fun _ => ih (busPlace_canonical hs)) fun _ => ih (busPlace_canonical hs)

theorem readPlaces_canonical {tenant : Option (BitVec 4)} {xs : List (Nat × Nat)} {s : State} (hs : MemoryCanonical s) :
    MemoryCanonical (readPlaces tenant xs s).2 := by
  induction xs generalizing s with
  | nil => exact hs
  | cons x xs ih =>
    exact ih (of_ite ((placeRead_canonical hs).of_mem_eq (consumeRecord_mem ..)) (placeRead_canonical hs))

theorem writePlaces_canonical {xs : List (Nat × Nat)} {bs : List Byte} {s : State} (hs : MemoryCanonical s) :
    MemoryCanonical (writePlaces xs bs s) := by
  induction xs generalizing bs s with
  | nil => exact hs
  | cons x xs ih =>
    exact ih (routeWrite_canonical hs (writeAt_canonical (combineLine_canonical (hs.of_mem_eq (touchPlace_mem ..)))))

theorem arrive_canonical {r : Inbound} {s : State} (hs : MemoryCanonical s) : CanonicalOut (arrive r s) := of_ite trivial hs

@[simp] theorem reply_mem (r : Inbound) (data : Option (List Byte)) (s : State) : (reply r data s).mem = s.mem := rfl

@[simp] theorem failInbound_mem (r : Inbound) (va level : Nat) (s : State) : (failInbound r va level s).mem = s.mem := by
  refine of_ite (P := SameMem s) ?_ ((reply_mem ..).trans (State.setLease_mem ..))
  exact (ringSend_mem ..).trans (of_ite (P := SameMem s) rfl (reply_mem ..))

theorem performAt_canonical {r : Inbound} {tenant : Option (BitVec 4)} {xs : List (Nat × Nat)} {s : State}
    (hs : MemoryCanonical s) : MemoryCanonical (performAt r tenant xs s) := by
  unfold performAt
  dsimp only
  repeat' split
  · exact (readPlaces_canonical hs).of_mem_eq (reply_mem ..)
  · exact (readPlaces_canonical hs).of_mem_eq (reply_mem ..)
  · exact writePlaces_canonical hs
  · exact hs

theorem performInbound_canonical {r : Inbound} {s : State} (hs : MemoryCanonical s) : MemoryCanonical (performInbound r s) := by
  unfold performInbound
  dsimp only
  cases r.aim with
  | page =>
    refine of_except (fun _ => ?_) fun _ => performAt_canonical (busPlaces_canonical hs)
    exact (busPlaces_canonical hs).of_mem_eq (failInbound_mem ..)
  | bar0 => exact hs.of_mem_eq (reply_mem ..)
  | admin => exact of_ite (performAt_canonical hs) (hs.of_mem_eq (reply_mem ..))

theorem execOrderingPointForward_canonical {n : Nat} {s : State} (hs : MemoryCanonical s) :
    CanonicalOut (execOrderingPointForward n s) := of_option trivial fun _ => of_ite trivial (performInbound_canonical hs)

theorem execBar2Access_canonical {bar : HostBar} {off : Nat} {r : BusRequest} {relaxed : Bool} {s : State}
    (hs : MemoryCanonical s) : CanonicalOut (execBar2Access bar off r relaxed s) := by
  refine of_ite trivial ?_
  cases bar with
  | bar2 => exact of_ite trivial (of_option (of_ite (P := MemoryCanonical) hs hs) fun _ => arrive_canonical hs)
  | bar0 => exact of_ite trivial (of_ite (of_ite trivial hs) (of_option hs fun _ => arrive_canonical hs))
  | physical => exact of_ite (of_ite trivial hs) (arrive_canonical hs)

theorem hostPush_canonical {sender desc : Nat} {kind : QueueKind} {who : Viewer} {data : List Byte} {s : State}
    (hs : MemoryCanonical s) : CanonicalOut (hostPush sender desc kind who data s) :=
  of_ite hs (of_ite trivial (hs.of_mem_eq (windowPush_mem ..)))

theorem execPushPortWrite_canonical {port : PushPort} {data : List Byte} {s : State} (hs : MemoryCanonical s) :
    CanonicalOut (execPushPortWrite port data s) := by
  refine of_ite trivial ?_
  cases port with
  | function => exact of_ite trivial (of_option hs fun _ => of_ite hs (hostPush_canonical hs))
  | ring => exact of_ite trivial (of_ite hs (of_ite (of_ite (P := MemoryCanonical) hs hs) (hostPush_canonical hs)))

theorem execSqTailDoorbell_canonical {lease : Nat} {tail : BitVec 32} {s : State} (hs : MemoryCanonical s) :
    CanonicalOut (execSqTailDoorbell lease tail s) := of_ite trivial (sqTail_canonical hs)

theorem execCqHeadDoorbell_canonical {lease : Nat} {head : BitVec 32} {s : State} (hs : MemoryCanonical s) :
    CanonicalOut (execCqHeadDoorbell lease head s) := of_ite trivial (hs.of_mem_eq (cqHead_mem ..))

theorem execNvmeDma_canonical {queue : DmaQueue} {va : Nat} {r : DmaRequest} {s : State} (hs : MemoryCanonical s) :
    CanonicalOut (execNvmeDma queue va r s) := by
  refine of_ite trivial ?_
  cases queue with
  | lease => exact of_ite trivial (of_ite (arrive_canonical hs) (hs.of_mem_eq (failInbound_mem ..)))
  | admin => exact of_ite trivial (arrive_canonical hs)

theorem execNvmeCompletionInterrupt_canonical {lease : Nat} {s : State} (hs : MemoryCanonical s) :
    CanonicalOut (execNvmeCompletionInterrupt lease s) := of_ite trivial (of_ite hs (hs.of_mem_eq (unitWake_mem ..)))

theorem atomicAt_canonical {tenant : Option (BitVec 4)} {a : Nat} {r : BusRequest} {s : State} (hs : MemoryCanonical s) :
    MemoryCanonical (atomicAt tenant a r s).2 := by
  refine of_ite (P := SndCanonical) ((placeRead_canonical hs).of_mem_eq (consumeRecord_mem ..)) ?_
  exact of_option (P := MemoryCanonical) (placeRead_canonical hs) fun _ => writeAt_canonical (placeRead_canonical hs)

theorem performRequest_canonical {tenant : Option (BitVec 4)} {pa : Nat} {xs : List (Nat × Nat)} {r : BusRequest} {s : State}
    (hs : MemoryCanonical s) : MemoryCanonical (performRequest tenant pa xs r s).2 := by
  cases r with
  | write bs => exact writePlaces_canonical hs
  | read n => exact readPlaces_canonical hs
  | red op v => exact atomicAt_canonical hs
  | atom op v => exact atomicAt_canonical hs
  | cas => exact atomicAt_canonical hs

theorem execAktumRequest_canonical {port tenant pa : Nat} {r : BusRequest} {s : State} (hs : MemoryCanonical s) :
    CanonicalOut (execAktumRequest port tenant pa r s) := of_ite trivial (of_ite hs (performRequest_canonical hs))

theorem execAktumFlit_canonical {port : Nat} {ok : Bool} {s : State} (hs : MemoryCanonical s) :
    CanonicalOut (execAktumFlit port ok s) := of_ite hs trivial

theorem execAktumRetrain_canonical {port : Nat} {s : State} (hs : MemoryCanonical s) : CanonicalOut (execAktumRetrain port s) :=
  of_ite hs trivial

theorem execAktumPortDown_canonical {port : Nat} {s : State} (hs : MemoryCanonical s) :
    CanonicalOut (execAktumPortDown port s) := of_ite hs trivial

theorem execAktumPortUp_canonical {x : AktumPort} {s : State} (hs : MemoryCanonical s) : CanonicalOut (execAktumPortUp x s) :=
  of_ite hs trivial

/-! ### Machine/Boot.lean -/

theorem execFunctionReset_canonical {s : State} (hs : MemoryCanonical s) : CanonicalOut (execFunctionReset s) := by
  unfold execFunctionReset
  exact functionReset_canonical hs

theorem execRestartFr_canonical {s : State} (hs : MemoryCanonical s) : CanonicalOut (execRestartFr s) :=
  of_ite (functionReset_canonical hs) trivial

theorem execRestartCp_canonical {core : Nat} {s : State} (hs : MemoryCanonical s) : CanonicalOut (execRestartCp core s) :=
  of_ite (hs.of_mem_eq (restartAgent_mem ..)) trivial

theorem takeImage_canonical {img : FirmwareImage} {s : State} (hs : MemoryCanonical s) : CanonicalOut (takeImage img s) :=
  of_ite trivial hs

@[simp] theorem verifyImage_mem (img : FirmwareImage) (s : State) : (verifyImage img s).mem = s.mem :=
  of_ite (P := SameMem s) rfl rfl

theorem loadImage_canonical {img : FirmwareImage} {s : State} (hs : MemoryCanonical s) : MemoryCanonical (loadImage img s) :=
  (writeLong_canonical hs).of_mem_eq (startAgents_mem ..)

theorem execFirmwareVerify_canonical {img : FirmwareImage} {s : State} (hs : MemoryCanonical s) :
    CanonicalOut (execFirmwareVerify img s) := by
  refine of_ite (takeImage_canonical hs) ?_
  exact of_ite trivial (of_ite (hs.of_mem_eq (verifyImage_mem ..)) (of_ite (loadImage_canonical hs) trivial))

theorem execHbmStackTrained_canonical {stack : Nat} {s : State} (hs : MemoryCanonical s) :
    CanonicalOut (execHbmStackTrained stack s) := of_ite trivial (hs.of_mem_eq (startAgents_mem ..))

theorem execNvmeLinkUp_canonical {port : Nat} {s : State} (hs : MemoryCanonical s) : CanonicalOut (execNvmeLinkUp port s) :=
  of_ite trivial (hs.of_mem_eq (noteDrives_mem ..))

theorem execAttreqWrite_canonical {pa : Nat} {s : State} (hs : MemoryCanonical s) : CanonicalOut (execAttreqWrite pa s) :=
  of_ite (attest_canonical hs) trivial

@[simp] theorem setMonitor_mem (n : Nat) (v : Int) (s : State) : (setMonitor n v s).mem = s.mem := rfl

@[simp] theorem throttleDie_mem (die : Nat) (s : State) : (throttleDie die s).mem = s.mem := by
  refine of_ite (P := SameMem s) (foldl_mem (fun _ _ => State.modCore_mem ..) _ _) ?_
  exact of_ite (P := SameMem s) (foldl_mem (fun _ _ => State.modCore_mem ..) _ _) rfl

theorem execThermalThrottle_canonical {monitor : Nat} {v : Int} {s : State} (hs : MemoryCanonical s) :
    CanonicalOut (execThermalThrottle monitor v s) := by
  refine of_ite trivial ?_
  exact of_ite (coldReset_canonical _)
    (of_ite ((hs.of_mem_eq (setMonitor_mem ..)).of_mem_eq (throttleDie_mem ..)) (hs.of_mem_eq (setMonitor_mem ..)))

theorem execThermalTrip_canonical {monitor : Nat} {v : Int} {s : State} : CanonicalOut (execThermalTrip monitor v s) :=
  of_ite trivial (coldReset_canonical _)

/-! ### Machine/Flags.lean -/

theorem fpSettle_canonical {s : State} {p : Ply} {cs : Conds} {go : Ply → Res} (hs : MemoryCanonical s)
    (hg : ∀ p, (go p).Canonical) : (fpSettle s p cs go).Canonical := of_ite (hg _) hs

theorem fpWrite_canonical {s : State} {p : Ply} {d : VReg} {reads : List RegUse} {f : Core → Nat → Word × Conds}
    (hs : MemoryCanonical s) : (fpWrite s p d reads f).Canonical := gated_canonical hs fun _ => fpSettle_canonical hs fun _ =>
    writeLanes_canonical hs

theorem fpPred_canonical {s : State} {p : Ply} {pd : PReg} {reads : List RegUse} {f : Core → Nat → Bool × Conds}
    (hs : MemoryCanonical s) : (fpPred s p pd reads f).Canonical := gated_canonical hs fun _ => fpSettle_canonical hs fun _ =>
    hs.of_mem_eq (State.setPly_mem ..)

/-! ### Machine/LaneRes.lean -/

theorem residueOp_canonical {wide : Bool} {s : State} {p : Ply} {reads writes : List RegUse} {go : Basis → Core → Res}
    (hs : MemoryCanonical s) (hg : ∀ b c, (go b c).Canonical) : (residueOp wide s p reads writes go).Canonical :=
  of_ite hs (of_option (of_ite hs hs) fun _ => gated_canonical hs (fun _ => hg _ _))

theorem residueWrite_canonical {i : Instr} {wide : Bool} {d : VReg} {reads : List Nat → List RegUse}
    {f : Basis → Core → Ply → Nat → Residues} {s : State} (hs : MemoryCanonical s) :
    CanonicalOut (residueWrite i wide d reads f s) :=
  perform_canonical hs fun _ => residueOp_canonical hs fun _ _ => writeLanes_canonical hs

theorem residue2_canonical {i : Instr} {wide : Bool} {d a : VReg} {b : LaneSrc} {f : Basis → Residues → Residues → Residues}
    {s : State} (hs : MemoryCanonical s) : CanonicalOut (residue2 i wide d a b f s) := by
  unfold residue2
  exact residueWrite_canonical hs

theorem residue1_canonical {i : Instr} {wide : Bool} {d a : VReg} {f : Basis → Residues → Residues} {s : State}
    (hs : MemoryCanonical s) : CanonicalOut (residue1 i wide d a f s) :=
  residueWrite_canonical hs

@[simp] theorem locatedEvent_mem (k : Nat) (p : Ply) (s : State) (j : Nat) : (locatedEvent k p s j).mem = s.mem := errorEvent_mem ..

theorem residueDecode_canonical {i : Instr} {wide : Bool} {d a : VReg} {n : Nat} {out : Basis → Int → Nat → Word} {s : State}
    (hs : MemoryCanonical s) : CanonicalOut (residueDecode i wide d a n out s) := by
  refine perform_canonical hs fun p => residueOp_canonical hs fun b c => ?_
  dsimp only
  split
  · exact hs
  · generalize hr : writeLanes s p _ _ = r
    have hw : r.Canonical := hr ▸ writeLanes_canonical hs
    cases r with
    | next t =>
      have hl (js : List Nat) : MemoryCanonical (js.foldl (locatedEvent s.cur p) t) :=
        foldl_canonical (fun _ _ hu => hu.of_mem_eq (locatedEvent_mem ..)) js hw
      dsimp only
      split
      · exact hl _
      · exact hl _
    | _ => exact hw

/-! ### Machine/Matrix.lean -/

theorem MatCall.findErrors_mem {m : MatCall} {s t : State} {p : Ply} (e : m.findErrors s p = some t) : t.mem = s.mem := by
  unfold MatCall.findErrors at e
  dsimp only at e
  split at e
  · rw [← Option.some.inj e, foldl_mem (fun _ _ => by simp), findRowErrors_mem]
  · cases e

@[simp] theorem MatCall.issued_mem (m : MatCall) (s : State) (p p' : Ply) (c' : Core) :
    (MatCall.issued m s p p' c').mem = s.mem :=
  (takeRows_mem ..).trans ((takeTiles_mem ..).trans ((State.bump_mem ..).trans (State.setCore_mem ..)))

theorem matIssue_canonical {i : Instr} {mmai : Bool} {d a : VReg} {f : SReg} {shp : BitVec 5} {fn : MatFn} {s : State}
    (hs : MemoryCanonical s) : CanonicalOut (matIssue i mmai d a f shp fn s) := by
  refine perform_canonical hs fun _ => of_ite hs (of_option (of_ite trivial ?_) fun _ => hs)
  refine of_option_eq ?_ fun _ h => hs.of_mem_eq (MatCall.findErrors_mem h)
  exact of_option (rowWait_canonical hs) fun _ => hs.of_mem_eq (MatCall.issued_mem ..)

@[simp] theorem dropMats_mem (core : Nat) (f : MatOp → Bool) (s : State) : (dropMats core f s).mem = s.mem := by
  refine (foldl_mem (fun t _ => ?_) _ _).trans (State.modCore_mem ..)
  exact of_ite (P := SameMem t) rfl (of_option rfl fun _ => releaseTiles_mem ..)

@[simp] theorem abandonMats_mem (core uid : Nat) (s : State) : (abandonMats core uid s).mem = s.mem :=
  (State.modCore_mem ..).trans (dropMats_mem ..)

@[simp] theorem failMat_mem (core : Nat) (m : MatOp) (cause : Cause) (s : State) : (failMat core m cause s).mem = s.mem := by
  refine (dropMats_mem ..).trans ?_
  exact (State.modCore_mem ..).trans (of_ite (P := SameMem s) rfl (of_option rfl fun _ => State.setPly_mem ..))

@[simp] theorem accErrors_mem (core : Nat) (m : MatOp) (s : State) : (accErrors core m s).mem = s.mem :=
  of_ite (P := SameMem s) rfl (foldl_mem (fun _ _ => findInRow_mem ..) _ _)

@[simp] theorem completeMat_mem (core : Nat) (m : MatOp) (s : State) : (completeMat core m s).mem = s.mem := by
  refine of_option (P := SameMem s) ?_ fun _ => ?_
  · refine of_option ?_ fun _ => ?_
    · refine (dropMats_mem ..).trans ?_
      exact (State.modCore_mem ..).trans ((foldl_mem (fun _ _ => correctTile_mem ..) _ _).trans (accErrors_mem ..))
    · refine of_option ?_ fun _ => ?_
      · exact (failMat_mem ..).trans ((foldl_mem (fun _ _ => correctTile_mem ..) _ _).trans (accErrors_mem ..))
      · refine (failMat_mem ..).trans ?_
        exact (tileRecord_mem ..).trans ((foldl_mem (fun _ _ => correctTile_mem ..) _ _).trans (accErrors_mem ..))
  · refine (failMat_mem ..).trans ?_
    exact (errorEvent_mem ..).trans ((foldl_mem (fun _ _ => correctTile_mem ..) _ _).trans (accErrors_mem ..))

theorem execMmaComplete_canonical {seq octet : Nat} {s : State} (hs : MemoryCanonical s) :
    CanonicalOut (execMmaComplete seq octet s) := of_option trivial fun _ => of_ite trivial (hs.of_mem_eq (completeMat_mem ..))

theorem frameOp_canonical {i : Instr} {s : State} {go : Ply → Core → Res} (hs : MemoryCanonical s)
    (hg : ∀ p c, (go p c).Canonical) : CanonicalOut (frameOp i s go) :=
  perform_canonical hs fun _ => of_ite hs (of_ite hs (of_ite hs (hg _ _)))

@[simp] theorem saveOctet_mem (core o : Nat) (s : State) : (saveOctet core o s).mem = s.mem :=
  of_ite (P := SameMem s) rfl ((State.modCore_mem ..).trans (dropMats_mem ..))

@[simp] theorem resumeMat_mem (core : Nat) (s : State) (m : MatOp) : (resumeMat core s m).mem = s.mem :=
  of_option (P := SameMem s) rfl fun _ => State.modCore_mem ..

@[simp] theorem relock_mem (core : Nat) (s : State) (o : Nat) : (relock core s o).mem = s.mem := rfl

theorem execMfill_canonical {a : VReg} {w : BitVec 8} {s : State} (hs : MemoryCanonical s) : CanonicalOut (execMfill a w s) :=
  frameOp_canonical hs fun _ _ => gated_canonical hs fun c =>
    foldl_canonical (fun _ _ ht => ht.of_mem_eq (by simp)) _ hs

@[simp] theorem retakeTiles_mem (core : Nat) (s : State) : (retakeTiles core s).mem = s.mem :=
  foldl_mem (fun _ _ => foldl_mem (fun _ _ => State.modTile_mem ..) _ _) _ _

@[simp] theorem thaw_mem (core : Nat) (s : State) : (thaw core s).mem = s.mem := by
  refine (foldl_mem (fun t _ => ?_) _ _).trans ?_
  · exact of_option (P := SameMem t) rfl fun _ => of_ite (P := SameMem t) rfl (State.setPly_mem ..)
  · exact (retakeTiles_mem ..).trans ((foldl_mem (fun _ _ => resumeMat_mem ..) _ _).trans (State.setCore_mem ..))

theorem execEngineThaw_canonical {core : Nat} {s : State} (hs : MemoryCanonical s) : CanonicalOut (execEngineThaw core s) :=
  of_ite (hs.of_mem_eq (thaw_mem ..)) trivial

/-! ### Machine/Mould.lean -/

@[simp] theorem dropMould_mem (core e : Nat) (s : State) : (dropMould core e s).mem = s.mem :=
  of_option (P := SameMem s) rfl fun _ => (State.modCore_mem ..).trans (State.releaseMap_mem ..)

@[simp] theorem settleMould_mem (run : Nat) (h : DWord) (s : State) : (settleMould run h s).mem = s.mem := by
  refine of_ite (P := SameMem s) rfl ?_
  exact foldl_mem (fun t _ => of_option (P := SameMem t) rfl fun _ => of_ite rfl (dropMould_mem ..)) _ _

theorem execFrz_canonical {d : SReg} {g : Guard} {s : State} (hs : MemoryCanonical s) : CanonicalOut (execFrz d g s) := by
  refine guarded_canonical hs fun _ => of_ite trivial (of_option (hs.of_mem_eq (State.setPly_mem ..)) fun _ => ?_)
  refine of_ite trivial (of_ite (hs.of_mem_eq (findShared_mem ..)) ?_)
  refine of_option (rowWait_canonical (hs.of_mem_eq (State.setPly_mem ..))) fun _ => ?_
  exact (hs.of_mem_eq (State.setCore_mem ..)).of_mem_eq (State.setPly_mem ..)

theorem execRstr_canonical {a : SReg} {g : Guard} {s : State} (hs : MemoryCanonical s) : CanonicalOut (execRstr a g s) := by
  refine guarded_canonical hs fun _ => of_option hs fun _ => of_ite hs (of_ite trivial ?_)
  refine of_ite trivial (of_ite (hs.of_mem_eq (findShared_mem ..)) ?_)
  refine of_option (rowWait_canonical hs) fun _ => ?_
  exact (((hs.of_mem_eq (State.releaseMap_mem ..)).of_mem_eq (State.setCore_mem ..)).of_mem_eq (State.setPly_mem ..)).of_mem_eq
    (disarm_mem ..)

@[simp] theorem retireDone_mem (run : Nat) (s : State) : (retireDone run s).mem = s.mem :=
  foldl_mem (fun _ _ => (State.modRun_mem ..).trans (State.setTeam_mem ..)) _ _

theorem startImage_mem {s t : State} {k : Nat} {m : Mould} {ident : Ident} {item : Option DWord} {f : Arch → Arch}
    (e : startImage s k m ident item f = some t) : t.mem = s.mem := by
  revert e
  unfold startImage
  dsimp only
  cases ((findShared (coreOf k) m.image.rows s).core (coreOf k)).shareMap m.image.rows with
  | none => rintro ⟨⟩
  | some =>
    intro e
    rw [← Option.some.inj e]
    exact findShared_mem ..

theorem completeExport_mem {core n : Nat} {s t : State} (e : completeExport core n s = some t) : t.mem = s.mem := by
  revert e
  refine of_option (P := fun y => y = some t → SameMem s t) nofun fun m => ?_
  refine of_option (P := fun y => y = some t → SameMem s t) nofun fun maker => ?_
  refine of_ite (P := fun y => y = some t → SameMem s t) nofun ?_
  refine of_option (P := fun y => y = some t → SameMem s t) nofun fun _ => ?_
  rintro ⟨⟩
  exact (State.setCore_mem ..).trans (foldl_mem (fun _ _ => findInRow_mem ..) _ _)

@[simp] theorem exportTo_mem (m : Mould) (s : State) (core : Nat) : (exportTo m s core).mem = s.mem := by
  unfold exportTo
  split
  · rfl
  · dsimp only
    cases e : completeExport core _ _ with
    | none => simp
    | some t => simp [completeExport_mem e]

@[simp] theorem markExported_mem (m : Mould) (s : State) : (markExported m s).mem = s.mem := rfl

theorem lateExport_mem {run core : Nat} {h : DWord} {s t : State} (e : lateExport run core h s = some t) : t.mem = s.mem := by
  revert e
  unfold lateExport
  cases (s.core (field h 48 16)).moulds.find (field h 0 10) with
  | none => rintro ⟨⟩
  | some m =>
    cases freeEntry s core with
    | none => rintro ⟨⟩
    | some =>
      refine of_ite (P := fun y => y = some t → SameMem s t) ?_ ?_
      · rintro ⟨⟩
        exact (exportTo_mem ..).trans (markExported_mem ..)
      · rintro ⟨⟩

theorem startItem_mem {run k : Nat} {x : StampItem} {s t : State} (e : startItem run k x s = some t) : t.mem = s.mem := by
  unfold startItem at e
  split at e
  · split at e
    · exact lateExport_mem e
    · split at e
      · cases e
      · obtain ⟨u, hu, rfl⟩ := Option.map_eq_some_iff.mp e
        simpa using startImage_mem hu
  · cases e

@[simp] theorem giveSlot_mem (run k : Nat) (x : StampItem) (s : State) : (giveSlot run k x s).mem = s.mem := by
  unfold giveSlot
  dsimp only
  cases e : startItem run k x _ with
  | none => simp
  | some t => simp [startItem_mem e]

@[simp] theorem placeQueued_mem (run : Nat) (s : State) : (placeQueued run s).mem = s.mem := by
  refine of_option (P := SameMem s) rfl fun _ => ?_
  exact of_ite rfl (foldl_mem (fun _ _ => (giveSlot_mem ..).trans (State.modRun_mem ..)) _ _)

theorem execCast_canonical {d a b : SReg} {g : Guard} {s : State} (hs : MemoryCanonical s) : CanonicalOut (execCast d a b g s) := by
  refine guarded_canonical hs fun p => of_option hs fun _ => ?_
  have hq : MemoryCanonical (placeQueued p.ident.run s) := hs.of_mem_eq (placeQueued_mem ..)
  refine of_list (hq.of_mem_eq (State.setPly_mem ..)) fun _ _ => of_ite trivial ?_
  refine of_option_eq (rowWait_canonical hq) fun _ h => ?_
  exact (release_canonical hq).of_mem_eq ((State.modPly_mem ..).trans (startImage_mem h))

theorem stampAll_canonical {s : State} {m : Mould} {run own : Nat} {h first : DWord} {n : Nat} (hs : MemoryCanonical s) :
    MemoryCanonical (stampAll s m run own h first n) := by
  refine .of_mem_eq ?_ (State.modRun_mem ..)
  refine foldl_canonical (fun _ _ ht => .of_mem_eq ht (giveSlot_mem ..)) _ ?_
  exact of_ite (foldl_canonical (fun _ _ ht => ht.of_mem_eq (exportTo_mem ..)) _ (release_canonical hs))
    ((foldl_canonical (fun _ _ ht => ht.of_mem_eq (exportTo_mem ..)) _ (release_canonical hs)).of_mem_eq (markExported_mem ..))

theorem execStamp_canonical {d a b : SReg} {g : Guard} {s : State} (hs : MemoryCanonical s) :
    CanonicalOut (execStamp d a b g s) := by
  refine guarded_canonical hs fun _ => of_some (fun _ => ?_) hs
  refine of_some (fun _ => ?_) hs
  refine of_ite hs (of_ite ((hs.of_mem_eq (placeQueued_mem ..)).of_mem_eq (retireDone_mem ..)) ?_)
  refine of_ite ((hs.of_mem_eq (placeQueued_mem ..)).of_mem_eq (retireDone_mem ..)) ?_
  exact stampAll_canonical ((hs.of_mem_eq (placeQueued_mem ..)).of_mem_eq (retireDone_mem ..))

theorem execDrop_canonical {a : SReg} {g : Guard} {s : State} (hs : MemoryCanonical s) : CanonicalOut (execDrop a g s) := by
  refine guarded_canonical hs fun _ => of_option (hs.of_mem_eq (State.setPly_mem ..)) fun _ => ?_
  exact ((hs.of_mem_eq (State.modCore_mem ..)).of_mem_eq (State.setPly_mem ..)).of_mem_eq (settleMould_mem ..)

theorem execStampQueuePlace_canonical {run : Nat} {s : State} (hs : MemoryCanonical s) :
    CanonicalOut (execStampQueuePlace run s) := by
  refine of_option trivial fun r => of_option_eq ?_ fun t h => ?_
  · exact of_cons (fun _ _ => of_cons (fun _ _ => hs.of_mem_eq (placeQueued_mem ..)) trivial) trivial
  · obtain ⟨⟨k, x⟩, -, hx⟩ := List.exists_of_findSome?_eq_some h
    exact hs.of_mem_eq (startItem_mem hx)

theorem execExportComplete_canonical {core entry : Nat} {s : State} (hs : MemoryCanonical s) :
    CanonicalOut (execExportComplete core entry s) := by
  unfold execExportComplete
  split
  · trivial
  · rename_i t hdone
    have ht : MemoryCanonical t := hs.of_mem_eq (completeExport_mem hdone)
    split
    · exact ht
    · refine foldl_canonical (fun u x hu => ?_) _ ht
      dsimp only
      cases hstart : startItem _ x.1 x.2 u with
      | none => exact hu
      | some v => exact hu.of_mem_eq (startItem_mem hstart)

@[simp] theorem endPly_mem (k : Nat) (s : State) : (endPly k s).mem = s.mem := by
  refine of_option (P := SameMem s) rfl fun _ => of_ite ?_ ?_
  · refine (placeQueued_mem ..).trans ?_
    exact of_option (P := SameMem s) (freeSlot_mem ..) fun _ => (settleMould_mem ..).trans (freeSlot_mem ..)
  · exact of_option (freeSlot_mem ..) fun _ => (settleMould_mem ..).trans (freeSlot_mem ..)

theorem execExit_canonical {g : Guard} {s : State} (hs : MemoryCanonical s) : CanonicalOut (execExit g s) :=
  guarded_canonical hs fun _ => of_ite trivial (hs.of_mem_eq (endPly_mem ..))

/-! ### Machine/Integrity.lean -/

theorem execIreg_canonical {g : Guard} {s : State} (hs : MemoryCanonical s) : CanonicalOut (execIreg g s) :=
  guarded_canonical hs fun _ => of_ite hs (hs.of_mem_eq (State.setPly_mem ..))

theorem execWmk_canonical {sig : BitVec 16} {g : Guard} {s : State} (hs : MemoryCanonical s) : CanonicalOut (execWmk sig g s) :=
  guarded_canonical hs fun _ => of_ite hs (of_ite (hs.of_mem_eq (State.setPly_mem ..)) hs)

theorem execRegionRetry_canonical {k : Nat} {s : State} (hs : MemoryCanonical s) : CanonicalOut (execRegionRetry k s) := by
  unfold execRegionRetry
  repeat' split
  · trivial
  · exact (hs.of_mem_eq (State.setPly_mem ..)).of_mem_eq (checkRecord_mem ..)
  · trivial
  · trivial

/-! ### Machine/Special.lean -/

theorem specialWrite_canonical {s : State} {p : Ply} {n : Nat} {v : DWord} (hs : MemoryCanonical s) :
    (specialWrite s p n v).Canonical := by
  unfold specialWrite
  split
  · exact hs.of_mem_eq (State.setPly_mem ..)
  · exact hs

theorem execSrd_canonical {d : SReg} {n : BitVec 12} {g : Guard} {s : State} (hs : MemoryCanonical s) :
    CanonicalOut (execSrd d n g s) := guarded_canonical hs fun _ => of_option hs fun _ => hs.of_mem_eq (State.setPly_mem ..)

theorem registerStep_canonical {s : State} {n : Nat} {v : DWord} (hs : MemoryCanonical s) : CanonicalOut (registerStep s n v) := by
  unfold registerStep
  repeat' split
  · trivial
  · exact hs.of_mem_eq (State.setPly_mem ..)
  · exact hs.of_mem_eq (takeCause_mem ..)

/-! ### Machine/Hyper.lean -/

theorem HypWrite.check_canonical {ok : Bool} {s : State} (hs : MemoryCanonical s) : (HypWrite.check ok s).Canonical :=
  of_ite hs trivial

@[simp] theorem State.setHyp_mem (s : State) (h : Hyp) : (State.setHyp s h).mem = s.mem := rfl

@[simp] theorem dropQueue_mem (x : Nat) (s : State) : (dropQueue x s).mem = s.mem := by
  refine of_option (P := SameMem s) rfl fun q => foldl_mem (fun t _ => of_option (P := SameMem t) rfl fun p => ?_) _ _
  cases p.wait with
  | queue => exact of_ite (P := SameMem t) (State.setPly_mem ..) rfl
  | _ => rfl

@[simp] theorem dropRings_mem (s : State) : (dropRings s).mem = s.mem := by
  unfold dropRings
  exact foldl_mem (fun _ _ => by dsimp only; split <;> simp) _ _

@[simp] theorem writeMbtab_mem (v : DWord) (s : State) : (writeMbtab v s).mem = s.mem := by
  refine of_ite (P := SameMem s) ((State.setHyp_mem ..).trans (dropRings_mem ..)) ?_
  exact (foldl_mem (fun _ _ => dropQueue_mem ..) _ _).trans ((State.setHyp_mem ..).trans (dropRings_mem ..))

theorem writeSubq_canonical {t : Nat} {v : DWord} {s : State} (hs : MemoryCanonical s) : (writeSubq t v s).Canonical := by
  refine of_ite trivial ?_
  dsimp only
  generalize hr : (if s.hyp.subq.getD t 0 = 0 then (false, s) else _ : Bool × State) = r
  have hl : MemoryCanonical r.2 := by
    subst hr
    refine of_ite (P := SndCanonical) hs ?_
    generalize hq : loadQueue _ _ _ _ s = q
    have ht : MemoryCanonical q.2 := hq ▸ loadQueue_canonical hs
    exact of_loaded (P := SndCanonical) (fun _ => ht) ht
  have hd (b : Prop) [Decidable b] (x : Nat) (u : State) (hu : MemoryCanonical u) :
      MemoryCanonical (if b then u else dropQueue x u) := of_ite hu (hu.of_mem_eq (dropQueue_mem ..))
  exact of_ite trivial (hd _ _ _ (hd _ _ _ hl))

theorem writeTcfg_canonical {t : Nat} {v : DWord} {s : State} (hs : MemoryCanonical s) : (writeTcfg t v s).Canonical :=
  of_ite trivial (of_ite trivial (of_ite trivial (of_ite trivial (of_ite trivial (hs.of_mem_eq (State.setHyp_mem ..))))))

theorem writeTport_canonical {t : Nat} {v : DWord} {s : State} (hs : MemoryCanonical s) : (writeTport t v s).Canonical :=
  HypWrite.check_canonical hs

@[simp] theorem leaveWait_mem (t : Nat) (s : State) (k : Nat) : (leaveWait t s k).mem = s.mem :=
  of_option (P := SameMem s) rfl fun _ => of_ite (P := SameMem s) ((State.modPly_mem ..).trans (withdraw_mem ..)) rfl

theorem writePre_canonical {v : DWord} {s : State} (hs : MemoryCanonical s) : (writePre v s).Canonical := by
  refine of_ite trivial ?_
  exact of_ite (foldl_canonical (fun _ _ ht => ht.of_mem_eq (leaveWait_mem ..)) _ (hs.of_mem_eq (State.setHyp_mem ..)))
    (hs.of_mem_eq (State.setHyp_mem ..))

@[simp] theorem writeCsplit_mem (v : DWord) (s : State) : (writeCsplit v s).mem = s.mem := rfl

theorem writeInjctl_canonical {v : DWord} {s : State} (hs : MemoryCanonical s) : (writeInjctl v s).Canonical :=
  HypWrite.check_canonical hs

theorem writeKeyctl_canonical {v : DWord} {s : State} (hs : MemoryCanonical s) : (writeKeyctl v s).Canonical :=
  of_ite trivial (of_ite (hs.of_mem_eq (State.setHyp_mem ..)) (hs.of_mem_eq (State.setHyp_mem ..)))

theorem relWrite_canonical {n : Nat} {v : DWord} {s : State} (hs : MemoryCanonical s) : (relWrite n v s).Canonical := by
  unfold relWrite
  dsimp only
  split
  case h_8 => exact writeKeyctl_canonical hs
  case h_3 | h_6 => exact hs
  case h_9 => exact of_ite (P := HypWrite.Canonical) hs (of_ite hs (of_ite hs trivial))
  all_goals exact HypWrite.check_canonical hs

theorem hypWrite_canonical {n : Nat} {v : DWord} {s : State} (hs : MemoryCanonical s) : (hypWrite n v s).Canonical := by
  refine of_ite (hs.of_mem_eq (State.setHyp_mem ..)) ?_
  refine of_ite (HypWrite.check_canonical (hs.of_mem_eq (State.setHyp_mem ..))) (of_ite (writeSubq_canonical hs) ?_)
  refine of_ite (writeTcfg_canonical hs) (of_ite (writeTport_canonical hs) ?_)
  refine of_ite (hs.of_mem_eq (State.setHyp_mem ..)) (of_ite (hs.of_mem_eq (State.setHyp_mem ..)) ?_)
  refine of_ite (writePre_canonical hs) (of_ite (HypWrite.check_canonical (hs.of_mem_eq (State.setHyp_mem ..))) ?_)
  exact of_ite (hs.of_mem_eq (writeCsplit_mem ..)) (relWrite_canonical hs)

theorem hypStep_canonical {s : State} {w : State → HypWrite} (hs : MemoryCanonical s)
    (hw : ∀ t, MemoryCanonical t → (w t).Canonical) :
    CanonicalOut (hypStep s w) := by
  have ht := hw s hs
  unfold hypStep
  split
  · trivial
  · split
    · exact hs.of_mem_eq (takeCause_mem ..)
    · split
      · rename_i heq; rwa [heq] at ht
      · exact hs.of_mem_eq (takeCause_mem ..)
      · trivial

theorem hypIndexed_canonical {s : State} {n limit i : Nat} {v : DWord} (hs : MemoryCanonical s) :
    CanonicalOut (hypIndexed s n limit i v) := of_ite (hypStep_canonical hs (fun _ ht => hypWrite_canonical ht)) trivial

theorem execMbtabWrite_canonical {v : BitVec 64} {s : State} (hs : MemoryCanonical s) : CanonicalOut (execMbtabWrite v s) :=
  hypStep_canonical hs fun _ ht => ht.of_mem_eq (writeMbtab_mem ..)

theorem execCsplitWrite_canonical {v : BitVec 64} {s : State} (hs : MemoryCanonical s) : CanonicalOut (execCsplitWrite v s) :=
  hypStep_canonical hs fun _ ht => hypWrite_canonical ht

theorem execKeyctlLoad_canonical {slot : Nat} {s : State} (hs : MemoryCanonical s) : CanonicalOut (execKeyctlLoad slot s) :=
  of_ite (hypStep_canonical hs (fun _ ht => hypWrite_canonical ht)) trivial

theorem execInjctlArm_canonical {v : BitVec 64} {s : State} (hs : MemoryCanonical s) : CanonicalOut (execInjctlArm v s) :=
  hypStep_canonical hs fun _ ht => writeInjctl_canonical ht

theorem execKeyctlLoadDone_canonical {s : State} (hs : MemoryCanonical s) : CanonicalOut (execKeyctlLoadDone s) := of_ite trivial hs

theorem execSweepEnd_canonical {t : Nat} {s : State} (hs : MemoryCanonical s) : CanonicalOut (execSweepEnd t s) := of_ite trivial hs

theorem execCarveOutApply_canonical {core : Nat} {s : State} (hs : MemoryCanonical s) :
    CanonicalOut (execCarveOutApply core s) := of_ite trivial (hs.of_mem_eq (State.setCore_mem ..))

@[simp] theorem haltForPreempt_mem (t : Nat) (s : State) (k : Nat) : (haltForPreempt t s k).mem = s.mem := by
  refine of_option (P := SameMem s) rfl fun _ => ?_
  exact of_ite (P := SameMem s) ((haltPly_mem ..).trans ((State.modPly_mem ..).trans (withdraw_mem ..))) rfl

theorem execPrePreempt_canonical {t : Nat} {s : State} (hs : MemoryCanonical s) : CanonicalOut (execPrePreempt t s) := by
  refine of_ite trivial ?_
  exact foldl_canonical (fun _ _ ht => ht.of_mem_eq (setPevt_mem ..)) _
    ((foldl_canonical (fun _ _ ht => ht.of_mem_eq (haltForPreempt_mem ..)) _
    (foldl_canonical (fun _ _ ht => (pushCore_canonical ht).of_mem_eq (State.modCore_mem ..)) _ hs)).of_mem_eq
    (State.setHyp_mem ..))

theorem execPreRestore_canonical {t : Nat} {s : State} (hs : MemoryCanonical s) : CanonicalOut (execPreRestore t s) := by
  refine of_ite trivial ?_
  exact foldl_canonical (fun _ _ ht => (ht.of_mem_eq (State.modCore_mem ..)).of_mem_eq (setPevt_mem ..)) _
    (hs.of_mem_eq (State.setHyp_mem ..))

/-! ### Machine/Priv.lean -/

theorem execPsrd_canonical {d : SReg} {n : BitVec 12} {g : Guard} {s : State} (hs : MemoryCanonical s) :
    CanonicalOut (execPsrd d n g s) := by
  refine guarded_canonical hs fun _ => of_ite (of_option hs fun _ => hs.of_mem_eq (State.setPly_mem ..)) ?_
  refine of_ite (of_option hs fun _ => hs.of_mem_eq (State.setPly_mem ..)) ?_
  exact of_ite (of_ite hs (of_option hs fun _ => hs.of_mem_eq (State.setPly_mem ..))) hs

@[simp] theorem slotWrite_mem (s : State) (k : Nat) (p : Ply) (n : Nat) (v : DWord) : (slotWrite s k p n v).mem = s.mem :=
  of_option (P := SameMem s) (State.modCore_mem ..) fun _ => State.setPly_mem ..

theorem hypOnlyWrite_canonical {n : Nat} {v : DWord} {p : Ply} {s : State} (hs : MemoryCanonical s) :
    (hypOnlyWrite n v p s).Canonical := by
  unfold hypOnlyWrite
  split
  · exact hs.of_mem_eq (State.setPly_mem ..)
  · exact hs.of_mem_eq (writeMbtab_mem ..)
  · exact hs
  · exact writeInjctl_canonical hs

theorem privWrite_canonical {s : State} {k : Nat} {p : Ply} {n : Nat} {v : DWord} (hs : MemoryCanonical s) :
    (privWrite s k p n v).Canonical := by
  have hput (x : Priv) : MemoryCanonical (s.setPly k { p with priv := x }) := hs.of_mem_eq (State.setPly_mem ..)
  refine of_ite trivial (of_ite (of_ite trivial (hypOnlyWrite_canonical hs)) (of_ite (hs.of_mem_eq (slotWrite_mem ..)) ?_))
  split
  case h_6 => exact of_ite trivial (of_ite trivial (hput _))
  case h_8 => trivial
  all_goals exact hput _

theorem HypWrite.res_canonical {s : State} {w : HypWrite} (hs : MemoryCanonical s) (hw : w.Canonical) : (w.res s).Canonical := by
  cases w with
  | done t => exact MemoryCanonical.of_mem_eq hw (State.modPly_mem ..)
  | cause c => exact hs
  | wait => trivial

theorem execPswr_canonical {d : SReg} {n : BitVec 12} {g : Guard} {s : State} (hs : MemoryCanonical s) :
    CanonicalOut (execPswr d n g s) := by
  refine guarded_canonical hs fun p => ?_
  repeat' split
  · exact hs.of_mem_eq (State.setPly_mem ..)
  · exact hs
  · exact HypWrite.res_canonical hs (privWrite_canonical hs)
  · exact hs
  · exact HypWrite.res_canonical hs (hypWrite_canonical hs)
  · exact hs

theorem onHalted_canonical {ws : List (BitVec 32)} {g : Guard} {s : State} {go : Ply → Nat → Ply → Res} (hs : MemoryCanonical s)
    (hg : ∀ p k t, (go p k t).Canonical) : CanonicalOut (onHalted ws g s go) := by
  refine guarded_canonical hs fun _ => ?_
  exact of_option (hs.of_mem_eq (State.setPly_mem ..)) fun _ => of_ite (hg _ _ _) (hs.of_mem_eq (State.setPly_mem ..))

theorem endX_canonical {s : State} {ok : Bool} (hs : MemoryCanonical s) : (endX s ok).Canonical :=
  hs.of_mem_eq (State.modPly_mem ..)

theorem execXrdv_canonical {d a : VReg} {g : Guard} {s : State} (hs : MemoryCanonical s) : CanonicalOut (execXrdv d a g s) := by
  refine onHalted_canonical hs fun _ _ _ => of_ite hs (of_ite trivial ?_)
  exact of_ite (foldl_canonical (fun _ _ ht => ht.of_mem_eq (findInRow_mem ..)) _ hs) (writeLanes_canonical hs)

theorem execXwrv_canonical {d a : VReg} {g : Guard} {s : State} (hs : MemoryCanonical s) : CanonicalOut (execXwrv d a g s) := by
  refine onHalted_canonical hs fun _ _ _ => of_ite (endX_canonical hs) (of_ite hs ?_)
  refine of_ite trivial (of_ite (foldl_canonical (fun _ _ ht => ht.of_mem_eq (findInRow_mem ..)) _ hs) ?_)
  refine of_option (rowWait_canonical hs) fun _ => ?_
  exact endX_canonical ((hs.of_mem_eq (State.setCore_mem ..)).of_mem_eq (State.setPly_mem ..))

theorem execXrdsp_canonical {d : SReg} {n : BitVec 12} {g : Guard} {s : State} (hs : MemoryCanonical s) :
    CanonicalOut (execXrdsp d n g s) :=
  onHalted_canonical hs fun _ _ _ => of_option hs fun _ => endX_canonical (hs.of_mem_eq (State.setPly_mem ..))

theorem execXwrsp_canonical {d : SReg} {n : BitVec 12} {g : Guard} {s : State} (hs : MemoryCanonical s) :
    CanonicalOut (execXwrsp d n g s) := by
  refine onHalted_canonical hs fun p k t => ?_
  split
  · exact endX_canonical (hs.of_mem_eq (State.setPly_mem ..))
  · exact hs

theorem packedWatch_canonical {k : Nat} {t : Ply} {v : DWord} {s : State} (hs : MemoryCanonical s) :
    MemoryCanonical (packedWatch k t v s) := by
  unfold packedWatch
  dsimp only
  repeat' split
  · exact hs.of_mem_eq (State.setPly_mem ..)
  · exact (translate_canonical hs).of_mem_eq (State.setPly_mem ..)
  · exact (translate_canonical hs).of_mem_eq (State.setPly_mem ..)

theorem packedArm_mem {k : Nat} {p : Ply} {v : DWord} {s t : State} (e : packedArm k p v s = some t) : t.mem = s.mem := by
  have hd : (disarm k (s.setPly k { p with armed := none })).mem = s.mem := (disarm_mem ..).trans (State.setPly_mem ..)
  revert e
  refine of_ite (P := fun y => y = some t → SameMem s t) ?_ (of_ite (P := fun y => y = some t → SameMem s t) ?_ ?_)
  · rintro ⟨⟩
    exact hd
  · rintro ⟨⟩
  · rintro ⟨⟩
    exact (State.modPly_mem ..).trans ((State.putLatch_mem ..).trans hd)

theorem packedGive_mem {k : Nat} {p : Ply} {v : DWord} {s t : State} (e : packedGive k p v s = some t) : t.mem = s.mem := by
  unfold packedGive at e
  dsimp only at e
  split at e
  · exact nomatch e
  · rw [← Option.some.inj e]
    simp

theorem execXwpk_canonical {d a : SReg} {g : Guard} {s : State} (hs : MemoryCanonical s) : CanonicalOut (execXwpk d a g s) := by
  refine onHalted_canonical hs fun _ _ _ => ?_
  refine of_ite (endX_canonical (hs.of_mem_eq (State.setPly_mem ..))) (of_ite (endX_canonical (packedWatch_canonical hs)) ?_)
  refine of_ite (of_option_eq trivial fun _ h => ?_) (of_ite (of_option_eq trivial fun _ h => ?_) (endX_canonical hs))
  · exact endX_canonical (hs.of_mem_eq (packedArm_mem h))
  · exact endX_canonical (hs.of_mem_eq (packedGive_mem h))

theorem execIdle_canonical {d : SReg} {g : Guard} {s : State} (hs : MemoryCanonical s) : CanonicalOut (execIdle d g s) :=
  guarded_canonical hs fun _ => of_ite hs (hs.of_mem_eq (State.setPly_mem ..))

@[simp] theorem killPly_mem (k : Nat) (s : State) : (killPly k s).mem = s.mem :=
  of_option (P := SameMem s) rfl fun _ => (endPly_mem ..).trans ((abandonMats_mem ..).trans (State.modCore_mem ..))

@[simp] theorem noteKill_mem (run : Nat) (cause : BitVec 8) (who pc : DWord) (s : State) :
    (noteKill run cause who pc s).mem = s.mem := State.modRun_mem ..

@[simp] theorem takeUp_mem (k : Nat) (t : Ply) (s : State) : (takeUp k t s).mem = s.mem :=
  of_option (P := SameMem s) (settleUnfinished_mem ..) fun _ => State.setPly_mem ..

theorem resumed_canonical {k : Nat} {t : Ply} {s : State} (hs : MemoryCanonical s) : MemoryCanonical (resumed k t s) := by
  refine .of_mem_eq ?_ (acquire_mem ..)
  exact release_canonical
    (foldl_canonical (fun _ _ ht => ht.of_mem_eq (relock_mem ..)) _ (of_ite (hs.of_mem_eq (State.modCore_mem ..)) hs))

theorem rfeZero_canonical {k : Nat} {t : Ply} {s : State} (hs : MemoryCanonical s) : MemoryCanonical (rfeZero k t s) :=
  resumed_canonical ((hs.of_mem_eq (takeUp_mem ..)).of_mem_eq (State.modPly_mem ..))

theorem rfeThree_canonical {k : Nat} {t : Ply} {s : State} (hs : MemoryCanonical s) : MemoryCanonical (rfeThree k t s) :=
  resumed_canonical ((hs.of_mem_eq (settleUnfinished_mem ..)).of_mem_eq (State.modPly_mem ..))

@[simp] theorem rfeTwo_mem (k : Nat) (t : Ply) (s : State) : (rfeTwo k t s).mem = s.mem := (noteKill_mem ..).trans (killPly_mem ..)

theorem rfeOne_canonical {k : Nat} {s : State} (hs : MemoryCanonical s) : MemoryCanonical (rfeOne k s) := by
  unfold rfeOne
  exact (release_canonical
    (((hs.of_mem_eq (settleUnfinished_mem ..)).of_mem_eq (State.modPly_mem ..)).of_mem_eq (State.modPly_mem ..))).of_mem_eq
    (acquire_mem ..)

theorem rfeWord_canonical {a : SReg} {g : Guard} {s : State} (hs : MemoryCanonical s) : CanonicalOut (rfeWord a g s) := by
  refine guarded_canonical hs fun p => ?_
  have hfail : MemoryCanonical (s.setPly s.cur (p.setQ 0 false)) := hs.of_mem_eq (State.setPly_mem ..)
  have htwo (k : Nat) (t : Ply) : MemoryCanonical (rfeTwo k t s) := hs.of_mem_eq (rfeTwo_mem ..)
  refine of_ite (of_ite (hs.of_mem_eq (State.setPly_mem ..)) hfail) (of_ite hfail (of_option hfail fun _ => of_ite hfail ?_))
  split
  · exact endX_canonical (rfeZero_canonical hs)
  · exact of_ite hfail (of_ite (endX_canonical (rfeOne_canonical hs)) (endX_canonical (htwo ..)))
  · exact endX_canonical (htwo ..)
  · exact endX_canonical (of_ite (rfeZero_canonical hs) (rfeThree_canonical hs))

theorem tlbRemove_canonical {s : State} {f : TlbEntry → Bool} (hs : MemoryCanonical s) : (tlbRemove s f).Canonical :=
  endX_canonical (release_canonical hs)

theorem tlbForm_canonical {ws : List (BitVec 32)} {d : SReg} {g : Guard} {s : State} {ok : Ply → Bool}
    {f : Ply → Nat → TlbEntry → Bool} (hs : MemoryCanonical s) : CanonicalOut (tlbForm ws d g s ok f) :=
  guarded_canonical hs fun _ => of_ite (endX_canonical hs) (tlbRemove_canonical hs)

@[simp] theorem deferStore_mem (f : Flight) (c : Cause) (va : DWord) (left : List HomeWrite) (s : State) :
    (deferStore f c va left s).mem = s.mem := of_option (P := SameMem s) rfl fun _ => State.setPly_mem ..

@[simp] theorem stopStore_mem (core seq : Nat) (f : Flight) (c : Cause) (va : DWord) (left : List HomeWrite) (s : State) :
    (stopStore core seq f c va left s).mem = s.mem := (deferStore_mem ..).trans ((unwaitWaiter_mem ..).trans (modStore_mem ..))

theorem issueAgain_canonical {core seq : Nat} {f : Flight} {w : HomeWrite} {s : State} (hs : MemoryCanonical s) :
    MemoryCanonical (issueAgain core seq f w s).2 := by
  refine of_trans (P := SndCanonical) (fun _ _ _ => ?_) (fun _ => ?_) fun _ => translate_canonical hs
  · refine of_check (P := SndCanonical) ?_ (fun _ => translate_canonical hs) fun _ => translate_canonical hs
    exact plainWrite_canonical (translate_canonical hs)
  · refine of_ite (P := SndCanonical) (translate_canonical hs) ?_
    exact ((translate_canonical hs).of_mem_eq (modStore_mem ..)).of_mem_eq (mergeMiss_mem ..)

theorem issueAll_canonical {core seq : Nat} {f : Flight} {ws : List HomeWrite} {s : State} (hs : MemoryCanonical s) :
    MemoryCanonical (issueAll core seq f ws s) := by
  induction ws generalizing s with
  | nil => exact hs
  | cons w ws ih =>
    exact of_option (ih (issueAgain_canonical hs)) fun _ => (issueAgain_canonical hs).of_mem_eq (stopStore_mem ..)

theorem returnStore_canonical {core : Nat} {s : State} {f : Flight} (hs : MemoryCanonical s) :
    MemoryCanonical (returnStore core s f) := by
  refine of_ite hs (of_ite ?_ ?_)
  · exact (foldl_canonical (fun _ _ ht => ht.of_mem_eq (dropL1_mem ..)) _ (hs.of_mem_eq (modStore_mem ..))).of_mem_eq
      (deferStore_mem ..)
  · exact issueAll_canonical (foldl_canonical (fun _ _ ht => ht.of_mem_eq (dropL1_mem ..)) _ (hs.of_mem_eq (modStore_mem ..)))

theorem sendPartials_canonical {space : Nat} {s : State} {core : Nat} (hs : MemoryCanonical s) :
    MemoryCanonical (sendPartials space s core) :=
  (foldl_canonical (fun _ _ ht => performWrite_canonical ht) _ hs).of_mem_eq (State.modCore_mem ..)

theorem returnStores_canonical {space : Nat} {s : State} {core : Nat} (hs : MemoryCanonical s) :
    MemoryCanonical (returnStores space s core) := foldl_canonical (fun _ _ ht => returnStore_canonical ht) _ hs

theorem advance_canonical {space : Nat} {s : State} (hs : MemoryCanonical s) : MemoryCanonical (advance space s) := by
  have h := foldl_canonical (g := sendPartials space) (fun _ _ ht => sendPartials_canonical ht) s.cores.keys hs
  exact foldl_canonical (fun _ _ ht => returnStores_canonical ht) _ (MemoryCanonical.of_mem_eq h rfl)

theorem execGenb_canonical {d a : SReg} {g : Guard} {s : State} (hs : MemoryCanonical s) : CanonicalOut (execGenb d a g s) := by
  refine guarded_canonical hs fun _ => of_ite (endX_canonical hs) ?_
  exact of_ite trivial (of_ite (advance_canonical hs) ((advance_canonical hs).of_mem_eq (State.modPly_mem ..)))

theorem execGenbComplete_canonical {k : Nat} {s : State} (hs : MemoryCanonical s) : CanonicalOut (execGenbComplete k s) := by
  unfold execGenbComplete
  repeat' split
  · trivial
  · trivial
  · exact hs.of_mem_eq (State.setPly_mem ..)
  · trivial

theorem execWaitnComplete_canonical {k : Nat} {s : State} (hs : MemoryCanonical s) : CanonicalOut (execWaitnComplete k s) := by
  unfold execWaitnComplete
  repeat' split
  · trivial
  · exact hs.of_mem_eq (State.setPly_mem ..)
  · trivial
  · trivial

/-! ### Machine/Frames.lean -/

@[simp] theorem setFrames_mem (x : FrameState) (fs : List Nat) (s : State) : (setFrames x fs s).mem = s.mem := rfl

theorem execScrbStart_canonical {d a b : SReg} {g : Guard} {s : State} (hs : MemoryCanonical s) :
    CanonicalOut (execScrbStart d a b g s) :=
  guarded_canonical hs fun _ => of_some (fun _ => of_some (fun _ => of_ite hs hs) hs) hs

theorem execScrbQuery_canonical {d a : SReg} {g : Guard} {s : State} (hs : MemoryCanonical s) :
    CanonicalOut (execScrbQuery d a g s) := by
  refine guarded_canonical hs fun _ => ?_
  exact of_option (hs.of_mem_eq (State.setPly_mem ..)) fun _ => hs.of_mem_eq (State.setPly_mem ..)

@[simp] theorem endJob_mem (i : Nat) (j : ScrubJob) (s : State) : (endJob i j s).mem = s.mem :=
  of_option (P := SameMem s) rfl fun _ => setPevt_mem ..

theorem execScrbAbort_canonical {a : SReg} {g : Guard} {s : State} (hs : MemoryCanonical s) :
    CanonicalOut (execScrbAbort a g s) := by
  refine guarded_canonical hs fun _ => of_option (endX_canonical hs) fun _ => ?_
  exact of_ite (endX_canonical hs) (endX_canonical ((hs.of_mem_eq (setFrames_mem ..)).of_mem_eq (endJob_mem ..)))

theorem cleanFrame_canonical {f : Nat} {s : State} (hs : MemoryCanonical s) : MemoryCanonical (cleanFrame f s) := by
  unfold cleanFrame
  dsimp only
  split
  · exact Memory.wf_filter _ _ hs
  · exact writeAt_canonical hs

theorem execScrubJobProgress_canonical {i : Nat} {s : State} (hs : MemoryCanonical s) :
    CanonicalOut (execScrubJobProgress i s) := by
  refine of_option trivial fun _ => of_ite trivial ?_
  exact of_ite ((of_ite hs ((cleanFrame_canonical hs).of_mem_eq (setFrames_mem ..))).of_mem_eq (endJob_mem ..))
    (of_ite hs ((cleanFrame_canonical hs).of_mem_eq (setFrames_mem ..)))

theorem execScrubDeferral_canonical {stack : Nat} {on : Bool} {s : State} (hs : MemoryCanonical s) :
    CanonicalOut (execScrubDeferral stack on s) := of_ite trivial hs

theorem statusEnd_canonical {s : State} {d : SReg} {st : Nat} (hs : MemoryCanonical s) : (statusEnd s d st).Canonical :=
  hs.of_mem_eq (State.modPly_mem ..)

theorem execBind_canonical {d a b : SReg} {g : Guard} {s : State} (hs : MemoryCanonical s) : CanonicalOut (execBind d a b g s) := by
  refine guarded_canonical hs fun _ => of_option (statusEnd_canonical hs) fun _ => of_ite (statusEnd_canonical hs) ?_
  refine of_ite (statusEnd_canonical hs) (of_ite (statusEnd_canonical hs) ?_)
  exact statusEnd_canonical ((hs.of_mem_eq (evictL2_mem ..)).of_mem_eq (setFrames_mem ..))

@[simp] theorem uncacheFrames_mem (f n : Nat) (s : State) : (uncacheFrames f n s).mem = s.mem := evictL2_mem ..

@[simp] theorem retireFrames_mem (fs : List Nat) (s : State) : (retireFrames fs s).mem = s.mem := by
  simp [retireFrames, foldl_mem]

theorem execUnbind_canonical {d a b : SReg} {g : Guard} {s : State} (hs : MemoryCanonical s) :
    CanonicalOut (execUnbind d a b g s) := by
  refine guarded_canonical hs fun _ => of_option (statusEnd_canonical hs) fun _ => of_ite (statusEnd_canonical hs) ?_
  refine of_ite (statusEnd_canonical hs) (of_ite trivial ?_)
  exact statusEnd_canonical (((hs.of_mem_eq (uncacheFrames_mem ..)).of_mem_eq (setFrames_mem ..)).of_mem_eq (retireFrames_mem ..))

theorem execKzro_canonical {a : SReg} {g : Guard} {s : State} (hs : MemoryCanonical s) : CanonicalOut (execKzro a g s) :=
  guarded_canonical hs fun _ => of_ite (endX_canonical hs) (of_ite trivial (endX_canonical hs))

@[simp] theorem scrubWord_mem (s : State) (x : Nat) : (scrubWord s x).mem = s.mem := (logLatent_mem ..).trans (findError_mem ..)

@[simp] theorem notePass_mem (stack line : Nat) (s : State) : (notePass stack line s).mem = s.mem := by
  unfold notePass; rfl

theorem execPatrolScrub_canonical {pa : Nat} {s : State} (hs : MemoryCanonical s) : CanonicalOut (execPatrolScrub pa s) := by
  unfold execPatrolScrub
  split
  · dsimp only
    split
    · trivial
    · exact (foldl_canonical (fun _ _ ht => ht.of_mem_eq (scrubWord_mem ..)) _ hs).of_mem_eq (notePass_mem ..)
  · trivial

theorem latentError_canonical {pa : Nat} {bad l2 : Bool} {s : State} (hs : MemoryCanonical s) :
    CanonicalOut (latentError pa bad l2 s) := by
  unfold latentError
  repeat' split
  · trivial
  · exact hs
  · trivial

theorem rowError_canonical {core row lane : Nat} {bad : Bool} {s : State} (hs : MemoryCanonical s) :
    CanonicalOut (rowError core row lane bad s) := of_option trivial fun _ => of_ite trivial (hs.of_mem_eq (State.modCore_mem ..))

theorem uniformError_canonical {core offset : Nat} {reader : Option Nat} {bad : Bool} {s : State} (hs : MemoryCanonical s) :
    CanonicalOut (uniformError core offset reader bad s) := by
  refine of_option ?_ fun _ => ?_
  · exact of_ite ((hs.of_mem_eq (State.modCore_mem ..)).of_mem_eq (coreEvent_mem ..)) hs
  · refine of_option trivial fun _ => of_ite trivial (of_ite (hs.of_mem_eq (coreEvent_mem ..)) ?_)
    exact ((hs.of_mem_eq (State.modCore_mem ..)).of_mem_eq (State.setPly_mem ..)).of_mem_eq (errorEvent_mem ..)

theorem tileStoreError_canonical {core granule byte : Nat} {bad : Bool} {s : State} (hs : MemoryCanonical s) :
    CanonicalOut (tileStoreError core granule byte bad s) :=
  of_option trivial fun _ => of_ite trivial (hs.of_mem_eq (State.modTile_mem ..))

theorem spoilL1_canonical {core line : Nat} {s : State} (hs : MemoryCanonical s) : CanonicalOut (spoilL1 core line s) :=
  of_ite (hs.of_mem_eq (State.modCore_mem ..)) trivial

theorem spoilCode_canonical {core line : Nat} {s : State} (hs : MemoryCanonical s) : CanonicalOut (spoilCode core line s) :=
  of_ite (hs.of_mem_eq (State.modCore_mem ..)) trivial

theorem execStorageError_canonical {e : ArrayError} {s : State} (hs : MemoryCanonical s) : CanonicalOut (execStorageError e s) := by
  cases e with
  | hbm => exact latentError_canonical hs
  | l2 => exact latentError_canonical hs
  | rowStore => exact rowError_canonical hs
  | uniformStore => exact uniformError_canonical hs
  | tileStore => exact tileStoreError_canonical hs
  | l1Line => exact spoilL1_canonical hs
  | instructionCache => exact spoilCode_canonical hs
  | tlb => exact hs

/-! ### Machine/Faults.lean -/

theorem execLoadLanding_canonical {seq : Nat} {s : State} (hs : MemoryCanonical s) : CanonicalOut (execLoadLanding seq s) :=
  of_option trivial fun _ => of_ite hs (of_ite trivial (hs.of_mem_eq (State.modCore_mem ..)))

theorem execStoreAck_canonical {seq : Nat} {s : State} (hs : MemoryCanonical s) : CanonicalOut (execStoreAck seq s) := by
  refine of_option trivial fun _ => of_ite trivial ?_
  exact (foldl_canonical (fun _ _ ht => performWrite_canonical ht) _ hs).of_mem_eq (State.modCore_mem ..)

theorem execMonitorWake_canonical {k : Nat} {s : State} (hs : MemoryCanonical s) : CanonicalOut (execMonitorWake k s) := by
  refine of_option trivial fun p => ?_
  cases p.wait with
  | monitor m =>
    have hw (t : State) (ht : MemoryCanonical t) :
        MemoryCanonical (acquire (coreOf k) m.scope (dropL1 (coreOf k) (lineOf m.pa) (t.setPly k p.wakeDone))) :=
      ht.of_mem_eq ((acquire_mem ..).trans ((dropL1_mem ..).trans (State.setPly_mem ..)))
    have ho (n : Nat) : MemoryCanonical (outsideRead m.pa n s).2 := hs.of_mem_eq (outsideRead_mem ..)
    dsimp only
    cases targetAt s.io m.pa with
    | memory | register => exact of_ite (hw _ hs) trivial
    | package | host | absent => exact of_ite (P := MemoryCanonical) (hw _ (ho _)) (ho _)
  | _ => trivial

theorem execRowWaitRetry_canonical {k : Nat} {s : State} (hs : MemoryCanonical s) : CanonicalOut (execRowWaitRetry k s) := by
  unfold execRowWaitRetry
  repeat' split
  · trivial
  · exact hs.of_mem_eq (State.setPly_mem ..)
  · trivial
  · trivial

theorem execRowStarvation_canonical {core : Nat} {s : State} (hs : MemoryCanonical s) :
    CanonicalOut (execRowStarvation core s) := by
  refine of_some (fun _ => ?_) trivial
  refine of_some (fun _ => ?_) trivial
  refine of_ite ?_ trivial
  refine of_option trivial fun _ => ?_
  exact ((hs.of_mem_eq (State.modCore_mem ..)).of_mem_eq (State.setPly_mem ..)).of_mem_eq (takeCause_mem ..)

@[simp] theorem noteStarved_mem (s : State) : (noteStarved s).mem = s.mem :=
  of_ite (P := SameMem s) (foldl_mem (fun t _ => of_ite (P := SameMem t) rfl (State.setCore_mem ..)) _ _) rfl

theorem execDeferredCause_canonical {k : Nat} {s : State} (hs : MemoryCanonical s) : CanonicalOut (execDeferredCause k s) := by
  refine of_option trivial fun _ => of_list trivial fun _ _ => of_ite trivial ?_
  exact of_ite ((hs.of_mem_eq (State.setPly_mem ..)).of_mem_eq (settleCause_mem ..))
    ((hs.of_mem_eq (State.setPly_mem ..)).of_mem_eq (routeCause_mem ..))

theorem execUserInterruptDelivery_canonical {k : Nat} {s : State} (hs : MemoryCanonical s) :
    CanonicalOut (execUserInterruptDelivery k s) := by
  refine of_option trivial fun _ => of_ite trivial ?_
  refine of_ite ?_ ((hs.of_mem_eq (withdraw_mem ..)).of_mem_eq (State.modPly_mem ..))
  exact of_ite trivial ((hs.of_mem_eq (withdraw_mem ..)).of_mem_eq (State.modPly_mem ..))

theorem execIllegalInstruction_canonical {c : DecodeCause} {s : State} (hs : MemoryCanonical s) :
    CanonicalOut (execIllegalInstruction c s) := of_option trivial fun _ => hs.of_mem_eq (takeCause_mem ..)

theorem execFaultEntryTaken_canonical {d : Nat} {s : State} (hs : MemoryCanonical s) : CanonicalOut (execFaultEntryTaken d s) :=
  of_list trivial fun _ _ => of_ite trivial (hs.of_mem_eq (mergeMiss_mem ..))

theorem takeAway_mem {core seq vpage : Nat} {s t : State} {f : Flight} {ws : List HomeWrite}
    (e : takeAway core seq vpage s = some (f, ws, t)) : t.mem = s.mem := by
  revert e
  refine of_option (P := fun y => y = some (f, ws, t) → SameMem s t) nofun fun _ => ?_
  rintro ⟨⟩
  exact modStore_mem ..

theorem serveWaiter_canonical {vpage : Nat} {cause : Option Cause} {s : State} {w : Waiter} (hs : MemoryCanonical s) :
    MemoryCanonical (serveWaiter vpage cause s w) := by
  cases w with
  | ply =>
    cases cause with
    | none =>
      refine of_option hs fun _ => of_ite hs (MemoryCanonical.of_mem_eq ?_ (dropL1All_mem ..))
      exact of_ite (hs.of_mem_eq (State.setPly_mem ..)) hs
    | some => exact of_option hs fun _ => of_ite (hs.of_mem_eq ((haltPly_mem ..).trans (unwaitMerges_mem ..))) hs
  | copy =>
    cases cause with
    | none => exact hs.of_mem_eq (modCopy_mem ..)
    | some => exact of_option hs fun _ => hs.of_mem_eq ((stopCopy_mem ..).trans (unwaitCopy_mem ..))
  | store =>
    cases cause with
    | none =>
      exact of_option_eq hs fun _ h => issueAll_canonical (hs.of_mem_eq ((dropL1All_mem ..).trans (takeAway_mem h)))
    | some => exact of_option hs fun _ => hs.of_mem_eq (stopStore_mem ..)

theorem execFaultReply_canonical {d : Nat} {s : State} (hs : MemoryCanonical s) : CanonicalOut (execFaultReply d s) := by
  have hq := loadQueue_canonical (core := none) (tenant := none) (x := ringPlace s (60 + d)) (kind := .ring (60 + d)) hs
  unfold execFaultReply
  dsimp only
  split
  · trivial
  · split
    · rename_i q t hload
      rw [hload] at hq
      split
      · trivial
      · have hp : MemoryCanonical (putQueue (ringPlace s (60 + d)) (q.pop 1)
            (placeRead none (placeOf t.io (q.entryVa q.head).toNat) 32 t).2) :=
          (placeRead_canonical hq).of_mem_eq (putQueue_mem ..)
        split
        · exact hp
        · split
          · exact hp
          · exact foldl_canonical (fun _ _ hu => serveWaiter_canonical hu) _ (MemoryCanonical.of_mem_eq hp rfl)
    · trivial

theorem execStaleAccessReturn_canonical {a : StaleAccess} {s : State} (hs : MemoryCanonical s) :
    CanonicalOut (execStaleAccessReturn a s) := by
  cases a with
  | fetch => exact of_option trivial fun _ => of_ite trivial (of_ite hs (hs.of_mem_eq (takeCause_mem ..)))
  | data => exact of_option trivial fun _ => of_ite trivial hs
  | copy =>
    refine of_option trivial fun _ => of_option trivial fun _ => of_ite trivial (of_ite ?_ ?_)
    · exact hs.of_mem_eq (modCopy_mem ..)
    · exact hs.of_mem_eq (stopCopy_mem ..)

/-! ### Machine/LaneFloat.lean -/

theorem fp2_canonical {i : Instr} {d a : VReg} {b : LaneSrc} {f : FEnv → Nat → Nat → Nat × Conds} {s : State}
    (hs : MemoryCanonical s) : CanonicalOut (fp2 i d a b f s) := perform_canonical hs fun _ => fpWrite_canonical hs

theorem fp1_canonical {i : Instr} {d a : VReg} {f : FEnv → Nat → Nat × Conds} {s : State} (hs : MemoryCanonical s) :
    CanonicalOut (fp1 i d a f s) := perform_canonical hs fun _ => fpWrite_canonical hs

theorem fp3_canonical {i : Instr} {d a b c : VReg} {f : FEnv → Nat → Nat → Nat → Nat × Conds} {s : State} (hs : MemoryCanonical s) :
    CanonicalOut (fp3 i d a b c f s) := perform_canonical hs fun _ => fpWrite_canonical hs

/-! ### Machine/LaneInt.lean -/

theorem predLogic_canonical {i : Instr} {d : PReg} {f : Ply → DWord} {s : State} (hs : MemoryCanonical s) :
    CanonicalOut (predLogic i d f s) := perform_canonical hs fun _ => hs.of_mem_eq (State.setPly_mem ..)

theorem shuffle_canonical {i : Instr} {d a : VReg} {b : LaneSrc} {j : Nat → Nat → Nat → Nat} {s : State} (hs : MemoryCanonical s) :
    CanonicalOut (shuffle i d a b j s) := perform_canonical hs fun _ => laneWrite_canonical hs

/-! ### Machine/Sched.lean -/

theorem pagesOk_canonical {v : Viewer} {d : RunDesc} {s : State} (hs : MemoryCanonical s) : MemoryCanonical (pagesOk v d s).2 := by
  refine of_ite (P := SndCanonical) (rangeReaches_canonical (rangeReaches_canonical hs)) ?_
  exact rangeReaches_canonical (rangeReaches_canonical (rangeReaches_canonical hs))

theorem writeRecord_canonical {v : Viewer} {d : RunDesc} {head tail : List Byte} {s : State} (hs : MemoryCanonical s) :
    MemoryCanonical (writeRecord v d head tail s) := by
  refine of_option (unitWrite_canonical (unitWrite_canonical hs)) fun _ => ?_
  exact (unitWrite_canonical (unitWrite_canonical hs)).of_mem_eq (unitWake_mem ..)

@[simp] theorem releaseReserved_mem (prio : Nat) (s : State) : (releaseReserved prio s).mem = s.mem := rfl

theorem admitRun_canonical {t : BitVec 4} {pusher : Pusher} {v : Viewer} {bad : Bool} {d : RunDesc} {s : State}
    (hs : MemoryCanonical s) : MemoryCanonical (admitRun t pusher v bad d s) := by
  unfold admitRun
  generalize hp : pagesOk v d s = p
  have ht : MemoryCanonical p.2 := hp ▸ pagesOk_canonical hs
  obtain ⟨ok, t⟩ := p
  dsimp only at ht ⊢
  have hw {u : State} (hu : MemoryCanonical u) (n : Nat) :
      MemoryCanonical (writeRecord v d (recordHead 0 n true false) (recordTail 0 0 0 0 0) u) := writeRecord_canonical hu
  refine of_ite (hw ht _) (of_ite (hw ht _) (of_ite (hw ht _) (of_ite (hw ht _) ?_)))
  generalize hr : (if d.skipmap = 0 then _ else _ : Option (List Byte) × State) = r
  have hu : MemoryCanonical r.2 := hr ▸ of_ite (P := SndCanonical) ht (unitRead_canonical ht)
  exact of_option (hw hu _) fun _ => hu

theorem execRunAccept_canonical {t : Nat} {s : State} (hs : MemoryCanonical s) : CanonicalOut (execRunAccept t s) := by
  refine of_ite trivial ?_
  dsimp only
  generalize hq : loadQueue _ _ _ _ s = q
  have hl : MemoryCanonical q.2 := hq ▸ loadQueue_canonical hs
  obtain ⟨q, u⟩ := q
  refine of_loaded (fun q => of_ite trivial ?_) trivial
  generalize hi : placeRead _ _ _ u = i
  have hp : MemoryCanonical i.2 := hi ▸ placeRead_canonical hl
  obtain ⟨i, u⟩ := i
  dsimp only
  generalize hb : (if i.error.isSome then (none, putQueue _ _ u) else unitRead _ _ _ _ _) = b
  have hr : MemoryCanonical b.2 := hb ▸ of_ite (P := SndCanonical) (MemoryCanonical.of_mem_eq hp (putQueue_mem ..))
    (unitRead_canonical (MemoryCanonical.of_mem_eq hp (putQueue_mem ..)))
  obtain ⟨_ | _, u⟩ := b
  · exact hr
  · dsimp only
    generalize hc : unitRead _ _ _ _ u = c
    have hv : MemoryCanonical c.2 := hc ▸ unitRead_canonical hr
    obtain ⟨_ | _, u⟩ := c
    · exact writeRecord_canonical hv
    · exact admitRun_canonical hv

theorem execRunAging_canonical {run : Nat} {s : State} (hs : MemoryCanonical s) : CanonicalOut (execRunAging run s) :=
  of_option trivial fun _ => of_ite trivial ((hs.of_mem_eq (State.setRun_mem ..)).of_mem_eq (releaseReserved_mem ..))

@[simp] theorem startPly_mem (k : Nat) (r : Run) (ident : Ident) (s : State) : (startPly k r ident s).mem = s.mem := rfl

@[simp] theorem startTeam_mem (run : Nat) (r : Run) (s : State) (x : Reservation) : (startTeam run r s x).mem = s.mem :=
  (foldl_mem (fun _ _ => startPly_mem ..) _ _).trans (acquire_mem ..)

@[simp] theorem commitGang_mem (run : Nat) (r : Run) (s : State) : (commitGang run r s).mem = s.mem := by
  refine of_ite (P := SameMem s) (State.setRun_mem ..) (of_option (State.setRun_mem ..) fun _ => ?_)
  exact (State.setRun_mem ..).trans (foldl_mem (fun _ _ => startTeam_mem ..) _ _)

theorem execGangReserve_canonical {s : State} (hs : MemoryCanonical s) : CanonicalOut (execGangReserve s) := by
  refine of_option trivial fun _ => of_ite trivial ?_
  refine of_option (of_ite trivial (hs.of_mem_eq (commitGang_mem ..))) fun _ => ?_
  exact of_option trivial fun _ => hs.of_mem_eq (commitGang_mem ..)

theorem execTeamRetire_canonical {run team : Nat} {s : State} (hs : MemoryCanonical s) :
    CanonicalOut (execTeamRetire run team s) := by
  refine of_some (fun _ => ?_) trivial
  refine of_some (fun _ => ?_) trivial
  exact of_ite trivial ((hs.of_mem_eq (State.setTeam_mem ..)).of_mem_eq (State.setRun_mem ..))

@[simp] theorem dropMoulds_mem (run : Nat) (s : State) (core : Nat) : (dropMoulds run s core).mem = s.mem :=
  foldl_mem (fun _ _ => dropMould_mem ..) _ _

@[simp] theorem leaveQueues_mem (run : Nat) (s : State) : (leaveQueues run s).mem = s.mem :=
  foldl_mem (fun t _ => of_ite (P := SameMem t) rfl (of_ite (P := SameMem t) (dropQueue_mem ..) (putQueue_mem ..))) _ _

@[simp] theorem releaseRun_mem (run : Nat) (s : State) : (releaseRun run s).mem = s.mem :=
  (leaveQueues_mem ..).trans (foldl_mem (fun _ _ => dropMoulds_mem ..) _ _)

theorem endRun_canonical {run : Nat} {r : Run} {s : State} (hs : MemoryCanonical s) : MemoryCanonical (endRun run r s) := by
  unfold endRun
  exact writeRecord_canonical (unitWrite_canonical (hs.of_mem_eq (releaseRun_mem ..)))

theorem execRunEnd_canonical {run : Nat} {s : State} (hs : MemoryCanonical s) : CanonicalOut (execRunEnd run s) :=
  of_option trivial fun _ => of_ite trivial (endRun_canonical hs)

theorem finishBlock_canonical {core : Nat} {x : Copy} {s : State} {off : Nat} (hs : MemoryCanonical s) :
    MemoryCanonical (finishBlock core x s off) := by
  refine of_option hs fun _ => ?_
  generalize hr : landBlock _ _ _ _ _ _ s = r
  have hl : r.Canonical := hr ▸ landBlock_canonical hs
  cases r with
  | landed => exact hl
  | held | stop | fault => exact hs

theorem finishCopy_canonical {core : Nat} {x : Copy} {s : State} (hs : MemoryCanonical s) : MemoryCanonical (finishCopy core x s) :=
  foldl_canonical (fun _ _ ht => finishBlock_canonical ht) _ hs

theorem settleWrites_canonical {run : Nat} {s : State} {core : Nat} (hs : MemoryCanonical s) :
    MemoryCanonical (settleWrites run s core) := by
  have h1 (u : State) (hu : MemoryCanonical u) (l : List Flight) :
      MemoryCanonical (l.foldl (fun s f => f.writes.foldl (performWrite core) s) u) :=
    foldl_canonical (fun _ _ hv => foldl_canonical (fun _ _ hw => performWrite_canonical hw) _ hv) l hu
  have h2 (u : State) (hu : MemoryCanonical u) (l : List Copy) : MemoryCanonical (l.foldl (fun s x => finishCopy core x s) u) :=
    foldl_canonical (fun _ _ hv => finishCopy_canonical hv) l hu
  have h3 (u : State) (hu : MemoryCanonical u) (l : List Copy) : MemoryCanonical (l.foldl (fun s x => unwaitCopy core x.seq s) u) :=
    foldl_canonical (fun _ _ hv => hv.of_mem_eq (unwaitCopy_mem ..)) l hu
  exact (h3 _ (h2 _ (h1 _ (hs.of_mem_eq (State.modCore_mem ..)) _) _) _).of_mem_eq (State.modCore_mem ..)

theorem deliverAll_canonical {w : Window} {es : List Pending} {s : State} (hs : MemoryCanonical s) :
    MemoryCanonical (deliverAll w es s).2 := by
  induction es generalizing s with
  | nil => exact hs
  | cons e es ih =>
    refine of_ite (P := SndCanonical) (ih hs) ?_
    have ha : (arrivalOf s w e).Canonical := arrivalOf_canonical hs
    generalize arrivalOf s w e = y at ha ⊢
    cases y with
    | taken => exact ih ha
    | full | waits => exact hs

theorem settleWindow_canonical {run : Nat} {s : State} {w : Window} (hs : MemoryCanonical s) :
    MemoryCanonical (settleWindow run s w) := by
  unfold settleWindow
  dsimp only
  generalize hr : (if linkDown _ _ _ then ([], _) else deliverAll w _ _) = r
  have ht : MemoryCanonical r.2 := hr ▸ of_ite (P := SndCanonical) hs (deliverAll_canonical hs)
  exact of_ite (MemoryCanonical.of_mem_eq ht (dropWindow_mem ..)) (MemoryCanonical.of_mem_eq ht (setWindow_mem ..))

theorem settlePushes_canonical {run : Nat} {s : State} (hs : MemoryCanonical s) : MemoryCanonical (settlePushes run s) :=
  foldl_canonical (fun _ _ ht => settleWindow_canonical ht) _ hs

@[simp] theorem loseBytes_mem (run : Nat) (s : State) : (loseBytes run s).mem = s.mem := rfl

theorem loseRun_canonical {s : State} {run : Nat} (hs : MemoryCanonical s) : MemoryCanonical (loseRun s run) := by
  refine of_option (hs.of_mem_eq (retireDone_mem ..)) fun _ => ?_
  exact endRun_canonical
    ((settlePushes_canonical
    (foldl_canonical (fun _ _ ht => settleWrites_canonical ht) _
    (foldl_canonical (fun _ _ ht => ht.of_mem_eq (killPly_mem ..)) _
    ((hs.of_mem_eq (retireDone_mem ..)).of_mem_eq (State.setRun_mem ..))))).of_mem_eq (loseBytes_mem ..))

theorem execDieLinkLoss_canonical {a b : Nat} {s : State} (hs : MemoryCanonical s) : CanonicalOut (execDieLinkLoss a b s) :=
  of_ite trivial (foldl_canonical (fun _ _ ht => loseRun_canonical ht) _ hs)

/-! ### Machine/Uniform.lean -/

theorem uniform2_canonical {i : Instr} {g : Guard} {d a b : SReg} {f : DWord → DWord → DWord} {s : State} (hs : MemoryCanonical s) :
    CanonicalOut (uniform2 i g d a b f s) :=
  uniform_canonical hs

theorem uniformDivide_canonical {i : Instr} {g : Guard} {d a b : SReg} {f : DWord → DWord → DWord} {s : State}
    (hs : MemoryCanonical s) : CanonicalOut (uniformDivide i g d a b f s) :=
  guarded_canonical hs fun _ => of_ite hs (hs.of_mem_eq (State.setPly_mem ..))

theorem uniformImm_canonical {j : Instr} {g : Guard} {d : SReg} {i : BitVec 15} {f : DWord → DWord → DWord} {s : State}
    (hs : MemoryCanonical s) : CanonicalOut (uniformImm j g d i f s) :=
  uniform_canonical hs

theorem execEmwr_canonical {a : VReg} {g : Guard} {s : State} (hs : MemoryCanonical s) : CanonicalOut (execEmwr a g s) :=
  guarded_canonical hs fun _ => of_ite hs (gated_canonical hs (fun _ => hs.of_mem_eq (State.setPly_mem ..)))

theorem execEmandp_canonical {a : PReg} {g : Guard} {s : State} (hs : MemoryCanonical s) : CanonicalOut (execEmandp a g s) :=
  guarded_canonical hs fun _ => of_ite hs (hs.of_mem_eq (State.setPly_mem ..))

/-! ### Machine/Dispatch.lean -/

theorem exec_canonical {i : Instr} {s : State} (hs : MemoryCanonical s) : CanonicalOut (exec i s) := by
  unfold exec
  cases i with
  | iadd | isub | imul | imulhi | imulhu | imin | imax | iminu | imaxu | iaddsat | isubsat | iaddusat | isubusat | iabsd
  | andB | orB | xorB | andn | orn | xnor | shl | shr | sar | rotl | rotr | bfx | bfxs | fcopysign => exact lane2_canonical hs
  | popc | clz | brev | iaddi | imuli | andi | ori | xori | shli | shri | sari | fclass | mov => exact lane1_canonical hs
  | movi | sel | ptov | iscan | lsr => exact perform_canonical hs fun _ => laneWrite_canonical hs
  | icmp | vtop => exact perform_canonical hs fun _ => lanePred_canonical hs
  | fcmp => exact perform_canonical hs fun _ => fpPred_canonical hs
  | bfi => exact lane3_canonical hs
  | fadd | fsub | fmul | fmin | fmax | fminm | fmaxm | fscale | badd2 | bmul2 | bmin2 | bmax2 => exact fp2_canonical hs
  | frcp | fsqrt | frsq | fexp2 | flog2 | ffloor | fceil | ftrunc | frint => exact fp1_canonical hs
  | ffma | ffms | bfma2 | bfms2 => exact fp3_canonical hs
  | cvt => exact perform_canonical hs fun _ => fpWrite_canonical hs
  | pand | por | pxor | pandn => exact predLogic_canonical hs
  | shfl | shflx | shflup | shfldn => exact shuffle_canonical hs
  | ld | lda => exact laneLoad_canonical hs
  | st | str => exact laneStore_canonical hs
  | atom | atomar | cas => exact laneAtomic_canonical hs
  | red => exact execRed_canonical hs
  | redq => exact execRedq_canonical hs
  | ldrep => exact execLdrep_canonical hs
  | pref => exact execPref_canonical hs
  | tld => exact execTld_canonical hs
  | tst => exact execTst_canonical hs
  | mma | mmai => exact matIssue_canonical hs
  | mstate => exact frameOp_canonical hs fun _ _ => laneWrite_canonical hs
  | mfill => exact execMfill_canonical hs
  | rnsf | rnsfw => exact residueWrite_canonical hs
  | rnsadd | rnsmul | rnsaddw | rnsmulw => exact residue2_canonical hs
  | rnsneg | rnsnegw => exact residue1_canonical hs
  | rnsr | rnsrw | rnschk | rnschkw => exact residueDecode_canonical hs
  | uadd | usub | umul | umulhi | umulhu | umin | umax | uminu | uand | uor | uxor | uandn | ushl | ushr | usar | umaxu
  | ubfx => exact uniform2_canonical hs
  | upopc | uclz | uctz | ushli | ushri | usari | ulit | ulitS | ulitHi | emrd | vote | empop => exact uniform_canonical hs
  | udivu | uremu => exact uniformDivide_canonical hs
  | uaddi | uandi | uori | uxori | umovi | umuli => exact uniformImm_canonical hs
  | ucmp | ucmpi | qand | qor | qxor | qandn => exact uniformQ_canonical hs
  | bra | call | kpin | minfo | trap | sysc | iregClose => exact guarded_canonical hs fun _ => hs
  | brx | callx | ret => exact guarded_canonical hs fun _ => branchTo_canonical hs
  | brv => exact execBrv_canonical hs
  | kmeet => exact execKmeet_canonical hs
  | emwr => exact execEmwr_canonical hs
  | emandp => exact execEmandp_canonical hs
  | v2s | v2s64 | redu => exact guarded_canonical hs fun _ => gated_canonical hs fun _ => hs
  | s2v => exact guarded_canonical hs fun _ => laneWrite_canonical hs
  | uld | ulda => exact guarded_canonical hs fun _ => uniformRead_canonical hs
  | ust | ustr => exact guarded_canonical hs fun _ => uniformWrite_canonical hs
  | uatom | ucas => exact uniformAtomic_canonical hs
  | fence | fenceAcq | fenceRel => exact fenceAt_canonical hs
  | waitc => exact execWaitc_canonical hs
  | waitn => exact execWaitn_canonical hs
  | srd => exact execSrd_canonical hs
  | swr => exact guarded_canonical hs fun _ => specialWrite_canonical hs
  | emWrite | cadd | rnsstatWrite | registerWrite => exact registerStep_canonical hs
  | talloc => exact execTalloc_canonical hs
  | talloct => exact execTalloct_canonical hs
  | tfree => exact execTfree_canonical hs
  | cpyin | cpyout => exact tensorCopy_canonical hs
  | cpytt => exact execCpytt_canonical hs
  | cpyfill => exact execCpyfill_canonical hs
  | tbind => exact execTbind_canonical hs
  | cbld => exact guarded_canonical hs fun _ => fetchBytes_canonical hs fun _ _ ht => ht.of_mem_eq (State.modPly_mem ..)
  | bshr => exact execBshr_canonical hs
  | frz => exact execFrz_canonical hs
  | rstr => exact execRstr_canonical hs
  | cast => exact execCast_canonical hs
  | drop => exact execDrop_canonical hs
  | stamp => exact execStamp_canonical hs
  | pbind => exact execPbind_canonical hs
  | ptkt => exact execPtkt_canonical hs
  | pdone => exact execPdone_canonical hs
  | pwait => exact execPwait_canonical hs
  | pquit => exact heldForm_canonical hs fun _ _ _ => hs.of_mem_eq (by simp)
  | give => exact execGive_canonical hs
  | claim => exact execClaim_canonical hs
  | qpop => exact execQpop_canonical hs
  | qpopt => exact execQpopt_canonical hs
  | qpopl => exact execQpopl_canonical hs
  | qpush => exact execQpush_canonical hs
  | qpushl => exact execQpushl_canonical hs
  | qcnt => exact guarded_canonical hs fun _ => queueOp_canonical hs fun _ _ _ ht => ht.of_mem_eq (State.modPly_mem ..)
  | bara => exact execBara_canonical hs
  | baraw => exact execBaraw_canonical hs
  | barw => exact execBarw_canonical hs
  | lwait => exact execLwait_canonical hs
  | lwaitArm => exact execLwaitArm_canonical hs
  | lwake | lwakeInt => exact lwakeForm_canonical hs
  | nop => exact execNop_canonical hs
  | exit => exact execExit_canonical hs
  | yld => exact execYld_canonical hs
  | iret => exact execIret_canonical hs
  | brk => exact execBrk_canonical hs
  | wmk => exact execWmk_canonical hs
  | ireg => exact execIreg_canonical hs
  | xrdv => exact execXrdv_canonical hs
  | xwrv => exact execXwrv_canonical hs
  | xrds | xwrs | xrpk => exact onHalted_canonical hs fun _ _ _ => endX_canonical hs
  | xrdsp => exact execXrdsp_canonical hs
  | xwrsp => exact execXwrsp_canonical hs
  | xwpk => exact execXwpk_canonical hs
  | idle => exact execIdle_canonical hs
  | rfeResume | rfeDeliver | rfeKill | rfeResumeNoReplay | rfeReturn => exact rfeWord_canonical hs
  | psrd => exact execPsrd_canonical hs
  | pswr => exact execPswr_canonical hs
  | tlbiPage | tlbiRange | tlbiAs => exact tlbForm_canonical hs
  | tlbiAll => exact guarded_canonical hs fun _ => tlbRemove_canonical hs
  | genb => exact execGenb_canonical hs
  | scrbStart => exact execScrbStart_canonical hs
  | scrbQuery => exact execScrbQuery_canonical hs
  | scrbAbort => exact execScrbAbort_canonical hs
  | kzro => exact execKzro_canonical hs
  | mboxSend => exact execMboxSend_canonical hs
  | mboxRecv => exact execMboxRecv_canonical hs
  | mboxPeek => exact execMboxPeek_canonical hs
  | bind => exact execBind_canonical hs
  | unbind => exact execUnbind_canonical hs
  | loadLanding => exact execLoadLanding_canonical hs
  | storeAck => exact execStoreAck_canonical hs
  | monitorWake => exact execMonitorWake_canonical hs
  | copyBlockLand => exact execCopyBlockLand_canonical hs
  | copyStop => exact execCopyStop_canonical hs
  | deferredCause => exact execDeferredCause_canonical hs
  | mmaComplete => exact execMmaComplete_canonical hs
  | engineThaw => exact execEngineThaw_canonical hs
  | pageWalk => exact execPageWalk_canonical hs
  | faultEntryTaken => exact execFaultEntryTaken_canonical hs
  | faultReply => exact execFaultReply_canonical hs
  | staleAccessReturn => exact execStaleAccessReturn_canonical hs
  | queueEntryArrival => exact execQueueEntryArrival_canonical hs
  | queueNack => exact execQueueNack_canonical hs
  | queueBackoff => exact execQueueBackoff_canonical hs
  | queueAck => exact execQueueAck_canonical hs
  | userInterruptDelivery => exact execUserInterruptDelivery_canonical hs
  | regionRetry => exact execRegionRetry_canonical hs
  | waitnComplete => exact execWaitnComplete_canonical hs
  | genbComplete => exact execGenbComplete_canonical hs
  | rowWaitRetry => exact execRowWaitRetry_canonical hs
  | rowStarvation => exact execRowStarvation_canonical hs
  | stampQueuePlace => exact execStampQueuePlace_canonical hs
  | exportComplete => exact execExportComplete_canonical hs
  | runAccept => exact execRunAccept_canonical hs
  | runAging => exact execRunAging_canonical hs
  | gangReserve => exact execGangReserve_canonical hs
  | teamRetire => exact execTeamRetire_canonical hs
  | runEnd => exact execRunEnd_canonical hs
  | dieLinkLoss => exact execDieLinkLoss_canonical hs
  | prePreempt => exact execPrePreempt_canonical hs
  | preRestore => exact execPreRestore_canonical hs
  | tcfgWrite | kwayWrite | subqWrite => exact hypIndexed_canonical hs
  | sweepEnd => exact execSweepEnd_canonical hs
  | mbtabWrite => exact execMbtabWrite_canonical hs
  | csplitWrite => exact execCsplitWrite_canonical hs
  | carveOutApply => exact execCarveOutApply_canonical hs
  | keyctlLoad => exact execKeyctlLoad_canonical hs
  | keyctlLoadDone => exact execKeyctlLoadDone_canonical hs
  | injctlArm => exact execInjctlArm_canonical hs
  | patrolScrub => exact execPatrolScrub_canonical hs
  | scrubJobProgress => exact execScrubJobProgress_canonical hs
  | scrubDeferral => exact execScrubDeferral_canonical hs
  | coldReset => exact coldReset_canonical s
  | functionReset => exact execFunctionReset_canonical hs
  | restartFr => exact execRestartFr_canonical hs
  | restartCp => exact execRestartCp_canonical hs
  | firmwareVerify => exact execFirmwareVerify_canonical hs
  | attreqWrite => exact execAttreqWrite_canonical hs
  | thermalThrottle => exact execThermalThrottle_canonical hs
  | thermalTrip => exact execThermalTrip_canonical
  | pushPortWrite => exact execPushPortWrite_canonical hs
  | bar2Access => exact execBar2Access_canonical hs
  | orderingPointForward => exact execOrderingPointForward_canonical hs
  | latchWake => exact execLatchWake_canonical hs
  | latchKey => exact execLatchKey_canonical hs
  | latchStatus => exact execLatchStatus_canonical hs
  | sqTailDoorbell => exact execSqTailDoorbell_canonical hs
  | cqHeadDoorbell => exact execCqHeadDoorbell_canonical hs
  | nvmeDma => exact execNvmeDma_canonical hs
  | nvmeCompletionInterrupt => exact execNvmeCompletionInterrupt_canonical hs
  | aktumRequest => exact execAktumRequest_canonical hs
  | aktumFlit => exact execAktumFlit_canonical hs
  | aktumRetrain => exact execAktumRetrain_canonical hs
  | illegalInstruction => exact execIllegalInstruction_canonical hs
  | storageError => exact execStorageError_canonical hs
  | aktumPortDown => exact execAktumPortDown_canonical hs
  | aktumPortUp => exact execAktumPortUp_canonical hs
  | hbmStackTrained => exact execHbmStackTrained_canonical hs
  | hostPortTrained => exact hs
  | nvmeLinkUp => exact execNvmeLinkUp_canonical hs
  | podBarrierMessage => exact execPodBarrierMessage_canonical hs

/-! ### Machine/Turn.lean -/

@[simp] theorem checkCode_mem (c : Nat) (v : Viewer) (line : Nat) (s : State) : (checkCode c v line s).mem = s.mem :=
  of_ite (P := SameMem s) ((coreEvent_mem ..).trans (State.modCore_mem ..)) rfl

theorem codeImage_canonical {a n : Nat} {s : State} (hs : MemoryCanonical s) : MemoryCanonical (codeImage a n s).2 := by
  unfold codeImage
  exact (combineLine_canonical (hs.of_mem_eq (touchL2_mem ..))).of_mem_eq (correctWords_mem ..)

theorem fillCode_canonical {c : Nat} {v : Viewer} {a : Nat} {s : State} (hs : MemoryCanonical s) :
    MemoryCanonical (fillCode c v a s).2 := by
  refine of_ite (P := SndCanonical) ?_ ?_
  · exact foldl_canonical (fun _ _ ht => ht.of_mem_eq (logLatent_mem ..)) _ (codeImage_canonical hs)
  · exact foldl_canonical (fun _ _ ht => ht.of_mem_eq (logLatent_mem ..)) _ (codeImage_canonical hs)

theorem fetchedImage_canonical {c : Nat} {v : Viewer} {x : Nat} {s : State} (hs : MemoryCanonical s) :
    MemoryCanonical (fetchedImage c v x s).2 := by
  unfold fetchedImage
  dsimp only
  repeat' split
  · exact codeImage_canonical hs
  · exact hs.of_mem_eq (checkCode_mem ..)
  · exact fillCode_canonical (hs.of_mem_eq (checkCode_mem ..))
  · exact hs
  · exact hs.of_mem_eq (outsideRead_mem ..)

theorem fetchWord_canonical {k : Nat} {p : Ply} {pc : Pc} {s : State} (hs : MemoryCanonical s) :
    MemoryCanonical (fetchWord k p pc s).2 := by
  refine of_trans (P := SndCanonical) (fun _ _ _ => ?_) (fun _ => translate_canonical hs) fun _ => translate_canonical hs
  refine of_check (P := SndCanonical) ?_ (fun _ => translate_canonical hs) fun _ => translate_canonical hs
  refine of_option (P := SndCanonical) (fetchedImage_canonical (translate_canonical hs)) fun _ => ?_
  exact (fetchedImage_canonical (translate_canonical hs)).of_mem_eq (consumeRecord_mem ..)

theorem fetch_canonical {k : Nat} {p : Ply} {s : State} (hs : MemoryCanonical s) : MemoryCanonical (fetch k p s).2 := by
  unfold fetch
  generalize hr : fetchWord _ _ _ s = r
  have ht : MemoryCanonical r.2 := hr ▸ fetchWord_canonical hs
  obtain ⟨_ | _ | _ | _, t⟩ := r
  case word =>
    refine of_ite (P := SndCanonical) ht ?_
    generalize hr : fetchWord _ _ _ t = r
    have hu : MemoryCanonical r.2 := hr ▸ fetchWord_canonical ht
    obtain ⟨_ | _ | _ | _, u⟩ := r
    case word => exact hu
    all_goals exact of_ite (P := SndCanonical) ht hu
  all_goals exact ht

@[simp] theorem issueState_mem (k : Nat) (s : State) : (issueState k s).mem = s.mem := State.modPly_mem ..

theorem issue_canonical {k : Nat} {p : Ply} {s : State} (hs : MemoryCanonical s) : CanonicalOut (issue k p s) := by
  have hf : MemoryCanonical (fetch k p s).2 := fetch_canonical hs
  unfold issue
  split
  · rename_i hfetch; rw [hfetch] at hf; exact exec_canonical (hf.of_mem_eq (issueState_mem ..))
  · rename_i hfetch; rw [hfetch] at hf; exact MemoryCanonical.of_mem_eq (s := _) (MemoryCanonical.of_mem_eq hf rfl)
      (parkOnPages_mem ..)
  · rename_i hfetch; rw [hfetch] at hf; exact MemoryCanonical.of_mem_eq (MemoryCanonical.of_mem_eq hf rfl) (takeCause_mem ..)
  · trivial

@[simp] theorem notePasses_mem (k : Nat) (lane : Bool) (cs : List (Nat × Ply)) (s : State) : (notePasses k lane cs s).mem = s.mem :=
  rfl

@[simp] theorem unstall_mem (s : State) : (unstall s).mem = s.mem := by
  unfold unstall; split <;> rfl

theorem afterTurn_canonical {t s : State} {k : Nat} {p : Ply} (hs : MemoryCanonical s) : MemoryCanonical (afterTurn t k p s) :=
  of_ite hs ((hs.of_mem_eq (notePasses_mem ..)).of_mem_eq (unstall_mem ..))

theorem mapNext_canonical {f : State → State} {o : Out} (ho : CanonicalOut o)
    (hf : ∀ t, MemoryCanonical t → MemoryCanonical (f t)) :
    CanonicalOut (mapNext f o) := by
  cases o with
  | next s => exact hf s ho
  | fault | refused => trivial

theorem turn_canonical {k : Nat} {s : State} (hs : MemoryCanonical s) : CanonicalOut (turn k s) := by
  have hun (t : State) (ht : MemoryCanonical t) : MemoryCanonical (unstall t) := ht.of_mem_eq (unstall_mem t)
  have hcur : MemoryCanonical { s with cur := k } := hs
  unfold turn
  split
  · trivial
  · split
    · trivial
    · split
      · exact mapNext_canonical (execDeferredCause_canonical hs) hun
      · split
        · exact mapNext_canonical (execUserInterruptDelivery_canonical hs) hun
        · split
          · exact hun _ (reissue_canonical hcur)
          · exact mapNext_canonical (issue_canonical hs) fun t ht => afterTurn_canonical (s := t) ht

theorem firstEvent_canonical {s : State} {l : List Instr} {o : Out} (hs : MemoryCanonical s) (h : firstEvent s l = some o) :
    CanonicalOut o := by
  induction l with
  | nil => cases h
  | cons i l ih =>
    have hi : CanonicalOut (exec i s) := exec_canonical hs
    unfold firstEvent at h
    split at h
    · exact ih h
    · cases h
      exact hi

theorem tick_canonical {s : State} (hs : MemoryCanonical s) : MemoryCanonical (tick s) :=
  hs.of_mem_eq (noteStarved_mem ..)

theorem ownOrder_canonical {s : State} (hs : MemoryCanonical s) : CanonicalOut (ownOrder s) := by
  have hun (t : State) (ht : MemoryCanonical t) : MemoryCanonical (unstall t) := ht.of_mem_eq (unstall_mem t)
  have hunit (o : Out) (ho : CanonicalOut o) :
      CanonicalOut (match firstEvent s (eventOrder s) with | some o => mapNext unstall o | none => o) := by
    split
    · rename_i o' hfirst
      exact mapNext_canonical (firstEvent_canonical hs hfirst) hun
    · exact ho
  unfold ownOrder
  dsimp only
  split
  · split
    · exact turn_canonical hs
    · exact hunit _ (turn_canonical hs)
  · exact hunit (.next s) hs

theorem oneStep_canonical {s : State} (hs : MemoryCanonical s) : CanonicalOut (oneStep s) := by
  have ht : MemoryCanonical (tick s) := tick_canonical hs
  unfold oneStep
  dsimp only
  split
  · exact ownOrder_canonical ht
  · exact turn_canonical (MemoryCanonical.of_mem_eq ht rfl)
  · exact mapNext_canonical (exec_canonical (MemoryCanonical.of_mem_eq ht rfl)) fun t hu => hu.of_mem_eq (unstall_mem t)

/-- Settles O56: every function that a step calls keeps the canonical form, and a step is `oneStep`. -/
theorem stepKeepsMemoryCanonical : Obligations.StepKeepsMemoryCanonical := by
  intro s t hs hstep
  have h : CanonicalOut (oneStep s) := oneStep_canonical hs
  rwa [show oneStep s = .next t from hstep] at h

end Sys2Proof.Machine
end

section
/-! SUPPORT. What a write at home leaves: memory with its bytes, the line under its key, and none of its bytes lost; and the bytes
of a number, the lowest first (R1, R295, R296). -/
namespace Sys2Proof.Machine

/-! ### Bytes of a number, the lowest first -/

@[simp] theorem length_bytesLE (v n : Nat) : (bytesLE v n).length = n := by
  induction n generalizing v with
  | zero => rfl
  | succ n ih => simp [bytesLE, ih]

theorem ofBytesLE_bytesLE (v n : Nat) : ofBytesLE (bytesLE v n) = v % 2 ^ (8 * n) := by
  induction n generalizing v with
  | zero => simp [bytesLE, ofBytesLE, Nat.mod_one]
  | succ n ih =>
    have hpow : 2 ^ (8 * (n + 1)) = 256 * 2 ^ (8 * n) := by rw [Nat.mul_succ, Nat.pow_add]; omega
    simp only [bytesLE, ofBytesLE, BitVec.toNat_ofNat, ih, hpow, Nat.mod_mul]

theorem getElem_bytesLE (v n j : Nat) (h : j < (bytesLE v n).length) :
    (bytesLE v n)[j] = BitVec.ofNat 8 (v / 2 ^ (8 * j)) := by
  induction n generalizing v j with
  | zero => exact absurd h (Nat.not_lt_zero j)
  | succ n ih =>
    cases j with
    | zero => simp [bytesLE]
    | succ j =>
      have hpow : 2 ^ (8 * (j + 1)) = 256 * 2 ^ (8 * j) := by rw [Nat.mul_succ, Nat.pow_add]; omega
      simp only [bytesLE, List.getElem_cons_succ, ih, hpow, Nat.div_div_eq_div_mul]

/-! ### What a write at home leaves -/

@[simp] theorem testMonitors_keyOf (line : Nat) (s : State) : (testMonitors line s).keyOf = s.keyOf := by
  unfold testMonitors; split <;> rfl

@[simp] theorem testMonitors_lost (line : Nat) (s : State) : (testMonitors line s).lost = s.lost := by
  unfold testMonitors; split <;> rfl

section
variable {a : Nat} {bs : List Byte} {poison : Option Mark} {s : State}

/-- Under the key of the write, the memory changes by the written bytes alone. -/
theorem writeHome_mem (hk : ∀ k, s.keyOf.find (lineOf a) = some k → k = (keyFor s a).getD 0) :
    (writeHome a bs poison s).mem = Memory.writeBytes s.mem a bs := by
  unfold writeHome
  simp only [testMonitors_mem]
  split
  · rename_i k hline; rw [if_pos (hk k hline)]
  · rfl

theorem writeHome_keyOf : (writeHome a bs poison s).keyOf.find (lineOf a) = some ((keyFor s a).getD 0) := by
  simp [writeHome]

/-- The written bytes are not lost. -/
theorem writeHome_lost {x : Nat} (hx : a ≤ x ∧ x < a + bs.length) : x ∉ (writeHome a bs poison s).lost := by
  have hkeep (l : List Nat) : x ∉ if l.isEmpty then [] else l.filter fun y => !(a ≤ y && y < a + bs.length) := by
    split
    · exact List.not_mem_nil
    · simp [hx.1, hx.2]
  unfold writeHome
  simp only [testMonitors_lost]
  exact hkeep _

/-- A byte that was written reads at home, under the key of the write, as it stands in memory. -/
theorem homeByte_writeHome {x : Nat} (hx : a ≤ x ∧ x < a + bs.length) (hline : lineOf x = lineOf a) :
    homeByte (writeHome a bs poison s) ((keyFor s a).getD 0) x = Memory.read (writeHome a bs poison s).mem x := by
  simp [homeByte, writeHome_lost hx, hline, writeHome_keyOf]

end

/-- The bytes of a write that stays in its line lie in that line. -/
theorem lineOf_add {a j n : Nat} (hj : j < n) (hn : a % 128 + n ≤ 128) : lineOf (a + j) = lineOf a := by
  unfold lineOf; omega

/-- Settles O57: the written bytes are `Memory.writeBytes`, whose reads are known, and the line then stands under the key of the
write with none of these bytes lost. -/
theorem memoryBytes : Obligations.MemoryBytes := by
  intro a bs poison s hs
  refine ⟨writeHome_canonical hs, fun hk => ?_, fun v n => ⟨ofBytesLE_bytesLE v n, getElem_bytesLE v n⟩⟩
  have hread (j : Nat) (h : j < bs.length) : Memory.read (writeHome a bs poison s).mem (a + j) = bs[j] := by
    rw [writeHome_mem hk, Memory.read_writeBytes_inside bs s.mem a j h]
  refine ⟨fun x hx => ?_, hread, fun j h hline => ?_⟩
  · rw [writeHome_mem hk, Memory.read_writeBytes_outside bs s.mem a x hx]
  · rw [homeByte_writeHome ⟨by omega, by omega⟩ (lineOf_add h hline), hread j h]

end Sys2Proof.Machine
end

section
/-! SUPPORT. The uniform registers, the predicates and the lanes of a ply: what each reads after a write (R43). -/
namespace Sys2Proof.Machine

/-- Of the uniform registers, the written one reads the value and the others keep theirs (R43). -/
theorem Ply.sreg_setS_eq (p : Ply) (r x : SReg) (v : DWord) : (p.setS r v).sreg x = if x = r then v else p.sreg x := by
  split
  case isTrue h => rw [h, Ply.sreg_setS]
  case isFalse h => exact Ply.sreg_setS_other p v h

theorem Ply.preg_setP_other (p : Ply) {a b : PReg} (mask v : DWord) (h : b ≠ a) : (p.setP a mask v).preg b = p.preg b := by
  have hn : a.toNat ≠ b.toNat := fun e => h (BitVec.eq_of_toNat_eq e.symm)
  by_cases ha : a = 7
  · rw [ha, Ply.setP_seven]
  · simp only [Ply.preg, Ply.setP, if_neg ha, Vector.getElem_set_ne _ _ hn]

theorem getLsbD_setBitTo_other {n : Nat} (x : BitVec n) {i j : Nat} (b : Bool) (h : j ≠ i) :
    (setBitTo x i b).getLsbD j = x.getLsbD j := by
  have hz : (1#n <<< i).getLsbD j = false := by simp; omega
  unfold setBitTo
  split
  case isTrue => rw [BitVec.getLsbD_or, hz, Bool.or_false]
  case isFalse =>
    rw [BitVec.getLsbD_and, BitVec.getLsbD_not, hz]
    simpa using BitVec.lt_of_getLsbD

theorem Ply.qreg_setQ_other (p : Ply) {q y : QReg} (b : Bool) (h : y ≠ q) : (p.setQ q b).qreg y = p.qreg y := by
  have hn : y.toNat ≠ q.toNat := fun e => h (BitVec.eq_of_toNat_eq e)
  by_cases hq : q = 7
  · rw [hq, Ply.setQ_seven]
  · simp only [Ply.qreg, Ply.setQ, if_neg hq, getLsbD_setBitTo_other _ _ hn]

/-- The lanes of a ply w wide are those below w (R12). -/
theorem getLsbD_allLanes (w l : Nat) : (allLanes w).getLsbD l = decide (l < w ∧ l < 64) := by
  rw [allLanes, BitVec.getLsbD_ofNat, Nat.testBit_two_pow_sub_one]
  by_cases h : l < 64 <;> simp [h]

/-- Settles O59: a write shows in its own register alone, and register 7 is hardwired. -/
theorem hardwiredRegisters : Obligations.HardwiredRegisters := by
  intro p r x v mask a b q y bit
  refine ⟨p.sreg_setS_eq r x v, rfl, rfl, rfl, rfl, fun ha => ?_, fun hq => ?_, getLsbD_allLanes p.width⟩
  · split
    case isTrue h => rw [h, Ply.preg_setP p mask v ha]
    case isFalse h => exact Ply.preg_setP_other p mask v h
  · split
    case isTrue h => rw [h, Ply.qreg_setQ p bit hq]
    case isFalse h => exact Ply.qreg_setQ_other p bit h
end Sys2Proof.Machine
end

section
/-! SUPPORT. The special registers: what SRD reads and what SWR writes, by number (R57, R160). -/
namespace Sys2Proof.Machine
open Sys2Proof.Claim

/-! ### What SRD reads (Tables 3-3 and 3-4) -/

/-- A number of Table 3-3. -/
def ListedSpecial (n : Nat) : Prop :=
  n ≤ 0x00D ∨ (0x010 ≤ n ∧ n ≤ 0x025) ∨ n = 0x028 ∨ n = 0x029 ∨ n = 0x030 ∨ (0x040 ≤ n ∧ n ≤ 0x047) ∨ (0x050 ≤ n ∧ n ≤ 0x057)

section
variable (s : State) (k : Nat) (p : Ply)

/-- The numbers that the table lists one by one are read in a case each, and the banks in the last. -/
theorem readSpecial_eq_none_iff (n : Nat) : readSpecial s k p n = none ↔ ¬ListedSpecial n := by
  unfold readSpecial ListedSpecial
  split
  case h_32 =>
    split
    case isTrue h => simp; omega
    case isFalse =>
      split
      case isTrue h => simp; omega
      case isFalse => simp only [imp_false] at *; simp; omega
  all_goals simp

theorem readSpecial_creg {j : Nat} (hj : j < 8) : readSpecial s k p (0x010 + j) = some (p.creg (BitVec.ofNat 3 j)) := by
  match j, hj with
  | 0, _ | 1, _ | 2, _ | 3, _ | 4, _ | 5, _ | 6, _ | 7, _ => rfl

theorem readSpecial_cadd {j : Nat} (hj : j < 8) : readSpecial s k p (0x050 + j) = some (p.creg (BitVec.ofNat 3 j)) := by
  match j, hj with
  | 0, _ | 1, _ | 2, _ | 3, _ | 4, _ | 5, _ | 6, _ | 7, _ => rfl

theorem readSpecial_pin {j : Nat} (hj : j < 8) : readSpecial s k p (0x040 + j) = some (p.pin (BitVec.ofNat 3 j)).word := by
  match j, hj with
  | 0, _ | 1, _ | 2, _ | 3, _ | 4, _ | 5, _ | 6, _ | 7, _ => rfl
end

/-! ### What SWR writes (R12, R54, R160) -/

section
variable (p : Ply) (v : DWord)

theorem field_low_three : field v 0 3 = v.toNat % 8 := by simp [field]

theorem writeSpecial_em : writeSpecial p 0x000 v = if p.diverged then .cause .emDiverged else .done (p.setEm v) := rfl

theorem writeSpecial_rnsstat : writeSpecial p 0x00D v = .done (p.clearRnsstat v) := rfl

theorem writeSpecial_fpmode : writeSpecial p 0x009 v =
    if v.toNat % 8 < 5 then .done { p with a := { p.a with fpmode := v.setWidth 9 } } else .cause .specialReg := by
  unfold writeSpecial
  rw [field_low_three]
  by_cases h : v.toNat % 8 < 5
  · simp [h, Nat.not_le.mpr h, writeFields]
  · simp [h, Nat.not_lt.mp h]

theorem writeSpecial_creg {j : Nat} (hj : j < 8) : writeSpecial p (0x010 + j) v = .done (p.setC (BitVec.ofNat 3 j) v) := by
  match j, hj with
  | 0, _ | 1, _ | 2, _ | 3, _ | 4, _ | 5, _ | 6, _ | 7, _ => rfl

theorem writeSpecial_cadd {j : Nat} (hj : j < 8) :
    writeSpecial p (0x050 + j) v = .done (p.setC (BitVec.ofNat 3 j) (p.creg (BitVec.ofNat 3 j) + v)) := by
  match j, hj with
  | 0, _ | 1, _ | 2, _ | 3, _ | 4, _ | 5, _ | 6, _ | 7, _ => rfl

theorem writeFields_eq_none {n : Nat} (h : n ∉ [0x009, 0x00A, 0x00B, 0x01D, 0x020, 0x021, 0x023, 0x024, 0x025, 0x030])
    (hc : ¬(0x010 ≤ n ∧ n ≤ 0x017)) : writeFields p n v = none := by
  unfold writeFields
  split
  case h_11 => rw [if_neg hc]
  all_goals simp at h

theorem writeSpecial_unlisted {n : Nat}
    (h : n ∉ [0x000, 0x009, 0x00A, 0x00B, 0x00D, 0x01D, 0x01E, 0x020, 0x021, 0x023, 0x024, 0x025, 0x030])
    (hc : ¬(0x010 ≤ n ∧ n ≤ 0x017)) (ha : ¬(0x050 ≤ n ∧ n ≤ 0x057)) : writeSpecial p n v = .cause .specialReg := by
  simp only [List.mem_cons, List.not_mem_nil, or_false, not_or] at h
  have hf : writeFields p n v = none := writeFields_eq_none p v (by simp; omega) hc
  simp [writeSpecial, h, ha, hf]

theorem writeFields_pc {n : Nat} {q : Ply} (h : writeFields p n v = some q) : q.a.pc = p.a.pc := by
  unfold writeFields at h
  split at h
  case h_11 =>
    split at h
    case isTrue => cases h; rfl
    case isFalse => cases h
  all_goals cases h; rfl

theorem writeSpecial_pc {n : Nat} {q : Ply} (h : writeSpecial p n v = .done q) : q.a.pc = p.a.pc := by
  unfold writeSpecial at h
  repeat' split at h
  case h_1 hf => cases h; exact writeFields_pc p v hf
  all_goals cases h
  all_goals rfl
end

/-! ### Running SRD, SWR and the rows that name a register write -/

section
variable {s : State} {p : Ply}

theorem specialWrite_done {n : Nat} {v : DWord} {q : Ply} (h : writeSpecial p n v = .done q) :
    specialWrite s p n v = .next (s.setPly s.cur q) := by
  rw [specialWrite, h]

theorem specialWrite_cause {n : Nat} {v : DWord} {c : Cause} (h : writeSpecial p n v = .cause c) :
    specialWrite s p n v = .before s c 0 0 := by
  rw [specialWrite, h]

theorem registerStep_done {n : Nat} {v : DWord} {q : Ply} (hp : Acts s p) (h : writeSpecial p n v = .done q) :
    registerStep s n v = .next (s.setPly s.cur q) := by
  have hp : s.ply s.cur = some p := hp
  simp only [registerStep, hp, h]

theorem exec_srd_listed {d : SReg} {n : BitVec 12} {g : Guard} {x : DWord} (hp : Acts s p) (hg : guardHolds g p = true)
    (h : readSpecial s s.cur p n.toNat = some x) : exec (.srd d n g) s = .next (s.setPly s.cur (past (.srd d n g) (p.setS d x))) :=
  guarded_past hp hg (by simp only [h]) rfl

theorem exec_swr_done {d : SReg} {n : BitVec 12} {g : Guard} {q : Ply} (hp : Acts s p) (hg : guardHolds g p = true)
    (h : writeSpecial p n.toNat (p.sreg d) = .done q) (hpc : q.a.pc = p.a.pc) :
    exec (.swr d n g) s = .next (s.setPly s.cur (past (.swr d n g) q)) :=
  guarded_past hp hg (specialWrite_done h) hpc
end

/-- Settles O18: each clause is what reading or writing the register, or running such a word, says above. -/
theorem specialRegisters : Obligations.SpecialRegisters := by
  refine ⟨fun d n c v g s p hp hg => ?_, fun p v => ?_, fun s k p => ⟨?_, fun j hj => ?_, readSpecial_eq_none_iff s k p⟩⟩
  · refine ⟨fun x => exec_srd_listed hp hg, fun h => ?_, fun q => exec_swr_done hp hg, fun x h => ?_,
      fun q => registerStep_done hp, fun h => ?_, ?_, ?_⟩
    · exact raises_guarded hp hg rfl (by simp only [h])
    · exact raises_guarded hp hg rfl (specialWrite_cause h)
    · exact registerStep_done hp (by rw [writeSpecial_em, h]; rfl)
    · refine registerStep_done hp ?_
      rw [writeSpecial_cadd p v c.isLt, BitVec.ofNat_toNat, BitVec.setWidth_eq]
    · exact registerStep_done hp (writeSpecial_rnsstat p v)
  · refine ⟨fun h => ?_, fun h => ?_, fun h => ?_, fun h => ?_, rfl, rfl, rfl, rfl, rfl, rfl, rfl, rfl, rfl, rfl, fun j hj => ?_, rfl,
      fun n => writeSpecial_unlisted p v, fun n q => writeSpecial_pc p v⟩
    · rw [writeSpecial_em, h]; rfl
    · rw [writeSpecial_em, h]; rfl
    · rw [writeSpecial_fpmode, if_pos h]
    · rw [writeSpecial_fpmode, if_neg (Nat.not_lt.mpr h)]
    · exact ⟨writeSpecial_creg p v hj, writeSpecial_cadd p v hj⟩
  · have hp : (if p.a.phase = true then 1 else 0) = BitVec.ofNat 64 p.a.phase.toNat := by cases p.a.phase <;> rfl
    have hs : (if p.scopestat = true then 1 else 0) = BitVec.ofNat 64 p.scopestat.toNat := by cases p.scopestat <;> rfl
    rw [hp, hs]
    simp only [List.forall_mem_cons]
    exact ⟨rfl, rfl, rfl, rfl, rfl, rfl, rfl, rfl, rfl, rfl, rfl, rfl, rfl, rfl, rfl, rfl, rfl, rfl, rfl, rfl, rfl, rfl, rfl, rfl, rfl,
      rfl, rfl, rfl, rfl, rfl, rfl, fun x hx => nomatch hx⟩
  · exact ⟨readSpecial_creg s k p hj, readSpecial_cadd s k p hj, readSpecial_pin s k p hj⟩
end Sys2Proof.Machine
end

section
/-! SUPPORT. The copy engine: a block that lands, a copy that stops, and a completion register that reaches zero (R54, R227, R228). -/
namespace Sys2Proof.Machine

/-! ### A block of a copy (R84, R227, R228) -/

section
variable {seq block core : Nat} {c : Cause} {x : Copy} {s u : State}

theorem copyBlock_landed {tile src : Tile} {n : Nat} {left : List Nat} (ht : teamTile s (some x.team) x.tile = some tile)
    (hsrc : (teamTile s (some x.team) x.source).getD tile = src) (hn : blockLen x tile src block = n)
    (hleft : x.left.filter (· != block) = left) (hl : landBlock core x tile src block n s = .landed u) :
    copyBlock core x block s = .ok (landBytes x.ply x.uid x.cr n (if left = [] then endCopy core x u
      else modCopy core x.seq (fun y => { y with left := left, stale := y.stale.drop block }) u)) := by
  simp only [copyBlock, ht, hsrc, hn, hl, hleft, List.isEmpty_iff]

/-- A block that nothing holds back does what `copyBlock` says. -/
theorem exec_copyBlockLand_ok (hf : findCopy s seq = some (core, x)) (hh : x.held = false) (hb : x.left.contains block = true)
    (ht : tileHeld s core seq (x.run == 0) (copyUses s x) = false) (hc : copyBlock core x block s = .ok u) :
    exec (.copyBlockLand seq block) s = .next u := by
  simp only [exec_copyBlockLand, execCopyBlockLand, hf, hh, hb, ht, hc, Bool.not_true, Bool.or_self, Bool.false_eq_true, if_false]

/-- The first of the blocks left that meets the cause stops the copy. -/
theorem exec_copyStop_first {pre post : List Nat} {off : Nat} (hf : findCopy s seq = some (core, x)) (hh : x.held = false)
    (hl : x.left = pre ++ off :: post) (hpre : ∀ b ∈ pre, blockStop s core x c b = none) (hu : blockStop s core x c off = some u) :
    exec (.copyStop seq c) s = .next (stopCopy core x c 0 (unwaitCopy core seq u)) := by
  have hfirst : x.left.findSome? (blockStop s core x c) = some u := by
    rw [hl, List.findSome?_append, List.findSome?_eq_none_iff.mpr hpre, List.findSome?_cons_of_isSome (by simp [hu])]
    simpa using hu
  simp [execCopyStop, hf, hh, hfirst]
end

/-! ### The completion register (R54) -/

section
variable {k n : Nat} {cr : CReg} {p : Ply} {u : State}

theorem State.live_of_ply (h : u.ply k = some p) : u.live k p.uid = some p := by
  simp [State.live, h]

/-- A register that does not cross zero is lowered, and nothing else happens. -/
theorem landBytes_above (h : u.ply k = some p)
    (hz : (p.creg cr).toInt ≤ 0 ∨ 0 < (p.creg cr - BitVec.ofNat 64 n).toInt) :
    landBytes k p.uid cr n u = u.setPly k (p.setC cr (p.creg cr - BitVec.ofNat 64 n)) := by
  have hif : (decide ((p.creg cr).toInt ≤ 0) || decide ((p.creg cr - BitVec.ofNat 64 n).toInt > 0)) = true := by
    rw [Bool.or_eq_true, decide_eq_true_eq, decide_eq_true_eq]; exact hz
  simp only [landBytes, State.live_of_ply h, hif, if_true]

/-- A register that crosses zero has its ply find that out. -/
theorem landBytes_zero (h : u.ply k = some p) (ho : 0 < (p.creg cr).toInt)
    (hn : (p.creg cr - BitVec.ofNat 64 n).toInt ≤ 0) :
    landBytes k p.uid cr n u = reachZero k cr (u.setPly k (p.setC cr (p.creg cr - BitVec.ofNat 64 n))) := by
  have hif : (decide ((p.creg cr).toInt ≤ 0) || decide ((p.creg cr - BitVec.ofNat 64 n).toInt > 0)) = false := by
    rw [Bool.or_eq_false_iff, decide_eq_false_iff_not, decide_eq_false_iff_not]; exact ⟨Int.not_le.mpr ho, Int.not_lt.mpr hn⟩
  simp only [landBytes, State.live_of_ply h, hif, Bool.false_eq_true, if_false]

/-- The interrupt of a completion register becomes pending where UICTL says so. -/
def Ply.noteZero (p : Ply) (cr : CReg) : Ply :=
  if p.a.uictl.getLsbD (16 + cr.toNat) then { p with pendCopy := setBitTo p.pendCopy cr.toNat true } else p

theorem reachZero_setPly (q : Ply) : reachZero k cr (u.setPly k q) = u.setPly k
    (if q.state = .yielded ∧ q.wait = .copy cr true then (q.noteZero cr).wakeDone
      else if q.state = .yielded ∧ q.wait = .copy cr false then (q.noteZero cr).wakeAgain else q.noteZero cr) := by
  have hw : (q.noteZero cr).wait = q.wait := by unfold Ply.noteZero; split <;> rfl
  have hs : (q.noteZero cr).state = q.state := by unfold Ply.noteZero; split <;> rfl
  rw [reachZero, State.modPly_setPly]
  congr 1
  change (match (q.noteZero cr).wait with
    | .copy c' whole => if c' = cr && (q.noteZero cr).state == SlotState.yielded then
        (if whole then (q.noteZero cr).wakeDone else (q.noteZero cr).wakeAgain) else q.noteZero cr
    | _ => q.noteZero cr) = _
  rw [hw, hs]
  split
  case h_1 c' whole h =>
    rw [h]
    cases whole <;> simp [and_comm]
  case h_2 h =>
    rw [if_neg fun e => h _ _ e.2, if_neg fun e => h _ _ e.2]
end

/-- Settles O26: a block lands through `copyBlock`, a copy stops with the first block that meets the cause, and a completion
register that crosses zero goes through `reachZero`. -/
theorem copiesRun : Obligations.CopiesRun := by
  intro seq block core c x s hf hh
  refine ⟨fun tile u hb hheld ht hl => ?_, fun pre off post u => exec_copyStop_first hf hh, fun u k n cr p hp => ⟨?_, fun ho hn => ?_⟩⟩
  · exact exec_copyBlockLand_ok hf hh hb hheld (copyBlock_landed ht rfl rfl rfl hl)
  · exact landBytes_above hp
  · rw [landBytes_zero hp ho hn, reachZero_setPly]
    rfl
end Sys2Proof.Machine
end

section
/-! SUPPORT. Row maps as GIVE and CLAIM change them: the counts of the rows that leave a map, and the rows that the pool gives (R46, R49, R232). -/
namespace Sys2Proof.Machine
open Sys2Proof.Claim

/-! ### Rows that leave a map (R46, R49) -/

/-- What is left of a row when `uses` of its holders have let go of it; none when it has returned to the pool. -/
def Row.released (r : Row) (uses : Nat) : Option Row :=
  if uses = 0 ∨ uses < r.count then some { r with count := r.count - uses } else none

@[simp] theorem Row.released_zero (r : Row) : r.released 0 = some r := by simp [Row.released]

/-- Holders let go one after the other. -/
theorem Row.released_succ (r : Row) (uses : Nat) : r.released (uses + 1) = (r.released 1).bind fun x => x.released uses := by
  by_cases h : 1 < r.count
  · simp only [Row.released, h, or_true, if_true, Option.bind_some, Nat.sub_sub, Nat.add_comm 1 uses]
    by_cases hu : uses + 1 < r.count
    · rw [if_pos (Or.inr hu), if_pos (Or.inr (by omega))]
    · rw [if_neg (by omega), if_neg (by omega)]
  · simp only [Row.released]
    rw [if_neg (by omega), if_neg (by omega), Option.bind_none]

theorem Row.released_one (r : Row) : r.released 1 = if r.count ≤ 1 then none else some { r with count := r.count - 1 } := by
  unfold Row.released
  split
  case isTrue h => rw [if_neg (by omega)]
  case isFalse h => rw [if_pos (by omega)]

theorem Core.find_dropRow (c : Core) (n m : Nat) :
    (c.dropRow n).rows.find m = if m = n then (c.rows.find n).bind fun r => r.released 1 else c.rows.find m := by
  unfold Core.dropRow
  split
  case h_1 r h =>
    rw [h, Option.bind_some, Row.released_one]
    split
    case isTrue =>
      change (c.rows.drop n).find m = if m = n then none else c.rows.find m
      split
      case isTrue e => rw [e, Map.find_drop_same]
      case isFalse e => exact Map.find_drop_other _ e
    case isFalse => exact Map.find_put ..
  case h_2 h =>
    split
    case isTrue e => rw [e, h, Option.bind_none]
    case isFalse => rfl

theorem Core.find_dropRows (ns : List Nat) (c : Core) (m : Nat) :
    (ns.foldl Core.dropRow c).rows.find m = (c.rows.find m).bind fun r => r.released (ns.count m) := by
  induction ns generalizing c with
  | nil => simp
  | cons n ns ih =>
    rw [List.foldl_cons, ih, Core.find_dropRow, List.count_cons]
    by_cases h : m = n
    · subst h
      rw [if_pos rfl, Option.bind_assoc]
      simp only [beq_self_eq_true, if_true, Row.released_succ _ (List.count m ns)]
    · rw [if_neg h, if_neg (by simpa using Ne.symm h), Nat.add_zero]

/-- A core that differs from another in its rows and its set of retired rows alone. -/
def Core.RowsOnly (c c' : Core) : Prop := c' = { c with rows := c'.rows, retiredRows := c'.retiredRows }

theorem Core.RowsOnly.trans {a b c : Core} (hab : a.RowsOnly b) (hbc : b.RowsOnly c) : a.RowsOnly c := by
  unfold Core.RowsOnly at hab hbc ⊢
  rw [hbc, hab]

theorem Core.dropRow_rowsOnly (c : Core) (n : Nat) : c.RowsOnly (c.dropRow n) := by
  unfold Core.dropRow
  split
  · split <;> rfl
  · rfl

theorem Core.dropRows_rowsOnly (ns : List Nat) (c : Core) : c.RowsOnly (ns.foldl Core.dropRow c) := by
  induction ns generalizing c with
  | nil => rfl
  | cons n ns ih => exact (c.dropRow_rowsOnly n).trans (ih _)

theorem Core.dropEntry_eq (c : Core) (e : RowEntry) : c.dropEntry e = (entryRows e).foldl Core.dropRow c := by
  cases e <;> rfl

theorem Core.dropMap_eq (c : Core) (m : Vector RowEntry 64) : c.dropMap m = (m.toList.flatMap entryRows).foldl Core.dropRow c := by
  rw [Core.dropMap, List.foldl_flatMap]
  congr
  funext c e
  exact c.dropEntry_eq e

/-! ### The records of the rows that leave the pool (R350) -/

/-- A record changes the registers of reliability, the windows and what is held back, and nothing else. -/
theorem record_eq (d : Nat) (e : ErrorRec) (s : State) :
    ∃ rel ws us, record d e s = { s with rel := rel, windows := ws, unsent := us } := by
  unfold record ringSend sendOrHold windowPush
  dsimp only
  repeat' split
  all_goals exact ⟨_, _, _, rfl⟩

theorem State.releaseMap_eq (s : State) (c : Nat) (m : Vector RowEntry 64) : ∃ rel ws us,
    s.releaseMap c m = { s.setCore c ((s.core c).dropMap m) with rel := rel, windows := ws, unsent := us } := by
  unfold State.releaseMap
  dsimp only
  generalize s.setCore c ((s.core c).dropMap m) = t
  generalize List.filter _ _ = ns
  induction ns generalizing t with
  | nil => exact ⟨_, _, _, rfl⟩
  | cons n ns ih =>
    obtain ⟨rel, ws, us, h⟩ := record_eq (unitOf c) (lastingRecord 4 (.row c n) 0 t) t
    rw [List.foldl_cons, h]
    exact ih _

/-- Releasing a map changes no ply, and of the cores only the one whose rows they are. -/
theorem State.releaseMap_ply (s : State) (c : Nat) (m : Vector RowEntry 64) (k : Nat) : (s.releaseMap c m).ply k = s.ply k := by
  obtain ⟨rel, ws, us, h⟩ := s.releaseMap_eq c m
  rw [h]; rfl

theorem State.releaseMap_core_other (s : State) {c k : Nat} (m : Vector RowEntry 64) (hk : k ≠ c) :
    (s.releaseMap c m).core k = s.core k := by
  obtain ⟨rel, ws, us, h⟩ := s.releaseMap_eq c m
  rw [h]
  exact State.core_setCore_other s _ hk

theorem State.releaseMap_core (s : State) (c : Nat) (m : Vector RowEntry 64) : (s.releaseMap c m).core c = (s.core c).dropMap m := by
  obtain ⟨rel, ws, us, h⟩ := s.releaseMap_eq c m
  rw [h]
  exact State.core_setCore ..

/-! ### The registers from vN to v63 -/

theorem toNat_nthReg {d : VReg} {j : Nat} (hj : j < 64 - d.toNat) : (nthReg d j).toNat = d.toNat + j := by
  simp only [nthReg, BitVec.toNat_add, BitVec.toNat_ofNat]
  omega

theorem mem_regsFrom (d r : VReg) : r ∈ regsFrom d ↔ d ≤ r := by
  have hr := r.isLt
  simp only [regsFrom, List.mem_map, List.mem_range, BitVec.le_def]
  constructor
  · rintro ⟨j, hj, rfl⟩
    rw [toNat_nthReg hj]
    omega
  · intro h
    refine ⟨r.toNat - d.toNat, by omega, BitVec.eq_of_toNat_eq ?_⟩
    rw [toNat_nthReg (by omega)]
    omega

/-- The entry of a register, by its place in the map. -/
theorem Ply.rows_getD (p : Ply) (r : VReg) : p.a.rows.toList.getD r.toNat .zero = p.entry r := by
  have hlen : r.toNat < p.a.rows.toList.length := by
    rw [Vector.length_toList]
    exact r.isLt
  rw [Ply.entry, List.getD_eq_getElem?_getD, List.getElem?_eq_getElem hlen, Option.getD_some, Vector.getElem_toList]

/-- The part of a ply's row map from vN on, whose rows GIVE releases. -/
def Ply.mapFrom (p : Ply) (d : VReg) : Vector RowEntry 64 :=
  Vector.ofFn fun j : Fin 64 => if d.toNat ≤ j.val then p.a.rows.toList.getD j.val .zero else .zero

theorem asMap_eq_mapFrom (p : Ply) (d : VReg) :
    asMap ((List.range 64).map fun j => if d.toNat ≤ j then p.a.rows.toList.getD j .zero else .zero) = p.mapFrom d := by
  unfold asMap Ply.mapFrom
  congr
  funext j
  simp [List.getD_eq_getElem?_getD]

/-- The rows that it releases are those of the registers, in their order. -/
theorem mapFrom_rows (p : Ply) (d : VReg) :
    (p.mapFrom d).toList.flatMap entryRows = (regsFrom d).flatMap fun r => entryRows (p.entry r) := by
  have hlist : (p.mapFrom d).toList =
      (List.range (d.toNat + (64 - d.toNat))).map fun j => if d.toNat ≤ j then p.a.rows.toList.getD j .zero else .zero := by
    have hd := d.isLt
    apply List.ext_getElem
    · simp; omega
    · intro j h1 h2
      simp only [Ply.mapFrom, Vector.getElem_toList, Vector.getElem_ofFn, List.getElem_map, List.getElem_range]
  have hlow : ∀ j ∈ List.range d.toNat, entryRows (if d.toNat ≤ j then p.a.rows.toList.getD j .zero else .zero) = [] := by
    intro j hj
    rw [if_neg (Nat.not_le.mpr (List.mem_range.mp hj))]
    rfl
  have hhigh : ∀ j ∈ List.range (64 - d.toNat), p.a.rows.toList.getD (d.toNat + j) .zero = p.entry (nthReg d j) := by
    intro j hj
    rw [← p.rows_getD, toNat_nthReg (List.mem_range.mp hj)]
  rw [hlist, List.range_add, List.map_append, List.flatMap_append, List.flatMap_map, List.flatMap_eq_nil_iff.mpr hlow, List.nil_append,
    List.map_map, List.flatMap_map, regsFrom, List.flatMap_map]
  rw [List.flatMap_def, List.flatMap_def]
  refine congrArg List.flatten (List.map_congr_left fun j hj => ?_)
  simp only [Function.comp_apply, Nat.le_add_right, if_true, hhigh j hj]

/-! ### Writing several entries of a map -/

theorem setEntries_frame (e : RowEntry) (rs : List VReg) (p : Ply) :
    rs.foldl (fun q r => q.setEntry r e) p =
      { p with a := { p.a with rows := (rs.foldl (fun q r => q.setEntry r e) p).a.rows } } := by
  induction rs generalizing p with
  | nil => rfl
  | cons r rs ih => rw [List.foldl_cons, ih]; rfl

theorem entry_setEntries (e : RowEntry) (rs : List VReg) (p : Ply) (r : VReg) :
    (rs.foldl (fun q r => q.setEntry r e) p).entry r = if r ∈ rs then e else p.entry r := by
  induction rs generalizing p with
  | nil => rfl
  | cons x rs ih =>
    rw [List.foldl_cons, ih]
    by_cases h : r = x
    · simp [h]
    · simp [h, Ply.entry_setEntry_other]

/-- The ply whose registers from vN on are Given. -/
theorem setEntries_given (p : Ply) (d : VReg) : (regsFrom d).foldl (fun q r => q.setEntry r .given) p = { p with a := { p.a with
    rows := Vector.ofFn fun j : Fin 64 => if d.toNat ≤ j.val then .given else p.a.rows.toList.getD j.val .zero } } := by
  have hrows : ((regsFrom d).foldl (fun q r => q.setEntry r .given) p).a.rows =
      Vector.ofFn fun j : Fin 64 => if d.toNat ≤ j.val then .given else p.a.rows.toList.getD j.val .zero := by
    apply Vector.ext
    intro j hj
    have h := entry_setEntries .given (regsFrom d) p (BitVec.ofNatLT j hj)
    simp only [mem_regsFrom, BitVec.le_def, ← p.rows_getD, BitVec.toNat_ofNatLT] at h
    rw [Vector.getElem_ofFn]
    exact h
  rw [setEntries_frame, hrows]

/-! ### Rows taken from the pool (R46, R232) -/

theorem not_mem_of_lowestFreeFrom {used : List Nat} {fuel k n : Nat} (h : lowestFreeFrom used fuel k = some n) : n ∉ used := by
  induction fuel generalizing k with
  | zero => cases h
  | succ fuel ih =>
    unfold lowestFreeFrom at h
    split at h
    case isTrue => exact ih h
    case isFalse hk =>
      cases h
      simpa using hk

theorem Core.not_mem_of_freeRow {c : Core} {n : Nat} (h : c.freeRow = some n) : n ∉ c.rows.keys ++ c.retiredRows := by
  unfold Core.freeRow lowestFree at h
  exact not_mem_of_lowestFreeFrom h

theorem Map.find_eq_none_of_not_mem_keys {α : Type} {m : Map α} {k : Nat} (h : k ∉ m.keys) : m.find k = none := by
  induction m with
  | nil => rfl
  | cons x m ih =>
    simp only [Map.keys, List.map_cons, List.mem_cons, not_or] at h
    obtain ⟨hne, hm⟩ := h
    simp only [Map.find, if_neg hne]
    exact ih hm

/-- A zero-filled row that is taken was free. -/
theorem Core.allocRow_fresh {c c' : Core} {n : Nat} (h : c.allocRow Row.fresh = some (n, c')) :
    c.rows.find n = none ∧ c' = { c with rows := c.rows.put n Row.fresh } := by
  unfold Core.allocRow at h
  dsimp only at h
  split at h
  case h_1 m hm =>
    cases h
    have hfree := Core.not_mem_of_freeRow hm
    rw [List.mem_append, not_or] at hfree
    exact ⟨Map.find_eq_none_of_not_mem_keys hfree.1, rfl⟩
  case h_2 => cases h

/-- Every row that a core holds, another holds as it is. -/
def Core.RowsKept (c c' : Core) : Prop := ∀ n r, c.rows.find n = some r → c'.rows.find n = some r

theorem Core.RowsKept.free {c c' : Core} (h : c.RowsKept c') {n : Nat} (hn : c'.rows.find n = none) : c.rows.find n = none := by
  cases hc : c.rows.find n with
  | none => rfl
  | some r => rw [h n r hc] at hn; cases hn

theorem Core.RowsKept.trans {a b c : Core} (hab : a.RowsKept b) (hbc : b.RowsKept c) : a.RowsKept c :=
  fun n r h => hbc n r (hab n r h)

/-- The rows of a list were free in one core, and are zero-filled with a count of 1 in the other. -/
def Core.Taken (c c' : Core) (ns : List Nat) : Prop := ∀ n ∈ ns, c.rows.find n = none ∧ c'.rows.find n = some Row.fresh

theorem Core.Taken.mono {a b c d : Core} {ns : List Nat} (hab : a.RowsKept b) (h : b.Taken c ns) (hcd : c.RowsKept d) :
    a.Taken d ns :=
  fun n hn => ⟨hab.free (h n hn).1, hcd n _ (h n hn).2⟩

theorem Core.allocRow_fresh_kept {c c' : Core} {n : Nat} (h : c.allocRow Row.fresh = some (n, c')) :
    c.RowsKept c' ∧ c.Taken c' [n] := by
  obtain ⟨hfree, rfl⟩ := Core.allocRow_fresh h
  refine ⟨fun m r hm => ?_, fun m hm => ?_⟩
  · have hne : m ≠ n := fun e => by rw [e, hfree] at hm; cases hm
    exact (Map.find_put_other _ _ hne).trans hm
  · rw [List.mem_singleton.mp hm]
    exact ⟨hfree, Map.find_put_same ..⟩

theorem Core.allocZero_taken {k : Nat} {c c' : Core} {ns : List Nat} (h : c.allocZero k = some (ns, c')) :
    ns.length = k ∧ c.RowsKept c' ∧ c.Taken c' ns := by
  induction k generalizing c ns with
  | zero => cases h; exact ⟨rfl, fun _ _ h => h, fun _ h => nomatch h⟩
  | succ k ih =>
    unfold Core.allocZero at h
    split at h
    case h_2 => cases h
    case h_1 n c1 h1 =>
      split at h
      case h_2 => cases h
      case h_1 ms c2 h2 =>
        cases h
        obtain ⟨hkept, htaken⟩ := Core.allocRow_fresh_kept h1
        obtain ⟨hlen, hkept', htaken'⟩ := ih h2
        refine ⟨congrArg Nat.succ hlen, hkept.trans hkept', fun m hm => ?_⟩
        rcases List.mem_cons.mp hm with rfl | hm
        · exact htaken.mono (fun _ _ h => h) hkept' m (List.mem_singleton_self m)
        · exact htaken'.mono hkept (fun _ _ h => h) m hm

/-- CLAIM keeps the rows that are held and the entries that it is not to map; each that it maps has w/8 new rows. -/
theorem claimAll_taken {rs : List VReg} {c c' : Core} {p q : Ply} (h : claimAll c p rs = some (c', q)) :
    q.a.pc = p.a.pc ∧ c.RowsKept c' ∧ (∀ r ∉ rs, q.entry r = p.entry r) ∧
      ∀ r ∈ rs, ∃ ns, q.entry r = .mapped ns ∧ ns.length = p.width / 8 ∧ c.Taken c' ns := by
  induction rs generalizing c p with
  | nil => cases h; exact ⟨rfl, fun _ _ h => h, fun _ _ => rfl, fun _ h => nomatch h⟩
  | cons x rs ih =>
    unfold claimAll at h
    split at h
    case h_2 => cases h
    case h_1 ns c1 h1 =>
      obtain ⟨hlen, hkept, htaken⟩ := Core.allocZero_taken h1
      obtain ⟨hpc, hkept', hout, hin⟩ := ih h
      refine ⟨hpc, hkept.trans hkept', fun r hr => ?_, fun r hr => ?_⟩
      · rw [List.mem_cons, not_or] at hr
        rw [hout r hr.2, Ply.entry_setEntry_other _ _ hr.1]
      · by_cases hrs : r ∈ rs
        · obtain ⟨ms, he, hl, ht⟩ := hin r hrs
          exact ⟨ms, he, hl, ht.mono hkept fun _ _ h => h⟩
        · have hx : r = x := (List.mem_cons.mp hr).resolve_right hrs
          exact ⟨ns, by rw [hout r hrs, hx, Ply.entry_setEntry], hlen, htaken.mono (fun _ _ h => h) hkept'⟩

/-! ### Running GIVE and CLAIM (R232) -/

section
variable {d : VReg} {g : Guard} {s : State} {p : Ply}

theorem give_releases (hp : Acts s p) (hg : guardHolds g p = true)
    (h : ((regsFrom d).any fun r => (entryRows (p.entry r)).any fun n => (here s).pending n || (here s).locked n) = false) :
    exec (.give d g) s = .next ((s.releaseMap (coreOf s.cur) (p.mapFrom d)).setPly s.cur (pastClosing (.give d g)
      { p with a := { p.a with
        rows := Vector.ofFn fun j : Fin 64 => if d.toNat ≤ j.val then .given else p.a.rows.toList.getD j.val .zero } })) := by
  refine guarded_past hp hg ?_ rfl
  unfold here at h
  simp only [h, asMap_eq_mapFrom, setEntries_given, Bool.false_eq_true, if_false]

theorem give_standsBack (hp : Acts s p) (hg : guardHolds g p = true)
    (h : ((regsFrom d).any fun r => (entryRows (p.entry r)).any fun n => (here s).pending n || (here s).locked n) = true) :
    StandsBack (.give d g) s := by
  refine standsBack_guarded (kd := closing) hp hg rfl ?_
  unfold here at h
  simp only [h, if_true]

/-- How the count of each row falls. -/
theorem find_releaseMap_mapFrom (n : Nat) :
    ((s.releaseMap (coreOf s.cur) (p.mapFrom d)).core (coreOf s.cur)).rows.find n = ((here s).rows.find n).bind fun r =>
      r.released (((regsFrom d).flatMap fun r => entryRows (p.entry r)).filter (· == n)).length := by
  rw [State.releaseMap_core, Core.dropMap_eq, mapFrom_rows, Core.find_dropRows, List.count_eq_length_filter]
  rfl

/-- A ply that did not wait for rows waits for them from now on (R48). -/
theorem rowWait_first (hw : ∀ t, p.wait ≠ .rows t) : rowWait s p = .park s .parked (.rows s.cycle) := by
  unfold rowWait
  split
  case h_1 t ht => exact absurd ht (hw t)
  case h_2 => rfl

theorem claim_parks (hp : Acts s p) (hg : guardHolds g p = true)
    (h : claimAll (here s) p ((regsFrom d).filter fun r => p.entry r == .given) = none) (hw : ∀ t, p.wait ≠ .rows t) :
    Parks closing (.claim d g) s s .parked (.rows s.cycle) := by
  refine parks_guarded hp hg rfl ?_
  unfold here at h
  simp only [h, rowWait_first hw]

theorem claim_maps {c : Core} {q : Ply} (hp : Acts s p) (hg : guardHolds g p = true)
    (h : claimAll (here s) p ((regsFrom d).filter fun r => p.entry r == .given) = some (c, q)) :
    exec (.claim d g) s = .next ((s.setCore (coreOf s.cur) c).setPly s.cur (pastClosing (.claim d g) q)) := by
  refine guarded_past hp hg ?_ (claimAll_taken h).1
  unfold here at h
  simp only [h]
end

/-- Settles O33: GIVE goes through the rows that the registers map, and CLAIM through those that it takes from the pool. -/
theorem giveAndClaim : Obligations.GiveAndClaim := by
  intro d g s p hp hg
  refine ⟨give_standsBack hp hg, fun h => ⟨give_releases hp hg h, State.releaseMap_ply s _ _, fun k hk => State.releaseMap_core_other s _ hk,
    ?_, find_releaseMap_mapFrom⟩, claim_parks hp hg, fun c q h => ?_⟩
  · rw [State.releaseMap_core, Core.dropMap_eq]
    exact Core.dropRows_rowsOnly _ _
  · obtain ⟨-, hkept, hout, hin⟩ := claimAll_taken h
    have hmem (r : VReg) : r ∈ (regsFrom d).filter (fun r => p.entry r == .given) ↔ d ≤ r ∧ p.entry r = .given := by
      rw [List.mem_filter, mem_regsFrom, beq_iff_eq]
    have hclaims (r : VReg) (hr : d ≤ r) (he : p.entry r = .given) := hin r ((hmem r).mpr ⟨hr, he⟩)
    refine ⟨claim_maps hp hg h, fun r hr => hout r fun hm => ?_, fun r hr => hout r fun hm => ?_, fun r hr he => ?_,
      hclaims, hkept⟩
    · exact absurd ((hmem r).mp hm).1 (by simpa using hr)
    · exact hr ((hmem r).mp hm).2
    · by_cases hg : p.entry r = .given
      · obtain ⟨ns, hns, -⟩ := hclaims r hr hg
        rw [hns] at he; cases he
      · rw [hout r fun hm => hg ((hmem r).mp hm).2] at he
        exact hg he
end Sys2Proof.Machine
end

section
/-! SUPPORT. Landings: a load that has writes to wait for, which the statement on landings leaves out (R325). -/
namespace Sys2Proof.Machine

/-- A flight of which more is to come stays in the list of loads when its pieces have landed. -/
theorem loadLanding_more {seq c : Nat} {f : Flight} {s : State} (hf : findFlight s Core.loads seq = some (c, f))
    (hp : f.packet = false) (hw : f.waiting = false) (ha : f.away ≠ []) :
    exec (.loadLanding seq) s = .next (s.modCore c fun x =>
      { f.pieces.foldl landPiece x with loads := modFlight f.seq Flight.rest (f.pieces.foldl landPiece x).loads }) := by
  have hmore : f.more = true := by simp [Flight.more, ha]
  simp [execLoadLanding, hf, hp, hw, landLoad, afterLanding, hmore, Flight.ready]

/-- A load that has a write with an old generation to wait for (R325). Only stores come to have such writes, and yet the statement
speaks of every flight that a core lists as a load. -/
def awayLoad : Flight :=
  { seq := 0, uid := 0, ply := 0, run := 0, tenant := none, space := 0, phys := false, gen := 0, stale := 0
    away := [⟨0, 0, 0, [], none⟩], pc := 0, counted := true, tops := false, rows := [], pieces := [], writes := [], waiting := false
    load := none, packet := false, ctxgen := 0, lines := [] }

/-- Core 0 lists it, and nothing else. -/
def awayLoadState : State := State.reset.setCore 0 { Core.empty with loads := [awayLoad] }

/-- Refutes O47: a load with writes that wait for their pages stays in the flight list after it has landed, where the statement has
it leave. -/
theorem not_landings : ¬ Obligations.Landings := by
  rintro ⟨hloads, -⟩
  have hf : findFlight awayLoadState Core.loads 0 = some (0, awayLoad) := rfl
  obtain ⟨-, hleaves, -⟩ := hloads 0 0 awayLoad awayLoadState hf
  have hstays := loadLanding_more hf rfl rfl (List.cons_ne_nil _ _)
  rw [hleaves rfl rfl] at hstays
  have hlists := congrArg (fun s => (s.core 0).loads.length) (Host.Outcome.next.inj hstays)
  simp only [State.core_modCore] at hlists
  exact absurd hlists (by decide)
end Sys2Proof.Machine
end

section
/-! SUPPORT. Where a tile lies: the granules of the stores that hold its parts (R82, R221, R350). -/
namespace Sys2Proof.Machine

/-- Core c's store has room at base b for the part that it holds of a tile of core o: within the carve-out, apart from the other
tiles' parts, and clear of the retired granules. -/
def Tile.RoomAt (s : State) (o : Nat) (x : Tile) (b c : Nat) : Prop :=
  b + x.share o c ≤ 64 * (s.core c).ncur ∧
  (∀ tm ∈ s.teams, ∀ y ∈ tm.2.tiles, y.2.share tm.2.core c ≠ 0 →
    b + x.share o c ≤ y.2.base ∨ y.2.base + y.2.share tm.2.core c ≤ b) ∧
  ∀ g ∈ (s.core c).retiredGranules, g < b ∨ b + x.share o c ≤ g

/-- Every store that holds a part of the tile has room for it at base b. -/
def Tile.FitsAt (s : State) (o : Nat) (x : Tile) (b : Nat) : Prop := ∀ c, x.share o c ≠ 0 → x.RoomAt s o b c

/-- The cores of the quad of core o, from o on. -/
def quadCores (o : Nat) : List Nat := (List.range 4).map fun j => o / 4 * 4 + (o + j) % 4

theorem mem_quadCores {o c : Nat} : c ∈ quadCores o ↔ quadOf c = quadOf o := by
  simp only [quadCores, List.mem_map, List.mem_range, quadOf]
  constructor
  · rintro ⟨j, -, rfl⟩
    omega
  · intro h
    exact ⟨(c % 4 + 4 - o % 4) % 4, by omega, by omega⟩

/-- The stores that hold parts of a tile are those of the quad of its core. -/
theorem Tile.quadOf_of_share {x : Tile} {o c : Nat} (h : x.share o c ≠ 0) : quadOf c = quadOf o := by
  refine Decidable.byContradiction fun hq => h ?_
  have hne : c ≠ o := fun e => hq (congrArg quadOf e)
  cases hl : x.level with
  | false => simp only [Tile.share, hl, hne, Bool.not_false, if_true, if_false]
  | true => simp only [Tile.share, hl, hq, Bool.not_true, Bool.false_eq_true, if_false, ne_eq, not_false_eq_true, if_true]

/-- The parts of tiles in a core's store, tile by tile. -/
theorem forall_heldGranules {s : State} {c : Nat} {P : Nat × Nat → Prop} : (∀ r ∈ heldGranules s c, P r) ↔
    ∀ tm ∈ s.teams, ∀ y ∈ tm.2.tiles, y.2.share tm.2.core c ≠ 0 → P (y.2.base, y.2.share tm.2.core c) := by
  have hmem (r : Nat × Nat) : r ∈ heldGranules s c ↔
      ∃ tm ∈ s.teams, ∃ y ∈ tm.2.tiles, y.2.share tm.2.core c ≠ 0 ∧ (y.2.base, y.2.share tm.2.core c) = r := by
    simp [heldGranules]
  simp only [hmem]
  constructor
  · exact fun h tm htm y hy hs => h _ ⟨tm, htm, y, hy, hs, rfl⟩
  · rintro h _ ⟨tm, htm, y, hy, hs, rfl⟩
    exact h tm htm y hy hs

theorem granulesFree_iff {s : State} {o b c : Nat} {x : Tile} :
    granulesFree s c (heldGranules s c) b (x.share o c) = true ↔ x.RoomAt s o b c := by
  simp only [granulesFree, Bool.and_eq_true, List.all_eq_true, forall_heldGranules, Bool.or_eq_true, decide_eq_true_eq, and_assoc,
    Tile.RoomAt]

/-- What `placeTile` asks of a base. -/
def fitsAt (s : State) (o : Nat) (x : Tile) (b : Nat) : Bool :=
  (quadCores o).all fun c => x.share o c == 0 || granulesFree s c (heldGranules s c) b (x.share o c)

theorem placeTile_eq_find (s : State) (o : Nat) (x : Tile) : placeTile s o x = (List.range 1921).find? (fitsAt s o x) := by
  unfold placeTile
  generalize List.range 1921 = bases
  refine congrArg (fun f => bases.find? f) (funext fun b => ?_)
  rw [List.all_filterMap]
  refine congrArg (fun f => (quadCores o).all f) (funext fun c => ?_)
  by_cases h : x.share o c = 0 <;> simp [h]

theorem fitsAt_iff {s : State} {o b : Nat} {x : Tile} : fitsAt s o x b = true ↔ x.FitsAt s o b := by
  simp only [fitsAt, List.all_eq_true, Bool.or_eq_true, beq_iff_eq, granulesFree_iff, mem_quadCores]
  exact ⟨fun h c hc => (h c (Tile.quadOf_of_share hc)).resolve_left hc, fun h c _ => Decidable.or_iff_not_imp_left.mpr (h c)⟩

theorem Tile.exists_of_not_fitsAt {s : State} {o b : Nat} {x : Tile} (h : ¬x.FitsAt s o b) :
    ∃ c, x.share o c ≠ 0 ∧ ¬x.RoomAt s o b c := by
  simpa [Tile.FitsAt] using h

theorem placeTile_eq_some {s : State} {o b : Nat} {x : Tile} (h : placeTile s o x = some b) :
    x.FitsAt s o b ∧ ∀ b' < b, ¬x.FitsAt s o b' := by
  rw [placeTile_eq_find, List.find?_range_eq_some] at h
  obtain ⟨hb, -, hlow⟩ := h
  exact ⟨fitsAt_iff.mp hb, fun b' hb' hf => by simpa [fitsAt_iff.mpr hf] using hlow b' hb'⟩

theorem placeTile_eq_none {s : State} {o : Nat} {x : Tile} (h : placeTile s o x = none) : ∀ b < 1921, ¬x.FitsAt s o b := by
  rw [placeTile_eq_find, List.find?_range_eq_none] at h
  exact fun b hb hf => by simpa [fitsAt_iff.mpr hf] using h b hb

/-- Settles O23: `placeTile` searches the bases from the lowest on for the first at which the tile fits. -/
theorem tilePlacement : Obligations.TilePlacement := by
  intro s o x
  refine ⟨fun b h => ?_, fun h b hb => Tile.exists_of_not_fitsAt (placeTile_eq_none h b hb)⟩
  obtain ⟨hfits, hlow⟩ := placeTile_eq_some h
  exact ⟨hfits, fun b' hb' => Tile.exists_of_not_fitsAt (hlow b' hb')⟩
end Sys2Proof.Machine
end

section
/-! SUPPORT. The issue of a copy: what holds it back, what it leaves, and its causes (R83, R110, R226, R227). -/
namespace Sys2Proof.Machine
open Sys2Proof.Claim

theorem State.modPly_modPly (s : State) (k : Nat) (f h : Ply → Ply) : (s.modPly k f).modPly k h = s.modPly k fun q => h (f q) := by
  cases hp : s.ply k with
  | none =>
    have hid (f : Ply → Ply) : s.modPly k f = s := by
      have hf : s.plies.find k = none := hp
      simp [State.modPly, hf]
    rw [hid, hid, hid]
  | some p => rw [s.modPly_eq f hp, State.modPly_setPly, s.modPly_eq _ hp]

/-! ### What `issueCopy` answers -/

/-- The ply has 31 copies in flight, or a tile that the copy names has its count full. -/
def copyWaits (s : State) (p : Ply) (x : Copy) : Bool :=
  copiesOut s s.cur p ≥ 31 || eopsFull s (coreOf s.cur) (p.mode != 0) x.team x.tiles

/-- The copy with all its blocks in flight. -/
def Copy.inFlight (x : Copy) (tile src : Tile) : Copy :=
  let total := if x.kind = .tile then src.size else tile.size
  { x with left := blocksFrom x tile src total total 0 }

/-- The state in which the copy is in flight: what came before is performed, and the engine holds the tiles. -/
def copyIssued (s : State) (x : Copy) (tile src : Tile) : State :=
  ((takeTiles x.team x.tiles (pushCore (coreOf s.cur) (landLoads s.cur s))).modCore (coreOf s.cur)
    fun c => { c with copies := c.copies ++ [x.inFlight tile src] }).bump

section
variable {i : Instr} {y : Bool} {s : State} {p : Ply} {x : Copy} {tile src : Tile}

theorem issueCopy_stall (h : copyWaits s p x = true) : issueCopy i y s p x tile src = .stall := by
  unfold copyWaits at h
  rw [issueCopy, if_pos h]

theorem issueCopy_next (h : copyWaits s p x = false) (hy : y = false ∨ (p.creg x.cr).toInt ≤ 0) :
    issueCopy i y s p x tile src = .next (copyIssued s x tile src) := by
  have hgo : (y && decide ((p.creg x.cr).toInt > 0)) = false := by
    rcases hy with hy | hy
    · rw [hy, Bool.false_and]
    · rw [decide_eq_false (Int.not_lt.mpr hy), Bool.and_false]
  unfold copyWaits at h
  simp only [issueCopy, h, hgo, Bool.false_eq_true, if_false]
  rfl

theorem issueCopy_stay (h : copyWaits s p x = false) (hy : y = true) (hc : 0 < (p.creg x.cr).toInt) :
    issueCopy i y s p x tile src = .stay ((copyIssued s x tile src).modPly s.cur fun q =>
      { q.complete closing (encode i) (q.a.pc + lengthOf (encode i)) with state := .yielded, wait := .copy x.cr false }) := by
  have hgo : (y && decide ((p.creg x.cr).toInt > 0)) = true := by rw [hy, decide_eq_true hc, Bool.and_true]
  unfold copyWaits at h
  simp only [issueCopy, h, hgo, Bool.false_eq_true, if_false, if_true]
  rfl
end

/-! ### Running a copy instruction -/

/-- `i` issues the copy `x` unless something holds it back; with Y and bytes still expected its ply yields. -/
def CopyIssues (i : Instr) (y : Bool) (s : State) (p : Ply) (x : Copy) (tile src : Tile) : Prop :=
  (copyWaits s p x = true → StandsBack i s) ∧ (copyWaits s p x = false →
    (y = false ∨ (p.creg x.cr).toInt ≤ 0 → Completes closing i s p (copyIssued s x tile src) id) ∧
    (y = true → 0 < (p.creg x.cr).toInt → exec i s = .next ((copyIssued s x tile src).modPly s.cur fun q =>
      { went closing i q (q.a.pc + 4) with state := .yielded, wait := .copy x.cr false })))

section
variable {i : Instr} {kind : CopyKind} {h t : Nat} {y : Bool} {s : State} {p : Ply} {tile src : Tile} {x : Copy} {c : Cause}
variable {go : Ply → Nat → Tile → Res}

theorem copyForm_wrongRole (hp : Acts s p) (he : exec i s = copyForm i kind h s go) (hr : copyRole kind p.a.role = false) :
    Raises closing i s p s .role 0 0 :=
  raises_perform hp he (by simp only [hr, Bool.not_false, if_true])

theorem copyForm_noTile (hp : Acts s p) (he : exec i s = copyForm i kind h s go) (hr : copyRole kind p.a.role = true)
    (ht : tileTeam s s.cur p = some t) (hn : teamTile s (some t) h = none) : Raises closing i s p s .tileHandle 0 0 :=
  raises_perform hp he (by simp only [hr, ht, hn, Bool.not_true, Bool.false_eq_true, if_false])

/-- With its role and its tile, a copy instruction does what its own part says. -/
theorem exec_copyForm (hp : Acts s p) (he : exec i s = copyForm i kind h s go) (hr : copyRole kind p.a.role = true)
    (ht : tileTeam s s.cur p = some t) (hx : teamTile s (some t) h = some tile) :
    exec i s = perform closing (encode i) s fun _ => go p t tile := by
  have hs : s.ply s.cur = some p := hp
  rw [he, copyForm]
  simp only [perform, hs, hr, ht, hx, Bool.not_true, Bool.false_eq_true, if_false]

theorem copyIssues_of_perform (hp : Acts s p) (he : exec i s = perform closing (encode i) s fun _ => issueCopy i y s p x tile src)
    (hlen : (encode i).length = 1) : CopyIssues i y s p x tile src := by
  refine ⟨fun hw => standsBack_perform hp he (issueCopy_stall hw), fun hw => ⟨fun hy => ?_, fun hy hc => ?_⟩⟩
  · exact completes_perform hp he (issueCopy_next hw hy)
  · have hl : lengthOf (encode i) = 4 := by rw [lengthOf, hlen]; rfl
    rw [he, perform_stay hp (issueCopy_stay hw hy hc), State.modPly_modPly]
    simp only [complete_eq_went, hl]
    rfl

/-- A copy instruction whose own part issues a copy. -/
theorem copyForm_issues (hp : Acts s p) (he : exec i s = copyForm i kind h s go) (hr : copyRole kind p.a.role = true)
    (ht : tileTeam s s.cur p = some t) (hx : teamTile s (some t) h = some tile) (hgo : go p t tile = issueCopy i y s p x tile src)
    (hlen : (encode i).length = 1) : CopyIssues i y s p x tile src :=
  copyIssues_of_perform hp (by rw [exec_copyForm hp he hr ht hx, hgo]) hlen

/-- A copy instruction whose own part finds a cause. -/
theorem copyForm_raises (hp : Acts s p) (he : exec i s = copyForm i kind h s go) (hr : copyRole kind p.a.role = true)
    (ht : tileTeam s s.cur p = some t) (hx : teamTile s (some t) h = some tile) (hgo : go p t tile = .before s c 0 0) :
    Raises closing i s p s c 0 0 :=
  raises_perform hp (exec_copyForm hp he hr ht hx) hgo
end

/-! ### Roles and causes -/

theorem copyRole_cpyin {r : BitVec 2} : copyRole .cpyin r = true ↔ r = 0 ∨ r = 1 := by
  revert r; decide
theorem copyRole_cpyout {r : BitVec 2} : copyRole .cpyout r = true ↔ r = 0 ∨ r = 3 := by
  revert r; decide
theorem copyRole_cpyin_false {r : BitVec 2} : copyRole .cpyin r = false ↔ r = 2 ∨ r = 3 := by
  revert r; decide
theorem copyRole_cpyout_false {r : BitVec 2} : copyRole .cpyout r = false ↔ r = 1 ∨ r = 2 := by
  revert r; decide
theorem copyRole_tile {r : BitVec 2} : copyRole .tile r = true ↔ r = 0 := by
  revert r; decide
theorem copyRole_fill {r : BitVec 2} : copyRole .fill r = true ↔ r = 0 := by
  revert r; decide

theorem tensorCause_eq {r : Option TensorRec} {w : DWord} {tile : Tile} {c : Cause} (h : tensorCause r w tile = some c) :
    c = .tensorRecord := by
  unfold tensorCause at h
  split at h
  · cases h; rfl
  · split at h
    · cases h; rfl
    · cases h

/-- Settles O25: each instruction goes through `copyForm`, with its role and its tile, and then through `issueCopy`. -/
theorem copiesIssue : Obligations.CopiesIssue := by
  intro h tr cb cr y s p t tile hp ht hx
  have hin {n : BitVec 8} : exec (.cpyin n tr cb cr y) s = copyForm (.cpyin n tr cb cr y) .cpyin n.toNat s _ := rfl
  have hout {n : BitVec 8} : exec (.cpyout n tr cb cr y) s = copyForm (.cpyout n tr cb cr y) .cpyout n.toNat s _ := rfl
  have htt {n : BitVec 8} : exec (.cpytt n cb cr y) s = copyForm (.cpytt n cb cr y) .tile n.toNat s _ := rfl
  have hfill {n : BitVec 8} : exec (.cpyfill n cb cr y) s = copyForm (.cpyfill n cb cr y) .fill n.toNat s _ := rfl
  refine ⟨fun hr hc => ?_, fun hr hc => ?_, fun hr src hsrc h8 hne hfit => ?_, fun hr h32 => ?_, fun hr n hn => ⟨?_, ?_, ?_, ?_⟩,
    fun c hc => ⟨tensorCause_eq hc, fun hr => ?_, fun hr => ?_⟩, fun hr hbad => ?_, fun hr src hsrc h8 hne hbig => ?_,
    fun hr h32 => ?_, fun hr => ?_, fun hr => ?_, fun hr => ⟨?_, ?_⟩⟩
  · exact copyForm_issues hp hin (copyRole_cpyin.mpr hr) ht hx (by simp only [hc]) rfl
  · exact copyForm_issues hp hout (copyRole_cpyout.mpr hr) ht hx (by simp only [hc]) rfl
  · exact copyForm_issues hp htt (copyRole_tile.mpr hr) ht hx (by simp [hsrc, h8, hne, Nat.not_lt.mpr hfit]) rfl
  · exact copyForm_issues hp hfill (copyRole_fill.mpr hr) ht hx (by simp [h32]) rfl
  · exact copyForm_noTile hp hin (copyRole_cpyin.mpr (Or.inl hr)) ht hn
  · exact copyForm_noTile hp hout (copyRole_cpyout.mpr (Or.inl hr)) ht hn
  · exact copyForm_noTile hp htt (copyRole_tile.mpr hr) ht hn
  · exact copyForm_noTile hp hfill (copyRole_fill.mpr hr) ht hn
  · exact copyForm_raises hp hin (copyRole_cpyin.mpr hr) ht hx (by simp only [hc])
  · exact copyForm_raises hp hout (copyRole_cpyout.mpr hr) ht hx (by simp only [hc])
  · refine copyForm_raises hp htt (copyRole_tile.mpr hr) ht hx ?_
    rcases hbad with hsrc | hbad
    · simp only [hsrc]
    · cases hsrc : teamTile s (some t) (field (p.sreg cb) 0 8) <;> simp [hsrc, hbad]
  · exact copyForm_raises hp htt (copyRole_tile.mpr hr) ht hx (by simp [hsrc, h8, hne, hbig])
  · exact copyForm_raises hp hfill (copyRole_fill.mpr hr) ht hx (by simp [h32])
  · exact copyForm_wrongRole hp hin (copyRole_cpyin_false.mpr hr)
  · exact copyForm_wrongRole hp hout (copyRole_cpyout_false.mpr hr)
  · exact copyForm_wrongRole hp htt (Bool.eq_false_iff.mpr (mt copyRole_tile.mp hr))
  · exact copyForm_wrongRole hp hfill (Bool.eq_false_iff.mpr (mt copyRole_fill.mp hr))
end Sys2Proof.Machine
end

section
/-! SUPPORT. What TBIND, CBLD and PBIND read, and B-shares (R85, R223 to R225, R230, R339). -/
namespace Sys2Proof.Machine
open Sys2Proof.Claim

/-! ### The bytes that they read (R223, R224, R230, R339) -/

/-- The bytes at a place as TBIND, CBLD and PBIND read them, in the state after translation, and the state that the read leaves. -/
def engineRead (t : State) (p : Ply) (spot : Spot) (n : Nat) : Image × State :=
  plainRead (coreOf t.cur) (viewer t.cur p).tenant spot.at_ n .allocate (hintL2 .normal spot t)

section
variable {n : Nat} {va : DWord} {s t v : State} {p : Ply} {spot : Spot} {c : Cause} {addr : DWord} {go : State → List Byte → Res}

theorem fetchBytes_full (h : 63 ≤ loadsOut s s.cur p) : fetchBytes s p n va go = .stall := by
  rw [fetchBytes, if_pos h]

/-- A read that lands and finds no error goes on with its bytes. -/
theorem fetchBytes_lands (h : loadsOut s s.cur p < 63) (hl : LandsAt s p { need := .read, bytes := n } va spot t)
    (he : (engineRead t p spot n).1.error = none) : fetchBytes s p n va go =
      (go (engineRead t p spot n).2 (engineRead t p spot n).1.bytes).unclamp t.cur p.scopestat 1 false := by
  unfold engineRead at he
  rw [fetchBytes, if_neg (Nat.not_le.mpr h), reachOne_lands hl]
  simp only [he]
  rfl

theorem fetchBytes_next (h : loadsOut s s.cur p < 63) (hl : LandsAt s p { need := .read, bytes := n } va spot t)
    (he : (engineRead t p spot n).1.error = none) (hg : go (engineRead t p spot n).2 (engineRead t p spot n).1.bytes = .next v) :
    fetchBytes s p n va go = .next v := by
  rw [fetchBytes_lands h hl he, hg]
  rfl

/-- A cause of the bytes leaves %scopestat as it was. -/
theorem fetchBytes_before (h : loadsOut s s.cur p < 63) (hl : LandsAt s p { need := .read, bytes := n } va spot t)
    (he : (engineRead t p spot n).1.error = none) (hg : go (engineRead t p spot n).2 (engineRead t p spot n).1.bytes = .before v c addr 0) :
    fetchBytes s p n va go = .before (v.modPly t.cur fun q => { q with scopestat := p.scopestat }) c addr 0 := by
  rw [fetchBytes_lands h hl he, hg]
  rfl
end

/-! ### Running TBIND and PBIND -/

section
variable {d : TReg} {n : BitVec 3} {a : SReg} {g : Guard} {s t : State} {p : Ply} {spot : Spot}
variable (hp : Acts s p) (hg : guardHolds g p = true) (hfew : loadsOut s s.cur p < 63)
variable (hl : LandsAt s p { need := .read, bytes := 64 } (p.sreg a) spot t) (he : (engineRead t p spot 64).1.error = none)
include hp hg hfew hl he

theorem exec_tbind_record {r : TensorRec} (hr : parseRecord (engineRead t p spot 64).1.bytes = some r) :
    Completes {} (.tbind d a g) s p ((engineRead t p spot 64).2.modPly (engineRead t p spot 64).2.cur fun q =>
      { q with a := { q.a with t := q.a.t.set d.toNat (some r) d.isLt } }) id :=
  completes_guarded hp hg rfl (fetchBytes_next hfew hl he (by simp only [hr]))

theorem exec_tbind_badRecord (hr : parseRecord (engineRead t p spot 64).1.bytes = none) :
    Raises {} (.tbind d a g) s p ((engineRead t p spot 64).2.modPly t.cur fun q => { q with scopestat := p.scopestat })
      .tensorRecord (p.sreg a) 0 :=
  raises_guarded hp hg rfl (fetchBytes_before hfew hl he (by simp only [hr]))

theorem exec_pbind_binds {tm : Team} {x : Press} (ho : ownTeam (engineRead t p spot 64).2 p = some tm)
    (hx : parsePress (engineRead t p spot 64).1.bytes (tm.binding + 1) = some x) :
    Completes closing (.pbind n a g) s p (settlePress p.ident.team n.toNat (cancelTickets p.ident.team n.toNat
      ((engineRead t p spot 64).2.modTeam p.ident.team fun y =>
        { y with binding := y.binding + 1, presses := y.presses.put n.toNat x }))) id :=
  completes_guarded hp hg rfl (fetchBytes_next hfew hl he (by simp only [ho, hx]))

/-- Without a team, or with a descriptor that describes no press under any binding, PBIND raises 0x41. -/
theorem exec_pbind_unbound
    (hbad : ownTeam (engineRead t p spot 64).2 p = none ∨ ∀ m, parsePress (engineRead t p spot 64).1.bytes m = none) :
    Raises closing (.pbind n a g) s p ((engineRead t p spot 64).2.modPly t.cur fun q => { q with scopestat := p.scopestat })
      .pressUnbound 0 0 := by
  refine raises_guarded hp hg rfl (fetchBytes_before hfew hl he ?_)
  cases ho : ownTeam (engineRead t p spot 64).2 p with
  | none => rfl
  | some tm =>
    have hx := hbad.resolve_left (by simp [ho]) (tm.binding + 1)
    simp only [hx]
end

/-- Settles O27: TBIND, CBLD and PBIND go through `fetchBytes` with what they do with the bytes, and BSHR through `shareOf`. -/
theorem engineLoads : Obligations.EngineLoads := by
  intro d cbd sh n a b g s p spot t hp hg
  refine ⟨fun hfull => ⟨?_, ?_, ?_⟩, fun hfew hl he => ⟨fun r => exec_tbind_record hp hg hfew hl he, exec_tbind_badRecord hp hg hfew hl he,
    fun tm x => exec_pbind_binds hp hg hfew hl he, exec_pbind_unbound hp hg hfew hl he⟩, fun hfew hl he => ?_, fun hx => ?_,
    fun x hx hm => ?_, fun x hx hm => ?_⟩
  · exact standsBack_guarded hp hg rfl (fetchBytes_full hfull)
  · exact standsBack_guarded hp hg rfl (fetchBytes_full hfull)
  · exact standsBack_guarded hp hg rfl (fetchBytes_full hfull)
  · exact completes_guarded hp hg rfl (fetchBytes_next hfew hl he rfl)
  · exact raises_guarded hp hg rfl (by simp only [hx])
  · exact completes_guarded hp hg rfl (by simp only [hx, hm, if_true])
  · exact completes_guarded hp hg rfl (by simp only [hx, hm, if_false])
end Sys2Proof.Machine
end

section
/-! SUPPORT. Fences, and the waits on a condition and on counts (R102, R104, R108, R113, R155, R156, R158). -/
namespace Sys2Proof.Machine
open Sys2Proof.Claim

/-! ### Fences (R102, R113, R155) -/

/-- What the parts of a fence leave, the release before the acquire; one without a release part lets the ply's loads land. -/
def fenced (k : Nat) (e : Scope) (rel acq : Bool) (s : State) : State :=
  let t := if rel then release k e s else landLoads k s
  if acq then acquire (coreOf k) e t else t

section
variable {i : Instr} {e : Scope} {g : Guard} {rel acq : Bool} {s : State} {p : Ply}
variable (hp : Acts s p) (hg : guardHolds g p = true) (he : exec i s = fenceAt i e g rel acq s)
include hp hg he

theorem fenceAt_completes (hc : clampTraps p e = false) : Completes {} i s p (fenced s.cur e rel acq (noteClamp s.cur e s)) id := by
  refine completes_guarded hp hg he ?_
  simp only [hc, Bool.false_eq_true, if_false, noteClamp_cur, fenced]

theorem fenceAt_clamped (hc : clampTraps p e = true) : Raises {} i s p s .clamped 0 0 :=
  raises_guarded hp hg he (by simp only [hc, if_true])
end

/-! ### The wait on a condition (R108, R156) -/

/-- An access that lands may park its ply: the clamp noted at the landing stands (log entry 122). -/
theorem reachOne_park {s t v : State} {p : Ply} {x : Shape} {va : DWord} {spot : Spot} {st : SlotState} {w : Wait}
    {go : State → Spot → Res} (h : LandsAt s p x va spot t) (hg : go t spot = .park v st w) :
    reachOne s p x va go = .park v st w := by
  rw [reachOne_lands h, hg]
  rfl

/-- The access of WAITC to its location (R108). -/
def waitShape (w : Bool) (e : Scope) : Shape := { need := .both, bytes := wideBytes w, reach := .atomic, scope := some e }
/-- The location as WAITC reads it at home, in the state after translation, and the state that the read leaves. -/
def waitRead (s : State) (p : Ply) (w : Bool) (spot : Spot) (t : State) : Image × State :=
  homeRead (coreOf s.cur) (viewer s.cur p).tenant spot.at_ (wideBytes w) t
/-- The condition of WAITC holds of the value read. -/
def waitMet (p : Ply) (d : SReg) (w : Bool) (c : WaitCond) (v : Nat) : Bool :=
  waitHolds c (8 * wideBytes w) v ((p.sreg d).toNat % 2 ^ (8 * wideBytes w))

section
variable {d sb : SReg} {e : Scope} {w : Bool} {c : WaitCond} {g : Guard} {s t : State} {p : Ply} {spot : Spot}
variable (hp : Acts s p) (hg : guardHolds g p = true) (hl : LandsAt s p (waitShape w e) (p.sreg sb) spot t)
variable (herr : (waitRead s p w spot t).1.error = none)
include hp hg hl herr

theorem exec_waitc_met (h : waitMet p d w c (waitRead s p w spot t).1.value = true) :
    Completes {} (.waitc d sb e w c g) s p (acquire (coreOf s.cur) e (waitRead s p w spot t).2) id := by
  unfold waitRead at herr
  unfold waitMet waitRead at h
  exact completes_guarded hp hg rfl (reachOne_next hl (by simp only [herr, h, if_true]; rfl))

theorem exec_waitc_parks (h : waitMet p d w c (waitRead s p w spot t).1.value = false) :
    Parks {} (.waitc d sb e w c g) s (waitRead s p w spot t).2 .parked (.monitor ⟨spot.at_, w, c, p.sreg d, e, false⟩) := by
  unfold waitRead at herr
  unfold waitMet waitRead at h
  exact parks_guarded hp hg rfl (reachOne_park hl (by simp only [herr, h, Bool.false_eq_true, if_false]; rfl))
end

/-! ### The wait on counts (R158) -/

theorem limitOf_eq (k x : Nat) : limitOf k x = if x = 2 ^ k - 1 then none else some x := by
  have hpos : 0 < 2 ^ k := Nat.two_pow_pos k
  have hones : x + 1 = 2 ^ k ↔ x = 2 ^ k - 1 := by omega
  simp only [limitOf, hones]

/-- A field of all ones holds nothing back, and any other is the largest count that passes. -/
theorem within_limitOf {n k x : Nat} : within n (limitOf k x) = true ↔ x = 2 ^ k - 1 ∨ n ≤ x := by
  rw [limitOf_eq]
  by_cases hx : x = 2 ^ k - 1 <;> simp [within, hx]

theorem countsWithin_iff {s : State} {k : Nat} {p : Ply} {l st c m : Option Nat} : countsWithin s k p l st c m = true ↔
    within (loadsOut s k p) l = true ∧ within (storesOut s k p) st = true ∧ within (copiesOut s k p) c = true ∧
      within (tilesOut s k p) m = true := by
  simp only [countsWithin, Bool.and_eq_true, and_assoc]

section
variable {l st : BitVec 6} {c : BitVec 5} {m : BitVec 4} {g : Guard} {s : State} {p : Ply}

/-- The counts of the ply are within the limits that the fields of its WAITN give. -/
def waitnMet (l st : BitVec 6) (c : BitVec 5) (m : BitVec 4) (s : State) (p : Ply) : Bool :=
  countsWithin s s.cur p (limitOf 6 l.toNat) (limitOf 6 st.toNat) (limitOf 5 c.toNat) (limitOf 4 m.toNat)

theorem exec_waitn_met (hp : Acts s p) (hg : guardHolds g p = true) (h : waitnMet l st c m s p = true) :
    Completes {} (.waitn l st c m g) s p s id :=
  completes_guarded hp hg rfl (if_pos h)

theorem exec_waitn_waits (hp : Acts s p) (hg : guardHolds g p = true) (h : ¬waitnMet l st c m s p = true) :
    Parks {} (.waitn l st c m g) s s .ready
      (.counts (limitOf 6 l.toNat) (limitOf 6 st.toNat) (limitOf 5 c.toNat) (limitOf 4 m.toNat)) :=
  parks_guarded hp hg rfl (if_neg h)
end

/-- Settles O20: the fences are `fenceAt` with their parts, WAITC decides by what it reads at home once its access has landed, and
WAITN by its counts, whose limits `limitOf` gives. -/
theorem fencesAndWaits : Obligations.FencesAndWaits := by
  intro e d sb w c nl ns nc nm g s p spot t hp hg
  have hboth : exec (.fence e g) s = fenceAt (.fence e g) e g true true s := rfl
  have hacq : exec (.fenceAcq e g) s = fenceAt (.fenceAcq e g) e g false true s := rfl
  have hrel : exec (.fenceRel e g) s = fenceAt (.fenceRel e g) e g true false s := rfl
  refine ⟨fun hc => ⟨?_, ?_, ?_⟩, fun hc => ⟨?_, ?_, ?_⟩, fun hl herr => ⟨?_, ?_⟩, ?_⟩
  · exact fenceAt_completes hp hg hboth hc
  · exact fenceAt_completes hp hg hacq hc
  · exact fenceAt_completes hp hg hrel hc
  · exact fenceAt_clamped hp hg hboth hc
  · exact fenceAt_clamped hp hg hacq hc
  · exact fenceAt_clamped hp hg hrel hc
  · exact exec_waitc_met hp hg hl herr
  · exact exec_waitc_parks hp hg hl herr
  · intro under all
    have hall : waitnMet nl ns nc nm s p = true ↔ all := by
      simp only [waitnMet, countsWithin_iff, within_limitOf, all, under]
    refine ⟨fun h => exec_waitn_met hp hg (hall.mpr h), fun h => ?_⟩
    simp only [← limitOf_eq]
    exact exec_waitn_waits hp hg (mt hall.mp h)
end Sys2Proof.Machine
end

section
/-! SUPPORT. The uniform instructions' words as numbers: what the operations of chapter 08 give, signed and unsigned, for every width
(R137, R139 to R141). -/
namespace Sys2Proof.Machine

/-! ### Words as numbers -/

section
variable {w : Nat} (x y : BitVec w)

theorem sub_eq_ofInt : x - y = BitVec.ofInt w (x.toInt - y.toInt) := by
  apply BitVec.eq_of_toInt_eq
  rw [BitVec.toInt_sub, BitVec.toInt_ofInt]

theorem add_eq_ofInt : x + y = BitVec.ofInt w (x.toInt + y.toInt) := by
  rw [BitVec.ofInt_add, BitVec.ofInt_toInt, BitVec.ofInt_toInt]

theorem mul_eq_ofInt : x * y = BitVec.ofInt w (x.toInt * y.toInt) := by
  rw [BitVec.ofInt_mul, BitVec.ofInt_toInt, BitVec.ofInt_toInt]

theorem shiftLeft_eq_ofNat (n : Nat) : x <<< n = BitVec.ofNat w (x.toNat * 2 ^ n) := by
  apply BitVec.eq_of_toNat_eq
  rw [BitVec.toNat_shiftLeft, Nat.shiftLeft_eq, BitVec.toNat_ofNat]

theorem ushiftRight_eq_ofNat (n : Nat) : x >>> n = BitVec.ofNat w (x.toNat / 2 ^ n) := by
  rw [← Nat.shiftRight_eq_div_pow, ← BitVec.toNat_ushiftRight, BitVec.ofNat_toNat, BitVec.setWidth_eq]

theorem sshiftRight_eq_ofInt (n : Nat) : x.sshiftRight n = BitVec.ofInt w (x.toInt / 2 ^ n) := by
  rw [BitVec.sshiftRight, Int.shiftRight_eq_div_pow]
  norm_cast

theorem toInt_smin : (if x.sle y then x else y).toInt = min x.toInt y.toInt := by
  rw [apply_ite BitVec.toInt]
  simp only [BitVec.sle_iff_toInt_le]
  split <;> omega

theorem toInt_smax : (if x.sle y then y else x).toInt = max x.toInt y.toInt := by
  rw [apply_ite BitVec.toInt]
  simp only [BitVec.sle_iff_toInt_le]
  split <;> omega

theorem toNat_umin : (if x.ule y then x else y).toNat = min x.toNat y.toNat := by
  rw [apply_ite BitVec.toNat]
  simp only [BitVec.ule_iff_toNat_le]
  split <;> omega

theorem toNat_umax : (if x.ule y then y else x).toNat = max x.toNat y.toNat := by
  rw [apply_ite BitVec.toNat]
  simp only [BitVec.ule_iff_toNat_le]
  split <;> omega

theorem smin_eq_ofInt : (if x.sle y then x else y) = BitVec.ofInt w (min x.toInt y.toInt) := by
  rw [← toInt_smin, BitVec.ofInt_toInt]

theorem smax_eq_ofInt : (if x.sle y then y else x) = BitVec.ofInt w (max x.toInt y.toInt) := by
  rw [← toInt_smax, BitVec.ofInt_toInt]

theorem umin_eq_ofNat : (if x.ule y then x else y) = BitVec.ofNat w (min x.toNat y.toNat) := by
  rw [← toNat_umin, BitVec.ofNat_toNat, BitVec.setWidth_eq]

theorem umax_eq_ofNat : (if x.ule y then y else x) = BitVec.ofNat w (max x.toNat y.toNat) := by
  rw [← toNat_umax, BitVec.ofNat_toNat, BitVec.setWidth_eq]
end

/-- A digit to the base b of the last two. -/
theorem emod_mul_self_ediv_emod (i : Int) {b : Int} (hb : b ≠ 0) : i % (b * b) / b % b = i / b % b := by
  have hi : i = i % (b * b) + b * (b * (i / (b * b))) := by
    rw [← Int.mul_assoc, Int.emod_add_mul_ediv]
  have hdiv : i / b = i % (b * b) / b + b * (i / (b * b)) :=
    (congrArg (· / b) hi).trans (Int.add_mul_ediv_left _ _ hb)
  rw [hdiv, Int.add_mul_emod_self_left]

/-- The high half of a number held in twice the width. -/
theorem extract_high_ofInt (n : Nat) (i : Int) : (BitVec.ofInt (n + n) i).extractLsb' n n = BitVec.ofInt n (i / 2 ^ n) := by
  have hpow : ((2 ^ n : Nat) : Int) = 2 ^ n := Int.natCast_pow 2 n
  have hpow2 : ((2 ^ (n + n) : Nat) : Int) = 2 ^ n * 2 ^ n := (Int.natCast_pow 2 (n + n)).trans (Int.pow_add ..)
  have hpos : (0 : Int) < 2 ^ n := Int.pow_pos (by decide)
  have hleft : 0 ≤ i % (2 ^ n * 2 ^ n) := Int.emod_nonneg _ (Int.mul_ne_zero (Int.ne_of_gt hpos) (Int.ne_of_gt hpos))
  have hright : 0 ≤ i / 2 ^ n % 2 ^ n := Int.emod_nonneg _ (Int.ne_of_gt hpos)
  apply BitVec.eq_of_toNat_eq
  apply Int.ofNat.inj
  simp only [Int.ofNat_eq_natCast]
  rw [BitVec.extractLsb'_toNat, BitVec.toNat_ofInt, BitVec.toNat_ofInt, Nat.shiftRight_eq_div_pow, Int.natCast_emod,
    Int.natCast_ediv, hpow, hpow2, Int.toNat_of_nonneg hleft, Int.toNat_of_nonneg hright]
  exact emod_mul_self_ediv_emod i (Int.ne_of_gt hpos)

theorem signed_high (x y : BitVec 64) :
    (x.signExtend 128 * y.signExtend 128).extractLsb' 64 64 = BitVec.ofInt 64 (x.toInt * y.toInt / 2 ^ 64) := by
  rw [mul_eq_ofInt, BitVec.toInt_signExtend_of_le (by decide), BitVec.toInt_signExtend_of_le (by decide)]
  exact extract_high_ofInt 64 _

theorem unsigned_high (x y : BitVec 64) :
    (x.setWidth 128 * y.setWidth 128).extractLsb' 64 64 = BitVec.ofNat 64 (x.toNat * y.toNat / 2 ^ 64) := by
  have hx : x.toNat % 2 ^ 128 = x.toNat := Nat.mod_eq_of_lt (by omega)
  have hy : y.toNat % 2 ^ 128 = y.toNat := Nat.mod_eq_of_lt (by omega)
  have h : x.toNat * y.toNat < 2 ^ 128 := Nat.lt_of_lt_of_eq (Nat.mul_lt_mul'' x.isLt y.isLt) (by decide)
  apply BitVec.eq_of_toNat_eq
  rw [BitVec.extractLsb'_toNat, BitVec.toNat_mul, BitVec.toNat_setWidth, BitVec.toNat_setWidth, hx, hy, Nat.mod_eq_of_lt h,
    Nat.shiftRight_eq_div_pow, BitVec.toNat_ofNat]

/-- A word whose halves are two numbers. -/
theorem append_low_eq_ofNat (h : BitVec 32) (x : BitVec 64) :
    h ++ x.setWidth 32 = BitVec.ofNat 64 (h.toNat * 2 ^ 32 + x.toNat % 2 ^ 32) := by
  have hlow : x.toNat % 2 ^ 32 < 2 ^ 32 := Nat.mod_lt _ (by decide)
  apply BitVec.eq_of_toNat_eq
  rw [BitVec.toNat_append, BitVec.toNat_setWidth, BitVec.toNat_ofNat, ← Nat.shiftLeft_add_eq_or_of_lt hlow, Nat.shiftLeft_eq]
  omega

/-! ### Counts of bits (R137, R164) -/

section
variable {n : Nat}

theorem foldl_count_eq (f : Nat → Bool) (l : List Nat) (c : Nat) :
    l.foldl (fun c i => if f i then c + 1 else c) c = c + (l.filter f).length := by
  induction l generalizing c with
  | nil => rfl
  | cons i l ih =>
    rw [List.foldl_cons, ih, List.filter_cons]
    cases f i
    · rfl
    · simp only [if_true, List.length_cons]
      omega

/-- The number of 1 bits is the number of places with one. -/
theorem popCount_eq_length (x : BitVec n) : popCount x = ((List.range n).filter x.getLsbD).length := by
  rw [popCount, foldl_count_eq, Nat.zero_add]

/-- The first number below n with a property, or n. -/
def firstBelow (n : Nat) (f : Nat → Bool) : Nat := ((List.range n).find? f).getD n

theorem firstBelow_le (f : Nat → Bool) : firstBelow n f ≤ n := by
  unfold firstBelow
  cases h : (List.range n).find? f with
  | none => exact Nat.le_refl n
  | some i => exact Nat.le_of_lt (List.mem_range.mp (List.find?_range_eq_some.mp h).2.1)

theorem firstBelow_holds {f : Nat → Bool} (h : firstBelow n f < n) : f (firstBelow n f) = true := by
  unfold firstBelow at h ⊢
  cases hf : (List.range n).find? f with
  | none =>
    rw [hf] at h
    exact absurd h (Nat.lt_irrefl n)
  | some i => exact (List.find?_range_eq_some.mp hf).1

theorem not_of_lt_firstBelow {f : Nat → Bool} {j : Nat} (h : j < firstBelow n f) : f j = false := by
  unfold firstBelow at h
  cases hf : (List.range n).find? f with
  | none =>
    rw [hf] at h
    simpa only [Bool.not_eq_true'] using List.find?_range_eq_none.mp hf j h
  | some i =>
    rw [hf] at h
    simpa only [Bool.not_eq_true'] using (List.find?_range_eq_some.mp hf).2.2 j h

theorem firstBelow_eq_iff {f : Nat → Bool} : firstBelow n f = n ↔ ∀ j < n, f j = false := by
  constructor
  · intro h j hj
    exact not_of_lt_firstBelow (h.symm ▸ hj)
  · intro h
    refine Decidable.byContradiction fun hne => ?_
    have hlt : firstBelow n f < n := Nat.lt_of_le_of_ne (firstBelow_le f) hne
    exact absurd (firstBelow_holds hlt) (Bool.eq_false_iff.mp (h _ hlt))

theorem trailingZeros_eq (x : BitVec n) : trailingZeros x = firstBelow n x.getLsbD := rfl

theorem leadingZeros_eq (x : BitVec n) : leadingZeros x = firstBelow n fun i => x.getLsbD (n - 1 - i) := rfl

theorem eq_zero_iff_bits {x : BitVec n} : x = 0 ↔ ∀ j < n, x.getLsbD j = false := by
  constructor
  · rintro rfl j _
    exact BitVec.getLsbD_zero
  · intro h
    refine BitVec.eq_of_getLsbD_eq fun j hj => ?_
    rw [h j hj]
    exact BitVec.getLsbD_zero.symm

/-- The bits from the top on are the bits. -/
theorem eq_zero_iff_bits_reversed {x : BitVec n} : x = 0 ↔ ∀ j < n, x.getLsbD (n - 1 - j) = false := by
  rw [eq_zero_iff_bits]
  constructor
  · exact fun h j hj => h _ (by omega)
  · intro h j hj
    have hrev := h (n - 1 - j) (by omega)
    rwa [show n - 1 - (n - 1 - j) = j by omega] at hrev

/-- The bits among the leading zeros, and above the width, are clear. -/
theorem getLsbD_above_leadingZeros {x : BitVec n} {j : Nat} (h : n - leadingZeros x ≤ j) : x.getLsbD j = false := by
  by_cases hj : j < n
  · have hrev := not_of_lt_firstBelow (f := fun i => x.getLsbD (n - 1 - i)) (j := n - 1 - j) (n := n) (by
      rw [← leadingZeros_eq]
      omega)
    rwa [show n - 1 - (n - 1 - j) = j by omega] at hrev
  · exact BitVec.getLsbD_of_ge x j (Nat.not_lt.mp hj)
end

/-- Settles O2: both counts are `firstBelow` of the bits, from the top and from the bottom. -/
theorem zeroCounts : Obligations.ZeroCounts := by
  intro w x
  simp only [trailingZeros_eq]
  refine ⟨⟨firstBelow_le _, firstBelow_le _, ?_, ?_⟩, firstBelow_holds (f := fun i => x.getLsbD (w - 1 - i)),
    fun j => getLsbD_above_leadingZeros, firstBelow_holds, fun j => not_of_lt_firstBelow⟩
  · rw [leadingZeros_eq, firstBelow_eq_iff, eq_zero_iff_bits_reversed]
  · rw [firstBelow_eq_iff, eq_zero_iff_bits]
end Sys2Proof.Machine
end

section
/-! SUPPORT. The uniform arithmetic, logic, bit, immediate and predicate instructions (R137 to R142). -/
namespace Sys2Proof.Machine
open Sys2Proof.Claim

/-! ### Division (R138) -/

section
variable {i : Instr} {g : Guard} {d a b : SReg} {f : DWord → DWord → DWord} {s : State} {p : Ply}
variable (hp : Acts s p) (hg : guardHolds g p = true) (he : exec i s = uniformDivide i g d a b f s)
include hp hg he

theorem uniformDivide_gives (hb : p.sreg b ≠ 0) :
    exec i s = .next (s.setPly s.cur (past i (p.setS d (f (p.sreg a) (p.sreg b))))) := by
  rw [he]
  exact guarded_past hp hg (if_neg hb) rfl

theorem uniformDivide_raises (hb : p.sreg b = 0) : Raises {} i s p s .intDivZero 0 0 :=
  raises_guarded hp hg he (if_pos hb)
end

/-! ### Immediates (R139) -/

section
variable {n : Nat} (x : DWord) (i : BitVec n) (hn : n ≤ 64)
include hn

theorem add_signExtend : x + i.signExtend 64 = BitVec.ofInt 64 (x.toInt + i.toInt) := by
  rw [add_eq_ofInt, BitVec.toInt_signExtend_of_le hn]

theorem mul_signExtend : x * i.signExtend 64 = BitVec.ofInt 64 (x.toInt * i.toInt) := by
  rw [mul_eq_ofInt, BitVec.toInt_signExtend_of_le hn]
end

/-! ### Conditions (R141) -/

section
variable {n : Nat} (x y : BitVec n)

theorem compareWord_eq : compareWord .eq x y = decide (x = y) := by
  rw [Bool.eq_iff_iff, compareWord, beq_iff_eq, decide_eq_true_iff]

theorem compareWord_ne : compareWord .ne x y = decide (x ≠ y) := by
  rw [Bool.eq_iff_iff, compareWord, bne_iff_ne, decide_eq_true_iff]

theorem compareWord_lt : compareWord .lt x y = decide (x.toInt < y.toInt) := rfl
theorem compareWord_le : compareWord .le x y = decide (x.toInt ≤ y.toInt) := rfl
theorem compareWord_gt : compareWord .gt x y = decide (x.toInt > y.toInt) := rfl
theorem compareWord_ge : compareWord .ge x y = decide (x.toInt ≥ y.toInt) := rfl
theorem compareWord_ltu : compareWord .ltu x y = decide (x.toNat < y.toNat) := rfl
theorem compareWord_geu : compareWord .geu x y = decide (x.toNat ≥ y.toNat) := rfl
end

section
variable (x : DWord) (i : BitVec 9)

/-- The immediate of a compare stands for the same integer at the width of a register. -/
theorem toInt_compare_immediate : (i.signExtend 64).toInt = i.toInt := BitVec.toInt_signExtend_of_le (by decide)

theorem compare_immediate_eq : compareWord .eq x (i.signExtend 64) = decide (x.toInt = i.toInt) := by
  simp only [compareWord_eq, ← BitVec.toInt_inj, toInt_compare_immediate]

theorem compare_immediate_ne : compareWord .ne x (i.signExtend 64) = decide (x.toInt ≠ i.toInt) := by
  simp only [compareWord_ne, ne_eq, ← BitVec.toInt_inj, toInt_compare_immediate]

theorem compare_immediate_lt : compareWord .lt x (i.signExtend 64) = decide (x.toInt < i.toInt) := by
  rw [compareWord_lt, toInt_compare_immediate]

theorem compare_immediate_le : compareWord .le x (i.signExtend 64) = decide (x.toInt ≤ i.toInt) := by
  rw [compareWord_le, toInt_compare_immediate]

theorem compare_immediate_gt : compareWord .gt x (i.signExtend 64) = decide (x.toInt > i.toInt) := by
  rw [compareWord_gt, toInt_compare_immediate]

theorem compare_immediate_ge : compareWord .ge x (i.signExtend 64) = decide (x.toInt ≥ i.toInt) := by
  rw [compareWord_ge, toInt_compare_immediate]
end

/-- Settles O1: every instruction but the divisions is `uniform` or `uniformQ` with an operation whose value as a number is known. -/
theorem uniformArithmetic : Obligations.UniformArithmetic := by
  refine ⟨fun d a b g => ?registers, fun d a b g s p hp hg => ⟨fun hb => ⟨?quotient, ?remainder⟩, fun hb => ⟨?_, ?_⟩⟩,
    fun d i n lit g => ?immediates, fun q qa qb a b i g => ?tests⟩
  case registers =>
    exact ⟨uniform_gives (exec_uadd d a b g) fun _ => BitVec.add_def ..,
      uniform_gives (exec_usub d a b g) fun _ => sub_eq_ofInt ..,
      uniform_gives (exec_umul d a b g) fun _ => BitVec.mul_def ..,
      uniform_gives (exec_umulhi d a b g) fun _ => signed_high ..,
      uniform_gives (exec_umulhu d a b g) fun _ => unsigned_high ..,
      uniform_gives (exec_umin d a b g) fun _ => smin_eq_ofInt ..,
      uniform_gives (exec_umax d a b g) fun _ => smax_eq_ofInt ..,
      uniform_gives (exec_uminu d a b g) fun _ => umin_eq_ofNat ..,
      uniform_gives (exec_umaxu d a b g) fun _ => umax_eq_ofNat ..,
      uniform_gives (exec_uand d a b g) fun _ => rfl,
      uniform_gives (exec_uor d a b g) fun _ => rfl,
      uniform_gives (exec_uxor d a b g) fun _ => rfl,
      uniform_gives (exec_uandn d a b g) fun _ => rfl,
      uniform_gives (exec_ushl d a b g) fun _ => shiftLeft_eq_ofNat ..,
      uniform_gives (exec_ushr d a b g) fun _ => ushiftRight_eq_ofNat ..,
      uniform_gives (exec_usar d a b g) fun _ => sshiftRight_eq_ofInt ..,
      uniform_gives (exec_upopc d a g) fun _ => congrArg _ (popCount_eq_length _),
      uniform_gives (exec_uclz d a g) fun _ => rfl,
      uniform_gives (exec_uctz d a g) fun _ => rfl,
      uniform_gives (exec_ubfx d a b g) fun _ => rfl⟩
  case quotient =>
    rw [← BitVec.udiv_def]
    exact uniformDivide_gives hp hg (exec_udivu d a b g s) hb
  case remainder =>
    rw [← BitVec.umod_def]
    exact uniformDivide_gives hp hg (exec_uremu d a b g s) hb
  case immediates =>
    exact ⟨uniform_gives (exec_uaddi d i g) fun _ => add_signExtend _ i (by decide),
      uniform_gives (exec_uandi d i g) fun _ => rfl,
      uniform_gives (exec_uori d i g) fun _ => rfl,
      uniform_gives (exec_uxori d i g) fun _ => rfl,
      uniform_gives (exec_ushli d n g) fun _ => shiftLeft_eq_ofNat ..,
      uniform_gives (exec_ushri d n g) fun _ => ushiftRight_eq_ofNat ..,
      uniform_gives (exec_usari d n g) fun _ => sshiftRight_eq_ofInt ..,
      uniform_gives (exec_umovi d i g) fun _ => rfl,
      uniform_gives (exec_umuli d i g) fun _ => mul_signExtend _ i (by decide),
      uniform_gives (exec_ulit d lit g) fun _ => (BitVec.ofNat_toNat ..).symm,
      uniform_gives (exec_ulitS d lit g) fun _ => rfl,
      uniform_gives (exec_ulitHi d lit g) fun _ => append_low_eq_ofNat ..⟩
  case tests =>
    exact ⟨fun c => ⟨rfl, rfl⟩,
      uniform_tests (exec_ucmp .eq q a b g) fun _ => compareWord_eq ..,
      uniform_tests (exec_ucmp .ne q a b g) fun _ => compareWord_ne ..,
      uniform_tests (exec_ucmp .lt q a b g) fun _ => compareWord_lt ..,
      uniform_tests (exec_ucmp .le q a b g) fun _ => compareWord_le ..,
      uniform_tests (exec_ucmp .gt q a b g) fun _ => compareWord_gt ..,
      uniform_tests (exec_ucmp .ge q a b g) fun _ => compareWord_ge ..,
      uniform_tests (exec_ucmp .ltu q a b g) fun _ => compareWord_ltu ..,
      uniform_tests (exec_ucmp .geu q a b g) fun _ => compareWord_geu ..,
      uniform_tests (exec_ucmpi .eq q a i g) fun _ => compare_immediate_eq ..,
      uniform_tests (exec_ucmpi .ne q a i g) fun _ => compare_immediate_ne ..,
      uniform_tests (exec_ucmpi .lt q a i g) fun _ => compare_immediate_lt ..,
      uniform_tests (exec_ucmpi .le q a i g) fun _ => compare_immediate_le ..,
      uniform_tests (exec_ucmpi .gt q a i g) fun _ => compare_immediate_gt ..,
      uniform_tests (exec_ucmpi .ge q a i g) fun _ => compare_immediate_ge ..,
      uniform_tests (exec_ucmpi .ltu q a i g) fun _ => compareWord_ltu ..,
      uniform_tests (exec_ucmpi .geu q a i g) fun _ => compareWord_geu ..,
      uniform_tests (exec_qand q qa qb g) fun _ => rfl,
      uniform_tests (exec_qor q qa qb g) fun _ => rfl,
      uniform_tests (exec_qxor q qa qb g) fun _ => rfl,
      uniform_tests (exec_qandn q qa qb g) fun _ => rfl⟩
  · exact uniformDivide_raises hp hg (exec_udivu d a b g s) hb
  · exact uniformDivide_raises hp hg (exec_uremu d a b g s) hb
end Sys2Proof.Machine
end

section
/-! SUPPORT. The EM family, the transfers between the files and the reductions (R12, R29, R148, R149). -/
namespace Sys2Proof.Machine
open Sys2Proof.Claim

/-! ### The lowest active lane (R148) -/

theorem lowestLane_zero : lowestLane 0 = none := by decide

section
variable {p : Ply} {l : Nat} (c : Core) (a : VReg)

theorem Ply.lowest_some (h : lowestLane p.a.em = some l) : p.lowest = [l] := by
  rw [Ply.lowest, h]

theorem Ply.lowest_off (h : p.a.em = 0) : p.lowest = [] := by
  rw [Ply.lowest, h, lowestLane_zero]

theorem lowestWord_some (h : lowestLane p.a.em = some l) : lowestWord c p a = regWord c p a l := by
  rw [lowestWord, h]

theorem lowestWord_off (h : p.a.em = 0) : lowestWord c p a = 0 := by
  rw [lowestWord, h, lowestLane_zero]

theorem lowestPair_some (h : lowestLane p.a.em = some l) : lowestPair c p a = regPair c p a l := by
  rw [lowestPair, h]

theorem lowestPair_off (h : p.a.em = 0) : lowestPair c p a = 0 := by
  rw [lowestPair, h, lowestLane_zero]
end

/-! ### Running the transfers -/

/-- Registers of which no lane is read never hold an instruction back. -/
theorem open_of_no_lanes (s : State) (p : Ply) {us : List RegUse} (h : ∀ u ∈ us, u.2 = []) : Open s p us [] :=
  laneGate_no_lanes _ p us [] h fun _ hu => absurd hu List.not_mem_nil

theorem groupUse_no_lanes (r : VReg) (n : Nat) {ls : List Nat} (h : ls = []) : ∀ u ∈ groupUse r n ls, u.2 = [] := by
  intro u hu
  obtain ⟨j, -, rfl⟩ := List.mem_map.mp hu
  exact h

section
variable {a : VReg} {pa : PReg} {d : SReg} {g : Guard} {s : State} {p : Ply} {l : Nat}
variable (hp : Acts s p) (hg : guardHolds g p = true)
include hp hg

theorem exec_emwr_diverged (h : p.diverged = true) : Raises {} (.emwr a g) s p s .emDiverged 0 0 :=
  raises_guarded hp hg (exec_emwr a g s) (if_pos h)

theorem exec_emandp_diverged (h : p.diverged = true) : Raises {} (.emandp pa g) s p s .emDiverged 0 0 :=
  raises_guarded hp hg (exec_emandp pa g s) (if_pos h)

theorem exec_emandp_converged (h : p.diverged = false) : Becomes (.emandp pa g) s (p.setEm (p.a.em &&& p.preg pa)) :=
  becomes_guarded hp hg rfl (exec_emandp pa g s) (if_neg (Bool.eq_false_iff.mp h))

/-- With no divergence open and the lowest lane of v[A] there to read, EMWR writes its word to EM. -/
theorem exec_emwr_open (h : p.diverged = false) (ho : Open s p [(a, p.lowest)] []) :
    Becomes (.emwr a g) s (p.setEm ((lowestWord (here s) p a).setWidth 64)) :=
  becomes_guarded hp hg rfl (exec_emwr a g s) ((if_neg (Bool.eq_false_iff.mp h)).trans (gated_open ho))

theorem exec_v2s_open (ho : Open s p [(a, p.lowest)] []) :
    Becomes (.v2s d a g) s (p.setS d ((lowestWord (here s) p a).setWidth 64)) :=
  becomes_guarded hp hg rfl (exec_v2s d a g s) (gated_open ho)

theorem exec_v2s64_open (ho : Open s p (groupUse a 2 p.lowest) []) :
    Becomes (.v2s64 d a g) s (p.setS d (lowestPair (here s) p a)) :=
  becomes_guarded hp hg rfl (exec_v2s64 d a g s) (gated_open ho)

theorem exec_s2v_writes {v : VReg} {c' : Core} {p' : Ply} (ho : Open s p [] [(v, p.lanes)])
    (hw : writeReg (here s) p v (p.lanes.map fun l => ⟨l, (p.sreg d).setWidth 32, false⟩) = some (c', p')) :
    Writes (.s2v v d g) s c' p' := by
  have hb := laneWrite_some (f := fun _ _ => (p.sreg d).setWidth 32) ho hw
  rw [Writes, exec_s2v]
  exact guarded_past hp hg hb (writeReg_pc hw)
end

/-- Settles O3: each transfer reads the lowest active lane, and reads none with EM 0. -/
theorem emFamily : Obligations.EmFamily := by
  intro d a pa v r g
  refine ⟨uniform_gives (exec_emrd d g) fun _ => rfl, uniform_gives (exec_vote d pa g) fun _ => rfl,
    uniform_gives (exec_empop d g) fun _ => congrArg _ (popCount_eq_length _), fun s p hp hg =>
    ⟨fun h => ⟨exec_emwr_diverged hp hg h, exec_emandp_diverged hp hg h⟩, exec_emandp_converged hp hg, fun l hl hd ho => ?_,
      fun hz hd => ?_, fun l hl ho => ?_, fun l hl ho => ?_, fun hz => ⟨?_, ?_⟩, fun c' p' => exec_s2v_writes hp hg⟩⟩
  · have h := exec_emwr_open hp hg hd (by rwa [Ply.lowest_some hl])
    rwa [lowestWord_some _ a hl] at h
  · have h := exec_emwr_open (a := a) hp hg hd (open_of_no_lanes s p (List.forall_mem_singleton.mpr (Ply.lowest_off hz)))
    rwa [lowestWord_off _ a hz] at h
  · have h := exec_v2s_open (d := d) hp hg (by rwa [Ply.lowest_some hl])
    rwa [lowestWord_some _ a hl] at h
  · have h := exec_v2s64_open (d := d) hp hg (by rwa [Ply.lowest_some hl])
    rwa [lowestPair_some _ a hl] at h
  · have h := exec_v2s_open (a := a) (d := d) hp hg (open_of_no_lanes s p (List.forall_mem_singleton.mpr (Ply.lowest_off hz)))
    rwa [lowestWord_off _ a hz] at h
  · have h := exec_v2s64_open (a := a) (d := d) hp hg (open_of_no_lanes s p (groupUse_no_lanes a 2 (Ply.lowest_off hz)))
    rwa [lowestPair_off _ a hz] at h

/-! ### Reductions (R29, R149) -/

/-- A lane word keeps its value at the width of a uniform register. -/
theorem toInt_signExtend_word (x : Word) : (x.signExtend 64).toInt = x.toInt := BitVec.toInt_signExtend_of_le (by decide)

theorem toNat_setWidth_word (x : Word) : (x.setWidth 64).toNat = x.toNat := BitVec.toNat_setWidth_of_le (by decide)

section
variable (ws : List Word)

/-- The sum of the signed words, however it wraps on the way. -/
theorem foldl_reduStep_add : ws.foldl (reduStep .add) (reduIdentity .add) = BitVec.ofInt 64 (ws.map BitVec.toInt).sum := by
  have hstep (x : Int) (y : Word) : reduStep .add (BitVec.ofInt 64 x) y = BitVec.ofInt 64 (x + y.toInt) :=
    (BitVec.ofInt_add x y.toInt).symm
  rw [List.sum_eq_foldl, List.foldl_map, ← List.foldl_hom _ hstep]
  rfl

theorem foldl_reduStep_min :
    ws.foldl (reduStep .min) (reduIdentity .min) = BitVec.ofInt 64 ((ws.map BitVec.toInt).foldl min (2 ^ 31 - 1)) := by
  have hstep (x : DWord) (y : Word) : min x.toInt y.toInt = (reduStep .min x y).toInt :=
    (congrArg _ (toInt_signExtend_word y).symm).trans (toInt_smin ..).symm
  rw [List.foldl_map, show (2 ^ 31 - 1 : Int) = (reduIdentity .min).toInt by decide, List.foldl_hom BitVec.toInt hstep, BitVec.ofInt_toInt]

theorem foldl_reduStep_max :
    ws.foldl (reduStep .max) (reduIdentity .max) = BitVec.ofInt 64 ((ws.map BitVec.toInt).foldl max (-2 ^ 31)) := by
  have hstep (x : DWord) (y : Word) : max x.toInt y.toInt = (reduStep .max x y).toInt :=
    (congrArg _ (toInt_signExtend_word y).symm).trans (toInt_smax ..).symm
  rw [List.foldl_map, show (-2 ^ 31 : Int) = (reduIdentity .max).toInt by decide, List.foldl_hom BitVec.toInt hstep, BitVec.ofInt_toInt]

theorem foldl_reduStep_minu :
    ws.foldl (reduStep .minu) (reduIdentity .minu) = BitVec.ofNat 64 ((ws.map BitVec.toNat).foldl min (2 ^ 32 - 1)) := by
  have hstep (x : DWord) (y : Word) : min x.toNat y.toNat = (reduStep .minu x y).toNat :=
    (congrArg _ (toNat_setWidth_word y).symm).trans (toNat_umin ..).symm
  rw [List.foldl_map, show 2 ^ 32 - 1 = (reduIdentity .minu).toNat by decide, List.foldl_hom BitVec.toNat hstep, BitVec.ofNat_toNat,
    BitVec.setWidth_eq]

theorem foldl_reduStep_maxu :
    ws.foldl (reduStep .maxu) (reduIdentity .maxu) = BitVec.ofNat 64 ((ws.map BitVec.toNat).foldl max 0) := by
  have hstep (x : DWord) (y : Word) : max x.toNat y.toNat = (reduStep .maxu x y).toNat :=
    (congrArg _ (toNat_setWidth_word y).symm).trans (toNat_umax ..).symm
  rw [List.foldl_map, show 0 = (reduIdentity .maxu).toNat by decide, List.foldl_hom BitVec.toNat hstep, BitVec.ofNat_toNat,
    BitVec.setWidth_eq]

theorem foldl_reduStep_and :
    ws.foldl (reduStep .and) (reduIdentity .and) = (ws.foldl (· &&& ·) 0xFFFFFFFF#32).setWidth 64 := by
  have hstep (x y : Word) : reduStep .and (x.setWidth 64) y = (x &&& y).setWidth 64 := BitVec.setWidth_and.symm
  rw [← List.foldl_hom _ hstep]
  rfl

theorem foldl_reduStep_or : ws.foldl (reduStep .or) (reduIdentity .or) = (ws.foldl (· ||| ·) 0#32).setWidth 64 := by
  have hstep (x y : Word) : reduStep .or (x.setWidth 64) y = (x ||| y).setWidth 64 := BitVec.setWidth_or.symm
  rw [← List.foldl_hom _ hstep]
  rfl

theorem foldl_reduStep_xor : ws.foldl (reduStep .xor) (reduIdentity .xor) = (ws.foldl (· ^^^ ·) 0#32).setWidth 64 := by
  have hstep (x y : Word) : reduStep .xor (x.setWidth 64) y = (x ^^^ y).setWidth 64 := BitVec.setWidth_xor.symm
  rw [← List.foldl_hom _ hstep]
  rfl
end

/-- The registers let REDU issue, as they do with no active lane; s[D] takes what its steps make of the words. -/
theorem exec_redu_open {d : SReg} {a : VReg} {f : ReduOp} {g : Guard} {s : State} {p : Ply} (hp : Acts s p) (hg : guardHolds g p = true)
    (ho : p.lanes = [] ∨ Open s p [(a, p.lanes)] []) : Becomes (.redu d a f g) s
      (p.setS d ((p.lanes.map (word s p a)).foldl (reduStep f) (reduIdentity f))) := by
  have hopen : Open s p [(a, p.lanes)] [] := by
    rcases ho with h | h
    · exact open_of_no_lanes s p (List.forall_mem_singleton.mpr h)
    · exact h
  rw [List.foldl_map]
  exact becomes_guarded hp hg rfl (exec_redu d a f g s) (gated_open hopen)

/-- Settles O4: the steps of each operation from its identity are the operation on the words as numbers. -/
theorem reductions : Obligations.Reductions := by
  intro d a f g s p hp hg ho
  have h : Becomes (.redu d a f g) s (p.setS d ((p.lanes.map (word s p a)).foldl (reduStep f) (reduIdentity f))) :=
    exec_redu_open hp hg ho
  refine ⟨rfl, ?_⟩
  cases f with
  | add => rwa [foldl_reduStep_add] at h
  | min => rwa [foldl_reduStep_min] at h
  | max => rwa [foldl_reduStep_max] at h
  | minu => rwa [foldl_reduStep_minu] at h
  | maxu => rwa [foldl_reduStep_maxu] at h
  | and => rwa [foldl_reduStep_and] at h
  | or => rwa [foldl_reduStep_or] at h
  | xor => rwa [foldl_reduStep_xor] at h
end Sys2Proof.Machine
end

section
/-! SUPPORT. Branches, calls and returns (R115, R116, R143, R144). -/
namespace Sys2Proof.Machine
open Sys2Proof.Claim

/-- A PC-relative target is as far away as the offset says. -/
theorem target4_eq_offsetPc (p : Ply) (o : BitVec 21) : target4 p.a.pc o = offsetPc p o := by
  have h4 : (4 : Int) * o.toInt = o.toInt * 4 := Int.mul_comm ..
  rw [target4, offsetPc, BitVec.signExtend, h4, BitVec.ofInt_mul]
  exact congrArg (p.a.pc + ·) (BitVec.shiftLeft_eq_mul_twoPow _ 2)

section
variable {s : State} {v : DWord} {p : Ply}

theorem toNat_low_bits : (v.extractLsb' 0 2).toNat = v.toNat % 4 := by
  rw [BitVec.extractLsb'_toNat, Nat.shiftRight_zero]

theorem branchTo_misaligned (h : v.toNat % 4 ≠ 0) : branchTo s v p = .before s .misaligned v 0 := by
  have hlow : v.extractLsb' 0 2 ≠ 0 := by
    rw [ne_eq, ← BitVec.toNat_inj, toNat_low_bits]
    exact h
  exact if_pos hlow

theorem low_bits_eq_zero (h : v.toNat % 4 = 0) : v.extractLsb' 0 2 = 0 :=
  BitVec.eq_of_toNat_eq (toNat_low_bits.trans h)

theorem toNat_high_bits : (v.extractLsb' 57 7).toNat = v.toNat / 2 ^ 57 := by
  rw [BitVec.extractLsb'_toNat, Nat.shiftRight_eq_div_pow]
  omega

theorem branchTo_protection (ha : v.toNat % 4 = 0) (h : 2 ^ 57 ≤ v.toNat) : branchTo s v p = .before s .protection v 0 := by
  have hhigh : v.extractLsb' 57 7 ≠ 0 := by
    rw [ne_eq, ← BitVec.toNat_inj, toNat_high_bits]
    exact Nat.ne_of_gt (Nat.div_pos h (by decide))
  rw [branchTo, if_neg (not_not_intro (low_bits_eq_zero ha)), if_pos hhigh]

theorem branchTo_jump (ha : v.toNat % 4 = 0) (h : v.toNat < 2 ^ 57) :
    branchTo s v p = .jump (s.setPly s.cur p) (BitVec.ofNat 57 v.toNat) := by
  have hhigh : v.extractLsb' 57 7 = 0 := by
    rw [← BitVec.toNat_inj, toNat_high_bits]
    exact Nat.div_eq_of_lt h
  rw [branchTo, if_neg (not_not_intro (low_bits_eq_zero ha)), if_neg (not_not_intro hhigh), BitVec.ofNat_toNat]
end

/-! ### A branch to the address in a register -/

section
variable {i : Instr} {g : Guard} {a : SReg} {s : State} {p : Ply} {linked : Ply → Ply}
variable (hp : Acts s p) (hg : guardHolds g p = true)
variable (he : exec i s = guarded unfed (encode i) g s fun p => branchTo s (p.sreg a) (linked p))
include hp hg he

/-- The ply that goes on is the acting one, with its link where the branch is a call. -/
theorem branch_goes (ha : (p.sreg a).toNat % 4 = 0) (h : (p.sreg a).toNat < 2 ^ 57) :
    Goes i s (linked p) (BitVec.ofNat 57 (p.sreg a).toNat) :=
  goes_jump hp hg he (branchTo_jump ha h)

theorem branch_misaligned (h : (p.sreg a).toNat % 4 ≠ 0) : Raises unfed i s p s .misaligned (p.sreg a) 0 :=
  raises_guarded hp hg he (branchTo_misaligned h)

theorem branch_protection (ha : (p.sreg a).toNat % 4 = 0) (h : 2 ^ 57 ≤ (p.sreg a).toNat) :
    Raises unfed i s p s .protection (p.sreg a) 0 :=
  raises_guarded hp hg he (branchTo_protection ha h)
end

/-- Settles O5: BRA and CALL jump by their offset, and the others go through `branchTo`, CALLX with the link in its ply. -/
theorem branchesAndCalls : Obligations.BranchesAndCalls := by
  intro o a g s p hp hg linked v
  have hbrx : exec (.brx a g) s = guarded unfed (encode (.brx a g)) g s fun p => branchTo s (p.sreg a) p := exec_brx a g s
  have hret : exec (.ret a g) s = guarded unfed (encode (.ret a g)) g s fun p => branchTo s (p.sreg a) p := exec_ret a g s
  have hcallx : exec (.callx a g) s = guarded unfed (encode (.callx a g)) g s fun p => branchTo s (p.sreg a) p.link :=
    exec_callx a g s
  refine ⟨rfl, rfl, ?_, ?_, fun ha h => ⟨?_, ?_, ?_⟩, fun h => ⟨?_, ?_, ?_⟩, fun ha h => ⟨?_, ?_, ?_⟩⟩
  · rw [← target4_eq_offsetPc]
    exact goes_jump_same hp hg (exec_bra o g s) rfl
  · rw [← target4_eq_offsetPc]
    exact goes_jump hp hg (exec_call o g s) rfl
  · exact branch_goes (linked := id) hp hg hbrx ha h
  · exact branch_goes (linked := id) hp hg hret ha h
  · exact branch_goes hp hg hcallx ha h
  · exact branch_misaligned hp hg hbrx h
  · exact branch_misaligned hp hg hret h
  · exact branch_misaligned hp hg hcallx h
  · exact branch_protection hp hg hbrx ha h
  · exact branch_protection hp hg hret ha h
  · exact branch_protection hp hg hcallx ha h
end Sys2Proof.Machine
end

section
/-! SUPPORT. Uniform loads, stores and atomics (R150 to R154, R339). -/
namespace Sys2Proof.Machine
open Sys2Proof.Claim

/-! ### The causes of an address (R154) -/

section
variable {n : Nat} {va : DWord}

theorem addrCause_misaligned (h : va.toNat % n ≠ 0) : addrCause n [va] = some (.misaligned, va) := by
  simp only [addrCause, List.find?_cons, bne_iff_ne.mpr h]

theorem addrCause_protection (ha : va.toNat % n = 0) (h : 2 ^ 57 ≤ va.toNat) : addrCause n [va] = some (.protection, va) := by
  have hhigh : va.toNat / 2 ^ 57 ≠ 0 := by omega
  simp only [addrCause, List.find?_cons, ha, List.find?_nil, bne_self_eq_false, bne_iff_ne.mpr hhigh]
end

/-- What an address of n bytes raises before its access: 0x22, and else 0x21. -/
def AddressFault (n : Nat) (va : DWord) (c : Cause) : Prop :=
  (va.toNat % n ≠ 0 ∧ c = .misaligned) ∨ (va.toNat % n = 0 ∧ 2 ^ 57 ≤ va.toNat ∧ c = .protection)

theorem AddressFault.addrCause_eq {n : Nat} {va : DWord} {c : Cause} (h : AddressFault n va c) : addrCause n [va] = some (c, va) := by
  rcases h with ⟨h, rfl⟩ | ⟨ha, h, rfl⟩
  · exact addrCause_misaligned h
  · exact addrCause_protection ha h

/-! ### Loads (R150, R151, R339) -/

/-- The word of a uniform load at its place, in the state after translation, and the state that the read leaves. -/
def loadedAt (s t : State) (p : Ply) (e : Option Scope) (n : Nat) (spot : Spot) : Image × State :=
  readOne (coreOf s.cur) (viewer s.cur p).tenant e spot.at_ n .allocate (hintL2 .normal spot t)

section
variable {d : SReg} {e : Option Scope} {n : Nat} {va : DWord} {s t : State} {p : Ply} {spot : Spot} {c : Cause}

theorem uniformRead_full (h : 63 ≤ loadsOut s s.cur p) : uniformRead d e n va s p = .stall := by
  rw [uniformRead, if_pos h]

theorem uniformRead_lands (h : loadsOut s s.cur p < 63) (hl : LandsAt s p { need := .read, bytes := n, scope := e } va spot t)
    (herr : (loadedAt s t p e n spot).1.error = none) : uniformRead d e n va s p =
      .next ((loadedAt s t p e n spot).2.modPly s.cur fun q => q.setS d (BitVec.ofNat 64 (loadedAt s t p e n spot).1.value)) := by
  unfold loadedAt at herr
  rw [uniformRead, if_neg (Nat.not_le.mpr h)]
  refine reachOne_next hl ?_
  simp only [herr]
  rfl

theorem uniformRead_addr (h : loadsOut s s.cur p < 63) (ha : AddressFault n va c) : uniformRead d e n va s p = .before s c va 0 := by
  rw [uniformRead, if_neg (Nat.not_le.mpr h)]
  exact reachOne_addr rfl ha.addrCause_eq

/-! ### Stores (R150, R151) -/

theorem uniformWrite_lands (hl : LandsAt s p { need := .write, bytes := n, scope := e } va spot t) : uniformWrite d e n va s p =
    .next (writeOne s.cur t.seq e ⟨spot.va, 0, spot.at_, bytesLE (p.sreg d).toNat n, none⟩
      (hintL2 .normal spot (enterStore (coreOf s.cur) (Flight.issue t s.cur p true) t))) := by
  rw [uniformWrite]
  exact reachOne_next hl rfl

theorem uniformWrite_addr (ha : AddressFault n va c) : uniformWrite d e n va s p = .before s c va 0 := by
  rw [uniformWrite]
  exact reachOne_addr rfl ha.addrCause_eq
end

/-! ### Atomics (R152, R153) -/

/-- What a uniform atomic finds at its place, counted as a store, and the state that it leaves. -/
def atomicAtSpot (s t : State) (p : Ply) (e : Scope) (ord : Bool) (spot : Spot) (x : BusRequest) : Image × State :=
  atomicOne s.cur t.seq (viewer s.cur p).tenant e ord spot x (enterStore (coreOf s.cur) (Flight.issue t s.cur p true) t)

section
variable {i : Instr} {g : Guard} {d sb : SReg} {e : Scope} {ord : Bool} {n : Nat} {f : Ply → BusRequest} {s t : State} {p : Ply}
variable {spot : Spot} {c : Cause}
variable (hp : Acts s p) (hg : guardHolds g p = true) (he : exec i s = uniformAtomic (encode i) g d sb e ord n f s)
include hp hg he

theorem uniformAtomic_completes
    (hl : LandsAt s p { need := .both, bytes := n, reach := .atomic, scope := some e } (p.sreg sb) spot t)
    (herr : (atomicAtSpot s t p e ord spot (f p)).1.error = none) : Completes { closes := true } i s p
      (atomicAtSpot s t p e ord spot (f p)).2 fun q => q.setS d (BitVec.ofNat 64 (atomicAtSpot s t p e ord spot (f p)).1.value) := by
  unfold atomicAtSpot at herr
  refine completes_change (completes_guarded hp hg he (reachOne_next hl ?_))
  simp only [herr]
  rfl

theorem uniformAtomic_raises (ha : AddressFault n (p.sreg sb) c) : Raises { closes := true } i s p s c (p.sreg sb) 0 :=
  raises_guarded hp hg he (reachOne_addr rfl ha.addrCause_eq)
end

theorem update_atom (op : AtomOp) (w : Bool) (v : DWord) (old : Nat) : BusRequest.update (.atom op w v) old =
    some (atomApply op (if w then 64 else op.width) old (v.toNat % 2 ^ (if w then 64 else op.width))) := rfl

theorem update_cas (w : Bool) (expected new : DWord) (old : Nat) : BusRequest.update (.cas w expected new) old =
    if expected.toNat % 2 ^ (8 * wideBytes w) = old then some (new.toNat % 2 ^ (8 * wideBytes w)) else none := by
  cases w <;> rfl

/-- Settles O19: loads are `uniformRead`, stores `uniformWrite` and atomics `uniformAtomic`, each with its address. -/
theorem uniformMemory : Obligations.UniformMemory := by
  intro d sb i z e w ord op g s p spot t hp hg core ten near reads writes atomics
  have huld := exec_uld d sb i z g s
  have hulda := exec_ulda d sb e w g s
  have hust := exec_ust d sb i z g s
  have hustr := exec_ustr d sb e w g s
  have huatom := exec_uatom d sb e w op g s
  have hucas := exec_ucas d sb e w ord g s
  have hnear (c : Cause) (h : AddressFault z.bytes near c) :
      (loadsOut s s.cur p < 63 → Raises {} (.uld d sb i z g) s p s c near 0) ∧ Raises {} (.ust d sb i z g) s p s c near 0 :=
    ⟨fun hfew => raises_guarded hp hg huld (uniformRead_addr hfew h), raises_guarded hp hg hust (uniformWrite_addr h)⟩
  have hfar (c : Cause) (h : AddressFault (wideBytes w) (p.sreg sb) c) :
      (loadsOut s s.cur p < 63 → Raises {} (.ulda d sb e w g) s p s c (p.sreg sb) 0) ∧
      Raises {} (.ustr d sb e w g) s p s c (p.sreg sb) 0 ∧
      Raises { closes := true } (.uatom d sb e w op g) s p s c (p.sreg sb) 0 ∧
      Raises { closes := true } (.ucas d sb e w ord g) s p s c (p.sreg sb) 0 :=
    ⟨fun hfew => raises_guarded hp hg hulda (uniformRead_addr hfew h), raises_guarded hp hg hustr (uniformWrite_addr h),
      uniformAtomic_raises hp hg huatom h, uniformAtomic_raises hp hg hucas h⟩
  refine ⟨⟨fun h => ?_, fun h hl herr => ?_⟩, ⟨fun h => ?_, fun h hl herr => ?_⟩, fun hl => ?_, fun hl => ?_, ?_, update_atom op w _,
    ?_, update_cas w _ _, fun h => hnear _ (Or.inl ⟨h, rfl⟩), fun ha h => hnear _ (Or.inr ⟨ha, h, rfl⟩),
    fun h => hfar _ (Or.inl ⟨h, rfl⟩), fun ha h => hfar _ (Or.inr ⟨ha, h, rfl⟩)⟩
  · exact standsBack_guarded hp hg huld (uniformRead_full h)
  · exact completes_change (completes_guarded hp hg huld (uniformRead_lands h hl herr))
  · exact standsBack_guarded hp hg hulda (uniformRead_full h)
  · exact completes_change (completes_guarded hp hg hulda (uniformRead_lands h hl herr))
  · exact completes_guarded hp hg hust (uniformWrite_lands hl)
  · exact completes_guarded hp hg hustr (uniformWrite_lands hl)
  · exact uniformAtomic_completes (f := fun q => .atom op w (q.sreg d)) hp hg huatom
  · exact uniformAtomic_completes (f := fun q => .cas w (q.sreg d) (q.sreg (d + 1))) hp hg hucas
end Sys2Proof.Machine
end

section
/-! SUPPORT. Lane loads, stores, atomics, reductions and hints (R185 to R198). -/
namespace Sys2Proof.Machine
open Sys2Proof.Claim

/-! ### The lowest lane whose address cannot be used (R186) -/

section
variable {n : Nat} {va : DWord} {before after : List DWord}

theorem addrCause_eq_none {vas : List DWord} (h : ∀ va ∈ vas, va.toNat % n = 0 ∧ va.toNat < 2 ^ 57) : addrCause n vas = none := by
  have haligned : vas.find? (fun va => va.toNat % n != 0) = none :=
    List.find?_eq_none.mpr fun va hva => by simp [(h va hva).1]
  have hlow : vas.find? (fun va => va.toNat / 2 ^ 57 != 0) = none :=
    List.find?_eq_none.mpr fun va hva => by simpa using Nat.div_eq_of_lt (h va hva).2
  simp only [addrCause, haligned, hlow]

theorem addrCause_first_misaligned (hb : ∀ y ∈ before, y.toNat % n = 0) (h : va.toNat % n ≠ 0) :
    addrCause n (before ++ va :: after) = some (.misaligned, va) := by
  have hfind : (before ++ va :: after).find? (fun va => va.toNat % n != 0) = some va :=
    List.find?_eq_some_iff_append.mpr ⟨by simpa using h, before, after, rfl, fun y hy => by simp [hb y hy]⟩
  simp only [addrCause, hfind]

theorem addrCause_first_protection (haligned : ∀ y ∈ before ++ va :: after, y.toNat % n = 0) (hb : ∀ y ∈ before, y.toNat < 2 ^ 57)
    (h : 2 ^ 57 ≤ va.toNat) : addrCause n (before ++ va :: after) = some (.protection, va) := by
  have hnone : (before ++ va :: after).find? (fun va => va.toNat % n != 0) = none :=
    List.find?_eq_none.mpr fun y hy => by simp [haligned y hy]
  have hfind : (before ++ va :: after).find? (fun va => va.toNat / 2 ^ 57 != 0) = some va :=
    List.find?_eq_some_iff_append.mpr ⟨bne_iff_ne.mpr (by omega), before, after, rfl,
      fun y hy => by simpa using Nat.div_eq_of_lt (hb y hy)⟩
  simp only [addrCause, hnone, hfind]
end

/-- What the addresses of an instruction's lanes raise before any access. -/
def lanesCause (x : Shape) (reqs : List LaneReq) : Option (Cause × DWord) := reqs.findSome? fun r => addrCause x.bytes (x.addrs r)

theorem lanesCause_first {x : Shape} {pre post : List LaneReq} {r : LaneReq} {e : Cause × DWord}
    (hpre : ∀ y ∈ pre, ∀ va ∈ x.addrs y, va.toNat % x.bytes = 0 ∧ va.toNat < 2 ^ 57)
    (hr : addrCause x.bytes (x.addrs r) = some e) : lanesCause x (pre ++ r :: post) = some e :=
  List.findSome?_eq_some_iff.mpr ⟨pre, r, post, rfl, hr, fun y hy => addrCause_eq_none (hpre y hy)⟩

/-- An instruction that takes what its addresses raise takes the cause of the lowest lane with such an address. -/
theorem addressRaises_of {kd : WordKind} {i : Instr} {x : Shape} {reqs : List LaneReq} {s : State} {p : Ply}
    (h : ∀ c va, lanesCause x reqs = some (c, va) → Raises kd i s p s c va 0) : AddressRaises kd i x reqs s p := by
  rintro pre r post rfl hpre before va after hr
  refine fun hb => ⟨fun hva => h _ _ (lanesCause_first hpre ?_), fun haligned hlow hva => h _ _ (lanesCause_first hpre ?_)⟩
  · rw [hr]
    exact addrCause_first_misaligned hb hva
  · rw [hr]
    exact addrCause_first_protection (fun y hy => (List.mem_append.mp hy).elim (hb y) (haligned y)) hlow hva

theorem lanesIn_laneReqs (c : Core) (p : Ply) (a : VReg) (sb : SReg) (scale : Nat) (data : List VReg) :
    lanesIn (laneReqs c p a sb scale data) = p.lanes := by
  rw [lanesIn, laneReqs, List.map_map]
  exact List.map_id _

theorem lanes_of_lanesCause {x : Shape} {c : Core} {p : Ply} {a : VReg} {sb : SReg} {scale : Nat} {data : List VReg}
    {e : Cause × DWord} (h : lanesCause x (laneReqs c p a sb scale data) = some e) : p.lanes ≠ [] := by
  intro hnone
  simp [lanesCause, laneReqs, hnone] at h

/-- Open registers let an instruction go on with the rows of the core. -/
theorem gated_here {s : State} {p : Ply} {reads writes : List RegUse} {go : Core → Res} (h : Open s p reads writes) :
    gated s p reads writes go = go (here s) := gated_open h

/-! ### Resuming the lanes that are left (R187) -/

theorem regated_open {s : State} {p : Ply} {u : Unfinished} {regs : List VReg} {go : Res} (h : Resumes s p u regs) :
    regated s p u regs go = go := by
  obtain ⟨herr, hpoison⟩ := h
  have herr' : errorRead (s.core (coreOf s.cur)) p (regs.map fun r => (r, lanesOf u.mask)) [] = false := herr
  have hpoison' : poisonRead (s.core (coreOf s.cur)) p (regs.map fun r => (r, lanesOf u.mask)) = none := hpoison
  simp [regated, herr', hpoison']

/-! ### Loads (R189, R190, R197) -/

section
variable {i : Instr} {f : LoadForm} {rs : List VReg} {reqs : List LaneReq} {gos : List LaneGo} {vals : List (Nat × List Word)}
variable {u : Unfinished} {s t v : State} {p p' : Ply} {y : Core}

theorem loadLanes_addr {c : Cause} {va : DWord} (h : lanesCause f.shape reqs = some (c, va)) :
    loadLanes i f rs s p reqs none = .before s c va 0 := by
  rw [loadLanes]
  exact reachLanes_addr h

theorem loadLanes_first (hl : Lands s p f.shape reqs gos t) (hread : readLanes (coreOf s.cur) (tenantOf s p) f gos t = ((none, vals), v))
    (hrows : prepareRegs (v.core (coreOf s.cur)) p (lanesIn reqs) rs = some (y, p')) :
    let ps := fillAll vals (piecesFor p' rs (lanesIn reqs))
    let flight := { Flight.issue v s.cur p true with
      rows := pieceRows ps, pieces := ps, waiting := false, load := some (i, gos.map (·.req))
      lines := accessLines f.shape.reach gos }
    loadLanes i f rs s p reqs none =
      .next (takeRows s.cur p' (v.setCore (coreOf s.cur) { y with loads := y.loads ++ [flight] }).bump) := by
  intro ps flight
  rw [loadLanes]
  refine reachLanes_next hl ?_
  simp only [hread, hrows]
  rfl

theorem loadLanes_resumed {n : Nat} (hu : u.flight = some n) (hl : Lands s p f.shape u.reqs gos t)
    (hread : readLanes (coreOf s.cur) (tenantOf s p) f gos t = ((none, vals), v)) :
    loadLanes i f rs s p u.reqs (some u) =
      .next (v.modCore (coreOf s.cur) fun y => { y with loads := y.loads.map fun x => if x.seq = n then
        { x with pieces := fillAll vals x.pieces, waiting := false, load := some (i, (x.load.map (·.2)).getD [] ++ gos.map (·.req))
                 lines := x.lines ++ accessLines f.shape.reach gos } else x }) := by
  rw [loadLanes]
  refine reachLanes_next hl ?_
  simp only [hread, hu, Option.some.injEq]
  rfl
end

section
variable {i : Instr} {f : LoadForm} {d a : VReg} {sb : SReg} {scale : Nat} {s : State} {p : Ply}

/-- What the body of a lane load is for the acting ply: nothing without a lane, and else its accesses when 63 loads are not out and the
pool has rows for it; when lanes are left, the rest of them. -/
theorem laneLoad_body (i : Instr) (f : LoadForm) (d a : VReg) (sb : SReg) (scale : Nat) (s : State) (p : Ply) :
    let rs := regList d (regCount f.bytes)
    ∃ body, laneLoad i f d a sb scale s = perform {} (encode i) s body ∧
      (p.replays = none → Open s p [(a, p.lanes)] (rs.map fun r => (r, p.lanes)) →
        (p.lanes = [] → body p = .next s) ∧
        (p.lanes ≠ [] → loadsOut s s.cur p < 63 → (prepareRegs (here s) p p.lanes rs).isSome = true →
          body p = loadLanes i f rs s p (laneReqs (here s) p a sb scale []) none)) ∧
      ∀ u, p.replays = some u → Resumes s p u [a] → body p = loadLanes i f rs s p u.reqs (some u) := by
  refine ⟨_, rfl, fun hr ho => ⟨fun hnone => ?_, fun hsome hfew hrows => ?_⟩, fun u hr hres => ?_⟩
  · simp only [hr]
    rw [gated_here ho, if_pos (by simp [hnone])]
  · obtain ⟨z, hz⟩ := Option.isSome_iff_exists.mp hrows
    simp only [hr]
    rw [gated_here ho, if_neg (by simpa using hsome), if_neg (Nat.not_le.mpr hfew)]
    simp only [hz]
  · simp only [hr]
    exact regated_open hres

theorem loadCompletes_of_laneLoad (hp : Acts s p) (hr : p.replays = none) (he : exec i s = laneLoad i f d a sb scale s) :
    LoadCompletes i f d a sb scale s p := by
  obtain ⟨body, hbody, hissue, -⟩ := laneLoad_body i f d a sb scale s p
  rw [hbody] at he
  intro ho
  obtain ⟨hnone, hsome⟩ := hissue hr ho
  refine ⟨fun h => completes_perform hp he (hnone h), fun hfew hrows => addressRaises_of fun c va hc => ?_, ?_⟩
  · exact raises_perform hp he ((hsome (lanes_of_lanesCause hc) hfew hrows).trans (loadLanes_addr hc))
  · intro gos t vals u y p' hlanes hfew hrows hl hread hp'
    rw [← lanesIn_laneReqs (here s) p a sb scale []] at hp' ⊢
    exact completes_perform hp he ((hsome hlanes hfew hrows).trans (loadLanes_first hl hread hp'))

theorem loadResumes_of_laneLoad {u : Unfinished} {n : Nat} (hp : Acts s p) (hr : p.replays = some u) (hu : u.flight = some n)
    (he : exec i s = laneLoad i f d a sb scale s) : LoadResumes i f a u n s p := by
  obtain ⟨body, hbody, -, hrest⟩ := laneLoad_body i f d a sb scale s p
  rw [hbody] at he
  intro hres gos t vals v hl hread
  exact completes_perform hp he ((hrest u hr hres).trans (loadLanes_resumed hu hl hread))
end

/-! ### Stores (R190, R191) -/

section
variable {x : Shape} {h : Hint} {reqs : List LaneReq} {gos : List LaneGo} {u : Unfinished} {s t : State} {p : Ply}

theorem storeLanes_addr {c : Cause} {va : DWord} (hc : lanesCause x reqs = some (c, va)) :
    storeLanes x h s p reqs none = .before s c va 0 := by
  rw [storeLanes]
  exact reachLanes_addr hc

/-- The bytes of the lanes on their way, in the flight `n`, which waits for no lane. -/
def storedAll (x : Shape) (h : Hint) (gos : List LaneGo) (k n : Nat) (s : State) : State :=
  modStore (coreOf k) n (fun f => { f with waiting := false })
    (gos.foldl (fun u g => writeOne k n x.scope (g.write x.bytes) (hintL2 h g.main u)) s)

theorem storeLanes_first (hl : Lands s p x reqs gos t) : storeLanes x h s p reqs none =
    .next (storedAll x h gos s.cur t.seq (enterStore (coreOf s.cur) (Flight.issue t s.cur p true) t)) := by
  rw [storeLanes]
  exact reachLanes_next hl rfl

theorem storeLanes_resumed {n : Nat} (hu : u.flight = some n) (hl : Lands s p x u.reqs gos t) :
    storeLanes x h s p u.reqs (some u) = .next (storedAll x h gos s.cur n t) := by
  rw [storeLanes]
  refine reachLanes_next hl ?_
  simp only [storeFlight, Option.bind_some, hu]
  rfl
end

section
variable {i : Instr} {x : Shape} {h : Hint} {d a : VReg} {sb : SReg} {scale : Nat} {s : State} {p : Ply}

/-- What the body of a lane store is for the acting ply: nothing without a lane, and else its accesses; when lanes are left, the rest. -/
theorem laneStore_body (i : Instr) (x : Shape) (h : Hint) (d a : VReg) (sb : SReg) (scale : Nat) (s : State) (p : Ply) :
    let rs := regList d (regCount x.bytes)
    ∃ body, laneStore i x h d a sb scale s = perform {} (encode i) s body ∧
      (p.replays = none → StoreOpen s p a rs →
        (p.lanes = [] → body p = .next s) ∧
        (p.lanes ≠ [] → body p = storeLanes x h s p (laneReqs (here s) p a sb scale rs) none)) ∧
      ∀ u, p.replays = some u → Resumes s p u (a :: if p.mode = 0 then rs else []) →
        body p = storeLanes x h s p u.reqs (some u) := by
  refine ⟨_, rfl, fun hr ho => ⟨fun hnone => ?_, fun hsome => ?_⟩, fun u hr hres => ?_⟩
  · simp only [hr]
    rw [gatedData_open ho, if_pos (by simp [hnone])]
  · simp only [hr]
    rw [gatedData_open ho, if_neg (by simpa using hsome)]
  · simp only [hr]
    exact regated_open hres

theorem storeCompletes_of_laneStore (hp : Acts s p) (hr : p.replays = none) (he : exec i s = laneStore i x h d a sb scale s) :
    StoreCompletes i x h d a sb scale s p := by
  obtain ⟨body, hbody, hissue, -⟩ := laneStore_body i x h d a sb scale s p
  rw [hbody] at he
  intro ho
  obtain ⟨hnone, hsome⟩ := hissue hr ho
  refine ⟨fun hlanes => completes_perform hp he (hnone hlanes), addressRaises_of fun c va hc => ?_, fun gos t hlanes hl => ?_⟩
  · exact raises_perform hp he ((hsome (lanes_of_lanesCause hc)).trans (storeLanes_addr hc))
  · exact completes_perform hp he ((hsome hlanes).trans (storeLanes_first hl))

theorem storeResumes_of_laneStore {u : Unfinished} {n : Nat} (hp : Acts s p) (hr : p.replays = some u) (hu : u.flight = some n)
    (he : exec i s = laneStore i x h d a sb scale s) : StoreResumes i x h d a u n s p := by
  obtain ⟨body, hbody, -, hrest⟩ := laneStore_body i x h d a sb scale s p
  rw [hbody] at he
  intro hres gos t hl
  exact completes_perform hp he ((hrest u hr hres).trans (storeLanes_resumed hu hl))
end

/-! ### Atomics (R192, R193, R195) -/

section
variable {i : Instr} {n : Nat} {e : Scope} {o : Bool} {ins : Nat} {f : List Word → BusRequest} {d a : VReg} {sb : SReg}
variable {s : State} {p : Ply}

theorem atomicLanes_addr {x : Shape} {out : List VReg} {reqs : List LaneReq} {c : Cause} {va : DWord}
    (hc : lanesCause x reqs = some (c, va)) : atomicLanes x e o out f s p reqs none = .before s c va 0 := by
  rw [atomicLanes]
  exact reachLanes_addr hc

/-- An atomic at its issue: its rows are made ready, its flight holds their pieces, and its lanes perform in order. -/
theorem atomicLanes_first {x : Shape} {out : List VReg} {reqs : List LaneReq} {gos : List LaneGo} {t u : State} {y : Core} {p' : Ply}
    {vals : List (Nat × List Word)} (hl : Lands s p x reqs gos t)
    (hrows : prepareRegs (t.core (coreOf s.cur)) p (lanesIn reqs) out = some (y, p')) :
    let t1 := takeRows s.cur p' (t.setCore (coreOf s.cur) y)
    let ps := piecesFor p' out (lanesIn reqs)
    atomLanes s.cur t1.seq (tenantOf s p) e o x.bytes f gos (modStore (coreOf s.cur) t1.seq (fun x => { x with rows := pieceRows ps, pieces := ps })
      (enterStore (coreOf s.cur) (Flight.issue t1 s.cur p true) t1)) = ((none, vals), u) →
    atomicLanes x e o out f s p reqs none =
      .next (modStore (coreOf s.cur) t1.seq (fun x => { x with waiting := false }) (landIn s.cur t1.seq vals u)) := by
  intro t1 ps hatoms
  rw [atomicLanes]
  refine reachLanes_next hl ?_
  simp only [hrows, storeFlight, Option.bind_none]
  rw [hatoms]
  rfl

/-- What the body of an atomic is at its issue: nothing without a lane, and else its accesses when the pool has rows for it. -/
theorem laneAtomic_body (i : Instr) (n : Nat) (e : Scope) (o : Bool) (d : VReg) (ins : Nat) (a : VReg) (sb : SReg)
    (f : List Word → BusRequest) (s : State) (p : Ply) :
    let data := regList d ins
    let out := regList d (regCount n)
    ∃ body, laneAtomic i n e o d ins a sb f s = perform { closes := true } (encode i) s body ∧
      (p.replays = none → Open s p ((a, p.lanes) :: data.map fun r => (r, p.lanes)) (out.map fun r => (r, p.lanes)) →
        (p.lanes = [] → body p = .next s) ∧
        (p.lanes ≠ [] → (prepareRegs (here s) p p.lanes out).isSome = true →
          body p = atomicLanes (atomicShape n e) e o out f s p (laneReqs (here s) p a sb 0 data) none)) := by
  refine ⟨_, rfl, fun hr ho => ⟨fun hnone => ?_, fun hsome hrows => ?_⟩⟩
  · simp only [hr]
    rw [gated_here ho, if_pos (by simp [hnone])]
  · obtain ⟨z, hz⟩ := Option.isSome_iff_exists.mp hrows
    simp only [hr]
    rw [gated_here ho, if_neg (by simpa using hsome)]
    simp only [hz]
    rfl

theorem atomicCompletes_of_laneAtomic (hp : Acts s p) (hr : p.replays = none) (he : exec i s = laneAtomic i n e o d ins a sb f s) :
    AtomicCompletes i n e o ins f d a sb s p := by
  obtain ⟨body, hbody, hissue⟩ := laneAtomic_body i n e o d ins a sb f s p
  rw [hbody] at he
  intro ho
  obtain ⟨hnone, hsome⟩ := hissue hr ho
  refine ⟨fun h => completes_perform hp he (hnone h), fun hrows => addressRaises_of fun c va hc => ?_, ?_⟩
  · exact raises_perform hp he ((hsome (lanes_of_lanesCause hc) hrows).trans (atomicLanes_addr hc))
  · intro gos t y p' vals u hlanes hrows hl hp' t1 ps hatoms
    have hissued := hsome hlanes hrows
    rw [← lanesIn_laneReqs (here s) p a sb 0 (regList d ins)] at hp'
    refine completes_perform hp he (hissued.trans (atomicLanes_first hl hp' ?_))
    rw [lanesIn_laneReqs]
    exact hatoms
end

/-! ### Reductions (R93, R194, R196) -/

section
variable {i : Instr} {x : Shape} {d a : VReg} {f : Nat → LaneGo → State → Option (Image × Cause) × State}
variable {s : State} {p : Ply}

theorem reduceLanes_addr {reqs : List LaneReq} {c : Cause} {va : DWord} (hc : lanesCause x reqs = some (c, va)) :
    reduceLanes x f s p reqs none = .before s c va 0 := by
  rw [reduceLanes]
  exact reachLanes_addr hc

theorem reduceLanes_first {reqs : List LaneReq} {gos : List LaneGo} {t u : State} (hl : Lands s p x reqs gos t)
    (hred : redLanes s.cur t.seq (f t.seq) gos (enterStore (coreOf s.cur) (Flight.issue t s.cur p true) t) = (none, u)) :
    reduceLanes x f s p reqs none = .next (modStore (coreOf s.cur) t.seq (fun x => { x with waiting := false }) u) := by
  rw [reduceLanes]
  refine reachLanes_next hl ?_
  simp only [storeFlight, Option.bind_none, hred]
  rfl

/-- What the body of a reduction is at its issue: nothing without a lane, and else its accesses. -/
theorem laneReduce_body (i : Instr) (x : Shape) (d a : VReg) (reqs : Core → Ply → List VReg → List LaneReq)
    (f : Nat → LaneGo → State → Option (Image × Cause) × State) (s : State) (p : Ply) :
    let data := regList d (regCount x.bytes)
    ∃ body, laneReduce i x d a reqs f s = perform { closes := true } (encode i) s body ∧
      (p.replays = none → Open s p ((a, p.lanes) :: data.map fun r => (r, p.lanes)) [] →
        (p.lanes = [] → body p = .next s) ∧ (p.lanes ≠ [] → body p = reduceLanes x f s p (reqs (here s) p data) none)) := by
  refine ⟨_, rfl, fun hr ho => ⟨fun hnone => ?_, fun hsome => ?_⟩⟩
  · simp only [hr]
    rw [gated_here ho, if_pos (by simp [hnone])]
  · simp only [hr]
    rw [gated_here ho, if_neg (by simpa using hsome)]

theorem reduceCompletes_of_laneReduce {reqs : Core → Ply → List VReg → List LaneReq} (hp : Acts s p) (hr : p.replays = none)
    (he : exec i s = laneReduce i x d a reqs f s) :
    ReduceCompletes i x d a (reqs (here s) p (regList d (regCount x.bytes))) f s p := by
  obtain ⟨body, hbody, hissue⟩ := laneReduce_body i x d a reqs f s p
  rw [hbody] at he
  intro ho
  obtain ⟨hnone, hsome⟩ := hissue hr ho
  refine ⟨fun h => completes_perform hp he (hnone h), fun hlanes => addressRaises_of fun c va hc => ?_, fun gos t u hlanes hl hred => ?_⟩
  · exact raises_perform hp he ((hsome hlanes).trans (reduceLanes_addr hc))
  · exact completes_perform hp he ((hsome hlanes).trans (reduceLanes_first hl hred))
end

/-! ### Hints (R91, R198) -/

theorem laneAddr_unscaled (s : State) (p : Ply) (a : VReg) (sb : SReg) (l : Nat) :
    laneAddr (here s) p a sb 0 l = p.sreg sb + (word s p a l).setWidth 64 := by
  rw [laneAddr, BitVec.shiftLeft_zero]
  rfl

theorem pref_completes {kind : PrefKind} {a : VReg} {sb : SReg} {s : State} {p : Ply} (hp : Acts s p) (ho : Open s p [(a, p.lanes)] []) :
    Completes {} (.pref kind a sb) s p
      ((p.lanes.map fun l => p.sreg sb + (word s p a l).setWidth 64).foldl (prefLane s.cur p kind) s) id := by
  refine completes_perform hp (exec_pref kind a sb s) ?_
  simp only [gated_here ho, ← laneAddr_unscaled]

/-! ### The instructions -/

theorem ldrep_laneLoad (d a : VReg) (sb : SReg) (ty : RepTy) (s : State) : exec (.ldrep d a sb ty) s = laneLoad (.ldrep d a sb ty)
    { bytes := if ty = .s64 then 8 else 4, words := valueWords (if ty = .s64 then 8 else 4), sum := some ty } d a sb 0 s := by
  cases ty <;> rfl

theorem redq_laneReduce (d a : VReg) (sb : SReg) (q : QFmt) (e : Scope) {s : State} {p : Ply} (hp : Acts s p) :
    exec (.redq d a sb q e) s = laneReduce (.redq d a sb q e) { atomicShape 4 e with residual := true } d a
      (fun c p data => (laneReqs c p a sb 0 data).map fun r => { r with ea2 := p.a.resbase + (regWord c p a r.lane).setWidth 64 })
      (redqLane s.cur (tenantOf s p) q) s := by
  have hten : ((s.ply s.cur).bind fun p => (viewer s.cur p).tenant) = tenantOf s p := by rw [show s.ply s.cur = some p from hp]; rfl
  rw [exec_redq, execRedq, hten]
  rfl

/-- Settles O21: loads are `laneLoad`, stores `laneStore`, atomics `laneAtomic` and reductions `laneReduce`, each with its addresses. -/
theorem laneMemory : Obligations.LaneMemory := by
  intro d a sb z sc h x w ord e ty op q kind s p hp
  have hld := exec_ld d a sb z sc h x s
  have hlda := exec_lda d a sb w e s
  have hst := exec_st d a sb z sc h s
  have hstr := exec_str d a sb w e s
  refine ⟨fun u n hr hu => ⟨?_, ?_, ?_, ?_⟩, fun hr => ⟨?_, ?_, ?_, ?_, ?_, ?_, ?_, ?_, ?_, ?_, pref_completes hp⟩⟩
  · exact loadResumes_of_laneLoad hp hr hu hld
  · exact loadResumes_of_laneLoad hp hr hu hlda
  · exact storeResumes_of_laneStore hp hr hu hst
  · exact storeResumes_of_laneStore hp hr hu hstr
  · exact loadCompletes_of_laneLoad hp hr hld
  · exact loadCompletes_of_laneLoad hp hr hlda
  · exact loadCompletes_of_laneLoad hp hr (ldrep_laneLoad d a sb ty s)
  · exact storeCompletes_of_laneStore hp hr hst
  · exact storeCompletes_of_laneStore hp hr hstr
  · exact atomicCompletes_of_laneAtomic hp hr (exec_atom d a sb op e s)
  · exact atomicCompletes_of_laneAtomic hp hr (exec_atomar d a sb op e s)
  · exact atomicCompletes_of_laneAtomic hp hr (exec_cas d a sb e w ord s)
  · exact reduceCompletes_of_laneReduce hp hr (exec_red d a sb op e s)
  · exact reduceCompletes_of_laneReduce hp hr (redq_laneReduce d a sb q e hp)
end Sys2Proof.Machine
end

section
/-! SUPPORT. TLD and TST (R189, R199, R345). -/
namespace Sys2Proof.Machine
open Sys2Proof.Claim

/-! ### The lanes' offsets -/

section
variable {x : Tile} {n off : Nat}

theorem tileCause_misaligned (h : off % n ≠ 0) : tileCause x n off = some .misaligned := if_pos h

theorem tileCause_beyond (ha : off % n = 0) (h : x.size < off + n) : tileCause x n off = some .tileBounds := by
  rw [tileCause, if_neg (by simpa using ha), if_pos h]

theorem tileCause_fits (ha : off % n = 0) (h : off + n ≤ x.size) : tileCause x n off = none := by
  rw [tileCause, if_neg (by simpa using ha), if_neg (Nat.not_lt.mpr h)]

theorem firstTileCause_fits {offs : Nat → Nat} {ls : List Nat} (h : ∀ l ∈ ls, offs l % n = 0 ∧ offs l + n ≤ x.size) :
    firstTileCause x n (ls.map offs) = none := by
  rw [firstTileCause, List.findSome?_map, List.findSome?_eq_none_iff]
  intro l hl
  simp only [Function.comp_apply, tileCause_fits (h l hl).1 (h l hl).2, Option.map_none]

theorem firstTileCause_first {offs : Nat → Nat} {pre post : List Nat} {l : Nat} {c : Cause}
    (hpre : ∀ m ∈ pre, offs m % n = 0 ∧ offs m + n ≤ x.size) (hl : tileCause x n (offs l) = some c) :
    firstTileCause x n ((pre ++ l :: post).map offs) = some (c, BitVec.ofNat 64 (offs l)) := by
  rw [firstTileCause, List.findSome?_map, List.findSome?_eq_some_iff]
  refine ⟨pre, l, post, rfl, ?_, fun m hm => ?_⟩
  · simp only [Function.comp_apply, hl, Option.map_some]
  · simp only [Function.comp_apply, tileCause_fits (hpre m hm).1 (hpre m hm).2, Option.map_none]
end

/-! ### Reaching the tile (R84, R199) -/

/-- For the acting ply `i` reaches n bytes at the offset of each of its lanes in the tile of a handle, and `go` is what it does there. -/
def ReachesTile (i : Instr) (s : State) (p : Ply) (h n : Nat) (offs : Nat → Nat) (go : Nat → Tile → Res) : Prop :=
  ∃ body, exec i s = perform {} (encode i) s body ∧ body p = onTile s p h n (p.lanes.map offs) go

section
variable {i : Instr} {s u : State} {p : Ply} {h n t l : Nat} {tile : Tile} {offs : Nat → Nat} {go : Nat → Tile → Res} {c : Cause}
variable (hp : Acts s p) (hr : ReachesTile i s p h n offs go)
include hp hr

theorem tile_unknown {ls : List Nat} (hnone : teamTile s (tileTeam s s.cur p) h = none) (hlanes : p.lanes = l :: ls) :
    Raises {} i s p s .tileHandle (BitVec.ofNat 64 (offs l)) 0 := by
  obtain ⟨body, he, hb⟩ := hr
  refine raises_perform hp he (hb.trans ?_)
  rw [onTile, hnone, hlanes]
  cases tileTeam s s.cur p <;> rfl

section
variable (ht : tileTeam s s.cur p = some t) (hx : teamTile s (some t) h = some tile)
include ht hx

theorem tile_lane_raises {pre post : List Nat} (hlanes : p.lanes = pre ++ l :: post)
    (hpre : ∀ m ∈ pre, offs m % n = 0 ∧ offs m + n ≤ tile.size) (hl : tileCause tile n (offs l) = some c) :
    Raises {} i s p s c (BitVec.ofNat 64 (offs l)) 0 := by
  obtain ⟨body, he, hb⟩ := hr
  refine raises_perform hp he (hb.trans ?_)
  simp only [onTile, ht, hx, hlanes, firstTileCause_first hpre hl]

variable (hfits : ∀ l ∈ p.lanes, offs l % n = 0 ∧ offs l + n ≤ tile.size)
include hfits

theorem tile_standsBack (hw : haspWaits s s.cur p t h tile = true) : StandsBack i s := by
  obtain ⟨body, he, hb⟩ := hr
  refine standsBack_perform hp he (hb.trans ?_)
  simp only [onTile, ht, hx, firstTileCause_fits hfits, hw, if_true]

variable (hw : haspWaits s s.cur p t h tile = false)
include hw

theorem tile_completes (hgo : go t tile = .next u) : Completes {} i s p u id := by
  obtain ⟨body, he, hb⟩ := hr
  refine completes_perform hp he (hb.trans ?_)
  simp only [onTile, ht, hx, firstTileCause_fits hfits, hw, Bool.false_eq_true, if_false, hgo]

theorem tile_raises {va umask : DWord} (hgo : go t tile = .before u c va umask) : Raises {} i s p u c va umask := by
  obtain ⟨body, he, hb⟩ := hr
  refine raises_perform hp he (hb.trans ?_)
  simp only [onTile, ht, hx, firstTileCause_fits hfits, hw, Bool.false_eq_true, if_false, hgo]
end
end

/-! ### TLD -/

theorem correctTile_cur (t h off n : Nat) (s : State) : (correctTile t h off n s).cur = s.cur := by
  unfold correctTile
  split
  · dsimp only
    split
    · rfl
    · rw [foldl_cur _ fun _ _ => coreEvent_cur .., State.modTile_cur]
  · rfl

/-- The words of the lanes with one bit error corrected. -/
def lanesCorrected (s : State) (p : Ply) (t h n : Nat) (offs : Nat → Nat) : State :=
  p.lanes.foldl (fun v l => correctTile t h (offs l) n v) s

theorem lanesCorrected_cur (s : State) (p : Ply) (t h n : Nat) (offs : Nat → Nat) : (lanesCorrected s p t h n offs).cur = s.cur :=
  foldl_cur _ (fun _ _ => correctTile_cur ..) _ _

/-- The state in which the words of the lanes are on their way to the rows of `rs`, counted in TOPS. -/
def tileLoaded (k : Nat) (p p' : Ply) (rs : List VReg) (vals : List (Nat × List Word)) (y : Core) (u : State) : State :=
  let ps := fillAll vals (piecesFor p' rs p.lanes)
  let flight := { Flight.issue u k p false with tops := true, rows := pieceRows ps, pieces := ps }
  (takeRows k p' (u.setCore (coreOf k) { y with loads := y.loads ++ [flight] })).bump

/-- Once its registers are open, TLD reaches its tile: with rows in the pool, the words of its lanes go on
their way, or the lowest lane with a poisoned word raises its cause. -/
theorem tld_reaches {d a : VReg} {h : BitVec 8} {z : Size} {x : Bool} {s : State} {p : Ply} (hlanes : p.lanes ≠ [])
    (ho : Open s p [(a, p.lanes)] ((regList d (regCount z.bytes)).map fun r => (r, p.lanes))) :
    let n := z.bytes
    let rs := regList d (regCount n)
    let offs := tileOff (here s) p a
    ∃ go, ReachesTile (.tld d a h z x) s p h.toNat n offs go ∧
      ∀ t tile, (prepareRegs (here s) p p.lanes rs).isSome = true →
        let u := lanesCorrected s p t h.toNat n offs
        let im := fun l => tile.read (offs l) n
        (∀ y p', (∀ l ∈ p.lanes, (im l).tileError = none) → prepareRegs (u.core (coreOf s.cur)) p p.lanes rs = some (y, p') →
          go t tile = .next (tileLoaded s.cur p p' rs (p.lanes.map fun l => (l, loadWords z x (im l).value)) y u)) ∧
        ∀ pre l post e, p.lanes = pre ++ l :: post → (∀ m ∈ pre, (im m).tileError = none) → (im l).tileError = some e →
          go t tile = .before (tileRecord t tile (im l) (plyid s.cur p) u) e 0 0 := by
  refine ⟨_, ⟨_, exec_tld d a h z x s, (gated_here ho).trans (if_neg (by simpa using hlanes))⟩, fun t tile hrows => ?_⟩
  intro u im
  have hcur : u.cur = s.cur := lanesCorrected_cur ..
  have hu : p.lanes.foldl (fun v l => correctTile t h.toNat (tileOff (here s) p a l) z.bytes v) s = u := rfl
  have hpool := Option.isNone_eq_false_iff.mpr hrows
  refine ⟨fun y p' hclean hp' => ?_, fun pre l post e hlanes hpre hl => ?_⟩
  · have herr : (p.lanes.findSome? fun l => (im l).tileError.map fun e => (e, im l)) = none :=
      List.findSome?_eq_none_iff.mpr fun l hl => by rw [hclean l hl, Option.map_none]
    simp only [hpool, Bool.false_eq_true, if_false, hu, hcur]
    rw [herr]
    simp only [hp']
    rfl
  · have herr : (p.lanes.findSome? fun l => (im l).tileError.map fun e => (e, im l)) = some (e, im l) :=
      List.findSome?_eq_some_iff.mpr ⟨pre, l, post, hlanes, by rw [hl, Option.map_some], fun m hm => by rw [hpre m hm, Option.map_none]⟩
    simp only [hpool, Bool.false_eq_true, if_false, hu, hcur]
    rw [herr]

/-! ### TST -/

/-- Once its registers are open, TST reaches its tile: the bytes of its lanes go into the tile in lane order, and it counts in TOPS. -/
theorem tst_reaches {d a : VReg} {h : BitVec 8} {z : Size} {s : State} {p : Ply} (hlanes : p.lanes ≠ [])
    (ho : StoreOpen s p a (regList d (regCount z.bytes))) :
    let n := z.bytes
    let rs := regList d (regCount n)
    let offs := tileOff (here s) p a
    ∃ go, ReachesTile (.tst d a h z) s p h.toNat n offs go ∧
      ∀ t tile, go t tile = .next (enterStore (coreOf s.cur) { Flight.issue s s.cur p false with tops := true }
        (s.setTile t h.toNat (p.lanes.foldl (fun y l => y.write (offs l) ((wordsBytes (laneData (here s) p rs l)).take n)
          (if anyPoison (here s) p rs l then some .memory else none)) tile))) :=
  ⟨_, ⟨_, exec_tst d a h z s, (gatedData_open ho).trans (if_neg (by simpa using hlanes))⟩, fun _ _ => rfl⟩

/-- Settles O22: TLD and TST reach their tile through `onTile`, TLD with its words on their way, TST with its bytes in the tile. -/
theorem tileAccess : Obligations.TileAccess := by
  intro d a h z x s p hp hlanes n rs off reads writes load store
  have hload (ho : reads) := tld_reaches (h := h) (x := x) hlanes ho
  have hstore (ho : writes) := tst_reaches (h := h) hlanes ho
  refine ⟨fun t tile ht hx => ⟨fun hfits hw => ⟨fun ho hrows => ?_, fun ho => ?_⟩, fun hfits hw => ⟨fun ho => ?_, fun ho => ?_⟩,
    fun pre l post hsplit hpre => ?_⟩, fun hnone l ls hfirst => ⟨fun ho => ?_, fun ho => ?_⟩⟩
  · obtain ⟨go, hr, hgo⟩ := hload ho
    obtain ⟨hloaded, hpoison⟩ := hgo t tile hrows
    exact ⟨fun hclean y p' hp' => tile_completes hp hr ht hx hfits hw (hloaded y p' hclean hp'),
      fun pre l post e hsplit hpre hl => tile_raises hp hr ht hx hfits hw (hpoison pre l post e hsplit hpre hl)⟩
  · obtain ⟨go, hr, hgo⟩ := hstore ho
    exact tile_completes hp hr ht hx hfits hw (hgo t tile)
  · obtain ⟨go, hr, -⟩ := hload ho
    exact tile_standsBack hp hr ht hx hfits hw
  · obtain ⟨go, hr, -⟩ := hstore ho
    exact tile_standsBack hp hr ht hx hfits hw
  · have hraises (c : Cause) (hc : tileCause tile n (off l) = some c) :
        (reads → Raises {} load s p s c (BitVec.ofNat 64 (off l)) 0) ∧ (writes → Raises {} store s p s c (BitVec.ofNat 64 (off l)) 0) := by
      refine ⟨fun ho => ?_, fun ho => ?_⟩
      · obtain ⟨go, hr, -⟩ := hload ho
        exact tile_lane_raises hp hr ht hx hsplit hpre hc
      · obtain ⟨go, hr, -⟩ := hstore ho
        exact tile_lane_raises hp hr ht hx hsplit hpre hc
    exact ⟨fun hl => hraises _ (tileCause_misaligned hl), fun ha hl => hraises _ (tileCause_beyond ha hl)⟩
  · obtain ⟨go, hr, -⟩ := hload ho
    exact tile_unknown hp hr hnone hfirst
  · obtain ⟨go, hr, -⟩ := hstore ho
    exact tile_unknown hp hr hnone hfirst
end Sys2Proof.Machine
end
